-- ==== Sys2Proof/Word.lean ====
section
/-! DEFINITION. The word types of the device: bytes, 32-bit words, 4-bit residue codes (R20). -/

namespace Sys2Proof

/-- Eight bits. -/
abbrev Byte := BitVec 8

/-- The 32 data bits of a word. -/
abbrev Word := BitVec 32

/-- A 4-bit residue code: 0 to 14 a residue, 15 Poison (R20). -/
abbrev Code := BitVec 4

/-- The residue code that marks a word known bad (R20, Table 0.1). -/
def poisonCode : Code := 15#4

/-- A stored word: 32 data bits and their residue code, whether or not the two agree (R20). -/
structure CWord where
  data : Word
  code : Code
  deriving DecidableEq, Repr

/-- The word of zero data bits and residue 0 that a fresh register or store holds (R101, R149). -/
def CWord.zero : CWord := ⟨0#32, 0#4⟩

end Sys2Proof
end

