-- ==== Sys2Proof/Machine/Crc.lean ====
section
/-! DEFINITION. The cyclic redundancy checks: CRC-32C of copy chains (R133) and CRC-64/ECMA-182 of store
signatures and flits (R439, R16). -/

namespace Sys2Proof.Machine

/-- One bit step of the reflected CRC-32C. -/
def crc32cBit (c : BitVec 32) : BitVec 32 := if c.getLsbD 0 then (c >>> 1) ^^^ 0x82F63B78#32 else c >>> 1

/-- Apply a function n times. -/
def iterate {α : Type} (f : α → α) : Nat → α → α
  | 0, x => x
  | n + 1, x => iterate f n (f x)

def crc32cByte (c : BitVec 32) (b : Byte) : BitVec 32 := iterate crc32cBit 8 (c ^^^ b.setWidth 32)

/-- Running value of CRC-32C, before the final exclusive-or. -/
def crc32c (c : BitVec 32) (bs : List Byte) : BitVec 32 := bs.foldl crc32cByte c

/-- One bit step of CRC-64/ECMA-182. -/
def crc64Bit (c : BitVec 64) : BitVec 64 := if c.getLsbD 63 then (c <<< 1) ^^^ 0x42F0E1EBA9EA3693#64 else c <<< 1

def crc64Byte (c : BitVec 64) (b : Byte) : BitVec 64 := iterate crc64Bit 8 (c ^^^ (b.setWidth 64 <<< 56))

/-- CRC-64/ECMA-182 of some bytes, initial value 0. -/
def crc64 (bs : List Byte) : BitVec 64 := bs.foldl crc64Byte 0#64

/-- ADD32: running sum and pending bytes of an unfinished word (R133). -/
def add32 (sum : BitVec 32) (part : List Byte) : List Byte → BitVec 32 × List Byte
  | [] => (sum, part)
  | b :: bs =>
    match part with
    | [x, y, z] => add32 (sum + (b ++ (z ++ (y ++ x)))) [] bs
    | p => add32 sum (p ++ [b]) bs

end Sys2Proof.Machine
end

