-- ==== Sys2Proof/Syntax.lean ====
section
/-! DEFINITION. The steps of the machine as syntax: one constructor of `Instr` for each row of
opcode_table.json. The first part are the instructions of the 96-bit encoding (R153 to R158), the second
part the events of engines, homes, distributors, host and environment. -/

namespace Sys2Proof

/-! ### Fields shared by every instruction word -/

/-- Guard and hint fields, Table 8.5: GNEG, GIDX, ST, PS, YIELD and REUSE. -/
structure Hints where
  gneg : Bool
  gidx : BitVec 4
  st : BitVec 4
  ps : BitVec 3
  yld : Bool
  reuse : Bool
  deriving DecidableEq, Repr

/-- A vector, uniform or temporary register (R154, R37). -/
inductive Reg where
  | v (i : BitVec 8)
  | s (i : BitVec 10)
  | k (i : BitVec 3)
  deriving DecidableEq, Repr

/-- Index of a uniform register. -/
abbrev U := BitVec 10

/-- Field B as an operand: kinds 00, 01 and 10 of Table 8.6. -/
inductive Opd where
  | reg (r : Reg)
  | win (n : BitVec 3) (off : BitVec 17)
  | imm (w : Word)
  deriving DecidableEq, Repr

/-- Integer types of R168. -/
inductive IntTy where
  | s32 | n32 | s64 | n64 | s16 | n16 | s8 | n8
  deriving DecidableEq, Repr

/-- Float types of R222. -/
inductive FloatTy where
  | f64 | f32 | f16 | bf16
  deriving DecidableEq, Repr

/-- Compare codes 0 to 5 of ICMP (R218). -/
inductive ICond where
  | eq | ne | lt | le | gt | ge
  deriving DecidableEq, Repr

/-- Compare codes of FCMP (R232). -/
inductive FCond where
  | eq | ne | lt | le | gt | ge | num | nan
  deriving DecidableEq, Repr

/-- COMB of ICMP and FCMP (R218). -/
inductive Comb where
  | set | conj | disj
  deriving DecidableEq, Repr

/-- Negate and absolute-value modifiers of a float operand (R223). -/
structure NegAbs where
  neg : Bool
  abs : Bool
  deriving DecidableEq, Repr

/-- RM of FRND (R230); CVTI uses the first four (R240). -/
inductive RMode where
  | rn | rz | rd | ru | rf
  deriving DecidableEq, Repr

/-- A binary8 format: unsigned, finite, precision P (R177, R233). -/
structure B8Fmt where
  uns : Bool
  fin : Bool
  p : BitVec 3
  deriving DecidableEq, Repr

/-- Narrow float formats of CVTN (R241). -/
inductive NarrowFmt where
  | bg4
  | b8 (q : B8Fmt)
  deriving DecidableEq, Repr

/-- Formats of QNT, DQNT and QSCL (R242). -/
inductive QuantFmt where
  | bg4
  | b8 (q : B8Fmt)
  | s8 | n8 | s16 | n16
  deriving DecidableEq, Repr

/-- Formats of QSPL (R245). -/
inductive SplitFmt where
  | f32 | f16 | bf16 | s8 | n8
  | b8 (q : B8Fmt)
  deriving DecidableEq, Repr

/-- WF of CVTN and DQNT (R241). -/
inductive WideFmt where
  | f32 | f16 | bf16
  deriving DecidableEq, Repr

/-- SZ of PACK and UNPK (R247). -/
inductive PackSz where
  | h | b | n
  deriving DecidableEq, Repr

/-- MODE of SHFL (R249). -/
inductive ShflMode where
  | sel | rot | xch | rev
  deriving DecidableEq, Repr

/-- Destination and form of VOTE (R250). -/
inductive VoteForm where
  | all (g : BitVec 3)
  | any (g : BitVec 3)
  | eq (g : BitVec 3)
  | mask (d : Reg)
  deriving DecidableEq, Repr

/-- TY of LRED and LSCN (R248). -/
inductive RedTy where
  | s32 | n32 | s64 | n64 | f64 | f32 | f16 | bf16
  deriving DecidableEq, Repr

/-- OP of LRED and LSCN (R248). -/
inductive RedOp where
  | add | min | max | and | or | xor
  deriving DecidableEq, Repr

/-- Memory data sizes of Table 13.1. -/
inductive MemSz where
  | b32 | b64 | b128 | s16 | n16 | s8 | n8
  deriving DecidableEq, Repr

/-- TY of the atomics (R293). -/
inductive AtomTy where
  | s32 | n32 | s64 | n64 | f64 | f32 | f16x2 | bf16x2
  deriving DecidableEq, Repr

/-- OP of the atomics (R293). -/
inductive AtomOp where
  | add | min | max | and | or | xor | exch
  deriving DecidableEq, Repr

/-- The scope ladder, Table 14.1. -/
inductive Scope where
  | thread | tg | wg | cluster | die | device | system
  deriving DecidableEq, Repr

/-- Fence kinds, Table 14.4. -/
inductive FenceKind where
  | acq | rel | ar | full
  deriving DecidableEq, Repr

/-- Accumulator formats AF (R258). -/
inductive AccFmt where
  | f32 | f64 | s32 | s64
  deriving DecidableEq, Repr

/-- SEL of TDR (R264). -/
inductive TdrSel where
  | dw0 | dw1 | dw2 | dw3 | sat | flush | e | map
  deriving DecidableEq, Repr

/-- Counter classes of WAITC (R355). -/
inductive CntClass where
  | cpy | mat | dcmp | mem
  deriving DecidableEq, Repr

/-! ### Operands of events -/

/-- A thread group: workgroup number of the device and `sr.tg`. -/
structure TgRef where
  wg : Nat
  tg : Nat
  deriving DecidableEq, Repr

/-- A flit as it arrives at a router: 48 payload words with their codes, the header bytes and the CRC
(R15). -/
structure Flit where
  words : List CWord
  header : List Byte
  crc : BitVec 64
  deriving DecidableEq, Repr

/-- A frame as an Otaethar receiver takes it: the peer it comes from, the destination address in the bound
context, the words with their codes, and whether the link CRC holds (R141). -/
structure Frame where
  peer : BitVec 4
  va : BitVec 57
  words : List CWord
  crcOk : Bool
  deriving DecidableEq, Repr

/-- A workgroup's place in a placement: its rank in the unit, its core and the slots of its thread groups
(R382, R394). -/
structure PlaceHint where
  core : Nat
  slots : List Nat
  deriving DecidableEq, Repr

/-- A testable unit of Table 19.4: of a core or of a cluster, with its index j. -/
inductive TestUnit where
  | core (k : Nat) (j : Nat)
  | cluster (c : Nat) (j : Nat)
  deriving DecidableEq, Repr

/-- The steps of the machine, one constructor for each row of opcode_table.json. -/
inductive Instr where
  -- group 0x0: control (R346)
  | nop (h : Hints)
  | bra (h : Hints) (off : Word)
  | brx (h : Hints) (a : Reg)
  | call (h : Hints) (sv : Option Reg) (off : Word)
  | callx (h : Hints) (sv : Option Reg) (a : Reg)
  | ret (h : Hints) (ld : Option Reg)
  | exit (h : Hints)
  | rcv (h : Hints) (off : Word)
  | join (h : Hints)
  | cut (h : Hints) (b : Opd)
  | cutWaitEnd (r : TgRef)
  | yield (h : Hints)
  | brk (h : Hints) (code : BitVec 16)
  | trap (h : Hints) (code : BitVec 16)
  | tret (h : Hints)
  | lnch (h : Hints) (after : Bool) (d : U) (a : U)
  -- group 0x1: integer (R202)
  | iadd (h : Hints) (ty : IntTy) (sat : Bool) (d : Reg) (a : Reg) (b : Opd)
  | iaddx (h : Hints) (ty : IntTy) (d : Reg) (co : BitVec 3) (a : Reg) (b : Opd) (ci : Option (BitVec 3))
  | isub (h : Hints) (ty : IntTy) (sat : Bool) (d : Reg) (a : Reg) (b : Opd)
  | ineg (h : Hints) (ty : IntTy) (sat : Bool) (d : Reg) (b : Opd)
  | iabs (h : Hints) (ty : IntTy) (sat : Bool) (d : Reg) (b : Opd)
  | imin (h : Hints) (ty : IntTy) (d : Reg) (a : Reg) (b : Opd)
  | imax (h : Hints) (ty : IntTy) (d : Reg) (a : Reg) (b : Opd)
  | imul (h : Hints) (ty : IntTy) (sat : Bool) (d : Reg) (a : Reg) (b : Opd)
  | imulh (h : Hints) (ty : IntTy) (d : Reg) (a : Reg) (b : Opd)
  | imad (h : Hints) (ty : IntTy) (d : Reg) (a : Reg) (b : Opd) (c : Reg)
  | imadw (h : Hints) (ty : IntTy) (d : Reg) (a : Reg) (b : Opd) (c : Reg)
  | idiv (h : Hints) (ty : IntTy) (d : Reg) (a : Reg) (b : Opd)
  | irem (h : Hints) (ty : IntTy) (d : Reg) (a : Reg) (b : Opd)
  | idot4 (h : Hints) (ty : IntTy) (mix : Bool) (d : Reg) (a : Reg) (b : Opd) (c : Reg)
  | isad (h : Hints) (ty : IntTy) (d : Reg) (a : Reg) (b : Opd) (c : Reg)
  | iclamp (h : Hints) (ty : IntTy) (d : Reg) (a : Reg) (b : Opd) (c : Reg)
  | lea (h : Hints) (ty : IntTy) (k : BitVec 3) (d : Reg) (a : Reg) (b : Opd)
  -- group 0x2: logic, shift, bit (R209); `w` is true for the 64-bit form
  | and (h : Hints) (w : Bool) (d : Reg) (a : Reg) (b : Opd)
  | or (h : Hints) (w : Bool) (d : Reg) (a : Reg) (b : Opd)
  | xor (h : Hints) (w : Bool) (d : Reg) (a : Reg) (b : Opd)
  | andn (h : Hints) (w : Bool) (d : Reg) (a : Reg) (b : Opd)
  | orn (h : Hints) (w : Bool) (d : Reg) (a : Reg) (b : Opd)
  | lop3 (h : Hints) (w : Bool) (f0 : BitVec 4) (f1 : BitVec 4) (d : Reg) (a : Reg) (b : Opd) (c : Reg)
  | shl (h : Hints) (w : Bool) (wrap : Bool) (d : Reg) (a : Reg) (b : Opd)
  | shr (h : Hints) (w : Bool) (wrap : Bool) (d : Reg) (a : Reg) (b : Opd)
  | sar (h : Hints) (w : Bool) (wrap : Bool) (d : Reg) (a : Reg) (b : Opd)
  | rol (h : Hints) (w : Bool) (d : Reg) (a : Reg) (b : Opd)
  | fsh (h : Hints) (left : Bool) (d : Reg) (a : Reg) (b : Opd) (c : Reg)
  | popc (h : Hints) (w : Bool) (d : Reg) (b : Opd)
  | clz (h : Hints) (w : Bool) (d : Reg) (b : Opd)
  | ctz (h : Hints) (w : Bool) (d : Reg) (b : Opd)
  | brev (h : Hints) (w : Bool) (d : Reg) (b : Opd)
  | bfx (h : Hints) (ty : IntTy) (d : Reg) (a : Reg) (b : Opd)
  | bfi (h : Hints) (w : Bool) (d : Reg) (a : Reg) (b : Opd) (c : Reg)
  | permb (h : Hints) (d : Reg) (a : Reg) (b : Opd) (c : Reg)
  -- group 0x3: compare, move, residue (R217, R232, R38)
  | icmp (h : Hints) (ty : IntTy) (cmp : ICond) (comb : Comb) (g : BitVec 3) (a : Reg) (b : Opd)
  | fcmp (h : Hints) (ty : FloatTy) (cmp : FCond) (comb : Comb) (g : BitVec 3) (a : Reg) (b : Opd)
  | gset (h : Hints) (lut : BitVec 4) (g : BitVec 3) (ga : BitVec 3) (gb : BitVec 3)
  | gsetNz (h : Hints) (g : BitVec 3) (b : Opd)
  | gmov (h : Hints) (w : Bool) (n : BitVec 3) (neg : Bool) (d : Reg) (a : Reg) (b : Opd)
  | sel (h : Hints) (w : Bool) (d : Reg) (a : Reg) (b : Opd) (c : Reg)
  | mov (h : Hints) (w : Bool) (d : Reg) (b : Opd)
  | rsd (h : Hints) (w : Bool) (raw : Bool) (d : Reg) (b : Opd)
  | rsdp (h : Hints) (w : Bool) (d : Reg) (b : Opd)
  | rsdq (h : Hints) (w : Bool) (g : BitVec 3) (b : Opd)
  -- group 0x4: float (R227)
  | fadd (h : Hints) (ty : FloatTy) (ma mb : NegAbs) (d : Reg) (a : Reg) (b : Opd)
  | fsub (h : Hints) (ty : FloatTy) (ma mb : NegAbs) (d : Reg) (a : Reg) (b : Opd)
  | fmul (h : Hints) (ty : FloatTy) (ma mb : NegAbs) (d : Reg) (a : Reg) (b : Opd)
  | ffma (h : Hints) (ty : FloatTy) (ma mb mc : NegAbs) (d : Reg) (a : Reg) (b : Opd) (c : Reg)
  | fmin (h : Hints) (ty : FloatTy) (ma mb : NegAbs) (d : Reg) (a : Reg) (b : Opd)
  | fmax (h : Hints) (ty : FloatTy) (ma mb : NegAbs) (d : Reg) (a : Reg) (b : Opd)
  | frnd (h : Hints) (ty : FloatTy) (rm : RMode) (mb : NegAbs) (d : Reg) (b : Opd)
  | fscl (h : Hints) (ty : FloatTy) (ma : NegAbs) (d : Reg) (a : Reg) (b : Opd)
  | fcls (h : Hints) (ty : FloatTy) (d : Reg) (b : Opd)
  -- group 0x5: packed (R233); `bf` is true for bfloat16
  | hadd2 (h : Hints) (bf na nb : Bool) (d : Reg) (a : Reg) (b : Opd)
  | hmul2 (h : Hints) (bf na nb : Bool) (d : Reg) (a : Reg) (b : Opd)
  | hfma2 (h : Hints) (bf na nb nc : Bool) (d : Reg) (a : Reg) (b : Opd) (c : Reg)
  | hmin2 (h : Hints) (bf na nb : Bool) (d : Reg) (a : Reg) (b : Opd)
  | hmax2 (h : Hints) (bf na nb : Bool) (d : Reg) (a : Reg) (b : Opd)
  | qadd4 (h : Hints) (q : B8Fmt) (d : Reg) (a : Reg) (b : Opd)
  | qmul4 (h : Hints) (q : B8Fmt) (d : Reg) (a : Reg) (b : Opd)
  | qfma4 (h : Hints) (q : B8Fmt) (d : Reg) (a : Reg) (b : Opd) (c : Reg)
  | qmax4 (h : Hints) (abs : Bool) (q : B8Fmt) (d : Reg) (a : Reg) (b : Opd)
  | dot2 (h : Hints) (bf : Bool) (d : Reg) (a : Reg) (b : Opd) (c : Reg)
  | dot4q (h : Hints) (qa qb : B8Fmt) (d : Reg) (a : Reg) (b : Opd) (c : Reg)
  | dotbg (h : Hints) (d : Reg) (a : Reg) (b : Opd) (c : Reg)
  -- group 0x6: special functions and conversions (R237)
  | rcp (h : Hints) (ty : FloatTy) (d : Reg) (b : Opd)
  | rsq (h : Hints) (ty : FloatTy) (d : Reg) (b : Opd)
  | sqrt (h : Hints) (ty : FloatTy) (d : Reg) (b : Opd)
  | fdiv (h : Hints) (ty : FloatTy) (d : Reg) (a : Reg) (b : Opd)
  | exp2 (h : Hints) (ty : FloatTy) (d : Reg) (b : Opd)
  | log2 (h : Hints) (ty : FloatTy) (d : Reg) (b : Opd)
  | sin (h : Hints) (ty : FloatTy) (d : Reg) (b : Opd)
  | cos (h : Hints) (ty : FloatTy) (d : Reg) (b : Opd)
  | tanh (h : Hints) (ty : FloatTy) (d : Reg) (b : Opd)
  | cvt (h : Hints) (dt st : FloatTy) (d : Reg) (b : Opd)
  | cvtiToInt (h : Hints) (it : IntTy) (ft : FloatTy) (rm : RMode) (d : Reg) (b : Opd)
  | cvtiFromInt (h : Hints) (it : IntTy) (ft : FloatTy) (d : Reg) (b : Opd)
  | cvtnNarrow (h : Hints) (nf : NarrowFmt) (wf : WideFmt) (d : Reg) (b : Opd)
  | cvtnWiden (h : Hints) (nf : NarrowFmt) (wf : WideFmt) (d : Reg) (b : Opd)
  | qnt (h : Hints) (nf : QuantFmt) (gs : Option (BitVec 3)) (d : Reg) (a : Reg) (b : Opd) (c : Reg)
  | dqnt (h : Hints) (nf : QuantFmt) (wf : WideFmt) (d : Reg) (a : Reg) (b : Opd)
  | qscl (h : Hints) (nf : QuantFmt) (e : Bool) (d : Reg) (b : Opd)
  | qspl (h : Hints) (nf : SplitFmt) (d : Reg) (b : Opd)
  | qsplRec (h : Hints) (d : U) (a : U) (b : Opd)
  | pack (h : Hints) (sz : PackSz) (pos : BitVec 3) (d : Reg) (a : Reg) (b : Opd)
  | unpk (h : Hints) (sz : PackSz) (pos : BitVec 3) (sx : Bool) (d : Reg) (b : Opd)
  -- group 0x7: cross-lane (R248)
  | shfl (h : Hints) (mode : ShflMode) (w : Bool) (seg : BitVec 3) (d : Reg) (a : Reg) (b : Opd)
  | vote (h : Hints) (form : VoteForm) (neg : Bool) (ga : BitVec 3)
  | lred (h : Hints) (ty : RedTy) (op : RedOp) (d : Reg) (b : Opd)
  | lscn (h : Hints) (ty : RedTy) (op : RedOp) (exc : Bool) (d : Reg) (b : Opd)
  | mtch (h : Hints) (w : Bool) (d : Reg) (b : Opd)
  | rdln (h : Hints) (w : Bool) (d : U) (a : Reg) (b : Opd)
  | wrln (h : Hints) (w : Bool) (d : BitVec 8) (a : U) (b : Opd)
  -- group 0x8: global memory (R293)
  | ld (h : Hints) (sz : MemSz) (mis nt : Bool) (d : Reg) (a : Reg) (b : Opd)
  | st (h : Hints) (sz : MemSz) (mis nt : Bool) (d : Reg) (a : Reg) (b : Opd)
  | lda (h : Hints) (sz : MemSz) (sc : Scope) (d : Reg) (a : Reg) (b : Opd)
  | stl (h : Hints) (sz : MemSz) (sc : Scope) (d : Reg) (a : Reg) (b : Opd)
  | ldc (h : Hints) (sz : MemSz) (d : Reg) (n : BitVec 3) (a : Reg) (off : BitVec 19)
  | pref (h : Hints) (l1 : Bool) (a : Reg) (b : Opd)
  | preft (h : Hints) (l1 : Bool) (bar : BitVec 4) (a : U) (b : Opd)
  -- group 0x9: scratchpad and granules
  | lds (h : Hints) (sz : MemSz) (d : Reg) (a : Reg) (b : Opd)
  | sts (h : Hints) (sz : MemSz) (d : Reg) (a : Reg) (b : Opd)
  | ldfKeep (h : Hints) (sz : MemSz) (d : Reg) (a : Reg) (b : Opd)
  | ldfTake (h : Hints) (sz : MemSz) (d : Reg) (a : Reg) (b : Opd)
  | ldfReadPerform (r : TgRef)
  | stf (h : Hints) (sz : MemSz) (d : Reg) (a : Reg) (b : Opd)
  | grnClr (h : Hints) (a : U) (b : Opd)
  | grnSet (h : Hints) (a : U) (b : Opd)
  | grnQry (h : Hints) (d : U) (a : U) (b : Opd)
  | ldx (h : Hints) (sz : MemSz) (k : BitVec 3) (d : Reg) (a : Reg) (b : Opd)
  | stx (h : Hints) (sz : MemSz) (k : BitVec 3) (d : Reg) (a : Reg) (b : Opd)
  -- group 0xA: atomics, fences, range slots
  | atom (h : Hints) (ty : AtomTy) (op : AtomOp) (sc : Scope) (d : Reg) (a : Reg) (b : Opd)
  | atoms (h : Hints) (ty : AtomTy) (op : AtomOp) (d : Reg) (a : Reg) (b : Opd)
  | red (h : Hints) (ty : AtomTy) (op : AtomOp) (sc : Scope) (a : Reg) (b : Opd)
  | redSpad (h : Hints) (ty : AtomTy) (op : AtomOp) (a : Reg) (b : Opd)
  | cas (h : Hints) (ty : AtomTy) (sc : Scope) (d : Reg) (a : Reg) (b : Opd) (c : Reg)
  | cass (h : Hints) (ty : AtomTy) (d : Reg) (a : Reg) (b : Opd) (c : Reg)
  | fence (h : Hints) (kind : FenceKind) (sc : Scope) (mask : BitVec 8)
  | rngs (h : Hints) (spad : Bool) (f : BitVec 3) (a : U) (b : U)
  | rngsT (h : Hints) (f : BitVec 3) (th : BitVec 6)
  | rngc (h : Hints) (f : BitVec 3)
  -- group 0xB: matrix (R258)
  | tdw (h : Hints) (clr : Bool) (n : U) (th : BitVec 6)
  | tdr (h : Hints) (sel : TdrSel) (clr : Bool) (d : U) (th : BitVec 6) (j : BitVec 6)
  | macq (h : Hints) (af : AccFmt) (g : BitVec 3) (m : BitVec 4) (b : Opd)
  | mrel (h : Hints) (m : BitVec 4)
  | mzro (h : Hints) (m : BitVec 4)
  | mma (h : Hints) (acc : Bool) (m : BitVec 4) (n : U) (ta tb : BitVec 6)
  | mmaGang (h : Hints) (acc : Bool) (m : BitVec 4) (n : U) (ta tb : BitVec 6)
  | mgng (h : Hints) (n : U)
  | mgngClr (h : Hints)
  | mlda (h : Hints) (m : BitVec 4) (n : U) (th : BitVec 6)
  | msta (h : Hints) (m : BitVec 4) (n : U) (th : BitVec 6) (gs : Option (BitVec 3))
  | mprgRd (h : Hints) (d : U)
  | mprgPc (h : Hints) (d : U)
  | mprgGo (h : Hints)
  | mprgAb (h : Hints)
  | mdupClr (h : Hints) (th : BitVec 6)
  | mdupCp (h : Hints) (td ts : BitVec 6)
  -- group 0xC: engines (R355)
  | cpy (h : Hints) (n : U)
  | cpygGather (h : Hints) (n : U) (b : Opd)
  | cpygScatter (h : Hints) (n : U) (b : Opd)
  | cpyx (h : Hints) (n : U) (p : BitVec 4)
  | cpyrGo (h : Hints) (g : BitVec 3) (a : U)
  | cpyrAb (h : Hints) (g : BitVec 3) (a : U)
  | dcmp (h : Hints) (n : U)
  | waitc (h : Hints) (c : CntClass) (n : BitVec 8)
  | dgrs (h : Hints) (k : BitVec 3) (b : Opd)
  | dgrsClr (h : Hints) (k : BitVec 3)
  -- group 0xD: barriers and splices (R363)
  | bari (h : Hints) (bar : BitVec 4) (e : BitVec 12)
  | barv (h : Hints) (bar : BitVec 4) (rd : Option U)
  | barw (h : Hints) (bar : BitVec 4) (b : Opd) (rd : Option U)
  | bars (h : Hints) (bar : BitVec 4) (rd : Option U)
  | spli (h : Hints) (bar : BitVec 4) (len : BitVec 4) (ef ee : BitVec 12)
  | splwFull (h : Hints) (bar : BitVec 4) (b : Opd) (rd : Option U)
  | splwEmpty (h : Hints) (bar : BitVec 4) (b : Opd) (rd : Option U)
  | spld (h : Hints) (bar : BitVec 4) (b : Opd)
  -- group 0xE: system (R368)
  | rdsr (h : Hints) (n : BitVec 10) (d : Reg)
  | wrsr (h : Hints) (n : BitVec 10) (b : Opd)
  | slate (h : Hints) (tag : BitVec 16)
  | erriCnt (h : Hints) (d : U)
  | erriRd (h : Hints) (n : U) (ix : BitVec 8)
  | erriPop (h : Hints)
  | takeSig (h : Hints) (d : U)
  | takeCmt (h : Hints)
  -- events of the thread groups and engines
  | boundaryTrap (r : TgRef)
  | copyCommandAccept (core : Nat) (part : Nat)
  | copyQueueHead (core : Nat) (part : Nat)
  | copyChunkRead (core : Nat) (entry : Nat)
  | copyChunkCommit (core : Nat) (entry : Nat)
  | cpyxChunkAck (core : Nat) (entry : Nat) (ok : Bool)
  | preftChunk (core : Nat) (entry : Nat)
  | decompressionJobRun (cluster : Nat) (ix : Nat)
  | decompressionJobComplete (cluster : Nat) (ix : Nat)
  -- events of homes, walkers and memory controllers
  | l2Lookup (r : TgRef) (op : Nat) (acc : Nat)
  | codedMerge (r : TgRef) (op : Nat) (acc : Nat)
  | homeAtomic (r : TgRef) (op : Nat) (acc : Nat)
  | pageWalk (core : Nat) (ctx : Nat) (va : BitVec 57)
  | mapoutDeclare (stack : Nat) (die : Nat)
  | mapoutReq (stack : BitVec 4) (seg : BitVec 4)
  | crflush (ctx : BitVec 16)
  | tlbinvPage (ctx : BitVec 16)
  | tlbinvAll (ctx : BitVec 16)
  | waysAll (part : BitVec 3) (ways : BitVec 16)
  -- events of mesh and links
  | meshFlitReceive (link : Nat) (router : BitVec 3) (f : Flit)
  | meshLinkRetrain (link : Nat) (ok : Bool)
  | linkFrameReceive (link : Nat) (f : Frame)
  | linkTrainingDone (link : Nat) (ok : Bool) (margin : BitVec 16)
  -- events of launch
  | doorbellTail (part : BitVec 3) (tail : Word)
  | launchAccept (part : BitVec 3)
  | placeDistributedUnit (die : Nat) (at_ : List PlaceHint) (at1 : List PlaceHint)
  | activeSetRotation (core : Nat) (pipe : Nat)
  -- events of system software
  | ctxcmdCreate (ctx : BitVec 16)
  | ctxcmdDestroy (ctx : BitVec 16)
  | ctxcmdPreempt (ctx : BitVec 16) (core : BitVec 9) (slot : BitVec 6)
  | ctxcmdRestore (ctx : BitVec 16) (at_ : List PlaceHint)
  | ctxcmdEndWorkgroup (ctx : BitVec 16) (core : BitVec 9) (slot : BitVec 6)
  | ctxcmdStep (ctx : BitVec 16) (core : BitVec 9) (slot : BitVec 6)
  | ctxcmdStepThread (ctx : BitVec 16) (core : BitVec 9) (slot : BitVec 6) (thread : BitVec 6)
  | ctxcmdResume (ctx : BitVec 16) (core : BitVec 9) (slot : BitVec 6)
  | logPop (part : BitVec 3)
  | windowRead (off : BitVec 36)
  | windowWrite (off : BitVec 36) (v : BitVec 64)
  | registerWrite (off : BitVec 24) (size : Nat) (v : BitVec 64)
  | slateFire (tag : BitVec 16)
  -- events of the defences
  | takeAtomicPair (r : TgRef) (op : Nat) (acc : Nat)
  | rushesEntryFree (r : TgRef)
  | schedulerRebuild (cluster : Nat) (lost : List Nat)
  | dailyRun (u : TestUnit)
  | dailyRunComplete (u : TestUnit) (sig : BitVec 64)
  | wearUpdate (die : Nat) (w : BitVec 64)
  -- events of power, boot and the I/O die
  | attestationRequest (nonce : BitVec 256) (buf : BitVec 64)
  | variableLatencyResult (r : TgRef) (op : Nat)
  | hostMemoryAccess (r : TgRef) (op : Nat) (acc : Nat)
  -- every word that is no instruction of groups 0x0 to 0xE
  | extensionOperation (w : BitVec 96)
  | invalidEncoding (w : BitVec 96)
  -- events without arguments; those of one unit (core, cluster, die, link, request, workgroup or launch)
  -- act on the unit that the turn names
  | decompressionJobAccept
  | matrixArrayStep
  | matrixRowBlock
  | mrelPerform
  | gangRendezvousTimeout
  | governorWindow
  | hbmAtomWrite
  | hbmAtomRead
  | hbmReadModifyWrite
  | mapoutStart
  | mapoutAck
  | mapoutRebuildComplete
  | crflushDone
  | tlbinvDone
  | fqPop
  | fqResume
  | fqCancel
  | linkEnable
  | linkFailure
  | stealRequest
  | stagingCopy
  | workgroupStart
  | exitWriteback
  | workgroupEnd
  | launchComplete
  | preemptSave
  | preemptHoldTimeout
  | takeCommitDecide
  | takeCommitTimeout
  | coreLeaveService
  | pwrStateActive
  | pwrStateIdle
  | pwrEnterIdle
  | pwrStateOff
  | thermalThrottle
  | thermalShutdown
  | fundamentalReset
  | otaetharLinkRetrain
  deriving DecidableEq, Repr

end Sys2Proof
end

