-- ==== Sys2Proof/WellFormed.lean ====
section
/-! DEFINITION. The checks of an instruction that its own fields decide: accepted types and kinds, pairs,
uniform destinations, limits of numbers (R38 to R40, R197 to R199, R221, R254, R288, R317, R374). What
depends on the machine (register allocation, mode, role, the next word) is checked at issue. -/

namespace Sys2Proof

/-! ### Operands -/

def Reg.isV : Reg → Bool
  | .v _ => true
  | _ => false

def Reg.isS : Reg → Bool
  | .s _ => true
  | _ => false

def Reg.isK : Reg → Bool
  | .k _ => true
  | _ => false

/-- Index of a register in its file. -/
def Reg.idx : Reg → Nat
  | .v i => i.toNat
  | .s i => i.toNat
  | .k i => i.toNat

/-- The register may head a group of `n` registers (R199, R290). -/
def Reg.aligned (n : Nat) (r : Reg) : Bool := r.idx % n == 0

def Opd.isV : Opd → Bool
  | .reg r => r.isV
  | _ => false

def Opd.isK : Opd → Bool
  | .reg r => r.isK
  | _ => false

def Opd.isImm : Opd → Bool
  | .imm _ => true
  | _ => false

/-- A uniform register, a window word or an immediate (R342). -/
def Opd.uniform : Opd → Bool
  | .reg r => r.isS
  | _ => true

/-- A uniform register or an immediate. -/
def Opd.uniOrImm : Opd → Bool
  | .reg r => r.isS
  | .win _ _ => false
  | .imm _ => true

/-- The operand may supply a value of `n` words: an aligned group of registers, a window word at a
multiple of `n`, or an immediate (R156, R199). -/
def Opd.aligned (n : Nat) : Opd → Bool
  | .reg r => r.aligned n
  | .win _ off => off.toNat % n == 0
  | .imm _ => true

/-! ### Types -/

def IntTy.is64 : IntTy → Bool
  | .s64 | .n64 => true
  | _ => false

def IntTy.is32or64 : IntTy → Bool
  | .s32 | .n32 | .s64 | .n64 => true
  | _ => false

def IntTy.is32 : IntTy → Bool
  | .s32 | .n32 => true
  | _ => false

/-- 8- or 16-bit packed types (R200). -/
def IntTy.narrow (t : IntTy) : Bool := !t.is32or64

def IntTy.signed : IntTy → Bool
  | .s32 | .s64 | .s16 | .s8 => true
  | _ => false

/-- Words of one operand of the type. -/
def IntTy.words (t : IntTy) : Nat := if t.is64 then 2 else 1

def FloatTy.words : FloatTy → Nat
  | .f64 => 2
  | _ => 1

def RedTy.words : RedTy → Nat
  | .s64 | .n64 | .f64 => 2
  | _ => 1

def RedTy.isFloat : RedTy → Bool
  | .f64 | .f32 | .f16 | .bf16 => true
  | _ => false

def RedOp.isLogic : RedOp → Bool
  | .and | .or | .xor => true
  | _ => false

def MemSz.words : MemSz → Nat
  | .b64 => 2
  | .b128 => 4
  | _ => 1

def MemSz.bytes : MemSz → Nat
  | .b32 => 4
  | .b64 => 8
  | .b128 => 16
  | .s16 | .n16 => 2
  | .s8 | .n8 => 1

/-- Sizes of whole words, which LDF, STF and `.mis` accept (R297, R307). -/
def MemSz.whole : MemSz → Bool
  | .b32 | .b64 | .b128 => true
  | _ => false

def AtomTy.words : AtomTy → Nat
  | .s64 | .n64 | .f64 => 2
  | _ => 1

def AtomTy.isFloat : AtomTy → Bool
  | .f64 | .f32 | .f16x2 | .bf16x2 => true
  | _ => false

def AtomOp.isLogic : AtomOp → Bool
  | .and | .or | .xor => true
  | _ => false

def B8Fmt.ok (q : B8Fmt) : Bool := q.p != 0#3

def NarrowFmt.ok : NarrowFmt → Bool
  | .bg4 => true
  | .b8 q => q.ok

def QuantFmt.ok : QuantFmt → Bool
  | .b8 q => q.ok
  | _ => true

def SplitFmt.ok : SplitFmt → Bool
  | .b8 q => q.ok
  | _ => true

/-- Words for a form whose flag `w` marks the 64-bit width. -/
def wide (w : Bool) : Nat := if w then 2 else 1

/-! ### Special registers (Table 8.2) -/

/-- Scope and access of a special register. -/
structure SrInfo where
  thread : Bool
  bits64 : Bool
  write : Bool
  super : Bool
  deriving DecidableEq, Repr

/-- Table 8.2; none for a number that the table does not list. -/
def srInfo (n : BitVec 10) : Option SrInfo :=
  let k := n.toNat
  if k == 0x000 then some ⟨true, false, false, false⟩
  else if k == 0x001 || k == 0x002 || k == 0x003 || k == 0x004 || k == 0x005 then
    some ⟨false, false, false, false⟩
  else if 0x008 ≤ k && k ≤ 0x00F then some ⟨true, true, false, false⟩
  else if 0x010 ≤ k && k ≤ 0x018 then some ⟨false, true, false, false⟩
  else if k == 0x020 then some ⟨false, true, false, false⟩
  else if k == 0x030 then some ⟨false, true, true, false⟩
  else if k == 0x031 then some ⟨false, false, true, false⟩
  else if k == 0x038 then some ⟨false, true, false, false⟩
  else if k == 0x040 then some ⟨false, false, false, true⟩
  else if k == 0x041 then some ⟨false, true, false, true⟩
  else if k == 0x042 then some ⟨false, true, true, true⟩
  else if k == 0x043 || k == 0x044 then some ⟨false, true, false, true⟩
  else if k == 0x045 || k == 0x046 || k == 0x047 then some ⟨true, true, false, true⟩
  else if 0x048 ≤ k && k ≤ 0x04B then some ⟨false, true, false, false⟩
  else if k == 0x050 then some ⟨false, false, true, true⟩
  else if k == 0x051 then some ⟨false, true, false, false⟩
  else if k == 0x058 then some ⟨false, false, true, false⟩
  else if k == 0x059 || k == 0x05A || k == 0x05B then some ⟨false, true, false, false⟩
  else if k == 0x05C then some ⟨false, false, false, false⟩
  else none

/-! ### Shapes -/

/-- A destination of `n` words that a uniform register may be only when no source is a vector (R198). -/
def dstOk (n : Nat) (d : Reg) (vecSrc : Bool) : Bool := d.aligned n && !(d.isS && vecSrc)

/-- A destination of a variable-latency instruction: no temporary (R162). -/
def varDst (n : Nat) (d : Reg) (vecSrc : Bool) : Bool := dstOk n d vecSrc && !d.isK

/-- One source. -/
def wf1 (nd : Nat) (d : Reg) (nb : Nat) (b : Opd) : Bool := dstOk nd d b.isV && b.aligned nb

/-- Two sources. -/
def wf2 (nd : Nat) (d : Reg) (na : Nat) (a : Reg) (nb : Nat) (b : Opd) : Bool :=
  dstOk nd d (a.isV || b.isV) && a.aligned na && b.aligned nb

/-- Three sources; field B then names no immediate (Table 8.6). -/
def wf3 (nd : Nat) (d : Reg) (na : Nat) (a : Reg) (nb : Nat) (b : Opd) (nc : Nat) (c : Reg) : Bool :=
  dstOk nd d (a.isV || b.isV || c.isV) && a.aligned na && b.aligned nb && c.aligned nc && !b.isImm

/-- A load's or returning atomic's registers (R289, R290, R294). -/
def wfLoad (n : Nat) (d : Reg) (na : Nat) (a : Reg) (b : Opd) : Bool :=
  d.aligned n && !d.isK && a.aligned na && (!d.isS || (a.isS && b.uniform))

/-- A store's registers. -/
def wfStore (n : Nat) (d : Reg) (na : Nat) (a : Reg) : Bool := d.aligned n && a.aligned na

/-- The offset of a transfer: bits [1:0] zero (R346). -/
def offOk (off : Word) : Bool := off.toNat % 4 == 0

def evenV : Option Reg → Bool
  | none => true
  | some r => r.isV && r.aligned 2

/-- The operand of CUT (R165). -/
def cutOk : Opd → Bool
  | .imm w => w.toNat % 2 == 0 && w.toNat / 128 % 2 == 0 && w.toNat < 8192 && w.toNat / 256 ≤ 24
  | .reg (.s _) => true
  | _ => false

/-- The operand of MACQ (R258): a uniform, or an immediate with bits outside R and C zero. -/
def macqOk : Opd → Bool
  | .imm w => w.toNat / 1024 % 64 == 0 && w.toNat / 67108864 == 0
  | .reg (.s _) => true
  | _ => false

def multOf (n : Nat) (u : U) : Bool := u.toNat % n == 0

/-- Guards allowed by Tables 8.7 and 8.10; `deferred` for the commands that take a deferred slot. -/
def Hints.ok (h : Hints) (deferred : Bool) : Bool :=
  !(h.gidx == 15#4 && h.gneg) && h.ps != 7#3 && (deferred || h.gidx.toNat < 8 || h.gidx == 15#4)

/-- GIDX 15 with GNEG 0, the only guard of CUT (R165). -/
def Hints.always (h : Hints) : Bool := h.gidx == 15#4 && !h.gneg

/-- What the fields of the instruction alone must obey, hints apart. -/
def fieldsOk : Instr → Bool
  | .nop _ => true
  | .bra _ off => offOk off
  | .brx _ a => !a.isK && a.aligned 2
  | .call _ sv off => evenV sv && offOk off
  | .callx _ sv a => evenV sv && !a.isK && a.aligned 2
  | .ret _ ld => evenV ld
  | .exit _ => true
  | .rcv _ off => offOk off
  | .join _ => true
  | .cut h b => cutOk b && h.always && h.ps == 0#3
  | .yield _ | .brk _ _ | .trap _ _ | .tret _ => true
  | .lnch _ _ _ a => multOf 2 a
  | .iadd _ ty sat d a b | .isub _ ty sat d a b | .imul _ ty sat d a b =>
      (!sat || ty.narrow) && wf2 ty.words d ty.words a ty.words b
  | .iaddx _ ty d _ a b _ => ty.is32 && wf2 1 d 1 a 1 b
  | .ineg _ ty sat d b => (!sat || ty.narrow) && wf1 ty.words d ty.words b
  | .iabs _ ty sat d b => ty.signed && (!sat || ty.narrow) && wf1 ty.words d ty.words b
  | .imin _ ty d a b | .imax _ ty d a b => wf2 ty.words d ty.words a ty.words b
  | .imulh _ ty d a b => ty.is32or64 && wf2 ty.words d ty.words a ty.words b
  | .imad _ ty d a b c | .iclamp _ ty d a b c =>
      wf3 ty.words d ty.words a ty.words b ty.words c
  | .imadw _ ty d a b c => ty.is32 && wf3 2 d 1 a 1 b 2 c
  | .idiv _ ty d a b | .irem _ ty d a b =>
      ty.is32or64 && wf2 ty.words d ty.words a ty.words b && !d.isK
  | .idot4 _ ty mix d a b c => (ty == .s8 || (ty == .n8 && !mix)) && wf3 1 d 1 a 1 b 1 c
  | .isad _ ty d a b c => !ty.is64 && wf3 1 d 1 a 1 b 1 c
  | .lea _ ty _ d a b => ty.is32or64 && wf2 ty.words d 1 a ty.words b
  | .and _ w d a b | .or _ w d a b | .xor _ w d a b | .andn _ w d a b | .orn _ w d a b =>
      wf2 (wide w) d (wide w) a (wide w) b
  | .lop3 _ w _ _ d a b c => wf3 (wide w) d (wide w) a (wide w) b (wide w) c
  | .shl _ w _ d a b | .shr _ w _ d a b | .sar _ w _ d a b => wf2 (wide w) d (wide w) a 1 b
  | .rol _ w d a b => wf2 (wide w) d (wide w) a 1 b
  | .fsh _ _ d a b c => wf3 1 d 1 a 1 b 1 c
  | .popc _ w d b | .clz _ w d b | .ctz _ w d b => wf1 1 d (wide w) b
  | .brev _ w d b => wf1 (wide w) d (wide w) b
  | .bfx _ ty d a b => ty.is32or64 && wf2 ty.words d ty.words a 1 b
  | .bfi _ w d a b c => wf3 (wide w) d (wide w) a 1 b (wide w) c
  | .permb _ d a b c => wf3 1 d 1 a 1 b 1 c
  | .icmp _ ty _ _ _ a b => ty.is32or64 && a.aligned ty.words && b.aligned ty.words
  | .fcmp _ ty _ _ _ a b => a.aligned ty.words && b.aligned ty.words
  | .gset .. => true
  | .gsetNz .. => true
  | .gmov _ w _ _ d a b => wf2 (wide w) d (wide w) a (wide w) b
  | .sel _ w d a b c => wf3 (wide w) d (wide w) a (wide w) b 1 c
  | .mov _ w d b => wf1 (wide w) d (wide w) b
  | .rsd _ w _ d b => !d.isK && dstOk 1 d b.isV && b.aligned (wide w) && !b.isImm
  | .rsdp _ w d b => !d.isK && dstOk (wide w) d b.isV && b.aligned (wide w) && !b.isImm
  | .rsdq _ w _ b => b.aligned (wide w) && !b.isImm
  | .fadd _ ty _ _ d a b | .fsub _ ty _ _ d a b | .fmul _ ty _ _ d a b
  | .fmin _ ty _ _ d a b | .fmax _ ty _ _ d a b => wf2 ty.words d ty.words a ty.words b
  | .ffma _ ty _ _ _ d a b c => wf3 ty.words d ty.words a ty.words b ty.words c
  | .frnd _ ty _ _ d b => wf1 ty.words d ty.words b
  | .fscl _ ty _ d a b => wf2 ty.words d ty.words a 1 b
  | .fcls _ ty d b => wf1 1 d ty.words b
  | .hadd2 _ _ _ _ d a b | .hmul2 _ _ _ _ d a b | .hmin2 _ _ _ _ d a b | .hmax2 _ _ _ _ d a b =>
      wf2 1 d 1 a 1 b
  | .hfma2 _ _ _ _ _ d a b c => wf3 1 d 1 a 1 b 1 c
  | .qadd4 _ q d a b | .qmul4 _ q d a b => q.ok && wf2 1 d 1 a 1 b
  | .qfma4 _ q d a b c => q.ok && wf3 1 d 1 a 1 b 1 c
  | .qmax4 _ _ q d a b => q.ok && wf2 1 d 1 a 1 b
  | .dot2 _ _ d a b c | .dotbg _ d a b c => wf3 1 d 1 a 1 b 1 c
  | .dot4q _ qa qb d a b c => qa.ok && qb.ok && wf3 1 d 1 a 1 b 1 c
  | .rcp _ ty d b | .rsq _ ty d b | .sqrt _ ty d b => !d.isK && wf1 ty.words d ty.words b
  | .fdiv _ ty d a b => !d.isK && wf2 ty.words d ty.words a ty.words b
  | .exp2 _ ty d b | .log2 _ ty d b | .sin _ ty d b | .cos _ ty d b | .tanh _ ty d b =>
      ty != .f64 && !d.isK && wf1 1 d 1 b
  | .cvt _ dt st d b => !d.isK && wf1 dt.words d st.words b
  | .cvtiToInt _ it ft rm d b =>
      !d.isK && wf1 it.words d ft.words b && rm != .rf && (!it.narrow || rm == .rn)
  | .cvtiFromInt _ it ft d b => !d.isK && wf1 ft.words d it.words b
  | .cvtnNarrow _ nf _ d b | .cvtnWiden _ nf _ d b => nf.ok && !d.isK && wf1 1 d 1 b
  | .qnt _ nf _ d a b c => nf.ok && !d.isK && wf3 1 d 1 a 1 b 1 c
  | .dqnt _ nf _ d a b => nf.ok && !d.isK && wf2 1 d 1 a 1 b
  | .qscl _ nf _ d _ => nf.ok && !d.isK
  | .qspl _ nf d b => nf.ok && !d.isK && wf1 2 d 1 b
  | .qsplRec _ _ _ b => b.uniOrImm
  | .pack _ sz pos d a b => !d.isK && wf2 1 d 1 a 1 b &&
      (match sz with | .h => pos.toNat ≤ 0 | .b => pos.toNat ≤ 1 | .n => pos.toNat ≤ 3)
  | .unpk _ sz pos _ d b => !d.isK && wf1 1 d 1 b &&
      (match sz with | .h => pos.toNat ≤ 1 | .b => pos.toNat ≤ 3 | .n => pos.toNat ≤ 7)
  | .shfl _ mode w seg d a b => !d.isK && wf2 (wide w) d (wide w) a 1 b && seg != 7#3 &&
      (mode != .rev || b == .reg (.v 0#8))
  | .vote _ form _ _ => (match form with | .mask d => d.aligned 2 && !d.isK | _ => true)
  | .lred _ ty op d b => !d.isK && d.aligned ty.words && b.aligned ty.words && !(op.isLogic && ty.isFloat)
  | .lscn _ ty op _ d b => !d.isK && wf1 ty.words d ty.words b && !(op.isLogic && ty.isFloat)
  | .mtch _ w d b => !d.isK && wf1 2 d (wide w) b
  | .rdln _ w d a _ => multOf (wide w) d && a.aligned (wide w)
  | .wrln _ w d _ b => d.toNat % wide w == 0 && b.uniform && b.aligned (wide w)
  | .ld _ sz mis _ d a b => (!mis || sz.whole) && wfLoad sz.words d 2 a b
  | .st _ sz mis _ d a _ => (!mis || sz.whole) && wfStore sz.words d 2 a
  | .lda _ sz _ d a b => wfLoad sz.words d 2 a b
  | .stl _ sz _ d a _ => wfStore sz.words d 2 a
  | .ldc _ sz d _ a _ => wfLoad sz.words d 1 a (.imm 0#32)
  | .pref _ _ a _ => a.aligned 2
  | .preft _ _ _ a b => multOf 2 a && b.uniOrImm
  | .lds _ sz d a b => wfLoad sz.words d 1 a b
  | .sts _ sz d a _ => wfStore sz.words d 1 a
  | .ldfKeep _ sz d a b | .ldfTake _ sz d a b => sz.whole && wfLoad sz.words d 1 a b
  | .stf _ sz d a _ => sz.whole && wfStore sz.words d 1 a
  | .grnClr _ _ b | .grnSet _ _ b => b.uniOrImm
  | .grnQry _ _ _ b => b.uniOrImm
  | .ldx _ sz _ d a b => wfLoad sz.words d 1 a b
  | .stx _ sz _ d a _ => wfStore sz.words d 1 a
  | .atom _ ty op _ d a b => !(op.isLogic && ty.isFloat) && wfLoad ty.words d 2 a (.imm 0#32) && b.aligned ty.words
  | .atoms _ ty op d a b => !(op.isLogic && ty.isFloat) && wfLoad ty.words d 1 a (.imm 0#32) && b.aligned ty.words
  | .red _ ty op _ a b => !(op.isLogic && ty.isFloat) && a.aligned 2 && b.aligned ty.words
  | .redSpad _ ty op _ b => !(op.isLogic && ty.isFloat) && b.aligned ty.words
  | .cas _ ty _ d a b c => !ty.isFloat && wfLoad ty.words d 2 a (.imm 0#32) && b.aligned ty.words &&
      c.aligned ty.words && !b.isImm
  | .cass _ ty d a b c => !ty.isFloat && wfLoad ty.words d 1 a (.imm 0#32) && b.aligned ty.words &&
      c.aligned ty.words && !b.isImm
  | .fence .. => true
  | .rngs _ _ _ a b => multOf 2 a && multOf 2 b
  | .rngsT .. | .rngc .. => true
  | .tdw _ _ n _ => multOf 8 n
  | .tdr _ sel clr d _ j =>
      (match sel with
        | .dw0 | .dw1 | .dw2 | .dw3 => multOf 2 d && !clr && j == 0#6
        | .sat | .flush => j == 0#6
        | .e => !clr && j == 0#6
        | .map => !clr)
  | .macq _ _ _ _ b => macqOk b
  | .mrel .. | .mzro .. => true
  | .mma _ _ _ n _ _ | .mmaGang _ _ _ n _ _ => multOf 4 n
  | .mgng _ n => multOf 4 n
  | .mgngClr _ => true
  | .mlda _ _ n _ => multOf 2 n
  | .msta h _ n _ gs => multOf 2 n && (gs == none || h.ps != 0#3)
  | .mprgRd _ d | .mprgPc _ d => multOf 2 d
  | .mprgGo _ | .mprgAb _ => true
  | .mdupClr .. | .mdupCp .. => true
  | .cpy _ n | .dcmp _ n => multOf 8 n
  | .cpygGather _ n b | .cpygScatter _ n b => multOf 8 n && b.uniform
  | .cpyx _ n _ => multOf 8 n
  | .cpyrGo _ _ a | .cpyrAb _ _ a => multOf 2 a
  | .waitc .. => true
  | .dgrs _ k b => k != 7#3 && b.uniform
  | .dgrsClr _ k => k != 7#3
  | .bari _ _ e => e != 0#12
  | .barv .. => true
  | .barw _ _ b _ => b.uniform
  | .bars .. => true
  | .spli _ n len ef ee => 2 ≤ len.toNat && len.toNat ≤ 8 && n.toNat + len.toNat ≤ 16 &&
      ef != 0#12 && ee != 0#12
  | .splwFull _ _ b _ | .splwEmpty _ _ b _ => b.uniform
  | .spld _ _ b => b.uniform
  | .rdsr _ n d =>
      (match srInfo n with
        | some i => !d.isK && d.aligned (if i.bits64 then 2 else 1) && !(i.thread && d.isS)
        | none => false)
  | .wrsr _ n b =>
      (match srInfo n with
        | some i => i.write && b.uniform && b.aligned (if i.bits64 then 2 else 1)
        | none => false)
  | .slate .. | .erriCnt .. => true
  | .erriRd _ n _ => multOf 8 n
  | .erriPop _ => true
  | .takeSig _ d => multOf 2 d
  | .takeCmt _ => true
  | .cutWaitEnd .. | .ldfReadPerform .. | .boundaryTrap .. | .copyCommandAccept .. | .copyQueueHead ..
  | .copyChunkRead .. | .copyChunkCommit .. | .cpyxChunkAck .. | .preftChunk ..
  | .decompressionJobAccept | .decompressionJobRun .. | .decompressionJobComplete ..
  | .matrixArrayStep | .matrixRowBlock | .mrelPerform | .gangRendezvousTimeout
  | .governorWindow | .l2Lookup .. | .codedMerge .. | .homeAtomic .. | .pageWalk .. | .hbmAtomWrite
  | .hbmAtomRead | .hbmReadModifyWrite | .mapoutDeclare .. | .mapoutReq .. | .mapoutStart
  | .mapoutAck | .mapoutRebuildComplete | .crflush .. | .crflushDone | .tlbinvPage .. | .tlbinvAll ..
  | .tlbinvDone | .fqPop | .fqResume | .fqCancel | .waysAll .. | .meshFlitReceive .. | .meshLinkRetrain ..
  | .linkFrameReceive .. | .linkEnable | .linkTrainingDone .. | .linkFailure | .doorbellTail ..
  | .launchAccept .. | .placeDistributedUnit .. | .stealRequest | .stagingCopy | .workgroupStart
  | .exitWriteback | .workgroupEnd | .launchComplete | .activeSetRotation .. | .ctxcmdCreate ..
  | .ctxcmdDestroy .. | .ctxcmdPreempt .. | .preemptSave | .preemptHoldTimeout | .ctxcmdRestore ..
  | .ctxcmdEndWorkgroup .. | .ctxcmdStep .. | .ctxcmdStepThread .. | .ctxcmdResume .. | .logPop ..
  | .windowRead .. | .windowWrite .. | .registerWrite .. | .slateFire .. | .takeCommitDecide
  | .takeCommitTimeout | .takeAtomicPair .. | .rushesEntryFree .. | .schedulerRebuild .. | .dailyRun ..
  | .dailyRunComplete .. | .coreLeaveService | .wearUpdate .. | .pwrStateActive | .pwrStateIdle
  | .pwrEnterIdle | .pwrStateOff | .thermalThrottle | .thermalShutdown | .fundamentalReset
  | .attestationRequest .. | .variableLatencyResult .. | .hostMemoryAccess .. | .otaetharLinkRetrain =>
      true
  | .extensionOperation _ | .invalidEncoding _ => true

/-- Guard and hints of an instruction word; none for an event. -/
def Instr.hints? : Instr → Option Hints
  | .nop h => some h
  | .bra h _ => some h
  | .brx h _ => some h
  | .call h _ _ => some h
  | .callx h _ _ => some h
  | .ret h _ => some h
  | .exit h => some h
  | .rcv h _ => some h
  | .join h => some h
  | .cut h _ => some h
  | .yield h => some h
  | .brk h _ => some h
  | .trap h _ => some h
  | .tret h => some h
  | .lnch h _ _ _ => some h
  | .iadd h _ _ _ _ _ => some h
  | .iaddx h _ _ _ _ _ _ => some h
  | .isub h _ _ _ _ _ => some h
  | .ineg h _ _ _ _ => some h
  | .iabs h _ _ _ _ => some h
  | .imin h _ _ _ _ => some h
  | .imax h _ _ _ _ => some h
  | .imul h _ _ _ _ _ => some h
  | .imulh h _ _ _ _ => some h
  | .imad h _ _ _ _ _ => some h
  | .imadw h _ _ _ _ _ => some h
  | .idiv h _ _ _ _ => some h
  | .irem h _ _ _ _ => some h
  | .idot4 h _ _ _ _ _ _ => some h
  | .isad h _ _ _ _ _ => some h
  | .iclamp h _ _ _ _ _ => some h
  | .lea h _ _ _ _ _ => some h
  | .and h _ _ _ _ => some h
  | .or h _ _ _ _ => some h
  | .xor h _ _ _ _ => some h
  | .andn h _ _ _ _ => some h
  | .orn h _ _ _ _ => some h
  | .lop3 h _ _ _ _ _ _ _ => some h
  | .shl h _ _ _ _ _ => some h
  | .shr h _ _ _ _ _ => some h
  | .sar h _ _ _ _ _ => some h
  | .rol h _ _ _ _ => some h
  | .fsh h _ _ _ _ _ => some h
  | .popc h _ _ _ => some h
  | .clz h _ _ _ => some h
  | .ctz h _ _ _ => some h
  | .brev h _ _ _ => some h
  | .bfx h _ _ _ _ => some h
  | .bfi h _ _ _ _ _ => some h
  | .permb h _ _ _ _ => some h
  | .icmp h _ _ _ _ _ _ => some h
  | .fcmp h _ _ _ _ _ _ => some h
  | .gset h _ _ _ _ => some h
  | .gsetNz h _ _ => some h
  | .gmov h _ _ _ _ _ _ => some h
  | .sel h _ _ _ _ _ => some h
  | .mov h _ _ _ => some h
  | .rsd h _ _ _ _ => some h
  | .rsdp h _ _ _ => some h
  | .rsdq h _ _ _ => some h
  | .fadd h _ _ _ _ _ _ => some h
  | .fsub h _ _ _ _ _ _ => some h
  | .fmul h _ _ _ _ _ _ => some h
  | .ffma h _ _ _ _ _ _ _ _ => some h
  | .fmin h _ _ _ _ _ _ => some h
  | .fmax h _ _ _ _ _ _ => some h
  | .frnd h _ _ _ _ _ => some h
  | .fscl h _ _ _ _ _ => some h
  | .fcls h _ _ _ => some h
  | .hadd2 h _ _ _ _ _ _ => some h
  | .hmul2 h _ _ _ _ _ _ => some h
  | .hfma2 h _ _ _ _ _ _ _ _ => some h
  | .hmin2 h _ _ _ _ _ _ => some h
  | .hmax2 h _ _ _ _ _ _ => some h
  | .qadd4 h _ _ _ _ => some h
  | .qmul4 h _ _ _ _ => some h
  | .qfma4 h _ _ _ _ _ => some h
  | .qmax4 h _ _ _ _ _ => some h
  | .dot2 h _ _ _ _ _ => some h
  | .dot4q h _ _ _ _ _ _ => some h
  | .dotbg h _ _ _ _ => some h
  | .rcp h _ _ _ => some h
  | .rsq h _ _ _ => some h
  | .sqrt h _ _ _ => some h
  | .fdiv h _ _ _ _ => some h
  | .exp2 h _ _ _ => some h
  | .log2 h _ _ _ => some h
  | .sin h _ _ _ => some h
  | .cos h _ _ _ => some h
  | .tanh h _ _ _ => some h
  | .cvt h _ _ _ _ => some h
  | .cvtiToInt h _ _ _ _ _ => some h
  | .cvtiFromInt h _ _ _ _ => some h
  | .cvtnNarrow h _ _ _ _ => some h
  | .cvtnWiden h _ _ _ _ => some h
  | .qnt h _ _ _ _ _ _ => some h
  | .dqnt h _ _ _ _ _ => some h
  | .qscl h _ _ _ _ => some h
  | .qspl h _ _ _ => some h
  | .qsplRec h _ _ _ => some h
  | .pack h _ _ _ _ _ => some h
  | .unpk h _ _ _ _ _ => some h
  | .shfl h _ _ _ _ _ _ => some h
  | .vote h _ _ _ => some h
  | .lred h _ _ _ _ => some h
  | .lscn h _ _ _ _ _ => some h
  | .mtch h _ _ _ => some h
  | .rdln h _ _ _ _ => some h
  | .wrln h _ _ _ _ => some h
  | .ld h _ _ _ _ _ _ => some h
  | .st h _ _ _ _ _ _ => some h
  | .lda h _ _ _ _ _ => some h
  | .stl h _ _ _ _ _ => some h
  | .ldc h _ _ _ _ _ => some h
  | .pref h _ _ _ => some h
  | .preft h _ _ _ _ => some h
  | .lds h _ _ _ _ => some h
  | .sts h _ _ _ _ => some h
  | .ldfKeep h _ _ _ _ => some h
  | .ldfTake h _ _ _ _ => some h
  | .stf h _ _ _ _ => some h
  | .grnClr h _ _ => some h
  | .grnSet h _ _ => some h
  | .grnQry h _ _ _ => some h
  | .ldx h _ _ _ _ _ => some h
  | .stx h _ _ _ _ _ => some h
  | .atom h _ _ _ _ _ _ => some h
  | .atoms h _ _ _ _ _ => some h
  | .red h _ _ _ _ _ => some h
  | .redSpad h _ _ _ _ => some h
  | .cas h _ _ _ _ _ _ => some h
  | .cass h _ _ _ _ _ => some h
  | .fence h _ _ _ => some h
  | .rngs h _ _ _ _ => some h
  | .rngsT h _ _ => some h
  | .rngc h _ => some h
  | .tdw h _ _ _ => some h
  | .tdr h _ _ _ _ _ => some h
  | .macq h _ _ _ _ => some h
  | .mrel h _ => some h
  | .mzro h _ => some h
  | .mma h _ _ _ _ _ => some h
  | .mmaGang h _ _ _ _ _ => some h
  | .mgng h _ => some h
  | .mgngClr h => some h
  | .mlda h _ _ _ => some h
  | .msta h _ _ _ _ => some h
  | .mprgRd h _ => some h
  | .mprgPc h _ => some h
  | .mprgGo h => some h
  | .mprgAb h => some h
  | .mdupClr h _ => some h
  | .mdupCp h _ _ => some h
  | .cpy h _ => some h
  | .cpygGather h _ _ => some h
  | .cpygScatter h _ _ => some h
  | .cpyx h _ _ => some h
  | .cpyrGo h _ _ => some h
  | .cpyrAb h _ _ => some h
  | .dcmp h _ => some h
  | .waitc h _ _ => some h
  | .dgrs h _ _ => some h
  | .dgrsClr h _ => some h
  | .bari h _ _ => some h
  | .barv h _ _ => some h
  | .barw h _ _ _ => some h
  | .bars h _ _ => some h
  | .spli h _ _ _ _ => some h
  | .splwFull h _ _ _ => some h
  | .splwEmpty h _ _ _ => some h
  | .spld h _ _ => some h
  | .rdsr h _ _ => some h
  | .wrsr h _ _ => some h
  | .slate h _ => some h
  | .erriCnt h _ => some h
  | .erriRd h _ _ => some h
  | .erriPop h => some h
  | .takeSig h _ => some h
  | .takeCmt h => some h
  | .cutWaitEnd .. | .ldfReadPerform .. | .boundaryTrap .. | .copyCommandAccept .. | .copyQueueHead ..
  | .copyChunkRead .. | .copyChunkCommit .. | .cpyxChunkAck .. | .preftChunk ..
  | .decompressionJobAccept | .decompressionJobRun .. | .decompressionJobComplete ..
  | .matrixArrayStep | .matrixRowBlock | .mrelPerform | .gangRendezvousTimeout
  | .governorWindow | .l2Lookup .. | .codedMerge .. | .homeAtomic .. | .pageWalk ..
  | .hbmAtomWrite | .hbmAtomRead | .hbmReadModifyWrite | .mapoutDeclare .. | .mapoutReq ..
  | .mapoutStart .. | .mapoutAck .. | .mapoutRebuildComplete .. | .crflush .. | .crflushDone ..
  | .tlbinvPage .. | .tlbinvAll .. | .tlbinvDone .. | .fqPop .. | .fqResume .. | .fqCancel ..
  | .waysAll .. | .meshFlitReceive .. | .meshLinkRetrain .. | .linkFrameReceive .. | .linkEnable
  | .linkTrainingDone .. | .linkFailure | .doorbellTail .. | .launchAccept ..
  | .placeDistributedUnit .. | .stealRequest | .stagingCopy | .workgroupStart
  | .exitWriteback | .workgroupEnd | .launchComplete | .activeSetRotation ..
  | .ctxcmdCreate .. | .ctxcmdDestroy .. | .ctxcmdPreempt .. | .preemptSave .. | .preemptHoldTimeout ..
  | .ctxcmdRestore .. | .ctxcmdEndWorkgroup .. | .ctxcmdStep .. | .ctxcmdStepThread ..
  | .ctxcmdResume .. | .logPop .. | .windowRead .. | .windowWrite .. | .registerWrite ..
  | .slateFire .. | .takeCommitDecide | .takeCommitTimeout | .takeAtomicPair ..
  | .rushesEntryFree .. | .schedulerRebuild .. | .dailyRun .. | .dailyRunComplete ..
  | .coreLeaveService | .wearUpdate .. | .pwrStateActive .. | .pwrStateIdle .. | .pwrEnterIdle ..
  | .pwrStateOff .. | .thermalThrottle | .thermalShutdown | .fundamentalReset ..
  | .attestationRequest .. | .variableLatencyResult .. | .hostMemoryAccess .. | .otaetharLinkRetrain
  | .extensionOperation .. | .invalidEncoding .. => none

/-- The command may carry a deferred guard (R157). -/
def Instr.deferrable : Instr → Bool
  | .cpy .. | .cpygGather .. | .cpygScatter .. | .cpyx .. | .dcmp .. => true
  | _ => false

/-- The instruction is one that a 96-bit word of groups 0x0 to 0xE may encode. -/
def Instr.wf (i : Instr) : Bool :=
  (match i.hints? with | some h => h.ok i.deferrable | none => true) && fieldsOk i

/-- The instruction has a word of groups 0x0 to 0xE. -/
def Instr.isWord (i : Instr) : Bool := i.hints?.isSome

end Sys2Proof
end

