-- ==== Sys2Proof/Decode.lean ====
section
/-! DEFINITION. The 96-bit instruction word (R153 to R158): its fields, the decoder with the checks of
Table 8.10 in their order, and the encoder written from the same encoding tables. -/

namespace Sys2Proof

/-! ### Fields of the word (Table 8.5) -/

/-- The fields of an instruction word, Table 8.5. -/
structure Raw where
  op : BitVec 10
  md : BitVec 10
  h : Hints
  d : BitVec 12
  a : BitVec 12
  b : BitVec 38
  deriving DecidableEq, Repr

/-- Bit `n` of a vector as a one-bit vector. -/
def bit1 (b : Bool) : BitVec 1 := BitVec.ofBool b

/-- The fields of a word. -/
def Raw.ofWord (w : BitVec 96) : Raw :=
  { op := w.extractLsb' 86 10
    md := w.extractLsb' 76 10
    h := { gneg := w.getLsbD 75, gidx := w.extractLsb' 71 4, st := w.extractLsb' 67 4,
           ps := w.extractLsb' 64 3, yld := w.getLsbD 63, reuse := w.getLsbD 62 }
    d := w.extractLsb' 50 12
    a := w.extractLsb' 38 12
    b := w.extractLsb' 0 38 }

/-- The word of given fields. -/
def Raw.toWord (r : Raw) : BitVec 96 :=
  r.op ++ (r.md ++ (bit1 r.h.gneg ++ (r.h.gidx ++ (r.h.st ++ (r.h.ps ++ (bit1 r.h.yld ++
    (bit1 r.h.reuse ++ (r.d ++ (r.a ++ r.b)))))))))

/-! ### Register specifiers (R154, R37) -/

/-- Class 00 and 01 specifiers, and class 10 of the temporaries. -/
def Reg.enc : Reg → BitVec 12
  | .v i => 0#4 ++ i
  | .s i => 1#2 ++ i
  | .k i => 0b100000000#9 ++ i

def encV (i : BitVec 8) : BitVec 12 := 0#4 ++ i
def encU (i : U) : BitVec 12 := 1#2 ++ i
def encGuard (i : BitVec 3) : BitVec 12 := 0b100010000#9 ++ i
def encTile (i : BitVec 4) : BitVec 12 := 0b10010000#8 ++ i
def encBar (i : BitVec 4) : BitVec 12 := 0b10011000#8 ++ i
def encSlot (i : BitVec 3) : BitVec 12 := 0b101000000#9 ++ i

def decV (x : BitVec 12) : Option (BitVec 8) :=
  if x.extractLsb' 8 4 = 0#4 then some (x.extractLsb' 0 8) else none

def decU (x : BitVec 12) : Option U :=
  if x.extractLsb' 10 2 = 1#2 then some (x.extractLsb' 0 10) else none

def decK (x : BitVec 12) : Option (BitVec 3) :=
  if x.extractLsb' 3 9 = 0b100000000#9 then some (x.extractLsb' 0 3) else none

def decGuard (x : BitVec 12) : Option (BitVec 3) :=
  if x.extractLsb' 3 9 = 0b100010000#9 then some (x.extractLsb' 0 3) else none

def decTile (x : BitVec 12) : Option (BitVec 4) :=
  if x.extractLsb' 4 8 = 0b10010000#8 then some (x.extractLsb' 0 4) else none

def decBar (x : BitVec 12) : Option (BitVec 4) :=
  if x.extractLsb' 4 8 = 0b10011000#8 then some (x.extractLsb' 0 4) else none

def decSlot (x : BitVec 12) : Option (BitVec 3) :=
  if x.extractLsb' 3 9 = 0b101000000#9 then some (x.extractLsb' 0 3) else none

/-- A register that an operand field may name. -/
def decReg (x : BitVec 12) : Option Reg :=
  match decV x with
  | some i => some (.v i)
  | none =>
    match decU x with
    | some i => some (.s i)
    | none => (decK x).map .k

/-- The specifier has an assigned class and an index its file holds (R154, R37). -/
def specOk (x : BitVec 12) : Bool :=
  (decReg x).isSome || (decGuard x).isSome || (decTile x).isSome || (decBar x).isSome || (decSlot x).isSome

/-! ### Field B (Table 8.6) -/

def Opd.enc (c : BitVec 12) : Opd → BitVec 38
  | .reg r => 0#2 ++ (c ++ (0#12 ++ r.enc))
  | .win n off => 1#2 ++ (c ++ (0#4 ++ (n ++ off)))
  | .imm w => 2#2 ++ (0#4 ++ w)

def decOpd (b : BitVec 38) : Option Opd :=
  if b.extractLsb' 36 2 = 0#2 then (decReg (b.extractLsb' 0 12)).map .reg
  else if b.extractLsb' 36 2 = 1#2 then some (.win (b.extractLsb' 17 3) (b.extractLsb' 0 17))
  else if b.extractLsb' 36 2 = 2#2 then some (.imm (b.extractLsb' 0 32))
  else none

/-- The immediate of a kind 10 field B. -/
def decImm (b : BitVec 38) : Option Word :=
  if b.extractLsb' 36 2 = 2#2 then some (b.extractLsb' 0 32) else none

/-- Field C (R155). -/
def decC (b : BitVec 38) : Option Reg := decReg (b.extractLsb' 24 12)

def immB (w : Word) : BitVec 38 := (Opd.imm w).enc 0#12

/-- The kind and the zero bits of field B are those of Table 8.6. -/
def kindOk (b : BitVec 38) : Bool :=
  let k := b.extractLsb' 36 2
  if k == 0#2 then b.extractLsb' 12 12 == 0#12 && specOk (b.extractLsb' 0 12) && specOk (b.extractLsb' 24 12)
  else if k == 1#2 then b.extractLsb' 20 4 == 0#4 && specOk (b.extractLsb' 24 12)
  else if k == 2#2 then b.extractLsb' 32 4 == 0#4
  else false

/-! ### Modifier codes -/

def IntTy.code : IntTy → Nat
  | .s32 => 0 | .n32 => 1 | .s64 => 2 | .n64 => 3 | .s16 => 4 | .n16 => 5 | .s8 => 6 | .n8 => 7

def IntTy.of : Nat → IntTy
  | 0 => .s32 | 1 => .n32 | 2 => .s64 | 3 => .n64 | 4 => .s16 | 5 => .n16 | 6 => .s8 | _ => .n8

def FloatTy.code : FloatTy → Nat
  | .f64 => 0 | .f32 => 1 | .f16 => 2 | .bf16 => 3

def FloatTy.of? : Nat → Option FloatTy
  | 0 => some .f64 | 1 => some .f32 | 2 => some .f16 | 3 => some .bf16 | _ => none

def ICond.code : ICond → Nat
  | .eq => 0 | .ne => 1 | .lt => 2 | .le => 3 | .gt => 4 | .ge => 5

def ICond.of? : Nat → Option ICond
  | 0 => some .eq | 1 => some .ne | 2 => some .lt | 3 => some .le | 4 => some .gt | 5 => some .ge | _ => none

def FCond.code : FCond → Nat
  | .eq => 0 | .ne => 1 | .lt => 2 | .le => 3 | .gt => 4 | .ge => 5 | .num => 6 | .nan => 7

def FCond.of : Nat → FCond
  | 0 => .eq | 1 => .ne | 2 => .lt | 3 => .le | 4 => .gt | 5 => .ge | 6 => .num | _ => .nan

def Comb.code : Comb → Nat
  | .set => 0 | .conj => 1 | .disj => 2

def Comb.of? : Nat → Option Comb
  | 0 => some .set | 1 => some .conj | 2 => some .disj | _ => none

def RMode.code : RMode → Nat
  | .rn => 0 | .rz => 1 | .rd => 2 | .ru => 3 | .rf => 4

def RMode.of? : Nat → Option RMode
  | 0 => some .rn | 1 => some .rz | 2 => some .rd | 3 => some .ru | 4 => some .rf | _ => none

/-- The five bits of a Q field (R233). -/
def B8Fmt.code (q : B8Fmt) : Nat := q.uns.toNat * 16 + q.fin.toNat * 8 + q.p.toNat

def B8Fmt.of (n : Nat) : B8Fmt := ⟨n / 16 % 2 == 1, n / 8 % 2 == 1, BitVec.ofNat 3 n⟩

/-- NF codes of Table 9.4 (R241). -/
def NarrowFmt.code : NarrowFmt → Nat
  | .bg4 => 4
  | .b8 q => 32 + q.code

def NarrowFmt.of? (n : Nat) : Option NarrowFmt :=
  if n == 4 then some .bg4 else if 32 ≤ n then some (.b8 (B8Fmt.of (n % 32))) else none

def QuantFmt.code : QuantFmt → Nat
  | .bg4 => 4
  | .s8 => 8
  | .n8 => 9
  | .s16 => 10
  | .n16 => 11
  | .b8 q => 32 + q.code

def QuantFmt.of? (n : Nat) : Option QuantFmt :=
  if n == 4 then some .bg4 else if n == 8 then some .s8 else if n == 9 then some .n8
  else if n == 10 then some .s16 else if n == 11 then some .n16
  else if 32 ≤ n then some (.b8 (B8Fmt.of (n % 32))) else none

def SplitFmt.code : SplitFmt → Nat
  | .f32 => 1
  | .f16 => 2
  | .bf16 => 3
  | .s8 => 8
  | .n8 => 9
  | .b8 q => 32 + q.code

def SplitFmt.of? (n : Nat) : Option SplitFmt :=
  if n == 1 then some .f32 else if n == 2 then some .f16 else if n == 3 then some .bf16
  else if n == 8 then some .s8 else if n == 9 then some .n8
  else if 32 ≤ n then some (.b8 (B8Fmt.of (n % 32))) else none

def WideFmt.code : WideFmt → Nat
  | .f32 => 0 | .f16 => 1 | .bf16 => 2

def WideFmt.of? : Nat → Option WideFmt
  | 0 => some .f32 | 1 => some .f16 | 2 => some .bf16 | _ => none

def PackSz.code : PackSz → Nat
  | .h => 0 | .b => 1 | .n => 2

def PackSz.of? : Nat → Option PackSz
  | 0 => some .h | 1 => some .b | 2 => some .n | _ => none

def ShflMode.code : ShflMode → Nat
  | .sel => 0 | .rot => 1 | .xch => 2 | .rev => 3

def ShflMode.of : Nat → ShflMode
  | 0 => .sel | 1 => .rot | 2 => .xch | _ => .rev

def RedTy.code : RedTy → Nat
  | .s32 => 0 | .n32 => 1 | .s64 => 2 | .n64 => 3 | .f64 => 4 | .f32 => 5 | .f16 => 6 | .bf16 => 7

def RedTy.of? : Nat → Option RedTy
  | 0 => some .s32 | 1 => some .n32 | 2 => some .s64 | 3 => some .n64
  | 4 => some .f64 | 5 => some .f32 | 6 => some .f16 | 7 => some .bf16 | _ => none

def RedOp.code : RedOp → Nat
  | .add => 0 | .min => 1 | .max => 2 | .and => 3 | .or => 4 | .xor => 5

def RedOp.of? : Nat → Option RedOp
  | 0 => some .add | 1 => some .min | 2 => some .max | 3 => some .and | 4 => some .or | 5 => some .xor
  | _ => none

def MemSz.code : MemSz → Nat
  | .b32 => 0 | .b64 => 1 | .b128 => 2 | .s16 => 4 | .n16 => 5 | .s8 => 6 | .n8 => 7

def MemSz.of? : Nat → Option MemSz
  | 0 => some .b32 | 1 => some .b64 | 2 => some .b128 | 4 => some .s16 | 5 => some .n16
  | 6 => some .s8 | 7 => some .n8 | _ => none

def AtomTy.code : AtomTy → Nat
  | .s32 => 0 | .n32 => 1 | .s64 => 2 | .n64 => 3 | .f64 => 4 | .f32 => 5 | .f16x2 => 6 | .bf16x2 => 7

def AtomTy.of : Nat → AtomTy
  | 0 => .s32 | 1 => .n32 | 2 => .s64 | 3 => .n64 | 4 => .f64 | 5 => .f32 | 6 => .f16x2 | _ => .bf16x2

def AtomOp.code : AtomOp → Nat
  | .add => 0 | .min => 1 | .max => 2 | .and => 3 | .or => 4 | .xor => 5 | .exch => 6

def AtomOp.of? : Nat → Option AtomOp
  | 0 => some .add | 1 => some .min | 2 => some .max | 3 => some .and | 4 => some .or | 5 => some .xor
  | 6 => some .exch | _ => none

def Scope.code : Scope → Nat
  | .thread => 0 | .tg => 1 | .wg => 2 | .cluster => 3 | .die => 4 | .device => 5 | .system => 6

def Scope.of? : Nat → Option Scope
  | 0 => some .thread | 1 => some .tg | 2 => some .wg | 3 => some .cluster | 4 => some .die
  | 5 => some .device | 6 => some .system | _ => none

def FenceKind.code : FenceKind → Nat
  | .acq => 0 | .rel => 1 | .ar => 2 | .full => 3

def FenceKind.of : Nat → FenceKind
  | 0 => .acq | 1 => .rel | 2 => .ar | _ => .full

def AccFmt.code : AccFmt → Nat
  | .f32 => 0 | .f64 => 1 | .s32 => 2 | .s64 => 3

def AccFmt.of : Nat → AccFmt
  | 0 => .f32 | 1 => .f64 | 2 => .s32 | _ => .s64

def TdrSel.code : TdrSel → Nat
  | .dw0 => 0 | .dw1 => 1 | .dw2 => 2 | .dw3 => 3 | .sat => 4 | .flush => 5 | .e => 6 | .map => 7

def TdrSel.of : Nat → TdrSel
  | 0 => .dw0 | 1 => .dw1 | 2 => .dw2 | 3 => .dw3 | 4 => .sat | 5 => .flush | 6 => .e | _ => .map

def CntClass.code : CntClass → Nat
  | .cpy => 0 | .mat => 1 | .dcmp => 2 | .mem => 3

def CntClass.of : Nat → CntClass
  | 0 => .cpy | 1 => .mat | 2 => .dcmp | _ => .mem

def NegAbs.code (m : NegAbs) : Nat := m.neg.toNat + 2 * m.abs.toNat

/-- Code of a `.b32` or `.b64` suffix (R199). -/
def wcode (w : Bool) : Nat := if w then 3 else 1

/-! ### Encoder -/

/-- The word of an operation with given modifier number and fields. -/
def mk (op m : Nat) (h : Hints) (d a : BitVec 12) (b : BitVec 38) : BitVec 96 :=
  Raw.toWord ⟨BitVec.ofNat 10 op, BitVec.ofNat 10 m, h, d, a, b⟩

/-- One source, in field B. -/
def e1 (op m : Nat) (h : Hints) (d : Reg) (b : Opd) : BitVec 96 := mk op m h d.enc 0#12 (b.enc 0#12)

/-- Two sources. -/
def e2 (op m : Nat) (h : Hints) (d a : Reg) (b : Opd) : BitVec 96 := mk op m h d.enc a.enc (b.enc 0#12)

/-- Three sources. -/
def e3 (op m : Nat) (h : Hints) (d a : Reg) (b : Opd) (c : Reg) : BitVec 96 :=
  mk op m h d.enc a.enc (b.enc c.enc)

/-- No operand. -/
def e0 (op m : Nat) (h : Hints) : BitVec 96 := mk op m h 0#12 0#12 0#38

def optReg : Option Reg → BitVec 12
  | none => 0#12
  | some r => r.enc

def optU : Option U → BitVec 12
  | none => 0#12
  | some r => encU r

/-- Two tensor handles in an immediate: [5:0] and [11:6]. -/
def hImm (x y : BitVec 6) : Word := 0#20 ++ (y ++ x)

/-- The word of an instruction; zero for an event, which has no word. -/
def encode : Instr → BitVec 96
  | .nop h => e0 0x001 0 h
  | .bra h off => mk 0x002 0 h 0#12 0#12 (immB off)
  | .brx h a => mk 0x003 0 h 0#12 a.enc 0#38
  | .call h sv off => mk 0x004 sv.isSome.toNat h (optReg sv) 0#12 (immB off)
  | .callx h sv a => mk 0x005 sv.isSome.toNat h (optReg sv) a.enc 0#38
  | .ret h ld => mk 0x006 ld.isSome.toNat h 0#12 (optReg ld) 0#38
  | .exit h => e0 0x007 0 h
  | .rcv h off => mk 0x008 0 h 0#12 0#12 (immB off)
  | .join h => e0 0x009 0 h
  | .cut h b => mk 0x00A 0 h 0#12 0#12 (b.enc 0#12)
  | .yield h => e0 0x00B 0 h
  | .brk h c => mk 0x00C 0 h 0#12 0#12 (immB (0#16 ++ c))
  | .trap h c => mk 0x00D 0 h 0#12 0#12 (immB (0#16 ++ c))
  | .tret h => e0 0x00E 0 h
  | .lnch h after d a => mk 0x00F after.toNat h (encU d) (encU a) 0#38
  | .iadd h ty sat d a b => e2 0x040 (ty.code + 8 * sat.toNat) h d a b
  | .iaddx h ty d co a b ci =>
      e2 0x041 (ty.code + 64 * co.toNat + (match ci with | none => 512 | some g => 8 * g.toNat)) h d a b
  | .isub h ty sat d a b => e2 0x042 (ty.code + 8 * sat.toNat) h d a b
  | .ineg h ty sat d b => e1 0x043 (ty.code + 8 * sat.toNat) h d b
  | .iabs h ty sat d b => e1 0x044 (ty.code + 8 * sat.toNat) h d b
  | .imin h ty d a b => e2 0x045 ty.code h d a b
  | .imax h ty d a b => e2 0x046 ty.code h d a b
  | .imul h ty sat d a b => e2 0x047 (ty.code + 8 * sat.toNat) h d a b
  | .imulh h ty d a b => e2 0x048 ty.code h d a b
  | .imad h ty d a b c => e3 0x049 ty.code h d a b c
  | .imadw h ty d a b c => e3 0x04A ty.code h d a b c
  | .idiv h ty d a b => e2 0x04B ty.code h d a b
  | .irem h ty d a b => e2 0x04C ty.code h d a b
  | .idot4 h ty mix d a b c => e3 0x04D (ty.code + 8 * mix.toNat) h d a b c
  | .isad h ty d a b c => e3 0x04E ty.code h d a b c
  | .iclamp h ty d a b c => e3 0x04F ty.code h d a b c
  | .lea h ty k d a b => e2 0x050 (ty.code + 8 * k.toNat) h d a b
  | .and h w d a b => e2 0x080 (wcode w) h d a b
  | .or h w d a b => e2 0x081 (wcode w) h d a b
  | .xor h w d a b => e2 0x082 (wcode w) h d a b
  | .andn h w d a b => e2 0x083 (wcode w) h d a b
  | .orn h w d a b => e2 0x084 (wcode w) h d a b
  | .lop3 h w f0 f1 d a b c => e3 0x085 (w.toNat + 4 * f0.toNat + 64 * f1.toNat) h d a b c
  | .shl h w wr d a b => e2 0x086 (wcode w + 8 * wr.toNat) h d a b
  | .shr h w wr d a b => e2 0x087 (wcode w + 8 * wr.toNat) h d a b
  | .sar h w wr d a b => e2 0x088 (wcode w + 8 * wr.toNat) h d a b
  | .rol h w d a b => e2 0x089 (wcode w) h d a b
  | .fsh h l d a b c => e3 0x08A (1 + 8 * l.toNat) h d a b c
  | .popc h w d b => e1 0x08B (wcode w) h d b
  | .clz h w d b => e1 0x08C (wcode w) h d b
  | .ctz h w d b => e1 0x08D (wcode w) h d b
  | .brev h w d b => e1 0x08E (wcode w) h d b
  | .bfx h ty d a b => e2 0x08F ty.code h d a b
  | .bfi h w d a b c => e3 0x090 (wcode w) h d a b c
  | .permb h d a b c => e3 0x091 1 h d a b c
  | .icmp h ty cmp comb g a b =>
      mk 0x0C0 (ty.code + 8 * cmp.code + 64 * comb.code) h (encGuard g) a.enc (b.enc 0#12)
  | .fcmp h ty cmp comb g a b =>
      mk 0x0C1 (ty.code + 8 * cmp.code + 64 * comb.code) h (encGuard g) a.enc (b.enc 0#12)
  | .gset h lut g ga gb =>
      mk 0x0C2 lut.toNat h (encGuard g) (encGuard ga) (0#26 ++ encGuard gb)
  | .gsetNz h g b => mk 0x0C2 16 h (encGuard g) 0#12 (b.enc 0#12)
  | .gmov h w n neg d a b => e2 0x0C3 (wcode w + 8 * n.toNat + 64 * neg.toNat) h d a b
  | .sel h w d a b c => e3 0x0C4 (wcode w) h d a b c
  | .mov h w d b => e1 0x0C5 (wcode w) h d b
  | .rsd h w raw d b => e1 0x0C6 (w.toNat + 4 * raw.toNat) h d b
  | .rsdp h w d b => e1 0x0C7 w.toNat h d b
  | .rsdq h w g b => mk 0x0C8 w.toNat h (encGuard g) 0#12 (b.enc 0#12)
  | .fadd h ty ma mb d a b => e2 0x100 (ty.code + 8 * ma.code + 32 * mb.code) h d a b
  | .fsub h ty ma mb d a b => e2 0x101 (ty.code + 8 * ma.code + 32 * mb.code) h d a b
  | .fmul h ty ma mb d a b => e2 0x102 (ty.code + 8 * ma.code + 32 * mb.code) h d a b
  | .ffma h ty ma mb mc d a b c =>
      e3 0x103 (ty.code + 8 * ma.code + 32 * mb.code + 128 * mc.code) h d a b c
  | .fmin h ty ma mb d a b => e2 0x104 (ty.code + 8 * ma.code + 32 * mb.code) h d a b
  | .fmax h ty ma mb d a b => e2 0x105 (ty.code + 8 * ma.code + 32 * mb.code) h d a b
  | .frnd h ty rm mb d b => e1 0x106 (ty.code + 32 * mb.code + 128 * rm.code) h d b
  | .fscl h ty ma d a b => e2 0x107 (ty.code + 8 * ma.code) h d a b
  | .fcls h ty d b => e1 0x108 ty.code h d b
  | .hadd2 h bf na nb d a b => e2 0x140 (bf.toNat + 2 * na.toNat + 4 * nb.toNat) h d a b
  | .hmul2 h bf na nb d a b => e2 0x141 (bf.toNat + 2 * na.toNat + 4 * nb.toNat) h d a b
  | .hfma2 h bf na nb nc d a b c =>
      e3 0x142 (bf.toNat + 2 * na.toNat + 4 * nb.toNat + 8 * nc.toNat) h d a b c
  | .hmin2 h bf na nb d a b => e2 0x143 (bf.toNat + 2 * na.toNat + 4 * nb.toNat) h d a b
  | .hmax2 h bf na nb d a b => e2 0x144 (bf.toNat + 2 * na.toNat + 4 * nb.toNat) h d a b
  | .qadd4 h q d a b => e2 0x145 q.code h d a b
  | .qmul4 h q d a b => e2 0x146 q.code h d a b
  | .qfma4 h q d a b c => e3 0x147 q.code h d a b c
  | .qmax4 h ab q d a b => e2 0x148 (q.code + 32 * ab.toNat) h d a b
  | .dot2 h bf d a b c => e3 0x149 bf.toNat h d a b c
  | .dot4q h qa qb d a b c => e3 0x14A (qa.code + 32 * qb.code) h d a b c
  | .dotbg h d a b c => e3 0x14B 0 h d a b c
  | .rcp h ty d b => e1 0x180 ty.code h d b
  | .rsq h ty d b => e1 0x181 ty.code h d b
  | .sqrt h ty d b => e1 0x182 ty.code h d b
  | .fdiv h ty d a b => e2 0x183 ty.code h d a b
  | .exp2 h ty d b => e1 0x184 ty.code h d b
  | .log2 h ty d b => e1 0x185 ty.code h d b
  | .sin h ty d b => e1 0x186 ty.code h d b
  | .cos h ty d b => e1 0x187 ty.code h d b
  | .tanh h ty d b => e1 0x188 ty.code h d b
  | .cvt h dt sty d b => e1 0x189 (dt.code + 8 * sty.code) h d b
  | .cvtiToInt h it ft rm d b => e1 0x18A (it.code + 8 * ft.code + 64 * rm.code) h d b
  | .cvtiFromInt h it ft d b => e1 0x18A (it.code + 8 * ft.code + 32) h d b
  | .cvtnNarrow h nf wf d b => e1 0x18B (nf.code + 64 * wf.code) h d b
  | .cvtnWiden h nf wf d b => e1 0x18B (nf.code + 64 * wf.code + 256) h d b
  | .qnt h nf gs d a b c =>
      e3 0x18C (nf.code + (match gs with | none => 0 | some g => 64 * g.toNat + 512)) h d a b c
  | .dqnt h nf wf d a b => e2 0x18D (nf.code + 64 * wf.code) h d a b
  | .qscl h nf e d b => e1 0x18E (nf.code + 64 * e.toNat) h d b
  | .qspl h nf d b => e1 0x18F nf.code h d b
  | .qsplRec h d a b => mk 0x18F 64 h (encU d) (encU a) (b.enc 0#12)
  | .pack h sz pos d a b => e2 0x190 (sz.code + 4 * pos.toNat) h d a b
  | .unpk h sz pos sx d b => e1 0x191 (sz.code + 4 * pos.toNat + 32 * sx.toNat) h d b
  | .shfl h mode w seg d a b => e2 0x1C0 (mode.code + 4 * w.toNat + 8 * seg.toNat) h d a b
  | .vote h form neg ga =>
      match form with
      | .all g => mk 0x1C1 (4 * neg.toNat) h (encGuard g) (encGuard ga) 0#38
      | .any g => mk 0x1C1 (1 + 4 * neg.toNat) h (encGuard g) (encGuard ga) 0#38
      | .eq g => mk 0x1C1 (2 + 4 * neg.toNat) h (encGuard g) (encGuard ga) 0#38
      | .mask d => mk 0x1C1 (3 + 4 * neg.toNat) h d.enc (encGuard ga) 0#38
  | .lred h ty op d b => e1 0x1C2 (ty.code + 16 * op.code) h d b
  | .lscn h ty op exc d b => e1 0x1C3 (ty.code + 16 * op.code + 128 * exc.toNat) h d b
  | .mtch h w d b => e1 0x1C4 (4 * w.toNat) h d b
  | .rdln h w d a b => mk 0x1C5 (4 * w.toNat) h (encU d) a.enc (b.enc 0#12)
  | .wrln h w d a b => mk 0x1C6 (4 * w.toNat) h (encV d) (encU a) (b.enc 0#12)
  | .ld h sz mis nt d a b => e2 0x200 (sz.code + 8 * mis.toNat + 16 * nt.toNat) h d a b
  | .st h sz mis nt d a b => e2 0x201 (sz.code + 8 * mis.toNat + 16 * nt.toNat) h d a b
  | .lda h sz sc d a b => e2 0x202 (sz.code + 8 * sc.code) h d a b
  | .stl h sz sc d a b => e2 0x203 (sz.code + 8 * sc.code) h d a b
  | .ldc h sz d n a off => mk 0x204 sz.code h d.enc a.enc (immB (n ++ (0#10 ++ off)))
  | .pref h l a b => mk 0x205 l.toNat h 0#12 a.enc (b.enc 0#12)
  | .preft h l bar a b => mk 0x206 l.toNat h (encBar bar) (encU a) (b.enc 0#12)
  | .lds h sz d a b => e2 0x240 sz.code h d a b
  | .sts h sz d a b => e2 0x241 sz.code h d a b
  | .ldfKeep h sz d a b => e2 0x242 sz.code h d a b
  | .ldfTake h sz d a b => e2 0x242 (sz.code + 8) h d a b
  | .stf h sz d a b => e2 0x243 sz.code h d a b
  | .grnClr h a b => mk 0x244 0 h 0#12 (encU a) (b.enc 0#12)
  | .grnSet h a b => mk 0x244 1 h 0#12 (encU a) (b.enc 0#12)
  | .grnQry h d a b => mk 0x244 2 h (encU d) (encU a) (b.enc 0#12)
  | .ldx h sz k d a b => e2 0x245 (sz.code + 8 * k.toNat) h d a b
  | .stx h sz k d a b => e2 0x246 (sz.code + 8 * k.toNat) h d a b
  | .atom h ty op sc d a b => e2 0x280 (ty.code + 16 * op.code + 128 * sc.code) h d a b
  | .atoms h ty op d a b => e2 0x281 (ty.code + 16 * op.code) h d a b
  | .red h ty op sc a b =>
      mk 0x282 (ty.code + 16 * op.code + 128 * sc.code) h 0#12 a.enc (b.enc 0#12)
  | .redSpad h ty op a b => mk 0x282 (ty.code + 8 + 16 * op.code) h 0#12 a.enc (b.enc 0#12)
  | .cas h ty sc d a b c => e3 0x283 (ty.code + 128 * sc.code) h d a b c
  | .cass h ty d a b c => e3 0x284 ty.code h d a b c
  | .fence h kind sc mask => mk 0x285 (sc.code + 8 * kind.code) h 0#12 0#12 (immB (0#24 ++ mask))
  | .rngs h sp f a b => mk 0x286 (2 * sp.toNat) h (encSlot f) (encU a) ((Opd.reg (.s b)).enc 0#12)
  | .rngsT h f th => mk 0x286 1 h (encSlot f) 0#12 (immB (0#26 ++ th))
  | .rngc h f => mk 0x287 0 h (encSlot f) 0#12 0#38
  | .tdw h clr n th => mk 0x2C0 clr.toNat h 0#12 (encU n) (immB (0#26 ++ th))
  | .tdr h sel clr d th j =>
      mk 0x2C1 (sel.code + 8 * clr.toNat) h (encU d) 0#12 (immB (0#18 ++ (j ++ (0#2 ++ th))))
  | .macq h af g m b => mk 0x2C2 af.code h (encGuard g) (encTile m) (b.enc 0#12)
  | .mrel h m => mk 0x2C3 0 h (encTile m) 0#12 0#38
  | .mzro h m => mk 0x2C4 0 h (encTile m) 0#12 0#38
  | .mma h acc m n ta tb => mk 0x2C5 acc.toNat h (encTile m) (encU n) (immB (hImm ta tb))
  | .mmaGang h acc m n ta tb => mk 0x2C5 (acc.toNat + 2) h (encTile m) (encU n) (immB (hImm ta tb))
  | .mgng h n => mk 0x2C6 0 h 0#12 (encU n) 0#38
  | .mgngClr h => e0 0x2C6 1 h
  | .mlda h m n th => mk 0x2C7 0 h (encTile m) (encU n) (immB (0#26 ++ th))
  | .msta h m n th gs =>
      mk 0x2C8 (match gs with | none => 0 | some g => g.toNat + 8) h (encTile m) (encU n) (immB (0#26 ++ th))
  | .mprgRd h d => mk 0x2C9 0 h (encU d) 0#12 0#38
  | .mprgPc h d => mk 0x2C9 1 h (encU d) 0#12 0#38
  | .mprgGo h => e0 0x2C9 2 h
  | .mprgAb h => e0 0x2C9 3 h
  | .mdupClr h th => mk 0x2CA 0 h 0#12 0#12 (immB (0#26 ++ th))
  | .mdupCp h td ts => mk 0x2CA 1 h 0#12 0#12 (immB (hImm td ts))
  | .cpy h n => mk 0x300 0 h 0#12 (encU n) 0#38
  | .cpygGather h n b => mk 0x301 0 h 0#12 (encU n) (b.enc 0#12)
  | .cpygScatter h n b => mk 0x301 1 h 0#12 (encU n) (b.enc 0#12)
  | .cpyx h n p => mk 0x302 0 h 0#12 (encU n) (immB (0#28 ++ p))
  | .cpyrGo h g a => mk 0x303 0 h (encGuard g) (encU a) 0#38
  | .cpyrAb h g a => mk 0x303 1 h (encGuard g) (encU a) 0#38
  | .dcmp h n => mk 0x304 0 h 0#12 (encU n) 0#38
  | .waitc h c n => mk 0x305 c.code h 0#12 0#12 (immB (0#24 ++ n))
  | .dgrs h k b => mk 0x306 k.toNat h 0#12 0#12 (b.enc 0#12)
  | .dgrsClr h k => mk 0x306 (k.toNat + 8) h 0#12 0#12 0#38
  | .bari h bar e => mk 0x340 0 h 0#12 (encBar bar) (immB (0#20 ++ e))
  | .barv h bar rd => mk 0x341 rd.isSome.toNat h (optU rd) (encBar bar) 0#38
  | .barw h bar b rd => mk 0x342 rd.isSome.toNat h (optU rd) (encBar bar) (b.enc 0#12)
  | .bars h bar rd => mk 0x343 rd.isSome.toNat h (optU rd) (encBar bar) 0#38
  | .spli h bar len ef ee => mk 0x344 0 h 0#12 (encBar bar) (immB (0#4 ++ (ee ++ (ef ++ len))))
  | .splwFull h bar b rd => mk 0x345 (rd.isSome.toNat + 2) h (optU rd) (encBar bar) (b.enc 0#12)
  | .splwEmpty h bar b rd => mk 0x345 rd.isSome.toNat h (optU rd) (encBar bar) (b.enc 0#12)
  | .spld h bar b => mk 0x346 0 h 0#12 (encBar bar) (b.enc 0#12)
  | .rdsr h n d => mk 0x380 n.toNat h d.enc 0#12 0#38
  | .wrsr h n b => mk 0x381 n.toNat h 0#12 0#12 (b.enc 0#12)
  | .slate h tag => mk 0x382 0 h 0#12 0#12 (immB (0#16 ++ tag))
  | .erriCnt h d => mk 0x383 0 h (encU d) 0#12 0#38
  | .erriRd h n i => mk 0x383 1 h (encU n) 0#12 (immB (0#24 ++ i))
  | .erriPop h => e0 0x383 2 h
  | .takeSig h d => mk 0x384 0 h (encU d) 0#12 0#38
  | .takeCmt h => e0 0x384 1 h
  | .extensionOperation w => w
  | .invalidEncoding w => w
  | .cutWaitEnd .. | .ldfReadPerform .. | .boundaryTrap .. | .copyCommandAccept .. | .copyQueueHead ..
  | .copyChunkRead .. | .copyChunkCommit .. | .cpyxChunkAck .. | .preftChunk ..
  | .decompressionJobAccept | .decompressionJobRun .. | .decompressionJobComplete ..
  | .matrixArrayStep | .matrixRowBlock | .mrelPerform | .gangRendezvousTimeout
  | .governorWindow | .l2Lookup .. | .codedMerge .. | .homeAtomic .. | .pageWalk ..
  | .hbmAtomWrite | .hbmAtomRead | .hbmReadModifyWrite | .mapoutDeclare .. | .mapoutReq ..
  | .mapoutStart | .mapoutAck | .mapoutRebuildComplete | .crflush .. | .crflushDone
  | .tlbinvPage .. | .tlbinvAll .. | .tlbinvDone | .fqPop | .fqResume | .fqCancel
  | .waysAll .. | .meshFlitReceive .. | .meshLinkRetrain .. | .linkFrameReceive .. | .linkEnable
  | .linkTrainingDone .. | .linkFailure | .doorbellTail .. | .launchAccept ..
  | .placeDistributedUnit .. | .stealRequest | .stagingCopy | .workgroupStart
  | .exitWriteback | .workgroupEnd | .launchComplete | .activeSetRotation ..
  | .ctxcmdCreate .. | .ctxcmdDestroy .. | .ctxcmdPreempt .. | .preemptSave | .preemptHoldTimeout
  | .ctxcmdRestore .. | .ctxcmdEndWorkgroup .. | .ctxcmdStep .. | .ctxcmdStepThread ..
  | .ctxcmdResume .. | .logPop .. | .windowRead .. | .windowWrite .. | .registerWrite ..
  | .slateFire .. | .takeCommitDecide | .takeCommitTimeout | .takeAtomicPair ..
  | .rushesEntryFree .. | .schedulerRebuild .. | .dailyRun .. | .dailyRunComplete ..
  | .coreLeaveService | .wearUpdate .. | .pwrStateActive | .pwrStateIdle | .pwrEnterIdle
  | .pwrStateOff | .thermalThrottle | .thermalShutdown | .fundamentalReset
  | .attestationRequest .. | .variableLatencyResult .. | .hostMemoryAccess .. | .otaetharLinkRetrain => 0#96

/-! ### Decoder -/

/-- Why a word is no instruction of groups 0x0 to 0xE (Table 8.10). -/
inductive DecodeError where
  /-- All 96 bits are zero. -/
  | zeroWord
  /-- Guard index 15 with GNEG 1, PS 7, or a deferred guard outside R157. -/
  | guardField
  /-- Field B of kind 11, or bits of it that Table 8.6 requires to be zero. -/
  | fieldB
  /-- A specifier of a reserved class, file or index (R154, R37). -/
  | specifier
  /-- Unassigned OP of groups 0x0 to 0xE (R167). -/
  | unassigned
  /-- A reserved modifier value, or a register or kind the operation does not accept. -/
  | operand
  /-- A modifier bit or a field that the operation does not use is nonzero. -/
  | unused
  /-- Fields that the operation's entry rejects (R197 to R374). -/
  | illFormed
  deriving DecidableEq, Repr

/-- `n` bits of the number `m` from bit `lo`. -/
def fld (m lo n : Nat) : Nat := m / 2 ^ lo % 2 ^ n

/-- One bit of the number `m`. -/
def flg (m lo : Nat) : Bool := m / 2 ^ lo % 2 == 1

/-- Width suffix: code 1 is `.b32`, code 3 is `.b64` (R199). -/
def wOf? (m : Nat) : Option Bool :=
  if fld m 0 3 == 1 then some false else if fld m 0 3 == 3 then some true else none

def naOf (m lo : Nat) : NegAbs := ⟨flg m lo, flg m (lo + 1)⟩

/-- D and B. -/
def p1 (r : Raw) (f : Reg → Opd → Option Instr) : Option Instr :=
  match decReg r.d, decOpd r.b with
  | some d, some b => f d b
  | _, _ => none

/-- D, A and B. -/
def p2 (r : Raw) (f : Reg → Reg → Opd → Option Instr) : Option Instr :=
  match decReg r.d, decReg r.a, decOpd r.b with
  | some d, some a, some b => f d a b
  | _, _, _ => none

/-- D, A, B and C. -/
def p3 (r : Raw) (f : Reg → Reg → Opd → Reg → Option Instr) : Option Instr :=
  match decReg r.d, decReg r.a, decOpd r.b, decC r.b with
  | some d, some a, some b, some c => f d a b c
  | _, _, _, _ => none

/-- An optional register that a modifier bit announces. -/
def optOf {α : Type} (on : Bool) (r : Option α) : Option (Option α) :=
  if on then r.map some else some none

def parseControl (op : Nat) (r : Raw) : Option Instr :=
  let h := r.h
  let m := r.md.toNat
  match op with
  | 0x01 => some (.nop h)
  | 0x02 => (decImm r.b).map (.bra h)
  | 0x03 => (decReg r.a).map (.brx h)
  | 0x04 => (optOf (flg m 0) (decReg r.d)).bind fun sv => (decImm r.b).map (.call h sv)
  | 0x05 => (optOf (flg m 0) (decReg r.d)).bind fun sv => (decReg r.a).map (.callx h sv)
  | 0x06 => (optOf (flg m 0) (decReg r.a)).map (.ret h)
  | 0x07 => some (.exit h)
  | 0x08 => (decImm r.b).map (.rcv h)
  | 0x09 => some (.join h)
  | 0x0A => (decOpd r.b).map (.cut h)
  | 0x0B => some (.yield h)
  | 0x0C => (decImm r.b).map fun w => .brk h (w.extractLsb' 0 16)
  | 0x0D => (decImm r.b).map fun w => .trap h (w.extractLsb' 0 16)
  | 0x0E => some (.tret h)
  | 0x0F => (decU r.d).bind fun d => (decU r.a).map (.lnch h (flg m 0) d)
  | _ => none

def parseInteger (op : Nat) (r : Raw) : Option Instr :=
  let h := r.h
  let m := r.md.toNat
  let ty := IntTy.of (fld m 0 3)
  match op with
  | 0x00 => p2 r fun d a b => some (.iadd h ty (flg m 3) d a b)
  | 0x01 => p2 r fun d a b => some (.iaddx h ty d (BitVec.ofNat 3 (fld m 6 3)) a b
      (if flg m 9 then none else some (BitVec.ofNat 3 (fld m 3 3))))
  | 0x02 => p2 r fun d a b => some (.isub h ty (flg m 3) d a b)
  | 0x03 => p1 r fun d b => some (.ineg h ty (flg m 3) d b)
  | 0x04 => p1 r fun d b => some (.iabs h ty (flg m 3) d b)
  | 0x05 => p2 r fun d a b => some (.imin h ty d a b)
  | 0x06 => p2 r fun d a b => some (.imax h ty d a b)
  | 0x07 => p2 r fun d a b => some (.imul h ty (flg m 3) d a b)
  | 0x08 => p2 r fun d a b => some (.imulh h ty d a b)
  | 0x09 => p3 r fun d a b c => some (.imad h ty d a b c)
  | 0x0A => p3 r fun d a b c => some (.imadw h ty d a b c)
  | 0x0B => p2 r fun d a b => some (.idiv h ty d a b)
  | 0x0C => p2 r fun d a b => some (.irem h ty d a b)
  | 0x0D => p3 r fun d a b c => some (.idot4 h ty (flg m 3) d a b c)
  | 0x0E => p3 r fun d a b c => some (.isad h ty d a b c)
  | 0x0F => p3 r fun d a b c => some (.iclamp h ty d a b c)
  | 0x10 => p2 r fun d a b => some (.lea h ty (BitVec.ofNat 3 (fld m 3 3)) d a b)
  | _ => none

def parseLogic (op : Nat) (r : Raw) : Option Instr :=
  let h := r.h
  let m := r.md.toNat
  let ty := IntTy.of (fld m 0 3)
  let w := wOf? m
  match op with
  | 0x00 => p2 r fun d a b => w.map fun w => .and h w d a b
  | 0x01 => p2 r fun d a b => w.map fun w => .or h w d a b
  | 0x02 => p2 r fun d a b => w.map fun w => .xor h w d a b
  | 0x03 => p2 r fun d a b => w.map fun w => .andn h w d a b
  | 0x04 => p2 r fun d a b => w.map fun w => .orn h w d a b
  | 0x05 => p3 r fun d a b c => some (.lop3 h (flg m 0) (BitVec.ofNat 4 (fld m 2 4)) (BitVec.ofNat 4 (fld m 6 4)) d a b c)
  | 0x06 => p2 r fun d a b => w.map fun w => .shl h w (flg m 3) d a b
  | 0x07 => p2 r fun d a b => w.map fun w => .shr h w (flg m 3) d a b
  | 0x08 => p2 r fun d a b => w.map fun w => .sar h w (flg m 3) d a b
  | 0x09 => p2 r fun d a b => w.map fun w => .rol h w d a b
  | 0x0A => p3 r fun d a b c => some (.fsh h (flg m 3) d a b c)
  | 0x0B => p1 r fun d b => w.map fun w => .popc h w d b
  | 0x0C => p1 r fun d b => w.map fun w => .clz h w d b
  | 0x0D => p1 r fun d b => w.map fun w => .ctz h w d b
  | 0x0E => p1 r fun d b => w.map fun w => .brev h w d b
  | 0x0F => p2 r fun d a b => some (.bfx h ty d a b)
  | 0x10 => p3 r fun d a b c => w.map fun w => .bfi h w d a b c
  | 0x11 => p3 r fun d a b c => some (.permb h d a b c)
  | _ => none

def parseCompare (op : Nat) (r : Raw) : Option Instr :=
  let h := r.h
  let m := r.md.toNat
  let w := wOf? m
  let w2 := flg m 0
  match op with
  | 0x00 =>
      (decGuard r.d).bind fun g => (decReg r.a).bind fun a => (decOpd r.b).bind fun b =>
      (ICond.of? (fld m 3 3)).bind fun c => (Comb.of? (fld m 6 2)).map fun k =>
        .icmp h (IntTy.of (fld m 0 3)) c k g a b
  | 0x01 =>
      (decGuard r.d).bind fun g => (decReg r.a).bind fun a => (decOpd r.b).bind fun b =>
      (FloatTy.of? (fld m 0 3)).bind fun ty => (Comb.of? (fld m 6 2)).map fun k =>
        .fcmp h ty (FCond.of (fld m 3 3)) k g a b
  | 0x02 =>
      (decGuard r.d).bind fun g =>
        if flg m 4 then (decOpd r.b).map fun b => .gsetNz h g b
        else (decGuard r.a).bind fun ga => (decGuard (r.b.extractLsb' 0 12)).map fun gb =>
          .gset h (BitVec.ofNat 4 (fld m 0 4)) g ga gb
  | 0x03 => p2 r fun d a b => w.map fun w => .gmov h w (BitVec.ofNat 3 (fld m 3 3)) (flg m 6) d a b
  | 0x04 => p3 r fun d a b c => w.map fun w => .sel h w d a b c
  | 0x05 => p1 r fun d b => w.map fun w => .mov h w d b
  | 0x06 => p1 r fun d b => some (.rsd h w2 (flg m 2) d b)
  | 0x07 => p1 r fun d b => some (.rsdp h w2 d b)
  | 0x08 => (decGuard r.d).bind fun g => (decOpd r.b).map fun b => .rsdq h w2 g b
  | _ => none

def parseFloat (op : Nat) (r : Raw) : Option Instr :=
  let h := r.h
  let m := r.md.toNat
  (FloatTy.of? (fld m 0 3)).bind fun ty =>
  match op with
  | 0x00 => p2 r fun d a b => some (.fadd h ty (naOf m 3) (naOf m 5) d a b)
  | 0x01 => p2 r fun d a b => some (.fsub h ty (naOf m 3) (naOf m 5) d a b)
  | 0x02 => p2 r fun d a b => some (.fmul h ty (naOf m 3) (naOf m 5) d a b)
  | 0x03 => p3 r fun d a b c => some (.ffma h ty (naOf m 3) (naOf m 5) (naOf m 7) d a b c)
  | 0x04 => p2 r fun d a b => some (.fmin h ty (naOf m 3) (naOf m 5) d a b)
  | 0x05 => p2 r fun d a b => some (.fmax h ty (naOf m 3) (naOf m 5) d a b)
  | 0x06 => p1 r fun d b => (RMode.of? (fld m 7 3)).map fun rm => .frnd h ty rm (naOf m 5) d b
  | 0x07 => p2 r fun d a b => some (.fscl h ty (naOf m 3) d a b)
  | 0x08 => p1 r fun d b => some (.fcls h ty d b)
  | _ => none

def parsePacked (op : Nat) (r : Raw) : Option Instr :=
  let h := r.h
  let m := r.md.toNat
  let q := B8Fmt.of (fld m 0 5)
  match op with
  | 0x00 => p2 r fun d a b => some (.hadd2 h (flg m 0) (flg m 1) (flg m 2) d a b)
  | 0x01 => p2 r fun d a b => some (.hmul2 h (flg m 0) (flg m 1) (flg m 2) d a b)
  | 0x02 => p3 r fun d a b c => some (.hfma2 h (flg m 0) (flg m 1) (flg m 2) (flg m 3) d a b c)
  | 0x03 => p2 r fun d a b => some (.hmin2 h (flg m 0) (flg m 1) (flg m 2) d a b)
  | 0x04 => p2 r fun d a b => some (.hmax2 h (flg m 0) (flg m 1) (flg m 2) d a b)
  | 0x05 => p2 r fun d a b => some (.qadd4 h q d a b)
  | 0x06 => p2 r fun d a b => some (.qmul4 h q d a b)
  | 0x07 => p3 r fun d a b c => some (.qfma4 h q d a b c)
  | 0x08 => p2 r fun d a b => some (.qmax4 h (flg m 5) q d a b)
  | 0x09 => p3 r fun d a b c => some (.dot2 h (flg m 0) d a b c)
  | 0x0A => p3 r fun d a b c => some (.dot4q h q (B8Fmt.of (fld m 5 5)) d a b c)
  | 0x0B => p3 r fun d a b c => some (.dotbg h d a b c)
  | _ => none

def parseSpecial (op : Nat) (r : Raw) : Option Instr :=
  let h := r.h
  let m := r.md.toNat
  let ty := FloatTy.of? (fld m 0 3)
  match op with
  | 0x00 => p1 r fun d b => ty.map fun ty => .rcp h ty d b
  | 0x01 => p1 r fun d b => ty.map fun ty => .rsq h ty d b
  | 0x02 => p1 r fun d b => ty.map fun ty => .sqrt h ty d b
  | 0x03 => p2 r fun d a b => ty.map fun ty => .fdiv h ty d a b
  | 0x04 => p1 r fun d b => ty.map fun ty => .exp2 h ty d b
  | 0x05 => p1 r fun d b => ty.map fun ty => .log2 h ty d b
  | 0x06 => p1 r fun d b => ty.map fun ty => .sin h ty d b
  | 0x07 => p1 r fun d b => ty.map fun ty => .cos h ty d b
  | 0x08 => p1 r fun d b => ty.map fun ty => .tanh h ty d b
  | 0x09 => p1 r fun d b => ty.bind fun dt => (FloatTy.of? (fld m 3 3)).map fun sty => .cvt h dt sty d b
  | 0x0A => p1 r fun d b => (FloatTy.of? (fld m 3 2)).bind fun ft =>
      if flg m 5 then some (.cvtiFromInt h (IntTy.of (fld m 0 3)) ft d b)
      else (RMode.of? (fld m 6 3)).map fun rm => .cvtiToInt h (IntTy.of (fld m 0 3)) ft rm d b
  | 0x0B => p1 r fun d b => (NarrowFmt.of? (fld m 0 6)).bind fun nf => (WideFmt.of? (fld m 6 2)).map fun wf =>
      if flg m 8 then .cvtnWiden h nf wf d b else .cvtnNarrow h nf wf d b
  | 0x0C => p3 r fun d a b c => (QuantFmt.of? (fld m 0 6)).map fun nf =>
      .qnt h nf (if flg m 9 then some (BitVec.ofNat 3 (fld m 6 3)) else none) d a b c
  | 0x0D => p2 r fun d a b => (QuantFmt.of? (fld m 0 6)).bind fun nf =>
      (WideFmt.of? (fld m 6 2)).map fun wf => .dqnt h nf wf d a b
  | 0x0E => p1 r fun d b => (QuantFmt.of? (fld m 0 6)).map fun nf => .qscl h nf (flg m 6) d b
  | 0x0F =>
      if flg m 6 then
        (decU r.d).bind fun d => (decU r.a).bind fun a => (decOpd r.b).map fun b => .qsplRec h d a b
      else p1 r fun d b => (SplitFmt.of? (fld m 0 6)).map fun nf => .qspl h nf d b
  | 0x10 => p2 r fun d a b => (PackSz.of? (fld m 0 2)).map fun sz =>
      .pack h sz (BitVec.ofNat 3 (fld m 2 3)) d a b
  | 0x11 => p1 r fun d b => (PackSz.of? (fld m 0 2)).map fun sz =>
      .unpk h sz (BitVec.ofNat 3 (fld m 2 3)) (flg m 5) d b
  | _ => none

def parseLanes (op : Nat) (r : Raw) : Option Instr :=
  let h := r.h
  let m := r.md.toNat
  match op with
  | 0x00 => p2 r fun d a b =>
      some (.shfl h (ShflMode.of (fld m 0 2)) (flg m 2) (BitVec.ofNat 3 (fld m 3 3)) d a b)
  | 0x01 => (decGuard r.a).bind fun ga =>
      if fld m 0 2 == 3 then (decReg r.d).map fun d => .vote h (.mask d) (flg m 2) ga
      else (decGuard r.d).map fun g =>
        .vote h (if fld m 0 2 == 0 then .all g else if fld m 0 2 == 1 then .any g else .eq g) (flg m 2) ga
  | 0x02 => p1 r fun d b => (RedTy.of? (fld m 0 4)).bind fun ty => (RedOp.of? (fld m 4 3)).map fun op =>
      .lred h ty op d b
  | 0x03 => p1 r fun d b => (RedTy.of? (fld m 0 4)).bind fun ty => (RedOp.of? (fld m 4 3)).map fun op =>
      .lscn h ty op (flg m 7) d b
  | 0x04 => p1 r fun d b => some (.mtch h (flg m 2) d b)
  | 0x05 => (decU r.d).bind fun d => (decReg r.a).bind fun a => (decOpd r.b).map fun b =>
      .rdln h (flg m 2) d a b
  | 0x06 => (decV r.d).bind fun d => (decU r.a).bind fun a => (decOpd r.b).map fun b =>
      .wrln h (flg m 2) d a b
  | _ => none

def parseGlobal (op : Nat) (r : Raw) : Option Instr :=
  let h := r.h
  let m := r.md.toNat
  let sz := MemSz.of? (fld m 0 3)
  match op with
  | 0x00 => p2 r fun d a b => sz.map fun sz => .ld h sz (flg m 3) (flg m 4) d a b
  | 0x01 => p2 r fun d a b => sz.map fun sz => .st h sz (flg m 3) (flg m 4) d a b
  | 0x02 => p2 r fun d a b => sz.bind fun sz => (Scope.of? (fld m 3 3)).map fun sc => .lda h sz sc d a b
  | 0x03 => p2 r fun d a b => sz.bind fun sz => (Scope.of? (fld m 3 3)).map fun sc => .stl h sz sc d a b
  | 0x04 => (decReg r.d).bind fun d => (decReg r.a).bind fun a => (decImm r.b).bind fun w =>
      sz.map fun sz => .ldc h sz d (w.extractLsb' 29 3) a (w.extractLsb' 0 19)
  | 0x05 => (decReg r.a).bind fun a => (decOpd r.b).map fun b => .pref h (flg m 0) a b
  | 0x06 => (decBar r.d).bind fun d => (decU r.a).bind fun a => (decOpd r.b).map fun b =>
      .preft h (flg m 0) d a b
  | _ => none

def parseScratch (op : Nat) (r : Raw) : Option Instr :=
  let h := r.h
  let m := r.md.toNat
  let sz := MemSz.of? (fld m 0 3)
  match op with
  | 0x00 => p2 r fun d a b => sz.map fun sz => .lds h sz d a b
  | 0x01 => p2 r fun d a b => sz.map fun sz => .sts h sz d a b
  | 0x02 => p2 r fun d a b => sz.map fun sz => if flg m 3 then .ldfTake h sz d a b else .ldfKeep h sz d a b
  | 0x03 => p2 r fun d a b => sz.map fun sz => .stf h sz d a b
  | 0x04 => (decU r.a).bind fun a => (decOpd r.b).bind fun b =>
      if fld m 0 2 == 0 then some (.grnClr h a b)
      else if fld m 0 2 == 1 then some (.grnSet h a b)
      else (decU r.d).map fun d => .grnQry h d a b
  | 0x05 => p2 r fun d a b => sz.map fun sz => .ldx h sz (BitVec.ofNat 3 (fld m 3 3)) d a b
  | 0x06 => p2 r fun d a b => sz.map fun sz => .stx h sz (BitVec.ofNat 3 (fld m 3 3)) d a b
  | _ => none

def parseAtomic (op : Nat) (r : Raw) : Option Instr :=
  let h := r.h
  let m := r.md.toNat
  let ty := AtomTy.of (fld m 0 3)
  let aop := AtomOp.of? (fld m 4 3)
  let sc := Scope.of? (fld m 7 3)
  match op with
  | 0x00 => p2 r fun d a b => aop.bind fun o => sc.map fun sc => .atom h ty o sc d a b
  | 0x01 => p2 r fun d a b => aop.map fun o => .atoms h ty o d a b
  | 0x02 => (decReg r.a).bind fun a => (decOpd r.b).bind fun b => aop.bind fun o =>
      if flg m 3 then some (.redSpad h ty o a b) else sc.map fun sc => .red h ty o sc a b
  | 0x03 => p3 r fun d a b c => sc.map fun sc => .cas h ty sc d a b c
  | 0x04 => p3 r fun d a b c => some (.cass h ty d a b c)
  | 0x05 => (Scope.of? (fld m 0 3)).bind fun sc => (decImm r.b).map fun w =>
      .fence h (FenceKind.of (fld m 3 2)) sc (w.extractLsb' 0 8)
  | 0x06 => (decSlot r.d).bind fun f =>
      if flg m 0 then (decImm r.b).map fun w => .rngsT h f (w.extractLsb' 0 6)
      else (decU r.a).bind fun a => (decU (r.b.extractLsb' 0 12)).map fun b => .rngs h (flg m 1) f a b
  | 0x07 => (decSlot r.d).map fun f => .rngc h f
  | _ => none

def parseMatrix (op : Nat) (r : Raw) : Option Instr :=
  let h := r.h
  let m := r.md.toNat
  match op with
  | 0x00 => (decU r.a).bind fun n => (decImm r.b).map fun w => .tdw h (flg m 0) n (w.extractLsb' 0 6)
  | 0x01 => (decU r.d).bind fun d => (decImm r.b).map fun w =>
      .tdr h (TdrSel.of (fld m 0 3)) (flg m 3) d (w.extractLsb' 0 6) (w.extractLsb' 8 6)
  | 0x02 => (decGuard r.d).bind fun g => (decTile r.a).bind fun t => (decOpd r.b).map fun b =>
      .macq h (AccFmt.of (fld m 0 2)) g t b
  | 0x03 => (decTile r.d).map fun t => .mrel h t
  | 0x04 => (decTile r.d).map fun t => .mzro h t
  | 0x05 => (decTile r.d).bind fun t => (decU r.a).bind fun n => (decImm r.b).map fun w =>
      if flg m 1 then .mmaGang h (flg m 0) t n (w.extractLsb' 0 6) (w.extractLsb' 6 6)
      else .mma h (flg m 0) t n (w.extractLsb' 0 6) (w.extractLsb' 6 6)
  | 0x06 => if flg m 0 then some (.mgngClr h) else (decU r.a).map fun n => .mgng h n
  | 0x07 => (decTile r.d).bind fun t => (decU r.a).bind fun n => (decImm r.b).map fun w =>
      .mlda h t n (w.extractLsb' 0 6)
  | 0x08 => (decTile r.d).bind fun t => (decU r.a).bind fun n => (decImm r.b).map fun w =>
      .msta h t n (w.extractLsb' 0 6) (if flg m 3 then some (BitVec.ofNat 3 (fld m 0 3)) else none)
  | 0x09 =>
      if fld m 0 2 == 0 then (decU r.d).map fun d => .mprgRd h d
      else if fld m 0 2 == 1 then (decU r.d).map fun d => .mprgPc h d
      else if fld m 0 2 == 2 then some (.mprgGo h) else some (.mprgAb h)
  | 0x0A => (decImm r.b).map fun w =>
      if flg m 0 then .mdupCp h (w.extractLsb' 0 6) (w.extractLsb' 6 6) else .mdupClr h (w.extractLsb' 0 6)
  | _ => none

def parseEngine (op : Nat) (r : Raw) : Option Instr :=
  let h := r.h
  let m := r.md.toNat
  match op with
  | 0x00 => (decU r.a).map fun n => .cpy h n
  | 0x01 => (decU r.a).bind fun n => (decOpd r.b).map fun b =>
      if flg m 0 then .cpygScatter h n b else .cpygGather h n b
  | 0x02 => (decU r.a).bind fun n => (decImm r.b).map fun w => .cpyx h n (w.extractLsb' 0 4)
  | 0x03 => (decGuard r.d).bind fun g => (decU r.a).map fun a =>
      if flg m 0 then .cpyrAb h g a else .cpyrGo h g a
  | 0x04 => (decU r.a).map fun n => .dcmp h n
  | 0x05 => (decImm r.b).map fun w => .waitc h (CntClass.of (fld m 0 2)) (w.extractLsb' 0 8)
  | 0x06 =>
      if flg m 3 then some (.dgrsClr h (BitVec.ofNat 3 (fld m 0 3)))
      else (decOpd r.b).map fun b => .dgrs h (BitVec.ofNat 3 (fld m 0 3)) b
  | _ => none

def parseSync (op : Nat) (r : Raw) : Option Instr :=
  let h := r.h
  let m := r.md.toNat
  let rd := optOf (flg m 0) (decU r.d)
  match op with
  | 0x00 => (decBar r.a).bind fun n => (decImm r.b).map fun w => .bari h n (w.extractLsb' 0 12)
  | 0x01 => (decBar r.a).bind fun n => rd.map fun d => .barv h n d
  | 0x02 => (decBar r.a).bind fun n => rd.bind fun d => (decOpd r.b).map fun b => .barw h n b d
  | 0x03 => (decBar r.a).bind fun n => rd.map fun d => .bars h n d
  | 0x04 => (decBar r.a).bind fun n => (decImm r.b).map fun w =>
      .spli h n (w.extractLsb' 0 4) (w.extractLsb' 4 12) (w.extractLsb' 16 12)
  | 0x05 => (decBar r.a).bind fun n => rd.bind fun d => (decOpd r.b).map fun b =>
      if flg m 1 then .splwFull h n b d else .splwEmpty h n b d
  | 0x06 => (decBar r.a).bind fun n => (decOpd r.b).map fun b => .spld h n b
  | _ => none

def parseSystem (op : Nat) (r : Raw) : Option Instr :=
  let h := r.h
  let m := r.md.toNat
  match op with
  | 0x00 => (decReg r.d).map fun d => .rdsr h r.md d
  | 0x01 => (decOpd r.b).map fun b => .wrsr h r.md b
  | 0x02 => (decImm r.b).map fun w => .slate h (w.extractLsb' 0 16)
  | 0x03 =>
      if fld m 0 2 == 0 then (decU r.d).map fun d => .erriCnt h d
      else if fld m 0 2 == 1 then (decU r.d).bind fun n => (decImm r.b).map fun w => .erriRd h n (w.extractLsb' 0 8)
      else some (.erriPop h)
  | 0x04 => if flg m 0 then some (.takeCmt h) else (decU r.d).map fun d => .takeSig h d
  | _ => none

/-- Number of assigned operations of a group, from OP 0 (Table 8.9); in group 0x0, OP 0 is unassigned. -/
def opsOf : Nat → Nat
  | 0x0 => 16 | 0x1 => 17 | 0x2 => 18 | 0x3 => 9 | 0x4 => 9 | 0x5 => 12 | 0x6 => 18 | 0x7 => 7
  | 0x8 => 7 | 0x9 => 7 | 0xA => 8 | 0xB => 11 | 0xC => 7 | 0xD => 7 | 0xE => 5 | _ => 0

/-- The instruction that the fields name, unused bits not yet looked at. -/
def parse (r : Raw) : Option Instr :=
  let g := r.op.toNat / 64
  let op := r.op.toNat % 64
  match g with
  | 0x0 => parseControl op r
  | 0x1 => parseInteger op r
  | 0x2 => parseLogic op r
  | 0x3 => parseCompare op r
  | 0x4 => parseFloat op r
  | 0x5 => parsePacked op r
  | 0x6 => parseSpecial op r
  | 0x7 => parseLanes op r
  | 0x8 => parseGlobal op r
  | 0x9 => parseScratch op r
  | 0xA => parseAtomic op r
  | 0xB => parseMatrix op r
  | 0xC => parseEngine op r
  | 0xD => parseSync op r
  | 0xE => parseSystem op r
  | _ => none

/-- The operation may carry a deferred guard (R157). -/
def deferredOp (op : BitVec 10) : Bool := op == 0x300#10 || op == 0x301#10 || op == 0x302#10 || op == 0x304#10

/-- Decode a 96-bit word with the checks of Table 8.10, in their order. -/
def decodeWord (w : BitVec 96) : Except DecodeError Instr :=
  let r := Raw.ofWord w
  if w = 0#96 then .error .zeroWord
  else if !r.h.ok (deferredOp r.op) then .error .guardField
  else if !kindOk r.b then .error .fieldB
  else if !(specOk r.d && specOk r.a) then .error .specifier
  else if 960 ≤ r.op.toNat then .ok (.extensionOperation w)
  else if opsOf (r.op.toNat / 64) ≤ r.op.toNat % 64 || r.op = 0#10 then .error .unassigned
  else
    match parse r with
    | none => .error .operand
    | some i => if encode i ≠ w then .error .unused else if i.wf then .ok i else .error .illFormed

/-- Every word has a meaning: an instruction, or the illegal-instruction trap of R169. -/
def decode (w : BitVec 96) : Instr :=
  match decodeWord w with
  | .ok i => i
  | .error _ => .invalidEncoding w

/-! ### Bytes (R153) -/

/-- The number whose little-endian bytes are given (R4). -/
def leNat : List Byte → Nat
  | [] => 0
  | b :: bs => b.toNat + 256 * leNat bs

/-- The `n` little-endian bytes of a number. -/
def leBytes : Nat → Nat → List Byte
  | 0, _ => []
  | n + 1, v => BitVec.ofNat 8 v :: leBytes n (v / 256)

/-- The instruction in the first twelve of the given bytes, with the bytes after it. -/
def decodeBytes (bs : List Byte) : Option (Instr × List Byte) :=
  if bs.length < 12 then none else some (decode (BitVec.ofNat 96 (leNat (bs.take 12))), bs.drop 12)

/-- The twelve bytes of an instruction as memory holds them. -/
def encodeBytes (i : Instr) : List Byte := leBytes 12 (encode i).toNat

/-- What the decoder reads from an instruction whose bits, first word lowest, are `w`: the three words are
laid out at ascending addresses (R153). -/
def decodeTableWord (nbits w : Nat) : Option Instr :=
  (decodeBytes (leBytes 12 (w % 2 ^ nbits))).map (·.1)

end Sys2Proof
end

