-- ==== Sys2Proof/Machine/Num.lean ====
section
/-! DEFINITION. Exact values, the number formats and the one rounding procedure (R174 to R187, R190, R191,
R195). A value is an exact rational with a sign, an infinity or NaN; a format is read and written through the
position of a magnitude on its grid. -/

namespace Sys2Proof

namespace Machine

/-! ### Exact values -/

/-- An exact value: NaN, a signed infinity, or the sign and the magnitude `n / d`. A zero keeps its sign. -/
inductive Val where
  | nan
  | inf (neg : Bool)
  | num (neg : Bool) (n d : Nat)
  deriving DecidableEq, Repr

def Val.zero (neg : Bool) : Val := .num neg 0 1

/-- The value of an integer. -/
def Val.ofInt (x : Int) : Val := .num (decide (x < 0)) x.natAbs 1

/-- The magnitude `n · 2^x`. -/
def Val.scaled (neg : Bool) (n : Nat) (x : Int) : Val :=
  if 0 ≤ x then .num neg (n * 2 ^ x.toNat) 1 else .num neg n (2 ^ (-x).toNat)

def Val.neg : Val → Val
  | .nan => .nan
  | .inf s => .inf (!s)
  | .num s n d => .num (!s) n d

def Val.isNan : Val → Bool
  | .nan => true
  | _ => false

def Val.finite : Val → Bool
  | .num _ _ _ => true
  | _ => false

def Val.isZero : Val → Bool
  | .num _ n _ => n == 0
  | _ => false

/-- Signed numerator of a finite value. -/
def Val.signed (neg : Bool) (n : Nat) : Int := if neg then -(n : Int) else n

/-- Exact sum; an exact zero has the sign IEEE 754 gives it, with rounding code `rnd` (R182). -/
def Val.add (rnd : Nat) : Val → Val → Val
  | .nan, _ => .nan
  | _, .nan => .nan
  | .inf s, .inf t => if s == t then .inf s else .nan
  | .inf s, .num _ _ _ => .inf s
  | .num _ _ _, .inf t => .inf t
  | .num s n d, .num t m e =>
    let x := Val.signed s (n * e) + Val.signed t (m * d)
    if x == 0 then (if n == 0 && m == 0 && s == t then .num s 0 1 else .num (rnd == 2) 0 1)
    else .num (decide (x < 0)) x.natAbs (d * e)

/-- Exact product; 0 × ∞ is invalid (R228). -/
def Val.mul : Val → Val → Val
  | .nan, _ => .nan
  | _, .nan => .nan
  | .inf s, .inf t => .inf (s != t)
  | .inf s, .num t n _ => if n == 0 then .nan else .inf (s != t)
  | .num s n _, .inf t => if n == 0 then .nan else .inf (s != t)
  | .num s n d, .num t m e => .num (s != t) (n * m) (d * e)

/-- Exact quotient with the cases of Table 11.4. -/
def Val.div : Val → Val → Val
  | .nan, _ => .nan
  | _, .nan => .nan
  | .inf _, .inf _ => .nan
  | .inf s, .num t _ _ => .inf (s != t)
  | .num s _ _, .inf t => .num (s != t) 0 1
  | .num s n d, .num t m e =>
    if m == 0 then (if n == 0 then .nan else .inf (s != t)) else .num (s != t) (n * e) (d * m)

/-- Exact sum of a list, NaN or infinite as R236 and R251 state; the empty sum is +0. -/
def Val.sum (rnd : Nat) : List Val → Val
  | [] => .num false 0 1
  | [x] => x
  | x :: xs => Val.add rnd x (Val.sum rnd xs)

/-- Comparison of two values that are not NaN: −0 equals +0 (R232). -/
def Val.cmp : Val → Val → Ordering
  | .inf s, .inf t => if s == t then .eq else if s then .lt else .gt
  | .inf s, _ => if s then .lt else .gt
  | _, .inf t => if t then .gt else .lt
  | .num s n d, .num t m e => compare (Val.signed s (n * e)) (Val.signed t (m * d))
  | _, _ => .eq

/-- `Floor(Log2(n / d))` for positive `n` and `d`. -/
def ilog2 (n d : Nat) : Int :=
  let e : Int := (n.log2 : Int) - (d.log2 : Int)
  if 0 ≤ e then (if d * 2 ^ e.toNat ≤ n then e else e - 1)
  else (if d ≤ n * 2 ^ (-e).toNat then e else e - 1)

/-- `Ceil(Log2(n / d))` for positive `n` and `d`. -/
def clog2 (n d : Nat) : Int :=
  let e := ilog2 n d
  let exact := if 0 ≤ e then n == d * 2 ^ e.toNat else n * 2 ^ (-e).toNat == d
  if exact then e else e + 1

/-! ### Formats -/

/-- A destination or source format (R174, R176, R177, R179). -/
inductive Fmt where
  | ieee (t : FloatTy)
  | b8 (q : B8Fmt)
  | bg4
  | int (signed : Bool) (n : Nat)
  deriving DecidableEq, Repr

/-- Parameters of a floating grid: bits of the significand, weight of its last bit among the subnormals. -/
structure Grid where
  p : Nat
  xmin : Int
  deriving DecidableEq, Repr

end Machine

/-- Precision and least weight (Table 9.1, Table 9.3). -/
def FloatTy.grid : FloatTy → Machine.Grid
  | .f64 => ⟨53, -1074⟩
  | .f32 => ⟨24, -149⟩
  | .f16 => ⟨11, -24⟩
  | .bf16 => ⟨8, -133⟩

def FloatTy.bits : FloatTy → Nat
  | .f64 => 64
  | .f32 => 32
  | .f16 => 16
  | .bf16 => 16

/-- Magnitude code of infinity. -/
def FloatTy.infCode : FloatTy → Nat
  | .f64 => 0x7FF0000000000000
  | .f32 => 0x7F800000
  | .f16 => 0x7C00
  | .bf16 => 0x7F80

/-- The default NaN (Table 9.1). -/
def FloatTy.nanCode : FloatTy → Nat
  | .f64 => 0x7FF8000000000000
  | .f32 => 0x7FC00000
  | .f16 => 0x7E00
  | .bf16 => 0x7FC0

/-- Bias b of R177: 2^(7−P) signed, 2^(8−P) unsigned; the least weight is 1 − b − (P − 1). -/
def B8Fmt.grid (q : B8Fmt) : Machine.Grid :=
  let p := q.p.toNat
  let b : Nat := if q.uns then 2 ^ (8 - p) else 2 ^ (7 - p)
  ⟨p, 2 - (b : Int) - (p : Int)⟩

/-- Largest finite magnitude code (R178). -/
def B8Fmt.maxCode (q : B8Fmt) : Nat :=
  if q.uns then (if q.fin then 0xFE else 0xFD) else (if q.fin then 0x7F else 0x7E)

def B8Fmt.nanCode (q : B8Fmt) : Nat := if q.uns then 0xFF else 0x80

namespace Machine

/-- Levels of BG4 in units of 1/128 (R179). -/
def bgLevel : Nat → Nat
  | 0 => 0 | 1 => 12 | 2 => 24 | 3 => 37 | 4 => 52 | 5 => 70 | 6 => 93 | _ => 128

/-- Where a magnitude lies on the grid: the code of the largest grid magnitude not above it, and the part
`rem / den` of the step to the next one. -/
structure GridPos where
  code : Nat
  rem : Nat
  den : Nat
  deriving DecidableEq, Repr

/-- Position on a floating grid with unbounded exponent upward (R182). Codes count grid magnitudes from 0. -/
def Grid.pos (g : Grid) (n d : Nat) : GridPos :=
  if n == 0 then ⟨0, 0, 1⟩
  else
    let x := max (ilog2 n d - ((g.p : Int) - 1)) g.xmin
    let num := if 0 ≤ x then n else n * 2 ^ (-x).toNat
    let den := if 0 ≤ x then d * 2 ^ x.toNat else d
    ⟨(x - g.xmin).toNat * 2 ^ (g.p - 1) + num / den, num % den, den⟩

/-- The magnitude of a code, as `k · 2^x`. -/
def Grid.mag (g : Grid) (code : Nat) : Nat × Int :=
  let h := 2 ^ (g.p - 1)
  if code < h then (code, g.xmin) else (h + code % h, g.xmin + (code / h : Nat) - 1)

/-- Largest level index whose level is not above `n / d`, for `n ≤ d`. -/
def bgFloor (n d : Nat) : Nat :=
  ((List.range 8).filter fun i => bgLevel i * d ≤ n * 128).length - 1

/-- Position on the grid of a format. -/
def Fmt.pos (f : Fmt) (n d : Nat) : GridPos :=
  match f with
  | .ieee t => t.grid.pos n d
  | .b8 q => q.grid.pos n d
  | .bg4 =>
    let i := bgFloor n d
    ⟨i, n * 128 - bgLevel i * d, (bgLevel (i + 1) - bgLevel i) * d + (if i == 7 then 1 else 0)⟩
  | .int _ _ => ⟨n / d, n % d, d⟩

/-- Largest magnitude code that the format holds with the given sign. -/
def Fmt.maxCode (f : Fmt) (neg : Bool) : Nat :=
  match f with
  | .ieee t => t.infCode - 1
  | .b8 q => q.maxCode
  | .bg4 => 7
  | .int true n => if neg then 2 ^ (n - 1) else 2 ^ (n - 1) - 1
  | .int false n => 2 ^ n - 1

/-- The format holds no negative value. -/
def Fmt.unsigned : Fmt → Bool
  | .b8 q => q.uns
  | .int s _ => !s
  | _ => false

def Fmt.bits : Fmt → Nat
  | .ieee t => t.bits
  | .b8 _ => 8
  | .bg4 => 4
  | .int _ n => n

/-- The bits of a magnitude code with a sign; a format without −0 gives +0. -/
def Fmt.pack (f : Fmt) (neg : Bool) (code : Nat) : Nat :=
  match f with
  | .ieee t => (if neg then 2 ^ (t.bits - 1) else 0) + code
  | .b8 q => if neg && !q.uns && code != 0 then 0x80 + code else code
  | .bg4 => if neg && code != 0 then 8 + code else code
  | .int _ n => if neg then (2 ^ n - code % 2 ^ n) % 2 ^ n else code % 2 ^ n

/-- The NaN of the format; 0 for an integer (Table 9.5). -/
def Fmt.nan : Fmt → Nat
  | .ieee t => t.nanCode
  | .b8 q => q.nanCode
  | .bg4 => 8
  | .int _ _ => 0

/-- The infinity of the format, for the formats that hold one. -/
def Fmt.inf? (f : Fmt) (neg : Bool) : Option Nat :=
  match f with
  | .ieee t => some ((if neg then 2 ^ (t.bits - 1) else 0) + t.infCode)
  | .b8 q =>
    if q.fin || (q.uns && neg) then none
    else some (if q.uns then 0xFE else if neg then 0xFF else 0x7F)
  | _ => none

/-- The value of a code. -/
def Fmt.val (f : Fmt) (x : Nat) : Val :=
  match f with
  | .ieee t =>
    let s := x / 2 ^ (t.bits - 1) % 2 == 1
    let c := x % 2 ^ (t.bits - 1)
    if t.infCode < c then .nan
    else if c == t.infCode then .inf s
    else
      let (k, e) := t.grid.mag c
      .scaled s k e
  | .b8 q =>
    if x % 256 == q.nanCode then .nan
    else if some (x % 256) == (Fmt.b8 q).inf? false then .inf false
    else if some (x % 256) == (Fmt.b8 q).inf? true then .inf true
    else
      let (k, e) := q.grid.mag (if q.uns then x % 256 else x % 128)
      .scaled (!q.uns && decide (128 ≤ x % 256)) k e
  | .bg4 =>
    if x % 16 == 8 then .nan else .num (decide (8 < x % 16)) (bgLevel (x % 8)) 128
  | .int s n =>
    let u := x % 2 ^ n
    if s && decide (2 ^ (n - 1) ≤ u) then .num true (2 ^ n - u) 1 else .num false u 1

/-- The largest finite magnitude M of R191, as a fraction. -/
def Fmt.maxFinite (f : Fmt) : Val := f.val (f.pack false (f.maxCode false))

/-! ### Rounding -/

/-- Rounding code and SAT of a class of `sr.fmode` (R151). -/
structure Ctl where
  rnd : Nat
  sat : Bool
  deriving DecidableEq, Repr

/-- A rounded result: its bits, and whether it went to Overflow or was flushed to zero (R192). -/
structure Rounded where
  bits : Nat
  above : Bool
  flush : Bool
  deriving DecidableEq, Repr

/-- The choice of R182 between the grid neighbours. -/
def roundUp (rnd : Nat) (neg : Bool) (r16 : Nat) (g : GridPos) : Bool :=
  if g.rem == 0 then false
  else match rnd with
    | 0 => decide (g.den < 2 * g.rem) || (2 * g.rem == g.den && g.code % 2 == 1)
    | 1 => false
    | 2 => neg
    | 3 => !neg
    | _ => decide (r16 < g.rem * 65536 / g.den)

/-- The outcome of Overflow in Table 9.5; `code` is the rounded magnitude for integer destinations. -/
def overflow (f : Fmt) (c : Ctl) (neg : Bool) (code : Nat) : Nat :=
  let big := f.pack neg (f.maxCode neg)
  match f with
  | .int s n => if c.sat then (if neg && !s then 0 else big) else (Fmt.int s n).pack neg code
  | _ =>
    if neg && f.unsigned then (if c.sat then 0 else f.nan)
    else if c.sat then big
    else match f.inf? neg with
      | none => f.nan
      | some i =>
        match c.rnd with
        | 1 => big
        | 2 => if neg then i else big
        | 3 => if neg then big else i
        | _ => i

/-- ±∞ as an exact result or an operand converted into the format (Table 9.5). -/
def infinite (f : Fmt) (c : Ctl) (neg : Bool) : Nat :=
  match f with
  | .int s _ => if c.sat then (if neg && !s then 0 else f.pack neg (f.maxCode neg)) else 0
  | _ =>
    match f.inf? neg with
    | some i => i
    | none =>
      if c.sat then (if neg && f.unsigned then 0 else f.pack neg (f.maxCode neg)) else f.nan

/-- `Round(x, F)` of R182 with Table 9.5, with the 16 random bits of R185. -/
def roundTo (f : Fmt) (c : Ctl) (r16 : Nat) : Val → Rounded
  | .nan => ⟨f.nan, false, false⟩
  | .inf s => ⟨infinite f c s, false, false⟩
  | .num s n d =>
    if n == 0 then ⟨f.pack s 0, false, false⟩
    else if f == .bg4 && decide (d < n) then ⟨overflow f c s 0, true, false⟩
    else
      let g := f.pos n d
      let code := if roundUp c.rnd s r16 g then g.code + 1 else g.code
      if (s && f.unsigned) || decide (f.maxCode s < code) then ⟨overflow f c s code, true, false⟩
      else ⟨f.pack s code, false, code == 0⟩

/-- The marks of R192 of an element x: a finite nonzero x that gives zero is flushed, under an invalid scale too. -/
def Rounded.flushFrom (r : Rounded) (x : Val) : Rounded :=
  { r with flush := r.flush || (x.finite && !x.isZero && !r.above && r.bits == 0) }

/-- Rounding to an integer of magnitude code `rnd` without range (R230, R240): 0 nearest even, 1 toward
zero, 2 down, 3 up, 4 stochastic. -/
def roundInt (rnd : Nat) (r16 : Nat) (neg : Bool) (n d : Nat) : Nat :=
  let g : GridPos := ⟨n / d, n % d, d⟩
  if roundUp rnd neg r16 g then g.code + 1 else g.code

/-- Conversion to a 32- or 64-bit integer: rounds under `rm`, saturates, NaN gives 0 (R184). -/
def toWideInt (signed : Bool) (n : Nat) (rm : Nat) : Val → Nat
  | .nan => 0
  | .inf s => (Fmt.int signed n).pack s (if s && !signed then 0 else (Fmt.int signed n).maxCode s)
  | .num s a d =>
    let k := roundInt rm 0 s a d
    if s && !signed then 0 else (Fmt.int signed n).pack s (min k ((Fmt.int signed n).maxCode s))

/-- The scale of R191 for a channel of magnitude `amax`: binary32 bits of amax / M rounded up, or the
power-of-two exponent; 1.0 and 0 for a channel without a finite nonzero element. -/
def scaleOf (f : Fmt) (pow2 : Bool) (amax : Val) : Int :=
  match amax, f.maxFinite with
  | .num _ n d, .num _ m e =>
    if n == 0 then (if pow2 then 0 else 0x3F800000)
    else if pow2 then min 127 (max (-149) (clog2 (n * e) (d * m)))
    else (roundTo (.ieee .f32) ⟨3, false⟩ 0 (.num false (n * e) (d * m))).bits
  | _, _ => if pow2 then 0 else 0x3F800000

/-- A binary32 scale word as a value: zero, negative, subnormal, NaN and infinite scales are invalid and
give NaN (R190). -/
def scaleVal (w : Word) : Val :=
  if w.toNat / 2 ^ 31 == 1 || decide (w.toNat < 0x00800000) || decide (0x7F800000 ≤ w.toNat) then .nan
  else (Fmt.ieee .f32).val w.toNat

/-- 2^x as a value. -/
def pow2Val (x : Int) : Val := Val.scaled false 1 x

/-! ### Position-keyed stochastic rounding -/

/-- `Mix64` of R186. -/
def mix64 (z : BitVec 64) : BitVec 64 :=
  let a := (z ^^^ (z >>> 30)) * 0xBF58476D1CE4E5B9#64
  let b := (a ^^^ (a >>> 27)) * 0x94D049BB133111EB#64
  b ^^^ (b >>> 31)

/-- The hash H of a nonce and the two keys of Table 9.6. -/
def hash186 (nonce k1 k2 : BitVec 64) : BitVec 64 := mix64 (mix64 (nonce ^^^ k1) ^^^ k2)

/-- Rnd16 of element `i` (R185). -/
def rnd16 (h : BitVec 64) (i : Nat) : Nat := h.toNat / 2 ^ (16 * i) % 65536

/-! ### Chunk sums of the matrix engine -/

/-- One truncated term of R195: the multiple of 2^q toward zero, in units of 2^q. -/
def truncTerm (q : Int) : Val → Int
  | .num s n d =>
    let a := if 0 ≤ q then n / (d * 2 ^ q.toNat) else n * 2 ^ (-q).toNat / d
    Val.signed s a
  | _ => 0

/-- The chunk sum S of R195 and R196 over the products, with product width `w`. -/
def chunkSum (w : Nat) (ps : List Val) : Val :=
  if ps.any Val.isNan then .nan
  else if ps.any (· == .inf false) then (if ps.any (· == .inf true) then .nan else .inf false)
  else if ps.any (· == .inf true) then .inf true
  else
    let es := ps.filterMap fun v => match v with
      | .num _ n d => if n == 0 then none else some (ilog2 n d)
      | _ => none
    match es with
    | [] => .num false 0 1
    | e :: rest =>
      let q := rest.foldl max e - (w : Int) + 1 - 48
      let t := ps.foldl (fun acc p => acc + truncTerm q p) 0
      Val.scaled (decide (t < 0)) t.natAbs q

end Machine

end Sys2Proof
end

