-- ==== Sys2Proof/Machine/Flags.lean ====
section
/-! DEFINITION. Residues and their prediction (R20 to R28): the residue function, the rows of Table 2.2, the
packing weights of Table 2.3, and what one lane of an instruction forms together with the check that its
result must pass. -/

namespace Sys2Proof

namespace Machine

/-! ### The residue function -/

/-- Sum of the eight nibbles of a word modulo 15 (Table 0.1). -/
def res (w : Word) : Nat :=
  ((w.extractLsb' 0 4).toNat + (w.extractLsb' 4 4).toNat + (w.extractLsb' 8 4).toNat +
    (w.extractLsb' 12 4).toNat + (w.extractLsb' 16 4).toNat + (w.extractLsb' 20 4).toNat +
    (w.extractLsb' 24 4).toNat + (w.extractLsb' 28 4).toNat) % 15

/-- The code of a word formed from its bits. -/
def codeOf (w : Word) : Code := BitVec.ofNat 4 (res w)

end Machine

/-- The word with the code of its bits. -/
def CWord.of (w : Word) : CWord := ⟨w, Machine.codeOf w⟩

/-- The word marked known bad. -/
def CWord.poisoned (w : Word) : CWord := ⟨w, poisonCode⟩

/-- The code is Poison (R20). -/
def CWord.bad (w : CWord) : Bool := w.code == poisonCode

/-- The code is Poison or agrees with the data: the word passes an operand-read or entry check (R23, R24). -/
def CWord.passes (w : CWord) : Bool := w.bad || w.code == Machine.codeOf w.data

/-- An entry check: a word that fails becomes Poison (R19). -/
def CWord.entered (w : CWord) : CWord := if w.passes then w else .poisoned w.data

namespace Machine

/-- Residue of a number modulo 15; equal to `Res` on words (R20). -/
def rn (x : Nat) : Int := (x % 15 : Nat)

/-- A sum of residues taken modulo 15. -/
def m15 (x : Int) : Nat := (x % 15).toNat

/-- Residue of the value held in some words, R21 for a pair. -/
def resWords (ws : List Word) : Nat := (ws.map res).sum % 15

/-! ### Sub-word stores (R22) -/

/-- Byte `i` of a word. -/
def byteOf (w : Word) (i : Nat) : Byte := w.extractLsb' (8 * i) 8

/-- Replace the bytes of `old` whose mask bit is set by those of `new`; the code by prediction. -/
def mergeWord (old new : CWord) (mask : Nat) : CWord :=
  let bit (i : Nat) : Bool := mask / 2 ^ i % 2 == 1
  let pick (i : Nat) : Byte := if bit i then byteOf new.data i else byteOf old.data i
  let d : Word := pick 3 ++ (pick 2 ++ (pick 1 ++ pick 0))
  if mask % 16 == 15 then new
  else if mask % 16 == 0 then old
  else if old.bad || new.bad then .poisoned d
  else
    let part (w : Word) : Int := ((List.range 4).map fun i => if bit i then rn (byteOf w i).toNat else 0).sum
    let pred := m15 ((old.code.toNat : Int) - part old.data + part new.data)
    if pred == res d then ⟨d, BitVec.ofNat 4 pred⟩ else .poisoned d

/-! ### Predictions of Table 2.2 -/

/-- Sum of `a`, `b` and a carry-in over `n` bits with carry-out. -/
def predAdd (n a b cin : Nat) : Nat := m15 (rn a + rn b + cin - ((a + b + cin) / 2 ^ n : Nat))

/-- `a + ~b + 1` over `n` bits. -/
def predSub (n a b : Nat) : Nat :=
  m15 (rn a - rn b + 1 - ((a + (2 ^ n - 1 - b) + 1) / 2 ^ n : Nat))

/-- Sign bit of an `n`-bit value when it is read as signed. -/
def sgn (signed : Bool) (n x : Nat) : Nat := if signed then x / 2 ^ (n - 1) % 2 else 0

/-- Residue of the signed or unsigned reading of an `n`-bit value, `n` a multiple of 4. -/
def rval (signed : Bool) (n x : Nat) : Int := rn x - sgn signed n x

/-- Low part of a product, given its high part and the sign bit of the whole product. -/
def predMulLo (signed : Bool) (n a b hi : Nat) : Nat :=
  m15 (rval signed n a * rval signed n b + sgn signed n hi - rn hi)

/-- High part of a product, given its low part. -/
def predMulHi (signed : Bool) (n a b hi lo : Nat) : Nat :=
  m15 (rval signed n a * rval signed n b + sgn signed n hi - rn lo)

/-- Left shift by `k` of `n` bits that loses `out`. -/
def predShl (a k out : Nat) : Nat := m15 (rn a * 2 ^ (k % 4) - rn out)

/-- Right shift by `k` that loses `out`. -/
def predShr (a k out : Nat) : Nat := m15 ((rn a - rn out) * 8 ^ (k % 4))

/-- Arithmetic right shift adds the residue of the sign bits shifted in. -/
def predSar (n a k out : Nat) : Nat :=
  m15 ((rn a - rn out) * 8 ^ (k % 4) +
    (if sgn true n a == 1 && k != 0 then rn (2 ^ n - 1 - (2 ^ (n - k) - 1)) else 0))

/-- Rotation by `k`. -/
def predRol (a k : Nat) : Nat := m15 (rn a * 2 ^ (k % 4))

/-- The divide row: quotient, remainder, divisor and dividend with their sign bits. -/
def divCheck (signed : Bool) (n q sq r b a : Nat) : Bool :=
  m15 ((rn q - sq) * rval signed n b + rval signed n r) == m15 (rval signed n a)

/-- Packing weights of Table 2.3 applied to the fields of a result. -/
def predPack (f : Fmt) (x : Nat) : Nat :=
  match f with
  | .ieee t =>
    let m := t.grid.p - 1
    let s := x / 2 ^ (t.bits - 1) % 2
    let e := x % 2 ^ (t.bits - 1) / 2 ^ m
    m15 (8 * s + 2 ^ (m % 4) * e + rn (x % 2 ^ m))
  | .b8 q =>
    let m := q.p.toNat - 1
    let s := if q.uns then 0 else x / 128 % 2
    let e := (if q.uns then x % 256 else x % 128) / 2 ^ m
    m15 (8 * s + 2 ^ (m % 4) * e + rn (x % 2 ^ m))
  | _ => m15 (rn x)

/-! ### One lane of an instruction -/

/-- What one lane forms: its result words, which of them are Poison (R28), and the result check, which
answers the STAGE of Table 2.6 at which a formed result fails; whether it checks each half alone, the stages of Table 2.2 that the
lane passes on the way, and whether it compares the stored codes of words that are passed on. -/
structure LaneRes where
  words : List Word
  bad : List Bool
  check : List Word → Option Nat
  halves : Bool := false
  stages : List Nat := []
  picks : Bool := false

/-- Stages of Table 2.6 that a lane passes whose result is checked at one of them: multiplies add, floating point has every
significand stage, and each class has duplicated logic (Table 2.2). -/
def stagesOf : Nat → List Nat
  | 1 => [0, 1, 11]
  | 9 => [1, 5, 6, 7, 8, 9, 11]
  | st => [st, 11]

/-- Stages of a conversion: shift, rounding, exponent, packing, range decisions. -/
def convStages : List Nat := [6, 7, 8, 9, 11]

/-- A stage that is off by an error fails: a predicted one when the residue changes, a duplicated one always (R26). -/
def stageSees (stage err : Nat) : Bool := if stage == 8 || stage == 11 then err != 0 else err % 15 != 0

/-- Predicted stage: the residue of the formed value agrees with the prediction, half by half when a
prediction is given for each. -/
def predicted (stage : Nat) (preds : List Nat) (formed : List Word) : Option Nat :=
  if preds.length == formed.length then
    (if preds == formed.map res then none else some stage)
  else if preds.sum % 15 == resWords formed then none else some stage

/-- Duplicated stage: two copies compared bit for bit. -/
def duplicated (good formed : List Word) : Option Nat := if good == formed then none else some 11

/-- The words of a value: one, or low and high. -/
def wordsOf (n v : Nat) : List Word :=
  if n == 64 then [BitVec.ofNat 32 v, BitVec.ofNat 32 (v / 2 ^ 32)] else [BitVec.ofNat 32 v]

/-- A lane with a predicted result of `n` bits (32 or 64). -/
def LaneRes.pred (n v stage p : Nat) (poison : Bool) : LaneRes :=
  { words := wordsOf n v, bad := (wordsOf n v).map fun _ => poison, check := predicted stage [p], stages := stagesOf stage }

/-- A lane whose unit is duplicated. -/
def LaneRes.dup (n v : Nat) (poison : Bool) : LaneRes :=
  { words := wordsOf n v, bad := (wordsOf n v).map fun _ => poison, check := duplicated (wordsOf n v), stages := [11] }

/-- A lane that forms nothing but guards, by duplicated logic. -/
def LaneRes.guards : LaneRes := { words := [], bad := [], check := fun _ => none, stages := [11] }

/-- A lane that passes chosen words on with their codes (select class): a word not chosen has no effect (R28, R220). Table 2.6 names
no STAGE for the select class; the model reports 11 (log 80). -/
def LaneRes.chosen (ws : List CWord) : LaneRes :=
  { words := ws.map (·.data), bad := ws.map (·.bad), check := predicted 11 (ws.map fun w => w.code.toNat)
    halves := true, stages := [11], picks := true }

/-- The words written back by a lane: Poison, or the code of their bits (R26). -/
def LaneRes.out (l : LaneRes) : List CWord :=
  (l.words.zip l.bad).map fun wb => if wb.2 then .poisoned wb.1 else .of wb.1

/-- The value of some operand words, lowest first. -/
def valOf : List CWord → Nat
  | [] => 0
  | w :: ws => w.data.toNat + 2 ^ 32 * valOf ws

/-- Some word is Poison. -/
def anyBad (ws : List CWord) : Bool := ws.any CWord.bad

end Machine

end Sys2Proof
end

