-- ==== Sys2Proof/Machine/AluInt.lean ====
section
/-! DEFINITION. One lane of every instruction of groups 0x1 to 0x3 but the compares on guards: value, Poison
and residue prediction (R197 to R221). Operand values are unsigned numbers of the operand's width. -/

namespace Sys2Proof.Machine

/-! ### Types and elements -/

/-- Width of an element in bits. -/
def ibits (t : IntTy) : Nat :=
  match t with
  | .s32 | .n32 => 32
  | .s64 | .n64 => 64
  | .s16 | .n16 => 16
  | .s8 | .n8 => 8

/-- Width of an operand in bits: 64, or a 32-bit lane. -/
def obits (t : IntTy) : Nat := if t.is64 then 64 else 32

/-- The number read as signed or unsigned of `n` bits. -/
def ival (signed : Bool) (n x : Nat) : Int :=
  if signed && decide (2 ^ (n - 1) ≤ x) then (x : Int) - 2 ^ n else x

/-- The integer modulo 2^n. -/
def wrapInt (n : Nat) (r : Int) : Nat := (r % (2 ^ n : Nat)).toNat

/-- Least value of a type of `n` bits. -/
def iminOf (signed : Bool) (n : Nat) : Int := if signed then -(2 ^ (n - 1) : Nat) else 0

/-- Greatest value of a type of `n` bits. -/
def imaxOf (signed : Bool) (n : Nat) : Int := if signed then (2 ^ (n - 1) : Nat) - 1 else (2 ^ n : Nat) - 1

/-- `Fit(r)` of R200, with `clamp` the conjunction of `.sat` and SAT of the INT class. -/
def fitInt (clamp signed : Bool) (n : Nat) (r : Int) : Nat :=
  if clamp then wrapInt n (max (iminOf signed n) (min (imaxOf signed n) r)) else wrapInt n r

/-- The fit changed the value to a limit. -/
def clamped (clamp signed : Bool) (n : Nat) (r : Int) : Bool :=
  clamp && (decide (r < iminOf signed n) || decide (imaxOf signed n < r))

/-- Element `i` of width `n`. -/
def elem (n x i : Nat) : Nat := x / 2 ^ (n * i) % 2 ^ n

/-- Elements packed from the lowest. -/
def packEls (n : Nat) : List Nat → Nat
  | [] => 0
  | x :: xs => x + 2 ^ n * packEls n xs

/-- An elementwise lane: `f` gives each element's value and predicted residue. -/
def laneEls (t : IntTy) (stage : Nat) (poison : Bool) (f : Nat → Nat × Nat) : LaneRes :=
  let n := ibits t
  let es := (List.range (obits t / n)).map f
  LaneRes.pred (obits t) (packEls n (es.map (·.1))) stage ((es.map (·.2)).sum % 15) poison

/-! ### Group 0x1 -/

def laneIadd (t : IntTy) (clamp : Bool) (a b : Nat) (poison : Bool) : LaneRes :=
  let n := ibits t
  laneEls t 0 poison fun i =>
    let x := elem n a i
    let y := elem n b i
    let r := ival t.signed n x + ival t.signed n y
    let v := fitInt clamp t.signed n r
    (v, if clamped clamp t.signed n r then m15 (rn v) else predAdd n x y 0)

def laneIsub (t : IntTy) (clamp : Bool) (a b : Nat) (poison : Bool) : LaneRes :=
  let n := ibits t
  laneEls t 0 poison fun i =>
    let x := elem n a i
    let y := elem n b i
    let r := ival t.signed n x - ival t.signed n y
    let v := fitInt clamp t.signed n r
    (v, if clamped clamp t.signed n r then m15 (rn v) else predSub n x y)

def laneIneg (t : IntTy) (clamp : Bool) (b : Nat) (poison : Bool) : LaneRes := laneIsub t clamp 0 b poison

def laneIabs (t : IntTy) (clamp : Bool) (b : Nat) (poison : Bool) : LaneRes :=
  let n := ibits t
  laneEls t 0 poison fun i =>
    let y := elem n b i
    let r := (ival t.signed n y).natAbs
    let v := fitInt clamp t.signed n r
    (v, if clamped clamp t.signed n r then m15 (rn v)
        else if ival t.signed n y < 0 then predSub n 0 y else m15 (rn y))

/-- Words that an elementwise choice returns: `pick i` is true for the element of `a`. A word is Poison when
an element it receives comes from a Poison word (R203). The compare stage is a subtraction of its own (Table 2.2); the choice reports
STAGE 11 (log 80). -/
def laneChoose (t : IntTy) (a b : List CWord) (pick : Nat → Bool) : LaneRes :=
  if t.is64 then { LaneRes.chosen (if pick 0 then a else b) with stages := [0, 11], picks := false }
  else
    let n := ibits t
    let k := 32 / n
    let v := packEls n ((List.range k).map fun i => if pick i then elem n (valOf a) i else elem n (valOf b) i)
    let bad := (List.range k).any fun i => if pick i then anyBad a else anyBad b
    { LaneRes.pred 32 v 11
        (((List.range k).map fun i => m15 (rn (if pick i then elem n (valOf a) i else elem n (valOf b) i))).sum % 15)
        bad with stages := [0, 11] }

def laneImin (t : IntTy) (a b : List CWord) : LaneRes :=
  let n := ibits t
  laneChoose t a b fun i => ival t.signed n (elem n (valOf a) i) ≤ ival t.signed n (elem n (valOf b) i)

def laneImax (t : IntTy) (a b : List CWord) : LaneRes :=
  let n := ibits t
  laneChoose t a b fun i => ival t.signed n (elem n (valOf b) i) ≤ ival t.signed n (elem n (valOf a) i)

/-- Which operand `Min(Max(x, y), z)` takes: 0 x, 1 y, 2 z. -/
def clampPick (x y z : Int) : Nat :=
  if max x y ≤ z then (if y ≤ x then 0 else 1) else 2

def laneIclamp (t : IntTy) (a b c : List CWord) : LaneRes :=
  let n := ibits t
  let p (i : Nat) : Nat := clampPick (ival t.signed n (elem n (valOf a) i))
    (ival t.signed n (elem n (valOf b) i)) (ival t.signed n (elem n (valOf c) i))
  let src (i : Nat) : List CWord := match p i with | 0 => a | 1 => b | _ => c
  if t.is64 then { LaneRes.chosen (src 0) with stages := [0, 11], picks := false }
  else
    let k := 32 / n
    let es := (List.range k).map fun i => elem n (valOf (src i)) i
    { LaneRes.pred 32 (packEls n es) 11 ((es.map fun e => m15 (rn e)).sum % 15)
        ((List.range k).any fun i => anyBad (src i)) with stages := [0, 11] }

def laneImul (t : IntTy) (clamp : Bool) (a b : Nat) (poison : Bool) : LaneRes :=
  let n := ibits t
  laneEls t 1 poison fun i =>
    let x := elem n a i
    let y := elem n b i
    let r := ival t.signed n x * ival t.signed n y
    let v := fitInt clamp t.signed n r
    (v, if clamped clamp t.signed n r then m15 (rn v)
        else predMulLo t.signed n x y (wrapInt (2 * n) r / 2 ^ n))

def laneImulh (t : IntTy) (a b : Nat) (poison : Bool) : LaneRes :=
  let n := ibits t
  let r := wrapInt (2 * n) (ival t.signed n a * ival t.signed n b)
  LaneRes.pred n (r / 2 ^ n) 1 (predMulHi t.signed n a b (r / 2 ^ n) (r % 2 ^ n)) poison

def laneImad (t : IntTy) (a b c : Nat) (poison : Bool) : LaneRes :=
  let n := ibits t
  laneEls t 1 poison fun i =>
    let x := elem n a i
    let y := elem n b i
    let z := elem n c i
    let r := ival t.signed n x * ival t.signed n y
    let lo := wrapInt n r
    (wrapInt n (r + ival t.signed n z),
      m15 ((predMulLo t.signed n x y (wrapInt (2 * n) r / 2 ^ n) : Int) + rn z - ((lo + z) / 2 ^ n : Nat)))

def laneImadw (t : IntTy) (a b c : Nat) (poison : Bool) : LaneRes :=
  let r := wrapInt 64 (ival t.signed 32 a * ival t.signed 32 b)
  LaneRes.pred 64 ((r + c) % 2 ^ 64) 1
    (m15 (rval t.signed 32 a * rval t.signed 32 b + sgn t.signed 64 r + rn c - ((r + c) / 2 ^ 64 : Nat)))
    poison

/-- Quotient and remainder of R206, as numbers of `n` bits, with the sign bit the check takes for q. -/
def divide (signed : Bool) (n a b : Nat) : Nat × Nat × Nat :=
  let x := ival signed n a
  let y := ival signed n b
  if b == 0 then (2 ^ n - 1, a, sgn signed n (2 ^ n - 1))
  else if signed && x == iminOf true n && y == -1 then (a, 0, 0)
  else
    let q := wrapInt n (Int.tdiv x y)
    (q, wrapInt n (Int.tmod x y), sgn signed n q)

/-- Both forms are checked by the divide row of Table 2.2 (STAGE 2). -/
def laneDiv (t : IntTy) (rem : Bool) (a b : Nat) (poison : Bool) : LaneRes :=
  let n := ibits t
  let (q, m, sq) := divide t.signed n a b
  let good := wordsOf n (if rem then m else q)
  { words := good
    bad := good.map fun _ => poison
    stages := [2, 11]
    check := fun ws =>
      let v := (ws.foldr (fun w acc => w.toNat + 2 ^ 32 * acc) 0)
      if divCheck t.signed n (if rem then q else v) sq (if rem then v else m) b a then none else some 2 }

/-- Byte products of `IDOT4`: `sa` and `sb` say which operand is signed. -/
def laneIdot4 (sa sb : Bool) (c a b : Nat) (poison : Bool) : LaneRes :=
  let ps := (List.range 4).map fun i => ival sa 8 (elem 8 a i) * ival sb 8 (elem 8 b i)
  let s := c + wrapInt 32 (ps.sum)
  LaneRes.pred 32 (s % 2 ^ 32) 1
    (m15 (rn c + ((List.range 4).map fun i => rval sa 8 (elem 8 a i) * rval sb 8 (elem 8 b i)).sum
      + (if ps.sum < 0 then 1 else 0) - (s / 2 ^ 32 : Nat)))
    poison

def laneIsad (t : IntTy) (c a b : Nat) (poison : Bool) : LaneRes :=
  let n := ibits t
  let ds := (List.range (32 / n)).map fun i =>
    (ival t.signed n (elem n a i) - ival t.signed n (elem n b i)).natAbs
  let s := c + ds.sum
  LaneRes.pred 32 (s % 2 ^ 32) 1 (m15 (rn c + (ds.map rn).sum - (s / 2 ^ 32 : Nat))) poison

/-- `LEA`: the extended index shifted by `k`, plus b (R208). -/
def laneLea (t : IntTy) (k a b : Nat) (poison : Bool) : LaneRes :=
  let n := obits t
  let x := wrapInt n (ival t.signed 32 a)
  let sh := x * 2 ^ k % 2 ^ n
  LaneRes.pred n ((sh + b) % 2 ^ n) 0
    (m15 ((predShl x k (x * 2 ^ k / 2 ^ n) : Int) + rn b - ((sh + b) / 2 ^ n : Nat))) poison

/-! ### Group 0x2; widths are 32 and 64 -/

/-- The five operations of R210, formed from the AND and OR of `a` and b′. -/
inductive Logic where
  | and | or | xor | andn | orn
  deriving DecidableEq, Repr

/-- Each half is checked alone in a 64-bit form (R210). -/
def logicHalf (op : Logic) (a b : Nat) : Nat × Nat :=
  let b' := match op with
    | .andn | .orn => 2 ^ 32 - 1 - b
    | _ => b
  let n := Nat.land a b'
  let o := Nat.lor a b'
  match op with
  | .and | .andn => (n, m15 (rn a + rn b' - rn o))
  | .or | .orn => (o, m15 (rn a + rn b' - rn n))
  | .xor => (Nat.xor a b', m15 (rn o - rn n))

def laneLogic (op : Logic) (w : Bool) (a b : Nat) (poison : Bool) : LaneRes :=
  let hs := (List.range (if w then 2 else 1)).map fun i => logicHalf op (elem 32 a i) (elem 32 b i)
  let ws := hs.map fun h => BitVec.ofNat 32 h.1
  { words := ws, bad := ws.map fun _ => poison, check := predicted 3 (hs.map (·.2)), halves := true, stages := [3] }

def width (w : Bool) : Nat := if w then 64 else 32

/-- `LOP3`: per bit, c chooses between two functions of a and b (R211). -/
def lop3 (n : Nat) (f0 f1 : BitVec 4) (a b c : Nat) : Nat :=
  packEls 1 ((List.range n).map fun j =>
    let f := if c.testBit j then f1 else f0
    (f.getLsbD (2 * (a.testBit j).toNat + (b.testBit j).toNat)).toNat)

def laneLop3 (w : Bool) (f0 f1 : BitVec 4) (a b c : Nat) (poison : Bool) : LaneRes :=
  LaneRes.dup (width w) (lop3 (width w) f0 f1 a b c) poison

/-- The count after `.wrap` (R212). -/
def shiftCount (wrap : Bool) (n k : Nat) : Nat := if wrap then k % n else k

def laneShl (w wrap : Bool) (a b : Nat) (poison : Bool) : LaneRes :=
  let n := width w
  let k := shiftCount wrap n b
  if k < n then LaneRes.pred n (a * 2 ^ k % 2 ^ n) 4 (predShl a k (a / 2 ^ (n - k))) poison
  else LaneRes.pred n 0 4 0 poison

def laneShr (w wrap : Bool) (a b : Nat) (poison : Bool) : LaneRes :=
  let n := width w
  let k := shiftCount wrap n b
  if k < n then LaneRes.pred n (a / 2 ^ k) 4 (predShr a k (a % 2 ^ k)) poison
  else LaneRes.pred n 0 4 0 poison

def laneSar (w wrap : Bool) (a b : Nat) (poison : Bool) : LaneRes :=
  let n := width w
  let k := shiftCount wrap n b
  if k < n then LaneRes.pred n (wrapInt n (ival true n a / (2 ^ k : Nat))) 4 (predSar n a k (a % 2 ^ k)) poison
  else LaneRes.pred n (if ival true n a < 0 then 2 ^ n - 1 else 0) 4 0 poison

def laneRol (w : Bool) (a b : Nat) (poison : Bool) : LaneRes :=
  let n := width w
  let k := b % n
  LaneRes.pred n (a * 2 ^ k % 2 ^ n + a / 2 ^ (n - k)) 4 (predRol a k) poison

/-- `FSH` of the pair v = b:a by c mod 32 (R213). -/
def laneFsh (left : Bool) (a b c : Nat) (poison : Bool) : LaneRes :=
  let v := a + 2 ^ 32 * b
  let k := c % 32
  let out := if left then v / 2 ^ (32 - k) % 2 ^ 32 else v / 2 ^ k % 2 ^ 32
  let p := if left then
      m15 ((rn v * 2 ^ (k % 4) - rn (v / 2 ^ (64 - k))) - rn (v * 2 ^ k % 2 ^ 32))
    else m15 ((predShr v k (v % 2 ^ k) : Int) - rn (v / 2 ^ k / 2 ^ 32))
  LaneRes.pred 32 out 4 p poison

/-- Number of 1 bits among the low `n`. -/
def popcount (n x : Nat) : Nat := ((List.range n).filter fun i => x.testBit i).length

def lanePopc (w : Bool) (b : Nat) (poison : Bool) : LaneRes := LaneRes.dup 32 (popcount (width w) b) poison

def laneClz (w : Bool) (b : Nat) (poison : Bool) : LaneRes :=
  LaneRes.dup 32 (if b == 0 then width w else width w - 1 - b.log2) poison

def laneCtz (w : Bool) (b : Nat) (poison : Bool) : LaneRes :=
  LaneRes.dup 32 (((List.range (width w)).takeWhile fun i => !b.testBit i).length) poison

def laneBrev (w : Bool) (b : Nat) (poison : Bool) : LaneRes :=
  let n := width w
  LaneRes.dup n (packEls 1 ((List.range n).map fun j => (b.testBit (n - 1 - j)).toNat)) poison

/-- A lane of `BFX` or `BFI`: shifts, then the logic rule (Table 2.2). -/
def LaneRes.field (n v stage p : Nat) (poison : Bool) : LaneRes := { LaneRes.pred n v stage p poison with stages := [3, 4, 11] }

/-- Field position and usable length of a control word (R215). -/
def bfField (n b : Nat) : Nat × Nat := (b % 256, min (b / 256 % 256) (n - b % 256))

/-- The shifts and the logic rule of R215 are checked together here; the model reports STAGE 4 (log 80). -/
def laneBfx (t : IntTy) (a b : Nat) (poison : Bool) : LaneRes :=
  let n := obits t
  let (p, l) := bfField n b
  if n ≤ p || b / 256 % 256 == 0 then LaneRes.field n 0 4 0 poison
  else
    let f := a / 2 ^ p % 2 ^ l
    let v := wrapInt n (ival t.signed l f)
    LaneRes.field n v 4
      (m15 ((predShr a p (a % 2 ^ p) : Int) - rn (a / 2 ^ p / 2 ^ l * 2 ^ l)
        + (if sgn t.signed l f == 1 then rn (2 ^ n - 2 ^ l) else 0))) poison

/-- The shifts and the logic rule of R215 are checked together here; the model reports STAGE 3 (log 80). -/
def laneBfi (w : Bool) (a b c : Nat) (poison : Bool) : LaneRes :=
  let n := width w
  let (p, l) := bfField n b
  if n ≤ p || b / 256 % 256 == 0 then LaneRes.field n c 3 (m15 (rn c)) poison
  else
    let old := c / 2 ^ p % 2 ^ l
    let v := c - old * 2 ^ p + a % 2 ^ l * 2 ^ p
    LaneRes.field n v 3 (m15 (rn c - rn old * 2 ^ (p % 4) + rn (a % 2 ^ l) * 2 ^ (p % 4))) poison

/-- `PERMB`: nibble i of c selects byte i of the result (R216). -/
def permByte (a b c i : Nat) : Nat × Bool :=
  let nib := elem 4 c i
  let e := elem 8 (a + 2 ^ 32 * b) (nib % 8)
  if 8 ≤ nib then (if 128 ≤ e then 255 else 0, true) else (e, false)

def lanePermb (a b c : Nat) (poison : Bool) : LaneRes :=
  let es := (List.range 4).map (permByte a b c)
  LaneRes.pred 32 (packEls 8 (es.map (·.1))) 12
    (((es.map fun e => if e.2 then 0 else m15 (rn e.1)).sum) % 15) poison

/-! ### Group 0x3 -/

/-- Truth of a compare (R218). -/
def icond (c : ICond) (x y : Int) : Bool :=
  match c with
  | .eq => x == y
  | .ne => x != y
  | .lt => decide (x < y)
  | .le => decide (x ≤ y)
  | .gt => decide (y < x)
  | .ge => decide (y ≤ x)

/-- COMB of ICMP and FCMP (R218). -/
def combine (k : Comb) (old t : Bool) : Bool :=
  match k with
  | .set => t
  | .conj => old && t
  | .disj => old || t

end Sys2Proof.Machine
end

