-- ==== Sys2Proof/Config.lean ====
section
/-! DEFINITION. The free values: what the manual leaves open, or an implementation fixes, and nothing in the model
may know. The machine's free values are drawn with the counter
`tick` of its state. -/

namespace Sys2Proof.Config

/-! ### Free values

None has a body, so no proof can know one. -/

/-- A bit that the device or its surroundings choose: the choice of an early read between old and new value
(R161), a lost race, a victim. Drawn with `tick` and an index within the step. -/
opaque freeBit : Nat → Nat → Bool

/-- An unpredictable word (R2), drawn with `tick` and an index within the step. -/
opaque freeWord : Nat → Nat → Word

/-- An unpredictable byte (R2), drawn with `tick` and an index within the step. -/
opaque freeByte : Nat → Nat → Byte

/-- A number that the device chooses among the outcomes a rule lists, drawn with `tick`. -/
opaque freeNat : Nat → Nat → Nat

/-- INFO of an event whose layout the manual does not give, from its kind and what it names (R469). -/
opaque eventInfo : Nat → Nat → Nat → Nat

/-- The device serial number (R462). -/
opaque serial : BitVec 64

/-- The bytes of an attestation report over a nonce and a state of boot, whose length and layout the manual does not
give (R472). -/
opaque attestReport : BitVec 256 → BitVec 64 → List Byte

/-- The expected signature of a unit's structural test (R450). -/
opaque dailyExpected : TestUnit → BitVec 64

end Sys2Proof.Config
end

