-- ==== Sys2Proof/Machine/Special.lean ====
section
/-! DEFINITION. The special functions of Table 11.4 (R238): the exact value of each, correctly placed for one
rounding. A value that no fraction equals is given by a fraction strictly between the same two multiples of a
fine power of two, so that every comparison the rounding makes has the same answer. -/

namespace Sys2Proof.Machine

/-- Bits of the fixed-point working scale. -/
def wp : Nat := 760

/-- Bits of the scale to which a square root is placed. -/
def rp : Nat := 700

/-- Bits of the scale to which a value of a series is placed: its formats, of 32 bits and fewer, round at multiples of 2^−165 and
coarser (the least value of binary32, and 16 bits of stochastic rounding). -/
def sp : Nat := 200

/-! ### Square roots -/

/-- The square root of `n / d`, exact when it is a multiple of 2^−k, else placed between two of them. -/
def sqrtVal (n d : Nat) : Val :=
  let k := rp
  let t := n * 2 ^ (2 * k) / d
  let r := t.sqrt
  if r * r * d == n * 2 ^ (2 * k) then .num false r (2 ^ k) else .num false (2 * r + 1) (2 ^ (k + 1))

/-! ### Series in fixed point

Each function takes fuel, the number of terms. -/

/-- Sum of `±z^(2k+1)/(2k+1)`: arctangent (alternating) or inverse hyperbolic tangent of `1 / m`. -/
def atanInv (alt : Bool) (m : Nat) (scale : Nat) : Nat → Nat → Nat → Int
  | 0, _, _ => 0
  | fuel + 1, pw, k =>
    let t : Int := (pw / (2 * k + 1) : Nat)
    (if alt && k % 2 == 1 then -t else t) + atanInv alt m scale fuel (pw / (m * m)) (k + 1)

/-- `1/m` power series at scale 2^s. -/
def atanOf (alt : Bool) (m s fuel : Nat) : Int := atanInv alt m s fuel (2 ^ s / m) 0

/-- π at scale 2^s (Machin). -/
def piFix (s : Nat) : Int := 16 * atanOf true 5 s (s / 4 + 2) - 4 * atanOf true 239 s (s / 15 + 2)

/-- ln 2 at scale 2^s: 2·artanh(1/3). -/
def ln2Fix (s : Nat) : Int := 2 * atanOf false 3 s (s / 3 + 2)

/-- Sum of `y^k / k!` for fixed-point `y ≥ 0` at scale 2^s. -/
def expSeries (y s : Nat) : Nat → Nat → Nat → Nat
  | 0, _, _ => 0
  | fuel + 1, t, k => t + expSeries y s fuel (t * y / 2 ^ s / (k + 1)) (k + 1)

/-- Sum of `(−1)^k y^(2k) / (2k)!` or of the odd terms, from the current term. -/
def trigSeries (y2 s : Nat) : Nat → Nat → Nat → Bool → Int
  | 0, _, _, _ => 0
  | fuel + 1, t, k, neg =>
    (if neg then -(t : Int) else t) + trigSeries y2 s fuel (t * y2 / 2 ^ s / ((k + 1) * (k + 2))) (k + 2) (!neg)

/-- Sum of `z^(2k+1)/(2k+1)` for fixed-point `z`. -/
def artanhSeries (z2 s : Nat) : Nat → Nat → Nat → Nat
  | 0, _, _ => 0
  | fuel + 1, pw, k => pw / (2 * k + 1) + artanhSeries z2 s fuel (pw * z2 / 2 ^ s) (k + 1)

/-! ### Placing an enclosed value -/

/-- The value of a function whose approximation at scale 2^wp is `x`, placed between the two multiples of 2^−sp about it. The series are
good to 2^−720, and no argument of these formats has a value so near to such a multiple but not on it (log 16). -/
def place (x : Int) : Val :=
  let t := 2 * (x / 2 ^ (wp - sp)) + 1
  .num (decide (t < 0)) t.natAbs (2 ^ (sp + 1))

/-- The rational `n / d` at scale 2^s, rounded down. -/
def fixOf (n d s : Nat) : Nat := n * 2 ^ s / d

/-- e^y at scale 2^s for fixed-point `0 ≤ y < 1`. -/
def expFix (y s : Nat) : Nat := expSeries y s 180 (2 ^ s) 0

/-- 2^x for a finite x. -/
def exp2Val (neg : Bool) (n d : Nat) : Val :=
  if n == 0 then .num false 1 1
  else if n % d == 0 then
    (let k := min (n / d) 6000
     if neg then .num false 1 (2 ^ k) else .num false (2 ^ k) 1)
  else if 2000 * d < n then (if neg then .num false 1 (2 ^ 2000) else .num false (2 ^ 2000) 1)
  else
    -- x = i + f with 0 < f < 1
    let i : Int := if neg then -((n / d : Nat) : Int) - 1 else (n / d : Nat)
    let f := if neg then d - n % d else n % d
    let y := (fixOf f d wp * (ln2Fix wp).toNat) / 2 ^ wp
    match place (expFix y wp) with
    | .num _ a b => if 0 ≤ i then .num false (a * 2 ^ i.toNat) b else .num false a (b * 2 ^ (-i).toNat)
    | v => v

/-- log₂ x for a positive finite x. -/
def log2Val (n d : Nat) : Val :=
  let e := ilog2 n d
  -- m = x / 2^e in [1, 2)
  let a := if 0 ≤ e then n else n * 2 ^ (-e).toNat
  let b := if 0 ≤ e then d * 2 ^ e.toNat else d
  if a == b then Val.ofInt e
  else
    let z := fixOf (a - b) (a + b) wp
    let ln := 2 * artanhSeries (z * z / 2 ^ wp) wp 260 z 0
    place (e * 2 ^ wp + (ln * 2 ^ wp : Nat) / ln2Fix wp)

/-- sin x or cos x of a finite x. -/
def trigVal (cosine : Bool) (neg : Bool) (n d : Nat) : Val :=
  if n == 0 then (if cosine then .num false 1 1 else .num neg 0 1)
  else
    let big := wp + 160
    let half := (piFix big).toNat
    -- quotient by π/2 and remainder at scale 2^big
    let x := fixOf n d big
    let q := 2 * x / half
    let r := (2 * x - q * half) / 2 / 2 ^ 160
    let y2 := r * r / 2 ^ wp
    let s := trigSeries y2 wp 120 r 1 false
    let c := trigSeries y2 wp 120 (2 ^ wp) 0 false
    let v := match cosine, q % 4 with
      | false, 0 => s
      | false, 1 => c
      | false, 2 => -s
      | false, _ => -c
      | true, 0 => c
      | true, 1 => -s
      | true, 2 => -c
      | true, _ => s
    place (if neg && !cosine then -v else v)

/-- tanh x of a finite x. -/
def tanhVal (neg : Bool) (n d : Nat) : Val :=
  if n == 0 then .num neg 0 1
  else
    -- e^(−2x) through 2^(−2x/ln 2); x above 200 is 1 less an amount below every grid step
    let y := if 200 * d < n then 400 * 2 ^ wp else fixOf (2 * n) d wp
    let l := (ln2Fix wp).toNat
    let k := y / l
    let t := expFix (l - (y - k * l)) wp / 2 ^ (k + 1)
    let v : Int := ((2 ^ wp - t) * 2 ^ wp / (2 ^ wp + t) : Nat)
    place (if neg then -v else v)

/-! ### The functions of Table 11.4 -/

def rcpVal (v : Val) : Val := Val.div (.num false 1 1) v

def sqrtFn : Val → Val
  | .nan => .nan
  | .inf s => if s then .nan else .inf false
  | .num s n d => if n == 0 then .num s 0 1 else if s then .nan else sqrtVal n d

def rsqFn : Val → Val
  | .nan => .nan
  | .inf s => if s then .nan else .num false 0 1
  | .num s n d => if n == 0 then .inf s else if s then .nan else sqrtVal d n

def exp2Fn : Val → Val
  | .nan => .nan
  | .inf s => if s then .num false 0 1 else .inf false
  | .num s n d => exp2Val s n d

def log2Fn : Val → Val
  | .nan => .nan
  | .inf s => if s then .nan else .inf false
  | .num s n d => if n == 0 then .inf true else if s then .nan else log2Val n d

def sinFn : Val → Val
  | .num s n d => trigVal false s n d
  | _ => .nan

def cosFn : Val → Val
  | .num s n d => trigVal true s n d
  | _ => .nan

def tanhFn : Val → Val
  | .nan => .nan
  | .inf s => .num s 1 1
  | .num s n d => tanhVal s n d

end Sys2Proof.Machine
end

