-- ==== Sys2Proof/Machine/AluFloat.lean ====
section
/-! DEFINITION. One lane of the floating-point, packed and conversion instructions (R222 to R247): exact
result, one rounding under the class of the destination, packing residue (R27). -/

namespace Sys2Proof.Machine

/-! ### Rounding environment of a lane -/

/-- The class fields of `sr.fmode` (Table 8.3) and the hash of R186 for the lane. -/
structure FEnv where
  fmode : Nat
  hash : BitVec 64
  deriving DecidableEq, Repr

/-- Number of a class field of Table 8.3: its nibble. -/
def Fmt.cls : Fmt → Nat
  | .ieee .f64 => 0
  | .ieee .f32 => 1
  | .ieee .f16 => 2
  | .ieee .bf16 => 3
  | .b8 _ => 4
  | .bg4 => 5
  | .int _ _ => 6

/-- RND and SAT of a class. -/
def ctlOf (fmode cls : Nat) : Ctl := ⟨fmode / 2 ^ (4 * cls) % 8, fmode / 2 ^ (4 * cls + 3) % 2 == 1⟩

def FEnv.ctl (e : FEnv) (f : Fmt) : Ctl := ctlOf e.fmode f.cls

/-- Round a result of element `i` (R224). -/
def FEnv.round (e : FEnv) (f : Fmt) (i : Nat) (v : Val) : Rounded := roundTo f (e.ctl f) (rnd16 e.hash i) v

/-- A packed floating result of `n` bits in its register, with the residue of Table 2.3 (STAGE 9). -/
def laneFloat (f : Fmt) (x : Nat) (poison : Bool) : LaneRes :=
  LaneRes.pred (if f.bits == 64 then 64 else 32) x 9 (predPack f x) poison

/-- Elements of one format packed into a word. -/
def laneElems (f : Fmt) (xs : List Nat) (poison : Bool) : LaneRes :=
  LaneRes.pred 32 (packEls f.bits xs) 9 ((xs.map (predPack f)).sum % 15) poison

/-! ### Operand modifiers (R223) -/

/-- Absolute value, then negation, on the bit pattern of `n` bits. -/
def applyMod (m : NegAbs) (n x : Nat) : Nat :=
  let a := if m.abs then x % 2 ^ (n - 1) else x % 2 ^ n
  if m.neg then (if a < 2 ^ (n - 1) then a + 2 ^ (n - 1) else a - 2 ^ (n - 1)) else a

/-- The modified operand as a value. -/
def fval (t : FloatTy) (m : NegAbs) (x : Nat) : Val := (Fmt.ieee t).val (applyMod m t.bits x)

def noMod : NegAbs := ⟨false, false⟩

/-! ### Group 0x4 -/

/-- The two-operand operations of R228. -/
inductive FOp where
  | add | sub | mul
  deriving DecidableEq, Repr

def fopVal (o : FOp) (rnd : Nat) (x y : Val) : Val :=
  match o with
  | .add => Val.add rnd x y
  | .sub => Val.add rnd x y.neg
  | .mul => Val.mul x y

def laneF2 (o : FOp) (t : FloatTy) (ma mb : NegAbs) (e : FEnv) (a b : Nat) (poison : Bool) : LaneRes :=
  let f := Fmt.ieee t
  laneFloat f (e.round f 0 (fopVal o (e.ctl f).rnd (fval t ma a) (fval t mb b))).bits poison

def laneFfma (t : FloatTy) (ma mb mc : NegAbs) (e : FEnv) (a b c : Nat) (poison : Bool) : LaneRes :=
  let f := Fmt.ieee t
  laneFloat f (e.round f 0 (Val.add (e.ctl f).rnd (Val.mul (fval t ma a) (fval t mb b)) (fval t mc c))).bits poison

/-- Choice of R229 between two patterns: −0 is less than +0, a number before NaN. -/
def fchoose (max : Bool) (f : Fmt) (x y : Nat) : Nat :=
  let vx := f.val x
  let vy := f.val y
  match vx, vy with
  | .nan, .nan => f.nan
  | .nan, _ => y
  | _, .nan => x
  | _, _ =>
    match Val.cmp vx vy with
    | .lt => if max then y else x
    | .gt => if max then x else y
    | .eq =>
      -- equal values: equal patterns, or zeros of two signs
      if x == y then x
      else if (x < y) == max then x else y

def laneFminmax (max : Bool) (t : FloatTy) (ma mb : NegAbs) (a b : Nat) (poison : Bool) : LaneRes :=
  laneFloat (.ieee t) (fchoose max (.ieee t) (applyMod ma t.bits a) (applyMod mb t.bits b)) poison

/-- Round to an integral value of the format (R230). -/
def frndBits (t : FloatTy) (rm : RMode) (e : FEnv) (x : Nat) : Nat :=
  let f := Fmt.ieee t
  match f.val x with
  | .nan => f.nan
  | .inf _ => x
  | .num s n d =>
    let rnd := match rm with
      | .rn => 0
      | .rz => 1
      | .rd => 2
      | .ru => 3
      | .rf => (e.ctl f).rnd
    (roundTo f ⟨0, false⟩ 0 (.num s (roundInt rnd (rnd16 e.hash 0) s n d) 1)).bits

def laneFrnd (t : FloatTy) (rm : RMode) (mb : NegAbs) (e : FEnv) (b : Nat) (poison : Bool) : LaneRes :=
  laneFloat (.ieee t) (frndBits t rm e (applyMod mb t.bits b)) poison

/-- a′ · 2^b; exponents beyond ±6000 round alike for every format (R228). -/
def fsclVal (v : Val) (b : Int) : Val :=
  match v with
  | .num s n d =>
    let k := max (-6000) (min 6000 b)
    if n == 0 then .num s 0 1
    else if 0 ≤ k then .num s (n * 2 ^ k.toNat) d else .num s n (d * 2 ^ (-k).toNat)
  | v => v

def laneFscl (t : FloatTy) (ma : NegAbs) (e : FEnv) (a b : Nat) (poison : Bool) : LaneRes :=
  let f := Fmt.ieee t
  laneFloat f (e.round f 0 (fsclVal (fval t ma a) (ival true 32 b))).bits poison

/-- The class mask of R231. -/
def fclass (t : FloatTy) (x : Nat) : Nat :=
  let n := t.bits
  let s := x / 2 ^ (n - 1) % 2 == 1
  let c := x % 2 ^ (n - 1)
  let m := t.grid.p - 1
  let bit :=
    if t.infCode < c then (if c / 2 ^ (m - 1) % 2 == 1 then 9 else 8)
    else if c == t.infCode then (if s then 0 else 7)
    else if c == 0 then (if s then 3 else 4)
    else if c < 2 ^ m then (if s then 2 else 5)
    else (if s then 1 else 6)
  2 ^ bit

def laneFcls (t : FloatTy) (b : Nat) (poison : Bool) : LaneRes :=
  LaneRes.dup 32 (fclass t (b % 2 ^ t.bits)) poison

/-- Truth of FCMP (R232). -/
def fcond (c : FCond) (x y : Val) : Bool :=
  if x.isNan || y.isNan then (c == .ne || c == .nan)
  else
    match c, Val.cmp x y with
    | .eq, o => o == .eq
    | .ne, o => o != .eq
    | .lt, o => o == .lt
    | .le, o => o != .gt
    | .gt, o => o == .gt
    | .ge, o => o != .lt
    | .num, _ => true
    | .nan, _ => false

/-! ### Group 0x5 -/

/-- Format of the H forms. -/
def hfmt (bf : Bool) : FloatTy := if bf then .bf16 else .f16

/-- Elementwise operation of R234 over packed words: sum, product, or product and sum. -/
inductive EOp where
  | add | mul | fma
  deriving DecidableEq, Repr

def eopVal (o : EOp) (rnd : Nat) (x y z : Val) : Val :=
  match o with
  | .add => Val.add rnd x y
  | .mul => Val.mul x y
  | .fma => Val.add rnd (Val.mul x y) z

/-- Sign modifier of an element. -/
def negIf (b : Bool) (v : Val) : Val := if b then v.neg else v

def laneElemOp (o : EOp) (f : Fmt) (na nb nc : Bool) (e : FEnv) (a b c : Nat) (poison : Bool) : LaneRes :=
  let n := f.bits
  laneElems f ((List.range (32 / n)).map fun i =>
    (e.round f i (eopVal o (e.ctl f).rnd (negIf na (f.val (elem n a i))) (negIf nb (f.val (elem n b i)))
      (negIf nc (f.val (elem n c i))))).bits) poison

def laneHminmax (max bf na nb : Bool) (a b : Nat) (poison : Bool) : LaneRes :=
  let t := hfmt bf
  laneElems (.ieee t) ((List.range 2).map fun i =>
    fchoose max (.ieee t) (applyMod ⟨na, false⟩ 16 (elem 16 a i)) (applyMod ⟨nb, false⟩ 16 (elem 16 b i))) poison

/-- Choice of QMAX4 for one element (R235). -/
def qmaxElem (abs : Bool) (q : B8Fmt) (x y : Nat) : Nat :=
  let f := Fmt.b8 q
  let mag (c : Nat) : Nat := if abs && !q.uns then c % 128 else c
  match f.val x, f.val y with
  | .nan, .nan => f.nan
  | .nan, _ => mag y
  | _, .nan => mag x
  | _, _ => if Val.cmp (f.val (mag x)) (f.val (mag y)) == .lt then mag y else mag x

def laneQmax4 (abs : Bool) (q : B8Fmt) (a b : Nat) (poison : Bool) : LaneRes :=
  laneElems (.b8 q) ((List.range 4).map fun i => qmaxElem abs q (elem 8 a i) (elem 8 b i)) poison

/-- c plus a sum of products, one rounding to binary32 (R236). -/
def laneDot (e : FEnv) (ps : List Val) (c : Nat) (poison : Bool) : LaneRes :=
  let f := Fmt.ieee .f32
  laneFloat f (e.round f 0 (Val.sum (e.ctl f).rnd (f.val c :: ps))).bits poison

def dotTerms (fa fb : Fmt) (k a b : Nat) : List Val :=
  (List.range k).map fun i => Val.mul (fa.val (elem fa.bits a i)) (fb.val (elem fb.bits b i))

/-! ### Group 0x6 -/

/-- The one-operand functions of Table 11.4. -/
inductive SFn where
  | rcp | rsq | sqrt | exp2 | log2 | sin | cos | tanh
  deriving DecidableEq, Repr

def sfnVal : SFn → Val → Val
  | .rcp => rcpVal
  | .rsq => rsqFn
  | .sqrt => sqrtFn
  | .exp2 => exp2Fn
  | .log2 => log2Fn
  | .sin => sinFn
  | .cos => cosFn
  | .tanh => tanhFn

def laneSfn (g : SFn) (t : FloatTy) (e : FEnv) (b : Nat) (poison : Bool) : LaneRes :=
  let f := Fmt.ieee t
  laneFloat f (e.round f 0 (sfnVal g (fval t noMod b))).bits poison

def laneFdiv (t : FloatTy) (e : FEnv) (a b : Nat) (poison : Bool) : LaneRes :=
  let f := Fmt.ieee t
  laneFloat f (e.round f 0 (Val.div (fval t noMod a) (fval t noMod b))).bits poison

/-- A floating result of a conversion. -/
def laneConv (f : Fmt) (x : Nat) (poison : Bool) : LaneRes := { laneFloat f x poison with stages := convStages }

def laneCvt (dt sty : FloatTy) (e : FEnv) (b : Nat) (poison : Bool) : LaneRes :=
  laneConv (.ieee dt) (e.round (.ieee dt) 0 (fval sty noMod b)).bits poison

/-- RM code of CVTI. -/
def rmCode : RMode → Nat
  | .rn => 0 | .rz => 1 | .rd => 2 | .ru => 3 | .rf => 4

def laneCvtiToInt (it : IntTy) (ft : FloatTy) (rm : RMode) (e : FEnv) (b : Nat) (poison : Bool) : LaneRes :=
  let n := ibits it
  let v := fval ft noMod b
  let x := if it.narrow then (e.round (.int it.signed n) 0 v).bits else toWideInt it.signed n (rmCode rm) v
  { LaneRes.pred (obits it) x 9 (m15 (rn x)) poison with stages := convStages }

def laneCvtiFromInt (it : IntTy) (ft : FloatTy) (e : FEnv) (b : Nat) (poison : Bool) : LaneRes :=
  let n := ibits it
  laneConv (.ieee ft) (e.round (.ieee ft) 0 (Val.ofInt (ival it.signed n (b % 2 ^ n)))).bits poison

def NarrowFmt.fmt : NarrowFmt → Fmt
  | .bg4 => .bg4
  | .b8 q => .b8 q

def QuantFmt.fmt : QuantFmt → Fmt
  | .bg4 => .bg4
  | .b8 q => .b8 q
  | .s8 => .int true 8
  | .n8 => .int false 8
  | .s16 => .int true 16
  | .n16 => .int false 16

def SplitFmt.fmt : SplitFmt → Fmt
  | .f32 => .ieee .f32
  | .f16 => .ieee .f16
  | .bf16 => .ieee .bf16
  | .s8 => .int true 8
  | .n8 => .int false 8
  | .b8 q => .b8 q

def WideFmt.ty : WideFmt → FloatTy
  | .f32 => .f32 | .f16 => .f16 | .bf16 => .bf16

/-- A code or an integer in the low bits of a word, that a conversion forms; the encoder of BG4 codes is duplicated (R27). -/
def laneCode (f : Fmt) (x : Nat) (poison : Bool) : LaneRes :=
  if f == .bg4 then { LaneRes.dup 32 x poison with stages := convStages }
  else { LaneRes.pred 32 x 9 (predPack f x) poison with stages := convStages }

def laneCvtnNarrow (nf : NarrowFmt) (wf : WideFmt) (e : FEnv) (b : Nat) (poison : Bool) : LaneRes :=
  laneCode (NarrowFmt.fmt nf) (e.round (NarrowFmt.fmt nf) 0 (fval (WideFmt.ty wf) noMod b)).bits poison

def laneCvtnWiden (nf : NarrowFmt) (wf : WideFmt) (e : FEnv) (b : Nat) (poison : Bool) : LaneRes :=
  let f := Fmt.ieee (WideFmt.ty wf)
  laneConv f (e.round f 0 ((NarrowFmt.fmt nf).val b)).bits poison

/-- The quantised element with its saturated and flushed marks (R190, R192). -/
def quantise (f : Fmt) (c : Ctl) (r16 : Nat) (x s : Val) : Rounded := roundTo f c r16 (Val.div x s)

def qntRounded (nf : QuantFmt) (e : FEnv) (a b : Nat) : Rounded :=
  let f := QuantFmt.fmt nf
  (quantise f (e.ctl f) (rnd16 e.hash 0) (fval .f32 noMod a) (scaleVal (BitVec.ofNat 32 b))).flushFrom (fval .f32 noMod a)

def laneQnt (nf : QuantFmt) (e : FEnv) (a b : Nat) (poison : Bool) : LaneRes :=
  laneCode (QuantFmt.fmt nf) (qntRounded nf e a b).bits poison

def laneDqnt (nf : QuantFmt) (wf : WideFmt) (e : FEnv) (a b : Nat) (poison : Bool) : LaneRes :=
  let f := Fmt.ieee (WideFmt.ty wf)
  laneConv f (e.round f 0 (Val.mul ((QuantFmt.fmt nf).val a) (scaleVal (BitVec.ofNat 32 b)))).bits poison

/-- The largest magnitude among finite binary32 values (R191). -/
def amaxOf (xs : List Nat) : Val :=
  xs.foldl (fun m x =>
    match m, (Fmt.ieee .f32).val x with
    | .num _ n d, .num _ a b => if n * b < a * d then .num false a b else m
    | m, _ => m) (.num false 0 1)

/-- The two halves of one element (R193). -/
def splitElem (f : Fmt) (x : Nat) : Nat × Nat :=
  match f with
  | .int s n =>
    let v := ival s n x
    let h1 := v / 2
    (wrapInt n h1, wrapInt n (v - h1))
  | _ =>
    match f.val x with
    | .num s n d =>
      let h1 := (roundTo f ⟨0, false⟩ 0 (.num s n (2 * d))).bits
      (h1, (roundTo f ⟨0, false⟩ 0 (Val.add 0 (.num s n d) (f.val h1).neg)).bits)
    | _ => (x, x)

/-- Both result words of QSPL, h1 then h2, each predicted on its own. -/
def laneQspl (nf : SplitFmt) (b : Nat) (poison : Bool) : LaneRes :=
  let f := SplitFmt.fmt nf
  let n := f.bits
  let es := (List.range (32 / n)).map fun i => splitElem f (elem n b i)
  let w1 : Word := BitVec.ofNat 32 (packEls n (es.map (·.1)))
  let w2 : Word := BitVec.ofNat 32 (packEls n (es.map (·.2)))
  { words := [w1, w2], bad := [poison, poison]
    check := predicted 9 [(es.map fun p => predPack f p.1).sum % 15, (es.map fun p => predPack f p.2).sum % 15]
    halves := true, stages := convStages }

/-- Bits of a PACK or UNPK element. -/
def packBits : PackSz → Nat
  | .h => 16 | .b => 8 | .n => 4

/-- `PACK` (R247): elements 2i and 2i + 1 replaced, the others kept. -/
def lanePack (sz : PackSz) (pos : Nat) (old a b : Nat) (poison : Bool) : LaneRes :=
  let n := packBits sz
  let es := (List.range (32 / n)).map fun i =>
    if i == 2 * pos then elem n a 0 else if i == 2 * pos + 1 then elem n b 0 else elem n old i
  LaneRes.pred 32 (packEls n es) 12 ((es.map fun x => m15 (rn x)).sum % 15) poison

def laneUnpk (sz : PackSz) (pos : Nat) (sx : Bool) (b : Nat) (poison : Bool) : LaneRes :=
  let n := packBits sz
  let x := elem n b pos
  LaneRes.pred 32 (wrapInt 32 (ival sx n x)) 12 (m15 (rn x)) poison

/-! ### Group 0x7: reductions -/

def redIntTy : RedTy → Option IntTy
  | .s32 => some .s32 | .n32 => some .n32 | .s64 => some .s64 | .n64 => some .n64 | _ => none

def redFloatTy : RedTy → Option FloatTy
  | .f64 => some .f64 | .f32 => some .f32 | .f16 => some .f16 | .bf16 => some .bf16 | _ => none

/-- Reduction of integers; the identity for no value (R251). -/
def redInt (t : IntTy) (op : RedOp) (xs : List Nat) : Nat :=
  let n := ibits t
  match op with
  | .add => xs.foldl (fun a x => (a + x) % 2 ^ n) 0
  | .and => xs.foldl Nat.land (2 ^ n - 1)
  | .or => xs.foldl Nat.lor 0
  | .xor => xs.foldl Nat.xor 0
  | .min => wrapInt n (xs.foldl (fun a x => min a (ival t.signed n x)) (imaxOf t.signed n))
  | .max => wrapInt n (xs.foldl (fun a x => max a (ival t.signed n x)) (iminOf t.signed n))

/-- Reduction of floats (R251): the exact sum rounded once; R229 for the extremes. -/
def redFloat (t : FloatTy) (op : RedOp) (e : FEnv) (xs : List Nat) : Nat :=
  let f := Fmt.ieee t
  match op with
  | .min => match xs with
    | [] => t.infCode
    | x :: r => if (x :: r).all (fun y => (f.val y).isNan) then f.nan
                else r.foldl (fchoose false f) x
  | .max => match xs with
    | [] => 2 ^ (t.bits - 1) + t.infCode
    | x :: r => if (x :: r).all (fun y => (f.val y).isNan) then f.nan
                else r.foldl (fchoose true f) x
  | _ => match xs with
    | [] => 0
    | _ => (e.round f 0 (Val.sum (e.ctl f).rnd (xs.map f.val))).bits

/-- A reduction result as a lane: adds and compares at STAGE 0, floats at 9 (Table 2.2). Integer and, or, xor are no adds or compares;
the model reports STAGE 0 for them too (log 80). -/
def laneRed (ty : RedTy) (op : RedOp) (e : FEnv) (xs : List Nat) (poison : Bool) : LaneRes :=
  match redIntTy ty, redFloatTy ty with
  | some t, _ =>
    let v := redInt t op xs
    LaneRes.pred (obits t) v 0 (m15 (rn v)) poison
  | none, some t => laneFloat (.ieee t) (redFloat t op e xs) poison
  | none, none => LaneRes.pred 32 0 0 0 poison

end Sys2Proof.Machine
end

