-- ==== Sys2Proof/Machine/State.lean ====
section
/-! DEFINITION. The state of the device as plain data: registers and threads, workgroups, launches, caches,
main memory, engines, queues and the registers of the host interface; and the state right after reset.
Stores with many places are lists of (key, value) in one canonical form (`Sparse`). -/

namespace Sys2Proof.Machine

/-! ### Sparse stores -/

/-- A store of values by number: keys strictly rising, no entry equal to what an unlisted key reads as. -/
abbrev Sparse (α : Type) := List (Nat × α)

/-- Memory by byte address. -/
abbrev Memory := List Host.Cell

/-! ### Threads and thread groups (chapters 8 and 17) -/

/-- Thread states of R402. -/
inductive ThreadStatus where
  | ready | arrived | held | exited
  deriving DecidableEq, Repr

/-- One thread: guards, PC, link register with a code for each half, state, age and CCNT (Table 8.1, R151,
R345, R402, R405). `next` is the PC a transfer has set and its `CUT` still has to give (R164). -/
structure Thread where
  guards : BitVec 8
  pc : BitVec 57
  linkLo : CWord
  linkHi : CWord
  status : ThreadStatus
  age : Nat
  ccnt : BitVec 32
  next : Option (BitVec 57)
  deriving DecidableEq, Repr

/-- A register word of a thread group: of a vector or temporary register in a lane, of a uniform register,
or a guard of a thread. -/
inductive RKey where
  | v (i lane : Nat)
  | s (i : Nat)
  | k (i lane : Nat)
  | g (i lane : Nat)
  deriving DecidableEq, Repr

/-- A fixed-latency write not yet performed: what the register held before, and the issue step from which the
new value is there (R160, R161). A guard's old value is in bit 0. -/
structure Flight where
  key : RKey
  old : CWord
  due : Nat
  deriving DecidableEq, Repr

/-- What a range slot names (R316). -/
inductive SlotUse where
  | empty
  | range (spad : Bool) (base limit : BitVec 64)
  | handle (th : BitVec 6)
  deriving DecidableEq, Repr

/-- A range slot and its counter of accesses not yet performed (R316). -/
structure RangeSlot where
  use : SlotUse
  count : Nat
  deriving DecidableEq, Repr

/-- A frame of the reconvergence stack (R348). -/
structure Frame where
  jpc : BitVec 57
  members : BitVec 64
  deriving DecidableEq, Repr

/-- Serial mode (R408 to R411): overflow list (last entry at the end), serial set, running thread. -/
structure Serial where
  jpcs : List (BitVec 57)
  set : BitVec 64
  running : Nat
  deriving DecidableEq, Repr

/-- A wait performed at the `CUT` that ends a shot (R163): each carries where its result goes. -/
inductive Wait where
  /-- `FENCE`, and the release of `TAKE.cmt` and `LNCH` (R315, R373, R354). -/
  | fence (kind : FenceKind) (scope : Scope) (mask : BitVec 8)
  /-- `WAITC`: counter of a class at most n (R359). -/
  | counter (c : CntClass) (n : Nat)
  /-- `BARW` and `BARS`: the phase differs from q (R364). -/
  | barrier (b : Nat) (q : BitVec 32) (d : Option U)
  /-- `SPLW`: PH − t is below 2^31 (R366). -/
  | splice (b : Nat) (t : BitVec 32) (d : Option U)
  /-- `LDF`: the read of the operation has been performed (R307). -/
  | granules (op : Nat)
  /-- `BARS`: the arrival of the operation has not yet been made (R364). -/
  | arrival (op : Nat)
  /-- A gang member held in the rendezvous latch (R280). -/
  | rendezvous
  /-- A gang that failed: the gang trap is taken at the `CUT` (R280). -/
  | gangFail (fcode : Nat)
  /-- An `LNCH` whose sheet or image faulted or was Poison: its trap, with its threads and its address, is taken at the `CUT`
  (R354). -/
  | launchFail (cause : BitVec 32) (mask : BitVec 64) (pc : BitVec 57)
  /-- A commit point of two-take mode decided (R341, R373). -/
  | commit
  /-- The launch of `LNCH` still to be placed (R354). -/
  | launch
  /-- A command of the thread group that a full queue or share has not yet taken (R89, R117, R260, R344). -/
  | enter
  /-- A range-slot counter past its width (R316). -/
  | slots
  deriving DecidableEq, Repr

/-- The shot of a thread group (R163, R166, R403): whether one is open, instructions issued, the PC it began at,
its issue set, the waits for its `CUT`, and whether an instruction carried the YIELD hint or was `YIELD`. -/
structure Shot where
  active : Bool
  count : Nat
  pc : BitVec 57
  set : BitVec 64
  waits : List Wait
  yieldHint : Bool
  yieldInstr : Bool
  deriving DecidableEq, Repr

/-- What a thread group is doing between issues. -/
inductive Phase where
  /-- May issue. -/
  | ready
  /-- Waits at a `CUT` whose wait mask over ps1 to ps6 is given (R165). -/
  | atCut (mask : BitVec 6)
  /-- Waits on a replayable fault of the instruction at its PC (R96, R296). -/
  | faulted
  /-- Holds at an `EXIT` under R130. -/
  | exiting
  /-- Every thread has exited. -/
  | ended
  deriving DecidableEq, Repr

/-- What a trap saves for `TRET` (R166, R423 to R426): the shot, the threads that run the handler, what the thread group was doing, the
temporaries, the targets of a transfer before its `CUT`, the address of the trapping instruction, whether it was the `CUT`, whether the trap was a boundary
trap and met a held `EXIT`, and the threads that serial mode held. -/
structure SavedShot where
  shot : Shot
  set : BitVec 64
  phase : Phase
  temps : Sparse CWord
  nexts : List (Option (BitVec 57))
  tpc : BitVec 57
  wasCut : Bool
  boundary : Bool
  atExit : Bool
  serialHeld : BitVec 64
  deriving DecidableEq, Repr

/-- Kind of a page for ordering (Table 5.1, Table 5.4), host memory, or the workgroup's scratchpad. -/
inductive PageKind where
  | rc | so | uo | host | spad
  deriving DecidableEq, Repr

/-- What one lane's access does to its location. -/
inductive AccKind where
  | load
  | store
  | atom (ty : AtomTy) (op : AtomOp)
  | cas (ty : AtomTy)
  deriving DecidableEq, Repr

/-- An entry of a coded-region table (Table 4.1). -/
structure CrEntry where
  twoD : Bool
  through : Bool
  nfp : Bool
  dbase : Nat
  budget : Nat
  pitch : Nat
  nblk : Nat
  pbase : Nat
  deriving DecidableEq, Repr

/-- Where a decoded line belongs: context, region index, number of the 128-byte line in the decoded region,
and the entry under which it was filled (R68). -/
structure CodedTag where
  ctx : Nat
  ix : Nat
  line : Nat
  entry : CrEntry
  deriving DecidableEq, Repr

/-- One access of an issued operation: aligned words from `pa` within one line, the bytes of them that the
access names (they are contiguous, and the accesses of a lane stand in ascending order), its data and what it
read once performed. `lane` is the thread it belongs to, `threads` every thread for which it is made (R294), `coded` the decoded line when the page is coded; `pa` is
then the offset in the decoded region; `wg` is the workgroup whose scratchpad a cluster-remote access names. -/
structure Acc where
  lane : Nat
  threads : BitVec 64
  kind : AccKind
  va : Nat
  pa : Nat
  page : PageKind
  coded : Option CodedTag
  mask : Nat
  data : List CWord
  data2 : List CWord
  done : Bool
  result : List CWord
  wg : Option Nat
  err : List Word := []
  deriving DecidableEq, Repr

/-- A barrier arrival that follows earlier accesses (R326, R362): the barrier, the uniform that receives PH, and for
`BARS` the uniform that receives LSTAT when its wait ends. -/
structure Arrival where
  bar : Nat
  scope : Nat
  rd : Option U
  wait : Option (Option U)
  deriving DecidableEq, Repr

/-- A page and class that a replayable fault waits on (R96), with the cause, level and entry that stopped the
walk, the thread that faulted, and the threads whose access it is. -/
structure PageWait where
  va : Nat
  cls : Nat
  cause : Nat
  level : Nat
  pte : Nat
  lane : Nat
  threads : BitVec 64
  deriving DecidableEq, Repr

/-- A `GRN` that has not acted: full or empty for `.set` and `.clr`, none for `.qry`; its first granule and how many (R309). -/
structure GrnOp where
  set : Option Bool
  first : Nat
  count : Nat
  deriving DecidableEq, Repr

/-- An `LNCH` until its sheet is queued (R354): its address and threads, the place of the sheet as translated at issue, AFTER,
the words of the sheet once it has been read, and the page of the image that it waits for. -/
structure LaunchOp where
  pc : BitVec 57
  threads : BitVec 64
  va : Nat
  pa : Nat
  page : PageKind
  coded : Option CodedTag
  after : Bool
  sheet : Option (List CWord)
  wait : Option PageWait
  deriving DecidableEq, Repr

/-- A variable-latency or memory operation in flight (R160, R162, R299): its accesses, where its values go,
its pending slot, counters and range slots. -/
structure MemOp where
  id : Nat
  accs : List Acc
  /-- Destination register and, for each thread that receives a value, the thread whose access supplies it. -/
  dst : Option Reg
  lanes : List (Nat × Nat)
  /-- Bytes of the value of one lane, and whether a value below a word is sign-extended (R290). -/
  size : Nat
  signed : Bool
  /-- Values formed at issue, of an operation without accesses. -/
  results : List (RKey × CWord)
  ps : Nat
  /-- Counts in the memory counter, and the range slots it counts in. -/
  counts : Bool
  slots : BitVec 8
  /-- `LDF`: held until its granules are full; the flag is TAKE. -/
  granule : Option Bool
  /-- `LDA`: acquires at this scope when its read is performed. -/
  acquire : Option Scope
  /-- `STL`, `ATOM`, `RED`, `CAS`: scope named. -/
  scope : Scope
  super : Bool
  /-- Destinations that a later write has overtaken (R160). -/
  skip : List RKey
  /-- An arrival made once every earlier access is performed. -/
  arrive : Option Arrival
  /-- `STF`: sets the granules it writes once every earlier access is performed. -/
  setFull : Bool
  /-- Every access is performed, and the counters have counted it out. -/
  performed : Bool
  /-- Two-take mode: how many of the take's held stores the operation's loads see (R341). -/
  mark : Nat
  /-- `LNCH`: what it still has to do. -/
  launch : Option LaunchOp
  /-- Two-take mode: undecided commit points that its atomics, its held store or its arrival wait for (R341, R440). -/
  gated : Nat
  /-- `STL`: a release at its scope, then its write. -/
  rel : Bool := false
  /-- `GRN`: what it still has to do. -/
  grn : Option GrnOp := none
  deriving DecidableEq, Repr

/-- A boundary trap (R423): its place in the order, the cause word to write, REPEAT apart, and for a continuity failure the
address of the operation (R277). -/
structure BoundaryTrap where
  rank : Nat
  tcause : BitVec 32
  pc : Option (BitVec 57)
  deriving DecidableEq, Repr

/-- Debug state of a thread group (R416, R417, R429): `pair` stands before the `CUT` that a step performs with its transfer or fence,
`closing` performs or waits at the `CUT` of a step, the flag saying that of such a pair. -/
inductive Debug where
  | off
  | stopped
  | step
  | pair
  | closing (pair : Bool)
  | stepThread (t : Nat)
  deriving DecidableEq, Repr

/-- A thread group (Table 8.1, Table 8.2, R147 to R149). -/
structure Tg where
  width : Nat
  slot : Nat
  role : Nat
  /-- The mirror grant (R387). -/
  mirrored : Bool
  vregs : Sparse CWord
  mirror : Sparse CWord
  uregs : Sparse CWord
  temps : Sparse CWord
  threads : List Thread
  pend : List Nat
  slots : List RangeSlot
  cntCopy : Nat
  cntMat : Nat
  cntDcmp : Nat
  cntMem : Nat
  fmode : BitVec 28
  chk : Bool
  tcause : BitVec 32
  tmask : BitVec 64
  tpc : BitVec 64
  tinst : BitVec 96
  tops : Sparse CWord
  govst : BitVec 64
  crIdx : BitVec 6
  crSum : BitVec 64
  crMax : BitVec 64
  crCnt : BitVec 64
  crNf : BitVec 32
  super : Bool
  /-- PCs of the continuity traps taken since an instruction last retired (Table 2.6). -/
  rpt : List (BitVec 57)
  stack : List Frame
  serial : Option Serial
  gang : List (Nat × Nat)
  gangPos : Nat
  shot : Shot
  saved : Option SavedShot
  kept : List Wait
  flights : List Flight
  steps : Nat
  phase : Phase
  /-- `TRET` has issued and its `CUT` has not yet completed. -/
  ret : Bool
  /-- The word after the one at the PC decodes to `CUT` (R164, R344). -/
  nextCut : Bool
  faults : List PageWait
  cancel : Bool
  ops : List MemOp
  nextOp : Nat
  boundary : List BoundaryTrap
  debug : Debug
  /-- `sr.clock` when it entered the debug state (R280, R441). -/
  debugAt : Nat
  /-- The `BRK` at which it stands (R429). -/
  brk : Option (BitVec 57)
  active : Bool
  /-- Since when it has been in the active set, or ready in the pending set. -/
  readySince : Nat
  order : Nat
  /-- Its place in the round of its pipe, and how many issues of others may still go before its next (R406, R407, R413). -/
  round : Nat
  busy : Nat
  /-- Matrix operations issued, the oldest not counted out, and later ones that have completed before it (R260). -/
  matIssued : Nat
  matNext : Nat
  matDone : List Nat
  exitSet : BitVec 64
  deriving DecidableEq, Repr

/-! ### Workgroups (chapters 6, 12, 15, 16) -/

/-- A named barrier (Table 15.3). `ring` gives the first barrier and the length of its ring. -/
structure Barrier where
  e : Nat
  ef : Nat
  ee : Nat
  arr : Nat
  ph : BitVec 32
  stat : BitVec 8
  lstat : BitVec 8
  ring : Option (Nat × Nat)
  deriving DecidableEq, Repr

/-- A deferred guard slot (R149, R358). -/
inductive Deferred where
  | unresolved | yes | no
  deriving DecidableEq, Repr

/-- A mapped tile: shape, format and pages in list order (R266, R267). -/
structure Tile where
  rows : Nat
  cols : Nat
  af : AccFmt
  pages : List Nat
  deriving DecidableEq, Repr

/-- An entry of a duplication map that only the thread group that appended it sees as yet: its index, that thread group, the place of
the append in its issue order, and the barriers at which it has arrived since (R246). -/
structure Unseen where
  entry : Nat
  tg : Nat
  id : Nat
  bars : List Nat
  deriving DecidableEq, Repr

/-- A tensor-table entry with its counters and duplication map (R255, R256). -/
structure Tensor where
  dw0 : BitVec 64
  dw1 : BitVec 64
  dw2 : BitVec 64
  dw3 : BitVec 64
  sat : BitVec 32
  flush : BitVec 32
  map : List Nat
  fresh : List Unseen
  deriving DecidableEq, Repr

/-- Life of a workgroup. -/
inductive WgPhase where
  /-- Placed; its regions are being staged (R389). -/
  | staging
  /-- Placed and staged; waits for its start (R393). -/
  | placed
  | running
  /-- Every thread group ended; regions are written back (R391). -/
  | writeback
  /-- Ready to end (R399). -/
  | finishing
  /-- Saved by pre-emption (R432); holds no core. -/
  | saved
  | done
  deriving DecidableEq, Repr

/-- Who waits at a commit point of two-take mode (R341, R440, R441): a thread group at its `CUT`, an operation of an engine
or a write-back that finds no entry, or the exit of the workgroup. -/
inductive CommitBy where
  | tg (i : Nat)
  | engine
  | writeback
  | exits
  deriving DecidableEq, Repr

/-- A commit point with the time at which it was reached. -/
structure CommitPt where
  by_ : CommitBy
  since : Nat
  deriving DecidableEq, Repr

/-- A workgroup: its place, stores and synchronisation state. -/
structure Wg where
  launch : Nat
  /-- Number of the distributed unit, and rank of the workgroup in it. -/
  unitIx : Nat
  rank : Nat
  /-- Two-take mode, and the take (R437). -/
  takeOn : Bool
  take : Nat
  core : Nat
  base : Nat
  phase : WgPhase
  tgs : List Tg
  spad : Sparse CWord
  /-- The two copies of the granule bits (R110). -/
  gran : Sparse Bool
  gran2 : Sparse Bool
  acc : Sparse CWord
  /-- Physical pages of the accumulator store granted to the workgroup (R114). -/
  pages : List Nat
  tiles : List (Option Tile)
  tensors : List Tensor
  barriers : List Barrier
  deferred : List Deferred
  status : BitVec 8
  /-- Staging and write-back cursor: region and byte. -/
  region : Nat
  cursor : Nat
  stageWait : List PageWait
  /-- Two-take mode: signature since the last commit point, commit points passed, held stores. -/
  sig : BitVec 64
  commits : Nat
  held : List Acc
  /-- Commit points that the take has reached and that are not decided, oldest first. -/
  points : List CommitPt
  preempt : Bool
  preemptSince : Nat
  deriving DecidableEq, Repr

/-! ### Launches (chapter 16) -/

structure Level where
  x : Nat
  y : Nat
  z : Nat
  bind : Nat
  scope : Nat
  deriving DecidableEq, Repr

structure Region where
  va : Nat
  wb : Bool
  len : Nat
  soff : Nat
  deriving DecidableEq, Repr

/-- A call sheet (Table 16.1). -/
structure Sheet where
  levels : List Level
  coop : Bool
  mirror : Bool
  takes : Bool
  staged : Bool
  entry : Nat
  trapv : Nat
  nonce : BitVec 64
  vregs : Nat
  uregs : Nat
  accp : Nat
  spad : Nat
  ncopy : Nat
  nmat : Nat
  nvec : Nat
  blev : List Nat
  windows : List (Nat × Nat)
  regions : List Region
  cdone : Nat
  image : List Tensor
  deriving DecidableEq, Repr

/-- A launch: its sheet, context, partition and queue entry, the owner die of each unplaced unit, and what has
ended (R392 to R400). -/
structure Launch where
  sheet : Sheet
  ctx : Nat
  part : Nat
  fromHost : Bool
  entryIx : Nat
  /-- `LNCH.after`: the issuing launch. -/
  after : Option Nat
  /-- Unplaced units with the die that owns each. -/
  unplaced : List (Nat × Nat)
  /-- Units not yet ended. -/
  unitsLeft : Nat
  orStatus : BitVec 8
  bad : Nat
  /-- Dies that every other live die has refused since they last placed or received a unit (R398). -/
  refused : List Nat
  /-- Cores and GiB of main memory in service when the launch was accepted (R152). -/
  coresIn : Nat
  memGib : Nat
  deriving DecidableEq, Repr

/-! ### Caches and main memory (chapters 3, 4, 5) -/

/-- A line of a core's L1: its frame, the partition whose access filled it, its words, the bytes it holds and the bytes not yet
written back. -/
structure L1Line where
  core : Nat
  /-- Frame of the unified array that holds it: 512 frames of 128 bytes in each unit of 64 KiB (R81, R99). -/
  frame : Nat
  part : Nat
  line : Nat
  page : PageKind
  coded : Option CodedTag
  words : List CWord
  valid : Nat
  dirty : Nat
  deriving DecidableEq, Repr

/-- A line of an L2 slice; a decoded line names its context, region and decoded set (R68). -/
structure L2Line where
  slice : Nat
  set : Nat
  way : Nat
  line : Nat
  coded : Option CodedTag
  owner : Nat
  words : List CWord
  valid : Nat
  dirty : Nat
  stamp : Nat
  deriving DecidableEq, Repr

/-- A request to a memory controller for bytes of one atom, with the L2 line that waits for a read (R42, R47
to R49). -/
structure McReq where
  write : Bool
  atom : Nat
  words : List CWord
  mask : Nat
  part : Nat
  core : Nat
  deriving DecidableEq, Repr

/-- Bytes of main memory whose contents became unpredictable at a tick: by a change of their atom mode (R51), as the
contents of a context image (R466), by a reset; `loose` says that a read may return Poison with a record instead (R51). -/
structure Unsettled where
  lo : Nat
  hi : Nat
  tick : Nat
  loose : Bool
  deriving DecidableEq, Repr

/-- Main memory and its controllers (chapter 3): bytes, poisoned words (by word number), symbol errors of
atoms, requests in order of arrival, and the registers of Tables 3.3 and 3.5. -/
structure MainMem where
  bytes : Memory
  poison : List Nat
  errs : Sparse (List (Nat × Byte))
  unsettled : List Unsettled
  queue : List McReq
  /-- Per die 16·stack + k: uncorrectable and corrected atoms since reset or its last map-out request. -/
  uncorr : Sparse Nat
  corr : Sparse Nat
  /-- Per die, the atom last counted. -/
  last : Sparse Nat
  /-- Dies declared failing since their counts last started (R54). -/
  declared : List Nat
  /-- By 64·stack + 8·p + q: atoms that the stack's controller has served for partition p while p and q have both had requests
  waiting (R88). -/
  served : Sparse Nat
  regions : List (BitVec 64)
  memcap : BitVec 40
  full : Bool
  mstate : Nat
  mseg : Nat
  mstack : Nat
  mapouts : List (Nat × Nat)
  segLive : List (BitVec 12)
  diePend : List (BitVec 16)
  deriving DecidableEq, Repr

/-- An entry that a walk cached (R93): the TLB that holds it (unit n below 384: the L1 TLB of core n; 384 + k: the L2 TLB of
cluster k; 432 + d: the walker cache of die d, which holds entries that are no leaves), the page, the entry and its level. -/
structure TlbEntry where
  unit : Nat
  ctx : Nat
  page : Nat
  pte : Nat
  level : Nat
  deriving DecidableEq, Repr

/-- A word of a constant cache (R156). -/
structure CcWord where
  core : Nat
  ctx : Nat
  va : Nat
  word : CWord
  deriving DecidableEq, Repr

/-- Caches, translations and partitions (chapters 4 and 5): lines, and the registers of Tables 4.5, 5.2 and
5.6. `ways` is keyed by 8·slice + partition; an unlisted key reads as its reset value. -/
structure CacheSt where
  l2 : List L2Line
  l1 : List L1Line
  cc : List CcWord
  tlb : List TlbEntry
  stamp : Nat
  ways : Sparse (BitVec 16)
  weight : List (BitVec 8)
  ceq : List (BitVec 6)
  /-- CRFLUSH.BUSY with its context. -/
  crflush : Option Nat
  /-- TLBINV.BUSY with context, ALL and page. -/
  tlbinv : Option (Nat × Bool × Nat)
  tlbVa : BitVec 64
  deriving DecidableEq, Repr

/-- A fault record (Table 5.7), with the class that names its page and whether it is unresolved. -/
structure FaultRec where
  va : Nat
  count : Nat
  agent : Nat
  slot : Nat
  core : Nat
  cause : Nat
  level : Nat
  cls : Nat
  pte : Nat
  time : Nat
  unresolved : Bool
  deriving DecidableEq, Repr

/-- The fault queue of a context (R96). -/
structure FaultQueue where
  recs : List FaultRec
  ovf : Bool
  deriving DecidableEq, Repr

/-- A deferred error record (Table 15.7). -/
structure ErrRec where
  dw0 : BitVec 64
  dw1 : BitVec 64
  dw2 : BitVec 64
  dw3 : BitVec 64
  deriving DecidableEq, Repr

/-- The log of a partition (R371). -/
structure ErrLog where
  recs : List ErrRec
  lost : Nat
  deriving DecidableEq, Repr

/-- Counters of a coded-region entry (R78): the exact sum in units of 2^−1074. -/
structure CrCounters where
  sum : Nat
  max : BitVec 64
  count : BitVec 64
  nonfin : BitVec 32
  deriving DecidableEq, Repr

/-- A context as system software created it (R463, R464). -/
structure Context where
  root : Nat
  crtab : Nat
  part : Nat
  debug : Bool
  saveBase : Nat
  saveSize : Nat
  counters : Sparse CrCounters
  faults : FaultQueue
  deriving DecidableEq, Repr

/-! ### Engines (chapters 7 and 12) -/

/-- Kind of a copy-engine command. -/
inductive CopyKind where
  | copy
  | gather (list : Nat)
  | scatter (list : Nat)
  | peer (p : Nat)
  | prefetch (l1 : Bool)
  deriving DecidableEq, Repr

inductive CopyPhase where
  | queued
  | active
  /-- A chunk has been read and is to be written. -/
  | loaded
  /-- Waits on a replayable fault (R96). -/
  | waiting
  /-- Suspended on an uncorrectable read (Table 7.5). -/
  | suspended
  /-- Ended with its status; an older command of the thread group has not yet completed (R128). -/
  | finished
  deriving DecidableEq, Repr

/-- Running value of a checksum chain (R133 to R137): RUN, bytes of an unfinished ADD32 word, whether a Poison word
was read, commands completed. -/
structure ChainRun where
  run : BitVec 32
  part : List Byte
  poison : Bool
  cmds : Nat
  deriving DecidableEq, Repr

/-- An open chain as acceptance sees it (R132): CSUM and destination class (the peer of `CPYX`) of its first command,
commands so far. -/
structure ChainHead where
  issuer : TgRef
  csum : Nat
  peer : Option Nat
  count : Nat
  deriving DecidableEq, Repr

/-- A word of an engine's buffer: first byte of the word that belongs to the stream, how many do, the word. -/
structure BufWord where
  o : Nat
  n : Nat
  w : CWord
  deriving DecidableEq, Repr

/-- A command in a copy-engine queue (R117 to R138). `eslot` is its queue entry, `idx` the captured index list,
`member` says that it continues a chain, `retried` that the copy network has failed once on the chunk. -/
structure CopyCmd where
  kind : CopyKind
  issuer : TgRef
  part : Nat
  ctx : Nat
  words : List (BitVec 64)
  defer : Option (Nat × Bool)
  phase : CopyPhase
  accepted : Bool
  eslot : Nat
  idx : List Int
  chunk : Nat
  chain : ChainRun
  member : Bool
  buf : List BufWord
  retried : Bool
  status : Nat
  slots : BitVec 8
  waits : List PageWait
  super : Bool
  /-- Its place in the issue order of the thread group, among memory operations (R319). -/
  id : Nat := 0
  deriving DecidableEq, Repr

inductive JobPhase where
  | queued
  | active
  /-- Waits on a replayable fault. -/
  | waiting
  /-- Ended with its status; completes in order. -/
  | finished
  deriving DecidableEq, Repr

/-- A decompression job (R143 to R146), with its core. -/
structure Job where
  issuer : TgRef
  core : Nat
  part : Nat
  ctx : Nat
  words : List (BitVec 64)
  defer : Option (Nat × Bool)
  accepted : Bool
  phase : JobPhase
  status : Nat
  slots : BitVec 8
  waits : List PageWait
  super : Bool
  stream : Option (List Byte) := none
  id : Nat := 0
  deriving DecidableEq, Repr

inductive MatKind where
  | mzro | mma | mlda | msta | mrel
  deriving DecidableEq, Repr

/-- A queued matrix operation with the state it captured (R260, R261, R274). -/
structure MatOp where
  kind : MatKind
  issuer : TgRef
  /-- Its number among the matrix operations of its thread group (R260). -/
  num : Nat
  pc : BitVec 57
  threads : BitVec 64
  tile : Option Tile
  ta : Tensor
  tb : Tensor
  args : List Nat
  acc : Bool
  fmode : BitVec 28
  nonce : BitVec 64
  th : Nat
  guardD : Option Nat
  ps : Nat
  /-- Position in the gang and its members' list (R281). -/
  gang : Option (Nat × List TgRef)
  slots : BitVec 8
  rows : Nat
  kch : Nat
  cstep : Nat
  /-- STATE of Table 12.6: 1 queued, 2 running, 3 waiting, 4 suspended on continuity, 5 suspended otherwise,
  6 held by a gang member. -/
  state : Nat
  cause : Nat
  point : Nat
  stage : Nat
  missed : Bool
  waits : List PageWait
  super : Bool
  id : Nat := 0
  deriving DecidableEq, Repr

/-- A member waiting in the rendezvous latch (R280). -/
structure GangWait where
  ref : TgRef
  list : List (Nat × Nat)
  members : List TgRef
  op : MatOp
  since : Nat
  deriving DecidableEq, Repr

/-- Per-core state of the engines and pipes: queues, `sr.gov` with the busy bounds and counts of its windows (R287,
Table 12.8), service (R451), repair counts of the pipes (Table 19.3), their rounds. -/
structure CoreSt where
  copyq : List CopyCmd
  /-- Open chains by thread group, and running values whose next member has not been issued. -/
  chains : List ChainHead
  runs : List (TgRef × ChainRun)
  matq : List MatOp
  govStep : Nat
  govLimit : Nat
  busy : Nat
  busyPrev : Nat
  bound : Nat
  window : Nat
  fenced : Bool
  out : Bool
  repair : List Nat
  /-- Per pipe, the place in the round of the thread group that issued last (R413). -/
  lastRound : List Nat
  deriving DecidableEq, Repr

/-- Per-cluster state: decompression queue, rendezvous latch, history of scheduler rebuilds (R447, R448). -/
structure ClusterSt where
  jobs : List Job
  latch : List GangWait
  rebuilds : List Nat
  deriving DecidableEq, Repr

/-! ### Host interface and management (chapters 19 and 22) -/

/-- An event of the event ring (R469). -/
structure Event where
  dw0 : BitVec 64
  dw1 : BitVec 64
  dw2 : BitVec 64
  dw3 : BitVec 64
  deriving DecidableEq, Repr

/-- An Otaethar link (R471). -/
structure Link where
  en : Bool
  state : Nat
  retrains : BitVec 8
  margin : BitVec 16
  deriving DecidableEq, Repr

/-- PEER[p] (R471). -/
structure Peer where
  valid : Bool
  links : BitVec 18
  ctx : BitVec 16
  serial : BitVec 14
  deriving DecidableEq, Repr

/-- A mesh link: consecutive CRC failures, the flits in the sender's retry buffer, oldest first, that the receiver has not yet
taken, and whether it has failed for good (R16). -/
structure MeshLink where
  fails : Nat
  retry : List Flit
  down : Bool
  deriving DecidableEq, Repr

/-- A test unit's daily registers, its last eight results (true for a failure, the latest first), the time of its last run
and whether a run is going on (R449 to R451, Table 19.5). -/
structure Daily where
  target : TestUnit
  fenced : Bool
  fails : Nat
  passes : Nat
  history : List Bool
  lsig : BitVec 64
  last : Option Nat
  running : Bool
  deriving DecidableEq, Repr

/-- The launch queue of a partition (R467). -/
structure LaunchQueue where
  base : BitVec 64
  log : Nat
  head : BitVec 32
  tail : BitVec 32
  deriving DecidableEq, Repr

/-- The operation that CTXCMD runs (Table 22.2). -/
structure CtxCmd where
  op : Nat
  ctx : Nat
  core : Nat
  slot : Nat
  thread : Nat
  wg : Nat
  deriving DecidableEq, Repr

/-- Registers of the host interface (chapter 22). -/
structure HostSt where
  evBase : BitVec 64
  evLog : Nat
  evTail : Nat
  evHead : BitVec 64
  evLost : BitVec 16
  ctxBase : BitVec 64
  ctxCnt : BitVec 16
  cmd : Option CtxCmd
  cmdStatus : BitVec 3
  ctxArg : BitVec 64
  queues : List LaunchQueue
  winBase : BitVec 64
  /-- What the last read through the window returned to the host (the model's own). -/
  winData : BitVec 64
  links : List Link
  peers : List Peer
  bootSrc : BitVec 64
  bootStatus : BitVec 16
  attNonce : BitVec 256
  attBuf : BitVec 64
  pwrLimit : BitVec 12
  pwrState : BitVec 2
  pwrReq : Bool
  therm : List (BitVec 64)
  fqSel : BitVec 16
  /-- Cores in service and GiB of main memory at the latest launch, as the feature words show them (R152). -/
  featCores : Nat
  featGib : Nat
  deriving DecidableEq, Repr

/-- State of the defences (chapter 19): mesh links, daily units, slate, watchpoints, wear. `snaps` lists the
snapshot the slate latched, by the clock of its cycle. -/
structure DefSt where
  mesh : Sparse MeshLink
  dailies : List Daily
  dailyEn : Bool
  dailyPeriod : BitVec 16
  slTag : BitVec 16
  slSrc : BitVec 4
  slWpen : Bool
  slConten : Bool
  slArm : Bool
  slMissed : BitVec 32
  slSnap : Option (BitVec 64)
  slWp : List (BitVec 64 × BitVec 64)
  wear : List (BitVec 64)
  deriving DecidableEq, Repr

/-- A distributor: its place in the round robin over partitions and the launch it serves (R397). -/
structure Dist where
  rr : Nat
  cur : Option Nat
  deriving DecidableEq, Repr

/-- A saved unit image (R432, R466, Table 18.4; log 22): its place in the save area, the time of the save, its workgroups with
what each was doing (their contents stay in `State.wgs`, in the phase `saved`), and their engine work and latch entries. -/
structure UnitImage where
  ctx : Nat
  addr : Nat
  time : Nat
  wgs : List (Nat × WgPhase)
  copies : List CopyCmd
  chains : List ChainHead
  runs : List (TgRef × ChainRun)
  mats : List MatOp
  jobs : List Job
  latch : List GangWait
  deriving DecidableEq, Repr

/-! ### Turns -/

/-- A physical disturbance that a turn brings (log 12): a storage error in a register or a store, or an error
of the logic that forms a result. -/
inductive Upset where
  | reg (r : TgRef) (key : RKey) (data : Word) (code : Code)
  | mirror (r : TgRef) (i lane : Nat) (data : Word) (code : Code)
  | link (r : TgRef) (t : Nat) (hi : Bool) (data : Word) (code : Code)
  | spad (wg word : Nat) (data : Word) (code : Code)
  | granule (wg g : Nat)
  | accum (wg word : Nat) (data : Word) (code : Code)
  | l1 (core line word : Nat) (data : Word) (code : Code)
  | l2 (line word : Nat) (data : Word) (code : Code)
  | ccache (core va : Nat) (data : Word) (code : Code)
  | atom (addr sym : Nat) (err : Byte)
  /-- The next instruction of the thread group forms word `word` of thread `t` wrongly. -/
  | result (r : TgRef) (t word : Nat) (data : Word)
  /-- A stage of Table 2.6 that the next instruction of the thread group passes in thread `t` is off by `err`. -/
  | stage (r : TgRef) (t stage err : Nat)
  /-- A residue check in the decompression engine of a cluster fails (R145). -/
  | decomp (cluster : Nat)
  /-- The next array step of the core's matrix engine fails at a POINT and STAGE of Table 12.4. -/
  | array (core point stage : Nat)
  /-- The next codec operations, or home-ALU operations, disagree this many times (R76, R312). -/
  | codec (times : Nat)
  | homeAlu (times : Nat)
  /-- The copy network loses the check of the next chunk of the core (R127). -/
  | copyNet (core : Nat)
  /-- The checksum units of the core disagree this many times (R133). -/
  | copySum (core times : Nat)
  /-- A word of the buffer of the command in an entry of the core's queue (R127). -/
  | copyBuf (core entry i : Nat) (data : Word) (code : Code)
  deriving DecidableEq, Repr

/-- Who moves next: a thread group issues, or an event of the table happens. -/
inductive Move where
  | issue (r : TgRef)
  | event (i : Instr)
  deriving DecidableEq, Repr

/-- A turn: the time that passes first, the number by which full stores choose frames and victims (R81, R93), the L1 lines
(core, line) evicted, the cached translations (unit, page) dropped and the upsets that strike before it, the unit on which an
event acts, and the move. -/
structure Turn where
  elapsed : Nat
  pick : Nat
  evict : List (Nat × Nat)
  forget : List (Nat × Nat)
  upsets : List Upset
  unit : Nat
  move : Move
  deriving DecidableEq, Repr

end Sys2Proof.Machine

namespace Sys2Proof.Config

/-- The next turn when the agenda names none (log 3). -/
opaque freeTurn : Nat → Option Machine.Turn

end Sys2Proof.Config

namespace Sys2Proof.Machine

/-! ### The machine -/

/-- Why the model stops. -/
inductive Fault where
  /-- An instruction of groups 0x0 to 0xF is executed although no thread group issues: `exec` raises it, no
  step reaches it. Safe. -/
  | noThreadGroup
  deriving DecidableEq, Repr

/-- Why the model gives no meaning. -/
inductive Refusal where
  /-- An arm of `exec` whose instruction has no meaning yet. Safe. -/
  | notModelled (mnemonic : String)
  deriving DecidableEq, Repr

/-- The whole device. `agenda`, `tick`, `pick`, `cur`, `unit` and `strikes` are the model's own: the turns that are
fixed in advance, the counter of free values, the turn's choice of frames and victims, the thread group that issues, the unit an
event acts on, and the upsets that wait for their operation. -/
structure State where
  agenda : List Turn
  tick : Nat
  pick : Nat
  cur : Option TgRef
  unit : Nat
  strikes : List Upset
  clock : BitVec 64
  mm : MainMem
  cs : CacheSt
  contexts : Sparse Context
  logs : List ErrLog
  host : HostSt
  dfs : DefSt
  cores : Sparse CoreSt
  clusters : Sparse ClusterSt
  dists : List Dist
  launches : Sparse Launch
  wgs : Sparse Wg
  images : List UnitImage
  deriving DecidableEq, Repr

/-- A core at reset; `Sparse` stores of cores list no core that is as after reset. -/
def CoreSt.fresh : CoreSt :=
  { copyq := [], chains := [], runs := [], matq := [], govStep := 64, govLimit := 256, busy := 0, busyPrev := 0, bound := 64, window := 0,
    fenced := false, out := false, repair := [0, 0, 0, 0], lastRound := [0, 0, 0, 0] }

def ClusterSt.fresh : ClusterSt := ⟨[], [], []⟩

/-- A daily unit at reset. -/
def Daily.fresh (u : TestUnit) : Daily := ⟨u, false, 0, 0, [], 0#64, none, false⟩

/-- The device right after reset (R9): the reset values of the register tables, no context, no launch, no
cached line; what the manual gives no value is zero (log 2). -/
def State.reset : State :=
  { agenda := []
    tick := 0
    pick := 0
    cur := none
    unit := 0
    strikes := []
    clock := 0#64
    mm :=
      { bytes := [], poison := [], errs := [], unsettled := [], queue := [], uncorr := [], corr := [], last := [], declared := [], served := [],
        regions := List.replicate 64 0#64, memcap := 0xC000000000#40, full := false, mstate := 0, mseg := 0,
        mstack := 0, mapouts := [], segLive := List.replicate 16 0xFFF#12, diePend := List.replicate 12 0#16 }
    cs :=
      { l2 := [], l1 := [], cc := [], tlb := [], stamp := 0, ways := [], weight := List.replicate 8 1#8,
        ceq := 32#6 :: List.replicate 7 0#6, crflush := none, tlbinv := none, tlbVa := 0#64 }
    contexts := []
    logs := List.replicate 8 ⟨[], 0⟩
    host :=
      { evBase := 0#64, evLog := 0, evTail := 0, evHead := 0#64, evLost := 0#16, ctxBase := 0#64, ctxCnt := 0#16,
        cmd := none, cmdStatus := 0#3, ctxArg := 0#64, queues := List.replicate 8 ⟨0#64, 4, 0#32, 0#32⟩,
        winBase := 0#64, winData := 0#64, links := List.replicate 18 ⟨false, 0, 0#8, 0#16⟩,
        peers := List.replicate 16 ⟨false, 0#18, 0#16, 0#14⟩, bootSrc := 0#64, bootStatus := 0#16,
        attNonce := 0#256, attBuf := 0#64, pwrLimit := 3000#12, pwrState := 0#2, pwrReq := false,
        therm := List.replicate 7 0#64, fqSel := 0#16, featCores := 384, featGib := 768 }
    dfs :=
      { mesh := [], dailies := [], dailyEn := true, dailyPeriod := 1000#16, slTag := 0#16, slSrc := 0#4,
        slWpen := false, slConten := true, slArm := true, slMissed := 0#32, slSnap := none,
        slWp := List.replicate 4 (0#64, 0#64), wear := List.replicate 7 0x00FF000000000000#64 }
    cores := []
    clusters := []
    dists := List.replicate 6 ⟨0, none⟩
    launches := []
    wgs := []
    images := [] }

end Sys2Proof.Machine
end

