-- ==== Sys2Proof/Machine/Store.lean ====
section
/-! DEFINITION. Operations on sparse stores, on the bytes of memory, and the accessors of the parts of the
state: thread groups, workgroups, cores, clusters, contexts. Geometry of the package (R10, R11). -/

namespace Sys2Proof.Machine

/-! ### Sparse stores -/

/-- The value at a key, with the value that an unlisted key reads as. -/
def lookD {α : Type} (d : α) : Sparse α → Nat → α
  | [], _ => d
  | (j, v) :: m, k => if j == k then v else lookD d m k

/-- The value listed at a key. -/
def look? {α : Type} : Sparse α → Nat → Option α
  | [], _ => none
  | (j, v) :: m, k => if j == k then some v else look? m k

/-- Remove a key. -/
def del {α : Type} : Sparse α → Nat → Sparse α
  | [], _ => []
  | (j, v) :: m, k => if j == k then del m k else (j, v) :: del m k

/-- List a value at a key, keys rising. -/
def ins {α : Type} : Sparse α → Nat → α → Sparse α
  | [], k, v => [(k, v)]
  | (j, w) :: m, k, v => if j < k then (j, w) :: ins m k v else if j == k then (k, v) :: m else (k, v) :: (j, w) :: m

/-- Store a value; the value an unlisted key reads as is not listed. -/
def put {α : Type} [DecidableEq α] (d : α) (m : Sparse α) (k : Nat) (v : α) : Sparse α :=
  if v = d then del m k else ins m k v

/-- Keys strictly rising. -/
def rising {α : Type} : Sparse α → Bool
  | [] => true
  | [_] => true
  | (j, _) :: (k, w) :: m => decide (j < k) && rising ((k, w) :: m)

/-- The canonical form of a store with default `d`. -/
def Sparse.wf {α : Type} [DecidableEq α] (d : α) (m : Sparse α) : Bool :=
  rising m && m.all fun kv => decide (kv.2 ≠ d)

/-- Key one past the last listed. -/
def freshKey {α : Type} (m : Sparse α) : Nat := m.foldl (fun a kv => max a (kv.1 + 1)) 0

/-- Replace element `i` of a list by a function of it. -/
def updAt {α : Type} (l : List α) (i : Nat) (f : α → α) : List α :=
  match l[i]? with
  | some x => l.set i (f x)
  | none => l

/-- Number of list elements that satisfy a test. -/
def countIf {α : Type} (l : List α) (p : α → Bool) : Nat := (l.filter p).length

/-! ### Bytes of memory -/

/-- What a byte that nothing has written reads as (log 1). -/
def emptyByte : Byte := 0#8

/-- The canonical form of memory. -/
def Memory.wf (m : Memory) : Bool := Sparse.wf emptyByte m

/-- Read a byte. -/
def rdByte (m : Memory) (a : Nat) : Byte := lookD emptyByte m a

/-- Write a byte. -/
def wrByte (m : Memory) (a : Nat) (b : Byte) : Memory := put emptyByte m a b

/-- Read the word at an address, little-endian (R4). -/
def rdWord (m : Memory) (a : Nat) : Word :=
  rdByte m (a + 3) ++ (rdByte m (a + 2) ++ (rdByte m (a + 1) ++ rdByte m a))

/-- Write the word at an address. -/
def wrWord (m : Memory) (a : Nat) (w : Word) : Memory :=
  wrByte (wrByte (wrByte (wrByte m a (byteOf w 0)) (a + 1) (byteOf w 1)) (a + 2) (byteOf w 2)) (a + 3) (byteOf w 3)

/-- Write words at ascending addresses. -/
def wrWords (m : Memory) (a : Nat) : List Word → Memory
  | [] => m
  | w :: ws => wrWords (wrWord m a w) (a + 4) ws

/-- Bits `lo` upward of a number, `n` of them. -/
def bitsAt (x lo n : Nat) : Nat := x / 2 ^ lo % 2 ^ n

/-- The tensor-table entry of a workgroup without an image. -/
def Tensor.zero : Tensor := ⟨0#64, 0#64, 0#64, 0#64, 0#32, 0#32, [], []⟩

/-! ### Geometry -/

/-- Die and cluster of the package of a package core index (R11); what is no core stands on the I/O die. -/
def dieOf (core : Nat) : Nat := min 6 (core / 64)
def clusterOf (core : Nat) : Nat := core / 8

/-! ### Parts of the state -/

def State.wg? (s : State) (n : Nat) : Option Wg := look? s.wgs n

def State.setWg (s : State) (n : Nat) (w : Wg) : State := { s with wgs := ins s.wgs n w }

def State.tg? (s : State) (r : TgRef) : Option Tg := (s.wg? r.wg).bind fun w => w.tgs[r.tg]?

def Wg.setTg (w : Wg) (i : Nat) (g : Tg) : Wg := { w with tgs := w.tgs.set i g }

def State.setTg (s : State) (r : TgRef) (g : Tg) : State :=
  match s.wg? r.wg with
  | some w => s.setWg r.wg (w.setTg r.tg g)
  | none => s

/-- Change a thread group that exists. -/
def State.updTg (s : State) (r : TgRef) (f : Tg → Tg) : State :=
  match s.tg? r with
  | some g => s.setTg r (f g)
  | none => s

/-- Change a workgroup that exists. -/
def State.updWg (s : State) (n : Nat) (f : Wg → Wg) : State :=
  match s.wg? n with
  | some w => s.setWg n (f w)
  | none => s

def State.core (s : State) (n : Nat) : CoreSt := lookD CoreSt.fresh s.cores n

def State.setCore (s : State) (n : Nat) (c : CoreSt) : State := { s with cores := put CoreSt.fresh s.cores n c }

def State.cluster (s : State) (n : Nat) : ClusterSt := lookD ClusterSt.fresh s.clusters n

def State.setCluster (s : State) (n : Nat) (c : ClusterSt) : State :=
  { s with clusters := put ClusterSt.fresh s.clusters n c }

def State.ctx? (s : State) (n : Nat) : Option Context := look? s.contexts n

def State.setCtx (s : State) (n : Nat) (c : Context) : State := { s with contexts := ins s.contexts n c }

def State.launch? (s : State) (n : Nat) : Option Launch := look? s.launches n

def State.setLaunch (s : State) (n : Nat) (l : Launch) : State := { s with launches := ins s.launches n l }

/-- The workgroup holds resources of its core. -/
def Wg.resident (w : Wg) : Bool := w.phase != .saved && w.phase != .done

/-- Scratchpad bytes of a launch: the request rounded up to 64 KiB (R100), and its units of the array. -/
def Sheet.spadBytes (h : Sheet) : Nat := (h.spad + 65535) / 65536 * 65536
def Sheet.spadUnits (h : Sheet) : Nat := h.spadBytes / 65536

/-- Units of a core's array that scratchpad allocations hold; the others are its L1's (R99). -/
def State.spadUnitsOn (s : State) (core : Nat) : List Nat :=
  s.wgs.flatMap fun nw =>
    if nw.2.core == core && nw.2.resident then
      (List.range (((s.launch? nw.2.launch).map fun l => l.sheet.spadUnits).getD 0)).map (nw.2.base + ·)
    else []

/-- References of every thread group of a workgroup. -/
def Wg.refs (w : Wg) (n : Nat) : List TgRef := (List.range w.tgs.length).map fun i => ⟨n, i⟩

/-- References of every resident thread group. -/
def State.allTgs (s : State) : List TgRef := s.wgs.flatMap fun nw => nw.2.refs nw.1

/-- The launch, the context number and the partition of a workgroup. -/
def State.launchOf (s : State) (w : Wg) : Option Launch := s.launch? w.launch

def State.ctxOf (s : State) (w : Wg) : Nat := ((s.launchOf w).map (·.ctx)).getD 0

def State.partOf (s : State) (w : Wg) : Nat := ((s.launchOf w).map (·.part)).getD 0

/-- Fold a state-changing function over a list. -/
def State.each {α : Type} (s : State) (l : List α) (f : State → α → State) : State := l.foldl f s

end Sys2Proof.Machine
end

