-- ==== Sys2Proof/Machine/Codec.lean ====
section
/-! DEFINITION. The codec of transform-coded FP64 regions (R60 to R67, R78): table entries, encoder, decoder
and the error of an encode. Doubles are their 64-bit patterns as numbers. -/

namespace Sys2Proof.Machine

/-! ### Table entries (Table 4.1) -/

/-- The entry held in four doublewords; none when VALID is 0 or a constraint is broken (R61). A reserved bit that is not zero
counts as a broken constraint (log 83). -/
def CrEntry.of (d0 d1 d2 d3 : Nat) : Option CrEntry :=
  let e : CrEntry :=
    { twoD := bitsAt d0 62 1 == 1
      through := bitsAt d0 61 1 == 1
      nfp := bitsAt d0 60 1 == 1
      dbase := bitsAt d0 0 57
      budget := bitsAt d1 56 5
      pitch := bitsAt d1 40 16
      nblk := bitsAt d1 0 40
      pbase := bitsAt d2 0 52 }
  let ok := bitsAt d0 63 1 == 1 && bitsAt d0 57 3 == 0 && e.dbase % 4096 == 0 && bitsAt d1 61 3 == 0 &&
    e.budget ≤ 30 && 1 ≤ e.nblk && bitsAt d2 52 12 == 0 && e.pbase % 64 == 0 && d3 == 0 &&
    (if e.twoD then e.pitch != 0 && e.pitch % 4 == 0 && e.nblk % e.pitch == 0 else e.pitch == 0)
  if ok then some e else none

/-- Bits of one block, bytes of one block, bytes of the decoded region. -/
def CrEntry.bits (e : CrEntry) : Nat := 64 + 32 * e.budget
def CrEntry.bytes (e : CrEntry) : Nat := e.bits / 8
def CrEntry.span (e : CrEntry) : Nat := 128 * e.nblk

/-- Block and value index of the double that holds a byte at offset `o` of the decoded region (R63). -/
def CrEntry.place (e : CrEntry) (o : Nat) : Nat × Nat :=
  let n := o / 8
  if e.twoD then
    let y := n / (4 * e.pitch)
    let x := n % (4 * e.pitch)
    (y / 4 * e.pitch + x / 4, 4 * (y % 4) + x % 4)
  else (n / 16, n % 16)

/-- Blocks of the decoded set of a block (R68): one, or four of one block row. -/
def CrEntry.setBlocks (e : CrEntry) (j : Nat) : List Nat :=
  if e.twoD then (List.range 4).map fun i => j / 4 * 4 + i else [j]

/-- Physical address of the code of a block (R64). -/
def CrEntry.codeAt (e : CrEntry) (j : Nat) : Nat := e.pbase + j * e.bytes

/-- Offset in the decoded region of value i of block j (R63). -/
def CrEntry.valueAt (e : CrEntry) (j i : Nat) : Nat :=
  if e.twoD then 8 * (4 * e.pitch * (4 * (j / e.pitch) + i / 4) + 4 * (j % e.pitch) + i % 4) else 8 * (16 * j + i)

/-! ### Transform -/

def lift4 (a0 a1 a2 a3 : Int) : List Int :=
  let d0 := a0 - a1
  let s0 := a1 + d0 / 2
  let d1 := a2 - a3
  let s1 := a3 + d1 / 2
  let dd := s0 - s1
  [s1 + dd / 2, dd, d0, d1]

def unlift4 (s dd d0 d1 : Int) : List Int :=
  let s1 := s - dd / 2
  let s0 := dd + s1
  let a1 := s0 - d0 / 2
  let a3 := s1 - d1 / 2
  [d0 + a1, a1, d1 + a3, a3]

/-- Apply a step to the four values at the given places. -/
def onFour (f : Int → Int → Int → Int → List Int) (c : List Int) (ix : List Nat) : List Int :=
  match ix with
  | [i, j, k, l] =>
    let r := f (c.getD i 0) (c.getD j 0) (c.getD k 0) (c.getD l 0)
    (((c.set i (r.getD 0 0)).set j (r.getD 1 0)).set k (r.getD 2 0)).set l (r.getD 3 0)
  | _ => c

def rowsOf4 : List (List Nat) := (List.range 4).map fun g => (List.range 4).map fun i => 4 * g + i
def colsOf4 : List (List Nat) := (List.range 4).map fun g => (List.range 4).map fun i => g + 4 * i

def forward (twoD : Bool) (q : List Int) : List Int :=
  let c := rowsOf4.foldl (onFour lift4) q
  if twoD then colsOf4.foldl (onFour lift4) c else c

def inverse (twoD : Bool) (c : List Int) : List Int :=
  let c := if twoD then colsOf4.foldl (onFour unlift4) c else c
  rowsOf4.foldl (onFour unlift4) c

/-- Table 4.2. -/
def codeOrder (twoD : Bool) : List Nat :=
  if twoD then [0, 1, 4, 5, 2, 8, 3, 12, 6, 9, 7, 13, 10, 14, 11, 15]
  else [0, 4, 8, 12, 1, 5, 9, 13, 2, 6, 10, 14, 3, 7, 11, 15]

def scaleG (twoD : Bool) : Nat := if twoD then 1083 else 1084

/-! ### Encoder (R65) -/

/-- Bits of a number, most significant first. -/
def putBits (v n : Nat) : List Bool := (List.range n).map fun i => v.testBit (n - 1 - i)

/-- Unary search of one group: bits sent and the position found. -/
def unaryScan (w : List Int) (p : Nat) : List Nat → List Bool × Option Nat
  | [] => ([], none)
  | k :: ks =>
    let x := w.getD k 0
    if x.natAbs.testBit p then ([true, decide (x < 0)], some k)
    else
      let (bs, f) := unaryScan w p ks
      (false :: bs, f)

/-- The group tests of one plane: bits sent and the significant positions after it. -/
def groupTests (w : List Int) (p : Nat) : Nat → List Nat → Nat → List Bool × List Nat
  | 0, sig, _ => ([], sig)
  | fuel + 1, sig, pos =>
    let rest := (List.range 16).filter fun k => pos ≤ k && !sig.contains k
    if rest.isEmpty then ([], sig)
    else
      match unaryScan w p rest with
      | (_, none) => ([false], sig)
      | (bs, some k) =>
        let (more, sig') := groupTests w p fuel ((List.range 16).filter fun j => sig.contains j || j == k) (k + 1)
        (true :: bs ++ more, sig')

/-- Planes p − 1 down to 0, until at least `need` bits are sent. -/
def planes (w : List Int) (need : Nat) : Nat → List Nat → List Bool
  | 0, _ => []
  | p + 1, sig =>
    let refine := sig.map fun k => (w.getD k 0).natAbs.testBit p
    let (tests, sig') := groupTests w p 17 sig 0
    let here := refine ++ tests
    if need ≤ here.length then here else here ++ planes w (need - here.length) p sig'

def isNonFinite (x : Nat) : Bool := bitsAt x 52 11 == 2047
def isZero64 (x : Nat) : Bool := bitsAt x 0 63 == 0

/-- Signed integer q of a double at scale 2^(G − E). -/
def scaledInt (g e x : Nat) : Int :=
  let f := bitsAt x 52 11
  let m := bitsAt x 0 52 + (if f == 0 then 0 else 2 ^ 52)
  -- value = m · 2^(max f 1 − 1075)
  let k : Int := (max f 1 : Nat) - 1075 + g - e
  let q := if 0 ≤ k then m * 2 ^ k.toNat else m / 2 ^ (-k).toNat
  if bitsAt x 63 1 == 1 then -(q : Int) else q

/-- The code of a block as B bits, with the number of non-finite values replaced. -/
def encodeBlock (twoD : Bool) (b : Nat) (xs : List Nat) : List Bool × Nat :=
  let nf := countIf xs isNonFinite
  let x := xs.map fun v => if isNonFinite v then 0 else v
  let code :=
    if x.all isZero64 then [false]
    else
      let e := (x.map fun v => if isZero64 v then 0 else max (bitsAt v 52 11) 1).foldl max 0
      let c := forward twoD (x.map (scaledInt (scaleG twoD) e))
      let w := (codeOrder twoD).map fun i => c.getD i 0
      true :: putBits e 11 ++ planes w b 63 []
  ((code ++ List.replicate b false).take b, nf)

/-! ### Decoder (R67) -/

/-- What the decoder has read: rest of the code, End met, magnitudes, last planes and signs by position. -/
structure Decoding where
  code : List Bool
  stop : Bool
  mag : List Nat
  last : List Nat
  neg : List Bool
  sig : List Nat

/-- Refinement bits of plane p. -/
def refineBits (p : Nat) : List Nat → Decoding → Decoding
  | [], d => d
  | k :: ks, d =>
    match d.code with
    | [] => { d with stop := true }
    | b :: bs =>
      refineBits p ks { d with
        code := bs
        mag := d.mag.set k (d.mag.getD k 0 + (if b then 2 ^ p else 0))
        last := d.last.set k p }

/-- Unary search: the position found, if any. -/
def scanBits (p : Nat) : List Nat → Decoding → Decoding × Option Nat
  | [], d => (d, none)
  | k :: ks, d =>
    match d.code with
    | [] => ({ d with stop := true }, none)
    | false :: bs => scanBits p ks { d with code := bs }
    | [true] => ({ d with code := [], stop := true }, none)
    | true :: sg :: bs =>
      ({ d with
        code := bs
        neg := d.neg.set k sg
        mag := d.mag.set k (2 ^ p)
        last := d.last.set k p
        sig := (List.range 16).filter fun j => d.sig.contains j || j == k }, some k)

/-- The group tests of one plane; a test of 1 whose unary steps are all 0, which no encoder sends, is followed by another of the
same positions. Each reads a bit, so the length of the code bounds them. -/
def decodeTests (p : Nat) : Nat → Nat → Decoding → Decoding
  | 0, _, d => d
  | fuel + 1, pos, d =>
    let rest := (List.range 16).filter fun k => pos ≤ k && !d.sig.contains k
    if rest.isEmpty then d
    else
      match d.code with
      | [] => { d with stop := true }
      | false :: bs => { d with code := bs }
      | true :: bs =>
        match scanBits p rest { d with code := bs } with
        | (d', some k) => if d'.stop then d' else decodeTests p fuel (k + 1) d'
        | (d', none) => if d'.stop then d' else decodeTests p fuel pos d'

def decodePlanes : Nat → Decoding → Decoding
  | 0, d => d
  | p + 1, d =>
    let d1 := refineBits p d.sig d
    if d1.stop then d1
    else
      let d2 := decodeTests p (d1.code.length + 1) 0 d1
      if d2.stop then d2 else decodePlanes p d2

/-- Number whose bits, most significant first, are given. -/
def bitsVal (bs : List Bool) : Nat := bs.foldl (fun a b => 2 * a + b.toNat) 0

/-- `ToBinary64(q · 2^k)`: nearest-even, the largest finite value beyond, +0 for zero. -/
def toBinary64 (q : Int) (k : Int) : Nat :=
  let r := (roundTo (.ieee .f64) ⟨0, true⟩ 0 (Val.scaled (decide (q < 0)) q.natAbs k)).bits
  if isZero64 r then 0 else r

/-- The 16 values of a code; none for a malformed header (R75). -/
def decodeBlock (twoD : Bool) (code : List Bool) : Option (List Nat) :=
  match code with
  | [] => none
  | false :: _ => some (List.replicate 16 0)
  | true :: rest =>
    let e := bitsVal (rest.take 11)
    if e == 0 || e == 2047 then none
    else
      let d := decodePlanes 63 ⟨rest.drop 11, false, List.replicate 16 0, List.replicate 16 0,
        List.replicate 16 false, []⟩
      let w : List Int := (List.range 16).map fun k =>
        if d.sig.contains k then
          let l := d.last.getD k 0
          let m := d.mag.getD k 0 + (if 0 < l then 2 ^ (l - 1) else 0)
          if d.neg.getD k false then -(m : Int) else m
        else 0
      let c := (List.range 16).map fun i => w.getD ((codeOrder twoD).idxOf i) 0
      some ((inverse twoD c).map fun q => toBinary64 q ((e : Int) - scaleG twoD))

/-! ### Error of an encode (R78) -/

/-- A finite double in units of 2^−1074. -/
def unitsOf (x : Nat) : Int :=
  let f := bitsAt x 52 11
  let m := (bitsAt x 0 52 + (if f == 0 then 0 else 2 ^ 52)) * 2 ^ (max f 1 - 1)
  if bitsAt x 63 1 == 1 then -(m : Int) else m

/-- The double nearest a number of units, ties to even. -/
def ofUnits (n : Nat) : Nat := (roundTo (.ieee .f64) ⟨0, false⟩ 0 (Val.scaled false n (-1074))).bits

/-- The largest finite double, and +∞. -/
def maxFinite64 : Nat := 0x7FEFFFFFFFFFFFFF
def inf64 : Nat := 0x7FF0000000000000

/-- What an error sum reads as: +∞ as soon as it lies above the largest finite value. -/
def sumOf (n : Nat) : Nat := if (unitsOf maxFinite64).toNat < n then inf64 else ofUnits n

/-- Error of an encode of `xs` (after replacement) that decodes to `ys`. -/
def encodeError (xs ys : List Nat) : Nat :=
  ofUnits ((List.zipWith (fun x y => (unitsOf x - unitsOf y).natAbs) xs ys).foldl max 0)

/-- Counters after an encode with error `e` and `nf` replaced values. -/
def CrCounters.add (c : CrCounters) (e nf : Nat) : CrCounters :=
  { sum := c.sum + (unitsOf e).natAbs
    max := if unitsOf c.max.toNat < unitsOf e then BitVec.ofNat 64 e else c.max
    count := c.count + 1#64
    nonfin := BitVec.ofNat 32 (min 0xFFFFFFFF (c.nonfin.toNat + nf)) }

/-- Words of a code: bit k of the code is bit k mod 8 of byte k/8 (R64). -/
def codeWords (code : List Bool) : List Word :=
  let n := code.length / 32
  (List.range n).map fun i => BitVec.ofNat 32 (packEls 1 ((List.range 32).map fun k =>
    (code.getD (32 * i + k) false).toNat))

/-- Bits of a code held in words. -/
def wordsCode (ws : List Word) : List Bool :=
  ws.flatMap fun w => (List.range 32).map fun k => w.toNat.testBit k

end Sys2Proof.Machine
end

