-- ==== Sys2Proof/Machine/LineCode.lean ====
section
/-! DEFINITION. The Reed-Solomon line code of main memory (R44): arithmetic of GF(2^8), syndromes of an error
pattern, and the bounded-distance decoder of Table 3.1. The code is linear, so the outcome of a decode depends
only on the difference between the stored symbols and the codeword that was written. -/

namespace Sys2Proof.Machine

/-- Multiplication by the root α of x^8 + x^4 + x^3 + x^2 + 1. -/
def gfDouble (a : Nat) : Nat := if a < 128 then 2 * a else Nat.xor (2 * a) 0x11D

def gfMulAux : Nat → Nat → Nat → Nat
  | 0, _, _ => 0
  | n + 1, a, b => Nat.xor (if b % 2 == 1 then a else 0) (gfMulAux n (gfDouble a) (b / 2))

/-- Product in GF(2^8). -/
def gfMul (a b : Nat) : Nat := gfMulAux 8 a b

def gfPow (a : Nat) : Nat → Nat
  | 0 => 1
  | n + 1 => gfMul a (gfPow a n)

/-- Inverse of a nonzero element: its 254th power. -/
def gfInv (a : Nat) : Nat :=
  let a2 := gfMul a a
  let a4 := gfMul a2 a2
  let a8 := gfMul a4 a4
  let a16 := gfMul a8 a8
  let a32 := gfMul a16 a16
  let a64 := gfMul a32 a32
  let a128 := gfMul a64 a64
  gfMul a2 (gfMul a4 (gfMul a8 (gfMul a16 (gfMul a32 (gfMul a64 a128)))))

def gfSum (l : List Nat) : Nat := l.foldl Nat.xor 0

/-- Locator of symbol j of n: α^(n−1−j). -/
def locator (n j : Nat) : Nat := gfPow 2 (n - 1 - j)

/-- The m syndromes of an error pattern of an n-symbol codeword. -/
def syndromes (n m : Nat) (err : List (Nat × Byte)) : List Nat :=
  (List.range m).map fun i => gfSum (err.map fun e => gfMul e.2.toNat (gfPow (locator n e.1) i))

/-- Solve a square linear system given as rows with the right side last. -/
def gfSolve : Nat → List (List Nat) → Option (List Nat)
  | 0, _ => some []
  | k + 1, rows =>
    match rows.find? fun r => r.headD 0 != 0 with
    | none => none
    | some piv =>
      let inv := gfInv (piv.headD 0)
      let p := piv.map (gfMul inv)
      let rest := (rows.erase piv).map fun r =>
        (List.zipWith (fun x y => Nat.xor x (gfMul (r.headD 0) y)) r p).tail
      match gfSolve k rest with
      | none => none
      | some xs =>
        let rhs := p.getLastD 0
        let mid := (p.tail).dropLast
        some (gfSum (rhs :: List.zipWith gfMul mid xs) :: xs)

/-- Errors of `v` symbols with the given syndromes, if some exist. -/
def errorsOf (n : Nat) (syn : List Nat) (v : Nat) : Option (List (Nat × Byte)) :=
  let sy (i : Nat) : Nat := syn.getD i 0
  -- locator polynomial x^v + λ1 x^(v−1) + … + λv
  match gfSolve v ((List.range v).map fun i => ((List.range v).map fun j => sy (i + v - 1 - j)) ++ [sy (i + v)]) with
  | none => none
  | some lam =>
    let value (x : Nat) : Nat :=
      gfSum (gfPow x v :: (List.range v).map fun j => gfMul (lam.getD j 0) (gfPow x (v - 1 - j)))
    let pos := (List.range n).filter fun j => value (locator n j) == 0
    if pos.length != v then none
    else
      match gfSolve v ((List.range v).map fun i => (pos.map fun j => gfPow (locator n j) i) ++ [sy i]) with
      | none => none
      | some es =>
        let err := List.zipWith (fun j e => (j, BitVec.ofNat 8 e)) pos es
        if es.all (· != 0) && syndromes n syn.length err == syn then some err else none

/-- One more error of a symbol: errors of one symbol add up. -/
def addError (sym : Nat) (err : Byte) : List (Nat × Byte) → List (Nat × Byte)
  | [] => if err == 0#8 then [] else [(sym, err)]
  | e :: es => if e.1 == sym then (if e.2 == err then es else (sym, e.2 ^^^ err) :: es) else e :: addError sym err es

/-- What the decoder makes of an error pattern: the errors that remain in the word it returns, with whether it
corrected any symbol; none when it detects more than it can correct (Table 3.2). -/
def lineDecode (ganged : Bool) (all : List (Nat × Byte)) : Option (List (Nat × Byte) × Bool) :=
  let n := if ganged then 72 else 36
  let err := all.filter fun e => decide (e.1 < n)
  let m := if ganged then 6 else 3
  let syn := syndromes n m err
  if syn.all (· == 0) then some (err, false)
  else
    match (List.range (if ganged then 3 else 1)).findSome? fun v => errorsOf n syn (v + 1) with
    | none => none
    | some fix =>
      let at_ (l : List (Nat × Byte)) (j : Nat) : Byte := ((l.find? fun e => e.1 == j).map (·.2)).getD 0#8
      some (((List.range n).map fun j => (j, at_ err j ^^^ at_ fix j)).filter fun e => e.2 != 0#8, true)

end Sys2Proof.Machine
end

