-- ==== Sys2Proof/Machine/MemSys.lean ====
section
/-! DEFINITION. Main memory and its homes: events and error records (R371, R372, R469, R474), the slate trigger
(R452), atoms of main memory (R41 to R53), L2 lines and their replacement (R82 to R87), decoded sets of coded
regions (R68 to R76). -/

namespace Sys2Proof.Machine

/-! ### Physical addresses (R52, R82, R83) -/

def mainTop : Nat := 0xC000000000
def isMain (pa : Nat) : Bool := decide (pa < mainTop)
def isHost (pa : Nat) : Bool := decide (2 ^ 51 ≤ pa) && decide (pa < 2 ^ 52)

def segBytes : Nat := 0xC00000000
def segOf (pa : Nat) : Nat := pa / segBytes

/-- Live stacks of a segment, ascending. -/
def liveStacks (s : State) (k : Nat) : List Nat :=
  (List.range 12).filter fun i => (s.mm.segLive.getD k 0#12).getLsbD i

/-- Stack that holds the block of an address. -/
def stackOf (s : State) (pa : Nat) : Nat :=
  let l := liveStacks s (segOf pa)
  l.getD (pa % segBytes / 4096 % max 1 l.length) 0

/-- The address lies in a DRAM die that serves it (R53). -/
def populated (s : State) (pa : Nat) : Bool :=
  decide (pa % segBytes < (liveStacks s (segOf pa)).length * 2 ^ 32) && !(s.mm.mstate == 2 && s.mm.mseg == segOf pa)

/-- Home die, home slice of the package and set within it. -/
def homeDie (s : State) (pa : Nat) : Nat := stackOf s pa / 2

def sliceHash (pa : Nat) : Nat :=
  [bitsAt pa 7 6, bitsAt pa 13 6, bitsAt pa 19 6, bitsAt pa 25 6, bitsAt pa 31 6, bitsAt pa 37 6, bitsAt pa 43 6,
    bitsAt pa 49 3].foldl Nat.xor 0

def sliceOf (s : State) (pa : Nat) : Nat := 64 * homeDie s pa + sliceHash pa
def setOf (pa : Nat) : Nat := bitsAt pa 13 9

/-! ### Lists of words and byte masks -/

/-- Replace `n` words from index `i`. -/
def setWords (l : List CWord) (i : Nat) : List CWord → List CWord
  | [] => l
  | w :: ws => setWords (l.set i w) (i + 1) ws

/-- Merge words under a byte mask (R22), word `k` of the data over word `i + k` of the line. -/
def mergeWords (l : List CWord) (i : Nat) (mask : Nat) : List CWord → List CWord
  | [] => l
  | w :: ws => mergeWords (l.set i (mergeWord (l.getD i .zero) w (mask % 16))) (i + 1) (mask / 16) ws

/-- Mask of `n` bytes from byte `o`. -/
def byteMask (o n : Nat) : Nat := (2 ^ n - 1) * 2 ^ o

/-- Every bit of `a` is set in `b`. -/
def maskSub (a b : Nat) : Bool := Nat.land a b == a

/-- Bits of `a` that are not set in `b`. -/
def maskDiff (a b : Nat) : Nat := a - Nat.land a b

/-! ### Events and records -/

/-- The L2 line that holds an address of main memory uncoded. -/
def L2Line.holds (ln : L2Line) (pa : Nat) : Bool := ln.coded == none && ln.line == pa / 128

/-- Write words at a physical address as the I/O die does: into the L2 line where one is held, else into
memory; an address that no die serves takes nothing (log 23). -/
def poke (s : State) (pa : Nat) (ws : List CWord) : State :=
  if isMain pa && s.cs.l2.any (·.holds pa) then
    let upd (ln : L2Line) : L2Line :=
      if ln.holds pa then
        { ln with
          words := setWords ln.words (pa % 128 / 4) ws
          valid := Nat.lor ln.valid (byteMask (pa % 128) (4 * ws.length))
          dirty := Nat.lor ln.dirty (byteMask (pa % 128) (4 * ws.length)) }
      else ln
    { s with cs := { s.cs with l2 := s.cs.l2.map upd } }
  else if (isMain pa && populated s pa) || isHost pa then
    { s with mm := { s.mm with
        bytes := wrWords s.mm.bytes pa (ws.map (·.data))
        poison := s.mm.poison.filter fun i => i < pa / 4 || pa / 4 + ws.length ≤ i } }
  else s

/-- The two words of a doubleword with their codes. -/
def dwWords (x : Nat) : List CWord := (wordsOf 64 x).map CWord.of

/-- Post an event to the host ring (R469). The ring's counters are taken modulo 2^48 (log 23). -/
def postEvent (s : State) (kind part info : Nat) : State :=
  let h := s.host
  let used := (h.evTail + 2 ^ 48 - h.evHead.toNat % 2 ^ 48) % 2 ^ 48
  if h.evBase == 0#64 || 2 ^ h.evLog ≤ used then { s with host := { h with evLost := h.evLost + 1#16 } }
  else
    let dw0 := kind % 256 + part % 8 * 2 ^ 8 + info % 2 ^ 48 * 2 ^ 16
    let s1 := poke s (h.evBase.toNat + 16 * (h.evTail % 2 ^ h.evLog)) (dwWords dw0 ++ dwWords s.clock.toNat)
    { s1 with host := { s1.host with evTail := (h.evTail + 1) % 2 ^ 48 } }

/-- CORE field of a record that no core's access raised. -/
def noCore : Nat := 0x1FF

/-- Append a deferred error record (R371, Table 15.7). -/
def appendRecord (s : State) (part kind core unit addr info0 info1 : Nat) : State :=
  let lg := s.logs.getD part ⟨[], 0⟩
  if 256 ≤ lg.recs.length then
    { s with logs := s.logs.set part { lg with lost := min 0xFFFF (lg.lost + 1) } }
  else
    let dw0 := kind % 256 * 2 ^ 56 + part % 8 * 2 ^ 53 + core % 512 * 2 ^ 44 + unit % 4096 * 2 ^ 32 +
      s.clock.toNat % 2 ^ 32
    let r : ErrRec := ⟨BitVec.ofNat 64 dw0, BitVec.ofNat 64 addr, BitVec.ofNat 64 info0, BitVec.ofNat 64 info1⟩
    postEvent { s with logs := s.logs.set part { lg with recs := lg.recs ++ [r] } } 0x0A part kind

/-- UNIT of a structure of a core's cluster (Table 15.10). -/
def clusterUnit (core : Nat) : Nat := 0x200 + clusterOf core

/-- Check words on entry to a check point of Table 15.10: a word that fails becomes Poison and raises a record
of kind 0x01 (R19, R474). -/
def checkIn (s : State) (point unit part core addr : Nat) : List CWord → State × List CWord
  | [] => (s, [])
  | w :: ws =>
    let s1 := if w.passes then s else appendRecord s part 0x01 core unit addr point 0
    let (s2, out) := checkIn s1 point unit part core (addr + 4) ws
    (s2, w.entered :: out)

/-- A write of some bytes of a word fails the check of its merge (R22). -/
def mergeFails (old new : CWord) (mask : Nat) : Bool :=
  mask % 16 != 15 && mask % 16 != 0 && !old.bad && !new.bad && (mergeWord old new (mask % 16)).bad

/-- Records of the failed merges of some words written over those of a line from word `i` (R19, R22). -/
def checkMerge (s : State) (point unit part core addr : Nat) (l : List CWord) (i mask : Nat) : List CWord → State
  | [] => s
  | w :: ws =>
    let s1 := if mergeFails (l.getD i .zero) w mask then appendRecord s part 0x01 core unit addr point 0 else s
    checkMerge s1 point unit part core (addr + 4) l (i + 1) (mask / 16) ws

/-- Carry words from one die to a structure at another: the first mesh router checks them, then the structure
(R16, R18). `from_` and `dest` are dies, the I/O die being 6. -/
def carry (s : State) (from_ dest point unit part core addr : Nat) (ws : List CWord) : State × List CWord :=
  let (s1, ws1) := if from_ == dest then (s, ws) else checkIn s 5 (0x400 + from_) part core addr ws
  checkIn s1 point unit part core addr ws1

/-! ### Slate (R452) -/

/-- A trigger that finds ARM 0 fires in the cycle of the snapshot: a count of the clock has several cycles, so it may (log 4). -/
def sameCycle (s : State) : Bool := s.dfs.slSnap == some s.clock && Config.freeBit s.tick 598

/-- A trigger of the snapshot's own cycle joins it: TAG is that of the first source in order; of two instructions, that of the lower
core, which the snapshot does not name. -/
def joinSlate (s : State) (src : Nat) (tag : Nat) : DefSt :=
  let d := s.dfs
  let first := d.slSrc.toNat % 2 ^ src == 0 && (!d.slSrc.getLsbD src || Config.freeBit s.tick 597)
  { d with slSrc := d.slSrc ||| BitVec.ofNat 4 (2 ^ src), slTag := if first then BitVec.ofNat 16 tag else d.slTag }

/-- The trigger fires from a source (bit number in SRC) with a tag. -/
def fireSlate (s : State) (src : Nat) (tag : Nat) : State :=
  let d := s.dfs
  if d.slArm then
    { s with dfs := { d with slArm := false, slSrc := BitVec.ofNat 4 (2 ^ src), slTag := BitVec.ofNat 16 tag,
                             slSnap := some s.clock } }
  else if sameCycle s then { s with dfs := joinSlate s src tag }
  else { s with dfs := { d with slMissed := if d.slMissed == 0xFFFFFFFF#32 then d.slMissed else d.slMissed + 1#32 } }

/-- The watchpoint that a write of the bytes of a mask meets, among `n` bytes. -/
def watchHit (s : State) (pa mask n : Nat) : Option Nat :=
  if !s.dfs.slWpen then none
  else (List.range 4).find? fun i =>
    match s.dfs.slWp.getD i (0#64, 0#64) with
    | (b, l) => b.getLsbD 63 && (List.range n).any fun k =>
        mask.testBit k && decide (bitsAt b.toNat 0 52 ≤ pa + k) && decide (pa + k ≤ bitsAt l.toNat 0 52)

/-- A write at a home fires the slate when it meets a watchpoint. -/
def watch (s : State) (pa mask n : Nat) : State :=
  match watchHit s pa mask n with
  | some i => fireSlate s 3 i
  | none => s

/-! ### Atoms (R42 to R53) -/

/-- The address belongs to a ganged region (R50). -/
def ganged (s : State) (pa : Nat) : Bool :=
  let g := pa / 2 ^ 30
  match s.mm.regions.find? fun e => e.getLsbD 63 && decide (bitsAt e.toNat 0 22 ≤ g) && decide (g ≤ bitsAt e.toNat 22 22) with
  | some e => e.getLsbD 62
  | none => true

def atomBytes (s : State) (pa : Nat) : Nat := if ganged s pa then 64 else 32
def atomOf (s : State) (pa : Nat) : Nat := pa / atomBytes s pa * atomBytes s pa

/-- Key of a DRAM die in the counts. -/
def dieKey (s : State) (pa : Nat) : Nat := 16 * stackOf s pa + segOf pa

/-- Pseudo-channel of an atom; the lower of the two of a ganged atom (R43). -/
def pseudoChannel (s : State) (a : Nat) : Nat :=
  let i := a % 4096 / atomBytes s a
  if ganged s a then 2 * (i % 32) else i % 64

/-- INFO0 of a memory record of a stack (Table 15.7). -/
def memInfo (s : State) (stack a mask : Nat) : Nat :=
  mask % 2 ^ 16 + pseudoChannel s a * 2 ^ 16 + segOf a * 2 ^ 22 + stack * 2 ^ 26

/-- Record of a stack's controller (Table 3.6). -/
def stackRecord (s : State) (stack part kind core a mask : Nat) : State :=
  appendRecord s part kind core stack a (memInfo s stack a mask) 0

/-- Record of the controller that serves an atom; for an offset that lies in no die the stack is the one that R52 computes
(log 82). -/
def memRecord (s : State) (part kind core a mask : Nat) : State := stackRecord s (stackOf s a) part kind core a mask

/-- The atom's contents are unpredictable. -/
def unsettledAt (s : State) (a : Nat) : Option Unsettled :=
  s.mm.unsettled.find? fun u => decide (u.lo ≤ a) && decide (a < u.hi)

/-- Words of an atom as stored, before decoding. -/
def storedWords (s : State) (a n : Nat) : List CWord :=
  (List.range n).map fun i =>
    let w := rdWord s.mm.bytes (a + 4 * i)
    if s.mm.poison.contains (a / 4 + i) then .poisoned w else .of w

/-- Symbol errors that stay in a word and mask after a decode. -/
def applyErrs (n : Nat) (err : List (Nat × Byte)) (ws : List CWord) : List CWord :=
  let byteErr (j : Nat) : Byte := ((err.find? fun e => e.1 == j).map (·.2)).getD 0#8
  let maskErr (i : Nat) : Bool := (byteErr (4 * n + i / 8)).getLsbD (i % 8)
  (ws.zip (List.range n)).map fun wi =>
    let d : Word := wi.1.data ^^^ (byteErr (4 * wi.2 + 3) ++ (byteErr (4 * wi.2 + 2) ++ (byteErr (4 * wi.2 + 1) ++
      byteErr (4 * wi.2))))
    if wi.1.bad != maskErr wi.2 then .poisoned d else .of d

/-- Store words as an atom: the data, the poison mask and fresh check symbols. -/
def storeAtom (s : State) (a : Nat) (ws : List CWord) : State :=
  let lo := a / 4
  let hi := lo + ws.length
  let bad := ((List.range ws.length).filter fun i => (ws.getD i .zero).bad).map (lo + ·)
  let cut (u : Unsettled) : List Unsettled :=
    if u.hi ≤ a || a + 4 * ws.length ≤ u.lo then [u]
    else [{ u with hi := a }, { u with lo := a + 4 * ws.length }].filter fun v => decide (v.lo < v.hi)
  { s with mm := { s.mm with
      bytes := wrWords s.mm.bytes a (ws.map (·.data))
      poison := (s.mm.poison.filter fun i => i < lo) ++ bad ++ s.mm.poison.filter fun i => hi ≤ i
      errs := del s.mm.errs a
      unsettled := s.mm.unsettled.flatMap cut } }

/-- Count an uncorrectable or a corrected atom of its die (R54). -/
def countAtom (s : State) (fixed : Bool) (a : Nat) : State :=
  let k := dieKey s a
  let up (m : Sparse Nat) : Sparse Nat := put 0 m k (lookD 0 m k + 1)
  { s with mm := { s.mm with
      uncorr := if fixed then s.mm.uncorr else up s.mm.uncorr
      corr := if fixed then up s.mm.corr else s.mm.corr
      last := put 0 s.mm.last k a } }

/-- Decode an atom (R46): its words, or none when it is uncorrectable. Corrections are counted and written
back. -/
def decodeAtom (s : State) (a : Nat) : State × Option (List CWord) :=
  let n := atomBytes s a / 4
  let (ws, lost) := match unsettledAt s a with
    | some u => ((List.range n).map fun i => CWord.of (Config.freeWord u.tick (a / 4 + i)), u.loose && Config.freeBit u.tick a)
    | none => (storedWords s a n, false)
  if lost then (countAtom s false a, none)
  else
    match look? s.mm.errs a with
    | none => (s, some ws)
    | some err =>
      match lineDecode (ganged s a) err with
      | none => (countAtom s false a, none)
      | some (rest, corrected) =>
        let ws := applyErrs n rest ws
        if corrected then
          (storeAtom (countAtom s true a) a ws, some ws)
        else (s, some ws)

/-- Read a whole atom (R46, R53). The data bits of the Poison words that an uncorrectable or unserved atom returns are the stored
bits without the error (log 81). -/
def atomRead (s : State) (part core a : Nat) : State × List CWord :=
  let n := atomBytes s a / 4
  let bad := (storedWords s a n).map fun w => CWord.poisoned w.data
  if !populated s a then (memRecord s part 0x13 core a (2 ^ n - 1), bad)
  else
    match decodeAtom s a with
    | (s1, some ws) => (s1, ws)
    | (s1, none) => (memRecord s1 part 0x11 core a (2 ^ n - 1), bad)

/-- Words that a write brings to a controller and that fail their check on entry (R45). -/
def entryFails (mask : Nat) : List CWord → Nat
  | [] => 0
  | w :: ws => (if w.passes || mask % 16 == 0 then 0 else 1) + entryFails (mask / 16) ws

/-- What a write of some bytes leaves in an atom whose read half is uncorrectable (R48); bytes of a lost word that are not written
are zero (log 81). -/
def lostMerge (n mask : Nat) (ins : List CWord) : List CWord :=
  (List.range n).map fun i =>
    let w := ins.getD i .zero
    if mask / 16 ^ i % 16 == 15 then w else .poisoned (mergeWord (.of 0#32) (.of w.data) (mask / 16 ^ i % 16)).data

/-- The poison mask of the words of an atom (Table 3.1). -/
def poisonMask (ws : List CWord) : Nat := ((ws.zip (List.range ws.length)).map fun wi => if wi.1.bad then 2 ^ wi.2 else 0).sum

/-- Write bytes of one atom (R45, R47, R48, R53): a whole atom, or a read-modify-write. A word that fails its check on entry
becomes Poison with a record of kind 0x10; the records hold the mask that is written (R58). -/
def atomWrite (s : State) (part core a mask : Nat) (ws : List CWord) : State :=
  let n := atomBytes s a / 4
  if !populated s a then memRecord s part 0x13 core a 0
  else
    let ins := ws.map CWord.entered
    let (s1, out, lost) :=
      if maskSub (byteMask 0 (4 * n)) mask then (s, ins, false)
      else
        match decodeAtom s a with
        | (s', some old) => (s', mergeWords old 0 mask ins, false)
        | (s', none) => (s', lostMerge n mask ins, true)
    let s2 := (List.range (entryFails mask ws)).foldl (fun s _ => memRecord s part 0x10 core a (poisonMask out)) s1
    storeAtom (if lost then memRecord s2 part 0x12 core a (poisonMask out) else s2) a out

/-! ### Bandwidth weights (R88) -/

/-- Partitions that have a request waiting at the controller of a stack. -/
def competing (s : State) (stack : Nat) : List Nat :=
  (List.range 8).filter fun p => s.mm.queue.any fun q => stackOf s q.atom == stack && q.part == p

def weightOf (s : State) (p : Nat) : Nat := (s.cs.weight.getD p 0#8).toNat

/-- Key of the atoms served for p while p and q compete. -/
def shareKey (stack p q : Nat) : Nat := 64 * stack + 8 * p + q

/-- One more atom for partition p keeps p and q within their weights: over any interval the excess of either is at most the 16
atoms of R88, here as 8 on either side of the balance, counted in atoms of the lighter of the two (log 36). -/
def balanced (s : State) (stack p q : Nat) : Bool :=
  let mine := (lookD 0 s.mm.served (shareKey stack p q) + 1) * weightOf s q
  let theirs := lookD 0 s.mm.served (shareKey stack q p) * weightOf s p
  decide (mine ≤ theirs + 8 * max (weightOf s p) (weightOf s q))

/-- The controller may serve a request of partition p: none of nonzero weight waits before one of weight 0, and competing
partitions stay within their weights. -/
def weightAllows (s : State) (stack p : Nat) : Bool :=
  ((competing s stack).filter (· != p)).all fun q =>
    weightOf s q == 0 || (weightOf s p != 0 && balanced s stack p q)

/-- The counts at a controller after it has served an atom for partition p, the partitions `before` having competed: a pair that
no longer competes starts again. -/
def countServed (s : State) (stack p : Nat) (before : List Nat) : State :=
  let after := competing s stack
  let pairs := (List.range 8).flatMap fun x => (List.range 8).map fun y => (x, y)
  let upd (m : Sparse Nat) (xy : Nat × Nat) : Sparse Nat :=
    let k := shareKey stack xy.1 xy.2
    if xy.1 == xy.2 || !(after.contains xy.1 && after.contains xy.2) then put 0 m k 0
    else if xy.1 == p && before.contains xy.2 then put 0 m k (lookD 0 m k + 1) else m
  { s with mm := { s.mm with served := pairs.foldl upd s.mm.served } }

/-! ### Requests in the controllers -/

/-- Fill the bytes of an L2 line that are not valid. -/
def fillLine (ln : L2Line) (i : Nat) (ws : List CWord) : L2Line :=
  let have_ (k : Nat) : Bool := bitsAt ln.valid (4 * (i + k)) 4 == 15
  let idx := List.range ws.length
  { ln with
    words := idx.foldl (fun l k => if have_ k then l
        else l.set (i + k) (mergeWord (ws.getD k .zero) (l.getD (i + k) .zero) (bitsAt ln.valid (4 * (i + k)) 4))) ln.words
    valid := Nat.lor ln.valid (byteMask (4 * i) (4 * ws.length)) }

/-- Serve one request: an atom write, or an atom read that fills the waiting line. -/
def serveReq (s : State) (q : McReq) : State :=
  if q.write then atomWrite s q.part q.core q.atom q.mask q.words
  else
    let (s1, ws) := atomRead s q.part q.core q.atom
    let upd (ln : L2Line) : L2Line := if ln.holds q.atom then fillLine ln (q.atom % 128 / 4) ws else ln
    { s1 with cs := { s1.cs with l2 := s1.cs.l2.map upd } }

/-- Serve every waiting request for one atom, in order (R49). -/
def drainAtom (s : State) (a : Nat) : State :=
  let before := competing s (stackOf s a)
  let (mine, rest) := s.mm.queue.partition fun q => q.atom == a
  mine.foldl (fun s q => countServed (serveReq s q) (stackOf s a) q.part before) { s with mm := { s.mm with queue := rest } }

/-- Append a request to the controllers' queue. -/
def enqueue (s : State) (q : McReq) : State := { s with mm := { s.mm with queue := s.mm.queue ++ [q] } }

/-- Atoms that some words from an address lie in, ascending. -/
def atomsOf (s : State) (pa n : Nat) : List Nat := ((List.range n).map fun i => atomOf s (pa + 4 * i)).eraseDups

/-- Read `n` words of memory past the L2, each atom once, serving what waits for it first. -/
def memRead (s : State) (part core pa n : Nat) : State × List CWord :=
  let (s1, ws) := (atomsOf s pa n).foldl (fun (x : State × List CWord) a =>
    let (s', ws) := atomRead (drainAtom x.1 a) part core a
    (s', x.2 ++ ws)) (s, [])
  (s1, (ws.drop ((pa - atomOf s pa) / 4)).take n)

/-- Write words of memory past the L2 under a byte mask, each atom once. -/
def memWrite (s : State) (part core pa mask : Nat) (ws : List CWord) : State :=
  (atomsOf s pa ws.length).foldl (fun s a =>
    -- the words of the atom, after `pre` words that the write does not reach
    let n := atomBytes s a / 4
    let pre := (pa - a) / 4
    let skip := (a - pa) / 4
    let m := mask / 16 ^ skip * 16 ^ pre % 16 ^ n
    if m == 0 then s
    else atomWrite (drainAtom s a) part core a m ((List.replicate pre CWord.zero ++ ws.drop skip).take n)) s

/-- Some words from an address, by lines: at most two, for no more words than a line has. -/
def wordSegs (pa n : Nat) : List (Nat × Nat) :=
  let first := min n ((128 - pa % 128) / 4)
  (pa, first) :: if n ≤ first then [] else [(pa + 4 * first, n - first)]

/-! ### L2 lines (R85 to R87) -/

/-- WAYS of a partition in a slice (Table 5.2). -/
def waysOf (s : State) (slice part : Nat) : BitVec 16 :=
  lookD (if part == 0 then 0xFFFF#16 else 0#16) s.cs.ways (8 * slice + part)

/-- OCC of a partition in a slice. -/
def occupancy (s : State) (slice part : Nat) : Nat :=
  countIf s.cs.l2 fun ln => ln.slice == slice && ln.owner == part

/-- The least recently used of some lines. -/
def lru : List L2Line → Option L2Line
  | [] => none
  | l :: ls =>
    match lru ls with
    | none => some l
    | some m => if l.stamp ≤ m.stamp then some l else some m

/-- The way that a miss of partition `part` fills, by the order of R85; none when its mask is zero. -/
def victimWay (s : State) (slice set part : Nat) : Option Nat :=
  let mask := waysOf s slice part
  let here := s.cs.l2.filter fun ln => ln.slice == slice && ln.set == set
  let mine := (List.range 16).filter fun w => mask.getLsbD w
  match mine.find? fun w => here.all fun ln => ln.way != w with
  | some w => some w
  | none =>
    let cand := here.filter fun ln => mask.getLsbD ln.way
    match lru (cand.filter fun ln => !(waysOf s slice ln.owner).getLsbD ln.way) with
    | some ln => some ln.way
    | none => (lru cand).map (·.way)

/-- Queue the write-back of the dirty bytes of an uncoded line, atom by atom. -/
def writeBack (s : State) (ln : L2Line) : State :=
  let base := 128 * ln.line
  let sz := atomBytes s base
  (List.range (128 / sz)).foldl (fun s k =>
    let m := bitsAt ln.dirty (sz * k) sz
    if m == 0 then s
    else enqueue s ⟨true, base + sz * k, (ln.words.drop (sz / 4 * k)).take (sz / 4), m, ln.owner, noCore⟩) s

/-! ### Decoded sets (R68 to R76) -/

/-- Lines of the decoded set that holds a line of the region. -/
def CodedTag.setLines (t : CodedTag) : List Nat :=
  let (j, _) := t.entry.place (128 * t.line)
  ((t.entry.setBlocks j).flatMap fun b => (List.range 16).map fun i => t.entry.valueAt b i / 128).eraseDups

/-- Blocks of that set. -/
def CodedTag.blocks (t : CodedTag) : List Nat := t.entry.setBlocks (t.entry.place (128 * t.line)).1

/-- The line belongs to the same decoded set. -/
def CodedTag.sameSet (t u : CodedTag) : Bool := t.ctx == u.ctx && t.ix == u.ix && t.setLines.contains u.line

/-- Words of value i of block j among decoded lines. -/
def valueWords (e : CrEntry) (ls : List (Nat × List CWord)) (j i : Nat) : List CWord :=
  let o := e.valueAt j i
  match ls.find? fun l => l.1 == o / 128 with
  | some l => (l.2.drop (o % 128 / 4)).take 2
  | none => []

/-- Home slice of the decoded set of a block, whose codec works on it (R68, R76). -/
def CrEntry.homeSlice (s : State) (e : CrEntry) (j : Nat) : Nat := sliceOf s (e.codeAt ((e.setBlocks j).headD 0))

/-- Codec operations that disagree: used up from the pending upsets; true when the repeat disagrees too
(R76). -/
def codecFails (s : State) : State × Bool :=
  match s.strikes.find? fun u => match u with | .codec _ => true | _ => false with
  | some (.codec n) => ({ s with strikes := s.strikes.erase (.codec n) }, decide (2 ≤ n))
  | _ => (s, false)

/-- Write the words of a code: into L2 where a line is held, else past it. The codec's accesses to code bytes refresh no recency and
fill no way (log 84). -/
def writeCode (s : State) (part core pa : Nat) (ws : List CWord) : State :=
  (wordSegs pa ws.length).foldl (fun s x =>
    let part_ := (ws.drop ((x.1 - pa) / 4)).take x.2
    if s.cs.l2.any (·.holds x.1) then poke s x.1 part_ else memWrite s part core x.1 (byteMask 0 (4 * x.2)) part_) s

/-- Encode block j from decoded lines and write its code (R71, R74 to R76, R78). -/
def encodeOut (s : State) (part core : Nat) (t : CodedTag) (ls : List (Nat × List CWord)) (j : Nat) : State :=
  let e := t.entry
  let vals := (List.range 16).map (valueWords e ls j)
  let n := e.bits / 32
  let slice := e.homeSlice s j
  let out (s : State) (ws : List CWord) : State := watch (writeCode s part core (e.codeAt j) ws) (e.codeAt j) (byteMask 0 (4 * n)) (4 * n)
  let (s1, fails) := codecFails s
  if vals.any anyBad || fails then
    let s2 := if fails then appendRecord s1 part 0x20 core slice (e.codeAt j) 0 0 else s1
    out s2 (List.replicate n (.poisoned 0#32))
  else
    let xs := vals.map valOf
    let (code, nf) := encodeBlock e.twoD e.bits xs
    let ys := (decodeBlock e.twoD code).getD []
    let err := encodeError (xs.map fun v => if isNonFinite v then 0 else v) ys
    let s2 := if e.nfp && nf != 0 then appendRecord s1 part 0x21 core slice (e.codeAt j) 0 0 else s1
    let s3 := match s2.ctx? t.ctx with
      | some c =>
        let k := lookD ⟨0, 0#64, 0#64, 0#32⟩ c.counters t.ix
        s2.setCtx t.ctx { c with counters := put ⟨0, 0#64, 0#64, 0#32⟩ c.counters t.ix (k.add err nf) }
      | none => s2
    out s3 ((codeWords code).map CWord.of)

/-- Block j of decoded lines has dirty bytes. -/
def blockDirty (e : CrEntry) (ls : List L2Line) (j : Nat) : Bool :=
  (List.range 16).any fun i =>
    let o := e.valueAt j i
    ls.any fun ln => ((ln.coded.map (·.line)).getD 0 == o / 128) && bitsAt ln.dirty (o % 128) 8 != 0

/-- Remove a line from the L2; a decoded line takes its whole set with it, dirty blocks encoded (R68, R71,
R85). -/
def evictLine (s : State) (ln : L2Line) : State :=
  match ln.coded with
  | none => writeBack { s with cs := { s.cs with l2 := s.cs.l2.erase ln } } ln
  | some t =>
    let mine (x : L2Line) : Bool := (x.coded.map t.sameSet).getD false
    let ls := s.cs.l2.filter mine
    let s1 := { s with cs := { s.cs with l2 := s.cs.l2.filter fun x => !mine x } }
    let dec := ls.filterMap fun x => x.coded.map fun u => (u.line, x.words)
    (t.blocks.filter (blockDirty t.entry ls)).foldl (fun s j => encodeOut s ln.owner noCore t dec j) s1

/-- Place a line in the L2 for a partition; nothing is placed when its mask is zero. -/
def placeLine (s : State) (slice set part : Nat) (ln : L2Line) : State :=
  match victimWay s slice set part with
  | none => s
  | some w =>
    let s1 := match s.cs.l2.find? fun x => x.slice == slice && x.set == set && x.way == w with
      | some old => evictLine s old
      | none => s
    { s1 with cs := { s1.cs with
        stamp := s1.cs.stamp + 1
        l2 := s1.cs.l2 ++ [{ ln with slice := slice, set := set, way := w, owner := part, stamp := s1.cs.stamp + 1 }] } }

/-- An L2 line without a byte. -/
def emptyL2 (line : Nat) (tag : Option CodedTag) : L2Line :=
  ⟨0, 0, 0, line, tag, 0, List.replicate 32 .zero, 0, 0, 0⟩

/-- Refresh the recency of the lines that a test names. -/
def touchLines (s : State) (p : L2Line → Bool) : State :=
  { s with cs := { s.cs with
      stamp := s.cs.stamp + 1
      l2 := s.cs.l2.map fun ln => if p ln then { ln with stamp := s.cs.stamp + 1 } else ln } }

/-- Replace the line that holds an address. -/
def updLine (s : State) (pa : Nat) (f : L2Line → L2Line) : State :=
  { s with cs := { s.cs with l2 := s.cs.l2.map fun ln => if ln.holds pa then f ln else ln } }

/-- The line that holds an address. -/
def lineAt (s : State) (pa : Nat) : Option L2Line := s.cs.l2.find? (·.holds pa)

/-- Fill every byte of the held line from memory at once. -/
def completeLine (s : State) (part core pa : Nat) : State :=
  let (s1, ws) := memRead s part core (pa / 128 * 128) 32
  updLine s1 pa fun ln => fillLine ln 0 ws

/-! ### Accesses at a home -/

/-- A miss of a partition fills a way: its mask is not zero (R85), and a die serves the address, for the controller handles an
address of no die or of a rebuilding segment (R53). -/
def fills (s : State) (part pa : Nat) : Bool := populated s pa && waysOf s (sliceOf s pa) part != 0#16

/-- Read `n` words (within one line) of main memory at the home, filling the line at once on a miss (R85). -/
def homeRead (s : State) (part core pa n : Nat) : State × List CWord :=
  let words (s : State) : List CWord := match lineAt s pa with
    | some ln => (ln.words.drop (pa % 128 / 4)).take n
    | none => []
  match lineAt s pa with
  | some ln =>
    let s1 := touchLines s (·.holds pa)
    let s2 := if maskSub (byteMask (pa % 128) (4 * n)) ln.valid then s1 else completeLine s1 part core pa
    (s2, words s2)
  | none =>
    if !fills s part pa then memRead s part core pa n
    else
      let s1 := completeLine (placeLine s (sliceOf s pa) (setOf pa) part (emptyL2 (pa / 128) none)) part core pa
      (s1, words s1)

/-- Some word of a write is partial and not all its bytes are held. -/
def needsFill (valid pa mask n : Nat) : Bool :=
  (List.range n).any fun i =>
    let m := mask / 16 ^ i % 16
    m != 0 && m != 15 && bitsAt valid (pa % 128 + 4 * i) 4 != 15

/-- Write words (within one line) of main memory at the home under a byte mask (R85). -/
def homeWrite (s : State) (part core pa mask : Nat) (ws : List CWord) : State :=
  let put_ (s : State) : State :=
    let valid := ((lineAt s pa).map (·.valid)).getD 0
    let s1 := if needsFill valid pa mask ws.length then completeLine s part core pa else s
    let s2 := checkMerge s1 2 (sliceOf s pa) part core pa (((lineAt s1 pa).map (·.words)).getD []) (pa % 128 / 4) mask ws
    updLine s2 pa fun ln =>
      { ln with
        words := mergeWords ln.words (pa % 128 / 4) mask ws
        valid := Nat.lor ln.valid (mask * 2 ^ (pa % 128))
        dirty := Nat.lor ln.dirty (mask * 2 ^ (pa % 128)) }
  let s1 := match lineAt s pa with
    | some _ => put_ (touchLines s (·.holds pa))
    | none =>
      if !fills s part pa then memWrite s part core pa mask ws
      else put_ (placeLine s (sliceOf s pa) (setOf pa) part (emptyL2 (pa / 128) none))
  watch s1 pa mask (4 * ws.length)

/-- Whether an access at the home hits: the line holds every byte named. -/
def homeHits (s : State) (pa mask : Nat) : Bool :=
  match lineAt s pa with
  | some ln => maskSub (mask * 2 ^ (pa % 128)) ln.valid
  | none => false

/-- The miss of a read: a way is filled in the order of R85 and the atoms are requested. -/
def homeMiss (s : State) (part core pa : Nat) : State :=
  let s1 := match lineAt s pa with
    | some _ => touchLines s (·.holds pa)
    | none => placeLine s (sliceOf s pa) (setOf pa) part (emptyL2 (pa / 128) none)
  let base := pa / 128 * 128
  let sz := atomBytes s1 base
  (List.range (128 / sz)).foldl (fun s k =>
    let q : McReq := ⟨false, base + sz * k, [], 0, part, core⟩
    if s.mm.queue.contains q then s else enqueue s q) s1

/-! ### Decoded accesses -/

/-- Decode block j into its 32 words; Poison for a bad code (R75, R76). Code bytes are read from a held line or past the L2
(log 84). -/
def decodeIn (s : State) (part core : Nat) (e : CrEntry) (j : Nat) : State × List CWord :=
  let n := e.bits / 32
  let bad : List CWord := List.replicate 32 (.poisoned 0#32)
  let read (s : State) (pa k : Nat) : State × List CWord :=
    match lineAt s pa with
    | some ln =>
      let s' := if maskSub (byteMask (pa % 128) (4 * k)) ln.valid then s else completeLine s part core pa
      (s', (((lineAt s' pa).map fun l => l.words.drop (pa % 128 / 4)).getD []).take k)
    | none => memRead s part core pa k
  let (s1, ws) := (wordSegs (e.codeAt j) n).foldl (fun (x : State × List CWord) y =>
    let (s', ws) := read x.1 y.1 y.2
    (s', x.2 ++ ws)) (s, [])
  let (s2, fails) := codecFails s1
  if fails then (appendRecord s2 part 0x20 core (e.homeSlice s j) (e.codeAt j) 0 0, bad)
  else if anyBad ws then (s2, bad)
  else
    match decodeBlock e.twoD (wordsCode (ws.map (·.data))) with
    | some ys => (s2, ys.flatMap dwWords)
    | none => (appendRecord s2 part 0x23 core (e.homeSlice s j) (e.codeAt j) 0 0, bad)

/-- Decode some blocks and lay their values over decoded lines. -/
def decodeOver (s : State) (part core : Nat) (e : CrEntry) (js : List Nat) (ls : List (Nat × List CWord)) :
    State × List (Nat × List CWord) :=
  js.foldl (fun (acc : State × List (Nat × List CWord)) j =>
    let (s1, ws) := decodeIn acc.1 part core e j
    let fill (l : Nat × List CWord) : Nat × List CWord :=
      (l.1, (List.range 16).foldl (fun l' i =>
        let o := e.valueAt j i
        if o / 128 == l.1 then setWords l' (o % 128 / 4) ((ws.drop (2 * i)).take 2) else l') l.2)
    (s1, acc.2.map fill)) (s, ls)

/-- Decode every block of the set of a line: its lines with their words. -/
def decodeSet (s : State) (part core : Nat) (t : CodedTag) : State × List (Nat × List CWord) :=
  decodeOver s part core t.entry t.blocks (t.setLines.map fun l => (l, List.replicate 32 .zero))

/-- The line of the decoded region with the tag. -/
def L2Line.decodes (t : CodedTag) (ln : L2Line) : Bool :=
  match ln.coded with
  | some u => u.ctx == t.ctx && u.ix == t.ix && u.line == t.line
  | none => false

/-- Every code byte of the set of a line lies where a die serves it (R53). -/
def CodedTag.served (s : State) (t : CodedTag) : Bool :=
  t.blocks.all fun j => populated s (t.entry.codeAt j) && populated s (t.entry.codeAt j + t.entry.bytes - 1)

/-- Bring the decoded set of a line into its home slice; nothing when the mask has too few ways, or no die serves its code. -/
def fillSet (s : State) (part core : Nat) (t : CodedTag) : State :=
  if s.cs.l2.any (·.decodes t) then touchLines s fun ln => (ln.coded.map t.sameSet).getD false
  else
    let first := t.entry.codeAt (t.blocks.headD 0)
    let slice := sliceOf s first
    if popcount 16 (waysOf s slice part).toNat < t.setLines.length || !t.served s then s
    else
      let (s1, ls) := decodeSet s part core t
      ls.foldl (fun s l => placeLine s slice (setOf first) part
        { emptyL2 l.1 (some { t with line := l.1 }) with words := l.2, valid := 2 ^ 128 - 1 }) s1

/-- Words of a decoded line at the home. -/
def codedWords (s : State) (part core : Nat) (t : CodedTag) : State × List CWord :=
  let s1 := fillSet s part core t
  match s1.cs.l2.find? (·.decodes t) with
  | some ln => (s1, ln.words)
  | none =>
    let (s2, ls) := decodeSet s1 part core t
    (s2, ((ls.find? fun l => l.1 == t.line).map (·.2)).getD [])

/-- Words for a decoded line: the line's number, index of the first word in it, byte mask, words. -/
structure CodedWrite where
  line : Nat
  i : Nat
  mask : Nat
  ws : List CWord

/-- The words of a line after the writes that name it. -/
def mergeCoded (ups : List CodedWrite) (line : Nat) (l : List CWord) : List CWord :=
  (ups.filter fun u => u.line == line).foldl (fun l u => mergeWords l u.i u.mask u.ws) l

/-- Merge words into a decoded set at the home (R70 to R72): kept dirty in a write-back region, encoded and
replaced, block by block, by what decodes in an encode-through region or where the set has no room. `t` names a line of the set. -/
def codedMergeSet (s : State) (part core : Nat) (t : CodedTag) (ups : List CodedWrite) : State :=
  let s1 := fillSet s part core t
  let held := s1.cs.l2.any (·.decodes t)
  let touched := (ups.flatMap fun u => (List.range u.ws.length).map fun k => (t.entry.place (128 * u.line + 4 * (u.i + k))).1).eraseDups
  if held && !t.entry.through then
    let dirt (line : Nat) : Nat := (ups.filter fun u => u.line == line).foldl (fun d u => Nat.lor d (u.mask * 2 ^ (4 * u.i))) 0
    let upd (ln : L2Line) : L2Line :=
      match ln.coded with
      | some u => if t.sameSet u then { ln with words := mergeCoded ups u.line ln.words, dirty := Nat.lor ln.dirty (dirt u.line) } else ln
      | none => ln
    { s1 with cs := { s1.cs with l2 := s1.cs.l2.map upd } }
  else
    let (s2, ls0) := if held then
        (s1, (s1.cs.l2.filter fun ln => (ln.coded.map t.sameSet).getD false).filterMap fun x =>
          x.coded.map fun u => (u.line, x.words))
      else decodeSet s1 part core t
    let ls := ls0.map fun l => (l.1, mergeCoded ups l.1 l.2)
    let s3 := touched.foldl (fun s j => encodeOut s part core t ls j) s2
    if held then
      let (s4, new) := decodeOver s3 part core t.entry touched ls
      let upd (ln : L2Line) : L2Line :=
        match ln.coded with
        | some u =>
          if t.sameSet u then { ln with words := ((new.find? fun l => l.1 == u.line).map (·.2)).getD ln.words }
          else ln
        | none => ln
      { s4 with cs := { s4.cs with l2 := s4.cs.l2.map upd } }
    else s3

/-- Merge words into one decoded line at the home. -/
def codedMergeAt (s : State) (part core : Nat) (t : CodedTag) (i mask : Nat) (ws : List CWord) : State :=
  codedMergeSet s part core t [⟨t.line, i, mask, ws⟩]

/-- Encode the dirty blocks of a decoded set that a test names; their bytes become clean (R140). -/
def encodeDirty (s : State) (part core : Nat) (t : CodedTag) (p : Nat → Bool) : State :=
  let mine (x : L2Line) : Bool := (x.coded.map t.sameSet).getD false
  let ls := s.cs.l2.filter mine
  let dec := ls.filterMap fun x => x.coded.map fun u => (u.line, x.words)
  let js := t.blocks.filter fun j => p j && blockDirty t.entry ls j
  let s1 := js.foldl (fun s j => encodeOut s part core t dec j) s
  let clean (x : L2Line) : L2Line :=
    { x with dirty := js.foldl (fun d j => (List.range 16).foldl (fun d i =>
        let o := t.entry.valueAt j i
        if (x.coded.map (·.line)).getD 0 == o / 128 then maskDiff d (byteMask (o % 128) 8) else d) d) x.dirty }
  { s1 with cs := { s1.cs with l2 := s1.cs.l2.map fun x => if mine x then clean x else x } }

/-- Drop a decoded set before a raw write of some of its blocks: the other dirty blocks are encoded (R140). -/
def dropSet (s : State) (part core : Nat) (t : CodedTag) (written : Nat → Bool) : State :=
  let s1 := encodeDirty s part core t fun j => !written j
  { s1 with cs := { s1.cs with l2 := s1.cs.l2.filter fun x => !(x.coded.map t.sameSet).getD false } }

end Sys2Proof.Machine
end

