-- ==== Sys2Proof/Machine/Translate.lean ====
section
/-! DEFINITION. Address translation (R91 to R98): page walks, TLBs, permission checks in the order of Table 5.5,
coded-region entries (R59 to R62), and the fault queue of a context. -/

namespace Sys2Proof.Machine

/-- Read words at a physical address through the L2 home, or from host memory (R83, R93). -/
def physRead (s : State) (part core pa n : Nat) : State × List CWord :=
  if isMain pa then homeRead s part core pa n
  else (s, (List.range n).map fun i => .of (rdWord s.mm.bytes (pa + 4 * i)))

/-- Words of the L2 home at `die` as they come to the I/O die: that die's mesh router checks them (R18). -/
def toIoDie (s : State) (part die pa : Nat) (ws : List CWord) : State × List CWord := checkIn s 5 (0x400 + die) part noCore pa ws

/-- Read words for the I/O die at a physical address of main or host memory. -/
def ioHome (s : State) (part pa n : Nat) : State × List CWord :=
  let (s1, ws) := physRead s part noCore pa n
  if isMain pa then toIoDie s1 part (homeDie s pa) pa ws else (s1, ws)

/-! ### Cached translations (R93) -/

/-- The TLBs that an agent uses: its core's L1 TLB, its cluster's L2 TLB, the walker cache of its die. The I/O die, which has
no cluster, keeps one of its own. -/
def l2Tlb (core : Nat) : Nat := if core < 384 then 384 + clusterOf core else core
def walkerDie (core : Nat) : Nat := if core < 384 then dieOf core else 0
def walkerTlb (core : Nat) : Nat := 432 + walkerDie core

/-- Entries that a TLB holds; the manual gives the walker caches no size. -/
def tlbSize (unit : Nat) : Option Nat := if unit < 384 then some 512 else if unit < 432 then some 16384 else none

/-- Pages of 4 KiB that an entry maps. -/
def TlbEntry.span (t : TlbEntry) : Nat := if t.level == 0 then (if bitsAt t.pte 9 1 == 1 then 16 else 1) else 512 ^ t.level

/-- Hold an entry: a full TLB loses the one that the turn picks. -/
def tlbPut (s : State) (e : TlbEntry) : State :=
  let mine := s.cs.tlb.filter fun t => t.unit == e.unit
  let keep := match tlbSize e.unit with
    | some n => if n ≤ mine.length then (match mine[s.pick % mine.length]? with | some v => s.cs.tlb.erase v | none => s.cs.tlb)
                else s.cs.tlb
    | none => s.cs.tlb
  { s with cs := { s.cs with tlb := e :: keep } }

/-- The leaf that a TLB holds for a page. -/
def tlbIn (s : State) (unit ctx va : Nat) : Option TlbEntry :=
  s.cs.tlb.find? fun t => t.unit == unit && t.ctx == ctx && t.page == va / 4096

/-- The leaf held for a page: in the L1 TLB, else in the L2 TLB. -/
def tlbFind (s : State) (core ctx va : Nat) : Option TlbEntry := (tlbIn s core ctx va).or (tlbIn s (l2Tlb core) ctx va)

/-- Hold a leaf in the L2 TLB and the L1 TLB, where they do not hold it. -/
def tlbFill (s : State) (core ctx va e level : Nat) : State :=
  let add (s : State) (unit : Nat) : State :=
    if (tlbIn s unit ctx va).isSome then s else tlbPut s ⟨unit, ctx, va / 4096, e, level⟩
  add (add s (l2Tlb core)) core

/-- An entry that raised a fault is not held. -/
def tlbDrop (s : State) (core ctx va : Nat) : State :=
  { s with cs := { s.cs with tlb := s.cs.tlb.filter fun t =>
      !((t.unit == core || t.unit == l2Tlb core) && t.ctx == ctx && t.page == va / 4096) } }

/-- The entry of a table above a page, if the walkers of the die hold it. -/
def walkHeld (s : State) (core ctx va level : Nat) : Option Nat :=
  (s.cs.tlb.find? fun t => t.unit == walkerTlb core && t.ctx == ctx && t.level == level && t.page == va / 4096 / 512 ^ level * 512 ^ level).map
    (·.pte)

/-- The walkers hold an entry read with VALID 1 that is no leaf. -/
def walkKeep (s : State) (core ctx va level e : Nat) : State :=
  if (walkHeld s core ctx va level).isSome then s
  else tlbPut s ⟨walkerTlb core, ctx, va / 4096 / 512 ^ level * 512 ^ level, e, level⟩

/-! ### Page walks -/

/-- Read words for a page walker or a coded-region lookup, line by line, with the check on entry (Table 15.10, code 11). -/
def walkerRead (s : State) (part core pa n : Nat) : State × List CWord :=
  let d := walkerDie core
  (wordSegs pa n).foldl (fun (x : State × List CWord) y =>
    let (s1, ws) := physRead x.1 part core y.1 y.2
    let (s2, ins) := carry s1 (if isMain y.1 then homeDie s1 y.1 else 6) d 11 (0xC00 + d) part core y.1 ws
    (s2, x.2 ++ ins)) (s, [])

/-- Outcome of a walk: the leaf entry and its level, or cause, level and entry of the fault. -/
inductive Walk where
  | leaf (pte level : Nat)
  | fault (cause level pte : Nat)
  deriving DecidableEq, Repr

/-- A field of a page-table entry (Table 5.4). -/
def pteValid (e : Nat) : Bool := bitsAt e 0 1 == 1
def pteLeaf (e : Nat) : Bool := bitsAt e 1 1 == 1
def pteFrame (e : Nat) : Nat := bitsAt e 12 40
def pteCoded (e : Nat) : Bool := bitsAt e 8 1 == 1
def pteSz64 (e : Nat) : Bool := bitsAt e 9 1 == 1

/-- Format of a present leaf at a level (R92, Table 5.5 code 0x2), 64 KiB groups apart. -/
def leafOk (e level : Nat) : Bool :=
  bitsAt e 61 3 == 0 && bitsAt e 10 2 == 0 && bitsAt e 6 2 != 3 && (pteCoded e || bitsAt e 52 6 == 0) &&
    (level == 0 || !pteSz64 e) && (pteCoded e || level == 0 || bitsAt (pteFrame e) 0 (9 * level) == 0)

/-- The sixteen entries of a 64 KiB page agree but for frames that ascend from an even one (R91). -/
def group64Ok (es : List Nat) : Bool :=
  let e0 := es.headD 0
  let strip (e : Nat) : Nat := e - pteFrame e * 4096
  (pteCoded e0 || pteFrame e0 % 16 == 0) &&
    (List.range es.length).all fun i =>
      strip (es.getD i 0) == strip e0 && (pteCoded e0 || pteFrame (es.getD i 0) == pteFrame e0 + i)

/-- Doublewords of words. -/
def dwsOf : List CWord → List Nat
  | a :: b :: ws => (a.data.toNat + 2 ^ 32 * b.data.toNat) :: dwsOf ws
  | _ => []

/-- Walk from a table at a level down to a leaf (R91 to R93, R95); an entry above a leaf comes from the walker cache, or enters
it. -/
def walkFrom (s : State) (part core ctx va : Nat) : Nat → Nat → State × Walk
  | level, table =>
    let at_ := table + 8 * bitsAt va (12 + 9 * level) 9
    let held := walkHeld s core ctx va level
    if held.isNone && !(isMain at_ || isHost at_) then (s, .fault 8 level 0)
    else
      let (s1, ws) := match held with
        | some e => (s, dwWords e)
        | none => walkerRead s part core at_ 2
      let e := valOf ws
      if anyBad ws then (s1, .fault 1 level e)
      else if !pteValid e then (s1, .fault 3 level e)
      else if pteLeaf e then
        if 3 ≤ level || !leafOk e level then (s1, .fault 2 level e)
        else if pteSz64 e then
          let base := at_ / 128 * 128
          let (s2, gs) := walkerRead s1 part core base 32
          if anyBad gs then (s2, .fault 1 level e)
          else if group64Ok (dwsOf gs) then (s2, .leaf e level) else (s2, .fault 2 level e)
        else (s1, .leaf e level)
      else
        match level with
        | 0 => (s1, .fault 2 0 e)
        | l + 1 =>
          if e == pteFrame e * 4096 + 1 then walkFrom (walkKeep s1 core ctx va level e) part core ctx va l (pteFrame e * 4096)
          else (s1, .fault 2 level e)

/-- Access classes of Table 5.7: what an access of the class needs. -/
def classReads (cls : Nat) : Bool := cls == 0 || cls == 2 || cls == 4 || cls == 6
def classWrites (cls : Nat) : Bool := cls == 1 || cls == 2 || cls == 5 || cls == 7

/-- Where an access goes. -/
inductive Xlat where
  /-- Physical address and page kind; the tag when the page is coded, `pa` being the offset in the region. -/
  | to (pa : Nat) (page : PageKind) (coded : Option CodedTag)
  | fault (cause level pte : Nat)
  deriving DecidableEq, Repr

/-- Walk for an address, or take the held translation. -/
def lookupPage (s : State) (core ctx va : Nat) (c : Context) : State × Walk :=
  match tlbFind s core ctx va with
  | some t => (s, .leaf t.pte t.level)
  | none => walkFrom s c.part core ctx va 4 c.root

/-- Physical address of a leaf (R91). -/
def leafAddr (e level va : Nat) : Nat :=
  let n := 12 + 9 * level
  pteFrame e * 4096 / 2 ^ n * 2 ^ n + va % 2 ^ n

def kindOf (e : Nat) : PageKind := if bitsAt e 6 2 == 1 then .so else if bitsAt e 6 2 == 2 then .uo else .rc

/-- The coded-region entry of an index: none when a word of it is Poison or fails its check (R62). The low two bits of the table's
address take no part, and a table outside main and host memory reads as zeros, which are an invalid entry (log 83). -/
def readCrEntry (s : State) (core : Nat) (c : Context) (ix : Nat) : State × Option (Option CrEntry) :=
  let (s1, ws) := walkerRead s c.part core (c.crtab + 32 * ix) 8
  if anyBad ws then (s1, none)
  else
    let d := dwsOf ws
    (s1, some (CrEntry.of (d.getD 0 0) (d.getD 1 0) (d.getD 2 0) (d.getD 3 0)))

/-- Judge an access of `n` bytes of a class by the leaf of its page (Table 5.5, first row that applies). -/
def judgeLeaf (s : State) (core ctx : Nat) (c : Context) (super : Bool) (cls va n e level : Nat) : State × Xlat :=
  let (s1, cr) : State × Option (Option CrEntry) :=
    if pteCoded e then readCrEntry s core c (bitsAt e 52 6) else (s, some none)
  if cr == none then (s1, .fault 1 level e)
  else if bitsAt e 58 3 != c.part then (s1, .fault 4 level e)
  else if (bitsAt e 5 1 == 1 && !super) || (cls == 3 && bitsAt e 4 1 == 0) ||
      (classReads cls && bitsAt e 2 1 == 0) then (s1, .fault 5 level e)
  else if classWrites cls && bitsAt e 3 1 == 0 then (s1, .fault 6 level e)
  else if pteCoded e then
    match cr.join with
    | none => (s1, .fault 7 level e)
    | some r =>
      if va < r.dbase || r.dbase + r.span < va + n then (s1, .fault 7 level e)
      else if !isMain (r.pbase + r.nblk * r.bytes - 1) then (s1, .fault 8 level e)
      else (s1, .to (va - r.dbase) (kindOf e) (some ⟨ctx, bitsAt e 52 6, (va - r.dbase) / 128, r⟩))
  else
    let pa := leafAddr e level va
    if isHost pa then (s1, .to pa .host none)
    else if isMain pa then (s1, .to pa (kindOf e) none)
    else (s1, .fault 8 level e)

/-- Translate an access of `n` bytes of a class at a virtual address: the TLBs hold the leaf of a translation that succeeds, and
no leaf that raises a fault (R93, R95). -/
def translate (s : State) (core ctx : Nat) (super : Bool) (cls va n : Nat) : State × Xlat :=
  match s.ctx? ctx with
  | none => (s, .fault 3 4 0)
  | some c =>
    match lookupPage s core ctx va c with
    | (s1, .fault cause level e) => (s1, .fault cause level e)
    | (s1, .leaf e level) =>
      match judgeLeaf s1 core ctx c super cls va n e level with
      | (s2, .fault cause level e) => (tlbDrop s2 core ctx va, .fault cause level e)
      | (s2, .to pa page coded) => (tlbFill s2 core ctx va e level, .to pa page coded)

/-- Causes of Table 5.5 that a waiting agent may outlive. -/
def replayable (cause : Nat) : Bool := cause == 3 || cause == 6

/-- The wait of an agent on the page of a replayable fault. -/
def pageWait (va cls cause level pte lane : Nat) : PageWait := ⟨va, cls, cause, level, pte, lane, 1#64 <<< lane⟩

/-! ### Fault queues (R96, R98) -/

/-- Record one page wait of an agent in the context's fault queue. -/
def recordFault (s : State) (ctx agent slot core : Nat) (w : PageWait) : State :=
  match s.ctx? ctx with
  | none => s
  | some c =>
    let q := c.faults
    let same (r : FaultRec) : Bool := r.unresolved && r.va / 4096 == w.va / 4096 && r.cls == w.cls
    let q' : FaultQueue :=
      if q.recs.any same then
        { q with recs := q.recs.map fun r => if same r then { r with count := min 0xFFFFFFFF (r.count + 1) } else r }
      else if 4096 ≤ q.recs.length then { q with ovf := true }
      else { q with recs := q.recs ++ [⟨w.va, 1, agent, slot, core, w.cause, w.level, w.cls, w.pte, s.clock.toNat, true⟩] }
    s.setCtx ctx { c with faults := q' }

/-- Waits in order of thread with one wait for each page and class (R96). -/
def mergeWaits (ws : List PageWait) : List PageWait :=
  ws.foldl (fun acc w => if acc.any fun v => v.va / 4096 == w.va / 4096 && v.cls == w.cls then acc else acc ++ [w]) []

def recordFaults (s : State) (ctx agent slot core : Nat) (ws : List PageWait) : State :=
  (mergeWaits ws).foldl (fun s w => recordFault s ctx agent slot core w) s

/-- Doublewords of a fault record (Table 5.7). -/
def FaultRec.dws (r : FaultRec) : List Nat :=
  [r.va, r.count * 2 ^ 32 + r.agent * 2 ^ 26 + r.slot * 2 ^ 20 + r.core * 2 ^ 11 + r.cause * 2 ^ 7 + r.level * 2 ^ 3 + r.cls,
    r.pte, r.time]

end Sys2Proof.Machine
end

