-- ==== Sys2Proof/Machine/Atomics.lean ====
section
/-! DEFINITION. The arithmetic of atomics (R310 to R312) and the accesses of cores and engines at the L1, the L2
home and the I/O die (R81, R83, R300, R321, R322, R326, R327). -/

namespace Sys2Proof.Machine

/-! ### Atomic operations -/

/-- Elements of an atomic type: format or integer type, width. -/
def atomInt (ty : AtomTy) : Option IntTy :=
  match ty with
  | .s32 => some .s32
  | .n32 => some .n32
  | .s64 => some .s64
  | .n64 => some .n64
  | _ => none

def atomFloat (ty : AtomTy) : FloatTy :=
  match ty with
  | .f64 => .f64
  | .f32 => .f32
  | .f16x2 => .f16
  | _ => .bf16

/-- New value of one float element: exact sum to nearest-even whatever the mode, or a choice of R229. -/
def atomFloatEl (t : FloatTy) (op : AtomOp) (x y : Nat) : Nat :=
  let f := Fmt.ieee t
  match op with
  | .add => (roundTo f ⟨0, false⟩ 0 (Val.add 0 (f.val x) (f.val y))).bits
  | .min => fchoose false f x y
  | .max => fchoose true f x y
  | _ => y

/-- New value of an atomic (R310). -/
def atomNew (ty : AtomTy) (op : AtomOp) (old b : Nat) : Nat :=
  match atomInt ty with
  | some t =>
    let n := ibits t
    match op with
    | .add => (old + b) % 2 ^ n
    | .min => if ival t.signed n old ≤ ival t.signed n b then old else b
    | .max => if ival t.signed n b ≤ ival t.signed n old then old else b
    | .and => Nat.land old b
    | .or => Nat.lor old b
    | .xor => Nat.xor old b
    | .exch => b
  | none =>
    let t := atomFloat ty
    let n := t.bits
    if n == 16 then packEls 16 ((List.range 2).map fun i => atomFloatEl t op (elem 16 old i) (elem 16 b i))
    else atomFloatEl t op old b

/-- Words an atomic leaves and returns (R310 to R312): `old` as used by the ALU. -/
def atomWords (ty : AtomTy) (op : AtomOp) (old b : List CWord) : List CWord :=
  let v := wordsOf (32 * ty.words) (atomNew ty op (valOf old) (valOf b))
  if anyBad old || anyBad b then v.map CWord.poisoned else v.map CWord.of

/-- Words a compare-and-swap leaves: `c` when `old` equals `b` bit for bit and neither is Poison (R311). -/
def casWords (old b c : List CWord) : List CWord :=
  if !anyBad old && !anyBad b && valOf old == valOf b then c.map fun w => if w.bad then w else .of w.data else old

/-- New words of an access of an atomic kind; a load or store keeps or replaces. -/
def AccKind.after (k : AccKind) (old d d2 : List CWord) : List CWord :=
  match k with
  | .load => old
  | .store => d
  | .atom ty op => atomWords ty op old d
  | .cas _ => casWords old d d2

/-- Result class of an atomic for the STAGE of a failed check. -/
def AccKind.stage (k : AccKind) : Nat :=
  match k with
  | .atom ty op => if ty.isFloat then 9 else (match op with | .and | .or | .xor => 3 | _ => 0)
  | _ => 0

/-! ### L1 lines (R81, Table 5.1) -/

/-- The L1 line of a core that holds an address of main memory, or a decoded line. -/
def L1Line.isAt (core pa : Nat) (coded : Option CodedTag) (ln : L1Line) : Bool :=
  ln.core == core &&
    match ln.coded, coded with
    | none, none => ln.line == pa / 128
    | some t, some u => t.ctx == u.ctx && t.ix == u.ix && t.line == u.line
    | _, _ => false

def l1Find (s : State) (core pa : Nat) (coded : Option CodedTag) : Option L1Line :=
  s.cs.l1.find? (·.isAt core pa coded)

/-- Words held by the core's L1, when it holds every byte of the mask. -/
def l1Read (s : State) (core pa mask n : Nat) : Option (List CWord) :=
  match l1Find s core pa none with
  | some ln => if maskSub (mask * 2 ^ (pa % 128)) ln.valid then some ((ln.words.drop (pa % 128 / 4)).take n) else none
  | none => none

/-- Replace a held line of an L1. -/
def l1Set (s : State) (ln : L1Line) : State :=
  { s with cs := { s.cs with l1 := s.cs.l1.map fun x => if x.isAt ln.core (128 * ln.line) ln.coded then ln else x } }

def l1Remove (s : State) (ln : L1Line) : State := { s with cs := { s.cs with l1 := s.cs.l1.erase ln } }

/-- The words that a byte mask names, zero words in the places of the others. -/
def maskedWords (mask : Nat) : List CWord → List CWord
  | [] => []
  | w :: ws => (if mask % 16 == 0 then .zero else w) :: maskedWords (mask / 16) ws

/-- Send words of a core to the L2 home of an address: mesh and slice entry checks of the words written, then the write. -/
def sendHome (s : State) (part core pa mask : Nat) (ws : List CWord) : State :=
  let (s1, ins) := carry s (dieOf core) (homeDie s pa) 2 (sliceOf s pa) part core pa (maskedWords mask ws)
  homeWrite s1 part core pa mask ins

/-- Write a line back to its home; its bytes become clean. A word whose bytes the line does not all hold is
merged at the home. -/
def l1WriteBack (s : State) (ln : L1Line) : State :=
  if ln.dirty == 0 then s
  else l1Set (sendHome s ln.part ln.core (128 * ln.line) ln.dirty ln.words) { ln with dirty := 0 }

/-- Write a line back if it is dirty, and drop it. -/
def l1Expel (s : State) (ln : L1Line) : State := l1Remove (l1WriteBack s ln) { ln with dirty := 0 }

/-- Frames of the unified array of a core: 72 units of 512 (R99). -/
def arrayFrames : Nat := 36864

/-- The first frame from `f` on, round the array, that satisfies a test, `n` frames being looked at. -/
def frameFrom (p : Nat → Bool) : Nat → Nat → Option Nat
  | 0, _ => none
  | n + 1, f => if p (f % arrayFrames) then some (f % arrayFrames) else frameFrom p n (f + 1)

/-- The frame for a new line of a core: from the frame that the turn picks on, the first free one of the L1's units; with none free,
the first of the L1's, whose line leaves (R81: the manual leaves organisation and replacement to the device). -/
def l1Frame (s : State) (core : Nat) : State × Nat :=
  let units := s.spadUnitsOn core
  let mine (f : Nat) : Bool := !units.contains (f / 512)
  let held (f : Nat) : Option L1Line := s.cs.l1.find? fun ln => ln.core == core && ln.frame == f
  match frameFrom (fun f => mine f && (held f).isNone) arrayFrames s.pick with
  | some f => (s, f)
  | none =>
    match frameFrom mine arrayFrames s.pick with
    | some f => (match held f with | some ln => l1Expel s ln | none => s, f)
    | none => (s, s.pick % arrayFrames)

/-- Replace a line of an L1, or give it a frame. -/
def l1Put (s : State) (ln : L1Line) : State :=
  if s.cs.l1.any fun x => x.isAt ln.core (128 * ln.line) ln.coded then l1Set s ln
  else
    let (s1, f) := l1Frame s ln.core
    { s1 with cs := { s1.cs with l1 := s1.cs.l1 ++ [{ ln with frame := f }] } }

/-- Units of a core pass from its L1 to a scratchpad allocation: dirty lines in them are written back, and all are dropped
(R101). -/
def l1Vacate (s : State) (core : Nat) (units : List Nat) : State :=
  (s.cs.l1.filter fun ln => ln.core == core && units.contains (ln.frame / 512)).foldl l1Expel s

/-- A line of an L1 before it has a byte, and a frame. -/
def emptyL1 (part core pa : Nat) (page : PageKind) (coded : Option CodedTag) : L1Line :=
  ⟨core, 0, part, match coded with | some t => t.line | none => pa / 128, page, coded, List.replicate 32 .zero, 0, 0⟩

/-- Lay the words of a whole line under the bytes that a line already holds. -/
def L1Line.fill (ln : L1Line) (ws : List CWord) : L1Line :=
  { ln with
    words := (List.range 32).map fun i =>
      let m := bitsAt ln.valid (4 * i) 4
      if m == 15 then ln.words.getD i .zero else mergeWord (ws.getD i .zero) (ln.words.getD i .zero) m
    valid := 2 ^ 128 - 1 }

/-- Write a core's store into its L1, which becomes dirty. -/
def l1Write (s : State) (part core pa : Nat) (page : PageKind) (mask : Nat) (ws : List CWord) : State :=
  let ln := (l1Find s core pa none).getD (emptyL1 part core pa page none)
  l1Put (checkMerge s 1 (clusterUnit core) part core pa ln.words (pa % 128 / 4) mask ws) { ln with
    words := mergeWords ln.words (pa % 128 / 4) mask ws
    valid := Nat.lor ln.valid (mask * 2 ^ (pa % 128))
    dirty := Nat.lor ln.dirty (mask * 2 ^ (pa % 128)) }

/-- Write back every dirty line of a core (a release at cluster scope or wider, R326). -/
def l1Release (s : State) (core : Nat) : State :=
  (s.cs.l1.filter fun ln => ln.core == core).foldl l1WriteBack s

/-- Write back, then invalidate the lines of RC and UO pages of a core (R327, R340). -/
def l1Acquire (s : State) (core : Nat) : State :=
  let s1 := l1Release s core
  { s1 with cs := { s1.cs with l1 := s1.cs.l1.filter fun ln =>
      !(ln.core == core && ln.coded == none && (ln.page == .rc || ln.page == .uo)) } }

/-- Evict one line of a core. -/
def l1Evict (s : State) (core line : Nat) : State :=
  match l1Find s core (128 * line) none with
  | some ln => l1Expel s ln
  | none => s

/-- Invalidate the copy of a line after writing its dirty bytes back (R322). -/
def l1Drop (s : State) (core pa : Nat) : State := l1Evict s core (pa / 128)

/-- Words of a whole line at its home as they arrive at a core's L1. -/
def lineToCore (s : State) (part core pa : Nat) : State × List CWord :=
  let base := pa / 128 * 128
  let (s1, ws) := homeRead s part core base 32
  carry s1 (homeDie s pa) (dieOf core) 1 (clusterUnit core) part core base ws

/-- Fill a core's L1 with a line of main memory. -/
def l1Fill (s : State) (part core pa : Nat) (page : PageKind) : State :=
  let (s1, ws) := lineToCore s part core pa
  l1Put s1 (((l1Find s1 core pa none).getD (emptyL1 part core pa page none)).fill ws)

/-- Home die of a decoded line. -/
def codedHome (s : State) (t : CodedTag) : Nat := t.entry.codeAt (t.blocks.headD 0) |> homeDie s

/-- Slice of a decoded line. -/
def codedSlice (s : State) (t : CodedTag) : Nat := t.entry.codeAt (t.blocks.headD 0) |> sliceOf s

/-- Words of a decoded line as they arrive at a core; the line fills its L1. -/
def codedToCore (s : State) (part core : Nat) (t : CodedTag) : State × List CWord :=
  let (s1, ws) := codedWords s part core t
  let (s2, ins) := carry s1 (codedHome s t) (dieOf core) 1 (clusterUnit core) part core 0 ws
  (l1Put s2 ((emptyL1 part core 0 .rc (some t)).fill ins), ins)

/-- Merge words of a core at the home of a decoded line; its L1 copy is invalidated (R70). -/
def codedSend (s : State) (part core : Nat) (t : CodedTag) (i mask : Nat) (ws : List CWord) : State :=
  let (s1, ins) := carry s (dieOf core) (codedHome s t) 2 (codedSlice s t) part core 0 ws
  let s2 := { s1 with cs := { s1.cs with l1 := s1.cs.l1.filter fun ln => !ln.isAt core 0 (some t) } }
  codedMergeAt s2 part core t i mask ins

/-! ### Host memory (R83, R461) -/

/-- Words written to host memory through the I/O die's host path; a Poison word is recorded and its data bits go
on (log 24). -/
def hostWrite (s : State) (part core pa mask : Nat) (ws : List CWord) : State :=
  let poisoned := countIf ws CWord.bad
  let (s1, ins) := carry s (if core < 384 then dieOf core else 6) 6 12 0xC06 part core pa ws
  let s2 := (List.range poisoned).foldl (fun s _ => appendRecord s part 0x01 core 0xC06 pa 12 0) s1
  let bytes := (List.range (4 * ins.length)).foldl (fun m i =>
    if mask / 2 ^ i % 2 == 1 then wrByte m (pa + i) (byteOf (ins.getD (i / 4) .zero).data (i % 4)) else m) s2.mm.bytes
  { s2 with mm := { s2.mm with bytes := bytes } }

def hostRead (s : State) (pa n : Nat) : List CWord :=
  (List.range n).map fun i => .of (rdWord s.mm.bytes (pa + 4 * i))

/-! ### Home ALU (R310 to R312) -/

/-- A home-ALU disagreement, used up from the pending upsets; true when the repeat fails too (R312). -/
def homeAluFails (s : State) : State × Bool :=
  match s.strikes.find? fun u => match u with | .homeAlu _ => true | _ => false with
  | some (.homeAlu n) => ({ s with strikes := s.strikes.erase (.homeAlu n) }, decide (2 ≤ n))
  | _ => (s, false)

/-- Perform an atomic on main or coded memory at its home: the words returned. -/
def homeAtomicAt (s : State) (part core : Nat) (a : Acc) : State × List CWord :=
  let n := a.data.length
  let i := a.pa % 128 / 4
  let slice := match a.coded with | some t => codedSlice s t | none => sliceOf s a.pa
  let home := slice / 64
  let (s0, ins) := carry s (dieOf core) home 2 slice part core a.pa (a.data ++ a.data2)
  let (s1, stored) := match a.coded with
    | some t => let (s', ws) := codedWords s0 part core t; (s', (ws.drop i).take n)
    | none => homeRead s0 part core a.pa n
  let (s2, old) := checkIn s1 10 slice part core a.pa stored
  let (s3, fails) := homeAluFails s2
  let new := a.kind.after old (ins.take n) (ins.drop n)
  let put_ (s : State) (ws : List CWord) : State := match a.coded with
    | some t => codedMergeAt s part core t i (byteMask 0 (4 * n)) ws
    | none => homeWrite s part core a.pa (byteMask 0 (4 * n)) ws
  let bad := old.map fun w => CWord.poisoned w.data
  if fails then (put_ (appendRecord s3 part 0x50 core slice a.pa 0 0) bad, bad)
  else
    let stores := match a.kind with
      | .load => false
      | .cas _ => new != old || stored != old || (!anyBad (ins.take n) && !anyBad old && valOf old == valOf (ins.take n))
      | _ => true
    let s4 := if stores then put_ s3 new else s3
    let (s5, back) := carry s4 home (dieOf core) 8 (clusterUnit core) part core a.pa old
    (s5, back)

/-- Perform an atomic on host memory (R314). -/
def hostAtomicAt (s : State) (part core : Nat) (a : Acc) : State × List CWord :=
  let n := a.data.length
  let old := hostRead s a.pa n
  (hostWrite s part core a.pa (byteMask 0 (4 * n)) (a.kind.after old a.data a.data2), old)

end Sys2Proof.Machine
end

