-- ==== Sys2Proof/Machine/Ops.lean ====
section
/-! DEFINITION. The named operations of a thread group: its register words and guards (R147, R158 to R162), its
pending slots and counters, the retirement of an instruction (R163, R405), barrier arrivals (R362), taking a trap
and returning from one (R31, R418 to R428), the end of a workgroup (R428). -/

namespace Sys2Proof

/-- Key of word `k` of a register in a lane. -/
def Reg.key (r : Reg) (k lane : Nat) : Machine.RKey :=
  match r with
  | .v i => .v (i.toNat + k) lane
  | .s i => .s (i.toNat + k)
  | .k i => .k (i.toNat + k) lane

namespace Machine

/-! ### Order -/

/-- Insert before the first element that does not come before. -/
def insertBy {α : Type} (le : α → α → Bool) (x : α) : List α → List α
  | [] => [x]
  | y :: l => if le x y then x :: y :: l else y :: insertBy le x l

/-- Sort, equal elements in their order. -/
def sortBy {α : Type} (le : α → α → Bool) (l : List α) : List α := l.foldr (insertBy le) []

/-- Numbers in ascending order. -/
def ascending (l : List Nat) : List Nat := sortBy (fun a b => decide (a ≤ b)) l

/-! ### Masks of threads -/

/-- Threads of a mask, ascending. -/
def members (m : BitVec 64) : List Nat := (List.range 64).filter fun i => m.getLsbD i

/-- Mask of some threads. -/
def maskOf (l : List Nat) : BitVec 64 := l.foldl (fun m i => m ||| (1#64 <<< i)) 0#64

/-- Threads of a thread group that satisfy a test. -/
def Tg.threadsWhere (g : Tg) (p : Thread → Bool) : List Nat :=
  (List.range g.threads.length).filter fun i => (g.threads[i]?.map p).getD false

/-- Change the threads of a mask. -/
def Tg.mapThreads (g : Tg) (m : BitVec 64) (f : Nat → Thread → Thread) : Tg :=
  { g with threads := (g.threads.zip (List.range g.threads.length)).map fun ti =>
      if m.getLsbD ti.2 then f ti.2 ti.1 else ti.1 }

/-! ### Register words -/

def setBit {n : Nat} (x : BitVec n) (i : Nat) (b : Bool) : BitVec n :=
  if b then x ||| (1#n <<< i) else x &&& ~~~(1#n <<< i)

/-- A guard as a word: its value in bit 0. -/
def guardWord (b : Bool) : CWord := .of (BitVec.ofNat 32 b.toNat)

def Tg.guard (g : Tg) (i lane : Nat) : Bool := (g.threads[lane]?.map fun t => t.guards.getLsbD i).getD false

/-- The word a register holds now. -/
def Tg.word (g : Tg) : RKey → CWord
  | .v i l => lookD .zero g.vregs (64 * i + l)
  | .s i => lookD .zero g.uregs i
  | .k i l => lookD .zero g.temps (64 * i + l)
  | .g i l => guardWord (g.guard i l)

/-- Write a word; with a mirror grant a vector word is written twice (R446). -/
def Tg.setWord (g : Tg) (k : RKey) (w : CWord) : Tg :=
  match k with
  | .v i l =>
    { g with
      vregs := put .zero g.vregs (64 * i + l) w
      mirror := if g.mirrored then put .zero g.mirror (64 * i + l) w else g.mirror }
  | .s i => { g with uregs := put .zero g.uregs i w }
  | .k i l => { g with temps := ins g.temps (64 * i + l) w }
  | .g i l => { g with threads := updAt g.threads l fun t => { t with guards := setBit t.guards i (w.data.getLsbD 0) } }

/-- A number for each key, for free values. -/
def RKey.num : RKey → Nat
  | .v i l => 4 * (64 * i + l)
  | .s i => 4 * i + 1
  | .k i l => 4 * (64 * i + l) + 2
  | .g i l => 4 * (64 * i + l) + 3

/-- Words of the value of one lane of an operation in flight. -/
def MemOp.words (o : MemOp) : Nat := max 1 (o.size / 4)

/-- Registers that an operation in flight still has to write (R160). -/
def MemOp.keys (o : MemOp) : List RKey :=
  let regs := match o.dst with
    | some d => o.lanes.flatMap fun l => (List.range o.words).map fun k => d.key k l.1
    | none => []
  let phase := match o.arrive.bind (·.rd) with | some u => [RKey.s u.toNat] | none => []
  (regs ++ o.results.map (·.1) ++ phase).filter fun k => !o.skip.contains k

/-- A fixed-latency write of a register: due after `lat` issue steps; writes of one register are performed in
issue order (R160). Latency 0 writes at once. -/
def Tg.write (g : Tg) (lat : Nat) (k : RKey) (w : CWord) : Tg :=
  let due := g.steps + lat
  let old := g.word k
  let fs := g.flights.map fun f => if f.key == k then { f with due := min f.due due } else f
  { g.setWord k w with
    flights := if lat == 0 then fs else fs ++ [⟨k, old, due⟩]
    ops := g.ops.map fun o => if o.keys.contains k then { o with skip := k :: o.skip } else o }

/-- Write the values that operation `id` returns: a register that a later write has overtaken keeps that write, and writes issued
before are overtaken (R160). -/
def Tg.landWords (g : Tg) (id : Nat) (vals : List (RKey × CWord)) : Tg :=
  let skip := ((g.ops.find? fun o => o.id == id).map (·.skip)).getD []
  let now := vals.filter fun kw => !skip.contains kw.1
  let late (k : RKey) : Bool := now.any fun kw => kw.1 == k
  let g1 := now.foldl (fun g kw => g.setWord kw.1 kw.2) g
  { g1 with
    flights := g1.flights.filter fun f => !late f.key
    ops := g1.ops.map fun o => if o.id < id then { o with skip := o.keys.filter late ++ o.skip } else o }

/-- Write words from word 0 of a register upward. -/
def Tg.writeReg (g : Tg) (lat : Nat) (d : Reg) (lane : Nat) (ws : List CWord) : Tg :=
  (ws.zip (List.range ws.length)).foldl (fun g wk => g.write lat (d.key wk.2 lane) wk.1) g

/-- Write a guard of a thread. -/
def Tg.writeGuard (g : Tg) (lat i lane : Nat) (b : Bool) : Tg := g.write lat (.g i lane) (guardWord b)

/-- Writes of a register that have not been performed: oldest first, the value each replaces. -/
def Tg.early (g : Tg) (k : RKey) : List CWord :=
  (g.flights.filter fun f => f.key == k && decide (g.steps < f.due)).map (·.old)

/-- A temporary that no instruction of the shot has written (R163). -/
def Tg.unwritten (g : Tg) : RKey → Bool
  | .k i l => (look? g.temps (64 * i + l)).isNone
  | _ => false

/-- The read is early: a write is pending, or the temporary was not written (R161, R163). -/
def Tg.readsEarly (g : Tg) (k : RKey) : Bool :=
  !(g.early k).isEmpty || g.unwritten k || g.ops.any fun o => o.keys.contains k

/-- The word that a read receives: a free choice among old and new values while a write is pending, an
unpredictable word from an unwritten temporary (R161, R163). `ix` tells the reads of one step apart. -/
def Tg.readWord (g : Tg) (tick ix : Nat) (k : RKey) : CWord :=
  if g.unwritten k then .of (Config.freeWord tick k.num)
  else
    let olds := g.early k
    match (List.range olds.length).find? fun j => Config.freeBit tick (64 * ix + j) with
    | some j => olds.getD j (g.word k)
    | none => g.word k

/-! ### Counters, slots, barriers -/

/-- Change pending slot `n`. -/
def Tg.addPend (g : Tg) (n : Nat) : Tg := if n == 0 then g else { g with pend := updAt g.pend n (· + 1) }
def Tg.subPend (g : Tg) (n : Nat) : Tg := if n == 0 then g else { g with pend := updAt g.pend n (· - 1) }

/-- Count an access in the range slots of a mask, and take it out again (R316). -/
def Tg.addSlots (g : Tg) (m : BitVec 8) : Tg :=
  { g with slots := (g.slots.zip (List.range 8)).map fun si =>
      if m.getLsbD si.2 then { si.1 with count := si.1.count + 1 } else si.1 }
def Tg.subSlots (g : Tg) (m : BitVec 8) : Tg :=
  { g with slots := (g.slots.zip (List.range 8)).map fun si =>
      if m.getLsbD si.2 then { si.1 with count := si.1.count - 1 } else si.1 }

/-- Owe a wait to the shot's `CUT` (R163). -/
def Tg.owe (g : Tg) (w : Wait) : Tg :=
  if g.shot.waits.contains w then g else { g with shot := { g.shot with waits := g.shot.waits ++ [w] } }

/-- Change every wait that a thread group owes, those of an interrupted shot too. -/
def Tg.mapWaits (g : Tg) (f : List Wait → List Wait) : Tg :=
  { g with
    kept := f g.kept
    shot := { g.shot with waits := f g.shot.waits }
    saved := g.saved.map fun v => { v with shot := { v.shot with waits := f v.shot.waits } } }

/-- The thread group owes a wait, now or after its handler. -/
def Tg.owesAny (g : Tg) (p : Wait → Bool) : Bool :=
  g.kept.any p || g.shot.waits.any p || ((g.saved.map fun v => v.shot.waits.any p).getD false)

/-- Owe a commit point; each is decided by itself (R441). -/
def Tg.oweCommit (g : Tg) : Tg := { g with shot := { g.shot with waits := g.shot.waits ++ [.commit] } }

/-- Commit points owed and not decided. -/
def Tg.commits (g : Tg) : Nat :=
  g.kept.count .commit + g.shot.waits.count .commit + ((g.saved.map fun v => v.shot.waits.count .commit).getD 0)

/-- The upper half of a link value: bits [63:57] are zero (R345). -/
def linkHalf (w : CWord) : CWord :=
  if w.data.toNat < 2 ^ 25 then w else if w.bad then .poisoned (w.data &&& 0x01FFFFFF#32) else .of (w.data &&& 0x01FFFFFF#32)

/-- Arrivals that complete the open phase of a barrier. -/
def Barrier.need (b : Barrier) : Nat :=
  match b.ring with
  | none => b.e
  | some _ => if b.ph.getLsbD 0 then b.ee else b.ef

/-- One arrival with a status (R362). -/
def Barrier.arrive (b : Barrier) (status : BitVec 8) : Barrier :=
  let st := if b.stat == 0#8 then status else b.stat
  if b.arr + 1 == b.need then { b with lstat := st, stat := 0#8, arr := 0, ph := b.ph + 1#32 }
  else { b with stat := st, arr := (b.arr + 1) % 4096 }

/-- The next arrival completes the open phase. -/
def Barrier.closes (b : Barrier) : Bool := b.arr + 1 == b.need

/-- Every thread group sees the entries whose appender had arrived at a barrier that completes (R246). -/
def Tensor.publish (b : Nat) (t : Tensor) : Tensor := { t with fresh := t.fresh.filter fun x => !x.bars.contains b }

def Wg.arrive (w : Wg) (b : Nat) (status : BitVec 8) : Wg :=
  { w with
    barriers := updAt w.barriers b (·.arrive status)
    tensors := if ((w.barriers[b]?).map Barrier.closes).getD false then w.tensors.map (Tensor.publish b) else w.tensors }

/-- A thread group arrives, by an operation of some place in its order, at a barrier behind the appends that it made before (R246). -/
def Tensor.arrived (tg id b : Nat) (t : Tensor) : Tensor :=
  { t with fresh := t.fresh.map fun x => if x.tg == tg && x.id ≤ id then { x with bars := b :: x.bars.erase b } else x }

/-! ### Retirement (R163, R164, R405) -/

/-- Ages after one issue whose issue set is given (R405). -/
def Tg.countIssue (g : Tg) (set : BitVec 64) : Tg :=
  { g with threads := (g.threads.zip (List.range g.threads.length)).map fun ti =>
      { ti.1 with age := if set.getLsbD ti.2 then 0 else min 255 (ti.1.age + 1) } }

/-- Debug state once a step has ended in a trap, and after an instruction of a step other than the first of a pair (R416). -/
def Debug.halted (d : Debug) : Debug := match d with | .off => .off | _ => .stopped
def Debug.after (d : Debug) (cut : Bool) : Debug :=
  match d with
  | .step => if cut then .closing false else .stopped
  | .stepThread _ => if cut then .closing false else .stopped
  | d => d

/-- The operation of CTXCMD is a step of a thread group that has ended. -/
def State.stepDone (s : State) (r : TgRef) : Bool :=
  match s.host.cmd, s.tg? r with
  | some c, some g => (c.op == 6 || c.op == 7) && c.wg == r.wg && c.slot == g.slot && g.debug == .stopped
  | _, _ => false

/-- BUSY of CTXCMD clears once the step of a thread group is done (R464). -/
def State.endStep (s : State) (r : TgRef) : State :=
  { s with host := if s.stepDone r then { s.host with cmd := none, cmdStatus := 0#3 } else s.host }

/-- The operation of CTXCMD ends with a status. -/
def endCommand (s : State) (status : BitVec 3) : State := { s with host := { s.host with cmd := none, cmdStatus := status } }

/-- An instruction of the shot has issued: the threads of its issue set stand at the next one, or, at the `CUT`,
at the target that the transfer before it set (R164). A step performs a transfer or a fence and its `CUT` as one issue (R416). -/
def Tg.retire (g : Tg) (set : BitVec 64) (h : Hints) (cut : Bool) : Tg :=
  let n := g.steps + h.st.toNat + 1
  let g1 := (if g.debug == .closing true then g else g.countIssue set).mapThreads set fun _ t =>
    if cut then { t with pc := t.next.getD (g.shot.pc + 12#57), next := none } else { t with pc := g.shot.pc + 12#57 }
  { g1 with
    steps := n
    flights := g1.flights.filter fun f => decide (n < f.due)
    rpt := if g.super then g.rpt else []
    debug := Debug.after g.debug cut
    -- each of its passes stands in a round of up to 8 thread groups; ST is in cycles, of at least one issue each
    busy := 8 * (g.width / 16) + h.st.toNat
    shot := { g1.shot with
      count := g1.shot.count + 1
      pc := g1.shot.pc + 12#57
      yieldHint := g1.shot.yieldHint || h.yld } }

/-- The open shot of a thread group that issues nothing further in it. -/
def Shot.none : Shot := ⟨false, 0, 0#57, 0#64, [], false, false⟩

/-! ### The rendezvous latch (R280) -/

/-- Every thread of the thread group has exited. -/
def Tg.allExited (g : Tg) : Bool := g.threads.all fun t => t.status == .exited

/-- The thread group can issue nothing more: its workgroup has ended, or its threads have exited. -/
def State.gone (s : State) (r : TgRef) : Bool :=
  match s.wg? r.wg, s.tg? r with
  | some w, some g => w.phase == .writeback || w.phase == .finishing || w.phase == .done || g.allExited
  | _, _ => true

/-- The time up to which a wait of a thread group counts: in the debug state none passes (R280, R441). -/
def State.waitNow (s : State) (r : TgRef) (since : Nat) : Nat :=
  match s.tg? r with
  | some g => if g.debug == .off then s.clock.toNat else max g.debugAt since
  | none => s.clock.toNat

/-- Count out a matrix operation by its number: the counter falls in issue order (R260, R335). -/
def Tg.matOut (g : Tg) (n : Nat) : Tg :=
  let done := n :: g.matDone
  let k := ((List.range done.length).takeWhile fun i => done.contains (g.matNext + i)).length
  { g with cntMat := g.cntMat - k, matNext := g.matNext + k, matDone := done.filter fun x => decide (g.matNext + k ≤ x) }

/-- Fail the held members that a test names: the latch drops them, and each takes the gang trap at its `CUT`. -/
def failGang (s : State) (k : Nat) (p : GangWait → Bool) (fcode : Nat) : State :=
  let q := s.cluster k
  let (out, stay) := q.latch.partition p
  out.foldl (fun s x => s.updTg x.ref fun g =>
    ((g.mapWaits fun l => l.map fun y => if y == .rendezvous then .gangFail fcode else y).subSlots x.op.slots).matOut
      x.op.num) (s.setCluster k { q with latch := stay })

/-- Fail the gangs of a cluster's latch that wait for a member that can no longer issue. -/
def checkLatch (s : State) (k : Nat) : State :=
  let l := (s.cluster k).latch
  let lost (x : GangWait) : Bool := x.members.any fun m => !(l.any fun y => y.ref == m) && s.gone m
  failGang s k (fun x => l.any fun y => y.list == x.list && y.members == x.members && lost y) 3

/-! ### Engine queues -/

/-- A thread group whose every command has entered its queue no longer waits for it. -/
def freeEnter (s : State) (r : TgRef) : State :=
  match s.wg? r.wg with
  | none => s
  | some w =>
    let q := s.core w.core
    let copies := q.copyq.all fun x => x.issuer != r || x.accepted
    let mats := (q.matq.drop 16).all fun x => x.issuer != r
    let jobs := (s.cluster (clusterOf w.core)).jobs.all fun x => x.issuer != r || x.accepted
    if copies && mats && jobs then
      s.updTg r fun g => g.mapWaits fun l => l.filter fun x => x != .enter
    else s

/-- Write the guard of an `MSTA` that completes, and count its slot out (R284). -/
def Tg.landGuard (g : Tg) (id : Nat) (v : Bool) : Tg :=
  match g.ops.find? fun x => x.id == id with
  | none => g
  | some x =>
    let g1 := g.landWords id (x.results.map fun kw => (kw.1, guardWord v))
    { g1.subPend x.ps with ops := g1.ops.filter fun y => y.id != id }

/-- A queued matrix operation of a core completes: it leaves the queue, and the counters fall (R260, R284). -/
def completeMat (s : State) (core : Nat) (o : MatOp) : State :=
  let q := s.core core
  let s1 := s.setCore core { q with matq := q.matq.erase o }
  let s2 := s1.updTg o.issuer fun g =>
    let g1 := (g.subSlots o.slots).matOut o.num
    match o.guardD with | some id => g1.landGuard id o.missed | none => g1
  (((s2.core core).matq.take 16).map (·.issuer)).foldl freeEnter s2

/-- The operations of a gang, each with its core, in order of position (R281). -/
def State.fellowsOf (s : State) (core : Nat) (o : MatOp) : List (Nat × MatOp) :=
  match o.gang with
  | none => [(core, o)]
  | some (_, ms) => (ms.zip (List.range ms.length)).filterMap fun mi =>
      match s.wg? mi.1.wg with
      | some w => ((s.core w.core).matq.find? fun x => x.issuer == mi.1 && x.gang == some (mi.2, ms)).map fun x => (w.core, x)
      | none => none

/-- Complete an operation, of a gang every member's, as `MPRG.ab` does (R278, R281). -/
def abortMat (s : State) (core : Nat) (o : MatOp) : State :=
  (s.fellowsOf core o).foldl (fun s x => completeMat s x.1 x.2) s

/-! ### The end of a workgroup (R428) -/

/-- ARRV of a copy command. -/
def CopyCmd.arrv (c : CopyCmd) : Bool := match c.kind with
  | .prefetch _ => true
  | _ => (c.words.getD 0 0#64).getLsbD 62

/-- The record of a completion that no barrier reports (R128, R146). -/
def completionRecord (s : State) (part core status : Nat) : State := appendRecord s part 0x40 core 0 0 status 0

/-- A partner take of a workgroup (R437). -/
def partnerOf (s : State) (w : Wg) : Option Nat :=
  if !w.takeOn then none
  else (s.wgs.find? fun nw => nw.2.takeOn && nw.2.launch == w.launch && nw.2.unitIx == w.unitIx &&
    nw.2.rank == w.rank && nw.2.take != w.take).map (·.1)

/-- An operation of an ended thread group whose writes were issued and are still to be performed (log 27). -/
def MemOp.outlives (o : MemOp) : Bool :=
  o.gated == 0 && o.arrive.isNone && !o.setFull && o.accs.any fun a => !a.done && a.kind != .load

/-- A thread group that issues nothing more; `writes` says that the writes it issued are still performed. -/
def Tg.ended (writes : Bool) (g : Tg) : Tg :=
  { g with
    phase := .ended
    threads := g.threads.map fun t => { t with status := .exited }
    shot := .none
    saved := none
    kept := []
    flights := []
    faults := []
    ops := if writes then g.ops.filter MemOp.outlives else []
    boundary := []
    super := false
    ret := false
    active := false
    pend := g.pend.map fun _ => 0
    cntCopy := 0
    cntMat := 0
    matNext := g.matIssued
    matDone := []
    cntDcmp := 0
    cntMem := 0 }

/-- What becomes of a command with a guard from a deferred slot: performed, discarded, or held (R357); a slot that no thread group
can resolve any more is false. -/
def deferState (w : Wg) (d : Option (Nat × Bool)) : Deferred :=
  match d with
  | none => .yes
  | some (k, neg) =>
    match (w.deferred[k]?).getD .unresolved with
    | .unresolved => if w.tgs.all fun g => g.phase == .exiting || g.phase == .ended then .no else .unresolved
    | .yes => if neg then .no else .yes
    | .no => if neg then .yes else .no

/-- Record of a copy command that ends with its workgroup: 0x05, or its own status if it has ended; one that a deferred slot holds
is discarded without one. -/
def goneRecord (w : Wg) (s : State) (x : CopyCmd) : State :=
  let status := if x.phase == .finished then x.status else 0x05
  if x.arrv || status == 0 || deferState w x.defer == .unresolved then s else completionRecord s x.part w.core status

/-- End one workgroup with an end-status bit: its engine work ends without effect or arrival, its held stores are
discarded. -/
def endOne (s : State) (n bit : Nat) : State :=
  match s.wg? n with
  | none => s
  | some w =>
    if w.phase == .finishing || w.phase == .done then s
    else
      let mine (r : TgRef) : Bool := r.wg == n
      let c := s.core w.core
      let gone := c.copyq.filter fun x => mine x.issuer
      let s0 := (c.matq.filter fun x => mine x.issuer).foldl (fun s o => abortMat s w.core o) s
      let c := s0.core w.core
      let s1 := s0.setCore w.core { c with
        copyq := c.copyq.filter fun x => !mine x.issuer
        chains := c.chains.filter fun x => !mine x.issuer
        runs := c.runs.filter fun x => !mine x.1 }
      let k := s1.cluster (clusterOf w.core)
      let s2 := s1.setCluster (clusterOf w.core) { k with
        jobs := k.jobs.filter fun x => !mine x.issuer
        latch := k.latch.filter fun x => !mine x.ref }
      let s3 := gone.foldl (goneRecord w) s2
      let stepping := (s3.host.cmd.map fun c => (c.op == 6 || c.op == 7) && c.wg == n).getD false
      checkLatch ((if stepping then endCommand s3 1#3 else s3).setWg n { w with
        phase := .finishing
        status := w.status ||| BitVec.ofNat 8 bit
        tgs := w.tgs.map (Tg.ended !w.takeOn)
        held := []
        stageWait := []
        points := [] }) (clusterOf w.core)

/-- End a workgroup, and in two-take mode its partner (R428, Table 19.2). -/
def endWorkgroup (s : State) (n bit : Nat) : State :=
  match s.wg? n with
  | none => s
  | some w =>
    match partnerOf s w with
    | some m => endOne (endOne s n bit) m bit
    | none => endOne s n bit

/-! ### Cause words (Tables 2.6 and 18.3) -/

/-- Issue pipe of a thread group of a workgroup (R382). -/
def pipeOf (r : TgRef) : Nat := r.tg % 4

/-- CONTINUITY and POISON. -/
def checkCause (cause point opnd : Nat) (high : Bool) (unit pipe stage rep : Nat) : BitVec 32 :=
  BitVec.ofNat 32 (cause * 2 ^ 24 + point * 2 ^ 20 + opnd * 2 ^ 16 + high.toNat * 2 ^ 15 + unit * 2 ^ 12 +
    pipe * 2 ^ 10 + stage * 2 ^ 6 + rep)

/-- Codes 0x10 to 0x18. -/
def memCause (cause fcode cls lane : Nat) : BitVec 32 :=
  BitVec.ofNat 32 (cause * 2 ^ 24 + fcode * 2 ^ 20 + cls * 2 ^ 17 + lane * 2 ^ 10)

/-- A cause with FCODE alone (MATDESC, GANG), with ROLE, with OPND (STALL), with CODE (SOFTWARE, BREAK). -/
def fcodeCause (cause fcode : Nat) : BitVec 32 := BitVec.ofNat 32 (cause * 2 ^ 24 + fcode * 2 ^ 20)
def roleCause (role : Nat) : BitVec 32 := BitVec.ofNat 32 (0x05 * 2 ^ 24 + role * 2 ^ 22)
def stallCause (opnd : Nat) : BitVec 32 := BitVec.ofNat 32 (0x06 * 2 ^ 24 + opnd * 2 ^ 16)
def codeCause (cause : Nat) (code : BitVec 16) : BitVec 32 := BitVec.ofNat 32 (cause * 2 ^ 24 + code.toNat)

def illegalCause : BitVec 32 := 0x01000000#32

/-- CAUSE of a cause word. -/
def causeOf (c : BitVec 32) : Nat := c.toNat / 2 ^ 24

/-! ### Taking a trap (R425, R427) -/

/-- The call sheet of a workgroup's launch. -/
def State.sheetOf (s : State) (w : Wg) : Option Sheet := (s.launchOf w).map (·.sheet)

/-- Trap vector of a workgroup. -/
def trapVector (s : State) (w : Wg) : BitVec 57 := BitVec.ofNat 57 (((s.sheetOf w).map (·.trapv)).getD 0)

/-- Enter supervisor mode: what the trap saves is given; the threads of the set stand at the trap vector, every
other ready thread is held (R425). -/
def Tg.enterTrap (g : Tg) (cause : BitVec 32) (mask set : BitVec 64) (tpc trapv : BitVec 57) (sv : SavedShot) : Tg :=
  let g1 := (g.mapThreads (~~~set) fun _ t => if t.status == .ready then { t with status := .held } else t).mapThreads
    set fun _ t => { t with status := .ready, pc := trapv, next := none }
  { g1 with
    tcause := cause
    tmask := mask
    tpc := tpc.setWidth 64
    super := true
    saved := some sv
    flights := []
    temps := []
    shot := .none
    phase := .ready }

/-- What a trap at an instruction or at a shot boundary saves. -/
def Tg.snapshot (g : Tg) (set : BitVec 64) (tpc : BitVec 57) (wasCut boundary atExit : Bool) : SavedShot :=
  { shot := g.shot
    set := set
    phase := g.phase
    temps := g.temps
    nexts := g.threads.map (·.next)
    tpc := tpc
    wasCut := wasCut
    boundary := boundary
    atExit := atExit
    serialHeld := maskOf (g.threadsWhere fun t => t.status == .held) }

/-- A trap in supervisor mode (R427): a record of kind 0x60, and the workgroup ends. -/
def doubleTrap (s : State) (r : TgRef) (g : Tg) (w : Wg) (cause : BitVec 32) (pc : BitVec 57) : State :=
  let s1 := appendRecord s (s.partOf w) 0x60 w.core g.slot pc.toNat (cause.toNat + 2 ^ 32 * g.tcause.toNat) 0
  endWorkgroup s1 r.wg 1

/-- Take a trap at the instruction at `pc` of the open shot (R31, R419, R425): a double trap in supervisor mode.
A continuity trap fires the slate (R452) and counts REPEAT. A `CUT` at which the thread group waits has issued already (R405). -/
def takeTrap (s : State) (r : TgRef) (cause : BitVec 32) (mask : BitVec 64) (wasCut : Bool) : State :=
  match s.tg? r, s.wg? r.wg with
  | some g0, some w =>
    let pc := g0.shot.pc
    let s0 := if causeOf cause == 2 && s.dfs.slConten then fireSlate s 2 (cause.toNat / 2 ^ 16) else s
    if g0.super then doubleTrap s0 r g0 w cause pc
    else
      let counted := match g0.phase with | .atCut _ => g0 | _ => g0.countIssue g0.shot.set
      let g := { counted with debug := Debug.halted g0.debug }
      let g1 := if causeOf cause == 2 then { g with rpt := pc :: g.rpt } else g
      (s0.setTg r (g1.enterTrap cause mask g.shot.set pc (trapVector s w) (g.snapshot g.shot.set pc wasCut false false))).endStep r
  | _, _ => s

/-- REPEAT of a continuity trap at a PC (Table 2.6). -/
def Tg.repeats (g : Tg) (pc : BitVec 57) : Nat := min 63 (countIf g.rpt (· == pc))

/-! ### Returning from a trap (R166, R353, R424, R426) -/

/-- Threads released by `TRET`: those held at entry, serial mode apart. -/
def Tg.release (g : Tg) (sv : SavedShot) : Tg :=
  g.mapThreads (~~~sv.serialHeld) fun _ t => if t.status == .held then { t with status := .ready } else t

/-- The return of a thread group to `sr.tpc`. -/
def Tg.trapReturn (g : Tg) : Tg :=
  match g.saved with
  | none => { g with super := false, ret := false, shot := .none }
  | some sv =>
    let tpc : BitVec 57 := g.tpc.setWidth 57
    let g1 := { g.release sv with super := false, ret := false, saved := none }
    if sv.atExit then
      { g1.mapThreads g1.exitSet fun _ t => { t with status := .exited, pc := sv.tpc, next := none } with shot := sv.shot, phase := sv.phase, temps := [] }
    else
      let g2 := g1.mapThreads sv.set fun _ t => { t with pc := tpc, next := none }
      if sv.boundary then
        { g2 with shot := { sv.shot with pc := tpc }, phase := sv.phase, temps := [] }
      else if tpc == sv.tpc || (tpc == sv.tpc + 12#57 && !sv.wasCut) then
        { g2 with
          threads := (g2.threads.zip sv.nexts).map fun tn => { tn.1 with next := tn.2 }
          shot := { sv.shot with pc := tpc }
          phase := .ready
          temps := sv.temps }
      else { g2 with kept := g2.kept ++ sv.shot.waits, shot := .none, phase := .ready, temps := [] }

/-! ### Boundary traps (R423, R424) -/

/-- A boundary trap becomes pending, in the order CONTINUITY, MATOP, COPYSUSP, each in order of stopping. -/
def Tg.pendBoundary (g : Tg) (t : BoundaryTrap) : Tg :=
  { g with boundary := (g.boundary.filter fun x => decide (x.rank ≤ t.rank)) ++ t ::
      g.boundary.filter fun x => decide (t.rank < x.rank) }

end Machine

end Sys2Proof
end

