-- ==== Sys2Proof/Machine/Operands.lean ====
section
/-! DEFINITION. The operands of an issue: who takes part (R157), what each operand reads in each lane (R155,
R156, R158, R161), constant-window words through the constant cache (R156, R302), and the checks made on what is
read: operand-read checks with mirror repair (R24, R33, R36), Poison consumption (R29, R30), the checking
scoreboard (R161, R163). -/

namespace Sys2Proof.Machine

/-! ### The issue -/

/-- The environment of an issue: thread group, workgroup, call sheet, issue set, address, core, context,
partition and step number. -/
structure Env where
  r : TgRef
  w : Wg
  g : Tg
  sheet : Sheet
  set : BitVec 64
  part : List Nat
  pc : BitVec 57
  core : Nat
  ctx : Nat
  pt : Nat
  tick : Nat

/-- How a 32-bit immediate gives a 64-bit operand (R156). -/
inductive ImmExt where
  | zero | sign | high
  deriving DecidableEq, Repr

/-- A source operand: its field code of Table 2.6, what it names, how many words, how an immediate extends,
whether a Poison word is consumed, whether the operand-read check is left out (`RSD.raw`), and whether only the
lowest thread's value is consumed (R253). -/
structure Src where
  field : Nat
  opd : Opd
  words : Nat := 1
  ext : ImmExt := .zero
  consume : Bool := false
  raw : Bool := false
  first : Bool := false

/-- Operand of a register field. -/
def srcA (r : Reg) (n : Nat) : Src := { field := 0, opd := .reg r, words := n }
def srcB (o : Opd) (n : Nat) : Src := { field := 1, opd := o, words := n }
def srcC (r : Reg) (n : Nat) : Src := { field := 2, opd := .reg r, words := n }
def srcD (r : Reg) (n : Nat) : Src := { field := 3, opd := .reg r, words := n }

/-- The same operand, its Poison consumed. -/
def Src.consumed (x : Src) : Src := { x with consume := true }

/-- The operand is one value for the issue. -/
def Src.uniform (x : Src) : Bool := x.opd.uniform

/-- Words of an immediate. -/
def immWords (n : Nat) (ext : ImmExt) (w : Word) : List CWord :=
  if n ≤ 1 then [.of w]
  else
    match ext with
    | .zero => [.of w, .of 0#32]
    | .sign => [.of w, .of (if w.getLsbD 31 then 0xFFFFFFFF#32 else 0#32)]
    | .high => [.of 0#32, .of w]

/-- Keys of the register words of an operand in a lane. -/
def Src.keys (x : Src) (lane : Nat) : List RKey :=
  match x.opd with
  | .reg r => (List.range x.words).map fun k => r.key k lane
  | _ => []

/-! ### The constant cache (R156, R302) -/

/-- What a window read gives: words, or the trap it raises, or the wait of a replayable fault. -/
inductive WinRead where
  | words (ws : List CWord)
  | bounds
  | fault (cause : Nat)
  | address
  | wait (w : PageWait)

/-- Words of the constant cache of a core, if it holds all of them. -/
def ccFind (s : State) (core ctx va : Nat) : Nat → Option (List CWord)
  | 0 => some []
  | n + 1 =>
    match s.cs.cc.find? fun c => c.core == core && c.ctx == ctx && c.va == va, ccFind s core ctx (va + 4) n with
    | some c, some ws => some (c.word :: ws)
    | _, _ => none

/-- Words read at a translated place for a core: through the L2 home, the codec or the host path, checked on the
way in at a check point. -/
def fetchWords (s : State) (pt core point unit pa : Nat) (page : PageKind) (coded : Option CodedTag) (n : Nat) :
    State × List CWord :=
  match coded with
  | some t =>
    let (s1, ws) := codedWords s pt core t
    carry s1 (codedHome s t) (dieOf core) point unit pt core 0 ((ws.drop (pa % 128 / 4)).take n)
  | none =>
    if page == .host then carry s 6 (dieOf core) point unit pt core pa (hostRead s pa n)
    else
      let (s1, ws) := homeRead s pt core pa n
      carry s1 (homeDie s pa) (dieOf core) point unit pt core pa ws

/-- Words of a constant cache of 64 KiB (R10). -/
def ccSize : Nat := 16384

/-- Hold a word in a core's constant cache: a full one loses the word that the turn picks. -/
def ccPut (s : State) (x : CcWord) : State :=
  let mine := s.cs.cc.filter fun y => y.core == x.core
  let keep := if ccSize ≤ mine.length then (match mine[s.pick % mine.length]? with | some v => s.cs.cc.erase v | none => s.cs.cc) else s.cs.cc
  { s with cs := { s.cs with cc := x :: keep } }

/-- Read words at a virtual address through the constant cache, one at a time. -/
def ccRead (s : State) (e : Env) (lane va : Nat) : Nat → State × WinRead
  | 0 => (s, .words [])
  | n + 1 =>
    match ccFind s e.core e.ctx va 1 with
    | some [w] =>
      match ccRead s e lane (va + 4) n with
      | (s1, .words ws) => (s1, .words (w :: ws))
      | r => r
    | _ =>
      match translate s e.core e.ctx e.g.super 0 va 4 with
      | (s1, .fault cause level pte) =>
        if replayable cause then (s1, .wait (pageWait va 0 cause level pte lane)) else (s1, .fault cause)
      | (s1, .to pa page coded) =>
        let (s2, ws) := fetchWords s1 e.pt e.core 7 (clusterUnit e.core) pa page coded 1
        let w := ws.headD .zero
        let s3 := if page == .host then s2
          else ccPut s2 ⟨e.core, e.ctx, va, w⟩
        match ccRead s3 e lane (va + 4) n with
        | (s4, .words more) => (s4, .words (w :: more))
        | r => r

/-- Read words of a window at a byte offset: the bound first, then the cache. -/
def windowReadAt (s : State) (e : Env) (lane win off words : Nat) : State × WinRead :=
  let (base, size) := e.sheet.windows.getD win (0, 0)
  if size < off + 4 * words then (s, .bounds)
  else if 2 ^ 57 ≤ base + off then (s, .address)
  else ccRead s e lane (base + off) words

/-- The window operand of an instruction. -/
def Src.window (x : Src) (s : State) (e : Env) : State × WinRead :=
  match x.opd with
  | .win n off => windowReadAt s e (e.part.headD 0) n.toNat (4 * off.toNat) x.words
  | _ => (s, .words [])

/-- The outcome of the checks of an issue. -/
inductive Verdict where
  | go
  | trap (cause : BitVec 32) (mask : BitVec 64)
  | wait (ws : List PageWait)
  deriving DecidableEq, Repr

/-- Trap or wait of a window operand: every thread that takes part reads it. -/
def WinRead.verdict (e : Env) : WinRead → Verdict
  | .words _ => .go
  | .bounds => .trap (memCause 0x14 0 0 (e.part.headD 0)) (maskOf e.part)
  | .fault cause => .trap (memCause 0x10 cause 0 (e.part.headD 0)) (maskOf e.part)
  | .address => .trap (memCause 0x11 0 0 (e.part.headD 0)) (maskOf e.part)
  | .wait w => .wait [{ w with threads := maskOf e.part }]

/-! ### Reading operands -/

/-- Tells apart the reads of one step: field, pass and word. -/
def readIx (field lane k : Nat) : Nat := 8 * (4 * (lane / 16) + field) + k

/-- The words an operand supplies to a lane; `win` are the words of a window operand. -/
def Src.read (x : Src) (e : Env) (win : List CWord) (lane : Nat) : List CWord :=
  match x.opd with
  | .imm w => immWords x.words x.ext w
  | .win _ _ => win
  | .reg r => (List.range x.words).map fun k =>
      let key := r.key k lane
      e.g.readWord e.tick (readIx x.field lane k + 4096 * key.num) key

/-- The lanes in which an operand is read and checked: one for a uniform operand (R24). -/
def Src.lanes (x : Src) (e : Env) : List Nat := if x.uniform then [e.part.headD 0] else e.part

/-- The guard that selects the threads, and who takes part (R157); a read of a guard with a pending write
receives either value in each thread (R161). -/
def takesPart (g : Tg) (tick : Nat) (h : Hints) (lane : Nat) : Bool :=
  if h.gidx.toNat < 8 then
    (g.readWord tick (readIx 4 lane 0 + 4096 * (RKey.g h.gidx.toNat lane).num + 256 * (lane % 16))
      (.g h.gidx.toNat lane)).data.getLsbD 0 != h.gneg
  else true

/-- A guard read as a source. -/
def Env.guard (e : Env) (i : BitVec 3) (lane : Nat) : Bool :=
  (e.g.readWord e.tick (readIx 5 lane 0 + 4096 * (RKey.g i.toNat lane).num + 256 * (lane % 16)) (.g i.toNat lane)).data.getLsbD 0

/-! ### Operand-read checks (R24, R33, R36) -/

/-- Replace a failing vector word by its mirror copy when that passes; the pipe counts a repair. -/
def repairWord (s : State) (e : Env) (k : RKey) : State × Env :=
  match k with
  | .v i l =>
    let m := lookD .zero e.g.mirror (64 * i + l)
    if e.g.mirrored && !(e.g.word k).passes && m.passes then
      let g := { e.g with vregs := put .zero e.g.vregs (64 * i + l) m }
      let c := s.core e.core
      let c' := { c with repair := updAt c.repair (pipeOf e.r) fun n => min 0xFFFFFFFF (n + 1) }
      ((s.setCore e.core c').setTg e.r g, { e with g := g })
    else (s, e)
  | _ => (s, e)

/-- Failing words of an operand among the lanes read: the lanes, and whether each of them fails in its high half
alone, so that HIGH, like OPND, names the lowest (log 33). -/
def failing (lanes : List Nat) (ok : CWord → Bool) (read : Nat → List CWord) : Option (List Nat × Bool) :=
  let bad := lanes.filter fun l => !(read l).all ok
  let high (l : Nat) : Bool := ((List.range (read l).length).find? fun k => !ok ((read l).getD k .zero)).getD 0 % 2 == 1
  match bad with
  | [] => none
  | _ :: _ => some (bad, bad.all high)

/-- The threads to report: every thread that takes part for a uniform operand. -/
def reported (e : Env) (x : Src) (bad : List Nat) : BitVec 64 := if x.uniform then maskOf e.part else maskOf bad

/-- First source, in field order, in which some lane fails a test. -/
def firstFailing (e : Env) (lanesOf : Src → List Nat) (ok : CWord → Bool) :
    List (Src × List CWord) → Option (Src × List Nat × Bool)
  | [] => none
  | (x, win) :: xs =>
    match failing (lanesOf x) ok (x.read e win) with
    | some (bad, hi) => some (x, bad, hi)
    | none => firstFailing e lanesOf ok xs

end Sys2Proof.Machine
end

