-- ==== Sys2Proof/Machine/Pipes.lean ====
section
/-! DEFINITION. The pipes of a core: the active and the pending set of a pipe and its round (R412 to R415), and the thread
groups that a pre-emption request stops (R435). -/

namespace Sys2Proof.Machine

/-! ### Active sets -/

/-- The workgroup's thread groups may issue. -/
def Wg.runs (w : Wg) : Bool := w.phase == .running

/-- Thread groups resident on a pipe. -/
def State.onPipe (s : State) (core pipe : Nat) : List TgRef :=
  (s.wgs.filter fun nw => nw.2.core == core && nw.2.resident).flatMap fun nw => (nw.2.refs nw.1).filter fun r => pipeOf r == pipe

/-- Those of them in the active set. -/
def State.activeOn (s : State) (core pipe : Nat) : List TgRef :=
  (s.onPipe core pipe).filter fun r => ((s.tg? r).map (·.active)).getD false

/-- Stands ready in the pending set (R415). -/
def Tg.pendingReady (g : Tg) : Bool :=
  g.phase == .ready && !g.active && g.debug == .off && !(g.threadsWhere fun t => t.status == .ready).isEmpty

/-- Those that stand ready in the pending set of a pipe. -/
def State.pendingOn (s : State) (core pipe : Nat) : List TgRef :=
  (s.onPipe core pipe).filter fun r => ((s.wg? r.wg).map Wg.runs).getD false && ((s.tg? r).map Tg.pendingReady).getD false

/-- Oldest of some thread groups, by order of placement. -/
def oldest (s : State) (l : List TgRef) : Option TgRef :=
  l.foldl (fun best r =>
    match best with
    | none => some r
    | some b =>
      if ((s.tg? r).map (·.order)).getD 0 < ((s.tg? b).map (·.order)).getD 0 then some r else best) none

/-- The tail of the round of a pipe. -/
def State.tailOf (s : State) (core pipe : Nat) : Nat :=
  (s.activeOn core pipe).foldl (fun n r => max n (((s.tg? r).map (·.round)).getD 0)) ((s.core core).lastRound.getD pipe 0) + 1

/-- A thread group enters the active set at the tail of the round (R414). -/
def enterActive (s : State) (core : Nat) (r : TgRef) : State :=
  let n := s.tailOf core (pipeOf r)
  s.updTg r fun g => { g with active := true, readySince := s.clock.toNat, round := n, busy := 0 }

/-- Fill free places of the active set with the oldest ready thread groups (R414). -/
def fillActive (s : State) (core pipe : Nat) : Nat → State
  | 0 => s
  | n + 1 =>
    if 8 ≤ (s.activeOn core pipe).length then s
    else
      match oldest s (s.pendingOn core pipe) with
      | none => s
      | some r => fillActive (enterActive s core r) core pipe n

/-- Refill the active set of the pipe of a thread group. -/
def refill (s : State) (r : TgRef) : State :=
  match s.wg? r.wg with
  | some w => fillActive s w.core (pipeOf r) 8
  | none => s

/-- A workgroup's thread groups as they come to their pipes: those that find room enter the active set, the others stand in the
pending set (R412, R415). -/
def enterPlaced (s : State) (n : Nat) : State :=
  match s.wg? n with
  | none => s
  | some w => (w.refs n).foldl (fun s r =>
      if (s.activeOn w.core (pipeOf r)).length < 8 && ((s.tg? r).map fun g => g.phase == .ready && g.debug == .off).getD false then
        enterActive s w.core r
      else s.updTg r fun g => { g with readySince := s.clock.toNat }) s

/-- A long-latency stall: the thread group leaves the active set (R414). -/
def stallOut (s : State) (r : TgRef) : State :=
  refill (s.updTg r fun g => { g with active := false, readySince := s.clock.toNat }) r

/-- The wait of a thread group has ended (R415). -/
def wake (s : State) (r : TgRef) : State :=
  refill (s.updTg r fun g => if g.active then g else { g with readySince := s.clock.toNat }) r

/-- An active thread group moves to the tail of the round (R413). -/
def toTail (s : State) (r : TgRef) : State :=
  match s.wg? r.wg with
  | some w => let n := s.tailOf w.core (pipeOf r); s.updTg r fun g => if g.active then { g with round := n } else g
  | none => s

/-! ### Pre-emption requests (R435) -/

/-- A request that names the workgroup stops it: one is held while a thread group of the unit is in supervisor mode. -/
def State.stops (s : State) (w : Wg) : Bool :=
  w.preempt && !s.wgs.any fun x => x.2.preempt && x.2.tgs.any (·.super)

end Sys2Proof.Machine
end

