-- ==== Sys2Proof/Machine/Issue.lean ====
section
/-! DEFINITION. The issue of one instruction, shared by every meaning: decode-time checks, operand reads and
checks, result checks, the order of causes of Table 18.2, the effect, retirement. Also the shared shapes of
register-to-register instructions (latencies of Table 8.8) and of commands performed once per issue. -/

namespace Sys2Proof.Machine

/-! ### Indices of a thread (R378, R379, R186) -/

/-- X·Y·Z of a level. -/
def Level.size (l : Level) : Nat := l.x * l.y * l.z

/-- Level bound to the core, and the distributed level: the outermost of the core, cluster and die. -/
def Sheet.coreLevel (h : Sheet) : Nat := (h.levels.findIdx? fun l => l.bind == 2).getD 2
def Sheet.distLevel (h : Sheet) : Nat :=
  h.levels.length - 1 - ((h.levels.reverse.findIdx? fun l => l.bind == 2 || l.bind == 3 || l.bind == 4).getD 0)

/-- Product of the extents of levels `lo` to `hi` − 1. -/
def Sheet.prod (h : Sheet) (lo hi : Nat) : Nat := (((h.levels.take hi).drop lo).map Level.size).foldl (· * ·) 1

/-- Width of a thread group, thread groups of a workgroup, workgroups of a distributed unit, distributed units. -/
def Sheet.width (h : Sheet) : Nat := h.prod 0 1
def Sheet.groups (h : Sheet) : Nat := h.prod 1 h.coreLevel
def Sheet.ranks (h : Sheet) : Nat := h.prod h.coreLevel h.distLevel
def Sheet.units (h : Sheet) : Nat := h.prod h.distLevel h.levels.length

/-- Global thread index G (R186). -/
def globalIndex (h : Sheet) (w : Wg) (tg lane : Nat) : Nat :=
  lane + h.width * (tg + h.groups * (w.rank + h.ranks * w.unitIx))

/-- Linear index at level `i` of the thread with global index `g`. -/
def levelIndex (h : Sheet) (i g : Nat) : Nat := g / h.prod 0 i % h.prod i (i + 1)

/-- A triple in the layout of `sr.lvlN` and `sr.extN`. -/
def packTriple (x y z : Nat) : Nat := x + y * 2 ^ 21 + z * 2 ^ 42

/-! ### Plans -/

/-- What an issue works with: the state and environment after operand repair, each source with its window words,
the words each lane formed at its result stage, and the accesses translated for it. -/
structure Ctx where
  s : State
  e : Env
  srcs : List (Src × List CWord)
  formed : List (Nat × LaneRes)
  accs : List Acc := []

/-- The context of an issue whose sources have been read. -/
def Ctx.start (s : State) (e : Env) (srcs : List (Src × List CWord)) : Ctx := { s := s, e := e, srcs := srcs, formed := [] }

/-- Words, value and Poison of source `i` in a lane. -/
def Ctx.src (c : Ctx) (i lane : Nat) : List CWord :=
  match c.srcs[i]? with
  | some (x, win) => x.read c.e win lane
  | none => []
def Ctx.val (c : Ctx) (i lane : Nat) : Nat := valOf (c.src i lane)
def Ctx.bad (c : Ctx) (lane : Nat) : Bool := c.srcs.any fun x => anyBad (x.1.read c.e x.2 lane)

/-- Value of a uniform operand. -/
def Ctx.uval (c : Ctx) (i : Nat) : Nat := c.val i (c.e.part.headD 0)

/-- What is particular to an instruction before its effect: hints, sources, guards read as sources, destination
with its words, UNIT, whether the uniform datapath may run it, supervisor mode needed, a `CUT` needed next, whether
it is `CUT`, whether it reads the link register, the roles that may issue it, whether it acts although no thread takes part, which lane supplies the
first source, a reserved operand value that makes the issue illegal, whether field B is data of an access alone, and a form that the machine at hand makes
illegal at decode. -/
structure Plan where
  h : Hints
  srcs : List Src := []
  guards : List (BitVec 3) := []
  dst : Option (Reg × Nat) := none
  unit : Nat := 0
  alu : Bool := false
  super : Bool := false
  cutAfter : Bool := false
  cut : Bool := false
  link : Bool := false
  role : Nat → Bool := fun _ => true
  always : Bool := false
  sel : Option (Ctx → Nat → Nat) := none
  reserved : Ctx → Bool := fun _ => false
  dataB : Bool := false
  unfit : Env → Bool := fun _ => false

/-- Every source and the destination are uniform, window words or immediates (R158). -/
def Plan.uniform (p : Plan) : Bool :=
  p.srcs.all (·.uniform) && (match p.dst with | some (d, _) => d.isS | none => false)

def Plan.unitCode (p : Plan) : Nat := if p.alu && p.uniform then 1 else p.unit

/-- The destination is written once (R158). -/
def Plan.once (p : Plan) : Bool := match p.dst with | some (d, _) => d.isS | none => false

/-- A register group lies within the kernel's allocation (R148). -/
def regAllowed (sh : Sheet) (r : Reg) (n : Nat) : Bool :=
  match r with
  | .v i => decide (i.toNat + n ≤ sh.vregs)
  | .s i => decide (i.toNat + n ≤ sh.uregs)
  | .k _ => true

def Src.allowed (sh : Sheet) (x : Src) : Bool := match x.opd with | .reg r => regAllowed sh r x.words | _ => true

/-- The illegal-instruction traps that depend on the machine (R148, R150, R163, R164, R344). -/
def Plan.illegal (p : Plan) (e : Env) : Bool :=
  !p.srcs.all (Src.allowed e.sheet) || !(match p.dst with | some (d, n) => regAllowed e.sheet d n | none => true) ||
    (p.super && !e.g.super) || (p.cutAfter && !e.g.nextCut) || (decide (23 ≤ e.g.shot.count) && !p.cut) || p.unfit e

/-! ### Environment -/

/-- The environment of the instruction that the issuing thread group performs. -/
def env? (s : State) (h : Hints) : Option Env :=
  match s.cur with
  | none => none
  | some r =>
    match s.wg? r.wg, s.tg? r with
    | some w, some g =>
      match s.launchOf w with
      | some l => some
        { r := r, w := w, g := g, sheet := l.sheet, set := g.shot.set,
          part := (members g.shot.set).filter fun l => decide (l < g.threads.length) && takesPart g s.tick h l,
          pc := g.shot.pc, core := w.core, ctx := l.ctx, pt := l.part, tick := s.tick }
      | none => none
    | _, _ => none

/-- A thread mask that the manual does not state (log 25). -/
def freeMask (tick : Nat) : BitVec 64 := Config.freeWord tick 1 ++ Config.freeWord tick 0

/-! ### Operand stage -/

/-- Read the window operands of a plan; the first that cannot be read gives the verdict. -/
def readWindows (s : State) (e : Env) : List Src → State × List (Src × List CWord) × Verdict
  | [] => (s, [], .go)
  | x :: xs =>
    let (s1, r) := x.window s e
    let (s2, ys, v) := readWindows s1 e xs
    match r with
    | .words ws => (s2, (x, ws) :: ys, v)
    | r => (s2, (x, []) :: ys, r.verdict e)

/-- Lanes in which each source is read: those that a lane read selects for the first source (R24, R249). -/
def Ctx.lanesOf (c : Ctx) (p : Plan) (x : Src) : List Nat :=
  match p.sel with
  | some f => if x.field == 0 then (List.range c.e.g.width).filter fun j => c.e.part.any fun t => f c t == j else x.lanes c.e
  | none => x.lanes c.e

/-- Repair every failing word from its mirror. -/
def Ctx.repair (c : Ctx) (p : Plan) : Ctx :=
  if !c.e.g.mirrored then c
  else
    let keys := p.srcs.flatMap fun x => if x.raw then [] else (c.lanesOf p x).flatMap x.keys
    let (s, e) := keys.foldl (fun (a : State × Env) k => repairWord a.1 a.2 k) (c.s, c.e)
    { c with s := s, e := e }

/-- Link register of a thread. -/
def Ctx.link (c : Ctx) (i : Nat) : List CWord := (c.e.g.threads[i]?.map fun t => [t.linkLo, t.linkHi]).getD []

/-- The link registers in which a word fails a test, when the instruction reads them: OPND 6 (Table 2.6, R347). -/
def Ctx.linkFailing (c : Ctx) (p : Plan) (ok : CWord → Bool) : Option (List Nat × Bool) :=
  if p.link then failing c.e.part ok c.link else none

/-- First failing operand read: the CONTINUITY trap with POINT 0. -/
def Ctx.readFailure (c : Ctx) (p : Plan) : Option (BitVec 32 × BitVec 64) :=
  match firstFailing c.e (c.lanesOf p) CWord.passes (c.srcs.filter fun x => !x.1.raw && x.1.keys 0 != []) with
  | some (x, bad, hi) =>
    some (checkCause 2 0 x.field hi p.unitCode (pipeOf c.e.r) 0 (c.e.g.repeats c.e.pc), reported c.e x bad)
  | none => (c.linkFailing p CWord.passes).map fun x => (checkCause 2 0 6 x.2 p.unitCode (pipeOf c.e.r) 0 (c.e.g.repeats c.e.pc), maskOf x.1)

/-- First consumed Poison word: the POISON trap. -/
def Ctx.poisonFailure (c : Ctx) (p : Plan) : Option (BitVec 32 × BitVec 64) :=
  match firstFailing c.e (fun x => if x.first then c.e.part.take 1 else x.lanes c.e) (fun w => !w.bad) (c.srcs.filter fun x => x.1.consume) with
  | some (x, bad, hi) => some (checkCause 3 0 x.field hi p.unitCode (pipeOf c.e.r) 0 0, reported c.e x bad)
  | none => (c.linkFailing p fun w => !w.bad).map fun x => (checkCause 3 0 6 x.2 p.unitCode (pipeOf c.e.r) 0 0, maskOf x.1)

/-- An early read of the guard that selects the threads (R161). -/
def selectStall (e : Env) (h : Hints) : Option (BitVec 32 × BitVec 64) :=
  let bad := (members e.set).filter fun l => decide (h.gidx.toNat < 8) && e.g.readsEarly (.g h.gidx.toNat l)
  if !e.g.chk || bad.isEmpty then none else some (stallCause 4, maskOf bad)

/-- First early read under the checking scoreboard, by OPND: sources, the selecting guard, guards read. -/
def Ctx.stallFailure (c : Ctx) (p : Plan) : Option (BitVec 32 × BitVec 64) :=
  if !c.e.g.chk then none
  else
    let early (keys : Nat → List RKey) (l : Nat) : Bool := (keys l).any c.e.g.readsEarly
    let srcs := c.srcs.filterMap fun x =>
      let bad := (c.lanesOf p x.1).filter (early x.1.keys)
      if bad.isEmpty then none else some (stallCause x.1.field, reported c.e x.1 bad)
    let gs := p.guards.filterMap fun i =>
      let bad := c.e.part.filter (early fun l => [.g i.toNat l])
      if bad.isEmpty then none else some (stallCause 5, maskOf bad)
    (srcs ++ (selectStall c.e p.h).toList ++ gs).head?

/-! ### Result stage (R25, R26, R33) -/

/-- What an upset adds to word `k` of the result of lane `l` (log 12): a pending error of the forming logic, or
one bit for a window word whose code disagrees with it, which the prediction then does not follow. -/
def Ctx.error (c : Ctx) (p : Plan) (l : Nat) (r : LaneRes) (k : Nat) : Word :=
  let hit := c.s.strikes.find? fun u => match u with
    | .result q t w _ => q == c.e.r && w == k && (p.once || t == l)
    | _ => false
  let x : Word := match hit with | some (.result _ _ _ d) => d | _ => 0#32
  if k == 0 && !r.picks && c.srcs.any (fun x => !x.1.raw && x.2.any fun w => !w.passes) then x ^^^ 1#32 else x

/-- The result of a lane as its logic forms it. -/
def Ctx.strike (c : Ctx) (p : Plan) (l : Nat) (r : LaneRes) : LaneRes :=
  { r with words := (r.words.zip (List.range r.words.length)).map fun wk => wk.1 ^^^ c.error p l r wk.2 }

/-- STAGE at which a formed result fails; a Poison result is not checked (R24). -/
def LaneRes.stage (r : LaneRes) : Option Nat := if r.bad.any id then none else r.check r.words

/-- Stages that a lane passes and that an upset makes fail. -/
def Ctx.upStages (c : Ctx) (p : Plan) (l : Nat) (r : LaneRes) : List Nat :=
  if r.bad.any id then []
  else c.s.strikes.filterMap fun u => match u with
    | .stage q t st err => if q == c.e.r && (p.once || t == l) && r.stages.contains st && stageSees st err then some st else none
    | _ => none

/-- Stages at which a lane fails. -/
def Ctx.failedStages (c : Ctx) (p : Plan) (x : Nat × LaneRes) : List Nat := x.2.stage.toList ++ c.upStages p x.1 x.2

/-- Only the high word of a lane's result, whose halves are checked alone, fails (R210): with that word as it should be it passes. -/
def Ctx.highOnly (c : Ctx) (p : Plan) (x : Nat × LaneRes) : Bool :=
  x.2.halves && x.2.words.length == 2 &&
    (x.2.check (x.2.words.take 1 ++ (x.2.words.drop 1).map (· ^^^ c.error p x.1 x.2 1))).isNone

/-- Form the result of every lane. -/
def Ctx.form (c : Ctx) (p : Plan) (f : Ctx → Nat → LaneRes) : Ctx :=
  { c with formed := (if p.once then c.e.part.take 1 else c.e.part).map fun l => (l, c.strike p l (f c l)) }

/-- The value that a lane's adder formed. -/
def Ctx.formedSum (c : Ctx) (t : Nat) : Nat :=
  match c.formed.find? fun l => l.1 == t with
  | some l => l.2.words.foldr (fun w n => w.toNat + 2 ^ 32 * n) 0
  | none => 0

/-- First failing result check: the CONTINUITY trap with POINT 1, the lowest failing stage and its threads (R33). -/
def Ctx.resultFailure (c : Ctx) (p : Plan) : Option (BitVec 32 × BitVec 64) :=
  match c.formed.flatMap (c.failedStages p) with
  | [] => none
  | st :: sts =>
    let low := sts.foldl min st
    let fails := c.formed.filter fun x => (c.failedStages p x).contains low
    let high := fails.all fun x => x.2.stage == some low && c.highOnly p x
    some (checkCause 2 1 0 high p.unitCode (pipeOf c.e.r) low (c.e.g.repeats c.e.pc),
      if p.once then maskOf c.e.part else maskOf (fails.map (·.1)))

/-- The upset waits for an instruction of the thread group. -/
def Upset.forms (r : TgRef) : Upset → Bool
  | .result q _ _ _ => q == r
  | .stage q _ _ _ => q == r
  | _ => false

/-- Upsets of the thread group's results are used up by one instruction. -/
def State.clearStrikes (s : State) (r : TgRef) : State := { s with strikes := s.strikes.filter fun u => !u.forms r }

/-! ### The issue -/

/-- A cancelled wait: the first of its faults traps with its original cause (R97). -/
def cancelTrap (s : State) (r : TgRef) (isCut : Bool) : State :=
  match s.tg? r with
  | none => s
  | some g =>
    match g.faults with
    | [] => s
    | w :: ws =>
      let same := (w :: ws).filter fun v => v.cause == w.cause
      takeTrap (s.setTg r { g with cancel := false, faults := [] }) r (memCause 0x10 w.cause w.cls w.lane)
        (same.foldl (fun m v => m ||| v.threads) 0#64) isCut

/-- The thread group waits on replayable faults of the instruction, which replays whole, and leaves the active set (R96, R97, R296,
R414). -/
def awaitPages (s : State) (e : Env) (ws : List PageWait) (isCut : Bool) : State :=
  match s.tg? e.r with
  | none => s
  | some g =>
    if g.cancel then cancelTrap s e.r isCut
    else stallOut ((recordFaults s e.ctx 0 g.slot e.core ws).setTg e.r { g with faults := ws, phase := .faulted }) e.r

/-- Retire the instruction of an issue. -/
def finish (e : Env) (p : Plan) (s : State) : State :=
  (s.updTg e.r fun g => g.retire e.set p.h p.cut).endStep e.r

/-- Order of the memory faults of one thread: address, alignment, translation, bounds, constant window, coded access, non-finite
store, atomic target, unstaged access (R420). -/
def faultRank (cause : BitVec 32) : Nat :=
  match causeOf cause with
  | 0x11 => 0
  | 0x12 => 1
  | 0x10 => 2
  | n => n

/-- The memory fault or wait of an issue whose data operand lies in a window, and whose lanes have a verdict of their own: a fault
that is not replayable outranks a wait; of two, the lowest thread's, and of one thread's the first to arise (R420). -/
def firstVerdict (win late : Verdict) : Verdict :=
  match win, late with
  | .go, v => v
  | v, .go => v
  | .wait ws, .wait vs => .wait (ws ++ vs)
  | .wait _, .trap c m => .trap c m
  | .trap c m, .wait _ => .trap c m
  | .trap c m, .trap c' m' =>
    let low (x : BitVec 64) : Nat := (members x).headD 64
    if low m' < low m then .trap c' m'
    else if low m < low m' then .trap c m
    else if faultRank c' < faultRank c then .trap c' m' else .trap c m

/-- Decide an issue whose operands have been read: the order of Table 18.2. `late` gives the causes of ranks 5 to 7
and the translations made for them; `act` is the effect. -/
def decide_ (c : Ctx) (p : Plan) (win : Verdict) (late : Ctx → Ctx × Verdict) (act : Ctx → State) : State :=
  let trap (s : State) (t : BitVec 32 × BitVec 64) : State := takeTrap (s.clearStrikes c.e.r) c.e.r t.1 t.2 p.cut
  if win == .go && p.reserved c then trap c.s (illegalCause, freeMask c.e.tick)
  else
    match c.readFailure p, c.resultFailure p, c.poisonFailure p, c.stallFailure p with
    | some t, _, _, _ => trap c.s t
    | none, some t, _, _ => trap c.s t
    | none, none, some t, _ => trap c.s t
    | none, none, none, some t => trap c.s t
    | none, none, none, none =>
      let (c1, v) := if win == .go || p.dataB then late c else (c, .go)
      match firstVerdict win v with
      | .trap cause mask => trap c1.s (cause, mask)
      | .wait ws => awaitPages c1.s c.e ws p.cut
      | .go => finish c.e p (act { c1 with s := c1.s.clearStrikes c.e.r })

/-- Issue an instruction in a known environment. -/
def issueAt (s : State) (e : Env) (p : Plan) (form : Ctx → Nat → LaneRes) (late : Ctx → Ctx × Verdict)
    (act : Ctx → State) : State :=
  if e.g.cancel then cancelTrap s e.r p.cut
  else if p.illegal e then takeTrap s e.r illegalCause (freeMask e.tick) p.cut
  else if !p.role e.g.role then takeTrap s e.r (roleCause e.g.role) (freeMask e.tick) p.cut
  else if e.part.isEmpty && !p.cut then
    match selectStall e p.h with
    | some t => takeTrap s e.r t.1 t.2 p.cut
    | none => finish e p (if p.always then act (Ctx.start s e []) else s)
  else
    let (s1, srcs, win) := readWindows s e p.srcs
    let c := (Ctx.start s1 e srcs).repair p
    decide_ (c.form p form) p win late act

/-- Issue an instruction of the thread group that issues. -/
def issue (s : State) (p : Plan) (form : Ctx → Nat → LaneRes) (late : Ctx → Ctx × Verdict) (act : Ctx → State) :
    Host.Outcome State Fault Refusal :=
  match env? s p.h with
  | none => .fault .noThreadGroup
  | some e => .next (issueAt s e p form late act)

/-- No result stage, and no cause of ranks 5 to 7. -/
def noForm (_ : Ctx) (_ : Nat) : LaneRes := { words := [], bad := [], check := fun _ => none }
def noLate (c : Ctx) : Ctx × Verdict := (c, .go)

/-! ### Shared effects -/

/-- Put the thread group of an issue back. -/
def Ctx.put (c : Ctx) (g : Tg) : State := c.s.setTg c.e.r g

/-- The thread group as the state holds it. -/
def Ctx.tg (c : Ctx) : Tg := (c.s.tg? c.e.r).getD c.e.g

/-- An operation in flight that has no access, no value, no counter. -/
def MemOp.blank : MemOp :=
  { id := 0, accs := [], dst := none, lanes := [], size := 0, signed := false, results := [], ps := 0, counts := false,
    slots := 0#8, granule := none, acquire := none, scope := .thread, super := false, skip := [], arrive := none, setFull := false,
    performed := true, mark := 0, launch := none, gated := 0 }

/-- Put an operation in flight: its slot and counters count it (R162, R299, R316). -/
def Tg.launchOp (g : Tg) (o : MemOp) : Tg :=
  let g1 := (g.addPend o.ps).addSlots o.slots
  { g1 with
    ops := g1.ops ++ [{ o with id := g1.nextOp }]
    nextOp := g1.nextOp + 1
    cntMem := if o.counts then g1.cntMem + 1 else g1.cntMem }

/-- The words each lane formed, as register writes. -/
def Ctx.results (c : Ctx) (d : Reg) : List (RKey × CWord) :=
  c.formed.flatMap fun lr => let ws := lr.2.out; (List.range ws.length).map fun k => (d.key k lr.1, ws.getD k .zero)

/-- Increment CCNT in every thread that takes part (R187). -/
def Tg.countConversions (g : Tg) (part : List Nat) : Tg :=
  g.mapThreads (maskOf part) fun _ t => { t with ccnt := t.ccnt + 1#32 }

/-- Latency of a fixed-latency instruction (Table 8.8). -/
def Plan.latency (p : Plan) (base : Nat) : Nat := if p.uniform then 2 else base

/-- A fixed-latency instruction that writes a register. -/
def fixedOp (s : State) (h : Hints) (base : Nat) (d : Reg) (n : Nat) (srcs : List Src) (form : Ctx → Nat → LaneRes) :
    Host.Outcome State Fault Refusal :=
  let p : Plan := { h := h, srcs := srcs, dst := some (d, n), alu := true }
  issue s p form noLate fun c =>
    c.put ((c.results d).foldl (fun g kw => g.write (p.latency base) kw.1 kw.2) c.tg)

/-- A variable-latency instruction that writes registers once its result has returned (R159, R162). -/
def varOp (s : State) (p : Plan) (form : Ctx → Nat → LaneRes) (out : Ctx → List (RKey × CWord)) :
    Host.Outcome State Fault Refusal :=
  issue s p form noLate fun c => c.put (c.tg.launchOp { MemOp.blank with ps := p.h.ps.toNat, results := out c })

/-- A fixed-latency instruction that writes a guard in every thread that takes part. -/
def guardOp (s : State) (h : Hints) (base : Nat) (srcs : List Src) (guards : List (BitVec 3)) (g : BitVec 3)
    (form : Ctx → Nat → LaneRes) (val : Ctx → Nat → Bool) : Host.Outcome State Fault Refusal :=
  issue s { h := h, srcs := srcs, guards := guards } form noLate fun c =>
    c.put (c.e.part.foldl (fun t l => t.writeGuard base g.toNat l (val c l)) c.tg)

/-- An instruction performed once per issue (R342): sources are uniform; `act` changes the state. -/
def onceOp (s : State) (p : Plan) (late : Ctx → Ctx × Verdict) (act : Ctx → State) :
    Host.Outcome State Fault Refusal := issue s p noForm late act

/-! ### Rounding environment (R185 to R187) -/

/-- The environment of a lane: class fields and the hash of the lane's key. -/
def Ctx.fenv (c : Ctx) (lane : Nat) : FEnv :=
  let cc := ((c.e.g.threads[lane]?).map (·.ccnt)).getD 0#32
  ⟨c.e.g.fmode.toNat,
    hash186 c.e.sheet.nonce (BitVec.ofNat 64 (globalIndex c.e.sheet c.e.w c.e.r.tg lane % 2 ^ 63)) (cc.setWidth 64)⟩

/-- Some class of a list rounds stochastically. -/
def Ctx.stochastic (c : Ctx) (fs : List Fmt) : Bool := fs.any fun f => (ctlOf c.e.g.fmode.toNat f.cls).rnd == 4

end Sys2Proof.Machine
end

