-- ==== Sys2Proof/Machine/Access.lean ====
section
/-! DEFINITION. The accesses of an issued memory operation: splitting into aligned words, the value that a load
returns, held stores of two-take mode (R438 to R444), the order in which accesses are performed (R298, R299, R319,
R325 to R328, R339), and performing one access at its point (Table 14.2). -/

namespace Sys2Proof.Machine

/-! ### Bytes of accesses -/

/-- Bytes of some words with, for each, whether its word is Poison. -/
def bytesOf (ws : List CWord) : List (Byte × Bool) :=
  ws.flatMap fun w => (List.range 4).map fun i => (byteOf w.data i, w.bad)

/-- A word formed from bytes; Poison when a byte comes from a Poison word. -/
def wordOfBytes (bs : List (Byte × Bool)) : CWord :=
  let at_ (i : Nat) : Byte := (bs.getD i (0#8, false)).1
  let d : Word := at_ 3 ++ (at_ 2 ++ (at_ 1 ++ at_ 0))
  if bs.any (·.2) then .poisoned d else .of d

/-- Group bytes into words. -/
def wordsOfBytes : List (Byte × Bool) → List CWord
  | a :: b :: c :: d :: r => wordOfBytes [a, b, c, d] :: wordsOfBytes r
  | [] => []
  | r => [wordOfBytes r]

/-- Words placed at byte `o` of the first aligned word; bytes before them are zero. -/
def alignWords (o : Nat) (n : Nat) (ws : List CWord) : List CWord :=
  if o == 0 then ws.take ((n + 3) / 4)
  else wordsOfBytes (List.replicate o (0#8, false) ++ (bytesOf ws).take n)

/-- Pieces of an access, by virtual address and length: the aligned words of a misaligned one, each atomic alone (R297, R323). -/
def pieces (va n : Nat) (mis : Bool) : List (Nat × Nat) :=
  if mis && va % 4 != 0 then
    let first := 4 - va % 4
    (va, min first n) :: ((List.range ((n - first + 3) / 4)).map fun i => (va + first + 4 * i, min 4 (n - first - 4 * i)))
  else if mis && va % n != 0 then
    (List.range (n / 4)).map fun i => (va + 4 * i, 4)
  else [(va, n)]

/-- The access of a piece at its translated place; `ws` are the aligned data words. -/
def mkAcc (lane : Nat) (kind : AccKind) (va n pa : Nat) (page : PageKind) (coded : Option CodedTag) (ws ws2 : List CWord) :
    Acc :=
  { lane := lane, threads := 1#64 <<< lane, kind := kind, va := va, pa := pa / 4 * 4, page := page, coded := coded,
    mask := byteMask (va % 4) n, data := ws, data2 := ws2, done := false, result := [], wg := none }

/-- Number of aligned words of an access. -/
def Acc.count (a : Acc) : Nat := if bitsAt a.mask 4 12 == 0 then 1 else if bitsAt a.mask 8 8 == 0 then 2
  else if bitsAt a.mask 12 4 == 0 then 3 else 4

def Acc.isRead (a : Acc) : Bool := a.kind != .store
def Acc.isWrite (a : Acc) : Bool := a.kind != .load
def Acc.isAtomic (a : Acc) : Bool := match a.kind with | .load => false | .store => false | _ => true

/-- The words as loaded lay over bytes: the value of a lane from its accesses (R290, R292). -/
def loadValue (size : Nat) (signed : Bool) (accs : List Acc) : List CWord :=
  let whole := accs.all fun a => a.mask % 16 == 15 && a.va % 4 == 0
  if whole && 4 ≤ size then accs.flatMap (·.result)
  else
    let bs := accs.flatMap fun a => ((bytesOf (a.result.map CWord.entered)).zip (List.range 16)).filterMap fun bi =>
      if a.mask.testBit bi.2 then some bi.1 else none
    if 4 ≤ size then wordsOfBytes bs
    else
      let x := (bs.zip (List.range 4)).foldl (fun n bi => n + bi.1.1.toNat * 256 ^ bi.2) 0
      let v : Word := BitVec.ofNat 32 (wrapInt 32 (ival signed (8 * size) x))
      [if bs.any (·.2) then .poisoned v else .of v]

/-- Two accesses name a common byte. -/
def Acc.overlaps (a b : Acc) : Bool :=
  let ka := match a.coded with | some t => (t.ctx, t.ix + 1) | none => (0, 0)
  let kb := match b.coded with | some t => (t.ctx, t.ix + 1) | none => (0, 0)
  ka == kb && (a.page == .spad) == (b.page == .spad) && a.wg == b.wg &&
    (if a.pa ≤ b.pa then Nat.land a.mask (b.mask * 2 ^ (b.pa - a.pa)) != 0
     else Nat.land b.mask (a.mask * 2 ^ (a.pa - b.pa)) != 0)

/-! ### Order of performing (log 15) -/

/-- Accesses issued before a given one that are not performed. -/
def Tg.before (g : Tg) (op acc : Nat) : List Acc :=
  g.ops.flatMap fun o =>
    if o.id < op then o.accs.filter fun a => !a.done
    else if o.id == op then (o.accs.take acc).filter fun a => !a.done
    else []

/-- An acquire of an earlier operation is not complete: nothing later is performed (R327, R301, R307). -/
def Tg.acquiring (g : Tg) (op : Nat) : Bool :=
  g.ops.any fun o => decide (o.id < op) && !o.performed && (o.acquire.isSome || o.granule.isSome)

/-- An operation whose accesses wait for every earlier access: `STL`, `STF` and a barrier arrival (R326). -/
def MemOp.releases (o : MemOp) : Bool := o.setFull || o.arrive.isSome || o.rel

/-- A release of an earlier operation is not complete: no later write is performed (R326). -/
def Tg.releasing (g : Tg) (op : Nat) : Bool := g.ops.any fun o => decide (o.id < op) && !o.performed && o.releases

/-- Some thread takes part in both accesses. -/
def Acc.shares (a b : Acc) : Bool := a.threads &&& b.threads != 0#64

/-- Access `acc` of operation `o` may be performed now: among the accesses of one thread to the same bytes or to SO pages, those of
the thread group to host memory, and writes of one issue to the same bytes, the earlier goes first (R298, R310, R325, R339). -/
def Tg.mayPerform (g : Tg) (o : MemOp) (acc : Nat) (a : Acc) : Bool :=
  let prior := g.before o.id acc
  !g.acquiring o.id &&
    (!o.releases || !(g.ops.any fun p => decide (p.id < o.id) && !p.performed)) &&
    !(a.isWrite && g.releasing o.id) &&
    !(prior.any fun b => b.shares a && b.overlaps a) &&
    !((o.accs.take acc).any fun b => !b.done && b.overlaps a && (a.isWrite || b.isWrite)) &&
    !(prior.any fun b => b.shares a && a.page == .so && b.page == .so) &&
    !(prior.any fun b => a.page == .host && b.page == .host)

/-! ### Held stores (R438 to R440) -/

/-- Home of a held write: its slice, or the I/O die. -/
def heldHome (s : State) (a : Acc) : Nat :=
  if a.page == .host then 384 else match a.coded with | some t => codedSlice s t | none => sliceOf s a.pa

/-- The line of one take that a held write merges into. -/
def heldLine (a : Acc) : Nat × Nat × Nat :=
  match a.coded with | some t => (1, t.ctx * 64 + t.ix, t.line) | none => (0, 0, a.pa / 128)

/-- Entries in use at a home (R440). -/
def rushesUsed (s : State) (home : Nat) : Nat :=
  (s.wgs.map fun nw => ((nw.2.held.filter fun a => heldHome s a == home).map heldLine).eraseDups.length).sum

/-- Every write of a list finds an entry. -/
def rushesRoom (s : State) (w : Wg) (as : List Acc) : Bool :=
  (as.map (heldHome s)).eraseDups.all fun h =>
    let new := ((as.filter fun a => heldHome s a == h).map heldLine).eraseDups.filter fun k =>
      !(w.held.any fun b => heldHome s b == h && heldLine b == k)
    decide (rushesUsed s h + new.length ≤ 256)

/-- Byte of a virtual address as some writes of one issue leave it: the highest-numbered thread's (R298). -/
def writtenByte (as : List Acc) (va : Nat) : Option (Byte × Bool) :=
  (as.reverse.find? fun a => decide (a.va / 4 * 4 ≤ va) && a.mask.testBit (va - a.va / 4 * 4)).map fun a =>
    (bytesOf a.data).getD (va - a.va / 4 * 4) (0#8, false)

/-- The 28-byte message of one 16-byte unit (R439). -/
def sigMessage (as : List Acc) (unit : Nat) : List Byte :=
  let bs := (List.range 16).map fun i => writtenByte as (16 * unit + i)
  let data := bs.map fun b => (b.map (·.1)).getD 0#8
  let mask := ((List.range 16).map fun i => if (bs.getD i none).isSome then 2 ^ i else 0).sum
  let code (k : Nat) : Nat :=
    let four := (bs.drop (4 * k)).take 4
    if four.any fun b => (b.map (·.2)).getD false then 15
    else res (wordOfBytes (four.map fun b => ((b.map (·.1)).getD 0#8, false))).data
  let codes := code 0 + 16 * code 1 + 256 * code 2 + 4096 * code 3
  ((List.range 8).map fun i => BitVec.ofNat 8 (16 * unit / 256 ^ i)) ++ data ++
    [BitVec.ofNat 8 mask, BitVec.ofNat 8 (mask / 256), BitVec.ofNat 8 codes, BitVec.ofNat 8 (codes / 256)]

/-- Signature of the held writes of one issue. -/
def signature (as : List Acc) : BitVec 64 :=
  let units := (as.flatMap fun a => [a.va / 16, (a.va / 4 * 4 + 4 * a.count - 1) / 16]).eraseDups.filter fun u =>
    (List.range 16).any fun i => (writtenByte as (16 * u + i)).isSome
  units.foldl (fun x u => x + crc64 (sigMessage as u)) 0#64

/-- Hold the writes of one issue (R438, R439). -/
def holdWrites (s : State) (n : Nat) (as : List Acc) : State :=
  s.updWg n fun w => { w with held := w.held ++ as.map (fun a => { a with done := true }), sig := w.sig + signature as }

/-- Lay a take's own held stores over words it loads (R341). -/
def overlay (held : List Acc) (a : Acc) (ws : List CWord) : List CWord :=
  (held.filter fun h => h.overlaps a || (h.coded == none && a.coded == none && h.pa / 128 == a.pa / 128)).foldl (fun l h =>
    if h.page == .spad || a.page == .spad then l
    else (List.range h.data.length).foldl (fun l k =>
      if a.pa ≤ h.pa + 4 * k && h.pa + 4 * k < a.pa + 4 * l.length then
        let i := (h.pa + 4 * k - a.pa) / 4
        l.set i (mergeWord (l.getD i .zero) (h.data.getD k .zero) (bitsAt h.mask (4 * k) 4))
      else l) l) ws

/-! ### Scratchpad words -/

/-- Words of a workgroup's scratchpad. -/
def Wg.spadRead (w : Wg) (o n : Nat) : List CWord := (List.range n).map fun i => lookD .zero w.spad (o / 4 + i)

/-- Write words of scratchpad under a byte mask for a core; an entry check comes first (Table 15.10, code 0). -/
def spadWriteBy (s : State) (core n o mask : Nat) (ws : List CWord) : State :=
  match s.wg? n with
  | none => s
  | some w =>
    let (s1, ins) := checkIn s 0 (clusterUnit w.core) (s.partOf w) core (65536 * w.base + o) ws
    let s2 := checkMerge s1 0 (clusterUnit w.core) (s.partOf w) core (65536 * w.base + o) (w.spadRead o ins.length) 0 mask ins
    s2.updWg n fun w => { w with
      spad := (List.range ins.length).foldl (fun m i =>
        put .zero m (o / 4 + i) (mergeWord (lookD .zero m (o / 4 + i)) (ins.getD i .zero) (bitsAt mask (4 * i) 4))) w.spad }

/-- The same for the workgroup's own core. -/
def spadWrite (s : State) (n o mask : Nat) (ws : List CWord) : State :=
  match s.wg? n with
  | none => s
  | some w => spadWriteBy s w.core n o mask ws

/-- The granule bit; copies that disagree are emptied with a record (R110). -/
def granuleRead (s : State) (n i : Nat) : State × Bool :=
  match s.wg? n with
  | none => (s, false)
  | some w =>
    let a := lookD false w.gran i
    let b := lookD false w.gran2 i
    if a == b then (s, a)
    else
      let s1 := s.setWg n { w with gran := put false w.gran i false, gran2 := put false w.gran2 i false }
      (appendRecord s1 (s.partOf w) 0x30 w.core 0 (65536 * w.base + 16 * i) 0 0, false)

/-- Set granules full or empty. -/
def Wg.setGranules (w : Wg) (full : Bool) (is : List Nat) : Wg :=
  { w with
    gran := is.foldl (fun m i => put false m i full) w.gran
    gran2 := is.foldl (fun m i => put false m i full) w.gran2 }

/-- Granules that some accesses touch. -/
def granulesOf (as : List Acc) : List Nat := (as.map fun a => a.pa / 16).eraseDups

/-! ### Performing an access -/

/-- Give every access of an operation the threads that take part in it: those of the issue when it has one access for all. -/
def sharedBy (m : BitVec 64) (shared : Bool) (as : List Acc) : List Acc := if shared then as.map fun a => { a with threads := m } else as

/-- Record the outcome of an access. -/
def Tg.setAcc (g : Tg) (op acc : Nat) (res : List CWord) : Tg :=
  { g with ops := g.ops.map fun o =>
      if o.id == op then { o with accs := updAt o.accs acc fun a => { a with done := true, result := res } } else o }

/-- Read or write at the L1 and the home (Tables 5.1 and 14.2): the words read. `home` says that the access is
performed at the L2 home (`LDA`, `STL`, SO pages, coded pages). -/
def performLS (s : State) (pt core : Nat) (home : Bool) (a : Acc) : State × List CWord :=
  match a.coded with
  | some t =>
    match a.kind with
    | .store => (codedSend s pt core t (a.pa % 128 / 4) a.mask a.data, [])
    | _ => let (s1, ws) := codedToCore s pt core t; (s1, (ws.drop (a.pa % 128 / 4)).take a.count)
  | none =>
    if a.page == .host then
      match a.kind with
      | .store => (hostWrite s pt core a.pa a.mask a.data, [])
      | _ => carry s 6 (dieOf core) 8 (clusterUnit core) pt core a.pa (hostRead s a.pa a.count)
    else
      match a.kind with
      | .store =>
        if a.page == .so || home then
          let s1 := sendHome s pt core a.pa a.mask a.data
          match l1Find s1 core a.pa none with
          | some ln =>
            let mask := Nat.land a.mask (ln.valid / 2 ^ (a.pa % 128))
            (l1Put (checkMerge s1 1 (clusterUnit core) pt core a.pa ln.words (a.pa % 128 / 4) mask a.data)
              { ln with
                words := mergeWords ln.words (a.pa % 128 / 4) mask a.data
                dirty := maskDiff ln.dirty (a.mask * 2 ^ (a.pa % 128)) }, [])
          | none => (s1, [])
        else (l1Write s pt core a.pa a.page a.mask a.data, [])
      | _ =>
        if a.page == .so || home then
          let (s1, ws) := lineToCore (match l1Find s core a.pa none with | some ln => l1WriteBack s ln | none => s) pt core a.pa
          let ln := (l1Find s1 core a.pa none).getD (emptyL1 pt core a.pa a.page none)
          (l1Put s1 { ln with words := ws, valid := 2 ^ 128 - 1 }, (ws.drop (a.pa % 128 / 4)).take a.count)
        else
          match l1Read s core a.pa a.mask a.count with
          | some ws => (s, ws)
          | none =>
            let s1 := l1Fill s pt core a.pa a.page
            (s1, (l1Read s1 core a.pa a.mask a.count).getD [])

/-- Perform an atomic at a bank ALU (R108, R310, R311): a stored word that fails its check is used as Poison. -/
def bankAtomic (s : State) (n : Nat) (a : Acc) : State × List CWord :=
  match s.wg? n with
  | none => (s, [])
  | some w =>
    let (s1, old) := checkIn s 9 (clusterUnit w.core) (s.partOf w) w.core (65536 * w.base + a.pa)
      (w.spadRead a.pa a.data.length)
    let stores := match a.kind with
      | .cas _ => anyBad old || (!anyBad a.data && valOf old == valOf a.data)
      | _ => true
    let new := (a.kind.after old a.data a.data2).zip (a.err ++ List.replicate a.data.length 0#32)
    let off (x : CWord × Word) : CWord := if x.1.bad then x.1 else .of (x.1.data ^^^ x.2)
    (if stores then spadWrite s1 n a.pa (byteMask 0 (4 * a.data.length)) (new.map off) else s1, old)

/-- Perform a scratchpad access of a workgroup, or of the one that a cluster-remote access names. -/
def performSpad (s : State) (own : Nat) (a : Acc) : State × List CWord :=
  let n := a.wg.getD own
  match a.kind with
  | .store => (spadWriteBy s (((s.wg? own).map (·.core)).getD 0) n a.pa a.mask a.data, [])
  | .load =>
    match s.wg? n, s.wg? own with
    | some w, some o =>
      let ws := w.spadRead a.pa a.count
      -- the words of a cluster-remote load are checked as they return to the issuing core (R109, R292)
      if a.wg.isSome then checkIn s 8 (clusterUnit o.core) (s.partOf o) o.core (65536 * w.base + a.pa) ws else (s, ws)
    | _, _ => (s, [])
  | _ => bankAtomic s n a

/-! ### Counting out performed operations -/

/-- The access needs nothing but its turn: an arrival or an `STF`. -/
def MemOp.inOrder (o : MemOp) : Bool := o.arrive.isSome || o.setFull

/-- SCOPE of a barrier of a workgroup (R380). -/
def barrierScope (s : State) (w : Wg) (b : Nat) : Nat :=
  match s.sheetOf w with
  | some h => ((h.levels[h.blev.getD b 2]?).map (·.scope)).getD 2
  | none => 2

def scopeCode : Scope → Nat
  | .thread => 0 | .tg => 1 | .wg => 2 | .cluster => 3 | .die => 4 | .device => 5 | .system => 6

/-- A release of the core's L1 at a scope (R326). -/
def releaseAt (s : State) (core scope : Nat) : State := if 3 ≤ scope then l1Release s core else s

/-- An acquire of the core's L1 at a scope (R327). -/
def acquireAt (s : State) (core scope : Nat) : State := if 3 ≤ scope then l1Acquire s core else s

/-- Make the arrival of an operation: the release, then the arrival; PH goes to its uniform, and the wait of `BARS`
begins (R362 to R364). -/
def makeArrival (s : State) (r : TgRef) (op : Nat) (x : Arrival) : State :=
  match s.wg? r.wg with
  | none => s
  | some w =>
    let s1 := releaseAt s w.core x.scope
    match s1.wg? r.wg with
    | none => s1
    | some w1 =>
      let q := ((w1.barriers[x.bar]?).map (·.ph)).getD 0#32
      let s2 := s1.setWg r.wg (Wg.arrive { w1 with tensors := w1.tensors.map (Tensor.arrived r.tg op x.bar) } x.bar 0#8)
      let s3 := match x.rd with
        | some u => s2.updTg r fun g => g.landWords op [(.s u.toNat, .of q)]
        | none => s2
      s3.updTg r fun g => g.mapWaits fun l => l.filterMap fun y =>
        if y == .arrival op then x.wait.map fun d => .barrier x.bar q d else some y

/-- The first operation, in issue order, that has not been counted out. -/
def Tg.firstOpen (g : Tg) : Option MemOp := g.ops.find? fun o => !o.performed

/-- Count an operation out: its counters fall, and one without destination leaves (R162, R299, R316). -/
def Tg.countOut (g : Tg) (o : MemOp) : Tg :=
  let g1 := g.subSlots o.slots
  { g1 with
    cntMem := if o.counts then g1.cntMem - 1 else g1.cntMem
    ops := if o.dst.isNone && o.results.isEmpty then g1.ops.filter fun p => p.id != o.id
           else g1.ops.map fun p => if p.id == o.id then { p with performed := true } else p }

/-- Perform what has come to its turn, and count operations out in issue order (R299). -/
def advance (s : State) (r : TgRef) : Nat → State
  | 0 => s
  | fuel + 1 =>
    match s.tg? r with
    | none => s
    | some g =>
      match g.firstOpen with
      | none => s
      | some o =>
        match o.arrive with
        | some x =>
          if o.gated != 0 then s
          else advance ((makeArrival s r o.id x).updTg r fun g => g.countOut o) r fuel
        | none =>
          if o.setFull then
            let s1 := o.accs.foldl (fun s a => (performSpad s r.wg a).1) s
            let s2 := s1.updWg r.wg fun w => w.setGranules true (granulesOf o.accs)
            advance (s2.updTg r fun g => g.countOut o) r fuel
          else if o.grn.isNone && o.accs.all (·.done) then
            let s1 := match o.acquire, s.wg? r.wg with
              | some sc, some w => acquireAt s w.core (scopeCode sc)
              | _, _ => s
            advance (s1.updTg r fun g => g.countOut o) r fuel
          else s

/-- Every operation of a thread group that has come to its turn. -/
def settle (s : State) (r : TgRef) : State := advance s r (((s.tg? r).map (·.ops.length)).getD 0 + 1)

/-! ### Issuing accesses -/

/-- Accesses that are performed at issue: scratchpad accesses, and those that the L1 performs without its home
(Table 14.2). -/
def atIssue (s : State) (core : Nat) (o : MemOp) (a : Acc) : Bool :=
  (o.acquire.isNone && o.granule.isNone && !o.rel && !o.setFull && a.coded.isNone) &&
    (a.page == .spad || ((a.page == .rc || a.page == .uo) &&
      match a.kind with
      | .store => true
      | .load => (l1Read s core a.pa a.mask a.count).isSome
      | _ => false))

/-- Perform one access now and store its result. -/
def performOne (s : State) (r : TgRef) (op ix : Nat) (a : Acc) (home : Bool) : State :=
  match s.wg? r.wg with
  | none => s
  | some w =>
    let (s1, ws) := if a.page == .spad then performSpad s r.wg a else performLS s (s.partOf w) w.core home a
    let mark := (((s.tg? r).bind fun g => g.ops.find? fun o => o.id == op).map (·.mark)).getD 0
    let ws := if w.takeOn && a.kind == .load then overlay (w.held.take mark) a ws else ws
    s1.updTg r fun g => g.setAcc op ix ws

/-- Accesses that a take holds instead of performing (R438). -/
def Acc.isHeld (a : Acc) : Bool := a.kind == .store && a.page != .spad

/-- Perform at issue what can be, in order of threads. -/
def performAtIssue (s : State) (r : TgRef) (op : Nat) : State :=
  match s.tg? r, s.wg? r.wg with
  | some g, some w =>
    match g.ops.find? fun o => o.id == op with
    | some o => (o.accs.zip (List.range o.accs.length)).foldl (fun s ai =>
        match s.tg? r with
        | some g =>
          let now := (g.ops.find? fun o => o.id == op).getD o
          if !ai.1.done && !(w.takeOn && ai.1.isHeld) && atIssue s w.core o ai.1 && g.mayPerform now ai.2 ai.1 then
            performOne s r op ai.2 ai.1 false
          else s
        | none => s) s
    | none => s
  | _, _ => s

/-- A `GRN` acts on its granules in ascending order once no earlier acquire, and for a change no earlier release, is incomplete; its
step is whole, so that every `LDF` and copy sees each granule before or after it (R309). -/
def performGrn (s : State) (r : TgRef) (op : Nat) : State :=
  match s.tg? r with
  | none => s
  | some g =>
    match (g.ops.find? fun o => o.id == op).bind (·.grn) with
    | none => s
    | some x =>
      let is := (List.range x.count).map (x.first + ·)
      let did (f : MemOp → MemOp) (s : State) : State := s.updTg r fun g => { g with
        ops := g.ops.map fun o => if o.id == op then { f o with grn := none } else o }
      if g.acquiring op || (x.set.isSome && g.releasing op) then s
      else
        match x.set with
        | some b => did id (s.updWg r.wg fun w => w.setGranules b is)
        | none =>
          let (s1, k) := is.foldl (fun (y : State × Nat) i =>
            let (s', b) := granuleRead y.1 r.wg i
            (s', y.2 + b.toNat)) (s, 0)
          did (fun o => { o with results := o.results.map fun kw => (kw.1, .of (BitVec.ofNat 32 k)) }) s1

/-- Perform, in issue order, whatever can be, and count out what is performed. -/
def pump (s : State) (r : TgRef) : Nat → State
  | 0 => s
  | n + 1 =>
    let ids := ((s.tg? r).map fun g => (g.ops.filter fun o => !o.performed).map (·.id)).getD []
    pump (settle (ids.foldl (fun s id => performGrn (performAtIssue s r id) r id) s) r) r n

/-- Perform everything of a thread group that has come to its turn. -/
def progress (s : State) (r : TgRef) : State := pump s r (((s.tg? r).map (·.ops.length)).getD 0 + 1)

/-- An earlier store of the same thread that is not yet held names the same bytes. -/
def Tg.overlapped (g : Tg) (as : List Acc) : Bool :=
  as.any fun a => g.ops.any fun o => o.accs.any fun b => !b.done && b.isHeld && b.shares a && b.overlaps a

/-- The stores of an operation are held. -/
def holdOp (s : State) (r : TgRef) (id : Nat) : State :=
  match (s.tg? r).bind fun g => g.ops.find? fun o => o.id == id with
  | none => s
  | some o =>
    (holdWrites s r.wg (o.accs.filter fun a => a.isHeld && !a.done)).updTg r fun g => { g with ops := g.ops.map fun p =>
      if p.id == id then { p with gated := 0, accs := p.accs.map fun a => if a.isHeld then { a with done := true } else a } else p }

/-- Hold the stores of an operation when nothing bars them; one that finds no entry waits for it, which is a commit point
(R440). -/
def tryHold (s : State) (r : TgRef) (o : MemOp) : State :=
  match s.tg? r, s.wg? r.wg with
  | some g, some w =>
    let stores := o.accs.filter fun a => a.isHeld && !a.done
    if stores.isEmpty || o.gated != 0 then s
    else if rushesRoom s w stores then holdOp s r o.id
    else (s.setTg r { g with ops := g.ops.map fun p => if p.id == o.id then { p with gated := g.commits + 1 } else p }).updTg r
      Tg.oweCommit
  | _, _ => s

/-- Put a memory operation in flight: in two-take mode its writes to memory are held (R438 to R441), an atomic, a release and
a store over one that waits wait for the commit points before them; what can be performed at once is. -/
def issueOp (s : State) (r : TgRef) (o : MemOp) : State :=
  match s.tg? r, s.wg? r.wg with
  | some g, some w =>
    let stores := o.accs.filter Acc.isHeld
    let bars := w.takeOn && (stores.isEmpty || decide (3 ≤ scopeCode o.scope) || g.overlapped stores)
    let o1 := { o with id := g.nextOp, mark := w.held.length, gated := if bars then g.commits else 0 }
    let s1 := s.setTg r (g.launchOp o1)
    let s2 := if w.takeOn && !stores.isEmpty then tryHold s1 r o1 else performAtIssue s1 r g.nextOp
    progress s2 r
  | _, _ => s

end Sys2Proof.Machine
end

