-- ==== Sys2Proof/Machine/EngineMem.lean ====
section
/-! DEFINITION. Accesses of engines: pieces of a stream of bytes at their translated places (R120 to R124, R139, R140,
R322), reading them into a buffer and writing them out (R127), completion of an engine's command as a transfer unit
(R128, R146) and waits for a place in a queue (R89, R117, R260). -/

namespace Sys2Proof.Machine

/-- The agent of an engine's access: thread group, core, context, partition, whether its pages may be SUPER, and the
check point of its buffer (Table 15.10). -/
structure Eng where
  r : TgRef
  core : Nat
  ctx : Nat
  pt : Nat
  super : Bool
  point : Nat

/-- One side of a transfer: scratchpad, RAW, written, the address of each row, bytes of a row. -/
structure Side where
  spad : Bool
  raw : Bool
  write : Bool
  row : Nat → Int
  rowb : Nat

/-- Some bytes of a stream at one place, within one line: first stream byte, how many, address named, byte address
there; the block of a coded region whose code they are, for a raw access. -/
structure Piece where
  o : Nat
  n : Nat
  va : Nat
  pa : Nat
  page : PageKind
  coded : Option CodedTag
  raw : Option (CodedTag × Nat)

/-- Outcome of placing a piece: a fault has a code of Table 5.5, or 0x11 for a coded-region breach. -/
inductive PieceOut where
  | ok (p : Piece)
  | fail (cause : Nat)
  | wait (w : PageWait)

/-- Split bytes at 128-byte lines. -/
def lineSplit (a n : Nat) : List (Nat × Nat) :=
  if n == 0 then []
  else (List.range ((a + n - 1) / 128 - a / 128 + 1)).map fun k =>
    let lo := max a (128 * (a / 128 + k))
    (lo, min (a + n) (128 * (a / 128 + k + 1)) - lo)

/-- Runs of a part of the stream: row, first byte of the row, how many, first stream byte. -/
def streamRuns (rowb lo hi : Nat) : List (Nat × Nat × Nat × Nat) :=
  (List.range ((hi - 1) / rowb - lo / rowb + 1)).map fun k =>
    let r := lo / rowb + k
    let a := max lo (r * rowb)
    (r, a - r * rowb, min hi ((r + 1) * rowb) - a, a)

/-- Access class of a side (Table 5.7). -/
def Side.cls (d : Side) : Nat := if d.write then 5 else 4

/-- Place some bytes by a virtual address; `check` judges a coded page. -/
def placeBytes (s : State) (a : Eng) (cls : Nat) (check : CodedTag → Bool) (va : Int) (n o : Nat) : State × PieceOut :=
  if va < 0 || 2 ^ 57 ≤ va.toNat then (s, .fail 8)
  else
    match translate s a.core a.ctx a.super cls va.toNat n with
    | (s1, .fault cause level pte) =>
      (s1, if replayable cause then .wait (pageWait va.toNat cls cause level pte 0) else .fail cause)
    | (s1, .to pa page coded) =>
      match coded with
      | some t => (s1, if check t then .ok ⟨o, n, va.toNat, pa, page, some t, none⟩ else .fail 0x11)
      | none => (s1, .ok ⟨o, n, va.toNat, pa, page, none, none⟩)

/-- Place several pieces in order. -/
def placeAll (s : State) (f : State → Nat × Nat → State × PieceOut) : List (Nat × Nat) → State × List PieceOut
  | [] => (s, [])
  | x :: xs =>
    let (s1, p) := f s x
    let (s2, ps) := placeAll s1 f xs
    (s2, p :: ps)

/-- A decoded side begins each written row on 8 bytes and has rows of whole doubles (R139). -/
def Side.decodedOk (d : Side) (row : Nat) (t : CodedTag) : Bool :=
  !d.raw && (!d.write || ((d.row row - t.entry.dbase) % 8 == 0 && d.rowb % 8 == 0))

/-- A raw row begins at the first element of a block and ends within the region, in whole blocks (R140). -/
def Side.rawOk (d : Side) (t : CodedTag) (off : Nat) : Bool :=
  let (j, i) := t.entry.place off
  i == 0 && off % 8 == 0 && d.rowb % t.entry.bytes == 0 && decide (j * t.entry.bytes + d.rowb ≤ t.entry.nblk * t.entry.bytes)

/-- Pieces of the code of a raw row: block by block, each block's page checked. -/
def rawPieces (s : State) (a : Eng) (d : Side) (t : CodedTag) (va j0 j n o : Nat) : State × List PieceOut :=
  let e := t.entry
  let first := e.codeAt j0 + j
  let blocks := (List.range ((first + n - 1 - e.pbase) / e.bytes - (first - e.pbase) / e.bytes + 1)).map fun k =>
    let b := (first - e.pbase) / e.bytes + k
    let lo := max first (e.codeAt b)
    (lo, min (first + n) (e.codeAt (b + 1)) - lo)
  placeAll s (fun s x =>
    let b := (x.1 - e.pbase) / e.bytes
    match placeBytes s a d.cls (fun u => u.ix == t.ix) (e.dbase + e.valueAt b 0 : Nat) 8 0 with
    | (s1, .ok p) =>
      match p.coded with
      | some u => (s1, .ok ⟨o + (x.1 - first), x.2, va + (x.1 - first), x.1, .rc, none, some (u, b)⟩)
      | none => (s1, .fail 0x11)
    | r => r) (blocks.flatMap fun x => lineSplit x.1 x.2)

/-- Whether the first page of a side is coded, where it is there. -/
def Side.coded (s : State) (a : Eng) (d : Side) : Option Bool :=
  match placeBytes s a d.cls (fun _ => true) (d.row 0) 1 0 with
  | (_, .ok p) => some p.coded.isSome
  | _ => none

/-- Pieces of one run of a side. A raw side with a coded page has every row begin in one (R140). -/
def runPieces (s : State) (a : Eng) (d : Side) (x : Nat × Nat × Nat × Nat) : State × List PieceOut :=
  let (row, j, n, o) := x
  let va := d.row row + j
  if d.spad then (s, (lineSplit va.toNat n).map fun y => .ok ⟨o + (y.1 - va.toNat), y.2, y.1, y.1, .spad, none, none⟩)
  else
    let plain (s : State) : State × List PieceOut :=
      if va < 0 then (s, [.fail 8])
      else placeAll s (fun s y => placeBytes s a d.cls (d.decodedOk row) y.1 y.2 (o + (y.1 - va.toNat))) (lineSplit va.toNat n)
    if d.raw then
      match placeBytes s a d.cls (fun _ => true) (d.row row) 1 o with
      | (s1, .ok p) =>
        match p.coded with
        | some t =>
          if d.rawOk t p.pa && d.coded s1 a != some false then rawPieces s1 a d t va.toNat (t.entry.place p.pa).1 j n o
          else (s1, [.fail 0x11])
        | none => if d.coded s1 a == some true then (s1, [.fail 0x11]) else plain s1
      | (s1, r) => (s1, [r])
    else plain s

/-- Pieces of a part of the stream. -/
def sidePieces (s : State) (a : Eng) (d : Side) (lo hi : Nat) : State × List PieceOut :=
  (streamRuns d.rowb lo hi).foldl (fun x run =>
    let (s1, ps) := runPieces x.1 a d run
    (s1, x.2 ++ ps)) (s, [])

/-- What placing gave: the pieces, the first fault, the pages to wait for. -/
def gather (ps : List PieceOut) : Option Nat × List PageWait × List Piece :=
  (ps.findSome? fun p => match p with | .fail c => some c | _ => none,
   ps.filterMap fun p => match p with | .wait w => some w | _ => none,
   ps.filterMap fun p => match p with | .ok x => some x | _ => none)

/-! ### Reading and writing -/

/-- Bytes that a word of the buffer gives to the stream. -/
def BufWord.bytes (b : BufWord) : List (Byte × Bool) := ((bytesOf [b.w]).drop b.o).take b.n

/-- A piece as an access, for what a take has held (R341). -/
def Piece.probe (p : Piece) (wa : Nat) : Acc := mkAcc 0 .load p.va p.n wa p.page p.coded [] []

/-- Read a piece into the buffer; each word is checked on entry (R127). -/
def readPiece (s : State) (a : Eng) (p : Piece) : State × List BufWord :=
  let lo := p.pa % 4
  let nw := (lo + p.n + 3) / 4
  let wa := p.pa / 4 * 4
  let s0 := match p.raw with
    | some (t, b) => encodeDirty s a.pt a.core t fun j => j == b
    | none => s
  let (s1, ws) :=
    if p.page == .spad then
      match s0.wg? a.r.wg with
      | some w => checkIn s0 a.point (clusterUnit a.core) a.pt a.core (65536 * w.base + wa) (w.spadRead wa nw)
      | none => (s0, [])
    else
      let (s1, ws) := fetchWords s0 a.pt a.core a.point (clusterUnit a.core) wa p.page p.coded nw
      (s1, (match s1.wg? a.r.wg with | some w => overlay w.held (p.probe wa) ws | none => ws))
  (s1, (ws.zip (List.range nw)).map fun wk =>
    let o := if wk.2 == 0 then lo else 0
    ⟨o, min (4 - o) (lo + p.n - 4 * wk.2 - o), wk.1⟩)

def readPieces (s : State) (a : Eng) (ps : List Piece) : State × List BufWord :=
  ps.foldl (fun x p => let (s1, ws) := readPiece x.1 a p; (s1, x.2 ++ ws)) (s, [])

/-- Take words from the buffer: one that fails its check becomes Poison, with a record (R127). -/
def drainBuf (s : State) (a : Eng) (bs : List BufWord) : State × List (Byte × Bool) :=
  let (s1, ws) := checkIn s a.point (clusterUnit a.core) a.pt a.core 0 (bs.map (·.w))
  (s1, (bs.zip ws).flatMap fun x => BufWord.bytes { x.1 with w := x.2 })

/-- Drop the issuing core's L1 copies of the lines of a decoded set. -/
def dropDecodedSet (s : State) (core : Nat) (t : CodedTag) : State :=
  { s with cs := { s.cs with l1 := s.cs.l1.filter fun ln => !(ln.core == core && (ln.coded.map t.sameSet).getD false) } }

/-- Drop the issuing core's L1 copy of a decoded line. -/
def dropDecoded (s : State) (core : Nat) (t : CodedTag) : State :=
  { s with cs := { s.cs with l1 := s.cs.l1.filter fun ln => !ln.isAt core 0 (some t) } }

/-- The aligned words and the mask that some bytes give at a piece. -/
def pieceData (p : Piece) (bs : List (Byte × Bool)) : Nat × List CWord :=
  (byteMask (p.pa % 4) p.n, wordsOfBytes (List.replicate (p.pa % 4) (0#8, false) ++ bs.take p.n))

/-- Write an uncoded piece. -/
def writePiece (s : State) (a : Eng) (p : Piece) (bs : List (Byte × Bool)) : State :=
  let (mask, ws) := pieceData p bs
  let wa := p.pa / 4 * 4
  if p.page == .spad then spadWrite s a.r.wg wa mask ws
  else if p.page == .host then hostWrite s a.pt a.core wa mask ws
  else sendHome (l1Drop s a.core wa) a.pt a.core wa mask ws

/-- Decoded pieces by decoded set. -/
def codedGroups (ps : List (CodedTag × CodedWrite)) : List (CodedTag × List CodedWrite) :=
  ps.foldl (fun gs x =>
    if gs.any fun g => g.1.sameSet x.1 then gs.map fun g => if g.1.sameSet x.1 then (g.1, g.2 ++ [x.2]) else g
    else gs ++ [(x.1, [x.2])]) []

/-- The writes to memory that a take holds for some pieces (R438), unit by unit. -/
def heldOf (ps : List Piece) (lo : Nat) (bs : List (Byte × Bool)) : List Acc :=
  (ps.filter fun p => p.page != .spad).flatMap fun p =>
    let data := bs.drop (p.o - lo)
    (List.range ((p.pa + p.n - 1) / 16 - p.pa / 16 + 1)).map fun k =>
      let a := max p.pa (16 * (p.pa / 16 + k))
      let n := min (p.pa + p.n) (16 * (p.pa / 16 + k + 1)) - a
      mkAcc 0 .store (p.va + (a - p.pa)) n a p.page p.coded
        (wordsOfBytes (List.replicate (a % 4) (0#8, false) ++ (data.drop (a - p.pa)).take n)) []

/-- Write the bytes of a part of the stream at its pieces, `lo` being its first stream byte: the doubles of one decoded
set merge at once (R139), a raw write first drops the decoded set (R140). -/
def writePieces (s : State) (a : Eng) (ps : List Piece) (lo : Nat) (bs : List (Byte × Bool)) : State :=
  let at_ (p : Piece) : List (Byte × Bool) := bs.drop (p.o - lo)
  let raws := ps.filterMap (·.raw)
  let s1 := raws.foldl (fun s x => dropDecodedSet (dropSet s a.pt a.core x.1 fun j => raws.any fun y => y.1.ix == x.1.ix && y.2 == j)
    a.core x.1) s
  let s2 := (ps.filter fun p => p.coded.isNone).foldl (fun s p => writePiece s a p (at_ p)) s1
  let (s3, ups) := (ps.filter fun p => p.coded.isSome).foldl (fun (x : State × List (CodedTag × CodedWrite)) p =>
    match p.coded with
    | none => x
    | some t =>
      let (mask, ws) := pieceData p (at_ p)
      let (s', ins) := carry x.1 (dieOf a.core) (codedHome x.1 t) 2 (codedSlice x.1 t) a.pt a.core 0 ws
      (dropDecoded s' a.core t, x.2 ++ [(t, ⟨t.line, p.pa % 128 / 4, mask, ins⟩)])) (s2, [])
  (codedGroups ups).foldl (fun s g => codedMergeSet s a.pt a.core g.1 g.2) s3

/-- Write a part of the stream, or hold it in two-take mode: none when no entry is free for it (R440). -/
def engineWrite (s : State) (a : Eng) (ps : List Piece) (lo : Nat) (bs : List (Byte × Bool)) : Option State :=
  match s.wg? a.r.wg with
  | none => some s
  | some w =>
    if w.takeOn then
      let as := heldOf ps lo bs
      if rushesRoom s w as then
        let s1 := (ps.filterMap (·.raw)).foldl (fun s x => dropSet s a.pt a.core x.1 fun _ => false) s
        some (writePieces (holdWrites s1 a.r.wg as) a (ps.filter fun p => p.page == .spad) lo bs)
      else none
    else some (writePieces s a ps lo bs)

/-- An engine operation takes a place in the issue order of its thread group. -/
def Tg.place (g : Tg) : Tg := { g with nextOp := g.nextOp + 1 }

/-- Uncorrectable atoms that the controllers have met. -/
def uncorrTotal (s : State) : Nat := (s.mm.uncorr.map (·.2)).sum

/-! ### Completion -/

/-- The completion of a transfer unit: an arrival on its barrier, or a record of a nonzero status that no barrier
reports (R128, R146). -/
def reportCompletion (s : State) (r : TgRef) (part core : Nat) (arrv : Bool) (bar status : Nat) : State :=
  if arrv then s.updWg r.wg fun w => w.arrive bar (BitVec.ofNat 8 status)
  else if status == 0 then s else completionRecord s part core status

end Sys2Proof.Machine
end

