-- ==== Sys2Proof/Machine/Integer.lean ====
section
/-! DEFINITION. Group 0x1: integer arithmetic (R197 to R208). -/

namespace Sys2Proof.Machine

/-- `.sat` clamps when SAT of the INT class is 1 (R200). -/
def Ctx.clamps (c : Ctx) (sat : Bool) : Bool := sat && (ctlOf c.e.g.fmode.toNat (Fmt.int true 8).cls).sat

/-- Extension of an immediate to a 64-bit integer operand (R156). -/
def intExt (ty : IntTy) : ImmExt := if ty.signed then .sign else .zero

def intB (ty : IntTy) (b : Opd) : Src := { srcB b ty.words with ext := intExt ty }

/-- The sources a and b of the type's width. -/
def intAB (ty : IntTy) (a : Reg) (b : Opd) : List Src := [srcA a ty.words, intB ty b]

def execIadd (h : Hints) (ty : IntTy) (sat : Bool) (d a : Reg) (b : Opd) (s : State) : Host.Outcome State Fault Refusal :=
  fixedOp s h 4 d ty.words (intAB ty a b) fun c l => laneIadd ty (c.clamps sat) (c.val 0 l) (c.val 1 l) (c.bad l)

/-- Carry into a lane of `IADDX`: NOCIN gives 0 (R204). -/
def carryIn (c : Ctx) (ci : Option (BitVec 3)) (l : Nat) : Nat :=
  match ci with
  | some i => (c.e.guard i l).toNat
  | none => 0

/-- Sum of `IADDX` before it is cut to 32 bits. -/
def carrySum (c : Ctx) (ci : Option (BitVec 3)) (l : Nat) : Nat := c.val 0 l + c.val 1 l + carryIn c ci l

def execIaddx (h : Hints) (ty : IntTy) (d : Reg) (co : BitVec 3) (a : Reg) (b : Opd) (ci : Option (BitVec 3)) (s : State) :
    Host.Outcome State Fault Refusal :=
  let srcs := (intAB ty a b).map Src.consumed
  issue s { h := h, srcs := srcs, guards := ci.toList, dst := some (d, 1) }
    (fun c l => LaneRes.pred 32 (carrySum c ci l % 2 ^ 32) 0 (predAdd 32 (c.val 0 l) (c.val 1 l) (carryIn c ci l)) (c.bad l))
    noLate fun c =>
      let g := (c.results d).foldl (fun g kw => g.write 4 kw.1 kw.2) c.tg
      c.put (c.e.part.foldl (fun g l => g.writeGuard 4 co.toNat l (decide (2 ^ 32 ≤ carrySum c ci l))) g)

def execIsub (h : Hints) (ty : IntTy) (sat : Bool) (d a : Reg) (b : Opd) (s : State) : Host.Outcome State Fault Refusal :=
  fixedOp s h 4 d ty.words (intAB ty a b) fun c l => laneIsub ty (c.clamps sat) (c.val 0 l) (c.val 1 l) (c.bad l)

def execIneg (h : Hints) (ty : IntTy) (sat : Bool) (d : Reg) (b : Opd) (s : State) : Host.Outcome State Fault Refusal :=
  fixedOp s h 4 d ty.words [intB ty b] fun c l => laneIneg ty (c.clamps sat) (c.val 0 l) (c.bad l)

def execIabs (h : Hints) (ty : IntTy) (sat : Bool) (d : Reg) (b : Opd) (s : State) : Host.Outcome State Fault Refusal :=
  fixedOp s h 4 d ty.words [intB ty b] fun c l => laneIabs ty (c.clamps sat) (c.val 0 l) (c.bad l)

def execImin (h : Hints) (ty : IntTy) (d a : Reg) (b : Opd) (s : State) : Host.Outcome State Fault Refusal :=
  fixedOp s h 4 d ty.words (intAB ty a b) fun c l => laneImin ty (c.src 0 l) (c.src 1 l)

def execImax (h : Hints) (ty : IntTy) (d a : Reg) (b : Opd) (s : State) : Host.Outcome State Fault Refusal :=
  fixedOp s h 4 d ty.words (intAB ty a b) fun c l => laneImax ty (c.src 0 l) (c.src 1 l)

def execImul (h : Hints) (ty : IntTy) (sat : Bool) (d a : Reg) (b : Opd) (s : State) : Host.Outcome State Fault Refusal :=
  fixedOp s h 6 d ty.words (intAB ty a b) fun c l => laneImul ty (c.clamps sat) (c.val 0 l) (c.val 1 l) (c.bad l)

def execImulh (h : Hints) (ty : IntTy) (d a : Reg) (b : Opd) (s : State) : Host.Outcome State Fault Refusal :=
  fixedOp s h 6 d ty.words (intAB ty a b) fun c l => laneImulh ty (c.val 0 l) (c.val 1 l) (c.bad l)

def execImad (h : Hints) (ty : IntTy) (d a : Reg) (b : Opd) (r : Reg) (s : State) : Host.Outcome State Fault Refusal :=
  fixedOp s h 6 d ty.words (intAB ty a b ++ [srcC r ty.words])
    fun c l => laneImad ty (c.val 0 l) (c.val 1 l) (c.val 2 l) (c.bad l)

def execImadw (h : Hints) (ty : IntTy) (d a : Reg) (b : Opd) (r : Reg) (s : State) : Host.Outcome State Fault Refusal :=
  fixedOp s h 6 d 2 [srcA a 1, srcB b 1, srcC r 2] fun c l => laneImadw ty (c.val 0 l) (c.val 1 l) (c.val 2 l) (c.bad l)

/-- The plan of both forms of the divider, which writes its result once it has returned (R206). -/
def divPlan (h : Hints) (ty : IntTy) (d a : Reg) (b : Opd) : Plan :=
  { h := h, srcs := intAB ty a b, dst := some (d, ty.words), alu := true }

def execIdiv (h : Hints) (ty : IntTy) (d a : Reg) (b : Opd) (s : State) : Host.Outcome State Fault Refusal :=
  varOp s (divPlan h ty d a b) (fun c l => laneDiv ty false (c.val 0 l) (c.val 1 l) (c.bad l)) fun c => c.results d

def execIrem (h : Hints) (ty : IntTy) (d a : Reg) (b : Opd) (s : State) : Host.Outcome State Fault Refusal :=
  varOp s (divPlan h ty d a b) (fun c l => laneDiv ty true (c.val 0 l) (c.val 1 l) (c.bad l)) fun c => c.results d

def execIdot4 (h : Hints) (ty : IntTy) (mix : Bool) (d a : Reg) (b : Opd) (r : Reg) (s : State) :
    Host.Outcome State Fault Refusal :=
  fixedOp s h 6 d 1 [srcA a 1, srcB b 1, srcC r 1]
    fun c l => laneIdot4 ty.signed (ty.signed && !mix) (c.val 2 l) (c.val 0 l) (c.val 1 l) (c.bad l)

def execIsad (h : Hints) (ty : IntTy) (d a : Reg) (b : Opd) (r : Reg) (s : State) : Host.Outcome State Fault Refusal :=
  fixedOp s h 6 d 1 [srcA a 1, srcB b 1, srcC r 1]
    fun c l => laneIsad ty (c.val 2 l) (c.val 0 l) (c.val 1 l) (c.bad l)

def execIclamp (h : Hints) (ty : IntTy) (d a : Reg) (b : Opd) (r : Reg) (s : State) : Host.Outcome State Fault Refusal :=
  fixedOp s h 4 d ty.words (intAB ty a b ++ [srcC r ty.words]) fun c l => laneIclamp ty (c.src 0 l) (c.src 1 l) (c.src 2 l)

def execLea (h : Hints) (ty : IntTy) (k : BitVec 3) (d a : Reg) (b : Opd) (s : State) : Host.Outcome State Fault Refusal :=
  fixedOp s h 4 d ty.words [srcA a 1, intB ty b] fun c l => laneLea ty k.toNat (c.val 0 l) (c.val 1 l) (c.bad l)

end Sys2Proof.Machine
end

