-- ==== Sys2Proof/Machine/Logic.lean ====
section
/-! DEFINITION. Group 0x2: logic, shift and bit instructions (R209 to R216). -/

namespace Sys2Proof.Machine

/-- The five bitwise operations on sources of one width (R210). -/
def logicOp (op : Logic) (h : Hints) (w : Bool) (d a : Reg) (b : Opd) (s : State) : Host.Outcome State Fault Refusal :=
  fixedOp s h 4 d (wide w) [srcA a (wide w), srcB b (wide w)] fun c l => laneLogic op w (c.val 0 l) (c.val 1 l) (c.bad l)

def execAnd (h : Hints) (w : Bool) (d a : Reg) (b : Opd) (s : State) : Host.Outcome State Fault Refusal :=
  logicOp .and h w d a b s

def execOr (h : Hints) (w : Bool) (d a : Reg) (b : Opd) (s : State) : Host.Outcome State Fault Refusal :=
  logicOp .or h w d a b s

def execXor (h : Hints) (w : Bool) (d a : Reg) (b : Opd) (s : State) : Host.Outcome State Fault Refusal :=
  logicOp .xor h w d a b s

def execAndn (h : Hints) (w : Bool) (d a : Reg) (b : Opd) (s : State) : Host.Outcome State Fault Refusal :=
  logicOp .andn h w d a b s

def execOrn (h : Hints) (w : Bool) (d a : Reg) (b : Opd) (s : State) : Host.Outcome State Fault Refusal :=
  logicOp .orn h w d a b s

def execLop3 (h : Hints) (w : Bool) (f0 f1 : BitVec 4) (d a : Reg) (b : Opd) (r : Reg) (s : State) :
    Host.Outcome State Fault Refusal :=
  fixedOp s h 4 d (wide w) [srcA a (wide w), srcB b (wide w), srcC r (wide w)]
    fun c l => laneLop3 w f0 f1 (c.val 0 l) (c.val 1 l) (c.val 2 l) (c.bad l)

/-- A shift: a of the width, a 32-bit count (R212). -/
def shiftOp (f : Nat → Nat → Bool → LaneRes) (h : Hints) (w : Bool) (d a : Reg) (b : Opd) (s : State) :
    Host.Outcome State Fault Refusal :=
  fixedOp s h 4 d (wide w) [srcA a (wide w), srcB b 1] fun c l => f (c.val 0 l) (c.val 1 l) (c.bad l)

def execShl (h : Hints) (w wrap : Bool) (d a : Reg) (b : Opd) (s : State) : Host.Outcome State Fault Refusal :=
  shiftOp (laneShl w wrap) h w d a b s

def execShr (h : Hints) (w wrap : Bool) (d a : Reg) (b : Opd) (s : State) : Host.Outcome State Fault Refusal :=
  shiftOp (laneShr w wrap) h w d a b s

def execSar (h : Hints) (w wrap : Bool) (d a : Reg) (b : Opd) (s : State) : Host.Outcome State Fault Refusal :=
  shiftOp (laneSar w wrap) h w d a b s

def execRol (h : Hints) (w : Bool) (d a : Reg) (b : Opd) (s : State) : Host.Outcome State Fault Refusal :=
  shiftOp (laneRol w) h w d a b s

def execFsh (h : Hints) (left : Bool) (d a : Reg) (b : Opd) (r : Reg) (s : State) : Host.Outcome State Fault Refusal :=
  fixedOp s h 4 d 1 [srcA a 1, srcB b 1, srcC r 1] fun c l => laneFsh left (c.val 0 l) (c.val 1 l) (c.val 2 l) (c.bad l)

def execPopc (h : Hints) (w : Bool) (d : Reg) (b : Opd) (s : State) : Host.Outcome State Fault Refusal :=
  fixedOp s h 4 d 1 [srcB b (wide w)] fun c l => lanePopc w (c.val 0 l) (c.bad l)

def execClz (h : Hints) (w : Bool) (d : Reg) (b : Opd) (s : State) : Host.Outcome State Fault Refusal :=
  fixedOp s h 4 d 1 [srcB b (wide w)] fun c l => laneClz w (c.val 0 l) (c.bad l)

def execCtz (h : Hints) (w : Bool) (d : Reg) (b : Opd) (s : State) : Host.Outcome State Fault Refusal :=
  fixedOp s h 4 d 1 [srcB b (wide w)] fun c l => laneCtz w (c.val 0 l) (c.bad l)

def execBrev (h : Hints) (w : Bool) (d : Reg) (b : Opd) (s : State) : Host.Outcome State Fault Refusal :=
  fixedOp s h 4 d (wide w) [srcB b (wide w)] fun c l => laneBrev w (c.val 0 l) (c.bad l)

def execBfx (h : Hints) (ty : IntTy) (d a : Reg) (b : Opd) (s : State) : Host.Outcome State Fault Refusal :=
  fixedOp s h 4 d ty.words [srcA a ty.words, srcB b 1] fun c l => laneBfx ty (c.val 0 l) (c.val 1 l) (c.bad l)

def execBfi (h : Hints) (w : Bool) (d a : Reg) (b : Opd) (r : Reg) (s : State) : Host.Outcome State Fault Refusal :=
  fixedOp s h 4 d (wide w) [srcA a (wide w), srcB b 1, srcC r (wide w)]
    fun c l => laneBfi w (c.val 0 l) (c.val 1 l) (c.val 2 l) (c.bad l)

def execPermb (h : Hints) (d a : Reg) (b : Opd) (r : Reg) (s : State) : Host.Outcome State Fault Refusal :=
  fixedOp s h 4 d 1 [srcA a 1, srcB b 1, srcC r 1] fun c l => lanePermb (c.val 0 l) (c.val 1 l) (c.val 2 l) (c.bad l)

end Sys2Proof.Machine
end

