-- ==== Sys2Proof/Machine/Compare.lean ====
section
/-! DEFINITION. Group 0x3: compares on guards, guard logic, moves and the residue instructions (R37 to R40, R217 to
R220, R232). -/

namespace Sys2Proof.Machine

/-- The subtraction that checks a compare of two operands of `n` bits (Table 2.2). -/
def compareForm (n : Nat) (x y : Nat) (poison : Bool) : LaneRes :=
  LaneRes.pred n ((x + 2 ^ n - y) % 2 ^ n) 0 (predSub n x y) poison

/-- A guard of a thread before this issue, or what a read of it receives (R161). -/
def oldGuard (c : Ctx) (comb : Comb) (g : BitVec 3) (l : Nat) : Bool := comb != .set && c.e.guard g l

/-- The guard that a compare reads before it writes it. -/
def combGuards (comb : Comb) (g : BitVec 3) : List (BitVec 3) := if comb == .set then [] else [g]

def execIcmp (h : Hints) (ty : IntTy) (cmp : ICond) (comb : Comb) (g : BitVec 3) (a : Reg) (b : Opd) (s : State) :
    Host.Outcome State Fault Refusal :=
  let n := ibits ty
  guardOp s h 4 ((intAB ty a b).map Src.consumed) (combGuards comb g) g
    (fun c l => compareForm n (c.val 0 l) (c.val 1 l) (c.bad l))
    fun c l => combine comb (oldGuard c comb g l) (icond cmp (ival ty.signed n (c.val 0 l)) (ival ty.signed n (c.val 1 l)))

/-- Extension of an immediate to a float operand (R156). -/
def floatB (ty : FloatTy) (b : Opd) : Src := { srcB b ty.words with ext := .high }

def floatAB (ty : FloatTy) (a : Reg) (b : Opd) : List Src := [srcA a ty.words, floatB ty b]

def execFcmp (h : Hints) (ty : FloatTy) (cmp : FCond) (comb : Comb) (g : BitVec 3) (a : Reg) (b : Opd) (s : State) :
    Host.Outcome State Fault Refusal :=
  let mag (x : Nat) : Nat := x % 2 ^ (ty.bits - 1)
  guardOp s h 4 ((floatAB ty a b).map Src.consumed) (combGuards comb g) g
    (fun c l => compareForm (32 * ty.words) (mag (c.val 0 l)) (mag (c.val 1 l)) (c.bad l))
    fun c l => combine comb (oldGuard c comb g l) (fcond cmp (fval ty noMod (c.val 0 l)) (fval ty noMod (c.val 1 l)))

def execGset (h : Hints) (lut : BitVec 4) (g ga gb : BitVec 3) (s : State) : Host.Outcome State Fault Refusal :=
  guardOp s h 4 [] [ga, gb] g (fun _ _ => .guards)
    fun c l => lut.getLsbD (2 * (c.e.guard ga l).toNat + (c.e.guard gb l).toNat)

def execGsetNz (h : Hints) (g : BitVec 3) (b : Opd) (s : State) : Host.Outcome State Fault Refusal :=
  guardOp s h 4 [(srcB b 1).consumed] [] g (fun _ _ => .guards) fun c l => c.val 0 l != 0

def execGmov (h : Hints) (w : Bool) (n : BitVec 3) (neg : Bool) (d a : Reg) (b : Opd) (s : State) :
    Host.Outcome State Fault Refusal :=
  let p : Plan := { h := h, srcs := [srcA a (wide w), srcB b (wide w)], guards := [n], dst := some (d, wide w) }
  issue s p (fun c l => .chosen (c.src (if c.e.guard n l != neg then 0 else 1) l)) noLate fun c =>
    c.put ((c.results d).foldl (fun g kw => g.write 4 kw.1 kw.2) c.tg)

def execSel (h : Hints) (w : Bool) (d a : Reg) (b : Opd) (r : Reg) (s : State) : Host.Outcome State Fault Refusal :=
  fixedOp s h 4 d (wide w) [srcA a (wide w), srcB b (wide w), srcC r 1] fun c l =>
    let x := LaneRes.chosen (c.src (if c.val 2 l != 0 then 0 else 1) l)
    if anyBad (c.src 2 l) then { x with bad := x.bad.map fun _ => true } else x

def execMov (h : Hints) (w : Bool) (d : Reg) (b : Opd) (s : State) : Host.Outcome State Fault Refusal :=
  fixedOp s h 4 d (wide w) [srcB b (wide w)] fun c l => .chosen (c.src 0 l)

/-- The code, or the two codes, of some words as a number (R39). -/
def codesOf (ws : List CWord) : Nat := ws.foldr (fun w n => w.code.toNat + 16 * n) 0

def execRsd (h : Hints) (w raw : Bool) (d : Reg) (b : Opd) (s : State) : Host.Outcome State Fault Refusal :=
  let p : Plan := { h := h, srcs := [{ srcB b (wide w) with raw := raw }], dst := some (d, 1), alu := true, super := raw }
  issue s p (fun c l => let v := codesOf (c.src 0 l); LaneRes.pred 32 v 11 (m15 (rn v)) false) noLate fun c =>
    c.put ((c.results d).foldl (fun g kw => g.write (p.latency 4) kw.1 kw.2) c.tg)

def execRsdp (h : Hints) (w : Bool) (d : Reg) (b : Opd) (s : State) : Host.Outcome State Fault Refusal :=
  fixedOp s h 4 d (wide w) [srcB b (wide w)] fun c l =>
    { words := (c.src 0 l).map (·.data), bad := (c.src 0 l).map fun _ => true, check := fun _ => none }

def execRsdq (h : Hints) (w : Bool) (g : BitVec 3) (b : Opd) (s : State) : Host.Outcome State Fault Refusal :=
  guardOp s h 4 [srcB b (wide w)] [] g (fun _ _ => .guards) fun c l => anyBad (c.src 0 l)

end Sys2Proof.Machine
end

