-- ==== Sys2Proof/Machine/Float.lean ====
section
/-! DEFINITION. Group 0x4: scalar floating point (R222 to R231). -/

namespace Sys2Proof.Machine

/-- Count a conversion when a class that the instruction rounds into has RND 4 (R187). -/
def Ctx.counted (c : Ctx) (cls : List Fmt) (g : Tg) : Tg := if c.stochastic cls then g.countConversions c.e.part else g

/-- A fixed-latency instruction of groups 0x4 and 0x5 that rounds into the classes given. -/
def roundedOp (s : State) (h : Hints) (base : Nat) (cls : List Fmt) (d : Reg) (n : Nat) (srcs : List Src)
    (form : Ctx → Nat → LaneRes) : Host.Outcome State Fault Refusal :=
  let p : Plan := { h := h, srcs := srcs, dst := some (d, n), alu := true }
  issue s p form noLate fun c =>
    c.put ((c.results d).foldl (fun g kw => g.write (p.latency base) kw.1 kw.2) (c.counted cls c.tg))

/-- Latency of groups 0x4 and 0x5 (Table 8.8). -/
def floatLatency (ty : FloatTy) : Nat := if ty == .f64 then 8 else 6

/-- The two-operand operations of R228. -/
def float2 (o : FOp) (h : Hints) (ty : FloatTy) (ma mb : NegAbs) (d a : Reg) (b : Opd) (s : State) :
    Host.Outcome State Fault Refusal :=
  roundedOp s h (floatLatency ty) [.ieee ty] d ty.words (floatAB ty a b)
    fun c l => laneF2 o ty ma mb (c.fenv l) (c.val 0 l) (c.val 1 l) (c.bad l)

def execFadd (h : Hints) (ty : FloatTy) (ma mb : NegAbs) (d a : Reg) (b : Opd) (s : State) : Host.Outcome State Fault Refusal :=
  float2 .add h ty ma mb d a b s

def execFsub (h : Hints) (ty : FloatTy) (ma mb : NegAbs) (d a : Reg) (b : Opd) (s : State) : Host.Outcome State Fault Refusal :=
  float2 .sub h ty ma mb d a b s

def execFmul (h : Hints) (ty : FloatTy) (ma mb : NegAbs) (d a : Reg) (b : Opd) (s : State) : Host.Outcome State Fault Refusal :=
  float2 .mul h ty ma mb d a b s

def execFfma (h : Hints) (ty : FloatTy) (ma mb mc : NegAbs) (d a : Reg) (b : Opd) (r : Reg) (s : State) :
    Host.Outcome State Fault Refusal :=
  roundedOp s h (floatLatency ty) [.ieee ty] d ty.words (floatAB ty a b ++ [srcC r ty.words])
    fun c l => laneFfma ty ma mb mc (c.fenv l) (c.val 0 l) (c.val 1 l) (c.val 2 l) (c.bad l)

def execFmin (h : Hints) (ty : FloatTy) (ma mb : NegAbs) (d a : Reg) (b : Opd) (s : State) : Host.Outcome State Fault Refusal :=
  roundedOp s h (floatLatency ty) [] d ty.words (floatAB ty a b)
    fun c l => laneFminmax false ty ma mb (c.val 0 l) (c.val 1 l) (c.bad l)

def execFmax (h : Hints) (ty : FloatTy) (ma mb : NegAbs) (d a : Reg) (b : Opd) (s : State) : Host.Outcome State Fault Refusal :=
  roundedOp s h (floatLatency ty) [] d ty.words (floatAB ty a b)
    fun c l => laneFminmax true ty ma mb (c.val 0 l) (c.val 1 l) (c.bad l)

def execFrnd (h : Hints) (ty : FloatTy) (rm : RMode) (mb : NegAbs) (d : Reg) (b : Opd) (s : State) :
    Host.Outcome State Fault Refusal :=
  roundedOp s h (floatLatency ty) (if rm == .rf then [.ieee ty] else []) d ty.words [floatB ty b]
    fun c l => laneFrnd ty rm mb (c.fenv l) (c.val 0 l) (c.bad l)

def execFscl (h : Hints) (ty : FloatTy) (ma : NegAbs) (d a : Reg) (b : Opd) (s : State) : Host.Outcome State Fault Refusal :=
  roundedOp s h (floatLatency ty) [.ieee ty] d ty.words [srcA a ty.words, srcB b 1]
    fun c l => laneFscl ty ma (c.fenv l) (c.val 0 l) (c.val 1 l) (c.bad l)

def execFcls (h : Hints) (ty : FloatTy) (d : Reg) (b : Opd) (s : State) : Host.Outcome State Fault Refusal :=
  roundedOp s h (floatLatency ty) [] d 1 [floatB ty b] fun c l => laneFcls ty (c.val 0 l) (c.bad l)

end Sys2Proof.Machine
end

