-- ==== Sys2Proof/Machine/Packed.lean ====
section
/-! DEFINITION. Group 0x5: packed arithmetic and dot products (R233 to R236). -/

namespace Sys2Proof.Machine

/-- Two 32-bit sources. -/
def words2 (a : Reg) (b : Opd) : List Src := [srcA a 1, srcB b 1]

/-- Three 32-bit sources. -/
def words3 (a : Reg) (b : Opd) (r : Reg) : List Src := [srcA a 1, srcB b 1, srcC r 1]

/-- The H forms that round. -/
def halfFmt (bf : Bool) : Fmt := .ieee (hfmt bf)

def execHadd2 (h : Hints) (bf na nb : Bool) (d a : Reg) (b : Opd) (s : State) : Host.Outcome State Fault Refusal :=
  roundedOp s h 6 [halfFmt bf] d 1 (words2 a b)
    fun c l => laneElemOp .add (halfFmt bf) na nb false (c.fenv l) (c.val 0 l) (c.val 1 l) 0 (c.bad l)

def execHmul2 (h : Hints) (bf na nb : Bool) (d a : Reg) (b : Opd) (s : State) : Host.Outcome State Fault Refusal :=
  roundedOp s h 6 [halfFmt bf] d 1 (words2 a b)
    fun c l => laneElemOp .mul (halfFmt bf) na nb false (c.fenv l) (c.val 0 l) (c.val 1 l) 0 (c.bad l)

def execHfma2 (h : Hints) (bf na nb nc : Bool) (d a : Reg) (b : Opd) (r : Reg) (s : State) :
    Host.Outcome State Fault Refusal :=
  roundedOp s h 6 [halfFmt bf] d 1 (words3 a b r)
    fun c l => laneElemOp .fma (halfFmt bf) na nb nc (c.fenv l) (c.val 0 l) (c.val 1 l) (c.val 2 l) (c.bad l)

def execHmin2 (h : Hints) (bf na nb : Bool) (d a : Reg) (b : Opd) (s : State) : Host.Outcome State Fault Refusal :=
  roundedOp s h 6 [] d 1 (words2 a b) fun c l => laneHminmax false bf na nb (c.val 0 l) (c.val 1 l) (c.bad l)

def execHmax2 (h : Hints) (bf na nb : Bool) (d a : Reg) (b : Opd) (s : State) : Host.Outcome State Fault Refusal :=
  roundedOp s h 6 [] d 1 (words2 a b) fun c l => laneHminmax true bf na nb (c.val 0 l) (c.val 1 l) (c.bad l)

def execQadd4 (h : Hints) (q : B8Fmt) (d a : Reg) (b : Opd) (s : State) : Host.Outcome State Fault Refusal :=
  roundedOp s h 6 [.b8 q] d 1 (words2 a b)
    fun c l => laneElemOp .add (.b8 q) false false false (c.fenv l) (c.val 0 l) (c.val 1 l) 0 (c.bad l)

def execQmul4 (h : Hints) (q : B8Fmt) (d a : Reg) (b : Opd) (s : State) : Host.Outcome State Fault Refusal :=
  roundedOp s h 6 [.b8 q] d 1 (words2 a b)
    fun c l => laneElemOp .mul (.b8 q) false false false (c.fenv l) (c.val 0 l) (c.val 1 l) 0 (c.bad l)

def execQfma4 (h : Hints) (q : B8Fmt) (d a : Reg) (b : Opd) (r : Reg) (s : State) : Host.Outcome State Fault Refusal :=
  roundedOp s h 6 [.b8 q] d 1 (words3 a b r)
    fun c l => laneElemOp .fma (.b8 q) false false false (c.fenv l) (c.val 0 l) (c.val 1 l) (c.val 2 l) (c.bad l)

def execQmax4 (h : Hints) (abs : Bool) (q : B8Fmt) (d a : Reg) (b : Opd) (s : State) : Host.Outcome State Fault Refusal :=
  roundedOp s h 6 [] d 1 (words2 a b) fun c l => laneQmax4 abs q (c.val 0 l) (c.val 1 l) (c.bad l)

/-- A dot product of `k` elements of two formats, added into a binary32 (R236). -/
def dotOp (fa fb : Fmt) (k : Nat) (h : Hints) (d a : Reg) (b : Opd) (r : Reg) (s : State) : Host.Outcome State Fault Refusal :=
  roundedOp s h 6 [.ieee .f32] d 1 (words3 a b r)
    fun c l => laneDot (c.fenv l) (dotTerms fa fb k (c.val 0 l) (c.val 1 l)) (c.val 2 l) (c.bad l)

def execDot2 (h : Hints) (bf : Bool) (d a : Reg) (b : Opd) (r : Reg) (s : State) : Host.Outcome State Fault Refusal :=
  dotOp (halfFmt bf) (halfFmt bf) 2 h d a b r s

def execDot4q (h : Hints) (qa qb : B8Fmt) (d a : Reg) (b : Opd) (r : Reg) (s : State) : Host.Outcome State Fault Refusal :=
  dotOp (.b8 qa) (.b8 qb) 4 h d a b r s

def execDotbg (h : Hints) (d a : Reg) (b : Opd) (r : Reg) (s : State) : Host.Outcome State Fault Refusal :=
  dotOp .bg4 .bg4 8 h d a b r s

end Sys2Proof.Machine
end

