-- ==== Sys2Proof/Machine/Tensor.lean ====
section
/-! DEFINITION. Tensor-table entries: their fields and validity (R255 to R257, Table 9.4), their counters (R192) and
their duplication maps (R193, R246). -/

namespace Sys2Proof.Machine

/-- Format of a 6-bit code (Table 9.4); none for a reserved one. -/
def formatOf (code : Nat) : Option Fmt :=
  match code with
  | 0x00 => some (.ieee .f64)
  | 0x01 => some (.ieee .f32)
  | 0x02 => some (.ieee .f16)
  | 0x03 => some (.ieee .bf16)
  | 0x04 => some .bg4
  | 0x08 => some (.int true 8)
  | 0x09 => some (.int false 8)
  | 0x0A => some (.int true 16)
  | 0x0B => some (.int false 16)
  | 0x0C => some (.int true 32)
  | 0x0D => some (.int false 32)
  | 0x0E => some (.int true 64)
  | 0x0F => some (.int false 64)
  | n => if 0x20 ≤ n && n % 8 != 0 then some (.b8 ⟨n / 16 % 2 == 1, n / 8 % 2 == 1, BitVec.ofNat 3 n⟩) else none

def Fmt.isInt : Fmt → Bool
  | .int _ _ => true
  | _ => false

def Tensor.format (t : Tensor) : Option Fmt := formatOf (bitsAt t.dw0.toNat 58 6)
def Tensor.sp (t : Tensor) : Bool := t.dw0.getLsbD 57
def Tensor.base (t : Tensor) : Nat := bitsAt t.dw0.toNat 0 57
def Tensor.smode (t : Tensor) : Nat := bitsAt t.dw1.toNat 60 3
def Tensor.rows (t : Tensor) : Nat := bitsAt t.dw1.toNat 40 20
def Tensor.cols (t : Tensor) : Nat := bitsAt t.dw1.toNat 20 20
def Tensor.sexp (t : Tensor) : Int := ival true 9 (bitsAt t.dw1.toNat 11 9)
def Tensor.trans (t : Tensor) : Bool := t.dw1.getLsbD 10
def Tensor.rstr (t : Tensor) : Nat := bitsAt t.dw2.toNat 32 32
def Tensor.scaleWord (t : Tensor) : Word := BitVec.ofNat 32 t.dw2.toNat
def Tensor.sbsp (t : Tensor) : Bool := t.dw3.getLsbD 57
def Tensor.sbase (t : Tensor) : Nat := bitsAt t.dw3.toNat 0 57

/-- Element width in bits. -/
def Tensor.bits (t : Tensor) : Nat := (t.format.map Fmt.bits).getD 8

/-- The constraints of R256. -/
def Tensor.valid (t : Tensor) : Bool :=
  t.dw1.getLsbD 63 && bitsAt t.dw1.toNat 0 10 == 0 && bitsAt t.dw3.toNat 58 6 == 0 && decide (t.smode < 5) &&
    t.rows != 0 && t.cols != 0 && decide (((if t.trans then t.rows else t.cols) * t.bits + 7) / 8 ≤ t.rstr) &&
    (t.smode != 4 || (decide (-149 ≤ t.sexp) && decide (t.sexp ≤ 127))) &&
    (match t.format with
      | some f => !f.isInt || t.smode == 0
      | none => false)

/-- Byte offset of element (r, c) and its bit within the byte (R257). -/
def Tensor.offset (t : Tensor) (r c : Nat) : Nat × Nat :=
  let (hi, lo) := if t.trans then (c, r) else (r, c)
  (hi * t.rstr + lo * t.bits / 8, lo * t.bits % 8)

/-- A saturating 32-bit counter. -/
def sat32 (x : BitVec 32) (n : Nat) : BitVec 32 := BitVec.ofNat 32 (min 0xFFFFFFFF (x.toNat + n))

/-- Count saturated and flushed elements in the live entry of a handle (R192). -/
def Wg.countQuant (w : Wg) (th sat flush : Nat) : Wg :=
  { w with tensors := updAt w.tensors th fun t => { t with sat := sat32 t.sat sat, flush := sat32 t.flush flush } }

/-- The same for a valid entry only; the increments of an invalid one are discarded (R242). -/
def Wg.countValid (w : Wg) (th sat flush : Nat) : Wg :=
  if ((w.tensors[th]?).map Tensor.valid).getD false then w.countQuant th sat flush else w

/-- Append channel `k` to the duplication map of an entry, as a thread group does at some place in its order: the entry and the value
returned (R246). -/
def Tensor.appendMap (t : Tensor) (k tg id : Nat) : Tensor × Nat :=
  let e := t.map.length
  if !t.valid then (t, 0xFFFFFFFD)
  else if t.cols + e ≤ k then (t, 0xFFFFFFFE)
  else if e == 64 then (t, 0xFFFFFFFF)
  else ({ t with map := t.map ++ [if k < t.cols then k else t.map.getD (k - t.cols) 0], fresh := t.fresh ++ [⟨e, tg, id, []⟩] }, t.cols + e)

/-- An entry as an `MMA` of a thread group captures it: an entry of the map that it does not see as yet names no channel (R194, R246;
log 26). -/
def Tensor.seenBy (t : Tensor) (tg : Nat) : Tensor :=
  { t with
    map := (t.map.zip (List.range t.map.length)).map fun ki =>
      if t.fresh.any fun x => x.entry == ki.2 && x.tg != tg then 2 ^ 32 else ki.1
    fresh := [] }

end Sys2Proof.Machine
end

