-- ==== Sys2Proof/Machine/CopyOps.lean ====
section
/-! DEFINITION. Copy commands: their fields (Table 7.2), entering the queue (R89, R356), checksum chains (R132 to R135),
the progress cursor (R137), ending and completing in order (R128), granules (R131). -/

namespace Sys2Proof.Machine

/-! ### Fields -/

def CopyCmd.dw (c : CopyCmd) (i : Nat) : Nat := (c.words.getD i 0#64).toNat
def CopyCmd.csum (c : CopyCmd) : Nat := bitsAt (c.dw 0) 60 2
def CopyCmd.chains (c : CopyCmd) : Bool := (c.dw 0).testBit 59
def CopyCmd.isRaw (c : CopyCmd) : Bool := (c.dw 0).testBit 58
def CopyCmd.ssp (c : CopyCmd) : Bool := (c.dw 0).testBit 57
def CopyCmd.saddr (c : CopyCmd) : Nat := bitsAt (c.dw 0) 0 57
def CopyCmd.dsp (c : CopyCmd) : Bool := (c.dw 1).testBit 57
def CopyCmd.daddr (c : CopyCmd) : Nat := bitsAt (c.dw 1) 0 57
def CopyCmd.tagged (c : CopyCmd) : Option Nat := if (c.dw 2).testBit 62 then some (bitsAt (c.dw 2) 56 6) else none
def CopyCmd.dstr (c : CopyCmd) : Int := ival true 28 (bitsAt (c.dw 2) 28 28)
def CopyCmd.sstr (c : CopyCmd) : Int := ival true 28 (bitsAt (c.dw 2) 0 28)
def CopyCmd.rows (c : CopyCmd) : Nat := bitsAt (c.dw 3) 50 12 + 1
def CopyCmd.rowb (c : CopyCmd) : Nat := bitsAt (c.dw 3) 32 18
def CopyCmd.expect (c : CopyCmd) : Nat := bitsAt (c.dw 3) 0 32

/-- A tier prefetch holds its base, its length and its barrier (R304). -/
def CopyCmd.isPrefetch (c : CopyCmd) : Bool := match c.kind with | .prefetch _ => true | _ => false
def CopyCmd.bar (c : CopyCmd) : Nat := if c.isPrefetch then c.dw 2 else bitsAt (c.dw 1) 58 4

/-- Bytes of the stream, and its chunks (R123). -/
def CopyCmd.length (c : CopyCmd) : Nat := if c.isPrefetch then c.dw 1 else c.rows * c.rowb
def CopyCmd.chunks (c : CopyCmd) : Nat := (c.length + 4095) / 4096

/-- Part of the stream in chunk `i`. -/
def CopyCmd.chunkLo (c : CopyCmd) (i : Nat) : Nat := min c.length (4096 * i)
def CopyCmd.chunkHi (c : CopyCmd) (i : Nat) : Nat := min c.length (4096 * (i + 1))

/-- Address of a row of the source and of the destination (R120, Table 7.3). -/
def CopyCmd.srcRow (c : CopyCmd) (r : Nat) : Int :=
  match c.kind with
  | .gather _ => c.saddr + c.idx.getD r 0 * c.sstr
  | _ => c.saddr + r * c.sstr
def CopyCmd.dstRow (c : CopyCmd) (r : Nat) : Int :=
  match c.kind with
  | .scatter _ => c.daddr + c.idx.getD r 0 * c.dstr
  | _ => c.daddr + r * c.dstr

def CopyCmd.srcSide (c : CopyCmd) : Side := ⟨c.ssp, c.isRaw, false, c.srcRow, c.rowb⟩
def CopyCmd.dstSide (c : CopyCmd) : Side := ⟨c.dsp, c.isRaw, true, c.dstRow, c.rowb⟩

/-- The peer of `CPYX`. -/
def CopyCmd.peer (c : CopyCmd) : Option Nat := match c.kind with | .peer p => some p | _ => none

/-- The index list of a gather or scatter. -/
def CopyCmd.list (c : CopyCmd) : Option Nat := match c.kind with | .gather l => some l | .scatter l => some l | _ => none

/-- The agent of a command on a core. -/
def CopyCmd.eng (c : CopyCmd) (core : Nat) : Eng := ⟨c.issuer, core, c.ctx, c.part, c.super, 3⟩

/-! ### Chains -/

/-- Running value before the first byte of a chain. -/
def ChainRun.fresh (csum : Nat) : ChainRun := ⟨if csum == 1 then 0xFFFFFFFF#32 else 0#32, [], false, 0⟩

/-- Enter bytes into the running value (R133, R135). -/
def ChainRun.enter (x : ChainRun) (csum : Nat) (bs : List (Byte × Bool)) : ChainRun :=
  let ds := bs.map (·.1)
  let y := { x with poison := x.poison || (csum != 0 && bs.any (·.2)) }
  if csum == 1 then { y with run := crc32c y.run ds }
  else if csum == 2 then (let (r, p) := add32 y.run y.part ds; { y with run := r, part := p })
  else y

/-- The finished value. -/
def ChainRun.value (x : ChainRun) (csum : Nat) : BitVec 32 :=
  if csum == 1 then x.run ^^^ 0xFFFFFFFF#32
  else x.run + BitVec.ofNat 32 (x.part.foldr (fun b n => b.toNat + 256 * n) 0)

/-- Status of a command whose last chunk is committed (R134, R135). -/
def CopyCmd.verdict (c : CopyCmd) : Nat :=
  if c.chains || c.csum == 0 then 0
  else if c.chain.poison then 0x0B
  else if (c.chain.value c.csum).toNat == c.expect then 0 else 0x01

/-- The progress cursor of Table 7.6. -/
def CopyCmd.cursor (c : CopyCmd) (core : Nat) : Nat × Nat :=
  (c.chain.run.toNat * 2 ^ 32 + c.chain.part.length * 2 ^ 30 + c.chunk * 2 ^ 8 + c.chain.cmds % 256,
   core * 2 ^ 32 + c.eslot * 2 ^ 24 + c.chain.part.foldr (fun b n => b.toNat + 256 * n) 0)

/-! ### Decompression jobs (R143) -/

/-- Fields of Table 7.8. -/
def Job.dw (x : Job) (i : Nat) : Nat := (x.words.getD i 0#64).toNat
def Job.bar (x : Job) : Nat := bitsAt (x.dw 0) 59 4
def Job.arrv (x : Job) : Bool := (x.dw 0).testBit 58
def Job.ssp (x : Job) : Bool := (x.dw 0).testBit 57
def Job.saddr (x : Job) : Nat := bitsAt (x.dw 0) 0 57
def Job.dsp (x : Job) : Bool := (x.dw 1).testBit 57
def Job.daddr (x : Job) : Nat := bitsAt (x.dw 1) 0 57
def Job.olen (x : Job) : Nat := bitsAt (x.dw 2) 32 32
def Job.slen (x : Job) : Nat := bitsAt (x.dw 2) 0 32

def Job.srcSide (x : Job) : Side := ⟨x.ssp, false, false, fun _ => x.saddr, x.slen⟩
def Job.dstSide (x : Job) : Side := ⟨x.dsp, false, true, fun _ => x.daddr, x.olen⟩
def Job.eng (x : Job) : Eng := ⟨x.issuer, x.core, x.ctx, x.part, x.super, 4⟩

/-- The bytes of the stream as they are when the job is issued, where its pages are there (R146). -/
def Job.streamNow (s : State) (x : Job) : Option (List Byte) :=
  if x.slen == 0 || 16777216 < x.slen then none
  else match sidePieces s x.eng x.srcSide 0 x.slen with
  | (s1, ps) =>
    match gather ps with
    | (none, [], qs) => some ((readPieces s1 x.eng qs).2.flatMap fun b => b.bytes.map (·.1))
    | _ => none

/-! ### The queue -/

/-- Queue entries of a partition (R89). -/
def shareOf (s : State) (part : Nat) : Nat := min 32 (s.cs.ceq.getD part 0#6).toNat

/-- Another command of a partition finds room behind those that are there. -/
def hasRoom (s : State) (q : CoreSt) (part : Nat) : Bool :=
  decide (q.copyq.length < 32) && decide (countIf q.copyq (fun x => x.part == part) < shareOf s part)

/-- A member of an open chain: an earlier command of the thread group in the queue continues it. -/
def openChain (l : List CopyCmd) (r : TgRef) : Bool :=
  match (l.filter fun x => x.issuer == r && !x.isPrefetch).getLast? with
  | some x => x.chains
  | none => false

/-- Enter a command behind the others (R356): the counter rises at once, and the `CUT` waits while it finds no room. -/
def enqueueCopy (s : State) (core : Nat) (x : CopyCmd) : State :=
  let q := s.core core
  let room := hasRoom s q x.part
  let run := (q.runs.find? fun y => y.1 == x.issuer).map (·.2)
  let x1 := if x.isPrefetch then { x with id := ((s.tg? x.issuer).map (·.nextOp)).getD 0 } else { x with
    chain := run.getD (ChainRun.fresh x.csum)
    id := ((s.tg? x.issuer).map (·.nextOp)).getD 0
    member := run.isSome || openChain q.copyq x.issuer }
  let s1 := s.setCore core { q with
    copyq := q.copyq ++ [x1]
    runs := if x.isPrefetch then q.runs else q.runs.filter fun y => y.1 != x.issuer }
  s1.updTg x.issuer fun g =>
    let g1 := Tg.owe { g.place.addSlots x.slots with cntCopy := g.cntCopy + 1 } (.counter .cpy 255)
    if room then g1 else g1.owe .enter

/-- A command in an entry of the queue. -/
def CoreSt.entry (q : CoreSt) (e : Nat) : Option CopyCmd := q.copyq.find? fun x => x.accepted && x.eslot == e

/-- Change the command in an entry. -/
def updEntry (s : State) (core e : Nat) (f : CopyCmd → CopyCmd) : State :=
  let q := s.core core
  s.setCore core { q with copyq := q.copyq.map fun x => if x.accepted && x.eslot == e then f x else x }

/-- Complete, in issue order, the commands of a thread group that have ended (R128). -/
def retireCopies (s : State) (core : Nat) (r : TgRef) : Nat → State
  | 0 => s
  | n + 1 =>
    let q := s.core core
    match q.copyq.find? fun x => x.issuer == r with
    | some x =>
      if x.phase == .finished then
        let s1 := s.setCore core { q with copyq := q.copyq.erase x }
        let s2 := s1.updTg r fun g => { g with cntCopy := g.cntCopy - 1 }
        retireCopies (reportCompletion s2 r x.part core x.arrv x.bar x.status) core r n
      else s
    | none => s

/-- Give a running value to the next member of the chain among some commands of its thread group: past members that
ended already, to the one that goes on, or kept until it is issued. -/
def passRun (q : CoreSt) (r : TgRef) (run : ChainRun) : List CopyCmd → CoreSt
  | [] => { q with runs := q.runs.filter (fun z => z.1 != r) ++ [(r, run)] }
  | y :: ys =>
    if y.phase == .finished then (if y.chains then passRun q r { run with cmds := run.cmds + 1 } ys else q)
    else { q with copyq := q.copyq.map fun z => if z == y then { z with chain := run } else z }

/-- Commands of the same thread group that are no prefetch. -/
def CopyCmd.fellows (x : CopyCmd) (l : List CopyCmd) : List CopyCmd := l.filter fun y => y.issuer == x.issuer && !y.isPrefetch

/-- An earlier member of the chain has not ended: it keeps the running value. -/
def CoreSt.awaitsMember (q : CoreSt) (x : CopyCmd) : Bool :=
  ((x.fellows (q.copyq.takeWhile fun y => y != x)).reverse.takeWhile (·.chains)).any fun y => y.phase != .finished

/-- Hand the running value of a chain on when a member ends. -/
def handOver (q : CoreSt) (x : CopyCmd) : CoreSt :=
  if x.isPrefetch || !x.chains || q.awaitsMember x then q
  else passRun q x.issuer { x.chain with cmds := x.chain.cmds + 1 } (x.fellows ((q.copyq.dropWhile fun y => y != x).drop 1))

/-- End the command in an entry with a status. -/
def finishCopy (s : State) (core e status : Nat) : State :=
  let q := s.core core
  match q.entry e with
  | none => s
  | some x =>
    let s1 := s.setCore core (handOver q x)
    let s2 := updEntry s1 core e fun y => { y with phase := .finished, status := status, buf := [], waits := [] }
    let s3 := s2.updTg x.issuer fun g => g.subSlots x.slots
    retireCopies s3 core x.issuer (q.copyq.length)

/-! ### Granules (R131) -/

/-- Byte `b` of the scratchpad is written by the first `hi` bytes of the stream. -/
def CopyCmd.covers (c : CopyCmd) (hi b : Nat) : Bool :=
  (List.range c.rows).any fun r =>
    let d := (b : Int) - c.dstRow r
    decide (0 ≤ d) && decide (d.toNat < c.rowb) && decide (r * c.rowb + d.toNat < hi)

/-- Granules that a chunk touches and that the committed chunks have wholly written. -/
def CopyCmd.fullGranules (c : CopyCmd) (hi : Nat) (ps : List Piece) : List Nat :=
  let touched := (ps.filter fun p => p.page == .spad).flatMap fun p =>
    (List.range ((p.pa + p.n - 1) / 16 - p.pa / 16 + 1)).map fun k => p.pa / 16 + k
  touched.eraseDups.filter fun g => (List.range 16).all fun i => c.covers hi (16 * g + i)

/-! ### Order with other accesses of the thread group (R319, R326, R327, R339) -/

/-- Some piece lies in host memory. -/
def onHost (ps : List PieceOut) : Bool := ps.any fun p => match p with | .ok q => q.page == .host | _ => false

/-- The command still has bytes of host memory to read or write. -/
def CopyCmd.hostLeft (x : CopyCmd) (s : State) (core : Nat) : Bool :=
  let on (d : Side) : Bool := onHost (sidePieces s (x.eng core) d (x.chunkLo x.chunk) x.length).2
  !x.isPrefetch && x.phase != .finished && decide (x.chunk < x.chunks) && (on x.srcSide || (x.peer.isNone && on x.dstSide))

def Job.hostLeft (x : Job) (s : State) : Bool :=
  x.phase != .finished && (onHost (sidePieces s x.eng x.srcSide 0 x.slen).2 || onHost (sidePieces s x.eng x.dstSide 0 x.olen).2)

/-- A tensor, or its scales, begins in host memory. -/
def Tensor.hosted (t : Tensor) (s : State) (a : Eng) : Bool :=
  let on (va : Nat) : Bool := onHost [(placeBytes s a 6 (fun _ => true) va 1 0).2]
  (!t.sp && on t.base) || (!t.sbsp && (t.smode == 2 || t.smode == 3) && on t.sbase)

/-- The agent of a matrix operation: its reads and writes pass the L1 of its core (Table 14.2). -/
def MatOp.eng (o : MatOp) (s : State) (core : Nat) : Eng :=
  match s.wg? o.issuer.wg with
  | some w => ⟨o.issuer, core, s.ctxOf w, s.partOf w, o.super, 14⟩
  | none => ⟨o.issuer, core, 0, 0, o.super, 14⟩

def MatOp.hostLeft (o : MatOp) (s : State) (core : Nat) : Bool :=
  match o.kind with
  | .mma => o.ta.hosted s (o.eng s core) || o.tb.hosted s (o.eng s core)
  | .mlda => o.ta.hosted s (o.eng s core)
  | .msta => o.ta.hosted s (o.eng s core)
  | _ => false

/-- An operation of an engine issued before place `id` still has accesses to host memory, which go in issue order (R339). -/
def State.hostAhead (s : State) (r : TgRef) (id : Nat) : Bool :=
  match s.wg? r.wg with
  | none => false
  | some w =>
    let q := s.core w.core
    (q.copyq.any fun x => x.issuer == r && decide (x.id < id) && x.hostLeft s w.core) ||
      ((s.cluster (clusterOf w.core)).jobs.any fun x => x.issuer == r && decide (x.id < id) && x.hostLeft s) ||
      q.matq.any fun o => o.issuer == r && decide (o.id < id) && o.hostLeft s w.core

/-- An access of an engine operation in place `id` waits: for an earlier acquire, a write for an earlier release, an access to host
memory for those before it. -/
def State.engineWaits (s : State) (r : TgRef) (id : Nat) (write host : Bool) : Bool :=
  match s.tg? r with
  | none => false
  | some g =>
    g.acquiring id || (write && g.releasing id) ||
      (host && (s.hostAhead r id || g.ops.any fun o => decide (o.id < id) && o.accs.any fun a => !a.done && a.page == .host))

/-- Reads that engines still have to make for a thread group (R330). -/
def State.engineReads (s : State) (r : TgRef) : Bool :=
  match s.wg? r.wg with
  | none => false
  | some w =>
    let q := s.core w.core
    (q.copyq.any fun x => x.issuer == r && !x.isPrefetch && x.phase != .finished && !(x.phase == .loaded && decide (x.chunks ≤ x.chunk + 1))) ||
      ((s.cluster (clusterOf w.core)).jobs.any fun x => x.issuer == r && x.phase != .finished) ||
      q.matq.any fun o => o.issuer == r && o.kind != .mzro && o.kind != .mrel

end Sys2Proof.Machine
end

