-- ==== Sys2Proof/Machine/Active.lean ====
section
/-! DEFINITION. The choice of a PC and an issue set (R402 to R404), the waits performed at a `CUT` (R163, R165, R315, R326, R327, R364, R366) and the end of
such a wait. -/

namespace Sys2Proof.Machine

/-! ### Issue sets (R403 to R405, R409) -/

/-- Lowest PC among some threads. -/
def Tg.lowestPc (g : Tg) (ts : List Nat) : Option (BitVec 57) :=
  ts.foldl (fun best i =>
    match g.threads[i]?, best with
    | some t, none => some t.pc
    | some t, some p => if t.pc.toNat < p.toNat then some t.pc else best
    | none, _ => best) none

/-- PC and issue set of the next shot by Table 17.1. -/
def Tg.choose (g : Tg) : Option (BitVec 57 × BitVec 64) :=
  let ready := g.threadsWhere fun t => t.status == .ready
  let all (p : BitVec 57) : BitVec 57 × BitVec 64 :=
    (p, maskOf (ready.filter fun i => (g.threads[i]?.map fun t => t.pc == p).getD false))
  match g.serial with
  | some x =>
    if ready.contains x.running then (g.threads[x.running]?).map fun t => (t.pc, maskOf [x.running]) else none
  | none =>
    match ready.find? fun i => (g.threads[i]?.map fun t => decide (64 ≤ t.age)).getD false with
    | some i => (g.threads[i]?).map fun t => all t.pc
    | none =>
      let top := match g.stack.getLast? with
        | some f => ready.filter fun i => f.members.getLsbD i
        | none => []
      (g.lowestPc (if top.isEmpty then ready else top)).map all

/-- Open a shot for a set at a PC. -/
def Tg.open (g : Tg) (pc : BitVec 57) (set : BitVec 64) : Tg :=
  { g with shot := { Shot.none with active := true, pc := pc, set := set }, temps := [] }

/-! ### Waits at a CUT -/

/-- Counter of a class (R355). -/
def Tg.counter (g : Tg) : CntClass → Nat
  | .cpy => g.cntCopy
  | .mat => g.cntMat
  | .dcmp => g.cntDcmp
  | .mem => g.cntMem

/-- Every read issued before is performed. -/
def Tg.readsDone (g : Tg) : Bool := g.ops.all fun o => o.accs.all fun a => a.done || !a.isRead

/-- The release side of a fence has nothing to wait for (R331, R332). -/
def Tg.drained (g : Tg) (mask : BitVec 8) : Bool :=
  if mask == 0#8 then g.cntMem == 0 && g.cntCopy == 0 && g.cntDcmp == 0 && g.cntMat == 0
  else (List.range 8).all fun i => !mask.getLsbD i || ((g.slots[i]?).map (·.count)).getD 0 == 0

/-- A fence kind releases, or acquires (Table 14.4). -/
def fenceReleases (k : FenceKind) : Bool := k != .acq
def fenceAcquires (k : FenceKind) : Bool := k != .rel

/-- Phase of a barrier. -/
def Wg.phaseOf (w : Wg) (b : Nat) : BitVec 32 := ((w.barriers[b]?).map (·.ph)).getD 0#32

/-- A wait has nothing more to wait for; `reads` says that engines still have to read for the thread group. A limited fence waits for
the counters of its slots alone (R315, R330 to R332). A commit, a rendezvous, a launch or a queue entry ends its own wait. -/
def waitDone (reads : Bool) (w : Wg) (g : Tg) : Wait → Bool
  | .fence kind _ mask =>
    (!fenceReleases kind || g.drained mask) &&
      (!fenceAcquires kind || (if mask == 0#8 then g.readsDone && !reads else g.drained mask))
  | .counter c n => decide (g.counter c ≤ n)
  | .barrier b q _ => w.phaseOf b != q
  | .splice b t _ => decide ((w.phaseOf b - t).toNat < 2 ^ 31)
  | .granules op => !(g.ops.any fun o => o.id == op && !o.accs.all (·.done))
  | .arrival _ => false
  | .rendezvous => false
  | .gangFail _ => false
  | .launchFail .. => false
  | .commit => false
  | .launch => false
  | .enter => false
  | .slots => g.slots.all fun x => decide (x.count ≤ 65535)

/-- The waits that a `CUT` performs: those of its shot, and outside a handler those kept over a trap (R166). -/
def Tg.owed (g : Tg) : List Wait := (if g.super then [] else g.kept) ++ g.shot.waits

/-- The slots that the `CUT` names are empty and the total is at most 40 (R165). -/
def Tg.slotsClear (g : Tg) (mask : BitVec 6) : Bool :=
  ((List.range 6).all fun i => !mask.getLsbD i || g.pend.getD (i + 1) 0 == 0) && decide (g.pend.sum ≤ 40)

/-- The wait at the `CUT` has ended. -/
def cutReady (reads : Bool) (w : Wg) (g : Tg) : Bool :=
  match g.phase with
  | .atCut mask => g.slotsClear mask && g.owed.all (waitDone reads w g)
  | _ => false

/-- What the end of a wait brings: the releases and acquires, and the status that a barrier wait returns. -/
def waitEffect (s : State) (r : TgRef) (x : Wait) : State :=
  match s.wg? r.wg with
  | none => s
  | some w =>
    let status (b : Nat) (d : Option U) (s : State) : State :=
      match d with
      | some u => s.updTg r fun g =>
          g.write 0 (.s u.toNat) (.of ((((s.wg? r.wg).bind fun w => w.barriers[b]?).map (·.lstat)).getD 0#8 |>.setWidth 32))
      | none => s
    match x with
    | .fence kind sc _ =>
      let s1 := if fenceReleases kind then releaseAt s w.core (scopeCode sc) else s
      if fenceAcquires kind then acquireAt s1 w.core (scopeCode sc) else s1
    | .barrier b _ d => status b d (acquireAt s w.core (barrierScope s w b))
    | .splice b _ d => status b d s
    | _ => s

/-- Engine work that an `EXIT` waits for (R130, R260). -/
def Tg.engineWork (g : Tg) : Bool := g.cntCopy != 0 || g.cntDcmp != 0 || g.cntMat != 0

/-- The `CUT` completes: its waits take effect, temporaries are invalid, `TRET` returns, a thread group all of whose
threads have exited holds at its exit (R130, R165, R166, R350, R351), a step ends (R416). YIELD in a hint moves the thread group to
the tail of its round (R413), `YIELD` takes it out of the active set (R414). -/
def completeCut (s : State) (r : TgRef) : State :=
  match s.tg? r with
  | none => s
  | some g =>
    let s1 := g.owed.foldl (fun s x => waitEffect s r x) s
    let s2 := s1.updTg r fun g1 =>
      let g2 : Tg := { g1 with
        phase := if g1.allExited then .exiting else .ready
        debug := match g1.debug with | .closing _ => .stopped | d => d
        kept := if g1.super then g1.kept else []
        shot := .none
        temps := [] }
      if g1.ret then g2.trapReturn else g2
    let s2 := if g.allExited then checkLatch s2 (clusterOf (((s2.wg? r.wg).map (·.core)).getD 0)) else s2
    let s3 := s2.endStep r
    if g.shot.yieldInstr || ((s3.tg? r).map fun g => g.phase != .ready).getD false then stallOut s3 r
    else if g.shot.yieldHint then toTail (wake s3 r) r
    else wake s3 r

/-- The trap that a `CUT` takes for a failed gang or launch (R280, R354). -/
def Wait.fails : Wait → Bool
  | .gangFail _ => true
  | .launchFail .. => true
  | _ => false

/-- The first such wait that a thread group owes. -/
def Tg.failure (g : Tg) : Option Wait := g.owed.find? Wait.fails

/-- Take a trap at the `CUT` of a thread group that waits there: its threads stand before the `CUT`, which `TRET`
performs again. -/
def trapAtCut (s : State) (r : TgRef) (cause : BitVec 32) (mask : BitVec 64) : State :=
  match s.tg? r with
  | none => s
  | some g =>
    let g1 := g.mapThreads g.shot.set fun _ t => { t with next := some t.pc }
    let s1 := s.setTg r { g1 with shot := { g1.shot with pc := g1.shot.pc - 12#57 } }
    wake (takeTrap s1 r cause mask true) r

/-- The trap of a failed gang, with the threads of the `CUT` (R280), or of a failed launch, with those of the `LNCH` and its address
in `sr.tpc` (R30, R354). -/
def failureTrap (s : State) (r : TgRef) (x : Wait) : State :=
  let drop (p : Wait → Bool) : State := s.updTg r fun g => g.mapWaits fun l => l.filter fun y => !p y
  match x with
  | .gangFail f =>
    trapAtCut (drop fun y => match y with | .gangFail _ => true | _ => false) r (fcodeCause 0x07 f) (((s.tg? r).map (·.shot.set)).getD 0#64)
  | .launchFail cause mask pc => (trapAtCut (drop (· == x)) r cause mask).updTg r fun g => { g with
      tpc := pc.setWidth 64
      saved := g.saved.map fun v => { v with
        tpc := pc, wasCut := false, shot := { v.shot with pc := pc, count := v.shot.count - 1 - (v.tpc - pc).toNat / 12 } } }
  | _ => s

/-- A take reaches a commit point (R441). -/
def reachCommit (s : State) (n : Nat) (x : CommitBy) : State :=
  s.updWg n fun w =>
    if !w.takeOn || w.points.any fun p => p.by_ == x then w else { w with points := w.points ++ [⟨x, s.clock.toNat⟩] }

/-- The first commit point that the thread group owes at its `CUT` is reached: the fences before it have drained (R441). -/
def commitDue (reads : Bool) (w : Wg) (g : Tg) : Bool :=
  g.owed.contains .commit &&
    (g.owed.takeWhile (· != .commit)).all fun x => match x with | .fence .. => waitDone reads w g x | _ => true

/-- At the `CUT`: complete at once when nothing is left to wait for, else wait in the pending set. -/
def tryCut (s : State) (r : TgRef) : State :=
  match s.wg? r.wg, s.tg? r with
  | some w, some g =>
    match g.phase with
    | .atCut _ =>
      match g.failure with
      | some x => failureTrap s r x
      | none =>
        let reads := s.engineReads r
        if cutReady reads w g then completeCut s r
        else stallOut (if commitDue reads w g then reachCommit s r.wg (.tg r.tg) else s) r
    | _ => s
  | _, _ => s

end Sys2Proof.Machine
end

