-- ==== Sys2Proof/Machine/Convert.lean ====
section
/-! DEFINITION. Group 0x6: special functions, conversions, quantisation, packing (R237 to R247). -/

namespace Sys2Proof.Machine

/-- A variable-latency instruction of group 0x6 that rounds into the classes given. -/
def sfOp (s : State) (h : Hints) (cls : List Fmt) (d : Reg) (n : Nat) (srcs : List Src) (form : Ctx → Nat → LaneRes) :
    Host.Outcome State Fault Refusal :=
  issue s { h := h, srcs := srcs, dst := some (d, n), unit := 2 } form noLate fun c =>
    c.put ((c.counted cls c.tg).launchOp { MemOp.blank with ps := h.ps.toNat, results := c.results d })

/-- A function of Table 11.4 of one operand. -/
def specialOp (f : SFn) (h : Hints) (ty : FloatTy) (d : Reg) (b : Opd) (s : State) : Host.Outcome State Fault Refusal :=
  sfOp s h [.ieee ty] d ty.words [floatB ty b] fun c l => laneSfn f ty (c.fenv l) (c.val 0 l) (c.bad l)

def execRcp (h : Hints) (ty : FloatTy) (d : Reg) (b : Opd) (s : State) : Host.Outcome State Fault Refusal :=
  specialOp .rcp h ty d b s

def execRsq (h : Hints) (ty : FloatTy) (d : Reg) (b : Opd) (s : State) : Host.Outcome State Fault Refusal :=
  specialOp .rsq h ty d b s

def execSqrt (h : Hints) (ty : FloatTy) (d : Reg) (b : Opd) (s : State) : Host.Outcome State Fault Refusal :=
  specialOp .sqrt h ty d b s

def execFdiv (h : Hints) (ty : FloatTy) (d a : Reg) (b : Opd) (s : State) : Host.Outcome State Fault Refusal :=
  sfOp s h [.ieee ty] d ty.words (floatAB ty a b) fun c l => laneFdiv ty (c.fenv l) (c.val 0 l) (c.val 1 l) (c.bad l)

def execExp2 (h : Hints) (ty : FloatTy) (d : Reg) (b : Opd) (s : State) : Host.Outcome State Fault Refusal :=
  specialOp .exp2 h ty d b s

def execLog2 (h : Hints) (ty : FloatTy) (d : Reg) (b : Opd) (s : State) : Host.Outcome State Fault Refusal :=
  specialOp .log2 h ty d b s

def execSin (h : Hints) (ty : FloatTy) (d : Reg) (b : Opd) (s : State) : Host.Outcome State Fault Refusal :=
  specialOp .sin h ty d b s

def execCos (h : Hints) (ty : FloatTy) (d : Reg) (b : Opd) (s : State) : Host.Outcome State Fault Refusal :=
  specialOp .cos h ty d b s

def execTanh (h : Hints) (ty : FloatTy) (d : Reg) (b : Opd) (s : State) : Host.Outcome State Fault Refusal :=
  specialOp .tanh h ty d b s

def execCvt (h : Hints) (dt st : FloatTy) (d : Reg) (b : Opd) (s : State) : Host.Outcome State Fault Refusal :=
  sfOp s h [.ieee dt] d dt.words [floatB st b] fun c l => laneCvt dt st (c.fenv l) (c.val 0 l) (c.bad l)

def execCvtiToInt (h : Hints) (it : IntTy) (ft : FloatTy) (rm : RMode) (d : Reg) (b : Opd) (s : State) :
    Host.Outcome State Fault Refusal :=
  sfOp s h (if it.narrow then [.int it.signed (ibits it)] else []) d it.words [floatB ft b]
    fun c l => laneCvtiToInt it ft rm (c.fenv l) (c.val 0 l) (c.bad l)

def execCvtiFromInt (h : Hints) (it : IntTy) (ft : FloatTy) (d : Reg) (b : Opd) (s : State) :
    Host.Outcome State Fault Refusal :=
  sfOp s h [.ieee ft] d ft.words [intB it b] fun c l => laneCvtiFromInt it ft (c.fenv l) (c.val 0 l) (c.bad l)

def execCvtnNarrow (h : Hints) (nf : NarrowFmt) (wf : WideFmt) (d : Reg) (b : Opd) (s : State) :
    Host.Outcome State Fault Refusal :=
  sfOp s h [NarrowFmt.fmt nf] d 1 [srcB b 1] fun c l => laneCvtnNarrow nf wf (c.fenv l) (c.val 0 l) (c.bad l)

def execCvtnWiden (h : Hints) (nf : NarrowFmt) (wf : WideFmt) (d : Reg) (b : Opd) (s : State) :
    Host.Outcome State Fault Refusal :=
  sfOp s h [.ieee (WideFmt.ty wf)] d 1 [srcB b 1] fun c l => laneCvtnWiden nf wf (c.fenv l) (c.val 0 l) (c.bad l)

/-! ### Quantisation -/

/-- The value or the scale of `QNT` is Poison in a lane. -/
def qntBad (c : Ctx) (l : Nat) : Bool := anyBad (c.src 0 l) || anyBad (c.src 1 l)

/-- The quantised element of a lane, with its marks. -/
def qntLane (c : Ctx) (nf : QuantFmt) (l : Nat) : Rounded := qntRounded nf (c.fenv l) (c.val 0 l) (c.val 1 l)

/-- Lanes of one instruction: every thread, or the lowest for a uniform destination. -/
def Ctx.formLanes (c : Ctx) (d : Reg) : List Nat := if d.isS then c.e.part.take 1 else c.e.part

/-- Increments of one `QNT`: each lane whose CEN is 1 counts in the entry its control names. -/
def countLanes (c : Ctx) (nf : QuantFmt) (d : Reg) (w : Wg) : Wg :=
  (c.formLanes d).foldl (fun w l =>
    let ctl := c.val 2 l
    if ctl.testBit 6 && !qntBad c l then
      let r := qntLane c nf l
      w.countValid (ctl % 64) r.above.toNat r.flush.toNat
    else w) w

/-- Guard writes of one `QNT`: a uniform destination's one element gives every guard (R186). -/
def qntGuards (c : Ctx) (nf : QuantFmt) (d : Reg) (gs : Option (BitVec 3)) : List (RKey × CWord) :=
  match gs with
  | none => []
  | some g => c.e.part.map fun l =>
      let r := qntLane c nf (if d.isS then c.e.part.headD 0 else l)
      (.g g.toNat l, guardWord (qntBad c l || r.above || r.flush))

def execQnt (h : Hints) (nf : QuantFmt) (gs : Option (BitVec 3)) (d a : Reg) (b : Opd) (r : Reg) (s : State) :
    Host.Outcome State Fault Refusal :=
  issue s { h := h, srcs := [srcA a 1, srcB b 1, (srcC r 1).consumed], dst := some (d, 1), unit := 2 }
    (fun c l => laneQnt nf (c.fenv l) (c.val 0 l) (c.val 1 l) (qntBad c l)) noLate fun c =>
      let g := (c.counted [QuantFmt.fmt nf] c.tg).launchOp
        { MemOp.blank with ps := h.ps.toNat, results := c.results d ++ qntGuards c nf d gs }
      (c.put g).updWg c.e.r.wg (countLanes c nf d)

def execDqnt (h : Hints) (nf : QuantFmt) (wf : WideFmt) (d a : Reg) (b : Opd) (s : State) :
    Host.Outcome State Fault Refusal :=
  sfOp s h [.ieee (WideFmt.ty wf)] d 1 [srcA a 1, srcB b 1]
    fun c l => laneDqnt nf wf (c.fenv l) (c.val 0 l) (c.val 1 l) (c.bad l)

/-- The scale of the channel that the threads that take part hold (R191, R244). -/
def channelScale (c : Ctx) (nf : QuantFmt) (e : Bool) : LaneRes :=
  let x := scaleOf (QuantFmt.fmt nf) e (amaxOf (c.e.part.map (c.val 0)))
  let poison := c.e.part.any c.bad
  if e then { LaneRes.pred 32 (wrapInt 32 x) 9 (m15 (rn (wrapInt 32 x))) poison with stages := convStages }
  else laneConv (.ieee .f32) x.toNat poison

def execQscl (h : Hints) (nf : QuantFmt) (e : Bool) (d : Reg) (b : Opd) (s : State) : Host.Outcome State Fault Refusal :=
  sfOp s h [] d 1 [srcB b 1] fun c _ => channelScale c nf e

def execQspl (h : Hints) (nf : SplitFmt) (d : Reg) (b : Opd) (s : State) : Host.Outcome State Fault Refusal :=
  sfOp s h [] d 2 [srcB b 1] fun c l => laneQspl nf (c.val 0 l) (c.bad l)

/-- The append of `QSPL.rec` (R246). -/
def recordSplit (c : Ctx) : Tensor × Nat :=
  (((c.s.wg? c.e.r.wg).bind fun w => w.tensors[c.uval 0 % 64]?).getD Tensor.zero).appendMap (c.uval 1) c.e.r.tg c.tg.nextOp

def execQsplRec (h : Hints) (d a : U) (b : Opd) (s : State) : Host.Outcome State Fault Refusal :=
  issue s { h := h, srcs := [(srcA (.s a) 1).consumed, (srcB b 1).consumed], dst := some (.s d, 1), unit := 2 }
    (fun _ _ => .guards) noLate fun c =>
      let (t, x) := recordSplit c
      let g := c.tg.launchOp { MemOp.blank with ps := h.ps.toNat, results := [(.s d.toNat, .of (BitVec.ofNat 32 x))] }
      (c.put g).updWg c.e.r.wg fun w => { w with tensors := updAt w.tensors (c.uval 0 % 64) fun _ => t }

/-! ### Packing (R247) -/

/-- The forms of `PACK` that read d: bytes and nibbles. -/
def packReads (sz : PackSz) : Bool := sz != .h

def execPack (h : Hints) (sz : PackSz) (pos : BitVec 3) (d a : Reg) (b : Opd) (s : State) :
    Host.Outcome State Fault Refusal :=
  sfOp s h [] d 1 (words2 a b ++ if packReads sz then [srcD d 1] else [])
    fun c l => lanePack sz pos.toNat (if packReads sz then c.val 2 l else 0) (c.val 0 l) (c.val 1 l) (c.bad l)

def execUnpk (h : Hints) (sz : PackSz) (pos : BitVec 3) (sx : Bool) (d : Reg) (b : Opd) (s : State) :
    Host.Outcome State Fault Refusal :=
  sfOp s h [] d 1 [srcB b 1] fun c l => laneUnpk sz pos.toNat sx (c.val 0 l) (c.bad l)

end Sys2Proof.Machine
end

