-- ==== Sys2Proof/Machine/Lanes.lean ====
section
/-! DEFINITION. Group 0x7: cross-lane instructions (R248 to R253). -/

namespace Sys2Proof.Machine

/-- Words that the lane network moves with their codes; the network sum is checked (Table 2.2). -/
def LaneRes.moved (ws : List CWord) : LaneRes :=
  { words := ws.map (·.data), bad := ws.map (·.bad), check := predicted 10 (ws.map fun w => w.code.toNat)
    halves := true, stages := [10, 11], picks := true }

/-- A variable-latency instruction of the cross-lane network. -/
def laneOp (s : State) (p : Plan) (form : Ctx → Nat → LaneRes) (out : Ctx → List (RKey × CWord)) :
    Host.Outcome State Fault Refusal := varOp s { p with unit := 3 } form out

/-- Segment size of `SHFL`. -/
def segSize (seg w : Nat) : Nat := if seg == 0 then w else 2 ^ seg

/-- Source thread of `SHFL` for thread t (R249). -/
def shflSource (mode : ShflMode) (seg w t b : Nat) : Nat :=
  let n := segSize seg w
  let u := t % n
  let base := t - u
  match mode with
  | .sel => base + b % n
  | .rot => base + (u + b) % n
  | .xch => base + Nat.xor u (b % n)
  | .rev => base + (n - 1 - u)

def execShfl (h : Hints) (mode : ShflMode) (w : Bool) (seg : BitVec 3) (d a : Reg) (b : Opd) (s : State) :
    Host.Outcome State Fault Refusal :=
  let j (c : Ctx) (t : Nat) : Nat := shflSource mode seg.toNat c.e.g.width t (if mode == .rev then 0 else c.val 1 t)
  let p : Plan :=
    { h := h, srcs := srcA a (wide w) :: (if mode == .rev then [] else [(srcB b 1).consumed]), dst := some (d, wide w),
      sel := some j, unfit := fun e => decide (e.g.width < segSize seg.toNat e.g.width) }
  laneOp s p (fun c t => .moved (c.src 0 (j c t))) fun c => c.results d

/-- Values that `VOTE` sees. -/
def votes (c : Ctx) (neg : Bool) (ga : BitVec 3) : List (Nat × Bool) := c.e.part.map fun l => (l, c.e.guard ga l != neg)

def voteResult (c : Ctx) (form : VoteForm) (neg : Bool) (ga : BitVec 3) : List (RKey × CWord) :=
  let vs := votes c neg ga
  let guards (g : BitVec 3) (x : Bool) : List (RKey × CWord) := c.e.part.map fun l => (.g g.toNat l, guardWord x)
  match form with
  | .all g => guards g (vs.all (·.2))
  | .any g => guards g (vs.any (·.2))
  | .eq g => guards g (vs.all (·.2) || vs.all fun v => !v.2)
  | .mask d => c.results d

def voteDst : VoteForm → Option (Reg × Nat)
  | .mask d => some (d, 2)
  | _ => none

def execVote (h : Hints) (form : VoteForm) (neg : Bool) (ga : BitVec 3) (s : State) : Host.Outcome State Fault Refusal :=
  let mask (c : Ctx) : Nat := (maskOf ((votes c neg ga).filterMap fun v => if v.2 then some v.1 else none)).toNat
  laneOp s { h := h, guards := [ga], dst := voteDst form }
    (fun c _ => match form with | .mask _ => LaneRes.dup 64 (mask c) false | _ => .guards)
    fun c => voteResult c form neg ga

/-- The class that a reduction rounds into: floats under `.add`. -/
def redClass (ty : RedTy) (op : RedOp) : List Fmt :=
  match redFloatTy ty, op with
  | some t, .add => [.ieee t]
  | _, _ => []

/-- Extension of an immediate operand of a reduction. -/
def redB (ty : RedTy) (b : Opd) : Src :=
  { srcB b ty.words with ext := match ty with | .f64 => .high | .s64 => .sign | _ => .zero }

/-- Operand value of a reduction: the low half of a word for 16-bit floats. -/
def redVal (ty : RedTy) (x : Nat) : Nat := match redFloatTy ty with | some t => x % 2 ^ t.bits | none => x

/-- The reduction over some threads with the rounding key of one (R251, Table 9.6). -/
def reduceOver (c : Ctx) (ty : RedTy) (op : RedOp) (key : Nat) (ts : List Nat) : LaneRes :=
  laneRed ty op (c.fenv key) (ts.map fun t => redVal ty (c.val 0 t)) (ts.any c.bad)

def execLred (h : Hints) (ty : RedTy) (op : RedOp) (d : Reg) (b : Opd) (s : State) : Host.Outcome State Fault Refusal :=
  issue s { h := h, srcs := [redB ty b], dst := some (d, ty.words), unit := 3 }
    (fun c _ => reduceOver c ty op (c.e.part.headD 0) c.e.part) noLate fun c =>
      c.put ((c.counted (redClass ty op) c.tg).launchOp { MemOp.blank with ps := h.ps.toNat, results := c.results d })

/-- Threads that a scan's output of thread t includes. -/
def scanSet (part : List Nat) (exc : Bool) (t : Nat) : List Nat := part.filter fun i => if exc then decide (i < t) else decide (i ≤ t)

def execLscn (h : Hints) (ty : RedTy) (op : RedOp) (exc : Bool) (d : Reg) (b : Opd) (s : State) :
    Host.Outcome State Fault Refusal :=
  issue s { h := h, srcs := [redB ty b], dst := some (d, ty.words), unit := 3 }
    (fun c t => reduceOver c ty op t (scanSet c.e.part exc t)) noLate fun c =>
      let rounds := !exc || decide (2 ≤ c.e.part.length)
      c.put ((c.counted (if rounds then redClass ty op else []) c.tg).launchOp
        { MemOp.blank with ps := h.ps.toNat, results := c.results d })

/-- Threads whose b equals that of thread t bit for bit; a Poison b matches none (R252). -/
def matchMask (c : Ctx) (t : Nat) : Nat := (maskOf (c.e.part.filter fun i => !c.bad i && c.val 0 i == c.val 0 t)).toNat

def execMtch (h : Hints) (w : Bool) (d : Reg) (b : Opd) (s : State) : Host.Outcome State Fault Refusal :=
  laneOp s { h := h, srcs := [srcB b (wide w)], dst := some (d, 2) }
    (fun c t => { LaneRes.dup 64 (matchMask c t) (c.bad t) with stages := [0, 11] }) fun c => c.results d

def execRdln (h : Hints) (w : Bool) (d : U) (a : Reg) (b : Opd) (s : State) : Host.Outcome State Fault Refusal :=
  let j (c : Ctx) (_ : Nat) : Nat := c.val 1 (c.e.part.headD 0) % c.e.g.width
  laneOp s
    { h := h, srcs := [srcA a (wide w), { (srcB b 1).consumed with first := true }], dst := some (.s d, wide w), sel := some j }
    (fun c t => .moved (c.src 0 (j c t))) fun c => c.results (.s d)

def execWrln (h : Hints) (w : Bool) (d : BitVec 8) (a : U) (b : Opd) (s : State) : Host.Outcome State Fault Refusal :=
  laneOp s { h := h, srcs := [(srcA (.s a) 1).consumed, srcB b (wide w)], dst := some (.v d, wide w) }
    (fun c t => if t == c.uval 0 % c.e.g.width then .moved (c.src 1 t) else { words := [], bad := [], check := fun _ => none, stages := [10, 11] })
    fun c => c.results (.v d)

end Sys2Proof.Machine
end

