-- ==== Sys2Proof/Machine/Address.lean ====
section
/-! DEFINITION. Addresses of memory instructions: the address adder (R289), the checks of every lane of an issue in
the order of R420 (R291, R296, R297, Table 4.3, R69, R74, R103, R109, R314, R390), and putting the checked accesses
in flight (R294, R299, R316). -/

namespace Sys2Proof.Machine

/-! ### Address adder -/

/-- Sum of a base of `n` bits and a signed 32-bit offset, predicted by the add rule (R289). -/
def addrForm (n a b : Nat) (poison : Bool) : LaneRes :=
  let x := wrapInt n (ival true 32 b)
  LaneRes.pred n ((a + x) % 2 ^ n) 0 (predAdd n a x 0) poison

/-- Address of an instruction with base in field A and offset in field B. -/
def baseOffset (n : Nat) (c : Ctx) (l : Nat) : LaneRes :=
  addrForm n (c.val 0 l) (c.val 1 l) (anyBad (c.src 0 l) || anyBad (c.src 1 l))

/-- The adder of a load, with the byte selector of a sub-word one (R292). -/
def LaneRes.load (sz : MemSz) (r : LaneRes) : LaneRes := if sz.bytes < 4 then { r with stages := r.stages ++ [12] } else r

/-- Address of a load. -/
def loadForm (sz : MemSz) (n : Nat) (c : Ctx) (l : Nat) : LaneRes := (baseOffset n c l).load sz

/-- Address of an instruction with the base alone. -/
def baseAlone (n : Nat) (c : Ctx) (l : Nat) : LaneRes := addrForm n (c.val 0 l) 0 (anyBad (c.src 0 l))

/-- Sources of an address: base of `n` words and offset, consumed. -/
def addrSrcs (n : Nat) (a : Reg) (b : Opd) : List Src := [(srcA a n).consumed, (srcB b 1).consumed]

/-! ### Checks of a lane -/

/-- What the checks of one lane give: its accesses, a fault with cause and FCODE, or replayable faults. -/
inductive LaneOut where
  | accs (as : List Acc)
  | fault (cause fcode : Nat)
  | waits (ws : List PageWait)

/-- A request for a global access: what it does, its class of Table 5.7, its bytes, `.mis`, and whether a staged
workgroup may make it. -/
structure Global where
  kind : AccKind
  cls : Nat
  n : Nat
  mis : Bool := false
  unstaged : Bool := true

/-- Data words of a piece that starts at byte `k` of the value. -/
def pieceWords (k o n : Nat) (d : List CWord) : List CWord :=
  if d.isEmpty then []
  else if k % 4 == 0 then alignWords o n (d.drop (k / 4))
  else wordsOfBytes (List.replicate o (0#8, false) ++ ((bytesOf d).drop k).take n)

/-- Translate the pieces of a lane's access. -/
def translatePieces (e : Env) (q : Global) (lane va : Nat) (d d2 : List CWord) : State → List (Nat × Nat) →
    State × List (Except Nat (Acc ⊕ PageWait))
  | s, [] => (s, [])
  | s, (a, n) :: ps =>
    let (s1, x) : State × Except Nat (Acc ⊕ PageWait) :=
      if 2 ^ 57 ≤ a then (s, .error 0)
      else
        match translate s e.core e.ctx e.g.super q.cls a n with
        | (s1, .to pa page coded) =>
          (s1, .ok (.inl (mkAcc lane q.kind a n pa page coded (pieceWords (a - va) (a % 4) n d) (pieceWords (a - va) (a % 4) n d2))))
        | (s1, .fault cause level pte) =>
          (s1, if replayable cause then .ok (.inr (pageWait a q.cls cause level pte lane)) else .error cause)
    let (s2, xs) := translatePieces e q lane va d d2 s1 ps
    (s2, x :: xs)

/-- Some double of the data is an infinity or a NaN (R74). -/
def nonFinite : List CWord → Bool
  | a :: b :: ws => (!a.bad && !b.bad && isNonFinite (valOf [a, b])) || nonFinite ws
  | _ => false

/-- Atomics that PCI Express carries to host memory (R314). -/
def hostAtomicOk : AccKind → Bool
  | .atom ty op => !ty.isFloat && (op == .add || op == .exch)
  | _ => true

/-- The fault that the target of an access raises after translation: coded access, non-finite store, atomic target,
unstaged access, in this order. -/
def targetRule (e : Env) (q : Global) (d : List CWord) (as : List Acc) : Option Nat :=
  let coded := as.any fun a => a.coded.isSome
  let store := q.kind == .store
  if coded && ((store && (q.mis || q.n < 8)) || (match q.kind with
      | .atom ty _ => ty.words != 2
      | .cas ty => ty.words != 2
      | _ => false)) then some 0x15
  else if store && (as.any fun a => (a.coded.map fun t => t.entry.nfp).getD false) && nonFinite d then some 0x16
  else if (as.any fun a => a.page == .host) && !hostAtomicOk q.kind then some 0x17
  else if e.sheet.staged && q.unstaged then some 0x18
  else none

/-- Check a lane's global access (R420). -/
def globalLane (s : State) (e : Env) (q : Global) (lane va : Nat) (d d2 : List CWord) : State × LaneOut :=
  if 2 ^ 57 ≤ va then (s, .fault 0x11 0)
  else if !q.mis && va % q.n != 0 then (s, .fault 0x12 0)
  else
    let (s1, xs) := translatePieces e q lane va d d2 s (pieces va q.n q.mis)
    let errs := xs.filterMap fun x => match x with | .error c => some c | _ => none
    let waits := xs.filterMap fun x => match x with | .ok (.inr w) => some w | _ => none
    let as := xs.filterMap fun x => match x with | .ok (.inl a) => some a | _ => none
    match errs with
    | c :: _ => (s1, if c == 0 then .fault 0x11 0 else .fault 0x10 c)
    | [] =>
      if !waits.isEmpty then (s1, .waits waits)
      else match targetRule e q d as with
        | some c => (s1, .fault c 0)
        | none => (s1, .accs as)

/-- Check a lane's access to a scratchpad of the launch: its own, or one given (R103, R291). -/
def spadLane (e : Env) (kind : AccKind) (n : Nat) (target : Option (Option Nat)) (lane o : Nat) (d d2 : List CWord) : LaneOut :=
  let acc (w : Option Nat) : LaneOut :=
    .accs [{ mkAcc lane kind o n o .spad none (pieceWords 0 (o % 4) n d) (pieceWords 0 (o % 4) n d2) with wg := w }]
  if o % n != 0 then .fault 0x12 0
  else if e.sheet.spadBytes < o + n then .fault 0x13 0
  else match target with
    | none => acc none
    | some none => .fault 0x13 0
    | some (some w) => acc (if w == e.r.wg then none else some w)

/-! ### The verdict of an issue (R296, R420) -/

/-- First fault by thread, else the waits of every lane, else go; one access for all is every thread's (R296). -/
def verdictOf (cls : Nat) (all : BitVec 64) (shared : Bool) (outs : List (Nat × LaneOut)) : Verdict :=
  let faults := outs.filterMap fun x => match x.2 with | .fault c f => some (x.1, c, f) | _ => none
  match faults with
  | (l, c, f) :: _ => .trap (memCause c f cls l) (if shared then all else maskOf ((faults.filter fun y => y.2 == (c, f)).map (·.1)))
  | [] =>
    match outs.flatMap fun x => match x.2 with | .waits ws => ws | _ => [] with
    | [] => .go
    | ws => .wait (if shared then ws.map fun w => { w with threads := all } else ws)

/-- Check lanes in ascending order; the accesses of those that pass go into the context. -/
def checkLanes (c : Ctx) (cls : Nat) (lanes : List Nat) (f : Ctx → Nat → State × LaneOut) : Ctx × Verdict :=
  let (c1, outs) := lanes.foldl (fun (a : Ctx × List (Nat × LaneOut)) l =>
    let (s, o) := f a.1 l
    ({ a.1 with s := s }, a.2 ++ [(l, o)])) (c, [])
  let all := maskOf c.e.part
  let shared := decide (lanes.length < c.e.part.length)
  ({ c1 with accs := sharedBy all shared (outs.flatMap fun x => match x.2 with | .accs as => as | _ => []) }, verdictOf cls all shared outs)

/-! ### Putting accesses in flight -/

/-- Ranges of bytes that some accesses name: first byte and length. -/
def extents (as : List Acc) : List (Nat × Nat) := as.map fun a => (a.va, popcount 16 a.mask)

/-- Range slots that ranges of bytes touch (R316). -/
def Tg.touched (g : Tg) (spad : Bool) (xs : List (Nat × Nat)) : BitVec 8 :=
  (List.range 8).foldl (fun m i =>
    match g.slots[i]?.map RangeSlot.use with
    | some (.range sp base limit) =>
      if sp == spad && decide (base.toNat ≤ limit.toNat) && xs.any (fun x => decide (x.1 ≤ limit.toNat) && decide (base.toNat < x.1 + x.2)) then setBit m i true else m
    | _ => m) 0#8

/-- Slots loaded with a tensor handle. -/
def Tg.handleSlots (g : Tg) (th : Nat) : BitVec 8 :=
  (List.range 8).foldl (fun m i => if g.slots[i]?.map RangeSlot.use == some (.handle (BitVec.ofNat 6 th)) then setBit m i true else m) 0#8

/-- A slot counter beyond its width waits at the `CUT` (R316). -/
def Tg.oweSlots (g : Tg) : Tg := if g.slots.any fun x => decide (65535 < x.count) then g.owe .slots else g

/-- Put the accesses of an issue in flight. -/
def launchAccs (c : Ctx) (spad : Bool) (o : MemOp) : State :=
  let s := issueOp c.s c.e.r { o with accs := c.accs, counts := true, performed := false, super := c.e.g.super,
                                      slots := c.tg.touched spad (extents c.accs) }
  s.updTg c.e.r Tg.oweSlots

/-- Every source of an address is one value for the issue. -/
def uniformAddr (a : Reg) (b : Opd) : Bool := a.isS && b.uniform

/-- Threads that make an access: one for a uniform destination or a uniform address of a load (R294). -/
def loadLanes (c : Ctx) (d : Reg) (uni : Bool) : List Nat := if d.isS || uni then c.e.part.take 1 else c.e.part

/-- Threads that make the accesses of an instruction without a destination: one when all its sources are uniform, since it
then issues in one pass (R158, Table 17.2; log 34). -/
def storeLanes (c : Ctx) (uni : Bool) : List Nat := if uni then c.e.part.take 1 else c.e.part

/-- Threads that receive a value, each with the thread whose access supplies it. -/
def suppliers (c : Ctx) (d : Reg) (uni : Bool) : List (Nat × Nat) :=
  if d.isS then (c.e.part.take 1).map fun l => (l, l)
  else c.e.part.map fun l => (l, if uni then c.e.part.headD 0 else l)

/-- The operation of a load. -/
def loadOp (c : Ctx) (h : Hints) (sz : MemSz) (d : Reg) (uni : Bool) : MemOp :=
  { MemOp.blank with
    dst := some d, lanes := suppliers c d uni, size := sz.bytes, signed := (match sz with | .s16 | .s8 => true | _ => false),
    ps := h.ps.toNat }

/-- Roles of R295. -/
def vectorOnly (role : Nat) : Bool := role == 2
def vectorOrUniform (d : Reg) (role : Nat) : Bool := role == 2 || d.isS

end Sys2Proof.Machine
end

