-- ==== Sys2Proof/Machine/Memory.lean ====
section
/-! DEFINITION. Group 0x8 but PREFT: global loads and stores, constant windows, prefetch (R300 to R303). -/

namespace Sys2Proof.Machine

/-- Class of Table 5.7. -/
def AccKind.cls : AccKind → Nat
  | .load => 0
  | .store => 1
  | _ => 2

/-- Check the lanes of a global access at the address that each lane's adder formed; `d` and `d2` are source
numbers of data. -/
def globalLate (q : Global) (lanes : Ctx → List Nat) (data : Ctx → Nat → List CWord × List CWord) (c : Ctx) : Ctx × Verdict :=
  checkLanes c q.cls (lanes c) fun c l => let (d, d2) := data c l; globalLane c.s c.e q l (c.formedSum l) d d2

def noData (_ : Ctx) (_ : Nat) : List CWord × List CWord := ([], [])

def execLd (h : Hints) (sz : MemSz) (mis _nt : Bool) (d a : Reg) (b : Opd) (s : State) : Host.Outcome State Fault Refusal :=
  let uni := uniformAddr a b
  issue s { h := h, srcs := addrSrcs 2 a b, dst := some (d, sz.words), role := vectorOrUniform d } (loadForm sz 64)
    (globalLate { kind := .load, cls := 0, n := sz.bytes, mis := mis } (loadLanes · d uni) noData)
    fun c => launchAccs c false (loadOp c h sz d uni)

/-- Sources of a store: address and data. -/
def storeSrcs (na : Nat) (sz : MemSz) (d a : Reg) (b : Opd) : List Src := addrSrcs na a b ++ [srcD d sz.words]

/-- The data that a lane stores. -/
def storeData (c : Ctx) (l : Nat) : List CWord × List CWord := (c.src 2 l, [])

def execSt (h : Hints) (sz : MemSz) (mis _nt : Bool) (d a : Reg) (b : Opd) (s : State) : Host.Outcome State Fault Refusal :=
  issue s { h := h, srcs := storeSrcs 2 sz d a b, role := vectorOnly } (baseOffset 64)
    (globalLate { kind := .store, cls := 1, n := sz.bytes, mis := mis } (storeLanes · (d.isS && uniformAddr a b)) storeData)
    fun c => launchAccs c false MemOp.blank

def execLda (h : Hints) (sz : MemSz) (sc : Scope) (d a : Reg) (b : Opd) (s : State) : Host.Outcome State Fault Refusal :=
  let uni := uniformAddr a b
  issue s { h := h, srcs := addrSrcs 2 a b, dst := some (d, sz.words), role := vectorOnly } (loadForm sz 64)
    (globalLate { kind := .load, cls := 0, n := sz.bytes } (loadLanes · d uni) noData)
    fun c => launchAccs c false { loadOp c h sz d uni with acquire := some sc }

/-- A release at cluster scope or wider is a commit point of two-take mode (R341). -/
def commitPoint (s : State) (r : TgRef) (scope : Nat) : State :=
  match s.wg? r.wg with
  | some w => if w.takeOn && decide (3 ≤ scope) then s.updTg r Tg.oweCommit else s
  | none => s

def execStl (h : Hints) (sz : MemSz) (sc : Scope) (d a : Reg) (b : Opd) (s : State) : Host.Outcome State Fault Refusal :=
  issue s { h := h, srcs := storeSrcs 2 sz d a b, role := vectorOnly } (baseOffset 64)
    (globalLate { kind := .store, cls := 1, n := sz.bytes } (storeLanes · (d.isS && uniformAddr a b)) storeData)
    fun c => launchAccs { c with s := commitPoint c.s c.e.r (scopeCode sc) } false { MemOp.blank with scope := sc, rel := true }

/-! ### Constant windows (R302) -/

/-- Check and read one lane of `LDC`; the words read stand in the access. -/
def windowLane (s : State) (e : Env) (n : BitVec 3) (bytes lane o : Nat) : State × LaneOut :=
  if o % bytes != 0 then (s, .fault 0x12 0)
  else
    match windowReadAt s e lane n.toNat (o / 4 * 4) ((bytes + 3) / 4) with
    | (s1, .words ws) => (s1, .accs [{ mkAcc lane .load o bytes o .rc none [] [] with done := true, result := ws }])
    | (s1, .bounds) => (s1, .fault 0x14 0)
    | (s1, .address) => (s1, .fault 0x11 0)
    | (s1, .fault cause) => (s1, .fault 0x10 cause)
    | (s1, .wait w) => (s1, .waits [w])

def execLdc (h : Hints) (sz : MemSz) (d : Reg) (n : BitVec 3) (a : Reg) (off : BitVec 19) (s : State) :
    Host.Outcome State Fault Refusal :=
  let uni := a.isS
  issue s { h := h, srcs := [(srcA a 1).consumed], dst := some (d, sz.words), role := vectorOrUniform d }
    (fun c l => (LaneRes.pred 32 ((c.val 0 l + off.toNat) % 2 ^ 32) 0 (predAdd 32 (c.val 0 l) off.toNat 0) (c.bad l)).load sz)
    (fun c => checkLanes c 0 (loadLanes c d uni) fun c l => windowLane c.s c.e n sz.bytes l (c.formedSum l))
    fun c =>
      let base := (c.e.sheet.windows.getD n.toNat (0, 0)).1
      (issueOp c.s c.e.r { loadOp c h sz d uni with
        accs := c.accs, counts := true, performed := false
        slots := c.tg.touched false ((extents c.accs).map fun x => (base + x.1, x.2)) }).updTg c.e.r Tg.oweSlots

/-! ### Prefetch (R303) -/

/-- Bring the line of a translated place into the L2 home, and into the L1. -/
def prefetchLine (s : State) (pt core : Nat) (l1 : Bool) (pa : Nat) (page : PageKind) (coded : Option CodedTag) : State :=
  match coded with
  | some t => if l1 then (codedToCore s pt core t).1 else fillSet s pt core t
  | none =>
    if page == .host then s
    else if l1 then (if (l1Read s core (pa / 128 * 128) (2 ^ 128 - 1) 32).isSome then s else l1Fill s pt core pa page)
    else if homeHits s (pa / 128 * 128) (2 ^ 128 - 1) || waysOf s (sliceOf s pa) pt == 0#16 then s
    else homeMiss s pt core pa

/-- Prefetch for one lane; any fault drops it. -/
def prefetchLane (e : Env) (l1 : Bool) (s : State) (va : Nat) : State :=
  if 2 ^ 57 ≤ va then s
  else
    match translate s e.core e.ctx e.g.super 0 va 1 with
    | (s1, .to pa page coded) => prefetchLine s1 e.pt e.core l1 pa page coded
    | (s1, .fault _ _ _) => s1

def execPref (h : Hints) (l1 : Bool) (a : Reg) (b : Opd) (s : State) : Host.Outcome State Fault Refusal :=
  issue s { h := h, srcs := addrSrcs 2 a b, role := vectorOnly } (baseOffset 64) noLate
    fun c => c.e.part.foldl (fun s l => prefetchLane c.e l1 s (c.formedSum l)) c.s

end Sys2Proof.Machine
end

