-- ==== Sys2Proof/Machine/Scratch.lean ====
section
/-! DEFINITION. Group 0x9: scratchpad accesses, granules, cluster-remote accesses (R305 to R309, R109 to R112). -/

namespace Sys2Proof.Machine

/-- Check the lanes of a scratchpad access. -/
def spadLate (kind : AccKind) (n : Nat) (target : Ctx → Option (Option Nat)) (lanes : Ctx → List Nat)
    (data : Ctx → Nat → List CWord × List CWord) (c : Ctx) : Ctx × Verdict :=
  checkLanes c kind.cls (lanes c) fun c l =>
    let (d, d2) := data c l
    (c.s, spadLane c.e kind n (target c) l (c.formedSum l % 2 ^ 32) d d2)

/-- The own scratchpad. -/
def ownSpad (_ : Ctx) : Option (Option Nat) := none

def execLds (h : Hints) (sz : MemSz) (d a : Reg) (b : Opd) (s : State) : Host.Outcome State Fault Refusal :=
  let uni := uniformAddr a b
  issue s { h := h, srcs := addrSrcs 1 a b, dst := some (d, sz.words), role := vectorOnly } (loadForm sz 32)
    (spadLate .load sz.bytes ownSpad (loadLanes · d uni) noData) fun c => launchAccs c true (loadOp c h sz d uni)

def execSts (h : Hints) (sz : MemSz) (d a : Reg) (b : Opd) (s : State) : Host.Outcome State Fault Refusal :=
  issue s { h := h, srcs := storeSrcs 1 sz d a b, role := vectorOnly } (baseOffset 32)
    (spadLate .store sz.bytes ownSpad (storeLanes · (d.isS && uniformAddr a b)) storeData) fun c => launchAccs c true MemOp.blank

/-! ### Granules -/

/-- Put an `LDF` in flight: its read is held, and the `CUT` waits for it (R307). -/
def launchLdf (c : Ctx) (h : Hints) (sz : MemSz) (d : Reg) (uni take : Bool) : State :=
  let id := c.tg.nextOp
  let s := launchAccs c true { loadOp c h sz d uni with granule := some take }
  s.updTg c.e.r fun g => g.owe (.granules id)

def execLdfKeep (h : Hints) (sz : MemSz) (d a : Reg) (b : Opd) (s : State) : Host.Outcome State Fault Refusal :=
  let uni := uniformAddr a b
  issue s { h := h, srcs := addrSrcs 1 a b, dst := some (d, sz.words), role := vectorOnly } (loadForm sz 32)
    (spadLate .load sz.bytes ownSpad (loadLanes · d uni) noData) fun c => launchLdf c h sz d uni false

def execLdfTake (h : Hints) (sz : MemSz) (d a : Reg) (b : Opd) (s : State) : Host.Outcome State Fault Refusal :=
  let uni := uniformAddr a b
  issue s { h := h, srcs := addrSrcs 1 a b, dst := some (d, sz.words), role := vectorOnly } (loadForm sz 32)
    (spadLate .load sz.bytes ownSpad (loadLanes · d uni) noData) fun c => launchLdf c h sz d uni true

/-- Test granules in ascending order, each read repairing disagreeing copies (R110). -/
def granulesFull (s : State) (n : Nat) : List Nat → State × Bool
  | [] => (s, true)
  | i :: is =>
    let (s1, b) := granuleRead s n i
    let (s2, bs) := granulesFull s1 n is
    (s2, b && bs)

/-- The first `LDF` whose read is held. -/
def Tg.heldLdf (g : Tg) : Option MemOp := g.ops.find? fun o => o.granule.isSome && !o.performed && o.accs.any fun a => !a.done

/-- A held `LDF` performs its read, in one step, once every granule it touches is full (R112). -/
def execLdfReadPerform (r : TgRef) (s : State) : Host.Outcome State Fault Refusal :=
  match s.tg? r with
  | none => .next s
  | some g =>
    match g.heldLdf with
    | none => .next s
    | some o =>
      if g.acquiring o.id || !(o.accs.zip (List.range o.accs.length)).all fun ai => g.mayPerform o ai.2 ai.1 then .next s
      else
        let gs := granulesOf o.accs
        match granulesFull s r.wg gs with
        | (s1, false) => .next s1
        | (s1, true) =>
          let s2 := (o.accs.zip (List.range o.accs.length)).foldl (fun s ai => performOne s r o.id ai.2 ai.1 false) s1
          let s3 := if o.granule == some true then s2.updWg r.wg fun w => w.setGranules false gs else s2
          .next (progress s3 r)

def execStf (h : Hints) (sz : MemSz) (d a : Reg) (b : Opd) (s : State) : Host.Outcome State Fault Refusal :=
  issue s { h := h, srcs := storeSrcs 1 sz d a b, role := vectorOnly } (baseOffset 32)
    (spadLate .store sz.bytes ownSpad (storeLanes · (d.isS && uniformAddr a b)) storeData) fun c => launchAccs c true { MemOp.blank with setFull := true }

/-- Faults of a `GRN` range (R309). -/
def grnLate (cls : Nat) (c : Ctx) : Ctx × Verdict :=
  let o := c.uval 0
  let n := c.uval 1
  let trap (cause : Nat) : Verdict := .trap (memCause cause 0 cls (c.e.part.headD 0)) (maskOf c.e.part)
  (c, if o % 16 != 0 || n % 16 != 0 || n == 0 then trap 0x12 else if c.e.sheet.spadBytes < o + n then trap 0x13 else .go)

/-- Put a `GRN` in flight: it counts as one performed operation of the memory counter (R299). -/
def launchGrn (c : Ctx) (set : Option Bool) (o : MemOp) : State :=
  (issueOp c.s c.e.r { o with
    counts := true, performed := false, slots := c.tg.touched true [(c.uval 0, c.uval 1)]
    grn := some ⟨set, c.uval 0 / 16, c.uval 1 / 16⟩ }).updTg c.e.r Tg.oweSlots

def grnPlan (h : Hints) (a : U) (b : Opd) : Plan :=
  { h := h, srcs := [(srcA (.s a) 1).consumed, (srcB b 1).consumed], role := vectorOnly }

def execGrnClr (h : Hints) (a : U) (b : Opd) (s : State) : Host.Outcome State Fault Refusal :=
  onceOp s (grnPlan h a b) (grnLate 1) fun c => launchGrn c (some false) MemOp.blank

def execGrnSet (h : Hints) (a : U) (b : Opd) (s : State) : Host.Outcome State Fault Refusal :=
  onceOp s (grnPlan h a b) (grnLate 1) fun c => launchGrn c (some true) MemOp.blank

def execGrnQry (h : Hints) (d a : U) (b : Opd) (s : State) : Host.Outcome State Fault Refusal :=
  onceOp s { grnPlan h a b with dst := some (.s d, 1) } (grnLate 0) fun c =>
    launchGrn c none { MemOp.blank with ps := h.ps.toNat, results := [(.s d.toNat, .zero)] }

/-! ### Cluster-remote accesses (R109, R306) -/

/-- Level bound to the cluster. -/
def Sheet.clusterLevel (h : Sheet) : Option Nat := h.levels.findIdx? fun l => l.bind == 3

/-- Cluster-level unit of a workgroup, and its rank in it. -/
def Sheet.clusterUnit (h : Sheet) (w : Wg) : Option (Nat × Nat) :=
  h.clusterLevel.map fun c =>
    let k := h.prod h.coreLevel c
    ((w.rank + h.ranks * w.unitIx) / k, (w.rank + h.ranks * w.unitIx) % k)

/-- The workgroup of lowest rank of the issuer's cluster-level unit on a core that holds its allocation there, which is until its
write-back has ended (R391). -/
def clusterPeer (s : State) (e : Env) (core : Nat) : Option Nat :=
  match e.sheet.clusterUnit e.w with
  | none => none
  | some (u, _) =>
    let here := s.wgs.filter fun nw => nw.2.launch == e.w.launch && nw.2.take == e.w.take && nw.2.core == core &&
      nw.2.phase != .done &&
      (e.sheet.clusterUnit nw.2).map (·.1) == some u
    (here.foldl (fun best nw => match best with
      | none => some nw
      | some b => if ((e.sheet.clusterUnit nw.2).map (·.2)).getD 0 < ((e.sheet.clusterUnit b.2).map (·.2)).getD 0 then some nw else best)
      none).map (·.1)

/-- Target of `LDX` and `STX`. -/
def remoteSpad (k : BitVec 3) (c : Ctx) : Option (Option Nat) := some (clusterPeer c.s c.e (8 * clusterOf c.e.core + k.toNat))

def execLdx (h : Hints) (sz : MemSz) (k : BitVec 3) (d a : Reg) (b : Opd) (s : State) : Host.Outcome State Fault Refusal :=
  let uni := uniformAddr a b
  issue s { h := h, srcs := addrSrcs 1 a b, dst := some (d, sz.words), role := vectorOnly } (loadForm sz 32)
    (spadLate .load sz.bytes (remoteSpad k) (loadLanes · d uni) noData) fun c => launchAccs c true (loadOp c h sz d uni)

def execStx (h : Hints) (sz : MemSz) (k : BitVec 3) (d a : Reg) (b : Opd) (s : State) : Host.Outcome State Fault Refusal :=
  issue s { h := h, srcs := storeSrcs 1 sz d a b, role := vectorOnly } (baseOffset 32)
    (spadLate .store sz.bytes (remoteSpad k) (storeLanes · (d.isS && uniformAddr a b)) storeData) fun c => launchAccs c true MemOp.blank

end Sys2Proof.Machine
end

