-- ==== Sys2Proof/Machine/AtomicInstr.lean ====
section
/-! DEFINITION. Group 0xA: atomics at the home and at the bank ALUs, fences, range slots (R310 to R316). -/

namespace Sys2Proof.Machine

/-- Extension of an immediate data operand. -/
def atomExt (ty : AtomTy) : ImmExt := match ty with | .s64 => .sign | .f64 => .high | _ => .zero

def atomB (ty : AtomTy) (b : Opd) : Src := { srcB b ty.words with ext := atomExt ty }

/-- Threads that make an atomic that returns a value: one for a uniform destination, and one for a uniform address, whose old value
every thread that takes part receives (R294; log 51). -/
def atomLanes (c : Ctx) (d a : Reg) : List Nat := loadLanes c d a.isS

/-- The operation of an atomic that returns the old value. -/
def atomOpOf (c : Ctx) (h : Hints) (ty : AtomTy) (sc : Scope) (d a : Reg) : MemOp :=
  { MemOp.blank with
    dst := some d, lanes := suppliers c d a.isS, size := 4 * ty.words, ps := h.ps.toNat, scope := sc }

def atomData (c : Ctx) (l : Nat) : List CWord × List CWord := (c.src 1 l, [])
def casData (c : Ctx) (l : Nat) : List CWord × List CWord := (c.src 1 l, c.src 2 l)

/-- A global request of an atomic. -/
def atomReq (ty : AtomTy) (k : AccKind) : Global := { kind := k, cls := 2, n := 4 * ty.words }

def execAtom (h : Hints) (ty : AtomTy) (op : AtomOp) (sc : Scope) (d a : Reg) (b : Opd) (s : State) :
    Host.Outcome State Fault Refusal :=
  issue s { h := h, dataB := true, srcs := [(srcA a 2).consumed, atomB ty b], dst := some (d, ty.words), role := vectorOnly }
    (baseAlone 64) (globalLate (atomReq ty (.atom ty op)) (atomLanes · d a) atomData)
    fun c => launchAccs c false (atomOpOf c h ty sc d a)

def execRed (h : Hints) (ty : AtomTy) (op : AtomOp) (sc : Scope) (a : Reg) (b : Opd) (s : State) :
    Host.Outcome State Fault Refusal :=
  issue s { h := h, dataB := true, srcs := [(srcA a 2).consumed, atomB ty b], role := vectorOnly } (baseAlone 64)
    (globalLate (atomReq ty (.atom ty op)) (storeLanes · (uniformAddr a b)) atomData) fun c => launchAccs c false { MemOp.blank with scope := sc }

def execCas (h : Hints) (ty : AtomTy) (sc : Scope) (d a : Reg) (b : Opd) (r : Reg) (s : State) :
    Host.Outcome State Fault Refusal :=
  issue s { h := h, dataB := true, srcs := [(srcA a 2).consumed, srcB b ty.words, srcC r ty.words], dst := some (d, ty.words), role := vectorOnly }
    (baseAlone 64) (globalLate (atomReq ty (.cas ty)) (atomLanes · d a) casData)
    fun c => launchAccs c false (atomOpOf c h ty sc d a)

/-! ### Bank ALUs (R108) -/

/-- The words that a bank ALU reads for a lane, and those that it forms. -/
def bankWords (k : AccKind) (n : Nat) (c : Ctx) (l o : Nat) : List CWord :=
  let old := (((c.s.wg? c.e.r.wg).map fun w => w.spadRead o n).getD []).map CWord.entered
  k.after old (c.src 1 l) (c.src 2 l)

/-- Words off by some bits. -/
def xorWords (ws es : List Word) : List Word := (ws.zip es).map fun x => x.1 ^^^ x.2

/-- The address adder and the bank ALU of a lane: the words after the address are what the ALU's result is off by, which its prediction
must notice; a Poison result is not checked. -/
def bankForm (k : AccKind) (n : Nat) (c : Ctx) (l : Nat) : LaneRes :=
  let r := baseAlone 32 c l
  let new := bankWords k n c l ((r.words.headD 0#32).toNat)
  let good := new.map (·.data)
  { words := r.words ++ List.replicate n 0#32
    bad := r.bad ++ List.replicate n false
    stages := 0 :: stagesOf k.stage
    check := fun ws => match r.check (ws.take 1) with
      | some st => some st
      | none => if anyBad new then none else predicted k.stage [resWords good] (xorWords good (ws.drop 1)) }

/-- What the bank ALU's words are off by, unnoticed, goes with each access. -/
def bankErrs (c : Ctx) : Ctx :=
  { c with accs := c.accs.map fun a =>
      { a with err := ((c.formed.find? fun x => x.1 == a.lane).map fun x => x.2.words.drop 1).getD [] } }

def execAtoms (h : Hints) (ty : AtomTy) (op : AtomOp) (d a : Reg) (b : Opd) (s : State) :
    Host.Outcome State Fault Refusal :=
  let k : AccKind := .atom ty op
  issue s { h := h, dataB := true, srcs := [(srcA a 1).consumed, atomB ty b], dst := some (d, ty.words), role := vectorOnly }
    (bankForm k ty.words) (spadLate k (4 * ty.words) ownSpad (atomLanes · d a) atomData)
    fun c => launchAccs (bankErrs c) true (atomOpOf c h ty .thread d a)

def execRedSpad (h : Hints) (ty : AtomTy) (op : AtomOp) (a : Reg) (b : Opd) (s : State) :
    Host.Outcome State Fault Refusal :=
  let k : AccKind := .atom ty op
  issue s { h := h, dataB := true, srcs := [(srcA a 1).consumed, atomB ty b], role := vectorOnly } (bankForm k ty.words)
    (spadLate k (4 * ty.words) ownSpad (storeLanes · (uniformAddr a b)) atomData) fun c => launchAccs (bankErrs c) true MemOp.blank

def execCass (h : Hints) (ty : AtomTy) (d a : Reg) (b : Opd) (r : Reg) (s : State) : Host.Outcome State Fault Refusal :=
  let k : AccKind := .cas ty
  issue s { h := h, dataB := true, srcs := [(srcA a 1).consumed, srcB b ty.words, srcC r ty.words], dst := some (d, ty.words), role := vectorOnly }
    (bankForm k ty.words) (spadLate k (4 * ty.words) ownSpad (atomLanes · d a) casData)
    fun c => launchAccs (bankErrs c) true (atomOpOf c h ty .thread d a)

/-! ### Fences and range slots -/

def execFence (h : Hints) (kind : FenceKind) (sc : Scope) (mask : BitVec 8) (s : State) : Host.Outcome State Fault Refusal :=
  onceOp s { h := h, cutAfter := true } noLate fun c =>
    let s1 := c.put (c.tg.owe (.fence kind sc mask))
    if fenceReleases kind then commitPoint s1 c.e.r (scopeCode sc) else s1

/-- Load a slot; the accesses already counted stay counted (R316). -/
def Tg.setSlot (g : Tg) (f : Nat) (u : SlotUse) : Tg := { g with slots := updAt g.slots f fun x => { x with use := u } }

def execRngs (h : Hints) (spad : Bool) (f : BitVec 3) (a b : U) (s : State) : Host.Outcome State Fault Refusal :=
  let cut (x : Nat) : BitVec 64 := BitVec.ofNat 64 (if spad then x % 2 ^ 32 else x)
  onceOp s { h := h, srcs := [(srcA (.s a) 2).consumed, (srcB (.reg (.s b)) 2).consumed] } noLate fun c =>
    c.put (c.tg.setSlot f.toNat (.range spad (cut (c.uval 0)) (cut (c.uval 1))))

def execRngsT (h : Hints) (f : BitVec 3) (th : BitVec 6) (s : State) : Host.Outcome State Fault Refusal :=
  onceOp s { h := h } noLate fun c => c.put (c.tg.setSlot f.toNat (.handle th))

def execRngc (h : Hints) (f : BitVec 3) (s : State) : Host.Outcome State Fault Refusal :=
  onceOp s { h := h } noLate fun c => c.put (c.tg.setSlot f.toNat .empty)

end Sys2Proof.Machine
end

