-- ==== Sys2Proof/Machine/Control.lean ====
section
/-! DEFINITION. Group 0x0 but LNCH: transfers, reconvergence, exit, CUT, YIELD, traps (R342 to R353, R165), the end of
a wait at a CUT, boundary traps, and words that are no instruction (R169, R170). -/

namespace Sys2Proof.Machine

/-! ### Transfers (R347) -/

/-- A target with bits [63:57] or bits [1:0] set faults. -/
def badTarget (x : Nat) : Bool := decide (2 ^ 57 ≤ x) || x % 4 != 0

/-- Address of the instruction plus a signed 32-bit offset, modulo 2^64. -/
def relTarget (pc : BitVec 57) (off : Word) : Nat := ((pc.setWidth 64) + off.signExtend 64).toNat

/-- The ADDRESS trap of the lowest thread whose target faults (R347, Table 18.3). -/
def targetFault (part : List Nat) (target : Nat → Nat) : Verdict :=
  match part.filter fun t => badTarget (target t) with
  | [] => .go
  | t :: ts => .trap (memCause 0x11 0 3 t) (maskOf (t :: ts))

/-- Target adder: predicted by the add rule (R347). -/
def targetForm (off : Word) (c : Ctx) (_ : Nat) : LaneRes :=
  let pc := (c.e.pc.setWidth 64).toNat
  let o := (off.signExtend 64).toNat
  LaneRes.pred 64 ((pc + o) % 2 ^ 64) 0 (predAdd 64 pc o 0) false

/-- Set the next PC of the threads of the issue set: `target` for those that take part, fall-through for the rest;
`link` changes a thread that takes part. -/
def transfer (c : Ctx) (target : Nat → Nat) (link : Nat → Thread → Thread) : State :=
  let pc := c.e.pc
  c.put (c.tg.mapThreads c.e.set fun i t =>
    if c.e.part.contains i then { link i t with next := some (BitVec.ofNat 57 (target i)) }
    else { t with next := some (pc + 24#57) })

/-- The link value p + 24 (R347). -/
def linkWords (pc : BitVec 57) : List CWord := (wordsOf 64 (pc + 24#57).toNat).map CWord.of

def setLink (pc : BitVec 57) (t : Thread) : Thread :=
  { t with linkLo := (linkWords pc).getD 0 .zero, linkHi := (linkWords pc).getD 1 .zero }

/-- Copy the old link values of the threads that take part to a vector pair (SV). -/
def saveLinks (c : Ctx) (sv : Option Reg) : Tg :=
  match sv with
  | none => c.tg
  | some d => c.e.part.foldl (fun g l =>
      match g.threads[l]? with
      | some t => g.writeReg 0 d l [t.linkLo, linkHalf t.linkHi]
      | none => g) c.tg

def execNop (h : Hints) (s : State) : Host.Outcome State Fault Refusal := issue s { h := h } noForm noLate fun c => c.s

def execBra (h : Hints) (off : Word) (s : State) : Host.Outcome State Fault Refusal :=
  issue s { h := h, cutAfter := true, always := true } (targetForm off)
    (fun c => (c, targetFault c.e.part c.formedSum)) fun c => transfer c c.formedSum fun _ t => t

def execBrx (h : Hints) (a : Reg) (s : State) : Host.Outcome State Fault Refusal :=
  issue s { h := h, srcs := [(srcA a 2).consumed], cutAfter := true, always := true } noForm
    (fun c => (c, targetFault c.e.part (c.val 0))) fun c => transfer c (c.val 0) fun _ t => t

/-- The destination of SV. -/
def svDst (sv : Option Reg) : Option (Reg × Nat) := sv.map fun d => (d, 2)

def execCall (h : Hints) (sv : Option Reg) (off : Word) (s : State) : Host.Outcome State Fault Refusal :=
  issue s { h := h, dst := svDst sv, cutAfter := true, always := true } (targetForm off)
    (fun c => (c, targetFault c.e.part c.formedSum))
    fun c => transfer { c with s := c.put (saveLinks c sv) } c.formedSum fun _ t => setLink c.e.pc t

def execCallx (h : Hints) (sv : Option Reg) (a : Reg) (s : State) : Host.Outcome State Fault Refusal :=
  issue s { h := h, srcs := [(srcA a 2).consumed], dst := svDst sv, cutAfter := true, always := true } noForm
    (fun c => (c, targetFault c.e.part (c.val 0)))
    fun c => transfer { c with s := c.put (saveLinks c sv) } (c.val 0) fun _ t => setLink c.e.pc t

def execRet (h : Hints) (ld : Option Reg) (s : State) : Host.Outcome State Fault Refusal :=
  let srcs : List Src := match ld with | some a => [srcA a 2] | none => []
  issue s { h := h, srcs := srcs, cutAfter := true, link := true, always := true } noForm
    (fun c => (c, targetFault c.e.part fun i => valOf (c.link i) % 2 ^ 57))
    fun c => transfer c (fun i => valOf (c.link i) % 2 ^ 57) fun i t =>
      match ld with
      | some _ => { t with linkLo := (c.src 0 i).getD 0 .zero, linkHi := linkHalf ((c.src 0 i).getD 1 .zero) }
      | none => t

/-! ### Reconvergence (R348, R349, R408 to R411) -/

/-- Enter serial mode at an overflowing `RCV`, or append a level in it. -/
def Tg.overflow (g : Tg) (jpc : BitVec 57) (part : List Nat) : Tg :=
  match g.serial with
  | some x => { g with serial := some { x with jpcs := x.jpcs ++ [jpc] } }
  | none =>
    let run := part.headD 0
    let g1 := g.mapThreads (maskOf (part.drop 1)) fun _ t => { t with status := .held }
    { g1 with
      serial := some ⟨[jpc], maskOf part, run⟩
      shot := { g1.shot with set := maskOf [run] } }

/-- The overflow list is full (R411). -/
def rcvFull (e : Env) : Bool := !e.part.isEmpty && ((e.g.serial.map fun x => decide (255 ≤ x.jpcs.length)).getD false)

def execRcv (h : Hints) (off : Word) (s : State) : Host.Outcome State Fault Refusal :=
  issue s { h := h, always := true, unfit := rcvFull } (targetForm off)
    (fun c => (c, targetFault c.e.part c.formedSum))
    fun c =>
      if c.e.part.isEmpty then c.s
      else
        let jpc : BitVec 57 := BitVec.ofNat 57 (c.formedSum (c.e.part.headD 0))
        let g := c.tg
        if g.serial.isSome || 16 ≤ g.stack.length then c.put (g.overflow jpc c.e.part)
        else c.put { g with stack := g.stack ++ [⟨jpc, maskOf c.e.part⟩] }

/-- A released thread continues at an address: after the open shot's `CUT` when it is of its issue set. -/
def Tg.resume (g : Tg) (i : Nat) (at_ : BitVec 57) (t : Thread) : Thread :=
  { t with status := .ready, pc := at_, next := if g.shot.set.getLsbD i then some at_ else none }

/-- Pop every top frame whose members have all arrived; they continue after the join (R348). -/
def popFrames (g : Tg) : Nat → Tg
  | 0 => g
  | n + 1 =>
    match g.stack.getLast? with
    | none => g
    | some f =>
      let live := (members f.members).filter fun i => (g.threads[i]?.map fun t => t.status != .exited).getD false
      let arrived := live.all fun i => (g.threads[i]?.map fun t => t.status == .arrived).getD false
      if live.isEmpty then popFrames { g with stack := g.stack.dropLast } n
      else if arrived then
        let g1 := g.mapThreads (maskOf live) fun i t => g.resume i (f.jpc + 24#57) t
        { g1 with stack := g.stack.dropLast }
      else g

/-- The running serial thread has arrived or exited: the next held thread runs, or serial mode ends (R410). -/
def Tg.nextSerial (g : Tg) : Tg :=
  match g.serial with
  | none => g
  | some x =>
    match g.threadsWhere (fun t => t.status == .held) |>.find? (fun i => x.set.getLsbD i) with
    | some i =>
      let g1 := g.mapThreads (maskOf [i]) fun _ t => { t with status := .ready }
      { g1 with serial := some { x with running := i } }
    | none =>
      let j := (x.jpcs.headD 0#57) + 24#57
      let g1 := g.mapThreads x.set fun k t => if t.status == .arrived then g.resume k j t else t
      popFrames { g1 with serial := none } 17

/-- Threads leave the issue set of the open shot. -/
def Tg.leave (g : Tg) (ts : List Nat) : Tg := { g with shot := { g.shot with set := g.shot.set &&& ~~~(maskOf ts) } }

/-- Fall through to p + 24. -/
def Tg.fall (g : Tg) (ts : BitVec 64) (pc : BitVec 57) : Tg := g.mapThreads ts fun _ t => { t with next := some (pc + 24#57) }

/-- Threads become arrived; those that a popped frame releases stay in the set with their target. -/
def Tg.arriveAt (g : Tg) (ts : List Nat) (serial : Bool) : Tg :=
  let g1 := g.mapThreads (maskOf ts) fun _ t => { t with status := .arrived }
  let g2 := if serial then g1.nextSerial else popFrames g1 17
  g2.leave (ts.filter fun i => (g2.threads[i]?.map fun t => t.status != .ready).getD true)

def execJoin (h : Hints) (s : State) : Host.Outcome State Fault Refusal :=
  issue s { h := h, cutAfter := true, always := true } noForm noLate fun c =>
    let g := c.tg.fall c.e.set c.e.pc
    if c.e.part.isEmpty then c.put g
    else
      match g.serial with
      | some x =>
        if x.jpcs.getLast? == some c.e.pc then
          if x.jpcs.length ≤ 1 then c.put (g.arriveAt c.e.part true)
          else c.put { g with serial := some { x with jpcs := x.jpcs.dropLast } }
        else c.put g
      | none =>
        match g.stack.getLast? with
        | some f => if f.jpc == c.e.pc then c.put (g.arriveAt c.e.part false) else c.put g
        | none => c.put g

/-! ### Exit (R350, R428, R130) -/

/-- End the threads that take part. -/
def exitThreads (g : Tg) (part : List Nat) : Tg :=
  let m := maskOf part
  let g1 := (g.mapThreads m fun _ t => { t with status := .exited, next := none }).leave part
  let g2 : Tg := { g1 with
    stack := g1.stack.map fun f => ⟨f.jpc, f.members &&& ~~~m⟩
    exitSet := m }
  match g2.serial with
  | some x =>
    let x' := { x with set := x.set &&& ~~~m }
    if part.contains x.running then Tg.nextSerial { g2 with serial := some x' } else { g2 with serial := some x' }
  | none => popFrames g2 17

def execExit (h : Hints) (s : State) : Host.Outcome State Fault Refusal :=
  issue s { h := h, cutAfter := true, always := true } noForm noLate fun c =>
    if c.tg.super then endWorkgroup c.s c.e.r.wg 1
    else c.put ((exitThreads (c.tg.fall c.e.set c.e.pc) c.e.part))

/-! ### CUT (R165) -/

/-- WAIT of a `CUT` operand. -/
def cutMask (x : Nat) : BitVec 6 := BitVec.ofNat 6 (x / 2)

def execCut (h : Hints) (b : Opd) (s : State) : Host.Outcome State Fault Refusal :=
  let out := issue s { h := h, srcs := [(srcB b 1).consumed], cut := true, always := true } noForm noLate fun c =>
    c.put { c.tg with phase := .atCut (cutMask (c.uval 0)), flights := [] }
  match out, s.cur with
  | .next t, some r => .next (tryCut t r)
  | o, _ => o

/-- The waits held at a CUT end (R163). -/
def execCutWaitEnd (r : TgRef) (s : State) : Host.Outcome State Fault Refusal :=
  match s.wg? r.wg, s.tg? r with
  | some w, some g =>
    match g.phase, g.failure with
    | .atCut _, some x => if w.runs then .next (failureTrap s r x) else .next s
    | .atCut _, none =>
      let reads := s.engineReads r
      if cutReady reads w g && w.runs && (g.boundary.isEmpty || g.super || g.debug != .off) then .next (completeCut s r)
      else .next (if commitDue reads w g && w.runs then reachCommit s r.wg (.tg r.tg) else s)
    | _, _ => .next s
  | _, _ => .next s

def execYield (h : Hints) (s : State) : Host.Outcome State Fault Refusal :=
  issue s { h := h } noForm noLate fun c =>
    c.put { c.tg with shot := { c.tg.shot with yieldInstr := true } }

/-! ### Traps and returns (R352, R353, R429) -/

def execTrap (h : Hints) (code : BitVec 16) (s : State) : Host.Outcome State Fault Refusal :=
  issue s { h := h } noForm (fun c => (c, .trap (codeCause 0x08 code) (maskOf c.e.part))) fun c => c.s

/-- Host debugging is on for the thread group's context (R463, R429). -/
def debugging (s : State) (e : Env) : Bool := ((s.ctx? e.ctx).map (·.debug)).getD false

/-- Enter the debug state before the `BRK` has any effect (R429). -/
def enterDebug (c : Ctx) : State :=
  let g := c.tg
  (stallOut (c.put { g with debug := .stopped, debugAt := c.s.clock.toNat, brk := some c.e.pc }) c.e.r).endStep c.e.r

def execBrk (h : Hints) (code : BitVec 16) (s : State) : Host.Outcome State Fault Refusal :=
  match env? s h with
  | none => .fault .noThreadGroup
  | some e =>
    if debugging s e && !e.part.isEmpty && !(Plan.illegal { h := h } e) then .next (enterDebug (Ctx.start s e []))
    else issue s { h := h } noForm (fun c => (c, .trap (codeCause 0x09 code) (maskOf c.e.part))) fun c => c.s

def execTret (h : Hints) (s : State) : Host.Outcome State Fault Refusal :=
  issue s { h := h, super := true, cutAfter := true, always := true } noForm
    (fun c => (c, if badTarget c.e.g.tpc.toNat then targetFault c.e.part fun _ => c.e.g.tpc.toNat else .go))
    fun c => if c.e.part.isEmpty then c.put (c.tg.fall c.e.set c.e.pc) else c.put { c.tg.fall c.e.set c.e.pc with ret := true }

/-! ### Boundary traps (R423, R424) -/

/-- The thread group stands at the `EXIT` of its last threads, or at the `CUT` after it (R424). -/
def Tg.atExit (g : Tg) : Bool := g.phase == .exiting || g.allExited

/-- The threads that a boundary trap runs with and where they would have continued: those of a held `EXIT`, else the
next shot's. -/
def boundarySet (g : Tg) : Option (BitVec 57 × BitVec 64) :=
  if g.atExit then
    ((members g.exitSet).head?.bind fun i => g.threads[i]?).map fun t => (t.pc, g.exitSet)
  else g.choose

def execBoundaryTrap (r : TgRef) (s : State) : Host.Outcome State Fault Refusal :=
  match s.wg? r.wg, s.tg? r with
  | some w, some g =>
    let atBoundary := match g.phase with
      | .ready => !g.shot.active
      | .atCut _ => true
      | .exiting => true
      | _ => false
    match g.boundary, boundarySet g with
    | t :: ts, some (pc, set) =>
      if w.runs && atBoundary && !g.super && g.debug == .off then
        let s0 := if causeOf t.tcause == 2 && s.dfs.slConten then fireSlate s 2 (t.tcause.toNat / 2 ^ 16) else s
        let g1 : Tg := match t.pc with
          | some x => { g with boundary := ts, rpt := x :: g.rpt }
          | none => { g with boundary := ts }
        let cause := match t.pc with | some x => t.tcause + BitVec.ofNat 32 (g.repeats x) | none => t.tcause
        .next (wake (s0.setTg r
          (g1.enterTrap cause 0#64 set pc (trapVector s w) (g1.snapshot set pc false true g.atExit))) r)
      else .next s
    | _, _ => .next s
  | _, _ => .next s

/-! ### Words that are no instruction (R169, R170) -/

def execInvalidEncoding (_ : BitVec 96) (s : State) : Host.Outcome State Fault Refusal :=
  match env? s ⟨false, 15#4, 0#4, 0#3, false, false⟩ with
  | none => .fault .noThreadGroup
  | some e => .next (takeTrap s e.r illegalCause (freeMask e.tick) false)

/-- Register of a 12-bit specifier (R154). -/
def specReg (x : Nat) : Option Reg :=
  if x / 1024 == 0 then some (.v (BitVec.ofNat 8 x))
  else if x / 1024 == 1 then some (.s (BitVec.ofNat 10 x))
  else if x / 1024 == 2 && x / 128 % 8 == 0 then some (.k (BitVec.ofNat 3 x))
  else none

/-- The register that field D of an extension operation names; a field of value zero names none. -/
def extDst (w : BitVec 96) : Option (Reg × Nat) :=
  let d := bitsAt w.toNat 50 12
  if d == 0 then none else (specReg d).map fun r => (r, 1)

/-- Operands that fields A, B and C of an extension operation name; a field of value zero names none. -/
def extSrcs (w : BitVec 96) : List Src :=
  let a := bitsAt w.toNat 38 12
  let kind := bitsAt w.toNat 36 2
  let low := bitsAt w.toNat 0 12
  let sa := if a == 0 then [] else match specReg a with | some r => [srcA r 1] | none => []
  let sb : List Src :=
    if bitsAt w.toNat 0 38 == 0 then []
    else if kind == 0 then (if low == 0 then [] else match specReg low with | some r => [srcB (.reg r) 1] | none => [])
    else if kind == 1 then [srcB (.win (BitVec.ofNat 3 (bitsAt w.toNat 17 3)) (BitVec.ofNat 17 (bitsAt w.toNat 0 17))) 1]
    else [srcB (.imm (BitVec.ofNat 32 w.toNat)) 1]
  let c := bitsAt w.toNat 24 12
  let sc := if 2 ≤ kind || c == 0 then [] else match specReg c with | some r => [srcC r 1] | none => []
  sa ++ sb ++ sc

/-- Hints of any word. -/
def wordHints (w : BitVec 96) : Hints :=
  ⟨w.getLsbD 75, w.extractLsb' 71 4, w.extractLsb' 67 4, w.extractLsb' 64 3, w.getLsbD 63, w.getLsbD 62⟩

/-- Write the instruction word and the operands of the threads that take part to `sr.tinst` and `sr.top` (R170); an operand in a window
that cannot be read gives a free value (log 85). -/
def Ctx.emulated (c : Ctx) (w : BitVec 96) : Tg :=
  let g := c.tg
  let opnd (f lane : Nat) : CWord :=
    match (List.range c.srcs.length).find? fun i => ((c.srcs[i]?).map fun x => x.1.field == f).getD false with
    | some i => (c.src i lane).headD (.of (Config.freeWord c.e.tick (3 * lane + f)))
    | none => CWord.zero
  { g with
    tinst := w
    tops := (List.range g.width).foldl (fun m l => (List.range 3).foldl (fun m f =>
      Machine.put CWord.zero m (64 * f + l) (if c.e.part.contains l then opnd f l else CWord.zero)) m) [] }

/-- EMULATION, after the operands are read and checked; a continuity failure is taken in its place (R170), and nothing else: a window
that cannot be read is a cause of rank 5 (R419). -/
def execExtensionOperation (w : BitVec 96) (s : State) : Host.Outcome State Fault Refusal :=
  let h := wordHints w
  let p : Plan := { h := h, srcs := extSrcs w, dst := extDst w }
  match env? s h with
  | none => .fault .noThreadGroup
  | some e =>
    if e.g.cancel then .next (cancelTrap s e.r false)
    else if p.illegal e then .next (takeTrap s e.r illegalCause (freeMask e.tick) false)
    else if e.part.isEmpty then
      match selectStall e h with
      | some t => .next (takeTrap s e.r t.1 t.2 false)
      | none => .next (finish e p s)
    else
      let (s1, srcs, _) := readWindows s e p.srcs
      let c := (Ctx.start s1 e srcs).repair p
      match c.readFailure p with
      | some t => .next (takeTrap c.s c.e.r t.1 t.2 false)
      | none =>
        .next (takeTrap (c.put (c.emulated w)) c.e.r (BitVec.ofNat 32 (0x04 * 2 ^ 24)) (maskOf c.e.part) false)

end Sys2Proof.Machine
end

