-- ==== Sys2Proof/Machine/Engines.lean ====
section
/-! DEFINITION. Group 0xC and PREFT: commands and jobs enter their queues, waits on engine counters, deferred slots
(R304, R355 to R360). -/

namespace Sys2Proof.Machine

/-- Copy and vector roles; copy role (R295, R374). -/
def copyOrVector (role : Nat) : Bool := role != 1
def copyOnly (role : Nat) : Bool := role == 0

/-- The eight registers of a command. -/
def commandSrc (n : U) : Src := (srcA (.s n) 8).consumed

/-- Doublewords of a command (R118). -/
def Ctx.command (c : Ctx) : List (BitVec 64) :=
  let ws := c.src 0 (c.e.part.headD 0)
  (List.range 4).map fun i => BitVec.ofNat 64 (valOf ((ws.drop (2 * i)).take 2))

/-- The deferred slot that guards a command (R149, R157). -/
def deferOf (h : Hints) : Option (Nat × Bool) := if 8 ≤ h.gidx.toNat && h.gidx.toNat < 15 then some (h.gidx.toNat - 8, h.gneg) else none

/-- A command as it is issued. -/
def newCommand (c : Ctx) (h : Hints) (kind : CopyKind) (words : List (BitVec 64)) : CopyCmd :=
  { kind := kind, issuer := c.e.r, part := c.e.pt, ctx := c.e.ctx, words := words, defer := deferOf h, phase := .queued,
    accepted := false, eslot := 0, idx := [], chunk := 0, chain := ChainRun.fresh 0, member := false, buf := [],
    retried := false, status := 0, slots := 0#8, waits := [], super := c.e.g.super }

/-- Signed words of an index list in the scratchpad. -/
def indexList (w : Wg) (l n : Nat) : List Int := (w.spadRead l n).map fun x => ival true 32 x.data.toNat

/-- Byte ranges of a side that the range slots of the thread group see. -/
def Side.ranges (d : Side) (rows : Nat) : List (Nat × Nat) := (List.range rows).map fun r => ((d.row r).toNat, d.rowb)

/-- Range slots that a command touches: by its bytes and by its tensor handle (R120, R316). -/
def copySlots (c : Ctx) (x : CopyCmd) : BitVec 8 :=
  let y := match x.list, c.s.wg? c.e.r.wg with
    | some l, some w => { x with idx := indexList w l x.rows }
    | _, _ => x
  let dst := if x.peer.isSome then 0#8 else c.tg.touched x.dsp (y.dstSide.ranges x.rows)
  let tag := match x.tagged with | some th => c.tg.handleSlots th | none => 0#8
  c.tg.touched x.ssp (y.srcSide.ranges x.rows) ||| dst ||| tag

/-- Issue a copy command. -/
def copyOp (s : State) (h : Hints) (srcs : List Src) (kind : Ctx → CopyKind) : Host.Outcome State Fault Refusal :=
  onceOp s { h := h, srcs := srcs, role := copyOnly } noLate fun c =>
    let x := newCommand c h (kind c) c.command
    (enqueueCopy c.s c.e.core { x with slots := copySlots c x }).updTg c.e.r Tg.oweSlots

def execCpy (h : Hints) (n : U) (s : State) : Host.Outcome State Fault Refusal := copyOp s h [commandSrc n] fun _ => .copy

def execCpygGather (h : Hints) (n : U) (b : Opd) (s : State) : Host.Outcome State Fault Refusal :=
  copyOp s h [commandSrc n, (srcB b 1).consumed] fun c => .gather (c.uval 1)

def execCpygScatter (h : Hints) (n : U) (b : Opd) (s : State) : Host.Outcome State Fault Refusal :=
  copyOp s h [commandSrc n, (srcB b 1).consumed] fun c => .scatter (c.uval 1)

def execCpyx (h : Hints) (n : U) (p : BitVec 4) (s : State) : Host.Outcome State Fault Refusal :=
  copyOp s h [commandSrc n] fun _ => .peer p.toNat

def execPreft (h : Hints) (l1 : Bool) (bar : BitVec 4) (a : U) (b : Opd) (s : State) : Host.Outcome State Fault Refusal :=
  onceOp s { h := h, srcs := [(srcA (.s a) 2).consumed, (srcB b 1).consumed], role := copyOrVector } noLate fun c =>
    let x := newCommand c h (.prefetch l1) [BitVec.ofNat 64 (c.uval 0), BitVec.ofNat 64 (c.uval 1), BitVec.ofNat 64 bar.toNat]
    (enqueueCopy c.s c.e.core { x with slots := c.tg.touched false [(c.uval 0, c.uval 1)] }).updTg c.e.r Tg.oweSlots

/-! ### CPYR (R360) -/

/-- The command that the cursor's DW1 names, when it is suspended and of the thread group. -/
def suspendedAt (c : Ctx) : Option (Nat × Nat) :=
  let core := bitsAt (c.uval 0) 32 9
  let e := bitsAt (c.uval 0) 24 5
  match (c.s.core core).entry e with
  | some x => if x.issuer == c.e.r && x.phase == .suspended then some (core, e) else none
  | none => none

/-- Write the guard of every thread that takes part. -/
def writeGuards (s : State) (c : Ctx) (lat : Nat) (g : BitVec 3) (b : Bool) : State :=
  s.updTg c.e.r fun t => c.e.part.foldl (fun t l => t.writeGuard lat g.toNat l b) t

/-- `CPYR`: act on the suspended command, and say in the guard whether there was one. -/
def cpyrOp (h : Hints) (g : BitVec 3) (a : U) (act : State → Nat → Nat → State) (s : State) : Host.Outcome State Fault Refusal :=
  onceOp s { h := h, srcs := [(srcA (.s a) 2).consumed], super := true } noLate fun c =>
    match suspendedAt c with
    | some (core, e) => writeGuards (act c.s core e) c 4 g true
    | none => writeGuards c.s c 4 g false

def execCpyrGo (h : Hints) (g : BitVec 3) (a : U) (s : State) : Host.Outcome State Fault Refusal :=
  cpyrOp h g a (fun s core e => updEntry s core e fun x => { x with phase := .active, buf := [] }) s

def execCpyrAb (h : Hints) (g : BitVec 3) (a : U) (s : State) : Host.Outcome State Fault Refusal :=
  cpyrOp h g a (fun s core e => finishCopy s core e 0x05) s

/-! ### DCMP, WAITC, DGRS -/

/-- Another job finds room (R117). -/
def jobRoom (s : State) (k : Nat) : Bool := decide ((s.cluster k).jobs.length < 16)

/-- Range slots that a job touches. -/
def jobSlots (c : Ctx) (ws : List (BitVec 64)) : BitVec 8 :=
  let d (i : Nat) : Nat := (ws.getD i 0#64).toNat
  c.tg.touched ((d 0).testBit 57) [(bitsAt (d 0) 0 57, bitsAt (d 2) 0 32)] |||
    c.tg.touched ((d 1).testBit 57) [(bitsAt (d 1) 0 57, bitsAt (d 2) 32 32)]

def execDcmp (h : Hints) (n : U) (s : State) : Host.Outcome State Fault Refusal :=
  onceOp s { h := h, srcs := [commandSrc n], role := copyOnly } noLate fun c =>
    let k := clusterOf c.e.core
    let room := jobRoom c.s k
    let x : Job := { issuer := c.e.r, core := c.e.core, part := c.e.pt, ctx := c.e.ctx, words := c.command, defer := deferOf h,
                     accepted := false, phase := .queued, status := 0, slots := jobSlots c c.command, waits := [], super := c.e.g.super }
    let q := c.s.cluster k
    let s1 := c.s.setCluster k { q with jobs := q.jobs ++ [{ x with stream := x.streamNow c.s, id := c.tg.nextOp }] }
    s1.updTg c.e.r fun g =>
      let g1 := Tg.owe { g.place.addSlots x.slots with cntDcmp := g.cntDcmp + 1 } (.counter .dcmp 255)
      (if room then g1 else g1.owe .enter).oweSlots

def execWaitc (h : Hints) (cls : CntClass) (n : BitVec 8) (s : State) : Host.Outcome State Fault Refusal :=
  onceOp s { h := h, cutAfter := true } noLate fun c => c.put (c.tg.owe (.counter cls n.toNat))

/-- Set a deferred slot of the workgroup. -/
def setDeferred (c : Ctx) (k : BitVec 3) (d : Deferred) : State :=
  c.s.updWg c.e.r.wg fun w => { w with deferred := updAt w.deferred k.toNat fun _ => d }

def execDgrs (h : Hints) (k : BitVec 3) (b : Opd) (s : State) : Host.Outcome State Fault Refusal :=
  onceOp s { h := h, srcs := [(srcB b 1).consumed] } noLate fun c => setDeferred c k (if c.uval 0 == 0 then .no else .yes)

def execDgrsClr (h : Hints) (k : BitVec 3) (s : State) : Host.Outcome State Fault Refusal :=
  onceOp s { h := h } noLate fun c => setDeferred c k .unresolved

end Sys2Proof.Machine
end

