-- ==== Sys2Proof/Machine/Start.lean ====
section
/-! DEFINITION. A thread group and a workgroup as they start (R149, R381, R385, R393, R101, R114). -/

namespace Sys2Proof.Machine

def Thread.fresh (entry : Nat) : Thread :=
  { guards := 0#8, pc := BitVec.ofNat 57 entry, linkLo := .zero, linkHi := .zero, status := .ready, age := 0,
    ccnt := 0#32, next := none }

/-- Role of a thread group: 0 copy, 1 matrix, 2 vector (R381). -/
def Sheet.role (h : Sheet) (tg : Nat) : Nat :=
  if h.ncopy + h.nmat + h.nvec == 0 then 2
  else if tg < h.ncopy then 0 else if tg < h.ncopy + h.nmat then 1 else 2

def Tg.fresh (h : Sheet) (tg slot order : Nat) (mirrored : Bool) : Tg :=
  { width := h.width, slot := slot, role := h.role tg, mirrored := mirrored, vregs := [], mirror := [], uregs := [],
    temps := [], threads := List.replicate h.width (Thread.fresh h.entry), pend := List.replicate 7 0,
    slots := List.replicate 8 ⟨.empty, 0⟩, cntCopy := 0, cntMat := 0, cntDcmp := 0, cntMem := 0, fmode := 0#28,
    chk := false, tcause := 0#32, tmask := 0#64, tpc := 0#64, tinst := 0#96, tops := [], govst := 0#64, crIdx := 0#6,
    crSum := 0#64, crMax := 0#64, crCnt := 0#64, crNf := 0#32, super := false, rpt := [],
    stack := [], serial := none, gang := [], gangPos := 0, shot := .none, saved := none, kept := [], flights := [],
    steps := 0, phase := .ready, ret := false, nextCut := false, faults := [], cancel := false, ops := [], nextOp := 0,
    boundary := [], debug := .off, debugAt := 0, brk := none, active := false, readySince := 0, order := order, round := 0, busy := 0,
    matIssued := 0, matNext := 0, matDone := [], exitSet := 0#64 }

/-- A plain barrier that T arrivals complete. -/
def Barrier.fresh (t : Nat) : Barrier := ⟨t, 0, 0, 0, 0#32, 0#8, 0#8, none⟩

def Wg.fresh (h : Sheet) (launch unitIx rank take core base order : Nat) (slots : List Nat) (pages : List Nat)
    (mirrored : Bool) : Wg :=
  { launch := launch, unitIx := unitIx, rank := rank, takeOn := h.takes, take := take, core := core, base := base,
    phase := if h.staged then .staging else .placed
    tgs := (List.range h.groups).map fun t => Tg.fresh h t (slots.getD t 0) (order + t) mirrored
    spad := [], gran := [], gran2 := [], acc := [], pages := pages, tiles := List.replicate 16 none
    tensors := h.image ++ List.replicate (64 - h.image.length) Tensor.zero
    barriers := List.replicate 16 (Barrier.fresh h.groups), deferred := List.replicate 7 .unresolved, status := 0#8
    region := 0, cursor := 0, stageWait := [], sig := 0#64, commits := 0, held := [], points := []
    preempt := false, preemptSince := 0 }

end Sys2Proof.Machine
end

