-- ==== Sys2Proof/Machine/LaunchOps.lean ====
section
/-! DEFINITION. Launches: the call sheet and its checks (R375 to R388, R392, Table 16.3), what fits a core, a cluster, a die
(R382, R394), appending a launch (R397), placing a workgroup (R100, R114, R382, R387), the completion record (R400). -/

namespace Sys2Proof.Machine

/-! ### The sheet (Table 16.1) -/

/-- Doubleword of a sheet at a byte offset. -/
def sheetDw (d : List Nat) (off : Nat) : Nat := d.getD (off / 8) 0

def sheetLevels (d : List Nat) : Nat := bitsAt (sheetDw d 0) 16 4
def sheetRegions (d : List Nat) : Nat := bitsAt (sheetDw d 0) 28 4
def sheetTcnt (d : List Nat) : Nat := bitsAt (sheetDw d 0x038) 57 7
def sheetTtab (d : List Nat) : Nat := bitsAt (sheetDw d 0x038) 0 57
def sheetCdone (d : List Nat) : Nat := bitsAt (sheetDw d 0x1C0) 0 57

/-- The level, window and region entries. -/
def levelOf (d : List Nat) (i : Nat) : Level :=
  let e := sheetDw d (0x040 + 16 * i)
  let b := sheetDw d (0x048 + 16 * i)
  ⟨bitsAt e 0 21, bitsAt e 21 21, bitsAt e 42 21, bitsAt b 0 3, bitsAt b 3 3⟩
def windowOf (d : List Nat) (c : Nat) : Nat × Nat := (bitsAt (sheetDw d (0x0C0 + 16 * c)) 0 57, bitsAt (sheetDw d (0x0C8 + 16 * c)) 0 20)
def regionOf (d : List Nat) (j : Nat) : Region :=
  let a := sheetDw d (0x140 + 16 * j)
  let b := sheetDw d (0x148 + 16 * j)
  ⟨bitsAt a 0 57, a.testBit 63, bitsAt b 0 32, bitsAt b 32 32⟩

/-- The sheet held in 128 doublewords, without its image. -/
def sheetFrom (d : List Nat) : Sheet :=
  let f := sheetDw d 0
  { levels := (List.range (sheetLevels d)).map (levelOf d)
    coop := f.testBit 24
    mirror := f.testBit 25
    takes := f.testBit 26
    staged := f.testBit 27
    entry := sheetDw d 0x008
    trapv := sheetDw d 0x010
    nonce := BitVec.ofNat 64 (sheetDw d 0x018)
    vregs := bitsAt (sheetDw d 0x020) 0 9
    uregs := bitsAt (sheetDw d 0x020) 9 11
    accp := bitsAt (sheetDw d 0x020) 20 7
    spad := bitsAt (sheetDw d 0x020) 32 32
    ncopy := bitsAt (sheetDw d 0x028) 0 7
    nmat := bitsAt (sheetDw d 0x028) 8 7
    nvec := bitsAt (sheetDw d 0x028) 16 7
    blev := (List.range 16).map fun b => bitsAt (sheetDw d 0x030) (3 * b) 3
    windows := (List.range 8).map (windowOf d)
    regions := (List.range (sheetRegions d)).map (regionOf d)
    cdone := sheetCdone d
    image := [] }

/-- Entries of the tensor image. -/
def imageFrom (d : List Nat) : List Tensor :=
  (List.range (d.length / 4)).map fun i =>
    let w (k : Nat) : BitVec 64 := BitVec.ofNat 64 (d.getD (4 * i + k) 0)
    ⟨w 0, w 1, w 2, w 3, 0#32, 0#32, [], []⟩

/-! ### The checks of Table 16.3 -/

/-- Reserved bits, VERSION, NLEV, NWS, alignments. -/
def sheetFormOk (d : List Nat) : Bool :=
  let f := sheetDw d 0
  let n := sheetLevels d
  let r := sheetRegions d
  bitsAt f 0 16 == 1 && decide (3 ≤ n) && decide (n ≤ 8) && decide (r ≤ 8) && bitsAt f 20 4 == 0 && bitsAt f 32 32 == 0 &&
    [0x008, 0x010].all (fun o => sheetDw d o < 2 ^ 57 && sheetDw d o % 4 == 0) &&
    bitsAt (sheetDw d 0x020) 27 5 == 0 &&
    sheetDw d 0x028 == bitsAt (sheetDw d 0x028) 0 7 + 2 ^ 8 * bitsAt (sheetDw d 0x028) 8 7 + 2 ^ 16 * bitsAt (sheetDw d 0x028) 16 7 &&
    decide (sheetDw d 0x030 < 2 ^ 48) && sheetTtab d % 32 == 0 && decide (sheetTcnt d ≤ 64) &&
    (List.range 8).all (fun i =>
      let a := sheetDw d (0x040 + 16 * i)
      let b := sheetDw d (0x048 + 16 * i)
      if i < n then decide (a < 2 ^ 63) && decide (b < 64) && (levelOf d i).size != 0 else a == 0 && b == 0) &&
    (List.range 8).all (fun c =>
      let (base, size) := windowOf d c
      decide (sheetDw d (0x0C0 + 16 * c) < 2 ^ 57) && sheetDw d (0x0C8 + 16 * c) == size && decide (size ≤ 0x80000) && size % 4 == 0 &&
        (size == 0 || base % 4 == 0)) &&
    (List.range 8).all (fun j =>
      let a := sheetDw d (0x140 + 16 * j)
      let g := regionOf d j
      if j < r then bitsAt a 57 6 == 0 && g.va % 16 == 0 && g.len % 16 == 0 && decide (16 ≤ g.len) && g.soff % 16 == 0
      else a == 0 && sheetDw d (0x148 + 16 * j) == 0) &&
    decide (sheetDw d 0x1C0 < 2 ^ 57) && (d.drop (0x1C8 / 8)).all (· == 0)

/-- Natural scope of a binding (Table 16.2); 0 for a binding that has none of its own. -/
def naturalScope (bind : Nat) : Nat := if 2 ≤ bind && bind ≤ 5 then bind else 0

/-- Bindings in order: R377. -/
def levelsOk (l : List Level) : Bool :=
  let binds := l.map (·.bind)
  let w := binds.findIdx? (· == 2)
  let upper := (binds.drop 2).filter (· != 6)
  binds.getD 0 7 == 0 && [16, 32, 64].contains ((l.map Level.size).getD 0 0) && binds.getD 1 7 == 1 &&
    (binds.drop 2).all (fun b => decide (2 ≤ b) && decide (b ≤ 6)) && w.isSome && upper.head? == some 2 &&
    (upper.zip upper.tail).all (fun p => decide (p.1 < p.2)) &&
    decide (((l.drop 1).map Level.size).foldl (· * ·) 1 ≤ 2 ^ 48)

/-- Barrier scopes: R380. -/
def scopesOk (h : Sheet) : Bool :=
  let holds (i : Nat) : Bool := match h.levels[i]? with
    | some l => i == h.coreLevel || (decide (h.coreLevel < i) && l.bind != 6)
    | none => false
  h.blev.all holds &&
    (h.levels.zip (List.range h.levels.length)).all fun li =>
      if holds li.2 then decide (naturalScope li.1.bind ≤ li.1.scope) && decide (li.1.scope ≤ 6) else li.1.scope == 0

/-- Working-set regions overlap in scratchpad (R383). -/
def regionsClash (l : List Region) : Bool :=
  (l.zip (List.range l.length)).any fun a => (l.drop (a.2 + 1)).any fun b =>
    decide (a.1.soff < b.soff + b.len) && decide (b.soff < a.1.soff + a.1.len)

/-- Status FIELD. -/
def fieldOk (d : List Nat) (h : Sheet) : Bool :=
  sheetFormOk d && levelsOk h.levels && decide (1 ≤ h.groups) && decide (h.groups ≤ 64) && scopesOk h &&
    (h.ncopy + h.nmat + h.nvec == h.groups || h.ncopy + h.nmat + h.nvec == 0) &&
    h.vregs % 8 == 0 && decide (8 ≤ h.vregs) && decide (h.vregs ≤ 256) && h.uregs % 64 == 0 && decide (h.uregs ≤ 1024) &&
    !regionsClash h.regions && (!h.coop || (h.levels.getLast?.map (·.bind)) == some 5)

/-- Status SPAD. -/
def spadOk (h : Sheet) : Bool := decide (h.spad ≤ 4096 * 1024) && h.regions.all fun r => decide (r.soff + r.len ≤ h.spadBytes)

/-! ### What fits (R382, R394) -/

/-- Thread groups of a workgroup on a pipe. -/
def Sheet.onPipe (h : Sheet) (p : Nat) : Nat := countIf (List.range h.groups) fun t => t % 4 == p

/-- Vector bytes of a workgroup on a pipe. -/
def Sheet.pipeBytes (h : Sheet) (p : Nat) (mirrored : Bool) : Nat :=
  h.onPipe p * h.vregs * h.width * 4 * (if mirrored then 2 else 1)

/-- `k` workgroups fit the pipes of an empty core, mirrors excluded. -/
def pipesHold (h : Sheet) (k : Nat) : Bool :=
  (List.range 4).all fun p => decide (k * h.onPipe p ≤ 16) && decide (k * h.pipeBytes p false ≤ 262144) &&
    decide (k * h.onPipe p * h.uregs ≤ 8192)

/-- Workgroups that one empty core holds. -/
def Sheet.coreRoom (h : Sheet) : Nat :=
  countIf (List.range 16) fun k => pipesHold h (k + 1) && decide ((k + 1) * h.spadUnits ≤ 64) && decide ((k + 1) * h.accp ≤ 96)

/-- Core in service (R451). -/
def inService (s : State) (c : Nat) : Bool := !(s.core c).out

/-- Workgroups that an empty cluster holds. -/
def clusterRoom (s : State) (h : Sheet) (k : Nat) : Nat := h.coreRoom * countIf (List.range 8) fun i => inService s (8 * k + i)

/-- Domain of the distributed level. -/
def Sheet.domain (h : Sheet) : Nat := ((h.levels[h.distLevel]?).map (·.bind)).getD 2

/-- Workgroups of one cluster-level unit below the distributed level. -/
def Sheet.clusterSize (h : Sheet) : Option Nat :=
  h.clusterLevel.bind fun c => if h.domain == 4 then some (h.prod h.coreLevel c) else none

/-- Distributed units that some clusters of one die hold. -/
def unitsIn (s : State) (h : Sheet) (ks : List Nat) : Nat :=
  if h.domain == 2 then
    (ks.flatMap fun k => (List.range 8).map fun i => if inService s (8 * k + i) then h.coreRoom / max 1 h.ranks else 0).sum
  else if h.domain == 3 then (ks.map fun k => clusterRoom s h k / max 1 h.ranks).sum
  else
    match h.clusterSize with
    | some n => (ks.map fun k => clusterRoom s h k / max 1 n).sum / max 1 (h.ranks / max 1 n)
    | none => (ks.map fun k => clusterRoom s h k).sum / max 1 h.ranks

/-- Clusters of a die. -/
def clustersOf (die : Nat) : List Nat := (List.range 8).map (8 * die + ·)

/-- Units that an empty package holds. -/
def packageRoom (s : State) (h : Sheet) : Nat := ((List.range 6).map fun d => unitsIn s h (clustersOf d)).sum

/-- The two takes of a unit fit disjoint clusters of an empty package. -/
def takesFit (s : State) (h : Sheet) : Bool :=
  let holds (d : Nat) : Bool := decide (1 ≤ unitsIn s h (clustersOf d))
  decide (2 ≤ countIf (List.range 6) holds) ||
    (List.range 6).any fun d => (List.range 256).any fun m =>
      decide (1 ≤ unitsIn s h ((clustersOf d).filter fun k => m.testBit (k % 8))) &&
        decide (1 ≤ unitsIn s h ((clustersOf d).filter fun k => !m.testBit (k % 8)))

/-- Status of a sheet, `image` saying that its image was read without Poison. -/
def sheetStatus (s : State) (d : List Nat) (h : Sheet) (image : Bool) : Nat :=
  if !fieldOk d h then 1
  else if !spadOk h then 2
  else if 96 < h.accp then 3
  else if !pipesHold h 1 then 4
  else if packageRoom s h == 0 || (h.coop && decide (packageRoom s h < h.units)) then 5
  else if !image then 6
  else if h.takes && (h.coop || !takesFit s h) then 7
  else 0

/-! ### Reading -/

/-- What reading words for a sheet gives. -/
inductive SheetRead where
  | words (ws : List CWord)
  | fault (cause : Nat)
  | wait (w : PageWait)

/-- Reader of 32 bytes at a translated place. -/
abbrev Reader := State → Nat → PageKind → Option CodedTag → State × List CWord

/-- Read units of 32 bytes at a virtual address. -/
def readUnits (s : State) (core ctx : Nat) (super : Bool) (lane : Nat) (rd : Reader) (va : Nat) : Nat → State × SheetRead
  | 0 => (s, .words [])
  | n + 1 =>
    if 2 ^ 57 ≤ va then (s, .fault 8)
    else
      match translate s core ctx super 0 va 32 with
      | (s1, .fault cause level pte) =>
        (s1, if replayable cause then .wait (pageWait va 0 cause level pte lane) else .fault cause)
      | (s1, .to pa page coded) =>
        let (s2, ws) := rd s1 pa page coded
        match readUnits s2 core ctx super lane rd (va + 32) n with
        | (s3, .words more) => (s3, .words (ws ++ more))
        | r => r

/-- The I/O die reads at the home. -/
def ioRead (pt : Nat) : Reader := fun s pa page coded =>
  match coded with
  | some t => let (s1, ws) := codedWords s pt noCore t; toIoDie s1 pt (codedHome s t) 0 ((ws.drop (pa % 128 / 4)).take 8)
  | none => if page == .host then (s, hostRead s pa 8) else ioHome s pt pa 8

/-- Doublewords of words. -/
def dwsFrom (ws : List CWord) : List Nat := (List.range (ws.length / 2)).map fun i => valOf ((ws.drop (2 * i)).take 2)

/-- Every word is sound. -/
def sound (ws : List CWord) : Bool := ws.all fun w => w.passes && !w.bad

/-! ### Launches -/

/-- Cores in service, and GiB of main memory. -/
def coresNow (s : State) : Nat := countIf (List.range 384) (inService s)
def memGibNow (s : State) : Nat := s.mm.memcap.toNat / 2 ^ 30

/-- Live dies (R397). -/
def liveDies (s : State) : List Nat := (List.range 6).filter fun d => (List.range 64).any fun i => inService s (64 * d + i)

/-- Append an accepted launch: every unit is first owned by a live die in turn, and the feature words take what is in service (R152). -/
def appendLaunch (s : State) (h : Sheet) (ctx part : Nat) (fromHost : Bool) (entryIx : Nat) (after : Option Nat) : State :=
  let live := liveDies s
  State.setLaunch { s with host := { s.host with featCores := coresNow s, featGib := memGibNow s } } (freshKey s.launches)
    { sheet := h, ctx := ctx, part := part, fromHost := fromHost, entryIx := entryIx, after := after
      unplaced := (List.range h.units).map fun i => (i, live.getD (i % max 1 live.length) 0)
      unitsLeft := h.units, orStatus := 0#8, bad := 0, refused := [], coresIn := coresNow s, memGib := memGibNow s }

/-- Bytes of some doublewords. -/
def dwBytes (l : List Nat) : List (Byte × Bool) := bytesOf (l.flatMap dwWords)

/-- Write bytes as a supervisor access of a context (R400): none, or the cause of the fault that prevented it. -/
def deviceWrite (s : State) (ctx pt va : Nat) (bs : List (Byte × Bool)) : State × Option Nat :=
  let a : Eng := ⟨⟨0, 0⟩, noCore, ctx, pt, true, 12⟩
  let (s1, ps) := placeAll s (fun s x => placeBytes s a 1 (fun _ => true) x.1 x.2 (x.1 - va)) (lineSplit va bs.length)
  match ps.findSome? fun p => match p with | .fail c => some c | .wait w => some w.cause | _ => none with
  | some c => (s1, some c)
  | none => (writePieces s1 a (ps.filterMap fun p => match p with | .ok x => some x | _ => none) 0 bs, none)

/-- Write the completion record, or log that it could not be written. -/
def completionWrite (s : State) (ctx part cdone dw0 : Nat) : State :=
  if cdone == 0 then s
  else
    match deviceWrite s ctx part cdone (dwBytes [dw0, s.clock.toNat]) with
    | (s1, none) => s1
    | (s1, some c) => appendRecord s1 part 0x61 noCore 0 cdone c 0

/-- Complete a launch that acceptance rejected: record and event (R392, R400). -/
def rejectLaunch (s : State) (ctx part cdone status ix : Nat) : State :=
  postEvent (completionWrite s ctx part cdone (0x80 + 256 * status)) 0x01 part ix

/-! ### Placing a workgroup -/

/-- Resident workgroups of a core, with their sheets. -/
def onCore (s : State) (c : Nat) : List (Wg × Sheet) :=
  s.wgs.filterMap fun nw => if nw.2.core == c && nw.2.resident then (s.sheetOf nw.2).map fun h => (nw.2, h) else none

/-- Scratchpad units in use. -/
def unitsUsed (l : List (Wg × Sheet)) : List Nat := l.flatMap fun x => (List.range x.2.spadUnits).map (x.1.base + ·)

/-- Lowest run of free units of the array (R99, R100). -/
def unitRun (l : List (Wg × Sheet)) (n : Nat) : Option Nat :=
  let used := unitsUsed l
  if n == 0 then some 0
  else if 64 < used.length + n then none
  else (List.range (73 - n)).find? fun b => (List.range n).all fun i => !used.contains (b + i)

def Wg.mirrored (w : Wg) : Bool := w.tgs.any (·.mirrored)

/-- The pipes of a core take another workgroup beside those that are there. -/
def pipesTake (l : List (Wg × Sheet)) (h : Sheet) (mirrored : Bool) : Bool :=
  (List.range 4).all fun p =>
    h.onPipe p == 0 ||
    (decide ((l.map fun x => x.2.onPipe p).sum + h.onPipe p ≤ 16) &&
      decide ((l.map fun x => x.2.pipeBytes p x.1.mirrored).sum + h.pipeBytes p mirrored ≤ 262144) &&
      decide ((l.map fun x => x.2.onPipe p * x.2.uregs).sum + h.onPipe p * h.uregs ≤ 8192))

/-- Free slots of a core, ascending. -/
def freeSlots (l : List (Wg × Sheet)) : List Nat :=
  (List.range 64).filter fun i => !l.any fun x => x.1.tgs.any fun g => g.slot == i

/-- Slots of a placement: those named, or the lowest. -/
def slotsFor (l : List (Wg × Sheet)) (n : Nat) (want : List Nat) : Option (List Nat) :=
  let free := freeSlots l
  if want.isEmpty then (if n ≤ free.length then some (free.take n) else none)
  else if want.length == n && want.all free.contains && want.eraseDups.length == n then some want else none

/-- A place on a core: base unit, slots, pages. -/
structure Spot where
  base : Nat
  slots : List Nat
  pages : List Nat

/-- Find room on a core for a workgroup (R100, R114, R382, R451). -/
def spotOn (s : State) (h : Sheet) (mirrored : Bool) (x : PlaceHint) : Option Spot :=
  let l := onCore s x.core
  let pages := (List.range 96).filter fun p => !l.any fun y => y.1.pages.contains p
  if 384 ≤ x.core || (s.core x.core).out || (s.core x.core).fenced || !pipesTake l h mirrored || pages.length < h.accp then none
  else
    match unitRun l h.spadUnits, slotsFor l h.groups x.slots with
    | some b, some sl => some ⟨b, sl, pages.take h.accp⟩
    | _, _ => none

/-- Order of placement after every thread group there is. -/
def nextOrder (s : State) : Nat := (s.wgs.flatMap fun nw => nw.2.tgs.map (·.order)).foldl (fun a o => max a (o + 1)) 0

/-- Place one workgroup; the mirror grant is made when the doubled registers fit (R387). -/
def placeWg (s : State) (l : Nat) (h : Sheet) (unitIx rank take : Nat) (x : PlaceHint) : Option State :=
  let mirrored := h.mirror && (spotOn s h true x).isSome
  (spotOn s h mirrored x).map fun p =>
    let s1 := l1Vacate s x.core ((List.range h.spadUnits).map (p.base + ·))
    enterPlaced (s1.setWg (freshKey s.wgs) (Wg.fresh h l unitIx rank take x.core p.base (nextOrder s) p.slots p.pages mirrored))
      (freshKey s.wgs)

/-- The cores of a unit lie in one instance of its domain, those of a cluster-level unit in one cluster (R376). -/
def domainOk (h : Sheet) (cores : List Nat) : Bool :=
  let c0 := cores.headD 0
  cores.length == h.ranks &&
    (if h.domain == 2 then cores.all (· == c0)
     else if h.domain == 3 then cores.all fun c => clusterOf c == clusterOf c0
     else cores.all (fun c => dieOf c == dieOf c0) &&
      (match h.clusterSize with
       | some n => (cores.zip (List.range cores.length)).all fun x => clusterOf x.1 == clusterOf (cores.getD (x.2 / max 1 n * n) 0)
       | none => true))

/-- Place the workgroups of a unit in order of rank. -/
def placeAllWgs (s : State) (l : Nat) (h : Sheet) (unitIx take : Nat) (hints : List PlaceHint) : Option State :=
  if !domainOk h (hints.map (·.core)) then none
  else (hints.zip (List.range hints.length)).foldl (fun s x => s.bind fun s => placeWg s l h unitIx x.2 take x.1) (some s)

/-- Place a unit: one take, or both in disjoint clusters (R388). -/
def placeUnit (s : State) (l : Nat) (h : Sheet) (unitIx : Nat) (at0 at1 : List PlaceHint) : Option State :=
  match placeAllWgs s l h unitIx 0 at0 with
  | none => none
  | some s1 =>
    if !h.takes then (if at1.isEmpty then some s1 else none)
    else if at0.any fun x => at1.any fun y => clusterOf x.core == clusterOf y.core then none
    else placeAllWgs s1 l h unitIx 1 at1

end Sys2Proof.Machine
end

