-- ==== Sys2Proof/Machine/MatrixOps.lean ====
section
/-! DEFINITION. The matrix engine: tiles (R266), the queue (R260), the rendezvous of gangs (R279 to R281), element fetch
(R257, R271, R276), chunks (R195, R196, R272), row blocks of `MZRO`, `MLDA` and `MSTA` (R282 to R285), suspension
(R277). -/

namespace Sys2Proof.Machine

/-! ### Tiles and pages -/

/-- Words of one accumulator. -/
def accWords : AccFmt → Nat
  | .f32 => 1 | .s32 => 1 | .f64 => 2 | .s64 => 2

/-- Format in which an accumulator is held. -/
def accFmt : AccFmt → Fmt
  | .f32 => .ieee .f32 | .f64 => .ieee .f64 | .s32 => .int true 32 | .s64 => .int true 64

/-- Shapes of R266. -/
def shapeOk (r c : Nat) : Bool :=
  r % 16 == 0 && decide (16 ≤ r) && decide (r ≤ 512) && c % 16 == 0 && decide (16 ≤ c) && decide (c ≤ 768)

/-- Pages of a tile. -/
def tilePages (r c : Nat) (af : AccFmt) : Nat := (r * c * 4 * accWords af + 16383) / 16384

/-- Place of word `k` of accumulator (i, j) in the store. -/
def Tile.wordAt (t : Tile) (i j k : Nat) : Nat :=
  let n := (i * t.cols + j) * accWords t.af + k
  4096 * t.pages.getD (n / 4096) 0 + n % 4096

/-- Words of an accumulator. -/
def Wg.accRead (w : Wg) (t : Tile) (i j : Nat) : List CWord :=
  (List.range (accWords t.af)).map fun k => lookD .zero w.acc (t.wordAt i j k)

/-- Store an accumulator. -/
def Wg.accWrite (w : Wg) (t : Tile) (i j : Nat) (ws : List CWord) : Wg :=
  { w with acc := (List.range ws.length).foldl (fun m k => put .zero m (t.wordAt i j k) (ws.getD k .zero)) w.acc }

/-- An accumulator of some bits, or a Poison one. -/
def accOut (af : AccFmt) (x : Option Nat) : List CWord :=
  match x with
  | some v => (wordsOf (32 * accWords af) v).map CWord.of
  | none => List.replicate (accWords af) (.poisoned 0#32)

/-! ### The queue (R260) -/

def MatOp.arg (o : MatOp) (i : Nat) : Nat := o.args.getD i 0

/-- Enter an operation behind the others; the `CUT` waits while the queue is full. -/
def appendMat (s : State) (core : Nat) (o : MatOp) : State :=
  let q := s.core core
  let s1 := s.setCore core { q with matq := q.matq ++ [o] }
  if q.matq.length < 16 then s1 else s1.updTg o.issuer fun g => g.owe .enter

/-- Count an operation at issue. -/
def countMat (s : State) (o : MatOp) : State :=
  s.updTg o.issuer fun g =>
    Tg.owe { g.place.addSlots o.slots with cntMat := g.cntMat + 1, matIssued := g.matIssued + 1 } (.counter .mat 255)

/-- Pages of the workgroup that no handle maps and no `MREL` still holds (R115, R268). -/
def freePages (s : State) (n : Nat) (w : Wg) : List Nat :=
  let mapped := w.tiles.flatMap fun t => (t.map (·.pages)).getD []
  let leaving := ((s.core w.core).matq.filter fun o => o.kind == .mrel && o.issuer.wg == n).flatMap fun o => (o.tile.map (·.pages)).getD []
  w.pages.filter fun p => !mapped.contains p && !leaving.contains p

/-! ### Formats (Table 12.3, Table 9.8, Table 12.7) -/

/-- Accumulator formats that a pair of operand formats permits; none for a pair outside Table 12.3. -/
def mmaAcc (a b : Fmt) : List AccFmt :=
  match a, b with
  | .bg4, .bg4 => [.f32]
  | .b8 _, .b8 _ => [.f32]
  | .ieee .f64, .ieee .f64 => [.f64]
  | .ieee .f32, .ieee .f32 => [.f32]
  | .ieee x, .ieee y => if x.bits == 16 && y.bits == 16 then [.f32] else []
  | .int _ 8, .int _ 8 => [.s32, .s64]
  | _, _ => []

/-- The scale modes of a pair of entries are those of Table 12.3. -/
def scalesOk (ta tb : Tensor) (int : Bool) : Bool :=
  if int then ta.smode == 0 && tb.smode == 0 else ta.smode != 3 && tb.smode != 2

/-- Formats, scale modes and tile of an `MMA` agree with Table 12.3. -/
def mmaOk (ta tb : Tensor) (af : AccFmt) : Bool :=
  match ta.format, tb.format with
  | some a, some b => (mmaAcc a b).contains af && scalesOk ta tb a.isInt
  | _, _ => false

/-- Chunk size n, column width cw and significand width of an operand format. -/
def Fmt.chunk : Fmt → Nat
  | .ieee .f64 => 4 | .ieee .f32 => 8 | .ieee _ => 16 | _ => 32
def Fmt.stepCols : Fmt → Nat
  | .bg4 => 32 | .ieee .f64 => 4 | .ieee .f32 => 8 | _ => 16
def Fmt.width : Fmt → Nat
  | .bg4 => 8 | .b8 q => q.p.toNat | .ieee t => t.grid.p | .int _ n => n

/-- Format of a valid entry. -/
def Tensor.fmt (t : Tensor) : Fmt := t.format.getD (.int false 8)

/-! ### Elements and scales -/

/-- A place that an operation fetches: in scratchpad or at a virtual address. -/
structure Place where
  sp : Bool
  va : Nat
  deriving DecidableEq

/-- Aligned words that some bytes touch. -/
def placesOf (sp : Bool) (va n : Nat) : List Place :=
  if n == 0 then [] else (List.range ((va + n - 1) / 4 - va / 4 + 1)).map fun k => ⟨sp, 4 * (va / 4 + k)⟩

/-- Bytes of one element. -/
def Tensor.elBytes (t : Tensor) : Nat := max 1 (t.bits / 8)

def Tensor.elPlaces (t : Tensor) (r c : Nat) : List Place := placesOf t.sp (t.base + (t.offset r c).1) t.elBytes

/-- Byte address of the scale word of element (r, c), where it is read from memory (Table 9.7). -/
def Tensor.scaleAt (t : Tensor) (r c : Nat) : Option Nat :=
  if t.smode == 2 then some (t.sbase + 4 * r) else if t.smode == 3 then some (t.sbase + 4 * c) else none

def Tensor.scalePlaces (t : Tensor) (r c : Nat) : List Place :=
  match t.scaleAt r c with | some a => placesOf t.sbsp a 4 | none => []

/-- Value of some fetched bytes, and whether a word of them is Poison. -/
def bytesAt (get : Place → CWord) (sp : Bool) (va n : Nat) : Nat × Bool :=
  let bs := (List.range n).map fun i => let w := get ⟨sp, (va + i) / 4 * 4⟩; (byteOf w.data ((va + i) % 4), w.bad)
  (bs.foldr (fun b x => b.1.toNat + 256 * x) 0, bs.any (·.2))

/-- The code of element (r, c). -/
def Tensor.code (t : Tensor) (get : Place → CWord) (r c : Nat) : Nat × Bool :=
  let (o, bit) := t.offset r c
  let (x, bad) := bytesAt get t.sp (t.base + o) t.elBytes
  (x / 2 ^ bit % 2 ^ t.bits, bad)

/-- The scale of element (r, c) as a value; invalid scales are NaN (R189, R190). -/
def Tensor.scale (t : Tensor) (get : Place → CWord) (r c : Nat) : Val × Bool :=
  match t.scaleAt r c with
  | some a => let (x, bad) := bytesAt get t.sbsp a 4; (scaleVal (BitVec.ofNat 32 x), bad)
  | none =>
    if t.smode == 1 then (scaleVal t.scaleWord, false)
    else if t.smode == 4 then (pow2Val t.sexp, false)
    else (Val.ofInt 1, false)

/-! ### Fetching -/

/-- Bytes of scratchpad of a workgroup. -/
def State.spadOf (s : State) (n : Nat) : Nat := (((s.wg? n).bind s.sheetOf).map Sheet.spadBytes).getD 0

/-- Translate a place for fetching; a scratchpad breach has code 0x10 (R277). -/
def placeFetch (a : Eng) (s : State) (x : Place) : State × PieceOut :=
  if x.sp then (s, if s.spadOf a.r.wg < x.va + 4 then .fail 0x10 else .ok ⟨0, 4, x.va, x.va, .spad, none, none⟩)
  else placeBytes s a 6 (fun _ => true) x.va 4 0

/-- An access of the matrix engine to main memory is performed as one to an RC page (Table 14.2). -/
def Acc.asRc (x : Acc) : Acc := if x.page == .so then { x with page := .rc } else x

/-- Read a placed word as an RC access of the core; it is checked on entry (Table 12.4). -/
def matRead (s : State) (a : Eng) (p : Piece) : State × CWord :=
  let own := (s.wg? a.r.wg).map (·.held)
  let (s1, ws) :=
    if p.page == .spad then (s, match s.wg? a.r.wg with | some w => w.spadRead p.pa 1 | none => [])
    else
      let x := p.probe p.pa
      let (s1, ws) := performLS s a.pt a.core false x.asRc
      (s1, overlay (own.getD []) x ws)
  let (s2, out) := checkIn s1 14 (clusterUnit a.core) a.pt a.core p.pa ws
  (s2, out.headD .zero)

/-- What fetching some places gives: a fault code, pages to wait for, or the words. -/
structure Fetch where
  fail : Option Nat
  waits : List PageWait
  words : List (Place × CWord)

/-- Fetch places: every translation first, then every read. -/
def fetchPlaces (s : State) (a : Eng) (xs : List Place) : State × Fetch :=
  let ys := xs.eraseDups
  let (s1, ps) := ys.foldl (fun (z : State × List PieceOut) x => let (s', p) := placeFetch a z.1 x; (s', z.2 ++ [p])) (s, [])
  let (fail, waits, pieces) := gather ps
  if fail.isSome || !waits.isEmpty then (s1, ⟨fail, waits, []⟩)
  else
    let (s2, ws) := pieces.foldl (fun (z : State × List CWord) p => let (s', w) := matRead z.1 a p; (s', z.2 ++ [w])) (s1, [])
    (s2, ⟨none, [], ys.zip ws⟩)

/-- The fetched word of a place. -/
def Fetch.get (f : Fetch) (x : Place) : CWord := ((f.words.find? fun w => w.1 == x).map (·.2)).getD .zero

/-! ### The inner list of an `MMA` (R271) -/

/-- Map entries that step 2 adds. -/
def MatOp.extra (o : MatOp) : List Nat :=
  (List.range o.ta.map.length).filter fun j =>
    decide (o.arg 2 ≤ o.ta.map.getD j 0) && decide (o.ta.map.getD j 0 < o.arg 2 + o.arg 3)

def MatOp.innerLen (o : MatOp) : Nat := o.arg 3 + o.extra.length

/-- Chunks; an empty list counts as one chunk of zeros (R272). -/
def MatOp.chunkCount (o : MatOp) : Nat := max 1 ((o.innerLen + o.ta.fmt.chunk - 1) / o.ta.fmt.chunk)

/-- Column of TA and row of TB at a position of the list; none contributes zero. -/
def MatOp.inner (o : MatOp) (p : Nat) : Option (Nat × Nat) :=
  if p < o.arg 3 then (let k := o.arg 2 + p; if k < o.ta.cols then some (k, k) else none)
  else (o.extra[p - o.arg 3]?).map fun j => (o.ta.cols + j, o.ta.map.getD j 0)

/-- Positions of the chunk that the next step applies. -/
def MatOp.positions (o : MatOp) : List (Nat × Nat) :=
  (List.range o.ta.fmt.chunk).filterMap fun i => o.inner (o.kch * o.ta.fmt.chunk + i)

/-- Rows and columns of the tile that the next array step covers. -/
def MatOp.stepRows (o : MatOp) : List Nat := (List.range 16).map (o.rows + ·)
def MatOp.stepCols (o : MatOp) (t : Tile) : List Nat :=
  ((List.range o.ta.fmt.stepCols).map (o.cstep * o.ta.fmt.stepCols + ·)).filter fun j => decide (j < t.cols)

/-- Places of the left operand and its scales, and of the right operand and its scales, for one step; an empty list applies
no scale (R272). -/
def MatOp.leftPlaces (o : MatOp) : List Place :=
  (o.stepRows.filter fun i => decide (o.arg 0 + i < o.ta.rows)).flatMap fun i =>
    (o.positions.flatMap fun k => o.ta.elPlaces (o.arg 0 + i) k.1) ++
      if o.innerLen == 0 then [] else o.ta.scalePlaces (o.arg 0 + i) 0
def MatOp.rightPlaces (o : MatOp) (t : Tile) : List Place :=
  ((o.stepCols t).filter fun j => decide (o.arg 1 + j < o.tb.cols)).flatMap fun j =>
    ((o.positions.filter fun k => decide (k.2 < o.tb.rows)).flatMap fun k => o.tb.elPlaces k.2 (o.arg 1 + j)) ++
      if o.innerLen == 0 then [] else o.tb.scalePlaces 0 (o.arg 1 + j)

/-- A fetched element: its value, and whether a word that feeds it is Poison; +0 beyond the shape. -/
def leftEl (o : MatOp) (f : Fetch) (i k : Nat) : Val × Bool :=
  if o.arg 0 + i < o.ta.rows then (let (x, b) := o.ta.code f.get (o.arg 0 + i) k; (o.ta.fmt.val x, b)) else (Val.zero false, false)
def rightEl (o : MatOp) (f : Fetch) (k j : Nat) : Val × Bool :=
  if k < o.tb.rows && o.arg 1 + j < o.tb.cols then (let (x, b) := o.tb.code f.get k (o.arg 1 + j); (o.tb.fmt.val x, b))
  else (Val.zero false, false)

/-- The scale of a row or column, `inside` saying that it lies in the shape: 1 for an empty list, and where a scale vector has
no word. -/
def MatOp.scaleOf (o : MatOp) (t : Tensor) (f : Fetch) (r c : Nat) (inside : Bool) : Val × Bool :=
  if o.innerLen == 0 || (!inside && (t.scaleAt r c).isSome) then (Val.ofInt 1, false) else t.scale f.get r c

def leftScale (o : MatOp) (f : Fetch) (i : Nat) : Val × Bool := o.scaleOf o.ta f (o.arg 0 + i) 0 (decide (o.arg 0 + i < o.ta.rows))
def rightScale (o : MatOp) (f : Fetch) (j : Nat) : Val × Bool := o.scaleOf o.tb f 0 (o.arg 1 + j) (decide (o.arg 1 + j < o.tb.cols))

/-! ### One element of a chunk (R272) -/

/-- Rounding control of an accumulator class, RND 4 acting as 0 (R188). -/
def accCtl (fmode : BitVec 28) (af : AccFmt) : Ctl :=
  let c := ctlOf fmode.toNat (accFmt af).cls
  if c.rnd == 4 then { c with rnd := 0 } else c

/-- The exact integer of a value that is one. -/
def Val.int : Val → Int
  | .num s n _ => Val.signed s n
  | _ => 0

/-- The accumulator is read: `ACC`, or a chunk after the first. -/
def MatOp.readsAcc (o : MatOp) : Bool := o.acc || o.kch != 0

/-- New accumulator bits from the old ones and the products, none for Poison. -/
def accUpdate (o : MatOp) (af : AccFmt) (old : List CWord) (bad : Bool) (ps : List Val) (sigma : Val) : Option Nat :=
  if bad || (o.readsAcc && anyBad old) then none
  else
    let acc := if o.readsAcc then valOf old else 0
    match accFmt af with
    | .int _ n => some ((acc + wrapInt n (ps.foldl (fun x p => x + Val.int p) 0)) % 2 ^ n)
    | f =>
      let c := accCtl o.fmode af
      let sum := Val.mul sigma (chunkSum (o.ta.fmt.width + o.tb.fmt.width) ps)
      some (roundTo f c 0 (Val.add c.rnd (f.val acc) sum)).bits

/-- The accumulator words that one step gives element (i, j). -/
def stepElement (o : MatOp) (t : Tile) (w : Wg) (fa fb : Fetch) (i j : Nat) : List CWord :=
  let xs := o.positions.map fun k => (leftEl o fa i k.1, rightEl o fb k.2 j)
  let (sa, ba) := leftScale o fa i
  let (sb, bb) := rightScale o fb j
  accOut t.af (accUpdate o t.af (w.accRead t i j) (ba || bb || xs.any fun x => x.1.2 || x.2.2)
    (xs.map fun x => Val.mul x.1.1 x.2.1) (Val.mul sa sb))

/-- Write one array step of an operation into its tile. -/
def applyStep (s : State) (o : MatOp) (fa fb : Fetch) : State :=
  match o.tile, s.wg? o.issuer.wg with
  | some t, some w =>
    let els := o.stepRows.flatMap fun i => (o.stepCols t).map fun j => (i, j, stepElement o t w fa fb i j)
    s.setWg o.issuer.wg (els.foldl (fun w x => w.accWrite t x.1 x.2.1 x.2.2) w)
  | _, _ => s

/-- An accumulator word that the step reads fails its check (R116). -/
def accFails (s : State) (o : MatOp) : Bool :=
  match o.tile, s.wg? o.issuer.wg with
  | some t, some w =>
    o.readsAcc && o.stepRows.any fun i => (o.stepCols t).any fun j => !(w.accRead t i j).all CWord.passes
  | _, _ => false

/-- Progress after a step (R274). -/
def MatOp.advance (o : MatOp) : MatOp :=
  let cols := (o.tile.map (·.cols)).getD 0
  if (o.cstep + 1) * o.ta.fmt.stepCols < cols then { o with state := 2, cstep := o.cstep + 1 }
  else if o.kch + 1 < o.chunkCount then { o with state := 2, kch := o.kch + 1, cstep := 0 }
  else { o with state := 2, rows := o.rows + 16, kch := 0, cstep := 0 }

/-- Every row of the tile is done. -/
def MatOp.complete (o : MatOp) : Bool := decide (((o.tile.map (·.rows)).getD 0) ≤ o.rows)

/-! ### Stops (R276, R277) -/

/-- Change an operation in its queue. -/
def updMat (s : State) (core : Nat) (o : MatOp) (f : MatOp → MatOp) : State :=
  let q := s.core core
  s.setCore core { q with matq := match q.matq.findIdx? (· == o) with | some i => updAt q.matq i f | none => q.matq }

/-- Stop an operation and the fellows of its gang: they are held by it. -/
def stopMat (s : State) (core : Nat) (o : MatOp) (f : MatOp → MatOp) : State :=
  (s.fellowsOf core o).foldl (fun s x => updMat s x.1 x.2 (if x.2 == o then f else fun y => { y with state := 6 })) s

/-- Wait on replayable faults as agent 2. -/
def waitMat (s : State) (core : Nat) (o : MatOp) (ws : List PageWait) : State :=
  match s.wg? o.issuer.wg, s.tg? o.issuer with
  | some w, some g =>
    stopMat (recordFaults s (s.ctxOf w) 2 g.slot core ws) core o fun x => { x with state := 3, waits := mergeWaits ws }
  | _, _ => s

/-- Suspend for a cause other than continuity: the matrix-operation trap becomes pending. -/
def failMat (s : State) (core : Nat) (o : MatOp) (cause : Nat) : State :=
  (stopMat s core o fun x => { x with state := 5, cause := cause, waits := [] }).updTg o.issuer fun g =>
    g.pendBoundary ⟨1, BitVec.ofNat 32 (0x0B * 2 ^ 24 + cause * 2 ^ 16), none⟩

/-- Suspend on a continuity failure. -/
def breakMat (s : State) (core : Nat) (o : MatOp) (point stage : Nat) : State :=
  (stopMat s core o fun x => { x with state := 4, point := point, stage := stage }).updTg o.issuer fun g =>
    g.pendBoundary ⟨0, checkCause 2 point 0 false 4 (pipeOf o.issuer) stage 0, some o.pc⟩

/-- What fetching stops an operation with, if it does. -/
def stopFetch (s : State) (core : Nat) (o : MatOp) (f : Fetch) : Option State :=
  match f.fail with
  | some c => some (failMat s core o c)
  | none => if f.waits.isEmpty then none else some (waitMat s core o f.waits)

/-- The engine may go on with an operation: neither waiting nor suspended nor held. -/
def MatOp.runs (o : MatOp) : Bool := o.state == 1 || o.state == 2

/-- POINT and STAGE of the checks that an array step makes beside that of the accumulator read (Table 12.4): products, alignment,
chunk sum, exponent, update. -/
def stepChecks (f : Fmt) : List (Nat × Nat) :=
  if f.isInt then [(3, 1), (3, 0), (1, 0)] else [(3, 1), (3, 4), (3, 5), (3, 8), (1, 5), (1, 6), (1, 7), (1, 8), (1, 9)]

/-- An upset of the next array step of a core, an `MMA` of some operand format, at one of its checks (log 12). -/
def arrayUpset (s : State) (core : Nat) (f : Fmt) : Option Upset :=
  s.strikes.find? fun u => match u with | .array c p st => c == core && (stepChecks f).contains (p, st) | _ => false

/-! ### Row blocks of `MZRO`, `MLDA`, `MSTA` -/

/-- Elements (i, j) of the next row block of a tile. -/
def MatOp.block (o : MatOp) (t : Tile) : List (Nat × Nat) := o.stepRows.flatMap fun i => (List.range t.cols).map fun j => (i, j)

/-- Element (r0 + i, c0 + j) of the tensor of `MLDA` and `MSTA`, when it lies in the shape. -/
def MatOp.target (o : MatOp) (i j : Nat) : Option (Nat × Nat) :=
  if o.arg 0 + i < o.ta.rows && o.arg 1 + j < o.ta.cols then some (o.arg 0 + i, o.arg 1 + j) else none

/-- Write accumulators of the operation's tile. -/
def writeTile (s : State) (o : MatOp) (t : Tile) (els : List (Nat × Nat × List CWord)) : State :=
  s.updWg o.issuer.wg fun w => els.foldl (fun w x => w.accWrite t x.1 x.2.1 x.2.2) w

/-- An element loaded into a tile (R282). -/
def loadElement (o : MatOp) (af : AccFmt) (f : Fetch) (rc : Nat × Nat) : List CWord :=
  let (x, bad) := o.ta.code f.get rc.1 rc.2
  let (s, bs) := o.ta.scale f.get rc.1 rc.2
  if bad || bs then accOut af none
  else
    match accFmt af with
    | .int _ n => accOut af (some (wrapInt n (Val.int (o.ta.fmt.val x))))
    | g => accOut af (some (roundTo g (accCtl o.fmode af) 0 (Val.mul (o.ta.fmt.val x) s)).bits)

/-- A converted element of `MSTA`: its code, with the marks of its rounding (R283). -/
def convertElement (o : MatOp) (af : AccFmt) (x : Nat) (scale : Val) (rc : Nat × Nat) : Rounded :=
  let v := (accFmt af).val x
  let rnd := rnd16 (hash186 o.nonce (BitVec.ofNat 64 (2 ^ 63 + o.th)) (BitVec.ofNat 64 (rc.1 * o.ta.cols + rc.2))) 0
  let f := o.ta.fmt
  match f, accFmt af with
  | .int _ n, .int _ _ =>
    if n < 32 then roundTo f (ctlOf o.fmode.toNat f.cls) rnd v
    else
      let y := wrapInt n (Val.int v)
      ⟨y, false, y == 0 && !v.isZero⟩
  | .int sg n, _ =>
    if n < 32 then roundTo f (ctlOf o.fmode.toNat f.cls) rnd (Val.div v scale)
    else
      let q := Val.div v scale
      let y := toWideInt sg n 0 q
      match q with
      | .num neg a d =>
        let above := if neg && !sg then a != 0 else decide (f.maxCode neg < roundInt 0 0 neg a d)
        ⟨y, above, !above && a != 0 && y == 0⟩
      | _ => ⟨y, false, false⟩
  | _, _ => roundTo f (ctlOf o.fmode.toNat f.cls) rnd (Val.div v scale)

/-- The same with the marks of R192. -/
def storeElement (o : MatOp) (af : AccFmt) (x : Nat) (scale : Val) (rc : Nat × Nat) : Rounded :=
  (convertElement o af x scale rc).flushFrom ((accFmt af).val x)

/-- One byte that a row block writes: its address, bits written, value, Poison. -/
structure OutByte where
  va : Nat
  mask : Nat
  val : Nat
  bad : Bool

/-- Bytes of an element. -/
def Tensor.outBytes (t : Tensor) (rc : Nat × Nat) (x : Nat) (bad : Bool) : List OutByte :=
  let (o, bit) := t.offset rc.1 rc.2
  if t.bits < 8 then [⟨t.base + o, 15 * 2 ^ bit, x % 16 * 2 ^ bit, bad⟩]
  else (List.range t.elBytes).map fun i => ⟨t.base + o + i, 255, x / 256 ^ i % 256, bad⟩

/-- Put the nibbles of one byte together, and the bytes in ascending order. -/
def mergeOut (bs : List OutByte) : List OutByte :=
  (ascending (bs.map (·.va))).eraseDups.map fun a =>
    (bs.filter fun b => b.va == a).foldl (fun x b =>
      ⟨a, Nat.lor x.mask b.mask, Nat.lor (x.val - Nat.land x.val b.mask) b.val, x.bad || b.bad⟩) ⟨a, 0, 0, false⟩

/-- Runs of adjacent bytes: first address and length. -/
def byteRuns : List Nat → List (Nat × Nat)
  | [] => []
  | a :: as =>
    match byteRuns as with
    | (b, n) :: rs => if a + 1 == b then (a, n + 1) :: rs else (a, 1) :: (b, n) :: rs
    | [] => [(a, 1)]

/-- Place the bytes of a row block for writing: a coded page takes binary64 alone (R285). -/
def placeStore (s : State) (a : Eng) (t : Tensor) (runs : List (Nat × Nat)) : State × List PieceOut :=
  let start (va : Nat) : Nat := (runs.takeWhile fun r => r.1 != va).foldl (fun n r => n + r.2) 0
  runs.foldl (fun (z : State × List PieceOut) r =>
    (lineSplit r.1 r.2).foldl (fun (z : State × List PieceOut) y =>
      let o := start r.1 + (y.1 - r.1)
      let (s', p) : State × PieceOut :=
        if t.sp then (z.1, if z.1.spadOf a.r.wg < y.1 + y.2 then .fail 0x10 else .ok ⟨o, y.2, y.1, y.1, .spad, none, none⟩)
        else placeBytes z.1 a 7 (fun _ => t.fmt == .ieee .f64 && t.base % 8 == 0 && t.rstr % 8 == 0) y.1 y.2 o
      (s', z.2 ++ [p])) z) (s, [])

/-- Write the bytes of a row block: to memory through the L1, to coded pages at the home; a take holds its writes to
memory, and none is written when no entry is free (R438, R440). -/
def storeBlock (s : State) (a : Eng) (ps : List Piece) (bs : List (Byte × Bool)) : Option State :=
  match s.wg? a.r.wg with
  | none => some s
  | some w =>
    let accs := heldOf ps 0 bs
    let spads := ps.filter fun p => p.page == .spad
    if w.takeOn then
      if rushesRoom s w accs then some (writePieces (holdWrites s a.r.wg accs) a spads 0 bs) else none
    else
      let s1 := (accs.filter fun x => x.coded.isNone).foldl (fun s x => (performLS s a.pt a.core false x.asRc).1) s
      some (writePieces s1 a (spads ++ ps.filter fun p => p.coded.isSome) 0 bs)

/-- Next row block done. -/
def MatOp.nextBlock (o : MatOp) : MatOp := { o with state := 2, rows := o.rows + 16 }

/-- Move the operation at the head of a core's queue on: it completes after its last row. -/
def progressMat (s : State) (core : Nat) (o : MatOp) (next : MatOp) : State :=
  let s1 := updMat s core o fun _ => next
  if next.complete then completeMat s1 core next else s1

/-- Places that the row block of an `MLDA` fetches. -/
def MatOp.loadPlaces (o : MatOp) (t : Tile) : List Place :=
  (o.block t).flatMap fun x => match o.target x.1 x.2 with
    | some rc => o.ta.elPlaces rc.1 rc.2 ++ o.ta.scalePlaces rc.1 rc.2
    | none => []

/-- Accumulators that the row block writes: 0 beyond the tensor. -/
def MatOp.loaded (o : MatOp) (t : Tile) (f : Fetch) : List (Nat × Nat × List CWord) :=
  (o.block t).map fun x => (x.1, x.2, match o.target x.1 x.2 with
    | some rc => loadElement o t.af f rc
    | none => accOut t.af (some 0))

/-- The row block of an `MLDA`. -/
def loadBlock (s : State) (core : Nat) (o : MatOp) (t : Tile) : State :=
  let (s1, f) := fetchPlaces s (o.eng s core) (o.loadPlaces t)
  match stopFetch s1 core o f with
  | some s2 => s2
  | none => progressMat (writeTile s1 o t (o.loaded t f)) core o o.nextBlock

/-- Accumulators that the row block of an `MSTA` stores, each with its element of the tensor. -/
def MatOp.storeEls (o : MatOp) (t : Tile) (w : Wg) : List (List CWord × Nat × Nat) :=
  (o.block t).filterMap fun x => (o.target x.1 x.2).map fun rc => (w.accRead t x.1 x.2, rc)

/-- Places that it fetches: scales, and bytes of which it writes one half. -/
def MatOp.storePlaces (o : MatOp) (els : List (List CWord × Nat × Nat)) : List Place :=
  let halves := (mergeOut (els.flatMap fun x => o.ta.outBytes x.2 0 false)).filter fun b => b.mask != 255
  (els.flatMap fun x => o.ta.scalePlaces x.2.1 x.2.2) ++ halves.flatMap fun b => placesOf o.ta.sp b.va 1

/-- Its codes, each with its element and whether it is Poison. -/
def MatOp.storeCodes (o : MatOp) (t : Tile) (f : Fetch) (els : List (List CWord × Nat × Nat)) : List ((Nat × Nat) × Rounded × Bool) :=
  els.map fun x =>
    let (sc, bs) := o.ta.scale f.get x.2.1 x.2.2
    (x.2, storeElement o t.af (valOf x.1) sc x.2, bs || anyBad x.1)

/-- Its bytes, whole. -/
def MatOp.storeBytes (o : MatOp) (f : Fetch) (codes : List ((Nat × Nat) × Rounded × Bool)) : List OutByte :=
  (mergeOut (codes.flatMap fun x => o.ta.outBytes x.1 x.2.1.bits x.2.2)).map fun b =>
    if b.mask == 255 then b
    else
      let (old, bad) := bytesAt f.get o.ta.sp b.va 1
      ⟨b.va, 255, Nat.lor b.val (old - Nat.land old b.mask), b.bad || bad⟩

/-- After its writes: the counters of the live entry, the miss guard, progress. -/
def storedRows (s : State) (core : Nat) (o : MatOp) (codes : List ((Nat × Nat) × Rounded × Bool)) : State :=
  let good := codes.filter fun x => !x.2.2
  let sat := countIf good fun x => x.2.1.above
  let flush := countIf good fun x => x.2.1.flush
  progressMat (s.updWg o.issuer.wg fun w => w.countQuant o.th sat flush) core o
    { o.nextBlock with missed := o.missed || sat + flush != 0 }

/-- The row block of an `MSTA`: conversions, counters of the live entry, writes (R283 to R285). -/
def storeRows (s : State) (core : Nat) (o : MatOp) (t : Tile) (w : Wg) : State :=
  let a := o.eng s core
  let els := o.storeEls t w
  if !els.all fun x => x.1.all CWord.passes then breakMat s core o 2 0
  else
    let (s1, f) := fetchPlaces s a (o.storePlaces els)
    match stopFetch s1 core o f with
    | some s2 => s2
    | none =>
      let codes := o.storeCodes t f els
      let bytes := o.storeBytes f codes
      let (s2, ps) := placeStore s1 a o.ta (byteRuns (bytes.map (·.va)))
      match gather ps with
      | (some c, _, _) => failMat s2 core o c
      | (none, waits, pieces) =>
        if !waits.isEmpty then waitMat s2 core o waits
        else
          match storeBlock s2 a pieces (bytes.map fun b => (BitVec.ofNat 8 b.val, b.bad)) with
          | none => s2
          | some s3 => storedRows s3 core o codes

/-! ### The rendezvous (R279, R280) -/

/-- Cluster-level unit of a workgroup among those of its launch and take. -/
def sameDomain (h : Sheet) (w v : Wg) : Bool :=
  w.launch == v.launch && w.take == v.take && (h.clusterUnit w).map (·.1) == (h.clusterUnit v).map (·.1)

/-- The thread group that a member field names; one of a workgroup that is gone names none of the state. -/
def gangRef (s : State) (h : Sheet) (w : Wg) (m : Nat × Nat) : TgRef :=
  match s.wgs.find? fun nv => sameDomain h w nv.2 && (h.clusterUnit nv.2).map (·.2) == some m.1 with
  | some nv => ⟨nv.1, m.2⟩
  | none => ⟨freshKey s.wgs + m.1, m.2⟩

/-- The latch compares two operations. -/
def MatOp.matches (a b : MatOp) : Bool :=
  (a.tile.map fun t => (t.af, t.rows, t.cols)) == (b.tile.map fun t => (t.af, t.rows, t.cols)) && a.acc == b.acc &&
    a.arg 1 == b.arg 1 && a.arg 2 == b.arg 2 && a.arg 3 == b.arg 3 &&
    (a.tb.dw0, a.tb.dw1, a.tb.dw2, a.tb.dw3) == (b.tb.dw0, b.tb.dw1, b.tb.dw2, b.tb.dw3) &&
    a.ta.cols == b.ta.cols && a.ta.map == b.ta.map

/-- Queue the operations of a complete gang, each on its own core. -/
def queueGang (s : State) (k : Nat) (members : List TgRef) (held : List GangWait) : State :=
  let q := s.cluster k
  let s1 := s.setCluster k { q with latch := q.latch.filter fun x => !members.contains x.ref }
  (members.zip (List.range members.length)).foldl (fun s mi =>
    match held.find? fun x => x.ref == mi.1, s.wg? mi.1.wg with
    | some x, some w =>
      let s2 := s.updTg mi.1 fun g => g.mapWaits fun l => l.filter fun y => y != .rendezvous
      appendMat s2 w.core { x.op with gang := some (mi.2, members) }
    | _, _ => s) s1

/-- Two thread groups belong to one gang domain unit. -/
def sameUnitTgs (s : State) (a b : TgRef) : Bool :=
  match s.wg? a.wg, s.wg? b.wg with
  | some w, some v => ((s.sheetOf w).map fun h => sameDomain h w v).getD false
  | _, _ => false

/-- A member arrives at the latch of its cluster, which holds one gang of each gang domain unit: a list unlike that of a held
member fails them all (R280; log 73). -/
def arriveGang (s : State) (k : Nat) (x : GangWait) : State :=
  let q := s.cluster k
  let s1 := s.setCluster k { q with latch := q.latch ++ [x] }
  let others := q.latch.filter fun y => sameUnitTgs s x.ref y.ref
  if others.any fun y => y.list != x.list then failGang s1 k (fun y => y.ref == x.ref || others.any fun z => z.ref == y.ref) 2
  else
    let held := x :: others
    if x.members.all fun m => held.any fun y => y.ref == m then
      if held.all fun y => x.op.matches y.op then queueGang s1 k x.members held
      else failGang s1 k (fun y => x.members.contains y.ref) 2
    else checkLatch s1 k

end Sys2Proof.Machine
end

