-- ==== Sys2Proof/Machine/System.lean ====
section
/-! DEFINITION. Group 0xE: special registers, the slate, error records, takes (R150 to R152, R368 to R373). -/

namespace Sys2Proof.Machine

/-! ### Reading special registers -/

/-- `sr.lvlN`: the index of the thread's unit at a level (R379). -/
def readLevel (c : Ctx) (i lane : Nat) : Nat :=
  match c.e.sheet.levels[i]? with
  | none => 0
  | some l =>
    let x := levelIndex c.e.sheet i (globalIndex c.e.sheet c.e.w c.e.r.tg lane)
    packTriple (x % l.x) (x / l.x % l.y) (x / (l.x * l.y))

/-- `sr.extN`. -/
def readExtent (c : Ctx) (i : Nat) : Nat :=
  match c.e.sheet.levels[i]? with
  | none => 0
  | some l => packTriple l.x l.y l.z

/-- `sr.take` (Table 19.1). -/
def readTake (c : Ctx) : Nat :=
  (if c.e.w.takeOn then c.e.w.take else 0) + c.e.w.takeOn.toNat * 2 + c.e.g.mirrored.toNat * 4

/-- `sr.feat2`: cores and memory in service at the last launch. -/
def readFeat2 (c : Ctx) : Nat :=
  match c.s.launchOf c.e.w with
  | some l => l.coresIn + l.memGib * 2 ^ 9
  | none => 0

/-- The value of a special register for a thread (Table 8.2). -/
def readSpecial (c : Ctx) (n lane : Nat) : Nat :=
  let g := c.tg
  if n == 0x000 then lane
  else if n == 0x001 then c.e.r.tg
  else if n == 0x002 then g.slot
  else if n == 0x003 then c.e.core % 8
  else if n == 0x004 then c.e.core / 8 % 8
  else if n == 0x005 then dieOf c.e.core
  else if 0x008 ≤ n && n < 0x010 then readLevel c (n - 0x008) lane
  else if 0x010 ≤ n && n < 0x018 then readExtent c (n - 0x010)
  else if n == 0x018 then c.e.sheet.nonce.toNat
  else if n == 0x020 then c.s.clock.toNat
  else if n == 0x030 then g.fmode.toNat + 2 ^ 32 * ((g.threads[lane]?.map (·.ccnt)).getD 0#32).toNat
  else if n == 0x031 then g.chk.toNat
  else if n == 0x038 then readTake c
  else if n == 0x040 then g.tcause.toNat
  else if n == 0x041 then g.tmask.toNat
  else if n == 0x042 then g.tpc.toNat
  else if n == 0x043 then g.tinst.toNat % 2 ^ 64
  else if n == 0x044 then g.tinst.toNat / 2 ^ 64
  else if 0x045 ≤ n && n < 0x048 then
    let w := lookD .zero g.tops (64 * (n - 0x045) + lane)
    w.data.toNat + 2 ^ 32 * w.code.toNat
  else if n == 0x048 then 0x01FF
  else if n == 0x04A then readFeat2 c
  else if n == 0x050 then (c.s.core c.e.core).govLimit + 2 ^ 16 * (c.s.core c.e.core).govStep
  else if n == 0x051 then g.govst.toNat
  else if n == 0x058 then g.crIdx.toNat
  else if n == 0x059 then g.crSum.toNat
  else if n == 0x05A then g.crMax.toNat
  else if n == 0x05B then g.crCnt.toNat
  else if n == 0x05C then g.crNf.toNat
  else 0

/-- Bits and mode of a special register. -/
def srBits (n : BitVec 10) : Nat := if ((srInfo n).map (·.bits64)).getD false then 64 else 32
def srSuper (n : BitVec 10) : Bool := ((srInfo n).map (·.super)).getD false

/-- Register writes of a value formed for each thread, or once for a uniform destination. -/
def Ctx.writes (c : Ctx) (d : Reg) (bits : Nat) (f : Nat → Nat) : List (RKey × CWord) :=
  (if d.isS then c.e.part.take 1 else c.e.part).flatMap fun l =>
    let ws := (wordsOf bits (f l)).map CWord.of
    (List.range ws.length).map fun k => (d.key k l, ws.getD k .zero)

def execRdsr (h : Hints) (n : BitVec 10) (d : Reg) (s : State) : Host.Outcome State Fault Refusal :=
  varOp s { h := h, dst := some (d, srBits n / 32), super := srSuper n } noForm
    fun c => c.writes d (srBits n) (readSpecial c n.toNat)

/-! ### Writing special registers -/

/-- A reserved value of a field (R8, R151, Table 12.8). -/
def srReserved (n x : Nat) : Bool :=
  if n == 0x030 then bitsAt x 28 4 != 0 || (List.range 7).any fun i => decide (5 ≤ bitsAt x (4 * i) 3)
  else if n == 0x031 then decide (2 ≤ x)
  else if n == 0x050 then
    bitsAt x 26 6 != 0 || bitsAt x 9 7 != 0 || bitsAt x 0 9 == 0 || decide (256 < bitsAt x 0 9) || decide (256 < bitsAt x 16 10)
  else if n == 0x058 then decide (128 ≤ x)
  else false

/-- Latch a snapshot of the counters of a coded region, and clear them on request (R79). -/
def latchCounters (c : Ctx) (x : Nat) : State :=
  let ix := x % 64
  match c.s.ctx? c.e.ctx with
  | none => c.s
  | some k =>
    let v := lookD ⟨0, 0#64, 0#64, 0#32⟩ k.counters ix
    let s1 := c.s.updTg c.e.r fun g => { g with
      crIdx := BitVec.ofNat 6 ix, crSum := BitVec.ofNat 64 (sumOf v.sum), crMax := v.max, crCnt := v.count, crNf := v.nonfin }
    if x.testBit 6 then s1.setCtx c.e.ctx { k with counters := put ⟨0, 0#64, 0#64, 0#32⟩ k.counters ix ⟨0, 0#64, 0#64, 0#32⟩ }
    else s1

/-- Write a special register. -/
def writeSpecial (c : Ctx) (n x : Nat) : State :=
  if n == 0x030 then c.put { c.tg with fmode := BitVec.ofNat 28 x }
  else if n == 0x031 then c.put { c.tg with chk := x.testBit 0 }
  else if n == 0x042 then
    (if ((c.tg.saved.map (·.atExit)).getD false) then c.s else c.put { c.tg with tpc := BitVec.ofNat 64 x })
  else if n == 0x050 then
    let k := c.s.core c.e.core
    c.s.setCore c.e.core { k with govLimit := bitsAt x 0 9, govStep := bitsAt x 16 10 }
  else if n == 0x058 then latchCounters c x
  else c.s

/-- The accesses of a thread group that a snapshot of a region's counters, which counts as a read of all its decoded bytes, follows in
order (R458): what an earlier acquire holds back, and accesses to the region. -/
def Tg.beforeSnapshot (g : Tg) (ctx ix : Nat) : Bool :=
  g.acquiring g.nextOp || g.ops.any fun o => o.accs.any fun a => !a.done &&
    match a.coded with | some t => t.ctx == ctx && t.ix == ix | none => false

/-- A write of `sr.crsel` that must wait for earlier accesses does not issue yet (log 15). -/
def snapshotWaits (s : State) (p : Plan) : Bool :=
  match env? s p.h with
  | none => false
  | some e =>
    let (s1, srcs, _) := readWindows s e p.srcs
    let x := (Ctx.start s1 e srcs).uval 0
    !e.part.isEmpty && decide (x < 128) && e.g.beforeSnapshot e.ctx (x % 64)

def execWrsr (h : Hints) (n : BitVec 10) (b : Opd) (s : State) : Host.Outcome State Fault Refusal :=
  let p : Plan := { h := h, srcs := [(srcB b (srBits n / 32)).consumed], super := srSuper n,
                    reserved := fun c => srReserved n.toNat (c.uval 0) }
  if n == 0x058 && snapshotWaits s p then .next s
  else onceOp s p noLate fun c => writeSpecial c n.toNat (c.uval 0)

/-! ### SLATE, ERRI, TAKE -/

def execSlate (h : Hints) (tag : BitVec 16) (s : State) : Host.Outcome State Fault Refusal :=
  onceOp s { h := h } noLate fun c => fireSlate c.s 0 tag.toNat

/-- The log of the issuing context's partition. -/
def Ctx.log (c : Ctx) : ErrLog := c.s.logs.getD c.e.pt ⟨[], 0⟩

/-- Layout of `ERRI.cnt`. -/
def ErrLog.count (l : ErrLog) : Nat := l.recs.length + 2 ^ 16 * l.lost

/-- A log without its oldest record. -/
def ErrLog.pop (l : ErrLog) : ErrLog :=
  match l.recs with
  | [] => ⟨[], 0⟩
  | _ :: rest => ⟨rest, if rest.isEmpty then 0 else l.lost⟩

def execErriCnt (h : Hints) (d : U) (s : State) : Host.Outcome State Fault Refusal :=
  varOp s { h := h, dst := some (.s d, 1), super := true } noForm fun c => c.writes (.s d) 32 fun _ => c.log.count

/-- Doublewords of a record, or zeros. -/
def ErrLog.dws (l : ErrLog) (i : Nat) : List (BitVec 64) :=
  match l.recs[i]? with
  | some r => [r.dw0, r.dw1, r.dw2, r.dw3]
  | none => [0#64, 0#64, 0#64, 0#64]

def execErriRd (h : Hints) (n : U) (i : BitVec 8) (s : State) : Host.Outcome State Fault Refusal :=
  varOp s { h := h, dst := some (.s n, 8), super := true } noForm fun c =>
    let ws := (c.log.dws i.toNat).flatMap fun d => (wordsOf 64 d.toNat).map CWord.of
    (List.range 8).map fun k => ((Reg.s n).key k 0, ws.getD k .zero)

def execErriPop (h : Hints) (s : State) : Host.Outcome State Fault Refusal :=
  onceOp s { h := h, super := true } noLate fun c => { c.s with logs := c.s.logs.set c.e.pt c.log.pop }

/-- The take's signature since its last commit point; zero outside two-take mode. -/
def signatureOf (c : Ctx) : Nat := match c.s.wg? c.e.r.wg with | some w => if w.takeOn then w.sig.toNat else 0 | none => 0

def execTakeSig (h : Hints) (d : U) (s : State) : Host.Outcome State Fault Refusal :=
  varOp s { h := h, dst := some (.s d, 2) } noForm fun c => c.writes (.s d) 64 fun _ => signatureOf c

def execTakeCmt (h : Hints) (s : State) : Host.Outcome State Fault Refusal :=
  onceOp s { h := h, cutAfter := true } noLate fun c =>
    commitPoint (c.put (c.tg.owe (.fence .rel .device 0#8))) c.e.r 5

end Sys2Proof.Machine
end

