-- ==== Sys2Proof/Machine/Matrix.lean ====
section
/-! DEFINITION. Group 0xB: the tensor table, tiles, queued matrix operations, gangs, progress (R258 to R285), and the
events of the matrix engine (R274, R275, R268, R280, R287). -/

namespace Sys2Proof.Machine

/-- Matrix and vector roles (R259). -/
def notCopy (role : Nat) : Bool := role != 0

/-- An instruction of group 0xB. -/
def matPlan (h : Hints) (srcs : List Src) : Plan := { h := h, srcs := srcs, unit := 4, role := notCopy }

/-- The workgroup as it stands. -/
def Ctx.wg (c : Ctx) : Wg := (c.s.wg? c.e.r.wg).getD c.e.w

/-- Tensor-table entry of a handle, and a tile handle. -/
def Ctx.tensor (c : Ctx) (th : BitVec 6) : Tensor := (c.wg.tensors[th.toNat]?).getD Tensor.zero
def Ctx.tile (c : Ctx) (m : BitVec 4) : Option Tile := (c.wg.tiles[m.toNat]?).join

/-- Change a tensor-table entry. -/
def Ctx.setTensor (c : Ctx) (th : BitVec 6) (f : Tensor → Tensor) : State :=
  c.s.updWg c.e.r.wg fun w => { w with tensors := updAt w.tensors th.toNat f }

/-- Change a tile handle. -/
def Wg.setTile (w : Wg) (m : Nat) (t : Option Tile) : Wg := { w with tiles := updAt w.tiles m fun _ => t }

/-! ### The tensor table (R263 to R265) -/

def execTdw (h : Hints) (clr : Bool) (n : U) (th : BitVec 6) (s : State) : Host.Outcome State Fault Refusal :=
  onceOp s (matPlan h [commandSrc n]) noLate fun c =>
    let d := c.command
    c.setTensor th fun t =>
      let t1 := { t with dw0 := d.getD 0 0#64, dw1 := d.getD 1 0#64, dw2 := d.getD 2 0#64, dw3 := d.getD 3 0#64 }
      if clr then { t1 with sat := 0#32, flush := 0#32, map := [], fresh := [] } else t1

/-- What `TDR` reads. -/
def Tensor.read (t : Tensor) (sel : TdrSel) (j : Nat) : Nat :=
  match sel with
  | .dw0 => t.dw0.toNat
  | .dw1 => t.dw1.toNat
  | .dw2 => t.dw2.toNat
  | .dw3 => t.dw3.toNat
  | .sat => t.sat.toNat
  | .flush => t.flush.toNat
  | .e => t.map.length
  | .map => t.map.getD j 0

def tdrBits (sel : TdrSel) : Nat := match sel with | .dw0 => 64 | .dw1 => 64 | .dw2 => 64 | .dw3 => 64 | _ => 32

/-- `TDR` clears the counter that it reads. -/
def Tensor.cleared (t : Tensor) (sel : TdrSel) : Tensor :=
  match sel with
  | .sat => { t with sat := 0#32 }
  | .flush => { t with flush := 0#32 }
  | _ => t

/-- Put a result of some bits in flight for uniforms from `d` (R262). -/
def Ctx.returns (c : Ctx) (s : State) (h : Hints) (d : U) (bits v : Nat) : State :=
  s.updTg c.e.r fun g => g.launchOp { MemOp.blank with ps := h.ps.toNat, results := c.writes (.s d) bits fun _ => v }

def execTdr (h : Hints) (sel : TdrSel) (clr : Bool) (d : U) (th j : BitVec 6) (s : State) : Host.Outcome State Fault Refusal :=
  onceOp s { matPlan h [] with dst := some (.s d, tdrBits sel / 32) } noLate fun c =>
    c.returns (if clr then c.setTensor th fun t => t.cleared sel else c.s) h d (tdrBits sel) ((c.tensor th).read sel j.toNat)

def execMdupClr (h : Hints) (th : BitVec 6) (s : State) : Host.Outcome State Fault Refusal :=
  onceOp s (matPlan h []) noLate fun c => c.setTensor th fun t => { t with map := [], fresh := [] }

def execMdupCp (h : Hints) (td ts : BitVec 6) (s : State) : Host.Outcome State Fault Refusal :=
  onceOp s (matPlan h []) noLate fun c => c.setTensor td fun t => { t with map := (c.tensor ts).map, fresh := (c.tensor ts).fresh }

/-! ### Tiles (R266 to R268) -/

/-- Map free pages to a handle, or nothing. -/
def mapTile (s : State) (n m r c : Nat) (af : AccFmt) : Option State :=
  match s.wg? n with
  | none => none
  | some w =>
    let free := ascending (freePages s n w)
    let p := tilePages r c af
    if ((w.tiles[m]?).join).isSome || !shapeOk r c || decide (free.length < p) then none
    else some (s.setWg n (w.setTile m (some ⟨r, c, af, free.take p⟩)))

def execMacq (h : Hints) (af : AccFmt) (g : BitVec 3) (m : BitVec 4) (b : Opd) (s : State) : Host.Outcome State Fault Refusal :=
  onceOp s (matPlan h [(srcB b 1).consumed]) noLate fun c =>
    let x := c.uval 0
    match mapTile c.s c.e.r.wg m.toNat (bitsAt x 0 10) (bitsAt x 16 10) af with
    | some s1 => writeGuards s1 c 4 g true
    | none => writeGuards c.s c 4 g false

/-- A queued operation as it is issued. -/
def newMat (c : Ctx) (kind : MatKind) (tile : Option Tile) : MatOp :=
  { kind := kind, issuer := c.e.r, num := c.tg.matIssued, pc := c.e.pc, threads := maskOf c.e.part, tile := tile, ta := Tensor.zero, tb := Tensor.zero,
    args := [], acc := false, fmode := c.e.g.fmode, nonce := c.e.sheet.nonce, th := 0, guardD := none, ps := 0, gang := none,
    slots := 0#8, rows := 0, kch := 0, cstep := 0, state := 1, cause := 0, point := 0, stage := 0, missed := false, waits := [],
    super := c.e.g.super, id := c.tg.nextOp }

/-- Queue an operation. -/
def queueMat (s : State) (c : Ctx) (o : MatOp) : State :=
  (appendMat (countMat s o) c.e.core o).updTg c.e.r Tg.oweSlots

/-- A matrix-descriptor fault at the instruction. -/
def descFault (c : Ctx) (fcode : Nat) : Ctx × Verdict := (c, .trap (fcodeCause 0x0C fcode) (maskOf c.e.part))

def execMrel (h : Hints) (m : BitVec 4) (s : State) : Host.Outcome State Fault Refusal :=
  onceOp s (matPlan h []) noLate fun c =>
    queueMat (c.s.updWg c.e.r.wg fun w => w.setTile m.toNat none) c (newMat c .mrel (c.tile m))

def execMzro (h : Hints) (m : BitVec 4) (s : State) : Host.Outcome State Fault Refusal :=
  onceOp s (matPlan h []) (fun c => if (c.tile m).isNone then descFault c 1 else (c, .go))
    fun c => queueMat c.s c (newMat c .mzro (c.tile m))

/-! ### MMA (R269 to R272) -/

/-- Byte ranges of a rectangle of elements. -/
def Tensor.rect (t : Tensor) (rlo rhi clo chi : Nat) : List (Nat × Nat) :=
  let span (r c r' c' : Nat) : Nat × Nat :=
    let a := t.base + (t.offset r c).1
    (a, t.base + (t.offset r' c').1 + t.elBytes - a)
  if rhi ≤ rlo || chi ≤ clo then []
  else if t.trans then (List.range (chi - clo)).map fun i => span rlo (clo + i) (rhi - 1) (clo + i)
  else (List.range (rhi - rlo)).map fun i => span (rlo + i) clo (rlo + i) (chi - 1)

/-- Range slots that a rectangle of a tensor and its scales touch, and those loaded with its handle (R285, R316). -/
def tensorSlots (g : Tg) (t : Tensor) (th rlo rhi clo chi : Nat) : BitVec 8 :=
  let scales := if rhi ≤ rlo || chi ≤ clo then [] else
    if t.smode == 2 then [(t.sbase + 4 * rlo, 4 * (rhi - rlo))] else if t.smode == 3 then [(t.sbase + 4 * clo, 4 * (chi - clo))] else []
  g.touched t.sp (t.rect rlo rhi clo chi) ||| g.touched t.sbsp scales ||| g.handleSlots th

/-- Range slots of an `MMA`. -/
def MatOp.mmaSlots (o : MatOp) (g : Tg) (tha thb : Nat) : BitVec 8 :=
  let rows := (o.tile.map (·.rows)).getD 0
  let cols := (o.tile.map (·.cols)).getD 0
  let k1 := min (o.arg 2 + o.arg 3) o.ta.cols
  let rhi := min (o.arg 0 + rows) o.ta.rows
  let chi := min (o.arg 1 + cols) o.tb.cols
  let left := tensorSlots g o.ta tha (o.arg 0) rhi (o.arg 2) k1
  let extra := o.extra.foldl (fun m j => m ||| g.touched o.ta.sp (o.ta.rect (o.arg 0) rhi (o.ta.cols + j) (o.ta.cols + j + 1))) 0#8
  left ||| extra ||| tensorSlots g o.tb thb (o.arg 2) (min k1 o.tb.rows) (o.arg 1) chi

/-- The uniforms of an operation. -/
def windowSrc (n : U) (k : Nat) : Src := (srcA (.s n) k).consumed
def Ctx.windowArgs (c : Ctx) (k : Nat) : List Nat :=
  let ws := c.src 0 (c.e.part.headD 0)
  (List.range k).map fun i => (ws.getD i CWord.zero).data.toNat

/-- An `MMA` as it is issued. -/
def newMma (c : Ctx) (acc : Bool) (m : BitVec 4) (ta tb : BitVec 6) : MatOp :=
  let o := { newMat c .mma (c.tile m) with ta := (c.tensor ta).seenBy c.e.r.tg, tb := c.tensor tb, args := c.windowArgs 4, acc := acc }
  { o with slots := o.mmaSlots c.tg ta.toNat tb.toNat }

/-- The checks of R270 (Table 18.3). -/
def mmaLate (m : BitVec 4) (ta tb : BitVec 6) (c : Ctx) : Ctx × Verdict :=
  let a := c.tensor ta
  let b := c.tensor tb
  if !a.valid || !b.valid then descFault c 0
  else
    match c.tile m with
    | none => descFault c 1
    | some t =>
      if !mmaOk a b t.af then descFault c 2
      else if a.rows ≤ (c.windowArgs 4).getD 0 0 || b.cols ≤ (c.windowArgs 4).getD 1 0 then descFault c 3
      else (c, .go)

def execMma (h : Hints) (acc : Bool) (m : BitVec 4) (n : U) (ta tb : BitVec 6) (s : State) : Host.Outcome State Fault Refusal :=
  onceOp s (matPlan h [windowSrc n 4]) (mmaLate m ta tb) fun c => queueMat c.s c (newMma c acc m ta tb)

/-- The gang trap. -/
def gangCause (c : Ctx) (fcode : Nat) : Ctx × Verdict := (c, .trap (fcodeCause 0x07 fcode) (maskOf c.e.part))

/-- Hold an `MMA.gang` in the latch; its `CUT` waits for the rendezvous (R280). -/
def holdGang (c : Ctx) (o : MatOp) : State :=
  let s1 := (countMat c.s o).updTg c.e.r fun g => (g.owe .rendezvous).oweSlots
  arriveGang s1 (clusterOf c.e.core)
    ⟨c.e.r, c.e.g.gang, c.e.g.gang.map (gangRef s1 c.e.sheet c.e.w), o, s1.clock.toNat⟩

def execMmaGang (h : Hints) (acc : Bool) (m : BitVec 4) (n : U) (ta tb : BitVec 6) (s : State) : Host.Outcome State Fault Refusal :=
  let late (c : Ctx) : Ctx × Verdict :=
    match mmaLate m ta tb c with
    | (c, .go) => if c.e.g.gang.isEmpty then gangCause c 1 else (c, .go)
    | r => r
  onceOp s (matPlan h [windowSrc n 4]) late fun c => holdGang c (newMma c acc m ta tb)

/-- The member fields and the count of a gang list (R279). -/
def gangFields (ws : List Nat) : List (Nat × Nat) :=
  (List.range 6).map fun i => let f := bitsAt (ws.getD (i / 2) 0) (16 * (i % 2)) 16; (f / 64, f % 64)

/-- The list breaks a constraint of R279. -/
def badGang (c : Ctx) (ws : List Nat) : Bool :=
  let h := c.e.sheet
  let ng := bitsAt (ws.getD 3 0) 0 3
  let fs := gangFields ws
  let l := fs.take ng
  match h.clusterLevel, h.clusterUnit c.e.w with
  | some lv, some (_, rank) =>
    decide (ng < 2) || decide (6 < ng) || (fs.drop ng).any (· != (0, 0)) || decide (8 ≤ ws.getD 3 0) ||
      l.eraseDups.length != l.length || !l.contains (rank, c.e.r.tg) ||
      l.any fun x => decide (h.prod h.coreLevel lv ≤ x.1) || decide (h.groups ≤ x.2)
  | _, _ => true

def execMgng (h : Hints) (n : U) (s : State) : Host.Outcome State Fault Refusal :=
  onceOp s (matPlan h [windowSrc n 4])
    (fun c => if badGang c (c.windowArgs 4) then gangCause c 0 else (c, .go)) fun c =>
      let ws := c.windowArgs 4
      let l := (gangFields ws).take (bitsAt (ws.getD 3 0) 0 3)
      let rank := ((c.e.sheet.clusterUnit c.e.w).map (·.2)).getD 0
      c.put { c.tg with gang := l, gangPos := l.idxOf (rank, c.e.r.tg) }

def execMgngClr (h : Hints) (s : State) : Host.Outcome State Fault Refusal :=
  onceOp s (matPlan h []) noLate fun c => c.put { c.tg with gang := [], gangPos := 0 }

/-! ### MLDA and MSTA (R282 to R285) -/

/-- Pairings of `MLDA`. -/
def loadPairs (f : Fmt) (af : AccFmt) : Bool :=
  match af with
  | .s32 => f.isInt
  | .s64 => f.isInt
  | _ => !f.isInt

/-- Checks of `MLDA` and `MSTA` at issue. -/
def tileLate (m : BitVec 4) (th : BitVec 6) (pair : Fmt → AccFmt → Bool) (c : Ctx) : Ctx × Verdict :=
  if !(c.tensor th).valid then descFault c 0
  else
    match c.tile m with
    | none => descFault c 1
    | some t => if pair (c.tensor th).fmt t.af then (c, .go) else descFault c 2

/-- An `MLDA` or `MSTA` as it is issued. -/
def newTransfer (c : Ctx) (kind : MatKind) (m : BitVec 4) (th : BitVec 6) : MatOp :=
  let o := { newMat c kind (c.tile m) with ta := c.tensor th, args := c.windowArgs 2, th := th.toNat }
  let rhi := min (o.arg 0 + (o.tile.map (·.rows)).getD 0) o.ta.rows
  let chi := min (o.arg 1 + (o.tile.map (·.cols)).getD 0) o.ta.cols
  { o with slots := tensorSlots c.tg o.ta th.toNat (o.arg 0) rhi (o.arg 1) chi }

def execMlda (h : Hints) (m : BitVec 4) (n : U) (th : BitVec 6) (s : State) : Host.Outcome State Fault Refusal :=
  onceOp s (matPlan h [windowSrc n 2]) (tileLate m th loadPairs) fun c => queueMat c.s c (newTransfer c .mlda m th)

/-- With a scale-miss guard, the slot and the guard wait for the completion (R284). -/
def execMsta (h : Hints) (m : BitVec 4) (n : U) (th : BitVec 6) (gs : Option (BitVec 3)) (s : State) :
    Host.Outcome State Fault Refusal :=
  onceOp s (matPlan h [windowSrc n 2]) (tileLate m th fun _ _ => true) fun c =>
    let o := newTransfer c .msta m th
    match gs with
    | none => queueMat c.s c o
    | some g =>
      let id := c.tg.nextOp
      let s1 := c.put (c.tg.launchOp { MemOp.blank with
        ps := h.ps.toNat, results := c.e.part.map fun l => (.g g.toNat l, guardWord false) })
      queueMat s1 c { o with guardD := some id, ps := h.ps.toNat, id := id + 1 }

/-! ### MPRG (R278) -/

/-- The oldest uncompleted operation of the thread group. -/
def Ctx.oldestMat (c : Ctx) : Option MatOp := (c.s.core c.e.core).matq.find? fun o => o.issuer == c.e.r

def MatKind.code : MatKind → Nat
  | .mzro => 0 | .mma => 1 | .mlda => 2 | .msta => 3 | .mrel => 4

/-- The progress word of Table 12.6. -/
def MatOp.progress (o : MatOp) : Nat :=
  o.cstep * 2 ^ 56 + o.stage * 2 ^ 52 + o.point * 2 ^ 48 + o.cause * 2 ^ 40 + o.kind.code * 2 ^ 36 + o.state * 2 ^ 32 + o.kch % 2 ^ 22 * 2 ^ 10 + o.rows

/-- Bits that the manual does not state, STATE being 0 (log 26). -/
def freeProgress (tick : Nat) : Nat :=
  let x := (freeMask tick).toNat
  x - bitsAt x 32 4 * 2 ^ 32

def execMprgRd (h : Hints) (d : U) (s : State) : Host.Outcome State Fault Refusal :=
  onceOp s { matPlan h [] with dst := some (.s d, 2) } noLate fun c =>
    c.returns c.s h d 64 (match c.oldestMat with | some o => o.progress | none => freeProgress c.e.tick)

def execMprgPc (h : Hints) (d : U) (s : State) : Host.Outcome State Fault Refusal :=
  onceOp s { matPlan h [] with dst := some (.s d, 2) } noLate fun c =>
    c.returns c.s h d 64 (match c.oldestMat with | some o => o.pc.toNat | none => (freeMask c.e.tick).toNat)

/-- A suspended operation. -/
def MatOp.suspended (o : MatOp) : Bool := o.state == 4 || o.state == 5

/-- Resume an operation and the fellows of its gang at their progress (R278, R281). -/
def resumeMat (s : State) (core : Nat) (o : MatOp) : State :=
  (s.fellowsOf core o).foldl (fun s x => updMat s x.1 x.2 fun y => { y with state := 2, cause := 0, point := 0, stage := 0, waits := [] }) s

def execMprgGo (h : Hints) (s : State) : Host.Outcome State Fault Refusal :=
  onceOp s { matPlan h [] with super := true } noLate fun c =>
    match c.oldestMat with
    | some o => if o.suspended then resumeMat c.s c.e.core o else c.s
    | none => c.s

def execMprgAb (h : Hints) (s : State) : Host.Outcome State Fault Refusal :=
  onceOp s { matPlan h [] with super := true } noLate fun c =>
    match c.oldestMat with
    | some o => if o.suspended then abortMat c.s c.e.core o else c.s
    | none => c.s

/-! ### Events of the engine -/

/-- The operation at the head of a core's queue, when the engine may go on with it: neither stopped, nor behind an access of its thread
group that comes first. -/
def headMat (s : State) (core : Nat) : Option MatOp :=
  match (s.core core).matq with
  | o :: _ => if o.runs && !s.engineWaits o.issuer o.id (o.kind == .msta) (o.hostLeft s core) then some o else none
  | [] => none

/-- The next step would break a bound of the governor (R287). -/
def governed (q : CoreSt) : Bool := decide (q.bound ≤ q.busy)

/-- Every operation of a gang is at the head of its core's queue. -/
def gangReady (s : State) (o : MatOp) (xs : List (Nat × MatOp)) : Bool :=
  xs.length == ((o.gang.map (·.2.length)).getD 1) && xs.all fun x => headMat s x.1 == some x.2

/-- Fetch for each member in turn; the first that stops, stops the gang. -/
def fetchLefts (s : State) : List (Nat × MatOp) → State × List Fetch × Option State
  | [] => (s, [], none)
  | x :: xs =>
    let (s1, f) := fetchPlaces s (x.2.eng s x.1) x.2.leftPlaces
    match stopFetch s1 x.1 x.2 f with
    | some s2 => (s1, [], some s2)
    | none =>
      let (s2, fs, r) := fetchLefts s1 xs
      (s2, f :: fs, r)

/-- The first member whose step fails a check of Table 12.4. -/
def stepFailure (s : State) (xs : List (Nat × MatOp)) : Option State :=
  match xs.find? fun x => accFails s x.2 with
  | some x => some (breakMat s x.1 x.2 2 0)
  | none =>
    xs.findSome? fun x =>
      match arrayUpset s x.1 x.2.ta.fmt with
      | some (.array c p st) => some (breakMat { s with strikes := s.strikes.erase (.array c p st) } x.1 x.2 p st)
      | _ => none

/-- Perform a step on every member: writes, progress, the count of the window. -/
def performStep (s : State) (xs : List (Nat × MatOp)) (lefts : List Fetch) (right : Fetch) : State :=
  (xs.zip lefts).foldl (fun s xf =>
    let s1 := applyStep s xf.1.2 xf.2 right
    let q := s1.core xf.1.1
    progressMat (s1.setCore xf.1.1 { q with busy := q.busy + 1 }) xf.1.1 xf.1.2 xf.1.2.advance) s

/-- Count a cycle that a step waits (R287). -/
def holdStep (s : State) (r : TgRef) : State :=
  s.updTg r fun g => { g with govst := if g.govst == 0xFFFFFFFFFFFFFFFF#64 then g.govst else g.govst + 1#64 }

/-- The next array step of an operation and of its gang. -/
def arrayStep (s : State) (xs : List (Nat × MatOp)) : State :=
  match fetchLefts s xs, xs with
  | (_, _, some s1), _ => s1
  | (s1, lefts, none), x :: _ =>
    match x.2.tile with
    | none => s1
    | some t =>
      let (s2, right) := fetchPlaces s1 (x.2.eng s1 x.1) (x.2.rightPlaces t)
      match stopFetch s2 x.1 x.2 right with
      | some s3 => s3
      | none => (stepFailure s2 xs).getD (performStep s2 xs lefts right)
  | (s1, _, none), [] => s1

/-- A pre-emption that names the workgroup lets an `MMA` begin no further chunk (R275). -/
def stepHeld (s : State) (o : MatOp) : Bool :=
  o.cstep == 0 && match s.wg? o.issuer.wg with | some w => s.stops w | none => false

/-- One array step of the `MMA` at the head of the queue of the core that the turn names, in lock step with its gang
(R274, R281, R286, R287). -/
def execMatrixArrayStep (s : State) : Host.Outcome State Fault Refusal :=
  match headMat s s.unit with
  | none => .next s
  | some o =>
    let xs := s.fellowsOf s.unit o
    if o.kind != .mma || !gangReady s o xs || stepHeld s o then .next s
    else if xs.any fun x => governed (s.core x.1) then
      .next ((xs.filter fun x => governed (s.core x.1)).foldl (fun s x => holdStep s x.2.issuer) s)
    else .next (arrayStep s xs)

/-- One row block of an `MZRO`, `MLDA` or `MSTA` (R275). -/
def execMatrixRowBlock (s : State) : Host.Outcome State Fault Refusal :=
  match headMat s s.unit with
  | none => .next s
  | some o =>
    match o.kind, o.tile, s.wg? o.issuer.wg with
    | .mzro, some t, some _ =>
      .next (progressMat (writeTile s o t ((o.block t).map fun x => (x.1, x.2, accOut t.af (some 0)))) s.unit o o.nextBlock)
    | .mlda, some t, some _ => .next (loadBlock s s.unit o t)
    | .msta, some t, some w => .next (storeRows s s.unit o t w)
    | _, _, _ => .next s

/-- An `MREL` at the head of the queue returns its pages (R268). -/
def execMrelPerform (s : State) : Host.Outcome State Fault Refusal :=
  match headMat s s.unit with
  | some o => if o.kind == .mrel then .next (completeMat s s.unit o) else .next s
  | none => .next s

/-- The gangs of a cluster whose first member has waited 2^30 counts, or that wait for a member that is gone, fail
(R280). -/
def execGangRendezvousTimeout (s : State) : Host.Outcome State Fault Refusal :=
  let l := (s.cluster s.unit).latch
  let late (x : GangWait) : Bool :=
    match l.find? fun y => y.list == x.list && y.members == x.members with
    | some y => decide (y.since + 2 ^ 30 ≤ s.waitNow y.ref y.since)
    | none => false
  .next (failGang (checkLatch s s.unit) s.unit late 3)

/-- A new window of the governor (R287): the bounds take the present LIMIT and STEP. -/
def execGovernorWindow (s : State) : Host.Outcome State Fault Refusal :=
  let q := s.core s.unit
  let step := if q.govStep == 0 then q.govLimit else q.busy + q.govStep
  .next (s.setCore s.unit { q with busyPrev := q.busy, busy := 0, bound := min q.govLimit step, window := q.window + 1 })

end Sys2Proof.Machine
end

