-- ==== Sys2Proof/Machine/HomeOps.lean ====
section
/-! DEFINITION. Shared operations of the events at homes, memory controllers, walkers and fault queues: performing a pending
access (Table 14.2), values returned to registers (R162, R292), the map-out of a DRAM die (R54 to R57), flushes and
invalidations (R80, R94), waiting agents (R96, R97). -/

namespace Sys2Proof.Machine

/-! ### Pending accesses -/

/-- Change the operation with a number. -/
def Tg.updOp (g : Tg) (id : Nat) (f : MemOp → MemOp) : Tg := { g with ops := g.ops.map fun o => if o.id == id then f o else o }

/-- A pending access of a thread group that may be performed now, with its operation and workgroup. -/
def pendingAcc (s : State) (r : TgRef) (op ix : Nat) : Option (Wg × Tg × MemOp × Acc) :=
  match s.wg? r.wg, s.tg? r with
  | some w, some g =>
    match g.ops.find? fun o => o.id == op with
    | some o =>
      match o.accs[ix]? with
      | some a =>
        if !a.done && !o.setFull && w.phase != .saved && g.mayPerform o ix a && !(a.page == .host && s.hostAhead r o.id) then some (w, g, o, a)
        else none
      | none => none
    | none => none
  | _, _ => none

/-- The access is performed at the home whatever the L1 holds: `LDA`, `STL`. -/
def MemOp.atHome (o : MemOp) : Bool := o.acquire.isSome || o.rel

/-- Perform an atomic of a thread group at the home of its address, past the L1 of its core: the words returned. -/
def atomicAt (s : State) (pt core : Nat) (a : Acc) : State × List CWord :=
  if a.page == .host then
    let (s1, old) := hostAtomicAt s pt core a
    carry s1 6 (dieOf core) 8 (clusterUnit core) pt core a.pa old
  else
    match a.coded with
    | some t => homeAtomicAt (dropDecoded s core t) pt core a
    | none => homeAtomicAt (l1Drop s core a.pa) pt core a

/-- Record what an access read, and go on with what it kept waiting. -/
def accDone (s : State) (r : TgRef) (op ix : Nat) (ws : List CWord) : State := progress (s.updTg r fun g => g.setAcc op ix ws) r

/-- Perform a load or store of a thread group; the release of an `STL` writes the L1's dirty lines back first (R326). -/
def performNow (s : State) (r : TgRef) (o : MemOp) (ix : Nat) (a : Acc) : State :=
  let s1 := match s.wg? r.wg with | some w => if o.rel then releaseAt s w.core (scopeCode o.scope) else s | none => s
  progress (performOne s1 r o.id ix a o.atHome) r

/-! ### Values returned to registers -/

/-- Check the words that some accesses read on the load-return path (Table 15.10, code 8). -/
def checkReturned (s : State) (pt core : Nat) : List Acc → State × List Acc
  | [] => (s, [])
  | a :: as =>
    let (s1, ws) := checkIn s 8 (clusterUnit core) pt core a.pa a.result
    let (s2, rest) := checkReturned s1 pt core as
    (s2, { a with result := ws } :: rest)

/-- Write the values of an operation, count its slot out and remove it. -/
def Tg.land (g : Tg) (o : MemOp) (vals : List (RKey × CWord)) : Tg :=
  let g1 := g.landWords o.id vals
  { g1.subPend o.ps with ops := g1.ops.filter fun p => p.id != o.id }

/-- The register words of an operation whose accesses have been performed. -/
def MemOp.values (o : MemOp) (accs : List Acc) : List (RKey × CWord) :=
  match o.dst with
  | none => o.results
  | some d => o.results ++ o.lanes.flatMap fun ls =>
      let ws := loadValue o.size o.signed (accs.filter fun a => a.lane == ls.2)
      (List.range ws.length).map fun k => (d.key k ls.1, ws.getD k .zero)

/-- The operation is the guard of an `MSTA`, which the store's completion writes (R284). -/
def guardHeld (s : State) (r : TgRef) (core id : Nat) : Bool := (s.core core).matq.any fun o => o.issuer == r && o.guardD == some id

/-- An operation returns its values. -/
def landOp (s : State) (r : TgRef) (id : Nat) : State :=
  match s.wg? r.wg, s.tg? r with
  | some w, some g =>
    match g.ops.find? fun o => o.id == id with
    | some o =>
      if w.phase == .saved || !o.performed || o.launch.isSome || o.arrive.isSome || guardHeld s r w.core id then s
      else
        let (s1, accs) := checkReturned s (s.partOf w) w.core o.accs
        s1.updTg r fun g => g.land o (o.values accs)
    | none => s
  | _, _ => s

/-! ### Map-out (R54 to R57) -/

/-- A die is removed, being removed, or waits for its removal. -/
def dieTaken (s : State) (stack k : Nat) : Bool :=
  !(s.mm.segLive.getD k 0#12).getLsbD stack || s.mm.mapouts.contains (stack, k) || (s.mm.diePend.getD stack 0#16).getLsbD k ||
    (s.mm.mstate != 0 && s.mm.mseg == k && s.mm.mstack == stack)

/-- Removing the die would leave its segment with no live stack. -/
def lastStack (s : State) (stack k : Nat) : Bool := (liveStacks s k).all fun t => t == stack || dieTaken s t k

/-- Queue the map-out of a die, or keep it pending while the queue is full. -/
def declareDie (s : State) (stack k : Nat) : State :=
  if s.mm.mapouts.length < 31 then { s with mm := { s.mm with mapouts := s.mm.mapouts ++ [(stack, k)] } }
  else { s with mm := { s.mm with diePend := updAt s.mm.diePend stack fun d => setBit d k true } }

/-- The lowest pending die joins a queue with room (R57). -/
def joinPending (s : State) : State :=
  let dies := (List.range 12).flatMap fun t => ((List.range 16).filter fun k => (s.mm.diePend.getD t 0#16).getLsbD k).map fun k => (t, k)
  match dies with
  | [] => s
  | (t, k) :: _ =>
    if s.mm.mapouts.length < 31 then
      { s with mm := { s.mm with mapouts := s.mm.mapouts ++ [(t, k)], diePend := updAt s.mm.diePend t fun d => setBit d k false } }
    else s

/-- The counts of a die start again. -/
def clearCounts (s : State) (stack k : Nat) : State :=
  { s with mm := { s.mm with
      uncorr := del s.mm.uncorr (16 * stack + k), corr := del s.mm.corr (16 * stack + k)
      declared := s.mm.declared.filter (· != 16 * stack + k) } }

/-- A request for the map-out of a die; one that is ignored leaves the die's counts. -/
def requestMapout (s : State) (stack k : Nat) : State :=
  if 11 < stack then s
  else if 31 ≤ s.mm.mapouts.length then { s with mm := { s.mm with full := true } }
  else if lastStack s stack k then s
  else
    let s1 := clearCounts s stack k
    if dieTaken s1 stack k then s1 else declareDie s1 stack k

/-- The line belongs to a segment: by its address, or by the address of its code's first byte. -/
def L2Line.inSegment (ln : L2Line) (k : Nat) : Bool :=
  match ln.coded with
  | some t => segOf (t.entry.codeAt (t.blocks.headD 0)) == k
  | none => segOf (128 * ln.line) == k

/-- Requests that wait for atoms of a segment are handled as R53 says while it is rebuilt. -/
def serveSegment (s : State) (k : Nat) : State :=
  ((s.mm.queue.filter fun q => segOf q.atom == k).map (·.atom)).eraseDups.foldl drainAtom s

/-- The acknowledgement of a map-out starts the rebuild of its segment (Table 3.4). -/
def ackMapout (s : State) : State :=
  if s.mm.mstate != 1 then s
  else
    let k := s.mm.mseg
    { s with
      mm := { s.mm with mstate := 2, segLive := updAt s.mm.segLive k fun l => setBit l s.mm.mstack false }
      cs := { s.cs with l2 := s.cs.l2.filter fun ln => !ln.inSegment k } }

/-- Main memory with a segment rewritten as zeros. -/
def zeroSegment (m : MainMem) (k : Nat) : MainMem :=
  let out (a : Nat) : Bool := segOf a != k
  let lo := k * segBytes
  let hi := lo + segBytes
  { m with
    bytes := m.bytes.filter fun c => out c.1
    poison := m.poison.filter fun i => out (4 * i)
    errs := m.errs.filter fun e => out e.1
    unsettled := m.unsettled.flatMap fun u =>
      [{ u with hi := min u.hi lo }, { u with lo := max u.lo hi }].filter fun v => decide (v.lo < v.hi) }

/-! ### Flushes and invalidations -/

/-- Start a flush (R80). -/
def startFlush (s : State) (ctx : Nat) : State :=
  if s.cs.crflush.isSome then s else { s with cs := { s.cs with crflush := some ctx } }

/-- Encode every dirty decoded block of a context and drop its decoded lines. -/
def flushContext (s : State) (ctx : Nat) : State :=
  let mine (t : Option CodedTag) : Bool := (t.map fun t => t.ctx == ctx).getD false
  let s1 := (s.cs.l2.filter fun ln => mine ln.coded).foldl (fun s ln => if s.cs.l2.contains ln then evictLine s ln else s) s
  { s1 with cs := { s1.cs with l1 := s1.cs.l1.filter fun ln => !mine ln.coded } }

/-- Start an invalidation (R94). -/
def startInval (s : State) (ctx : Nat) (all : Bool) : State :=
  if s.cs.tlbinv.isSome then s else { s with cs := { s.cs with tlbinv := some (ctx, all, bitsAt s.cs.tlbVa.toNat 12 45) } }

/-- The entry is one that an invalidation names. -/
def TlbEntry.named (t : TlbEntry) (x : Nat × Bool × Nat) : Bool :=
  t.ctx == x.1 && (x.2.1 || t.page / t.span == x.2.2 / t.span)

/-- An access whose translation the invalidation names: it lies on the page, on a page that a named entry of `ts` maps, or on any
page. -/
def Acc.named (a : Acc) (ts : List TlbEntry) (x : Nat × Bool × Nat) : Bool :=
  a.page != .spad &&
    (x.2.1 || a.va / 4096 == x.2.2 || ts.any fun t => t.named x && a.va / 4096 / t.span == t.page / t.span)

/-- Accesses of the context through such entries are still to be performed, those that takes hold included. -/
def invalWaits (s : State) (x : Nat × Bool × Nat) : Bool :=
  s.wgs.any fun nw => s.ctxOf nw.2 == x.1 &&
    ((nw.2.tgs.any fun g => g.ops.any fun o => o.accs.any fun a => !a.done && a.named s.cs.tlb x) ||
      nw.2.held.any fun a => a.named s.cs.tlb x)

/-- Finish an invalidation: the entries go, and what the L1s hold dirty of the context's partition, or of every partition when the
context is gone, is written back. -/
def finishInval (s : State) (x : Nat × Bool × Nat) : State :=
  let mine (ln : L1Line) : Bool := match s.ctx? x.1 with | some c => ln.part == c.part | none => true
  let s1 := (s.cs.l1.filter mine).foldl l1WriteBack s
  { s1 with cs := { s1.cs with tlb := s1.cs.tlb.filter fun t => !t.named x, tlbinv := none } }

/-- Write a partition's way mask in one slice (R86). -/
def setWays (s : State) (part slice : Nat) (ways : BitVec 16) : State :=
  { s with cs := { s.cs with ways := put (if part == 0 then 0xFFFF#16 else 0#16) s.cs.ways (8 * slice + part) ways } }

/-! ### Waiting agents (R96, R97) -/

/-- The fault queue that FQ_SEL selects. -/
def updQueue (s : State) (f : FaultQueue → FaultQueue) : State :=
  match s.ctx? s.host.fqSel.toNat with
  | some c => s.setCtx s.host.fqSel.toNat { c with faults := f c.faults }
  | none => s

/-- Thread groups of a context. -/
def ctxTgs (s : State) (ctx : Nat) : List TgRef :=
  s.wgs.flatMap fun nw => if s.ctxOf nw.2 == ctx then nw.2.refs nw.1 else []

/-- Cores and clusters that hold work. -/
def liveCores (s : State) : List Nat := s.cores.map (·.1)
def liveClusters (s : State) : List Nat := s.clusters.map (·.1)

/-- Waiting thread groups replay their instruction. -/
def retryTgs (s : State) (ctx : Nat) (cancel : Bool) : State :=
  (ctxTgs s ctx).foldl (fun s r =>
    match s.tg? r with
    | some g => if g.phase == .faulted then wake (s.setTg r { g with phase := .ready, faults := if cancel then g.faults else [], cancel := cancel }) r else s
    | none => s) s

/-- Change what an `LNCH` in flight still has to do. -/
def Tg.setLaunch (g : Tg) (id : Nat) (l : LaunchOp) : Tg :=
  { g with ops := g.ops.map fun o => if o.id == id then { o with launch := some l } else o }

/-- An `LNCH` fails: it returns nothing, and its trap takes the place of its wait at the `CUT` (R354, log 35). -/
def Tg.failLaunch (g : Tg) (id : Nat) (cause : BitVec 32) : Tg :=
  match g.ops.find? fun o => o.id == id with
  | none => g
  | some o =>
    let g1 := { g.subPend o.ps with ops := g.ops.filter fun p => p.id != id }
    let rest : List Wait := if g1.ops.any fun p => p.launch.isSome then [.launch] else []
    match o.launch with
    | some l => g1.mapWaits fun ws => ws.flatMap fun y => if y == .launch then .launchFail cause l.threads l.pc :: rest else [y]
    | none => g1

/-- Calls that wait for a page of their image go on, or take the fault at the `CUT`. -/
def retryLaunches (s : State) (ctx : Nat) (cancel : Bool) : State :=
  (ctxTgs s ctx).foldl (fun s r => (((s.tg? r).map (·.ops)).getD []).foldl (fun s o =>
    match o.launch with
    | some l =>
      match l.wait with
      | some x => s.updTg r fun g => if cancel then g.failLaunch o.id (memCause 0x10 x.cause x.cls x.lane) else g.setLaunch o.id { l with wait := none }
      | none => s
    | none => s) s) s

/-- Waiting copy commands start their chunk again, or end with status 0x04. -/
def retryCopies (s : State) (ctx : Nat) (cancel : Bool) : State :=
  (liveCores s).foldl (fun s k =>
    ((s.core k).copyq.filter fun x => x.ctx == ctx && x.phase == .waiting).foldl (fun s x =>
      if cancel then finishCopy s k x.eslot 0x04
      else updEntry s k x.eslot fun y => { y with phase := .active, waits := [] }) s) s

/-- Waiting matrix operations go on at their progress, or suspend. -/
def retryMats (s : State) (ctx : Nat) (cancel : Bool) : State :=
  (liveCores s).foldl (fun s k =>
    ((s.core k).matq.filter fun o => o.state == 3 && ((s.wg? o.issuer.wg).map (s.ctxOf ·)) == some ctx).foldl (fun s o =>
      if cancel then failMat s k o ((o.waits.head?.map (·.cause)).getD 0) else resumeMat s k o) s) s

/-- Change a job of a cluster. -/
def updJob (s : State) (k : Nat) (x : Job) (f : Job → Job) : State :=
  let q := s.cluster k
  s.setCluster k { q with jobs := match q.jobs.findIdx? (· == x) with | some i => updAt q.jobs i f | none => q.jobs }

/-- Waiting jobs go on, or end with status 0x04. -/
def retryJobs (s : State) (ctx : Nat) (cancel : Bool) : State :=
  (liveClusters s).foldl (fun s k =>
    ((s.cluster k).jobs.filter fun x => x.ctx == ctx && x.phase == .waiting).foldl (fun s x =>
      updJob s k x fun y =>
        if cancel then { y with phase := .finished, status := 0x04, waits := [] } else { y with phase := .active, waits := [] }) s) s

/-- Waiting staging copies and write-backs go on; cancelled, they take the fault (R389, R391). -/
def retryStaging (s : State) (ctx : Nat) (cancel : Bool) : State :=
  (s.wgs.filter fun nw => s.ctxOf nw.2 == ctx && !nw.2.stageWait.isEmpty).foldl (fun s nw =>
    if !cancel then s.setWg nw.1 { nw.2 with stageWait := [] }
    else if nw.2.phase == .staging then endWorkgroup s nw.1 4
    else s.setWg nw.1 { nw.2 with stageWait := [], status := nw.2.status ||| 0x08#8, region := nw.2.region + 1, cursor := 0 }) s

/-- A write of FQ_RESUME with GO. -/
def resumeQueue (s : State) (cancel : Bool) : State :=
  let ctx := s.host.fqSel.toNat
  let s1 := updQueue s fun q => { q with recs := q.recs.map fun r => { r with unresolved := false } }
  retryStaging (retryJobs (retryMats (retryCopies (retryLaunches (retryTgs s1 ctx cancel) ctx cancel) ctx cancel) ctx cancel) ctx cancel) ctx cancel

/-- A write of FQ_POP. -/
def popFault (s : State) : State := updQueue s fun q => { q with recs := q.recs.drop 1 }

end Sys2Proof.Machine
end

