-- ==== Sys2Proof/Machine/CopyEv.lean ====
section
/-! DEFINITION. Events of the copy engines and of the decompression engines (R117 to R146, R304, R357). -/

namespace Sys2Proof.Machine

/-! ### Acceptance (R122) -/

/-- Accept a command that the queue has not taken, the first to arrive whose partition's share is not full, when it is one of the
partition named: it takes the lowest free entry, behind those accepted before it (R89). -/
def takeEntry (s : State) (core part : Nat) : Option (CopyCmd × State) :=
  let q := s.core core
  let inq := q.copyq.filter (·.accepted)
  let rest := q.copyq.filter fun x => !x.accepted
  match rest.find? fun x => decide (countIf inq (fun y => y.part == x.part) < shareOf s x.part) with
  | none => none
  | some x =>
    if x.part != part then none
    else match (List.range 32).find? fun e => inq.all fun y => y.eslot != e with
    | none => none
    | some e =>
      let x1 := { x with accepted := true, eslot := e }
      some (x1, s.setCore core { q with copyq := inq ++ x1 :: rest.erase x })

/-- The words of a command's index list, each checked on entry to the buffer; an index that is Poison is a free value. -/
def readIndices (s : State) (core : Nat) (x : CopyCmd) (w : Wg) : State × List Int :=
  match x.list with
  | none => (s, [])
  | some l =>
    let (s1, ws) := checkIn s 3 (clusterUnit core) x.part core (65536 * w.base + l) (w.spadRead l x.rows)
    (s1, (ws.zip (List.range ws.length)).map fun wk =>
      ival true 32 (if wk.1.bad then Config.freeWord s.tick wk.2 else wk.1.data).toNat)

/-- PEER[p] names a bound peer: valid, with a link that is up (R471). -/
def peerBound (s : State) (p : Nat) : Bool :=
  match s.host.peers[p]? with
  | some x => x.valid && (List.range 18).any fun i => x.links.getLsbD i && ((s.host.links[i]?.map (·.state)).getD 0 == 2)
  | none => false

/-- Check 1: the fields. -/
def CopyCmd.fieldOk (x : CopyCmd) (s : State) (w : Wg) (alloc : Nat) : Bool :=
  let d (i lo n : Nat) : Bool := bitsAt (x.dw i) lo n == 0
  d 0 63 1 && d 1 62 2 && d 2 63 1 && d 3 62 2 && x.csum != 3 && x.rowb != 0 &&
    (match x.peer with | some p => !x.dsp && peerBound s p && !w.takeOn | none => true) &&
    (match x.list with | some l => l % 4 == 0 && decide (l + 4 * x.rows ≤ alloc) | none => true)

/-- Every row of a side lies in the allocation. -/
def Side.within (d : Side) (rows alloc : Nat) : Bool :=
  !d.spad || (List.range rows).all fun r => decide (0 ≤ d.row r) && decide ((d.row r).toNat + d.rowb ≤ alloc)

/-- Check 3: the chain as acceptance sees it, and whether the command breaks it (R132). -/
def chainCheck (q : CoreSt) (x : CopyCmd) : CoreSt × Bool :=
  let others := q.chains.filter fun h => h.issuer != x.issuer
  match q.chains.find? fun h => h.issuer == x.issuer with
  | none => (if x.chains then { q with chains := others ++ [⟨x.issuer, x.csum, x.peer, 1⟩] } else q, false)
  | some h =>
    ({ q with chains := if x.chains then others ++ [{ h with count := h.count + 1 }] else others },
      h.csum != x.csum || h.peer != x.peer || decide (256 ≤ h.count))

/-- The coded region in which the first byte of a side lies. -/
def firstTag (s : State) (a : Eng) (d : Side) : State × Option (CodedTag × Nat) :=
  if d.spad then (s, none)
  else
    match placeBytes s a d.cls (fun _ => true) (d.row 0) 1 0 with
    | (s1, .ok p) => (s1, p.coded.map fun t => (t, p.pa))
    | (s1, _) => (s1, none)

/-- A coded side breaks R139 or R140 in some row. -/
def Side.breach (d : Side) (rows : Nat) (t : CodedTag) : Bool :=
  (List.range rows).any fun r =>
    if d.raw then
      let o := d.row r - t.entry.dbase
      decide (o < 0) || decide ((t.entry.span : Int) ≤ o) || !d.rawOk t o.toNat
    else !d.decodedOk r t

/-- Check 4: the breaches that the fields reveal. -/
def codedCheck (s : State) (core : Nat) (x : CopyCmd) : State × Bool :=
  let a := x.eng core
  let (s1, src) := firstTag s a x.srcSide
  let (s2, dst) := if x.peer.isSome then (s1, none) else firstTag s1 a x.dstSide
  let bad (d : Side) (t : Option (CodedTag × Nat)) : Bool := (t.map fun t => d.breach x.rows t.1).getD false
  let unlike := match src, dst with | some t, some u => x.isRaw && t.1.entry.bits != u.1.entry.bits | _, _ => false
  (s2, bad x.srcSide src || bad x.dstSide dst || unlike)

/-- Status of a copy command at acceptance; the chain sees every command, a rejected one too. -/
def acceptStatus (s : State) (core : Nat) (x : CopyCmd) : State × Nat :=
  match s.wg? x.issuer.wg with
  | none => (s, 0)
  | some w =>
    let alloc := s.spadOf x.issuer.wg
    let (q, broken) := chainCheck (s.core core) x
    let s0 := s.setCore core q
    if !x.fieldOk s w alloc then (s0, 0x07)
    else
      let (s1, idx) := readIndices s0 core x w
      let y := { x with idx := idx }
      let s2 := updEntry s1 core x.eslot fun z => { z with idx := idx }
      if !y.srcSide.within x.rows alloc || (x.peer.isNone && !y.dstSide.within x.rows alloc) then (s2, 0x02)
      else if broken then (s2, 0x0A)
      else let (s3, bad) := codedCheck s2 core y; (s3, if bad then 0x03 else 0)

/-- Status of a prefetch (R304). -/
def prefetchStatus (x : CopyCmd) : Nat := if x.length == 0 || 1048576 < x.length then 0x07 else 0

def execCopyCommandAccept (core part : Nat) (s : State) : Host.Outcome State Fault Refusal :=
  match takeEntry s core part with
  | none => .next s
  | some (x, s1) =>
    let (s2, st) := if x.isPrefetch then (s1, prefetchStatus x) else acceptStatus s1 core x
    .next (freeEnter (if st == 0 then s2 else finishCopy s2 core x.eslot st) x.issuer)

/-! ### The head of the queue (R357, R358) -/

/-- The command is being performed. -/
def CopyCmd.isActive (x : CopyCmd) : Bool := x.accepted && x.phase != .queued && x.phase != .finished

def execCopyQueueHead (core part : Nat) (s : State) : Host.Outcome State Fault Refusal :=
  let q := s.core core
  match q.copyq.find? fun x => x.accepted && x.phase == .queued with
  | none => .next s
  | some x =>
    match s.wg? x.issuer.wg with
    | none => .next s
    | some w =>
      if x.part != part then .next s
      else
        match deferState w x.defer with
        | .unresolved => .next s
        | .no => .next (finishCopy s core x.eslot 0)
        | .yes =>
          -- its slot is decided at the head; it starts when fewer than 8 are active (R126, R357)
          let full := decide (8 ≤ countIf q.copyq CopyCmd.isActive)
          .next (updEntry s core x.eslot fun y => { y with defer := none, phase := if full then .queued else .active })

/-! ### Chunks (R123 to R127, R136) -/

/-- Wait on replayable faults at the start of the chunk, as agent 1. -/
def waitCopy (s : State) (core : Nat) (x : CopyCmd) (ws : List PageWait) : State :=
  let slot := ((s.tg? x.issuer).map (·.slot)).getD 0
  updEntry (recordFaults s x.ctx 1 slot core ws) core x.eslot fun y => { y with phase := .waiting, waits := mergeWaits ws, buf := [] }

/-- End on a fault of a code of Table 5.5, or on a breach of a coded region. -/
def faultCopy (s : State) (core : Nat) (x : CopyCmd) (cause : Nat) : State :=
  finishCopy s core x.eslot (if cause == 0x11 then 0x03 else 0x04)

/-- Suspend on an uncorrectable source read: the record with the cursor, and the copy-suspension trap. -/
def suspendCopy (s : State) (core : Nat) (x : CopyCmd) : State :=
  let (c0, c1) := x.cursor core
  let s1 := appendRecord s x.part 0x41 core 0 0 c0 c1
  (updEntry s1 core x.eslot fun y => { y with phase := .suspended, buf := [] }).updTg x.issuer fun g =>
    g.pendBoundary ⟨2, BitVec.ofNat 32 (0x0A * 2 ^ 24 + x.eslot), none⟩

/-- The copy network fails on the next chunk of a core (log 12). -/
def netFails (s : State) (core : Nat) : Option State :=
  if s.strikes.contains (.copyNet core) then some { s with strikes := s.strikes.erase (.copyNet core) } else none

/-- A raw source and a raw destination in coded regions of unlike B (R140). -/
def unlikeB (src dst : List PieceOut) : Bool :=
  let bits (ps : List PieceOut) : List Nat := (gather ps).2.2.filterMap fun p => p.raw.map fun t => t.1.entry.bits
  (bits src).any fun b => (bits dst).any fun b' => b != b'

/-- The read phase of the next chunk of a command. -/
def readChunk (s : State) (core : Nat) (x : CopyCmd) : State :=
  let a := x.eng core
  let lo := x.chunkLo x.chunk
  let hi := x.chunkHi x.chunk
  let (s1, src) := sidePieces s a x.srcSide lo hi
  let (s2, dst) := if x.peer.isSome then (s1, []) else sidePieces s1 a x.dstSide lo hi
  match gather (src ++ dst) with
  | (some cause, _, _) => faultCopy s2 core x cause
  | (none, [], _) =>
    if unlikeB src dst then faultCopy s2 core x 0x11 else
    let (s3, buf) := readPieces s2 a (gather src).2.2
    if uncorrTotal s2 < uncorrTotal s3 then suspendCopy s3 core x
    else
      match netFails s3 core with
      | some s4 =>
        let s5 := appendRecord s4 x.part 0x42 core 0 0 0 0
        if x.retried then finishCopy s5 core x.eslot 0x04 else updEntry s5 core x.eslot fun y => { y with retried := true }
      | none => updEntry s3 core x.eslot fun y => { y with phase := .loaded, buf := buf }
  | (none, ws, _) => waitCopy s2 core x ws

/-- The next chunk of a command may be read: no earlier member of its chain, and no access of the thread group that comes first, is
still to be performed (R126, R327, R339). -/
def mayRead (s : State) (core : Nat) (x : CopyCmd) : Bool :=
  x.phase == .active && !x.isPrefetch && !(s.core core).awaitsMember x && !s.engineWaits x.issuer x.id false (x.hostLeft s core)

def execCopyChunkRead (core entry : Nat) (s : State) : Host.Outcome State Fault Refusal :=
  match (s.core core).entry entry with
  | some x => .next (if mayRead s core x then readChunk s core x else s)
  | none => .next s

/-- The checksum units of a core disagree twice on a chunk (R133). -/
def sumFails (s : State) (core : Nat) (csum : Nat) : State × Bool :=
  match s.strikes.find? fun u => match u with | .copySum c _ => c == core && csum != 0 | _ => false with
  | some (.copySum c n) => ({ s with strikes := s.strikes.erase (.copySum c n) }, decide (2 ≤ n))
  | _ => (s, false)

/-- A chunk is committed: its bytes enter the running value, and the command goes on or completes. -/
def commitChunk (s : State) (core : Nat) (x : CopyCmd) (bs : List (Byte × Bool)) : State :=
  let (s1, fails) := sumFails s core x.csum
  let y := { x with chain := x.chain.enter x.csum bs, chunk := x.chunk + 1, phase := .active, buf := [], retried := false }
  let s2 := updEntry s1 core x.eslot fun _ => y
  if fails then finishCopy s2 core x.eslot 0x04
  else if x.chunks ≤ y.chunk then finishCopy s2 core x.eslot y.verdict else s2

/-- The chunk of a command is in its buffer, and no earlier member of its chain is still to be performed (R126). -/
def mayCommit (s : State) (core : Nat) (x : CopyCmd) : Bool :=
  x.phase == .loaded && !(s.core core).awaitsMember x && !s.engineWaits x.issuer x.id true (x.hostLeft s core)

/-- The write phase of a chunk. -/
def writeChunk (s : State) (core : Nat) (x : CopyCmd) : State :=
  let a := x.eng core
  let lo := x.chunkLo x.chunk
  let hi := x.chunkHi x.chunk
  let (s1, dst) := sidePieces s a x.dstSide lo hi
  match gather dst with
  | (some cause, _, _) => faultCopy s1 core x cause
  | (none, [], ps) =>
    let (s2, bs) := drainBuf s1 a x.buf
    match engineWrite s2 a ps lo bs with
    | none => reachCommit s x.issuer.wg .engine
    | some s3 => commitChunk (s3.updWg x.issuer.wg fun w => w.setGranules true (x.fullGranules hi ps)) core x bs
  | (none, ws, _) => waitCopy s1 core x ws

def execCopyChunkCommit (core entry : Nat) (s : State) : Host.Outcome State Fault Refusal :=
  match (s.core core).entry entry with
  | some x => .next (if mayCommit s core x && x.peer.isNone then writeChunk s core x else s)
  | none => .next s

/-- The peer acknowledges a chunk, or its fault or the link's failure ends the command (R141). -/
def execCpyxChunkAck (core entry : Nat) (ok : Bool) (s : State) : Host.Outcome State Fault Refusal :=
  match (s.core core).entry entry with
  | some x =>
    if !mayCommit s core x || x.peer.isNone then .next s
    else if !ok then .next (finishCopy s core x.eslot 0x06)
    else
      let (s1, bs) := drainBuf s (x.eng core) x.buf
      .next (commitChunk s1 core x bs)
  | none => .next s

/-- Fetch the lines of a chunk of a prefetch; a chunk that meets a fault is skipped. -/
def prefetchChunk (s : State) (core : Nat) (x : CopyCmd) (l1 : Bool) : State :=
  let a := x.eng core
  let lo := x.chunkLo x.chunk
  let (s1, ps) := placeAll s (fun s y => placeBytes s a 0 (fun _ => true) y.1 y.2 0) (lineSplit (x.dw 0 + lo) (x.chunkHi x.chunk - lo))
  match gather ps with
  | (none, [], qs) => qs.foldl (fun s p => prefetchLine s x.part core l1 p.pa p.page p.coded) s1
  | _ => s1

def execPreftChunk (core entry : Nat) (s : State) : Host.Outcome State Fault Refusal :=
  match (s.core core).entry entry with
  | some x =>
    match x.kind with
    | .prefetch l1 =>
      if x.phase != .active then .next s
      else
        let s1 := updEntry (prefetchChunk s core x l1) core x.eslot fun y => { y with chunk := y.chunk + 1 }
        .next (if x.chunks ≤ x.chunk + 1 then finishCopy s1 core x.eslot 0 else s1)
    | _ => .next s
  | none => .next s

/-! ### Decompression (R143 to R146) -/

/-- Status of a job at acceptance. -/
def Job.check (x : Job) (alloc : Nat) : Nat :=
  if (x.dw 0).testBit 63 || bitsAt (x.dw 1) 58 6 != 0 || x.dw 3 != 0 || x.slen == 0 || 16777216 < x.slen || x.olen == 0 ||
      67108864 < x.olen then 0x07
  else if !x.srcSide.within 1 alloc || !x.dstSide.within 1 alloc then 0x02
  else 0

def execDecompressionJobAccept (s : State) : Host.Outcome State Fault Refusal :=
  let k := s.unit
  let q := s.cluster k
  match q.jobs.find? fun x => !x.accepted with
  | none => .next s
  | some x =>
    if 16 ≤ countIf q.jobs (·.accepted) then .next s
    else
      let st := x.check (s.spadOf x.issuer.wg)
      let y := { x with accepted := true, phase := if st == 0 then .queued else .finished, status := st }
      .next (freeEnter (updJob s k x fun _ => y) x.issuer)

/-- A stream being decoded: bytes still to read, output with the last byte first, its length. -/
structure Dec where
  inp : List (Byte × Bool)
  out : List Byte
  n : Nat

/-- The next byte of the stream, or the failing status. -/
def Dec.next (d : Dec) : Except Nat (Nat × Dec) :=
  match d.inp with
  | [] => .error 0x08
  | (b, bad) :: bs => if bad then .error 0x0B else .ok (b.toNat, { d with inp := bs })

def Dec.emit (olen : Nat) (d : Dec) (b : Byte) : Except Nat Dec :=
  if d.n == olen then .error 0x09 else .ok { d with out := b :: d.out, n := d.n + 1 }

/-- A literal run. -/
def Dec.literals (olen : Nat) : Nat → Dec → Except Nat Dec
  | 0, d => .ok d
  | k + 1, d =>
    match d.next with
    | .error e => .error e
    | .ok (b, d1) =>
      match d1.emit olen (BitVec.ofNat 8 b) with
      | .error e => .error e
      | .ok d2 => d2.literals olen k

/-- The bytes of a match, one at a time. -/
def Dec.repeat (olen off : Nat) : Nat → Dec → Except Nat Dec
  | 0, d => .ok d
  | k + 1, d =>
    match d.emit olen (d.out.getD (off - 1) 0#8) with
    | .error e => .error e
    | .ok d1 => d1.repeat olen off k

def Dec.copy (olen off len : Nat) (d : Dec) : Except Nat Dec := if d.n < off then .error 0x08 else d.repeat olen off len

/-- A little-endian 16-bit value. -/
def Dec.next16 (d : Dec) : Except Nat (Nat × Dec) :=
  match d.next with
  | .error e => .error e
  | .ok (lo, d1) =>
    match d1.next with
    | .error e => .error e
    | .ok (hi, d2) => .ok (lo + 256 * hi, d2)

/-- Decode units up to the end byte. -/
def Dec.run (olen : Nat) : Nat → Dec → Except Nat Dec
  | 0, _ => .error 0x08
  | fuel + 1, d => do
    let (c, d) ← d.next
    let f := c % 64
    if c / 64 == 0 then
      let (n, d) ← if f == 62 then (d.next).map fun x => (63 + x.1, x.2)
        else if f == 63 then (d.next16).map fun x => (319 + x.1, x.2) else .ok (f + 1, d)
      let d ← d.literals olen n
      d.run olen fuel
    else if c / 64 == 1 then
      let (b, d) ← d.next
      let d ← d.copy olen (f % 8 * 256 + b + 1) (f / 8 + 3)
      d.run olen fuel
    else if c / 64 == 2 then
      let (len, d) ← if f == 63 then (d.next).map fun x => (66 + x.1, x.2) else .ok (f + 3, d)
      let (v, d) ← d.next16
      let d ← d.copy olen (v + 1) len
      d.run olen fuel
    else if f != 0 || !d.inp.isEmpty then .error 0x08
    else if d.n != olen then .error 0x09
    else .ok d

/-- Decode a stream: the output, or the failing status (R144). -/
def decompress (olen : Nat) (bs : List (Byte × Bool)) : Except Nat (List Byte) :=
  match Dec.run olen (bs.length + 1) ⟨bs, [], 0⟩ with
  | .error e => .error e
  | .ok d => .ok d.out.reverse

/-- A job ends with a status, and completes in its turn. -/
def endJob (s : State) (k : Nat) (x : Job) (status : Nat) : State :=
  updJob s k x fun y => { y with phase := .finished, status := status }

/-- A job waits on replayable faults, and then starts again (R145). -/
def waitJob (s : State) (k : Nat) (x : Job) (ws : List PageWait) : State :=
  let slot := ((s.tg? x.issuer).map (·.slot)).getD 0
  updJob (recordFaults s x.ctx 1 slot x.core ws) k x fun y => { y with phase := .waiting, waits := mergeWaits ws }

/-- The output bytes of a job are unpredictable until it completes, and after a nonzero status (R146): free values stand in every one
whose page is there. -/
def freeOutput (s : State) (x : Job) : State :=
  let free := (List.range x.olen).map fun i => (Config.freeByte s.tick i, false)
  let takes := ((s.wg? x.issuer.wg).map (·.takeOn)).getD false
  if takes && !x.dsp then s
  else
    match sidePieces s x.eng x.dstSide 0 x.olen with
    | (s1, ps) => (engineWrite s1 x.eng (gather ps).2.2 0 free).getD s1

/-- A job becomes active. -/
def startJob (s : State) (k : Nat) (x : Job) : State := freeOutput (updJob s k x fun y => { y with phase := .active }) x

/-- A residue check in the decompression engine of a cluster fails (log 12). -/
def decompFails (s : State) (k : Nat) : Option State :=
  if s.strikes.contains (.decomp k) then some { s with strikes := s.strikes.erase (.decomp k) } else none

/-- An active job decodes its whole stream. A residue failure in the engine abandons it, and it starts again from stream byte 0 (R145).
When the stream has changed since the job was issued, its output is free (R146). -/
def runJob (s : State) (k : Nat) (x : Job) : State :=
  let (s1, src) := sidePieces s x.eng x.srcSide 0 x.slen
  match gather src with
  | (some _, _, _) => endJob (freeOutput s1 x) k x 0x04
  | (none, [], ps) =>
    let (s2, buf) := readPieces s1 x.eng ps
    let bytes := buf.flatMap BufWord.bytes
    match decompFails s2 k with
    | some s3 => freeOutput s3 x
    | none =>
      match decompress x.olen bytes with
      | .error e => endJob (freeOutput s2 x) k x e
      | .ok out =>
        let (s3, dst) := sidePieces s2 x.eng x.dstSide 0 x.olen
        match gather dst with
        | (some _, _, _) => endJob (freeOutput s3 x) k x 0x04
        | (none, [], qs) =>
          let changed := (x.stream.map fun b => b != bytes.map (·.1)).getD false
          let data := if changed then (List.range x.olen).map fun i => Config.freeByte s.tick i else out
          match engineWrite s3 x.eng qs 0 (data.map fun b => (b, false)) with
          | none => reachCommit s x.issuer.wg .engine
          | some s4 => endJob s4 k x 0
        | (none, ws, _) => waitJob s3 k x ws
  | (none, ws, _) => waitJob s1 k x ws

/-- A job reaches the head of its queue and starts, is discarded or waits; an active job decodes. -/
def execDecompressionJobRun (cluster i : Nat) (s : State) : Host.Outcome State Fault Refusal :=
  let q := s.cluster cluster
  match q.jobs[i]? with
  | none => .next s
  | some x =>
    if x.phase == .active then .next (if s.engineWaits x.issuer x.id true (x.hostLeft s) then s else runJob s cluster x)
    else
      match s.wg? x.issuer.wg with
      | none => .next s
      | some w =>
        if !x.accepted || x.phase != .queued || (q.jobs.take i).any fun y => y.accepted && y.phase == .queued then .next s
        else
          match deferState w x.defer with
          | .unresolved => .next s
          | .no => .next (endJob s cluster x 0)
          | .yes =>
            -- its slot is decided at the head; it starts when fewer than two are active (R357)
            let y := { x with defer := none }
            let s1 := updJob s cluster x fun _ => y
            .next (if 2 ≤ countIf q.jobs (fun y => y.phase == .active || y.phase == .waiting) then s1 else startJob s1 cluster y)

/-- Granules wholly inside the output. -/
def Job.granules (x : Job) : List Nat :=
  if !x.dsp then []
  else
    let lo := (x.daddr + 15) / 16
    (List.range ((x.daddr + x.olen) / 16 - lo)).map (lo + ·)

/-- Jobs of a thread group complete in the order of issue; one that its slot discarded sets no granule. -/
def execDecompressionJobComplete (cluster i : Nat) (s : State) : Host.Outcome State Fault Refusal :=
  let q := s.cluster cluster
  match q.jobs[i]? with
  | none => .next s
  | some x =>
    if x.phase != .finished || (q.jobs.take i).any fun y => y.issuer == x.issuer then .next s
    else
      let s1 := s.setCluster cluster { q with jobs := q.jobs.eraseIdx i }
      let s2 := if x.status == 0 && x.defer.isNone then s1.updWg x.issuer.wg fun w => w.setGranules true x.granules else s1
      let s3 := s2.updTg x.issuer fun g => { g.subSlots x.slots with cntDcmp := g.cntDcmp - 1 }
      .next (reportCompletion s3 x.issuer x.part x.core x.arrv x.bar x.status)

end Sys2Proof.Machine
end

