-- ==== Sys2Proof/Machine/Lnch.lean ====
section
/-! DEFINITION. Reading a call sheet with its tensor image, and `LNCH` (R354, R392). -/

namespace Sys2Proof.Machine

/-! ### Reading a call -/

/-- What reading a call sheet gives: its words with what reading the image gave, or the fault or wait of the sheet. -/
inductive CallRead where
  | words (ws : List CWord) (image : SheetRead)
  | fault (cause : Nat)
  | wait (w : PageWait)

/-- Status of a sheet before its image is looked at: the checks of Table 16.3 up to RESIDENT. -/
def earlyStatus (s : State) (d : List Nat) : Nat :=
  let st := sheetStatus s d (sheetFrom d) true
  if st == 7 then 0 else st

/-- Read a sheet, and its image when the sheet's own checks let it be read. -/
def readCall (s : State) (core ctx : Nat) (super : Bool) (lane : Nat) (rd : Reader) (va : Nat) : State × CallRead :=
  match readUnits s core ctx super lane rd va 32 with
  | (s1, .fault c) => (s1, .fault c)
  | (s1, .wait w) => (s1, .wait w)
  | (s1, .words ws) =>
    let d := dwsFrom ws
    if !sound ws || earlyStatus s1 d != 0 then (s1, .words ws (.words []))
    else
      let (s2, im) := readUnits s1 core ctx super lane rd (sheetTtab d) (sheetTcnt d)
      (s2, .words ws im)

/-- The sheet of some words with its image. -/
def callSheet (ws : List CWord) (image : SheetRead) : Sheet :=
  { sheetFrom (dwsFrom ws) with image := match image with | .words is => imageFrom (dwsFrom is) | _ => [] }

/-- Acceptance status of words that were read for a host-queued launch: the checks of Table 16.3 in its order, up to RESIDENT on the
data bits of the words whatever their codes. -/
def callStatus (s : State) (ws : List CWord) (image : SheetRead) : Nat :=
  let ok := match image with | .words is => sound is | _ => false
  sheetStatus s (dwsFrom ws) (callSheet ws image) (sound ws && ok)

/-- CDONE of a sheet: none when a word of it cannot be relied on. -/
def callDone (ws : List CWord) : Nat := if sound ((ws.drop (0x1C0 / 4)).take 2) then sheetCdone (dwsFrom ws) else 0

/-! ### Reading as a thread group does -/

/-- Stores of a thread group that are not yet performed, and those that its take holds. -/
def ownStores (s : State) (r : TgRef) : List Acc :=
  match s.wg? r.wg, s.tg? r with
  | some w, some g => w.held ++ g.ops.flatMap fun o => o.accs.filter fun a => a.isHeld && !a.done
  | _, _ => []

/-- Read 32 bytes as a load at device scope, the thread group's own stores laid over them. -/
def tgRead (r : TgRef) (pt core : Nat) : Reader := fun s pa page coded =>
  let half (s : State) (k : Nat) : State × List CWord :=
    let a := mkAcc 0 .load (pa + k) 16 (pa + k) page coded [] []
    let (s1, ws) := performLS s pt core true a
    (s1, overlay (ownStores s r) a ws)
  let (s1, lo) := half s 0
  let (s2, hi) := half s1 16
  (s2, lo ++ hi)

/-! ### LNCH -/

/-- The faults of step 2 that the sheet's address brings. -/
def lnchFault (c : Ctx) : Option (Nat × Nat) :=
  if 2 ^ 57 ≤ c.uval 0 then some (0x11, 0) else if c.uval 0 % 1024 != 0 then some (0x12, 0) else none

/-- Where the sheet lies, as step 2 translates it: it lies in one page. -/
def lnchPlace (c : Ctx) : State × Xlat := translate c.s c.e.core c.e.ctx c.e.g.super 0 (c.uval 0) 1024

/-- The faults of the sheet's address and translation. -/
def lnchLate (c : Ctx) : Ctx × Verdict :=
  let lane := c.e.part.headD 0
  match lnchFault c with
  | some (cause, fcode) => (c, .trap (memCause cause fcode 0 lane) (maskOf c.e.part))
  | none =>
    match lnchPlace c with
    | (s1, .fault cause level pte) =>
      ({ c with s := s1 },
        if replayable cause then .wait [pageWait (c.uval 0) 0 cause level pte lane] else .trap (memCause 0x10 cause 0 lane) (maskOf c.e.part))
    | (s1, .to _ _ _) => ({ c with s := s1 }, .go)

/-- What an `LNCH` has to do once it has issued. -/
def lnchOp (c : Ctx) (after : Bool) : Option LaunchOp :=
  match (lnchPlace c).2 with
  | .to pa page coded => some ⟨c.e.pc, maskOf c.e.part, c.uval 0, pa, page, coded, after, none, none⟩
  | .fault _ _ _ => none

/-- The release of step 1, the reading and the appending wait for the `CUT` (R163). -/
def execLnch (h : Hints) (after : Bool) (d a : U) (s : State) : Host.Outcome State Fault Refusal :=
  onceOp s { h := h, srcs := [(srcA (.s a) 2).consumed], dst := some (.s d, 1) } lnchLate fun c =>
    let s1 := commitPoint c.s c.e.r 5
    s1.updTg c.e.r fun g => (g.owe .launch).launchOp { MemOp.blank with
      ps := h.ps.toNat, results := [(.s d.toNat, .zero)], launch := lnchOp c after, super := c.e.g.super, gated := g.commits }

/-- Entries of a partition's launch queue in use: the host's that are announced and not taken, and device launches of which
no unit is placed. -/
def queueUsed (s : State) (part : Nat) : Nat :=
  let q := s.host.queues.getD part ⟨0#64, 4, 0#32, 0#32⟩
  (q.tail - q.head).toNat +
    countIf s.launches fun nl => nl.2.part == part && !nl.2.fromHost && nl.2.unplaced.length == nl.2.sheet.units

/-- A partition's launch queue has room. -/
def queueRoom (s : State) (part : Nat) : Bool :=
  decide (queueUsed s part < 2 ^ (s.host.queues.getD part ⟨0#64, 4, 0#32, 0#32⟩).log)

/-- The status of an `LNCH` returns; the wait for its launch ends with the last of them. -/
def lnchReturn (s : State) (r : TgRef) (o : MemOp) (status : Nat) : State :=
  s.updTg r fun g =>
    let g1 := g.land o (o.results.map fun kw => (kw.1, CWord.of (BitVec.ofNat 32 status)))
    if g1.ops.any fun p => p.launch.isSome then g1 else g1.mapWaits fun l => l.filter fun x => x != .launch

/-- The words of the sheet of an `LNCH`, read as a load at device scope after the release of step 1. -/
def readSheet (s : State) (r : TgRef) (part core : Nat) (l : LaunchOp) : State × List CWord :=
  match l.sheet with
  | some ws => (s, ws)
  | none => (List.range 32).foldl (fun (x : State × List CWord) i =>
      let pa := l.pa + 32 * i
      let (s1, ws) := tgRead r part core x.1 pa l.page (l.coded.map fun t => { t with line := pa / 128 })
      (s1, x.2 ++ ws)) (releaseAt s core 5, [])

/-- The trap for a Poison word of a sheet or image that `LNCH` reads, which no operand field names (log 35). -/
def lnchPoison (r : TgRef) : BitVec 32 := checkCause 3 0 0 false 0 (pipeOf r) 0 0

/-- Accept or reject the sheet of an `LNCH` (R392). -/
def answerLaunch (s : State) (r : TgRef) (w : Wg) (o : MemOp) (l : LaunchOp) (h : Sheet) (status : Nat) : State :=
  let ix := Config.freeNat s.tick 0
  let s1 :=
    if status == 0 then appendLaunch s h (s.ctxOf w) (s.partOf w) false ix (if l.after then some w.launch else none)
    else rejectLaunch s (s.ctxOf w) (s.partOf w) h.cdone status ix
  lnchReturn s1 r o status

/-- Release, read the sheet once, then its image, accept or reject it (R354, R392), once everything before is performed and the queue
has room; a page of the image may be waited for. -/
def launchSheet (s : State) (r : TgRef) (o : MemOp) : State :=
  match s.wg? r.wg, s.tg? r, o.launch with
  | some w, some g, some l =>
    if o.gated != 0 || !g.drained 0#8 || !queueRoom s (s.partOf w) || l.wait.isSome then s
    else
      let (s1, ws) := readSheet s r (s.partOf w) w.core l
      let lane := (members l.threads).headD 0
      let d := dwsFrom ws
      let st := earlyStatus s1 d
      if anyBad ws then s1.updTg r fun g => g.failLaunch o.id (lnchPoison r)
      else if st != 0 then answerLaunch s1 r w o l (sheetFrom d) st
      else
        match readUnits s1 w.core (s.ctxOf w) o.super lane (tgRead r (s.partOf w) w.core) (sheetTtab d) (sheetTcnt d) with
        | (s2, .fault cause) => s2.updTg r fun g => g.failLaunch o.id (memCause 0x10 cause 0 lane)
        | (s2, .wait x) => (recordFaults s2 (s.ctxOf w) 0 g.slot w.core [x]).updTg r fun g => g.setLaunch o.id { l with sheet := some ws, wait := some x }
        | (s2, .words im) =>
          if anyBad im then s2.updTg r fun g => g.failLaunch o.id (lnchPoison r)
          else
            let h := callSheet ws (.words im)
            answerLaunch s2 r w o l h (sheetStatus s2 d h true)
  | _, _, _ => s

end Sys2Proof.Machine
end

