-- ==== Sys2Proof/Machine/LaunchEv.lean ====
section
/-! DEFINITION. Events of a launch: acceptance (R392), placement and stealing (R394 to R398), staging, start, exit
write-back and end of a workgroup (R389 to R393, R399), completion (R400), rotation of the active set (R415). -/

namespace Sys2Proof.Machine

/-! ### Acceptance -/

/-- The registers of a partition's launch queue. -/
def State.queue (s : State) (part : Nat) : LaunchQueue := s.host.queues.getD part ⟨0#64, 4, 0#32, 0#32⟩

def State.setQueue (s : State) (part : Nat) (q : LaunchQueue) : State :=
  { s with host := { s.host with queues := s.host.queues.set part q } }

/-- Read words for the I/O die at a physical address; outside main and host memory they are Poison. -/
def ioWords (s : State) (part pa n : Nat) : State × List CWord :=
  if isMain pa || isHost pa then ioHome s part pa n else (s, List.replicate n (.poisoned 0#32))

/-- Take an entry's call: read its sheet as a supervisor access, and accept or reject it. -/
def acceptCall (s : State) (part ctx va ix : Nat) : State :=
  match readCall s noCore ctx true 0 (ioRead part) va with
  | (s1, .words ws im) =>
    let st := callStatus s1 ws im
    if st == 0 then appendLaunch s1 (callSheet ws im) ctx part true ix none else rejectLaunch s1 ctx part (callDone ws) st ix
  | (s1, _) => rejectLaunch s1 ctx part 0 6 ix

/-- A distributor takes the next host entry of a partition's queue; none works while the device is idle or its boot has halted
(R472, R473). -/
def execLaunchAccept (part : BitVec 3) (s : State) : Host.Outcome State Fault Refusal :=
  let p := part.toNat
  let q := s.queue p
  if s.host.pwrState != 0#2 || s.host.bootStatus != 0#16 || q.head == q.tail then .next s
  else
    let ix := q.head.toNat % 2 ^ q.log
    let (s1, ws) := ioWords (s.setQueue p { q with head := q.head + 1#32 }) p (q.base.toNat + 16 * ix) 4
    let d := dwsFrom ws
    let ctx := bitsAt (d.getD 1 0) 0 16
    let va := bitsAt (d.getD 0 0) 0 57
    if !sound ws then .next (rejectLaunch s1 ctx p 0 0x06 ix)
    else if (s1.ctx? ctx).map (·.part) != some p then .next (rejectLaunch s1 ctx p 0 0x08 ix)
    else if va % 1024 != 0 then .next (rejectLaunch s1 ctx p 0 0x01 ix)
    else .next (acceptCall s1 p ctx va ix)

/-! ### Which launch a distributor serves (R397) -/

/-- The launch may start: after those before it in its queue, or after its issuing launch. -/
def startable (s : State) (n : Nat) (l : Launch) : Bool :=
  if l.fromHost then !(s.launches.any fun x => decide (x.1 < n) && x.2.part == l.part && x.2.fromHost)
  else match l.after with
    | some a => (s.launch? a).isNone
    | none => true

/-- Units of a launch that a die owns, ascending. -/
def Launch.owned (l : Launch) (die : Nat) : List Nat := (l.unplaced.filter fun u => u.2 == die).map (·.1)

/-- The die has work or may still ask for some. -/
def Launch.servable (l : Launch) (die : Nat) : Bool :=
  !l.unplaced.isEmpty && (!(l.owned die).isEmpty || !l.refused.contains die || l.sheet.coop)

/-- A launch waits for the end of another: of one before it in its queue, or of its issuing launch. -/
def Launch.waitsFor (l : Launch) (n m : Nat) (x : Launch) : Bool :=
  if l.fromHost then decide (m < n) && x.part == l.part && x.fromHost else l.after == some m

/-- An accepted cooperative launch bars every other placement until its one moment (R396), but of the launches that it waits for; of
two, the one accepted first goes first (log 75). -/
def coopBars (s : State) (n : Nat) : Bool :=
  match s.launch? n with
  | none => false
  | some l => s.launches.any fun x => x.1 != n && x.2.sheet.coop && !x.2.unplaced.isEmpty && !x.2.waitsFor x.1 n l &&
      (!l.sheet.coop || decide (x.1 < n))

/-- A distributor may place units of the launch, or ask for some. -/
def mayServe (s : State) (die : Nat) (x : Nat × Launch) : Bool := startable s x.1 x.2 && x.2.servable die && !coopBars s x.1

/-- The host launch of a partition that a distributor may serve: the first in queue order that has units to place. -/
def partHead (s : State) (die part : Nat) : Option Nat :=
  ((s.launches.find? fun x => x.2.part == part && x.2.fromHost && startable s x.1 x.2 && !x.2.unplaced.isEmpty).filter (mayServe s die)).map (·.1)

/-- The host launch that a distributor serves: its current one while it can, else the next by round robin over the partitions. -/
def servedHost (s : State) (die : Nat) (d : Dist) : Option (Nat × Dist) :=
  let keep := d.cur.filter fun n => match s.launch? n with | some l => l.fromHost && mayServe s die (n, l) | none => false
  match keep with
  | some n => some (n, d)
  | none => (List.range 8).findSome? fun i =>
      let p := (d.rr + i) % 8
      (partHead s die p).map fun n => (n, ⟨(p + 1) % 8, some n⟩)

/-- The launch that a distributor serves in this turn: its host launch, or one that `LNCH` placed, which stands outside that order
(R397); the turn picks among them. -/
def servedBy (s : State) (die : Nat) : Option (Nat × Dist) :=
  let d := s.dists.getD die ⟨0, none⟩
  let own := (s.launches.filter fun x => !x.2.fromHost && mayServe s die x).map fun x => (x.1, d)
  let l := (servedHost s die d).toList ++ own
  l[s.pick % l.length]?

/-- Place every unit of a cooperative launch, each on the die of the distributor that owns it. -/
def placeCoop (s : State) (n : Nat) (l : Launch) (hints : List PlaceHint) : Option State :=
  let k := l.sheet.ranks
  if hints.length != l.unplaced.length * k then none
  else (l.unplaced.zip (List.range l.unplaced.length)).foldl (fun s u =>
    let at_ := (hints.drop (u.2 * k)).take k
    if at_.any fun x => dieOf x.core != u.1.2 then none
    else s.bind fun s => placeUnit s n l.sheet u.1.1 at_ []) (some s)

/-- The next live die after a die, in ascending order around (R437). -/
def nextLive (s : State) (die : Nat) : Nat :=
  (((List.range 6).map fun i => (die + 1 + i) % 6).find? (liveDies s).contains).getD die

/-- The die has no workgroup. -/
def dieFree (s : State) (die : Nat) : Bool := !s.wgs.any fun x => x.2.resident && dieOf x.2.core == die

/-- The cores of take 1 of a unit that a die places: on the next live die, or, of a die-bound unit when no other live die is free, on
the same (R437; log 75). -/
def takeOk (s : State) (h : Sheet) (die : Nat) (at1 : List PlaceHint) : Bool :=
  at1.all (fun x => dieOf x.core == nextLive s die) ||
    (h.domain == 4 && at1.all (fun x => dieOf x.core == die) && (liveDies s).all fun k => k == die || !dieFree s k)

/-- Place the lowest unit that a die owns: take 0 on that die. -/
def placeNext (s : State) (die n : Nat) (l : Launch) (at0 at1 : List PlaceHint) : Option (State × Launch) :=
  if l.sheet.coop then (placeCoop s n l at0).map fun s1 => (s1, { l with unplaced := [] })
  else
    match (l.owned die).min? with
    | none => none
    | some u =>
      if at0.any (fun x => dieOf x.core != die) || !takeOk s l.sheet die at1 then none
      else (placeUnit s n l.sheet u at0 at1).map fun s1 =>
        (s1, { l with unplaced := l.unplaced.filter fun v => v.1 != u, refused := l.refused.filter (· != die) })

def execPlaceDistributedUnit (die : Nat) (at_ at1 : List PlaceHint) (s : State) : Host.Outcome State Fault Refusal :=
  match servedBy s die with
  | none => .next s
  | some (n, d) =>
    match s.launch? n with
    | none => .next s
    | some l =>
      if 6 ≤ die then .next s
      else
        match placeNext s die n l at_ at1 with
        | none => .next s
        | some (s1, l1) => .next { s1.setLaunch n l1 with dists := s1.dists.set die d }

/-- Ask the other live dies in turn for half of their units (R398). -/
def stealFrom (l : Launch) (die : Nat) (asked : List Nat) : Option Launch :=
  (asked.find? fun k => decide (2 ≤ (l.owned k).length)).map fun k =>
    let mine := ascending (l.owned k)
    let given := mine.drop (mine.length - mine.length / 2)
    { l with
      unplaced := l.unplaced.map fun u => if given.contains u.1 then (u.1, die) else u
      refused := l.refused.filter (· != die) }

def execStealRequest (s : State) : Host.Outcome State Fault Refusal :=
  let die := s.unit
  match servedBy s die with
  | none => .next s
  | some (n, d) =>
    match s.launch? n with
    | none => .next s
    | some l =>
      let live := liveDies s
      if !live.contains die || !(l.owned die).isEmpty || l.refused.contains die then .next s
      else
        let i := live.idxOf die
        let asked := (live.drop (i + 1) ++ live.take i).filter (· != die)
        let l1 := (stealFrom l die asked).getD { l with refused := l.refused ++ [die] }
        .next { s.setLaunch n l1 with dists := s.dists.set die d }

/-! ### Staging and write-back (R389, R391) -/

/-- The agent of a staging copy or a write-back. -/
def stageEng (s : State) (n : Nat) (w : Wg) : Eng := ⟨⟨n, 0⟩, w.core, s.ctxOf w, s.partOf w, false, 3⟩

/-- The two sides of a region: in memory, and in scratchpad. -/
def Region.memSide (g : Region) (write : Bool) : Side := ⟨false, false, write, fun _ => g.va, g.len⟩
def Region.spadSide (g : Region) (write : Bool) : Side := ⟨true, false, write, fun _ => g.soff, g.len⟩

/-- Wait on replayable faults in the slot of thread group 0. -/
def waitStage (s : State) (n : Nat) (w : Wg) (ws : List PageWait) : State :=
  let slot := ((w.tgs[0]?).map (·.slot)).getD 0
  (recordFaults s (s.ctxOf w) 1 slot w.core ws).updWg n fun w => { w with stageWait := mergeWaits ws }

/-- The copy network fails once, and the chunk is read again, or twice (R127). -/
def stageNet (s : State) (w : Wg) : State × Bool :=
  match netFails s w.core with
  | none => (s, false)
  | some s1 =>
    let s2 := appendRecord s1 (s.partOf w) 0x42 w.core 0 0 0 0
    match netFails s2 w.core with
    | none => (s2, false)
    | some s3 => (appendRecord s3 (s.partOf w) 0x42 w.core 0 0 0 0, true)

/-- One chunk of a region to scratchpad. -/
def stageChunk (s : State) (n : Nat) (w : Wg) (g : Region) : State :=
  let a := stageEng s n w
  let hi := min g.len (w.cursor + 4096)
  let (s1, src) := sidePieces s a (g.memSide false) w.cursor hi
  match gather src with
  | (some _, _, _) => endWorkgroup s1 n 4
  | (none, [], ps) =>
    let (s2, buf) := readPieces s1 a ps
    let (s3, twice) := stageNet s2 w
    let (s4, bs) := drainBuf s3 a buf
    if twice || bs.any (·.2) then endWorkgroup s4 n 4
    else
      let (s5, dst) := sidePieces s4 a (g.spadSide true) w.cursor hi
      let s6 := writePieces s5 a (gather dst).2.2 w.cursor bs
      s6.updWg n fun w =>
        if hi < g.len then { w with cursor := hi }
        else { w.setGranules true ((List.range (g.len / 16)).map (g.soff / 16 + ·)) with region := w.region + 1, cursor := 0 }
  | (none, ws, _) => waitStage s1 n w ws

def execStagingCopy (s : State) : Host.Outcome State Fault Refusal :=
  match s.wg? s.unit with
  | none => .next s
  | some w =>
    if w.phase != .staging || !w.stageWait.isEmpty || s.stops w then .next s
    else
      match ((s.sheetOf w).map (·.regions)).getD [] |>.drop w.region with
      | g :: _ => .next (stageChunk s s.unit w g)
      | [] => .next (s.setWg s.unit { w with phase := .placed, region := 0 })

/-- The next region is written back no further. -/
def Wg.nextRegion (w : Wg) (status : BitVec 8) : Wg := { w with region := w.region + 1, cursor := 0, status := w.status ||| status }

/-- One chunk of a region back to memory. -/
def writeBackChunk (s : State) (n : Nat) (w : Wg) (g : Region) : State :=
  let a := stageEng s n w
  let hi := min g.len (w.cursor + 4096)
  let (s1, dst) := sidePieces s a (g.memSide true) w.cursor hi
  match gather dst with
  | (some _, _, _) => s1.updWg n fun w => w.nextRegion 8#8
  | (none, [], ps) =>
    let (s2, src) := sidePieces s1 a (g.spadSide false) w.cursor hi
    let (s3, buf) := readPieces s2 a (gather src).2.2
    let (s4, twice) := stageNet s3 w
    let (s5, bs) := drainBuf s4 a buf
    if twice then s5.updWg n fun w => w.nextRegion 8#8
    else
      match engineWrite s5 a ps w.cursor bs with
      | none => reachCommit s n .writeback
      | some s6 => s6.updWg n fun w => if hi < g.len then { w with cursor := hi } else w.nextRegion 0#8
  | (none, ws, _) => waitStage s1 n w ws

/-- The workgroup's regions still to be written back. -/
def regionsLeft (s : State) (w : Wg) : List Region := ((s.sheetOf w).map (·.regions)).getD [] |>.drop w.region

def execExitWriteback (s : State) : Host.Outcome State Fault Refusal :=
  match s.wg? s.unit with
  | none => .next s
  | some w =>
    if w.phase != .writeback || !w.stageWait.isEmpty || s.stops w then .next s
    else
      match regionsLeft s w with
      | g :: _ => .next (if g.wb then writeBackChunk s s.unit w g else s.setWg s.unit (w.nextRegion 0#8))
      | [] => .next s

/-! ### Start and end of a workgroup (R393, R399) -/

/-- Refill the pipes of a core. -/
def refillCore (s : State) (core : Nat) : State := (List.range 4).foldl (fun s p => fillActive s core p 8) s

/-- Its thread groups in the pending set stand ready there from now on (R415). -/
def Wg.started (s : State) (w : Wg) : Wg :=
  { w with phase := .running, tgs := w.tgs.map fun g => if g.active then g else { g with readySince := s.clock.toNat } }

/-- What the start of a workgroup's thread groups brings: the acquire of R340, an empty constant cache (log 9). -/
def startAcquire (s : State) (core : Nat) : State :=
  let s1 := l1Acquire s core
  { s1 with cs := { s1.cs with cc := s1.cs.cc.filter fun x => x.core != core } }

def execWorkgroupStart (s : State) : Host.Outcome State Fault Refusal :=
  match s.wg? s.unit with
  | none => .next s
  | some w =>
    if w.phase != .placed || s.stops w then .next s
    else .next (refillCore ((startAcquire s w.core).setWg s.unit (w.started s)) w.core)

/-- Every thread has exited, and nothing of the workgroup is in flight (R130). -/
def Wg.quiet (w : Wg) : Bool :=
  w.tgs.all fun g => g.allExited && g.phase != .atCut 0#6 && (g.phase == .exiting || g.phase == .ended) && !g.engineWork &&
    g.cntMem == 0 && !g.super

/-- The workgroup has nothing left to do: its exit is a commit point of two-take mode (R341). -/
def toFinish (s : State) (n : Nat) (w : Wg) : State :=
  if w.takeOn then reachCommit (s.setWg n w) n .exits else s.setWg n { w with phase := .finishing }

/-- Count the end of a workgroup in its launch; a take leaves its status to its partner (R399, R443). -/
def countEnd (s : State) (n : Nat) (w : Wg) : State :=
  let s1 := { s with wgs := del s.wgs n }
  match s.launch? w.launch with
  | none => s1
  | some l =>
    let unitDone := !(s1.wgs.any fun x => x.2.launch == w.launch && x.2.unitIx == w.unitIx)
    let left := if unitDone then l.unitsLeft - 1 else l.unitsLeft
    match partnerOf s w with
    | some m => (s1.updWg m fun x => { x with status := x.status ||| w.status }).setLaunch w.launch { l with unitsLeft := left }
    | none => s1.setLaunch w.launch { l with
        unitsLeft := left
        orStatus := l.orStatus ||| w.status
        bad := if w.status == 0#8 then l.bad else min 0xFFFFFFFF (l.bad + 1) }

def execWorkgroupEnd (s : State) : Host.Outcome State Fault Refusal :=
  let n := s.unit
  match s.wg? n with
  | none => .next s
  | some w =>
    match w.phase with
    | .running =>
      if !w.quiet || s.stops w then .next s
      else
        let staged := ((s.sheetOf w).map (·.staged)).getD false
        let w1 := { w with tgs := w.tgs.map (Tg.ended false), phase := .writeback, region := 0, cursor := 0 }
        .next (checkLatch (if staged then s.setWg n w1 else toFinish s n w1) (clusterOf w.core))
    | .writeback =>
      let staged := ((s.sheetOf w).map (·.staged)).getD false
      if (staged && !(regionsLeft s w).isEmpty) || !w.points.isEmpty || s.stops w then .next s else .next (toFinish s n w)
    | .finishing => .next (if w.tgs.all fun g => g.ops.all (·.performed) then refillCore (countEnd s n w) w.core else s)
    | _ => .next s

/-- A launch whose every unit has ended completes: a system-scope release, its record, its event (R340, R400). -/
def execLaunchComplete (s : State) : Host.Outcome State Fault Refusal :=
  match s.launch? s.unit with
  | none => .next s
  | some l =>
    if l.unitsLeft != 0 then .next s
    else
      let s1 := (List.range 384).foldl l1Release s
      let s2 := completionWrite s1 l.ctx l.part l.sheet.cdone (l.orStatus.toNat + 2 ^ 16 * l.bad)
      .next (postEvent { s2 with launches := del s2.launches s.unit } 0x01 l.part l.entryIx)

/-! ### Rotation (R415) -/

/-- A ready pending thread group of a pipe that has waited 8,192 cycles: at 3.6 GHz these are 2,276 counts. -/
def starvedTg (s : State) (core pipe : Nat) : Bool :=
  (s.pendingOn core pipe).any fun r => ((s.tg? r).map fun g => decide (g.readySince + 2276 ≤ s.clock.toNat)).getD false

/-- The thread group longest in the active set. -/
def longestActive (s : State) (core pipe : Nat) : Option TgRef :=
  (s.activeOn core pipe).foldl (fun best r =>
    match best with
    | none => some r
    | some b => if ((s.tg? r).map (·.readySince)).getD 0 < ((s.tg? b).map (·.readySince)).getD 0 then some r else best) none

/-- The thread group longest in a full active set gives up its place between two shots. -/
def execActiveSetRotation (core pipe : Nat) (s : State) : Host.Outcome State Fault Refusal :=
  match longestActive s core pipe with
  | none => .next s
  | some r =>
    match s.tg? r, oldest s (s.pendingOn core pipe) with
    | some g, some q =>
      if (s.activeOn core pipe).length < 8 || !starvedTg s core pipe || g.shot.active || g.phase != .ready then .next s
      else .next (enterActive (s.setTg r { g with active := false, readySince := s.clock.toNat }) core q)
    | _, _ => .next s

end Sys2Proof.Machine
end

