-- ==== Sys2Proof/Machine/Takes.lean ====
section
/-! DEFINITION. Events of two-take execution: the decision of a pair of commit points (R441 to R443), held writes that wait
for an entry (R440), the pairing of atomics (R444). -/

namespace Sys2Proof.Machine

/-! ### Performing held writes (R442) -/

/-- The words and the mask that some held writes leave in one line, the later ones winning. -/
def lineOfHeld (as : List Acc) : Nat × List CWord :=
  as.foldl (fun x a => (Nat.lor x.1 (a.mask * 2 ^ (a.pa % 128)), mergeWords x.2 (a.pa % 128 / 4) a.mask a.data))
    (0, List.replicate 32 .zero)

/-- Drop the copies of a line that the cores of two takes hold. -/
def dropCopies (s : State) (cores : List Nat) (a : Acc) : State :=
  cores.foldl (fun s k =>
    match a.coded with
    | some t => dropDecoded s k t
    | none => if a.page == .host then s else l1Drop s k a.pa) s

/-- Perform held writes at their homes, each line and each decoded set at once. -/
def performHeld (s : State) (part : Nat) (cores : List Nat) (as : List Acc) : State :=
  let core := cores.headD 0
  let s1 := as.foldl (fun s a => dropCopies s cores a) s
  let plain := as.filter fun a => a.coded.isNone
  let place (a : Acc) : Bool × Nat := (a.page == .host, a.pa / 128)
  let s2 := (plain.map place).eraseDups.foldl (fun s k =>
    let (mask, ws) := lineOfHeld (plain.filter fun a => place a == k)
    if k.1 then hostWrite s part core (128 * k.2) mask ws else sendHome s part core (128 * k.2) mask ws) s1
  let (s3, ups) := (as.filter fun a => a.coded.isSome).foldl (fun (x : State × List (CodedTag × CodedWrite)) a =>
    match a.coded with
    | none => x
    | some t =>
      let (s', ins) := carry x.1 (dieOf core) (codedHome x.1 t) 2 (codedSlice x.1 t) part core 0 a.data
      (s', x.2 ++ [(t, ⟨t.line, a.pa % 128 / 4, a.mask, ins⟩)])) (s2, [])
  (codedGroups ups).foldl (fun s g => codedMergeSet s part core g.1 g.2) s3

/-! ### Commit points (R441 to R443) -/

/-- The first commit point that a thread group owes is decided. -/
def Tg.passCommit (g : Tg) : Tg :=
  let g1 : Tg :=
    if !g.super && g.kept.contains .commit then { g with kept := g.kept.erase .commit }
    else if g.shot.waits.contains .commit then { g with shot := { g.shot with waits := g.shot.waits.erase .commit } }
    else if g.kept.contains .commit then { g with kept := g.kept.erase .commit }
    else { g with saved := g.saved.map fun v => { v with shot := { v.shot with waits := v.shot.waits.erase .commit } } }
  { g1 with ops := g1.ops.map fun o => { o with gated := o.gated - 1 } }

/-- Go on past a commit point: a thread group holds or performs what waited for it, and reaches the next that is due; an exit
finishes the workgroup; an engine tries again. -/
def passPoint (s : State) (n : Nat) (x : CommitBy) : State :=
  match x with
  | .tg i =>
    let r : TgRef := ⟨n, i⟩
    let s1 := s.updTg r Tg.passCommit
    let free := ((s1.tg? r).map fun g => g.ops.filter fun o => o.gated == 0 && !o.performed).getD []
    let s2 := progress (free.foldl (fun s o => tryHold s r o) s1) r
    match s2.wg? n, s2.tg? r with
    | some w, some g =>
      match g.phase with
      | .atCut _ => if commitDue (s2.engineReads r) w g then reachCommit s2 n (.tg i) else s2
      | _ => s2
    | _, _ => s2
  | .exits => s.updWg n fun w => { w with phase := .finishing }
  | .engine => s
  | .writeback => s

/-- The pair matches: held writes are performed, take 0's bytes over take 1's, and both takes go on. -/
def matchTakes (s : State) (n0 n1 : Nat) (w0 w1 : Wg) (p0 p1 : CommitPt) : State :=
  let s1 := performHeld s (s.partOf w0) [w0.core, w1.core] (w1.held ++ w0.held)
  let past (s : State) (n : Nat) : State := s.updWg n fun w =>
    { w with
      held := [], sig := 0#64, commits := w.commits + 1, points := w.points.drop 1
      -- what is committed is in memory: accesses still to be performed see none of the stores held from now on (R341)
      tgs := w.tgs.map fun g => { g with ops := g.ops.map fun o => { o with mark := 0 } } }
  passPoint (passPoint (past (past s1 n0) n1) n0 p0.by_) n1 p1.by_

/-- The pair does not match: nothing held is performed and both takes end, with a record (R443). -/
def mismatchTakes (s : State) (n0 : Nat) (w0 w1 : Wg) : State :=
  endWorkgroup (appendRecord s (s.partOf w0) 0x70 noCore (clusterOf w0.core) 0 w0.sig.toNat w1.sig.toNat) n0 2

/-- The two takes that a workgroup belongs to, take 0 first. -/
def takesOf (s : State) (n : Nat) : Option (Nat × Nat × Wg × Wg) :=
  match s.wg? n with
  | none => none
  | some w =>
    match partnerOf s w with
    | none => none
    | some m => if w.phase == .saved then none else (s.wg? m).map fun x => if w.take == 0 then (n, m, w, x) else (m, n, x, w)

/-- A place that atomics name. -/
def Acc.place (a : Acc) : Nat × Bool × Option (Nat × Nat) := (a.pa, a.page == .host, a.coded.map fun t => (t.ctx, t.ix))

/-- Atomics that a take has sent to their homes, with thread group, operation and index. -/
def atomsWaiting (w : Wg) : List (Nat × MemOp × Nat × Acc) :=
  (w.tgs.zip (List.range w.tgs.length)).flatMap fun gi => gi.1.ops.flatMap fun o =>
    if o.gated != 0 then []
    else ((o.accs.zip (List.range o.accs.length)).filter fun ai =>
      !ai.1.done && ai.1.isAtomic && ai.1.page != .spad && gi.1.mayPerform o ai.2 ai.1).map fun ai => (gi.2, o, ai.2, ai.1)

/-- One take waits at a commit point, and the other for the partner of an atomic that the first has not sent (R441). -/
def stranded (w x : Wg) : Bool :=
  !w.points.isEmpty && x.points.isEmpty && (atomsWaiting x).any fun b => !(atomsWaiting w).any fun a => a.2.2.2.place == b.2.2.2.place

/-- Both members of the pair of commit points are known, or one cannot come. -/
def execTakeCommitDecide (s : State) : Host.Outcome State Fault Refusal :=
  match takesOf s s.unit with
  | none => .next s
  | some (n0, n1, w0, w1) =>
    match w0.points, w1.points with
    | p0 :: _, p1 :: _ =>
      .next (if w0.sig == w1.sig && (p0.by_ == .exits) == (p1.by_ == .exits) then matchTakes s n0 n1 w0 w1 p0 p1
        else mismatchTakes s n0 w0 w1)
    | _, _ => .next (if stranded w0 w1 || stranded w1 w0 then mismatchTakes s n0 w0 w1 else s)

/-- A take has waited 2^30 counts at a commit point that its partner has not reached. -/
def execTakeCommitTimeout (s : State) : Host.Outcome State Fault Refusal :=
  match takesOf s s.unit with
  | none => .next s
  | some (n0, n1, w0, w1) =>
    let due (n : Nat) (p : CommitPt) : Bool :=
      decide (p.since + 2 ^ 30 ≤ match p.by_ with | .tg i => s.waitNow ⟨n, i⟩ p.since | _ => s.clock.toNat)
    let late (n : Nat) (w x : Wg) : Bool := x.points.isEmpty && (w.points.head?.map (due n)).getD false
    .next (if late n0 w0 w1 || late n1 w1 w0 then mismatchTakes s n0 w0 w1 else s)

/-! ### Entries (R440) -/

/-- The oldest store of a thread group that waits for an entry takes one that has become free. -/
def execRushesEntryFree (r : TgRef) (s : State) : Host.Outcome State Fault Refusal :=
  match s.wg? r.wg, s.tg? r with
  | some w, some g =>
    match g.ops.find? fun o => o.gated != 0 && !o.performed with
    | none => .next s
    | some o =>
      let stores := o.accs.filter fun a => a.isHeld && !a.done
      if !w.takeOn || stores.isEmpty || 3 ≤ scopeCode o.scope || !rushesRoom s w stores then .next s
      else .next (progress (holdOp s r o.id) r)
  | _, _ => .next s

/-! ### Atomics (R444) -/

/-- The atomics of a take at one place that are first in their thread groups. -/
def firstAt (w : Wg) (a : Acc) : List (Nat × MemOp × Nat × Acc) :=
  let here := (atomsWaiting w).filter fun x => x.2.2.2.place == a.place
  (List.range w.tgs.length).filterMap fun i => here.find? fun x => x.1 == i

/-- Both requests are alike: opcode, type, operation, scope, address and operand words with their codes. -/
def alike (o p : MemOp) (a b : Acc) : Bool :=
  a.kind == b.kind && o.dst.isSome == p.dst.isSome && o.scope == p.scope && a.va == b.va && a.data == b.data && a.data2 == b.data2

/-- Requests of two takes meet at the home: performed once, or a mismatch. -/
def execTakeAtomicPair (r : TgRef) (op acc : Nat) (s : State) : Host.Outcome State Fault Refusal :=
  match pendingAcc s r op acc, takesOf s r.wg with
  | some (w, _, o, a), some (n0, n1, w0, w1) =>
    let m := if r.wg == n0 then n1 else n0
    let other := if r.wg == n0 then w1 else w0
    if !a.isAtomic || a.page == .spad || o.gated != 0 || !((firstAt w a).any fun x => x.1 == r.tg && x.2.1.id == op && x.2.2.1 == acc) then
      .next s
    else
      let l := firstAt other a
      match l[Config.freeNat s.tick 0 % max 1 l.length]? with
      | none => .next s
      | some (i, p, ix, b) =>
        if !alike o p a b then .next (mismatchTakes s n0 w0 w1)
        else
          let (s1, ws) := atomicAt (dropCopies s [w0.core, w1.core] a) (s.partOf w) w0.core a
          .next (accDone (accDone s1 r op acc ws) ⟨m, i⟩ p.id ix ws)
  | _, _ => .next s

end Sys2Proof.Machine
end

