-- ==== Sys2Proof/Machine/Preempt.lean ====
section
/-! DEFINITION. Pre-emption: the unit that is saved (R430), accesses in flight at a stop (R431), the save (R431 to R435, R466,
Table 18.4) and the restore (R436). The workgroups of an image stay in the state as saved (log 22). -/

namespace Sys2Proof.Machine

/-! ### Accesses in flight (R431) -/

/-- Perform a pending access, when it may be: not one that waits for a granule, a commit or a partner. -/
def performPending (s : State) (r : TgRef) (op ix : Nat) : State :=
  match pendingAcc s r op ix with
  | none => s
  | some (w, _, o, a) =>
    if o.granule.isSome || o.gated != 0 || (w.takeOn && a.page != .spad && a.kind != .load) then s
    else if a.isAtomic && a.page != .spad then
      let (s1, ws) := atomicAt s (s.partOf w) w.core a
      accDone s1 r op ix ws
    else performNow s r o ix a

/-- A held `LDF` reads when its granules are full. -/
def tryLdf (s : State) (r : TgRef) : State := match execLdfReadPerform r s with | .next t => t | _ => s

/-- Perform, in order, each pending access of a thread group that may be performed. -/
def performPass (s : State) (r : TgRef) : State :=
  let all := ((s.tg? r).map fun g => g.ops.flatMap fun o => (List.range o.accs.length).map fun i => (o.id, i)).getD []
  tryLdf (all.foldl (fun s x => performPending s r x.1 x.2) s) r

/-- Perform all that can be of what a thread group has in flight. -/
def performAll (s : State) (r : TgRef) : State :=
  (List.range (((s.tg? r).map (·.ops.length)).getD 0 + 1)).foldl (fun s _ => performPass s r) s

/-- The results that a thread group has in flight are written, and its calls are queued. -/
def landAll (s : State) (r : TgRef) : State :=
  (((s.tg? r).map (·.ops)).getD []).foldl (fun s o => if o.launch.isSome then launchSheet s r o else landOp s r o.id) s

/-! ### The pre-emption unit (R430) -/

/-- A workgroup that a request may name: on a core and not ended. -/
def Wg.saveable (w : Wg) : Bool := w.phase != .saved && w.phase != .done && w.phase != .finishing

/-- Lowest slot of a workgroup. -/
def Wg.lowSlot (w : Wg) : Nat := ((w.tgs.map (·.slot)).min?).getD 0

/-- Two workgroups of one launch lie in one pre-emption unit: the smallest of a level bound to the cluster or the die, else the
workgroup with its other take. -/
def sameUnit (h : Sheet) (w x : Wg) : Bool :=
  w.launch == x.launch && w.unitIx == x.unitIx &&
    (if h.domain == 2 then w.rank == x.rank
     else match h.clusterSize with
      | some k => w.rank / max 1 k == x.rank / max 1 k
      | none => true)

/-- Workgroups in ascending order of core and slot. -/
def byPlace (l : List (Nat × Wg)) : List (Nat × Wg) :=
  sortBy (fun a b => decide (64 * a.2.core + a.2.lowSlot ≤ 64 * b.2.core + b.2.lowSlot)) l

/-- Workgroups of the unit of a workgroup, in the order of the image (R466). -/
def unitOf (s : State) (w : Wg) : List (Nat × Wg) :=
  match s.sheetOf w with
  | none => []
  | some h => byPlace (s.wgs.filter fun x => x.2.saveable && sameUnit h w x.2)

/-- Bytes of one workgroup's image (R462), and of the image of a unit (R465). -/
def imgSize : Nat := 0x02900000
def unitBytes (n : Nat) : Nat := 4096 + imgSize * n

/-! ### Engine work at the save (Table 18.4) -/

/-- An `MMA` of some workgroups is amid the array steps of a chunk, which it finishes first (R275). -/
def midChunk (s : State) (ws : List (Nat × Wg)) : Bool :=
  ws.any fun x => match headMat s x.2.core with
    | some o => o.kind == .mma && o.cstep != 0 && (ws.any fun y => y.1 == o.issuer.wg) && gangReady s o (s.fellowsOf x.2.core o)
    | none => false

/-- A copy command suspends at its next chunk; a waiter will retry. -/
def CopyCmd.saved (x : CopyCmd) : CopyCmd :=
  match x.phase with
  | .loaded => { x with phase := .active, buf := [] }
  | .waiting => { x with phase := .active, waits := [] }
  | _ => x

/-- A job in progress is abandoned, and starts again (R145). -/
def Job.saved (x : Job) : Job :=
  match x.phase with
  | .active => { x with phase := .queued, defer := none, waits := [] }
  | .waiting => { x with phase := .queued, defer := none, waits := [] }
  | _ => x

/-- A thread group as saved: what it wrote is written, and a wait for a page ends at the instruction boundary. -/
def Tg.saved' (g : Tg) : Tg :=
  { g with
    flights := []
    phase := if g.phase == .faulted then .ready else g.phase
    faults := if g.cancel then g.faults else []
    active := false
    mirror := [] }

/-! ### The save -/

/-- Write words for the I/O die at a physical address; outside main and host memory nothing is written. -/
def ioWrite (s : State) (part pa mask : Nat) (ws : List CWord) : State :=
  if isMain pa then homeWrite s part noCore pa mask ws
  else if isHost pa then hostWrite s part noCore pa mask ws
  else s

/-- The header of an image, and its other bytes, which are not architectural. -/
def writeImage (s : State) (part addr n : Nat) : State :=
  let free := (List.range 14).map fun i => CWord.of (Config.freeWord s.tick i)
  let hi := addr + unitBytes n
  let gone (ln : L2Line) : Bool := ln.coded.isNone && decide (addr + 64 ≤ 128 * ln.line) && decide (128 * ln.line + 128 ≤ hi)
  let s1 := ioWrite s part addr (byteMask 0 64) (dwWords (n + 2 ^ 63) ++ free)
  { s1 with
    mm := { s1.mm with unsettled := ⟨addr + 64, hi, s.tick, false⟩ :: s1.mm.unsettled }
    cs := { s1.cs with l2 := s1.cs.l2.filter fun ln => !gone ln } }

/-- The workgroups that the request in progress names. -/
def requested (s : State) : List (Nat × Wg) :=
  byPlace (s.wgs.filter fun x => x.2.preempt && x.2.saveable)

/-- Ranges of two images overlap. -/
def UnitImage.clashes (x : UnitImage) (addr n : Nat) : Bool :=
  decide (x.addr < addr + unitBytes n) && decide (addr < x.addr + unitBytes x.wgs.length)

/-- Save some workgroups at an address of the save area. -/
def saveUnit (s : State) (ctx addr : Nat) (ws : List (Nat × Wg)) : State :=
  let refs := ws.flatMap fun x => x.2.refs x.1
  let mine (r : TgRef) : Bool := ws.any fun x => x.1 == r.wg
  let cores := (ws.map (·.2.core)).eraseDups
  let part := ((ws.head?).map fun x => s.partOf x.2).getD 0
  let s1 := refs.foldl landAll (refs.foldl performAll s)
  let s3 := cores.foldl l1Release s1
  let image : UnitImage := {
    ctx := ctx, addr := addr, time := s.clock.toNat
    wgs := ws.map fun x => (x.1, ((s3.wg? x.1).map (·.phase)).getD x.2.phase)
    copies := cores.flatMap fun k => ((s3.core k).copyq.filter fun x => mine x.issuer).map CopyCmd.saved
    chains := cores.flatMap fun k => (s3.core k).chains.filter fun x => mine x.issuer
    runs := cores.flatMap fun k => (s3.core k).runs.filter fun x => mine x.1
    mats := cores.flatMap fun k => (s3.core k).matq.filter fun x => mine x.issuer
    jobs := (cores.map clusterOf).eraseDups.flatMap fun k => ((s3.cluster k).jobs.filter fun x => mine x.issuer).map Job.saved
    latch := (cores.map clusterOf).eraseDups.flatMap fun k => (s3.cluster k).latch.filter fun x => mine x.ref }
  let s4 := cores.foldl (fun s k =>
    let q := s.core k
    s.setCore k { q with
      copyq := q.copyq.filter fun x => !mine x.issuer
      chains := q.chains.filter fun x => !mine x.issuer
      runs := q.runs.filter fun x => !mine x.1
      matq := q.matq.filter fun x => !mine x.issuer }) s3
  let s5 := (cores.map clusterOf).eraseDups.foldl (fun s k =>
    let q := s.cluster k
    s.setCluster k { q with jobs := q.jobs.filter (fun x => !mine x.issuer), latch := q.latch.filter fun x => !mine x.ref }) s4
  let s6 := ws.foldl (fun s x => s.updWg x.1 fun w =>
    { w with phase := .saved, preempt := false, stageWait := [], tgs := w.tgs.map Tg.saved' }) s5
  let s7 := writeImage { s6 with images := s6.images.filter (fun x => !x.clashes addr ws.length) ++ [image] } part addr ws.length
  cores.foldl (fun s k => refillCore ((((s.core k).matq.take 16).map (·.issuer)).foldl freeEnter s) k) s7

/-- Address of the image that CTXARG names in a context's save area (R466). -/
def imageAddr (s : State) (c : Context) : Nat := c.saveBase + bitsAt s.host.ctxArg.toNat 12 28 * 4096

/-- A thread group of the unit is in supervisor mode. -/
def anySuper (ws : List (Nat × Wg)) : Bool := ws.any fun x => x.2.tgs.any (·.super)

/-- The pre-emption in progress: its context and workgroups. -/
def preempting (s : State) : Option (Nat × Context × List (Nat × Wg)) :=
  match s.host.cmd with
  | some c => if c.op == 3 then (s.ctx? c.ctx).map fun k => (c.ctx, k, requested s) else none
  | none => none

/-- Carry out the pre-emption in progress; when its workgroups have ended meanwhile, it names none. -/
def carryOut (s : State) (x : Nat × Context × List (Nat × Wg)) : State :=
  if x.2.2.isEmpty then endCommand s 1#3 else endCommand (saveUnit s x.1 (imageAddr s x.2.1) x.2.2) 0#3

/-- The unit is saved, unless a thread group of it is in supervisor mode (R435) or an `MMA` of it is amid a chunk (R275). -/
def execPreemptSave (s : State) : Host.Outcome State Fault Refusal :=
  match preempting s with
  | some x => .next (if anySuper x.2.2 || midChunk s x.2.2 then s else carryOut s x)
  | none => .next s

/-- After 1,000,000 counts the thread groups in supervisor mode are saved in their handler (R435). -/
def execPreemptHoldTimeout (s : State) : Host.Outcome State Fault Refusal :=
  match preempting s with
  | some x =>
    let late := x.2.2.all fun y => decide (y.2.preemptSince + 1000000 ≤ s.clock.toNat)
    .next (if anySuper x.2.2 && late && !midChunk s x.2.2 then carryOut s x else s)
  | none => .next s

/-- A request for the save of the unit of a workgroup (R430, R465). -/
def execCtxcmdPreempt (ctx : BitVec 16) (core : BitVec 9) (slot : BitVec 6) (s : State) : Host.Outcome State Fault Refusal :=
  if s.host.cmd.isSome then .next s
  else
    let named := s.wgs.find? fun x => x.2.saveable && s.ctxOf x.2 == ctx.toNat && x.2.core == core.toNat &&
      x.2.tgs.any fun g => g.slot == slot.toNat
    match s.ctx? ctx.toNat, named with
    | some c, some (n, w) =>
      let ws := unitOf s w
      if c.saveSize < bitsAt s.host.ctxArg.toNat 12 28 * 4096 + unitBytes ws.length then .next (endCommand s 2#3)
      else
        let s1 := ws.foldl (fun s x => s.updWg x.1 fun w => { w with preempt := true, preemptSince := s.clock.toNat }) s
        .next { s1 with host := { s1.host with cmd := some ⟨3, ctx.toNat, core.toNat, slot.toNat, 0, n⟩ } }
    | _, _ => .next (endCommand s 1#3)

/-! ### The restore (R436) -/

/-- Change every word that the image of a thread group holds. -/
def Tg.mapWords (f : CWord → CWord) (g : Tg) : Tg :=
  let all (m : Sparse CWord) : Sparse CWord := m.map fun kv => (kv.1, f kv.2)
  { g with
    vregs := all g.vregs
    uregs := all g.uregs
    temps := all g.temps
    tops := g.tops
    saved := g.saved.map fun v => { v with temps := all v.temps }
    threads := g.threads.map fun t => { t with linkLo := f t.linkLo, linkHi := f t.linkHi } }

def Tg.imageWords (g : Tg) : List CWord :=
  g.vregs.map (·.2) ++ g.uregs.map (·.2) ++ g.temps.map (·.2) ++ ((g.saved.map fun v => v.temps.map (·.2)).getD []) ++
    g.threads.flatMap fun t => [t.linkLo, t.linkHi]

/-- Words of a workgroup's image that fail their check on the way back. -/
def Wg.badWords (w : Wg) : Nat :=
  countIf (w.tgs.flatMap Tg.imageWords ++ w.spad.map (·.2) ++ w.acc.map (·.2)) fun x => !x.passes

def Wg.mapWords (f : CWord → CWord) (w : Wg) : Wg :=
  let all (m : Sparse CWord) : Sparse CWord := m.map fun kv => (kv.1, f kv.2)
  { w with tgs := w.tgs.map (Tg.mapWords f), spad := all w.spad, acc := all w.acc }

/-- The page that takes the place of a page. -/
def newPage (old new : List Nat) (p : Nat) : Nat := if old.contains p then new.getD (old.idxOf p) p else p

def Tile.repage (old new : List Nat) (t : Tile) : Tile := { t with pages := t.pages.map (newPage old new) }

/-- Accumulator words under new pages. -/
def repageAcc (old new : List Nat) (m : Sparse CWord) : Sparse CWord :=
  m.foldl (fun a kv => put .zero a (4096 * newPage old new (kv.1 / 4096) + kv.1 % 4096) kv.2) []

/-- A workgroup in its new place, after a time saved (R280, R436, R441, R446). -/
def Wg.placed (w : Wg) (ph : WgPhase) (core order away : Nat) (p : Spot) : Wg :=
  { w with
    core := core
    base := p.base
    phase := ph
    pages := p.pages
    tiles := w.tiles.map fun t => t.map (Tile.repage w.pages p.pages)
    acc := repageAcc w.pages p.pages w.acc
    points := w.points.map fun x => { x with since := x.since + away }
    tgs := (w.tgs.zip (List.range w.tgs.length)).map fun gi => { gi.1 with
      slot := p.slots.getD gi.2 0
      order := order + gi.2
      mirror := if gi.1.mirrored then gi.1.vregs else []
      debugAt := gi.1.debugAt + away } }

/-- Place a workgroup of an image again; its words are checked on the way (Table 15.10, code 13). -/
def restoreWg (s : State) (x : Nat × WgPhase) (hint : PlaceHint) (away : Nat) : Option State :=
  match s.wg? x.1 with
  | none => none
  | some w =>
    match s.sheetOf w with
    | none => none
    | some h =>
      (spotOn s h w.mirrored hint).map fun p =>
        let s1 := (List.range w.badWords).foldl (fun s _ =>
          appendRecord s (s.partOf w) 0x01 hint.core (clusterUnit hint.core) 0 13 0) s
        enterPlaced (s1.setWg x.1 ((w.mapWords CWord.entered).placed x.2 hint.core (nextOrder s) away p)) x.1

/-- The places of restored workgroups agree with the bindings of their launch: one instance of each domain (R376), and takes in
different clusters (R437). -/
def restoredOk (s : State) (h : Sheet) (ns : List Nat) : Bool :=
  let live := s.wgs.filter fun x => x.2.saveable
  let ws := live.filter fun x => ns.contains x.1
  ws.all fun a => live.all fun b =>
    a.2.launch != b.2.launch || a.2.unitIx != b.2.unitIx ||
      (if a.2.take != b.2.take then clusterOf a.2.core != clusterOf b.2.core
       else if h.domain == 2 then true
       else if h.domain == 3 then clusterOf a.2.core == clusterOf b.2.core
       else dieOf a.2.core == dieOf b.2.core && (!sameUnit h a.2 b.2 || h.clusterSize.isNone || clusterOf a.2.core == clusterOf b.2.core))

/-- Queue entries of a core are all different and exist. -/
def entriesOk (q : CoreSt) : Bool :=
  let l := (q.copyq.filter (·.accepted)).map (·.eslot)
  l.eraseDups.length == l.length && decide (l.length ≤ 32)

/-- A matrix operation under the pages of its workgroup in its new place. -/
def repageOp (s0 s : State) (o : MatOp) : MatOp :=
  match s0.wg? o.issuer.wg, s.wg? o.issuer.wg with
  | some old, some w => { o with tile := o.tile.map (Tile.repage old.pages w.pages) }
  | _, _ => o

/-- Engine work of an image returns to the queues of a core, in the order that it had (Table 18.4). -/
def restoreCore (s0 : State) (im : UnitImage) (s : State) (k : Nat) : State :=
  let on (r : TgRef) : Bool := ((s.wg? r.wg).map fun w => w.core == k).getD false
  let q := s.core k
  let back := im.copies.filter fun x => on x.issuer
  s.setCore k { q with
    copyq := q.copyq.filter (·.accepted) ++ back.filter (·.accepted) ++ q.copyq.filter (fun x => !x.accepted) ++
      back.filter fun x => !x.accepted
    chains := q.chains ++ im.chains.filter fun x => on x.issuer
    runs := q.runs ++ im.runs.filter fun x => on x.1
    matq := q.matq ++ (im.mats.filter fun x => on x.issuer).map (repageOp s0 s) }

/-- The same for the jobs and the latch of a cluster, after a time saved. -/
def restoreCluster (s0 : State) (im : UnitImage) (away : Nat) (s : State) (k : Nat) : State :=
  let core (r : TgRef) : Nat := ((s.wg? r.wg).map (·.core)).getD 0
  let on (r : TgRef) : Bool := (s.wg? r.wg).isSome && clusterOf (core r) == k
  let q := s.cluster k
  s.setCluster k { q with
    jobs := q.jobs ++ (im.jobs.filter fun x => on x.issuer).map fun x => { x with core := core x.issuer }
    latch := q.latch ++ (im.latch.filter fun x => on x.ref).map fun x => { x with op := repageOp s0 s x.op, since := x.since + away } }

/-- Restored matrix operations that waited on a fault retry once. -/
def retryWaiters (s : State) (ns : List Nat) (core : Nat) : State :=
  ((s.core core).matq.filter fun o => o.state == 3 && ns.contains o.issuer.wg).foldl (fun s o => resumeMat s core o) s

/-- Restore an image at the places named: none when they do not hold it. -/
def restoreUnit (s : State) (im : UnitImage) (hints : List PlaceHint) : Option State :=
  let away := s.clock.toNat - im.time
  let ns := im.wgs.map (·.1)
  if hints.length != im.wgs.length then none
  else
    match (im.wgs.zip hints).foldl (fun s x => s.bind fun s => restoreWg s x.1 x.2 away) (some s) with
    | none => none
    | some s1 =>
      match (ns.head?.bind s.wg?).bind s.sheetOf with
      | none => none
      | some h =>
        let cores := (hints.map (·.core)).eraseDups
        let s2 := (cores.map clusterOf).eraseDups.foldl (restoreCluster s im away) (cores.foldl (restoreCore s im) s1)
        if !restoredOk s1 h ns || !cores.all fun k => entriesOk (s2.core k) then none
        else some (cores.foldl (fun s k => refillCore (retryWaiters (startAcquire s k) ns k) k) s2)

/-- Places of the save area, behind the header of an image in main memory, whose words read as Poison now. -/
def lostWords (s : State) (part addr n : Nat) : State × List Nat :=
  if !isMain addr then (s, [])
  else
    let inside (a : Nat) : Bool := decide (addr + 4096 ≤ a) && decide (a < addr + unitBytes n)
    let errs := s.mm.errs.flatMap fun x => [x.1 / 32 * 32, x.1 / 32 * 32 + 32]
    let held := s.cs.l2.flatMap fun ln => (List.range 4).map (128 * ln.line + 32 * ·)
    let atoms := ((errs ++ s.mm.poison.map (· / 8 * 32) ++ held).filter inside).eraseDups
    atoms.foldl (fun z a =>
      let (s1, ws) := ioWords z.1 part a 8
      (s1, z.2 ++ ((List.range 8).filter fun i => ((ws[i]?).map CWord.bad).getD false).map (a + 4 * ·))) (s, [])

/-- A word of a workgroup's image is lost: which one a place of the save area holds is not stated (log 22). It is restored as Poison. -/
def Wg.loseWord (w : Wg) (h : Sheet) (tick p : Nat) : Wg :=
  let x := CWord.poisoned (Config.freeWord tick p)
  let k := Config.freeNat tick p
  let i := k / 8
  let tg (f : Tg → Tg) : Wg := { w with tgs := updAt w.tgs (i % max 1 w.tgs.length) f }
  match k % 8 with
  | 0 => tg fun g => { g with vregs := put .zero g.vregs (i / 64 % max 1 (64 * h.vregs)) x }
  | 1 => tg fun g => { g with uregs := put .zero g.uregs (i / 64 % max 1 h.uregs) x }
  | 2 => tg fun g => { g with temps := match g.temps[i / 64 % max 1 g.temps.length]? with | some kv => ins g.temps kv.1 x | none => g.temps }
  | 3 => tg fun g => { g with threads := updAt g.threads (i / 64 % 64) fun t => { t with linkLo := x } }
  | 4 => tg fun g => { g with threads := updAt g.threads (i / 64 % 64) fun t => { t with linkHi := linkHalf x } }
  | 5 => if h.spadBytes == 0 then w else { w with spad := put .zero w.spad (i % max 1 (h.spadBytes / 4)) x }
  | 6 => if w.pages.isEmpty then w else { w with acc := put .zero w.acc (4096 * w.pages.getD (i / 4096 % max 1 w.pages.length) 0 + i % 4096) x }
  | _ => w

/-- Lose the words that the save area no longer holds, each of the workgroup whose image it lies in. -/
def loseWords (s : State) (im : UnitImage) (ps : List Nat) : State :=
  ps.foldl (fun s p =>
    match im.wgs[(p - im.addr - 4096) / imgSize]? with
    | none => s
    | some x => s.updWg x.1 fun w => match s.sheetOf w with | some h => w.loseWord h s.tick p | none => w) s

/-- CTXCMD takes a restore of a context: no operation runs, or a register write has begun this one (log 42). -/
def mayRestore (s : State) (ctx : Nat) : Bool :=
  match s.host.cmd with
  | none => true
  | some c => c.op == 4 && c.ctx == ctx

/-- Restore the unit whose image begins where CTXARG says, clearing VALID; it waits while the places do not hold it (log 28). -/
def execCtxcmdRestore (ctx : BitVec 16) (at_ : List PlaceHint) (s : State) : Host.Outcome State Fault Refusal :=
  if !mayRestore s ctx.toNat then .next s
  else
    match s.ctx? ctx.toNat with
    | none => .next (endCommand s 1#3)
    | some c =>
      let addr := imageAddr s c
      let (s1, ws) := ioWords s c.part addr 2
      let dw := (dwsFrom ws).getD 0 0
      match s1.images.find? fun x => x.ctx == ctx.toNat && x.addr == addr && sound ws && dw.testBit 63 && bitsAt dw 0 32 == x.wgs.length with
      | none => .next (endCommand s1 4#3)
      | some im =>
        let (s2, lost) := lostWords s1 c.part addr im.wgs.length
        match restoreUnit (loseWords s2 im lost) im at_ with
        | none => .next s
        | some s2 =>
          let s3 := ioWrite s2 c.part addr (byteMask 0 8) (dwWords (dw - 2 ^ 63))
          .next (endCommand { s3 with images := s3.images.erase im } 0#3)

end Sys2Proof.Machine
end

