-- ==== Sys2Proof/Machine/HostOps.lean ====
section
/-! DEFINITION. What system software does through the host interface (chapter 22): contexts (R463 to R465), stepping and
resuming a thread group (R416, R417, R429), doorbells (R467, R473), the window (R461), links (R471), power (R473), the memory
region table (R50, R51). -/

namespace Sys2Proof.Machine

/-! ### Contexts (R463 to R465) -/

/-- A word read for the host interface; one that is Poison or fails its check is a free value. -/
def soundWord (s : State) (i : Nat) (w : CWord) : CWord := if w.passes && !w.bad then w else .of (Config.freeWord s.tick i)

/-- Create a context from its descriptor. -/
def createContext (s : State) (ctx : Nat) : State :=
  if s.host.ctxCnt.toNat ≤ ctx then endCommand s 1#3
  else
    let (s1, ws) := ioWords s 0 (s.host.ctxBase.toNat + 64 * ctx) 8
    let d := dwsFrom ((ws.zip (List.range 8)).map fun wi => soundWord s wi.2 wi.1)
    let dw (i : Nat) : Nat := d.getD i 0
    endCommand (s1.setCtx ctx
      { root := dw 0 % 2 ^ 52, crtab := dw 1 % 2 ^ 52, saveBase := dw 2 % 2 ^ 52, saveSize := bitsAt (dw 3) 0 32
        part := bitsAt (dw 3) 32 3, debug := (dw 3).testBit 35, counters := [], faults := ⟨[], false⟩ }) 0#3

/-- End a workgroup; one that is saved leaves its launch at once. -/
def endAnywhere (s : State) (n : Nat) : State :=
  match s.wg? n with
  | none => s
  | some w =>
    if w.phase == .saved then countEnd s n { w with status := w.status ||| 1#8 } else endWorkgroup s n 1

/-- Destroy a context: its workgroups end, its decoded lines are flushed. -/
def destroyContext (s : State) (ctx : Nat) : State :=
  match s.ctx? ctx with
  | none => endCommand s 1#3
  | some _ =>
    let s1 := ((s.wgs.filter fun x => s.ctxOf x.2 == ctx).map (·.1)).foldl endAnywhere s
    let s2 := flushContext s1 ctx
    endCommand { s2 with contexts := del s2.contexts ctx, images := s2.images.filter fun x => x.ctx != ctx } 0#3

/-- The thread group of a context in a slot of a core. -/
def tgAt (s : State) (ctx core slot : Nat) : Option TgRef :=
  (s.wgs.find? fun x => x.2.saveable && s.ctxOf x.2 == ctx && x.2.core == core && x.2.tgs.any fun g => g.slot == slot).bind fun x =>
    (x.2.tgs.findIdx? fun g => g.slot == slot).map fun i => ⟨x.1, i⟩

/-- Act on a named thread group, or report that there is none. -/
def onTg (s : State) (ctx core slot : Nat) (f : TgRef → Tg → State) : State :=
  match tgAt s ctx core slot with
  | none => endCommand s 1#3
  | some r => match s.tg? r with | some g => f r g | none => endCommand s 1#3

/-- End a named workgroup (R428). -/
def endNamed (s : State) (ctx core slot : Nat) : State :=
  onTg s ctx core slot fun r _ => endCommand (endWorkgroup s r.wg 1) 0#3

/-- A step begins; BUSY clears when it is done (R464). -/
def beginStep (s : State) (r : TgRef) (g : Tg) (ctx core op t : Nat) (d : Debug) : State :=
  { s.setTg r { g with debug := d } with host := { s.host with cmd := some ⟨op, ctx, core, g.slot, t, r.wg⟩ } }

/-- Step a thread group in the debug state (R416); one that has nothing to issue is refused (log 40). -/
def stepTg (s : State) (ctx core slot : Nat) : State :=
  onTg s ctx core slot fun r g =>
    if g.debug == .off || (!g.shot.active && g.choose.isNone) then endCommand s 3#3 else beginStep s r g ctx core 6 0 .step

/-- The thread may be stepped by itself (R417). -/
def Tg.steppable (g : Tg) (t : Nat) : Bool :=
  g.shot.active ||
    ((g.threads[t]?).map fun x => x.status == .ready).getD false && (match g.serial with | some x => x.running == t | none => true)

/-- Step one thread (R417). -/
def stepThread (s : State) (ctx core slot t : Nat) : State :=
  onTg s ctx core slot fun r g =>
    if g.debug == .off || !g.steppable t then endCommand s 3#3
    else beginStep s r g ctx core 7 t (if g.shot.active then .step else .stepThread t)

/-- Past the `BRK` at which a thread group stands (R429). -/
def Tg.pastBrk (g : Tg) : Tg :=
  match g.brk with
  | some pc =>
    if g.shot.active && g.shot.pc == pc then
      { g.mapThreads g.shot.set fun _ t => { t with pc := pc + 12#57 } with
        shot := { g.shot with count := g.shot.count + 1, pc := pc + 12#57 } }
    else g
  | none => g

/-- Waits of R280 and R441 do not count the time that a thread group has been in the debug state, which it entered at `since`. -/
def excludeDebug (s : State) (r : TgRef) (since : Nat) : State :=
  let later (x : Nat) : Nat := x + (s.clock.toNat - max since x)
  let s1 := s.updWg r.wg fun w => { w with points := w.points.map fun p => if p.by_ == .tg r.tg then { p with since := later p.since } else p }
  let k := clusterOf (((s.wg? r.wg).map (·.core)).getD 0)
  let q := s1.cluster k
  s1.setCluster k { q with latch := q.latch.map fun x => if x.ref == r then { x with since := later x.since } else x }

/-- Resume a thread group from the debug state (R429). -/
def resumeTg (s : State) (ctx core slot : Nat) : State :=
  onTg s ctx core slot fun r g =>
    if g.debug == .off then endCommand s 3#3
    else
      let s1 := excludeDebug (s.setTg r { g.pastBrk with debug := .off, brk := none }) r g.debugAt
      endCommand (wake s1 r) 0#3

/-- An operation of CTXCMD begins only while none is running (R464). -/
def command (s : State) (f : State → State) : State := if s.host.cmd.isSome then s else f s

/-! ### Doorbells and power states (R467, R473) -/

/-- Host traffic returns an idle device to the active state. -/
def wakeUp (s : State) : State := if s.host.pwrState == 1#2 then { s with host := { s.host with pwrState := 0#2 } } else s

/-- A TAIL write (R467). -/
def ringDoorbell (s : State) (part : Nat) (tail : Word) : State :=
  let s1 := wakeUp s
  let q := s1.queue part
  if 2 ^ q.log < (tail - q.head).toNat then postEvent s1 0x09 part part else s1.setQueue part { q with tail := tail }

/-- STATE 0. -/
def powerActive (s : State) : State :=
  { s with host := { s.host with pwrState := if s.host.pwrState == 1#2 then 0#2 else s.host.pwrState, pwrReq := false } }

/-- STATE 1: the request stands until no launch is running or queued. -/
def powerIdle (s : State) : State :=
  if s.host.pwrState == 0#2 then { s with host := { s.host with pwrReq := true } } else s

/-- No launch of any partition is running or queued. -/
def noLaunch (s : State) : Bool := s.launches.isEmpty && s.host.queues.all fun q => q.head == q.tail

/-- End every workgroup (R428). -/
def endAll (s : State) : State := (s.wgs.map (·.1)).foldl endAnywhere s

/-- STATE 2: every workgroup ends and power is removed. -/
def powerOff (s : State) : State :=
  let s1 := endAll s
  { s1 with host := { s1.host with pwrState := 2#2, pwrReq := false } }

/-- A write of the STATE field of PWR. -/
def writePower (s : State) (x : Nat) : State :=
  if x == 0 then powerActive s else if x == 1 then powerIdle s else if x == 2 then powerOff s else s

/-! ### The window (R461) -/

/-- Words of the host at a byte offset within an aligned word. -/
def hostWords (o : Nat) (n : Nat) (bs : List Byte) : List CWord := wordsOfBytes (List.replicate o (0#8, false) ++ (bs.take n).map fun b => (b, false))

/-- Bytes of a doubleword. -/
def dwordBytes (v : BitVec 64) : List Byte := (List.range 8).map fun i => BitVec.ofNat 8 (v.toNat / 256 ^ i)

/-- Device physical address of a window offset. -/
def windowAddr (s : State) (off : BitVec 36) : Nat := s.host.winBase.toNat + off.toNat

/-- Write eight bytes through the window, at the home of each line. -/
def writeWindow (s : State) (off : BitVec 36) (v : BitVec 64) : State :=
  let pa := windowAddr s off
  (lineSplit pa 8).foldl (fun s x =>
    if isMain x.1 then
      homeWrite s 0 noCore (x.1 / 4 * 4) (byteMask (x.1 % 4) x.2) (hostWords (x.1 % 4) x.2 ((dwordBytes v).drop (x.1 - pa)))
    else s) (wakeUp s)

/-- A word that the host reads: Poison, or one that fails its check, reads as all ones with a record. -/
def windowWord (s : State) (pa : Nat) (w : CWord) : State × Word :=
  if w.passes && !w.bad then (s, w.data) else (appendRecord s 0 0x01 noCore 0xC06 pa 12 0, 0xFFFFFFFF#32)

/-- Words that the host reads at an aligned address; outside main memory they read as all ones (log 29). -/
def windowWords (s : State) (pa : Nat) : Nat → State × List Word
  | 0 => (s, [])
  | n + 1 =>
    if isMain pa then
      let (s1, ws) := ioHome s 0 pa 1
      let (s2, x) := windowWord s1 pa (ws.headD .zero)
      let (s3, xs) := windowWords s2 (pa + 4) n
      (s3, x :: xs)
    else
      let (s3, xs) := windowWords s (pa + 4) n
      (s3, 0xFFFFFFFF#32 :: xs)

/-- Read eight bytes through the window. -/
def readWindow (s : State) (off : BitVec 36) : State :=
  let pa := windowAddr s off
  let (s1, ws) := windowWords (wakeUp s) (pa / 4 * 4) ((pa % 4 + 11) / 4)
  let x := ((ws.zip (List.range 3)).map fun wi => wi.1.toNat * 2 ^ (32 * wi.2)).sum
  { s1 with host := { s1.host with winData := BitVec.ofNat 64 (x / 256 ^ (pa % 4)) } }

/-! ### Attestation (R472) -/

/-- Write bytes at a physical address for the I/O die. -/
def ioBytes (s : State) (pa : Nat) (bs : List Byte) : State :=
  (lineSplit pa bs.length).foldl (fun s x =>
    ioWrite s 0 (x.1 / 4 * 4) (byteMask (x.1 % 4) x.2) (hostWords (x.1 % 4) x.2 (bs.drop (x.1 - pa)))) s

/-- The host names the buffer: the report over the nonce is written there (log 18). -/
def attest (s : State) (buf : BitVec 64) : State :=
  ioBytes { s with host := { s.host with attBuf := buf } } buf.toNat (Config.attestReport s.host.attNonce s.host.bootSrc)

/-! ### Links (R471) -/

/-- Change a link. -/
def updLink (s : State) (l : Nat) (f : Link → Link) : State := { s with host := { s.host with links := updAt s.host.links l f } }

/-- Setting EN starts the training. -/
def enableLink (s : State) (l : Nat) : State := updLink s l fun x => if x.en then x else { x with en := true, state := 1 }

/-- Clearing EN takes the link down (log 30). -/
def disableLink (s : State) (l : Nat) : State := updLink s l fun x => { x with en := false, state := 0 }

/-! ### The memory region table (R50, R51) -/

/-- Requests for atoms of some GiB are served before the mode of those atoms changes. -/
def serveIn (s : State) (p : Nat → Bool) : State :=
  ((s.mm.queue.filter fun q => p (q.atom / 2 ^ 30)).map (·.atom)).eraseDups.foldl drainAtom s

/-- Write an entry: atoms whose mode changes become unpredictable. -/
def writeRegion (s : State) (i x : Nat) : State :=
  let v : BitVec 64 := BitVec.ofNat 64 (bitsAt x 0 44 + bitsAt x 62 2 * 2 ^ 62)
  let after : State := { s with mm := { s.mm with regions := s.mm.regions.set i v } }
  let moved := (List.range 768).filter fun g => ganged s (g * 2 ^ 30) != ganged after (g * 2 ^ 30)
  let s1 := serveIn s moved.contains
  { s1 with mm := { s1.mm with
      regions := s1.mm.regions.set i v
      errs := s1.mm.errs.filter fun e => !moved.contains (e.1 / 2 ^ 30)
      unsettled := (moved.map fun g => ⟨g * 2 ^ 30, (g + 1) * 2 ^ 30, s.tick, true⟩) ++ s1.mm.unsettled } }

/-! ### Logs (R470) -/

def popLog (s : State) (part : Nat) : State := { s with logs := updAt s.logs part ErrLog.pop }

end Sys2Proof.Machine
end

