-- ==== Sys2Proof/Machine/HostRegs.lean ====
section
/-! DEFINITION. The register BAR (R7, R8, R460): for each register of the register tables, what a read returns and what a
write does. An offset that no table names reads zero and is ignored when written. -/

namespace Sys2Proof.Machine

/-- Some registers at equal distances: offset of the first, distance, how many; what register `i` reads as, and what a write
does. -/
structure HostReg where
  base : Nat
  stride : Nat
  count : Nat
  read : State → Nat → Nat
  write : State → Nat → Nat → State

/-- A write that has no effect. -/
def noWrite (s : State) (_ _ : Nat) : State := s

/-- A register of which only reading has an effect. -/
def HostReg.ro (base stride count : Nat) (read : State → Nat → Nat) : HostReg := ⟨base, stride, count, read, noWrite⟩

/-- Change the registers of the host interface. -/
def State.setHost (s : State) (f : HostSt → HostSt) : State := { s with host := f s.host }

/-- Change the registers of the defences. -/
def State.setDefs (s : State) (f : DefSt → DefSt) : State := { s with dfs := f s.dfs }

/-- Index of the register of a row at an offset. -/
def HostReg.index (r : HostReg) (off : Nat) : Option Nat :=
  if r.base ≤ off && (off - r.base) % r.stride == 0 && (off - r.base) / r.stride < r.count then some ((off - r.base) / r.stride) else none

/-! ### Discovery, contexts, queues (R462 to R467) -/

/-- Bits `lo` to `lo + n - 1` of a value, in place. -/
def keepBits (x lo n : Nat) : Nat := bitsAt x lo n * 2 ^ lo

/-- Feature words: what was in service at the latest launch (R152). -/
def featWord (s : State) (i : Nat) : Nat :=
  if i == 0 then 0x01FF else if i == 2 then s.host.featGib * 2 ^ 9 + s.host.featCores else 0

/-- A write of CTXCMD with GO (R464). A restore stays busy until the step that says where the unit is placed (log 42). -/
def writeCtxCmd (s : State) (_ x : Nat) : State :=
  let ctx := bitsAt x 0 16
  let core := bitsAt x 31 9
  let slot := bitsAt x 25 6
  if bitsAt x 16 1 == 0 then s
  else command s fun s =>
    match bitsAt x 56 4 with
    | 1 => createContext s ctx
    | 2 => destroyContext s ctx
    | 3 => (match execCtxcmdPreempt (BitVec.ofNat 16 ctx) (BitVec.ofNat 9 core) (BitVec.ofNat 6 slot) s with | .next t => t | _ => s)
    | 4 => if (s.ctx? ctx).isNone then endCommand s 1#3 else s.setHost fun h => { h with cmd := some ⟨4, ctx, 0, 0, 0, 0⟩ }
    | 5 => endNamed s ctx core slot
    | 6 => stepTg s ctx core slot
    | 7 => stepThread s ctx core slot (bitsAt x 40 6)
    | 8 => resumeTg s ctx core slot
    | _ => s

def contextRegs : List HostReg :=
  [.ro 0x0 8 4 featWord,
   .ro 0x20 8 1 fun _ _ => imgSize,
   .ro 0x28 8 1 fun _ _ => Config.serial.toNat,
   ⟨0x10000, 8, 1, fun s _ => s.host.ctxBase.toNat, fun s _ x => s.setHost fun h => { h with ctxBase := BitVec.ofNat 64 (keepBits x 6 46) }⟩,
   ⟨0x10008, 8, 1, fun s _ => s.host.ctxCnt.toNat, fun s _ x => s.setHost fun h => { h with ctxCnt := BitVec.ofNat 16 x }⟩,
   ⟨0x10010, 8, 1, fun s _ => s.host.cmd.isSome.toNat * 2 ^ 63 + s.host.cmdStatus.toNat * 2 ^ 60, writeCtxCmd⟩,
   ⟨0x10018, 8, 1, fun s _ => s.host.ctxArg.toNat, fun s _ x => s.setHost fun h => { h with ctxArg := BitVec.ofNat 64 (keepBits x 12 28) }⟩,
   ⟨0x10100, 32, 8, fun s p => (s.queue p).base.toNat, fun s p x => s.setQueue p { s.queue p with base := BitVec.ofNat 64 (keepBits x 4 48) }⟩,
   ⟨0x10108, 32, 8, fun s p => (s.queue p).log, fun s p x =>
      let n := bitsAt x 0 5
      if 4 ≤ n && n ≤ 16 then s.setQueue p { s.queue p with log := n } else s⟩,
   .ro 0x10110 32 8 fun s p => (s.queue p).head.toNat]

/-! ### Events and logs (R469, R470) -/

/-- Doubleword of the oldest record of a log. -/
def logWord (k : Nat) (s : State) (p : Nat) : Nat := (((s.logs.getD p ⟨[], 0⟩).dws 0).getD k 0#64).toNat

def eventRegs : List HostReg :=
  [⟨0x30000, 8, 1, fun s _ => s.host.evBase.toNat, fun s _ x => s.setHost fun h => { h with evBase := BitVec.ofNat 64 (keepBits x 4 48) }⟩,
   ⟨0x30008, 8, 1, fun s _ => s.host.evLog, fun s _ x => s.setHost fun h => { h with evLog := bitsAt x 0 5 }⟩,
   .ro 0x30010 8 1 fun s _ => s.host.evLost.toNat * 2 ^ 48 + s.host.evTail,
   ⟨0x30018, 8, 1, fun s _ => s.host.evHead.toNat, fun s _ x => s.setHost fun h => { h with evHead := BitVec.ofNat 64 x }⟩,
   .ro 0x30100 64 8 fun s p => (s.logs.getD p ⟨[], 0⟩).count,
   .ro 0x30108 64 8 (logWord 0), .ro 0x30110 64 8 (logWord 1), .ro 0x30118 64 8 (logWord 2), .ro 0x30120 64 8 (logWord 3),
   ⟨0x30128, 64, 8, fun _ _ => 0, fun s p x => if x.testBit 0 then popLog s p else s⟩]

/-! ### Memory, coded regions, partitions, translation (Tables 3.3, 3.5, 4.5, 5.2, 5.6) -/

def memoryRegs : List HostReg :=
  [⟨0x40000, 8, 64, fun s i => (s.mm.regions.getD i 0#64).toNat, writeRegion⟩,
   .ro 0x40400 8 1 fun s _ => s.mm.memcap.toNat,
   ⟨0x40408, 8, 1,
    fun s _ => s.mm.full.toNat * 2 ^ 16 + s.mm.mstate * 2 ^ 14 + s.mm.mseg * 2 ^ 10 + s.mm.mstack * 2 ^ 6 + s.mm.mapouts.length * 2,
    fun s _ x =>
      let s1 := if x.testBit 16 then { s with mm := { s.mm with full := false } } else s
      if x.testBit 0 then ackMapout s1 else s1⟩,
   ⟨0x40410, 8, 1, fun _ _ => 0, fun s _ x => if x.testBit 8 then requestMapout s (bitsAt x 4 4) (bitsAt x 0 4) else s⟩,
   .ro 0x40480 8 16 fun s k => (liveStacks s k).length * 2 ^ 12 + (s.mm.segLive.getD k 0#12).toNat,
   .ro 0x40500 8 12 fun s t => (s.mm.diePend.getD t 0#16).toNat,
   ⟨0x40800, 8, 1, fun s _ => s.cs.crflush.isSome.toNat * 2 ^ 63, fun s _ x => if x.testBit 16 then startFlush s (bitsAt x 0 16) else s⟩]

/-- The fault queue that FQ_SEL selects. -/
def selectedQueue (s : State) : FaultQueue := ((s.ctx? s.host.fqSel.toNat).map (·.faults)).getD ⟨[], false⟩

/-- A doubleword of its oldest record. -/
def faultWord (s : State) (i : Nat) : Nat :=
  match (selectedQueue s).recs with
  | r :: _ => r.dws.getD i 0
  | [] => 0

/-- A weight is written: shares are counted afresh under it (R88). -/
def writeWeight (s : State) (p x : Nat) : State :=
  { s with cs := { s.cs with weight := s.cs.weight.set p (BitVec.ofNat 8 x) }, mm := { s.mm with served := [] } }

def translationRegs : List HostReg :=
  [⟨0x60000, 8, 3072, fun s i => occupancy s (i / 8) (i % 8) * 2 ^ 32 + (waysOf s (i / 8) (i % 8)).toNat,
    fun s i x => setWays s (i % 8) (i / 8) (BitVec.ofNat 16 x)⟩,
   ⟨0x50000, 8, 8, fun _ _ => 0, fun s p x => (List.range 384).foldl (fun s g => setWays s p g (BitVec.ofNat 16 x)) s⟩,
   ⟨0x50040, 8, 8, fun s p => (s.cs.weight.getD p 0#8).toNat, fun s p x => writeWeight s p x⟩,
   ⟨0x50080, 8, 8, fun s p => (s.cs.ceq.getD p 0#6).toNat, fun s p x => { s with cs := { s.cs with ceq := s.cs.ceq.set p (BitVec.ofNat 6 x) } }⟩,
   ⟨0x50100, 8, 1, fun s _ => s.cs.tlbinv.isSome.toNat * 2 ^ 63, fun s _ x => if x.testBit 16 then startInval s (bitsAt x 0 16) (x.testBit 17) else s⟩,
   ⟨0x50108, 8, 1, fun s _ => s.cs.tlbVa.toNat, fun s _ x => { s with cs := { s.cs with tlbVa := BitVec.ofNat 64 (keepBits x 12 45) } }⟩,
   ⟨0x50200, 8, 1, fun s _ => s.host.fqSel.toNat, fun s _ x => s.setHost fun h => { h with fqSel := BitVec.ofNat 16 x }⟩,
   ⟨0x50208, 8, 1, fun s _ => (selectedQueue s).ovf.toNat * 2 ^ 63 + (selectedQueue s).recs.length,
    fun s _ x => if x.testBit 63 then updQueue s fun q => { q with ovf := false } else s⟩,
   .ro 0x50210 8 4 faultWord,
   ⟨0x50230, 8, 1, fun _ _ => 0, fun s _ x => if x.testBit 0 then popFault s else s⟩,
   ⟨0x50238, 8, 1, fun _ _ => 0, fun s _ x => if x.testBit 0 then resumeQueue s (x.testBit 1) else s⟩]

/-! ### Defences (chapter 19) -/

/-- Daily registers of a unit; those of one that has never run are as after reset. -/
def dailyOf (s : State) (u : TestUnit) : Daily := (s.dfs.dailies.find? fun d => d.target == u).getD (Daily.fresh u)

/-- The unit whose daily registers stand at an index of Table 19.5. -/
def coreUnit (i : Nat) : TestUnit := .core (i / 8) (i % 8)
def clusterUnitAt (i : Nat) : TestUnit := .cluster (i / 2) (i % 2)

/-- DW0 of the daily registers. -/
def Daily.dw0 (d : Daily) : Nat := d.fenced.toNat * 2 ^ 63 + d.fails * 2 ^ 32 + d.passes

/-- SLATE_CTL. -/
def slateCtl (s : State) (_ : Nat) : Nat :=
  let d := s.dfs
  d.slTag.toNat * 2 ^ 48 + d.slSrc.toNat * 2 ^ 44 + d.slWpen.toNat * 2 ^ 34 + d.slConten.toNat * 2 ^ 33 + d.slArm.toNat * 2 ^ 32 +
    d.slMissed.toNat

def defenceRegs : List HostReg :=
  [⟨0x70000, 8, 1536, fun s i => (s.core (i / 4)).repair.getD (i % 4) 0, fun s i x =>
      let q := s.core (i / 4)
      s.setCore (i / 4) { q with repair := q.repair.set (i % 4) (bitsAt x 0 32) }⟩,
   .ro 0x74000 16 3072 fun s i => (dailyOf s (coreUnit i)).dw0,
   .ro 0x74008 16 3072 fun s i => (dailyOf s (coreUnit i)).lsig.toNat,
   .ro 0x80000 16 96 fun s i => (dailyOf s (clusterUnitAt i)).dw0,
   .ro 0x80008 16 96 fun s i => (dailyOf s (clusterUnitAt i)).lsig.toNat,
   ⟨0x81000, 8, 1, fun s _ => s.dfs.dailyEn.toNat * 2 ^ 16 + s.dfs.dailyPeriod.toNat,
    fun s _ x => s.setDefs fun d => { d with dailyEn := x.testBit 16, dailyPeriod := BitVec.ofNat 16 x }⟩,
   ⟨0x82000, 8, 1, slateCtl, fun s _ x =>
      s.setDefs fun d => { d with slWpen := x.testBit 34, slConten := x.testBit 33, slArm := x.testBit 32 }⟩,
   ⟨0x82008, 8, 1, fun _ _ => 0, fun s _ x => if x.testBit 16 then fireSlate s 1 (bitsAt x 0 16) else s⟩,
   ⟨0x82010, 16, 4, fun s i => (s.dfs.slWp.getD i (0#64, 0#64)).1.toNat, fun s i x =>
      s.setDefs fun d => { d with slWp := updAt d.slWp i fun p => (BitVec.ofNat 64 (keepBits x 63 1 + keepBits x 0 52), p.2) }⟩,
   ⟨0x82018, 16, 4, fun s i => (s.dfs.slWp.getD i (0#64, 0#64)).2.toNat, fun s i x =>
      s.setDefs fun d => { d with slWp := updAt d.slWp i fun p => (p.1, BitVec.ofNat 64 (keepBits x 0 52)) }⟩,
   .ro 0x83000 8 7 fun s d => (s.dfs.wear.getD d 0#64).toNat]

/-! ### Links, boot, power (R471 to R473) -/

/-- LINK[l]. -/
def linkWord (s : State) (l : Nat) : Nat :=
  match s.host.links[l]? with
  | some x => x.en.toNat + x.state * 2 + x.retrains.toNat * 2 ^ 8 + x.margin.toNat * 2 ^ 16
  | none => 0

/-- PEER[p]. -/
def peerWord (s : State) (p : Nat) : Nat :=
  match s.host.peers[p]? with
  | some x => x.valid.toNat * 2 ^ 63 + x.serial.toNat * 2 ^ 34 + x.ctx.toNat * 2 ^ 18 + x.links.toNat
  | none => 0

def peerFrom (x : Nat) : Peer := ⟨x.testBit 63, BitVec.ofNat 18 x, BitVec.ofNat 16 (x / 2 ^ 18), BitVec.ofNat 14 (x / 2 ^ 34)⟩

def platformRegs : List HostReg :=
  [⟨0x90000, 8, 18, linkWord, fun s l x => if x.testBit 0 then enableLink s l else disableLink s l⟩,
   ⟨0x90100, 8, 16, peerWord, fun s p x => s.setHost fun h => { h with peers := h.peers.set p (peerFrom x) }⟩,
   ⟨0xA0000, 8, 1, fun s _ => s.host.winBase.toNat, fun s _ x => s.setHost fun h => { h with winBase := BitVec.ofNat 64 (keepBits x 36 16) }⟩,
   ⟨0xA0100, 8, 1, fun s _ => s.host.bootSrc.toNat, fun s _ x => s.setHost fun h => { h with bootSrc := BitVec.ofNat 64 x }⟩,
   .ro 0xA0108 8 1 fun s _ => s.host.bootStatus.toNat,
   ⟨0xA0200, 8, 4, fun s i => bitsAt s.host.attNonce.toNat (64 * i) 64, fun s i x => s.setHost fun h => { h with
      attNonce := BitVec.ofNat 256 (h.attNonce.toNat - bitsAt h.attNonce.toNat (64 * i) 64 * 2 ^ (64 * i) + x % 2 ^ 64 * 2 ^ (64 * i)) }⟩,
   ⟨0xA0220, 8, 1, fun s _ => s.host.attBuf.toNat, fun s _ x => attest s (BitVec.ofNat 64 x)⟩,
   ⟨0xA0300, 8, 1, fun s _ => s.host.pwrState.toNat * 2 ^ 16 + s.host.pwrLimit.toNat, fun s _ x =>
      writePower (s.setHost fun h => { h with pwrLimit := BitVec.ofNat 12 x }) (bitsAt x 16 2)⟩,
   .ro 0xA0400 8 7 fun s d => (s.host.therm.getD d 0#64).toNat]

/-! ### Access -/

/-- Every register of the register BAR. -/
def hostRegs : List HostReg :=
  contextRegs ++ eventRegs ++ memoryRegs ++ translationRegs ++ defenceRegs ++ platformRegs

/-- The row and the index of a register. -/
def findReg (off : Nat) : Option (HostReg × Nat) := hostRegs.findSome? fun r => (r.index off).map fun i => (r, i)

/-- What the host reads at an offset. -/
def readReg (s : State) (off : Nat) : Nat := match findReg off with | some (r, i) => r.read s i | none => 0

/-- What a write of the host at an offset does. -/
def writeReg (s : State) (off x : Nat) : State := match findReg off with | some (r, i) => r.write s i x | none => s

end Sys2Proof.Machine
end

