-- ==== Sys2Proof/Machine/Turn.lean ====
section
/-! DEFINITION. What precedes an instruction or event of a step: which turn is next, the disturbances it brings
(log 12), the evictions of the L1 and the TLBs (log 8), the choice of an issue set (R403, R404) and the fetch (R153,
R164). -/

namespace Sys2Proof.Machine

/-! ### Upsets -/

/-- A stored word with errors in its data and code. -/
def CWord.flip (w : CWord) (d : Word) (c : Code) : CWord := ⟨w.data ^^^ d, w.code ^^^ c⟩

/-- Disturb a word of a list. -/
def flipAt (l : List CWord) (i : Nat) (d : Word) (c : Code) : List CWord := updAt l i fun w => CWord.flip w d c

def strikeUpset (s : State) (u : Upset) : State :=
  match u with
  | .reg r k d c => s.updTg r fun g =>
      match k with
      | .v i l => { g with vregs := put .zero g.vregs (64 * i + l) (CWord.flip (g.word k) d c) }
      | .k i l => if g.unwritten (.k i l) then g else g.setWord k (CWord.flip (g.word k) d c)
      | .s _ => g.setWord k (CWord.flip (g.word k) d c)
      | .g _ _ => g
  | .mirror r i l d c => s.updTg r fun g =>
      { g with mirror := put .zero g.mirror (64 * i + l) (CWord.flip (lookD .zero g.mirror (64 * i + l)) d c) }
  | .link r t hi d c => s.updTg r fun g => { g with threads := updAt g.threads t fun x =>
      if hi then { x with linkHi := CWord.flip x.linkHi (d &&& 0x01FFFFFF#32) c } else { x with linkLo := CWord.flip x.linkLo d c } }
  | .spad n i d c => s.updWg n fun w => { w with spad := put .zero w.spad i (CWord.flip (lookD .zero w.spad i) d c) }
  | .granule n i => s.updWg n fun w => { w with gran2 := put false w.gran2 i (!lookD false w.gran2 i) }
  | .accum n i d c => s.updWg n fun w => { w with acc := put .zero w.acc i (CWord.flip (lookD .zero w.acc i) d c) }
  | .l1 core line i d c =>
    let upd (ln : L1Line) : L1Line :=
      if ln.isAt core (128 * line) none then { ln with words := flipAt ln.words i d c } else ln
    { s with cs := { s.cs with l1 := s.cs.l1.map upd } }
  | .l2 line i d c =>
    let upd (ln : L2Line) : L2Line := if ln.holds (128 * line) then { ln with words := flipAt ln.words i d c } else ln
    { s with cs := { s.cs with l2 := s.cs.l2.map upd } }
  | .ccache core va d c =>
    let upd (x : CcWord) : CcWord := if x.core == core && x.va == va then { x with word := CWord.flip x.word d c } else x
    { s with cs := { s.cs with cc := s.cs.cc.map upd } }
  | .atom a sym err =>
    let l := (look? s.mm.errs a).getD []
    { s with mm := { s.mm with errs := ins s.mm.errs a (addError sym err l) } }
  | .copyBuf core entry i d c =>
    let q := s.core core
    s.setCore core { q with copyq := q.copyq.map fun x =>
      if x.accepted && x.eslot == entry then { x with buf := updAt x.buf i fun b => { b with w := CWord.flip b.w d c } } else x }
  | .result .. | .stage .. | .decomp .. | .array .. | .codec .. | .homeAlu .. | .copyNet .. | .copySum .. => { s with strikes := s.strikes ++ [u] }

/-! ### Turns -/

/-- The next turn: the agenda's first, else a free one. -/
def State.nextTurn (s : State) : Option Turn :=
  match s.agenda with
  | t :: _ => some t
  | [] => Config.freeTurn s.tick

/-- The state in which the move of a turn happens. -/
def State.enter (s : State) (t : Turn) : State :=
  let s1 := t.evict.foldl (fun s x => l1Evict s x.1 x.2) { s with agenda := s.agenda.tail, pick := t.pick }
  let keep (e : TlbEntry) : Bool := !t.forget.any fun x => x.1 == e.unit && x.2 == e.page
  let s2 := t.upsets.foldl strikeUpset { s1 with cs := { s1.cs with tlb := s1.cs.tlb.filter keep } }
  { s2 with clock := s2.clock + BitVec.ofNat 64 t.elapsed, unit := t.unit, tick := s2.tick + 1, cur := none }

/-! ### Fetch (R153) -/

/-- What a fetch gives. -/
inductive Fetched where
  | words (ws : List CWord)
  | fault (cause : Nat)
  | wait (w : PageWait)

/-- Fetch words of an instruction, each checked on entry to the fetch buffer (Table 15.10, code 15). -/
def fetch (s : State) (core ctx pt : Nat) (super : Bool) (lane va : Nat) : Nat → State × Fetched
  | 0 => (s, .words [])
  | n + 1 =>
    match translate s core ctx super 3 va 4 with
    | (s1, .fault cause level pte) =>
      if replayable cause then (s1, .wait (pageWait va 3 cause level pte lane)) else (s1, .fault cause)
    | (s1, .to pa page coded) =>
      let (s2, ws) := fetchWords s1 pt core 15 (clusterUnit core) pa page coded 1
      match fetch s2 core ctx pt super lane (va + 4) n with
      | (s3, .words more) => (s3, .words (ws ++ more))
      | r => r

/-- The 96-bit word of three fetched words. -/
def wordOf3 (ws : List CWord) : BitVec 96 := BitVec.ofNat 96 (valOf ws)

/-- Instructions that `CUT` must follow directly (R164, R315, R344). -/
def Instr.needsCut : Instr → Bool
  | .bra .. | .brx .. | .call .. | .callx .. | .ret .. | .exit .. | .join .. | .tret .. | .fence .. | .barw .. | .bars ..
  | .splwFull .. | .splwEmpty .. | .waitc .. | .takeCmt .. => true
  | _ => false

/-- Instructions that a step performs together with their `CUT` (R416). -/
def Instr.stepsWithCut : Instr → Bool
  | .bra .. | .brx .. | .call .. | .callx .. | .ret .. | .exit .. | .join .. | .tret .. | .fence .. => true
  | _ => false

/-- The word decodes to `CUT`. -/
def isCut (ws : List CWord) : Bool := !anyBad ws && (match decode (wordOf3 ws) with | .cut _ _ => true | _ => false)

/-- The thread group may issue when its turn comes: it runs, is ready, in the active set, and nothing is to be taken first. -/
def mayIssue (s : State) (w : Wg) (g : Tg) : Bool :=
  w.runs && g.phase == .ready && (g.super || !s.stops w) && (g.shot.active || g.boundary.isEmpty || g.super || g.debug != .off) &&
    (match g.debug with | .off => g.active | .stopped => false | .closing _ => false | _ => true)

/-- In a round whose last issue stood at `last`, place `a` comes before place `b`. -/
def sooner (last a b : Nat) : Bool := if last < a then decide (b ≤ last) || decide (a < b) else decide (b ≤ last) && decide (a < b)

/-- The active thread groups of the pipe that the round reaches before a given one (R413). -/
def State.ahead (s : State) (core : Nat) (r : TgRef) : List TgRef :=
  let place (q : TgRef) : Nat := ((s.tg? q).map (·.round)).getD 0
  (s.activeOn core (pipeOf r)).filter fun q => sooner ((s.core core).lastRound.getD (pipeOf r) 0) (place q) (place r)

/-- The round skips a thread group: one that may not issue, has no thread to issue with, or whose passes and ST delay are not over
(R407, R413). -/
def State.skips (s : State) (q : TgRef) : Bool :=
  match s.wg? q.wg, s.tg? q with
  | some w, some g => !mayIssue s w g || g.busy != 0 || (!g.shot.active && g.choose.isNone)
  | _, _ => true

/-- It is the thread group's turn; a step of the debug state takes no turn (R413, R416). -/
def State.inTurn (s : State) (core : Nat) (r : TgRef) (g : Tg) : Bool := g.debug != .off || (s.ahead core r).all s.skips

/-- The round goes on from a thread group, one issue after those that it passed. -/
def takeRound (s : State) (core : Nat) (r : TgRef) (g : Tg) : State :=
  if g.debug != .off then s
  else
    let s1 := (s.ahead core r).foldl (fun s q => s.updTg q fun x => { x with busy := x.busy - 1 }) s
    let c := s1.core core
    s1.setCore core { c with lastRound := c.lastRound.set (pipeOf r) g.round }

/-- Open a shot when none is open (R403, R404, R417). -/
def Tg.ensureShot (g : Tg) : Option Tg :=
  if g.shot.active then some g
  else
    match g.debug with
    | .stepThread t => (g.threads[t]?).map fun x => g.open x.pc (maskOf [t])
    | _ => g.choose.map fun ps => g.open ps.1 ps.2

/-- Debug state of a thread group that performs an instruction: a step performs a transfer or a fence and its `CUT` together
(R416). -/
def stepped (d : Debug) (pair : Bool) : Debug :=
  match d with
  | .step => if pair then .pair else .step
  | .stepThread _ => if pair then .pair else .step
  | .pair => .closing true
  | d => d

/-- The environment of a fetch, which precedes decoding. -/
def fetchEnv (s : State) (r : TgRef) (w : Wg) (g : Tg) (l : Launch) : Env :=
  { r := r, w := w, g := g, sheet := l.sheet, set := g.shot.set, part := members g.shot.set, pc := g.shot.pc,
    core := w.core, ctx := l.ctx, pt := l.part, tick := s.tick }

/-- Fetch and decode for a thread group: the instruction to perform, or none when the fetch trapped or waits. -/
def fetchInstr (s : State) (e : Env) : State × Option Instr :=
  let va := e.pc.toNat
  let lane := e.part.headD 0
  let trap (s : State) (c : BitVec 32) : State × Option Instr := (takeTrap s e.r c (maskOf e.part) false, none)
  if va % 4 != 0 then trap s (memCause 0x11 0 3 lane)
  else
    match fetch s e.core e.ctx e.pt e.g.super lane va 3 with
    | (s1, .fault cause) => trap s1 (memCause 0x10 cause 3 lane)
    | (s1, .wait x) => (awaitPages s1 e [x] false, none)
    | (s1, .words ws) =>
      if anyBad ws then trap s1 (checkCause 3 0 7 false 0 (pipeOf e.r) 0 0)
      else
        let i := decode (wordOf3 ws)
        if Instr.needsCut i then
          match fetch s1 e.core e.ctx e.pt e.g.super lane ((va + 12) % 2 ^ 57) 3 with
          | (s2, .wait x) => (awaitPages s2 e [x] false, none)
          | (s2, .fault _) => (s2.updTg e.r fun g => { g with nextCut := false }, some i)
          | (s2, .words next) => (s2.updTg e.r fun g => { g with nextCut := isCut next }, some i)
        else (s1, some i)

/-- The turn of a thread group: the state in which it performs its instruction, with `cur` set; no instruction when
it may not issue, or its fetch trapped or waits. -/
def issueTurn (s : State) (r : TgRef) : State × Option Instr :=
  match s.wg? r.wg, s.tg? r with
  | some w, some g =>
    match s.launchOf w, mayIssue s w g && s.inTurn w.core r g, g.ensureShot with
    | some l, true, some g1 =>
      let s1 := { (takeRound s w.core r g).setTg r { g1 with brk := none } with cur := some r }
      match fetchInstr s1 (fetchEnv s1 r w g1 l) with
      | (s2, none) => (s2, none)
      | (s2, some i) => (s2.updTg r fun g => { g with debug := stepped g.debug (Instr.stepsWithCut i) }, some i)
    | _, _, _ => (s, none)
  | _, _ => (s, none)

/-- The device has no power: nothing but a fundamental reset happens in it (R473). -/
def State.dark (s : State) (m : Move) : Bool := s.host.pwrState == 2#2 && m != .event .fundamentalReset

/-- The state and the instruction or event of a turn. -/
def State.turn (s : State) (t : Turn) : State × Option Instr :=
  if s.dark t.move then ({ s with agenda := s.agenda.tail, tick := s.tick + 1, cur := none }, none)
  else match t.move with
  | .issue r => issueTurn (s.enter t) r
  | .event i => if i.isWord then (s.enter t, none) else (s.enter t, some i)

/-! ### A word placed where the next step fetches it (log 5) -/

/-- One thread group of 16 threads, vector role, with every register. -/
def loaderSheet : Sheet :=
  { levels := [⟨16, 1, 1, 0, 0⟩, ⟨1, 1, 1, 1, 0⟩, ⟨1, 1, 1, 2, 2⟩], coop := false, mirror := false, takes := false,
    staged := false, entry := 0x20000, trapv := 0x20F00, nonce := 0#64, vregs := 256, uregs := 1024, accp := 0, spad := 0,
    ncopy := 0, nmat := 0, nvec := 0, blev := List.replicate 16 2, windows := List.replicate 8 (0, 0), regions := [],
    cdone := 0, image := [] }

/-- Page tables at 0x10000 to 0x14FFF that map the page at 0x20000 to itself, readable, writable and executable. -/
def loaderTables (m : Memory) : Memory :=
  let dw (m : Memory) (a x : Nat) : Memory := wrWords m a (wordsOf 64 x)
  dw (dw (dw (dw (dw m 0x10000 0x11001) 0x11000 0x12001) 0x12000 0x13001) 0x13000 0x14001) 0x14100 0x2001F

/-- Three words at an address. -/
def placeWord (m : Memory) (a : Nat) (w : BitVec 96) : Memory :=
  wrWords m a [w.extractLsb' 0 32, w.extractLsb' 32 32, w.extractLsb' 64 32]

/-- A launch of one thread group on core 0 whose first instruction is a word, a `CUT` after it; the next turn issues
it. -/
def State.load (s : State) (w : BitVec 96) : State :=
  let ctx := freshKey s.contexts
  let l := freshKey s.launches
  let n := freshKey s.wgs
  let mem := placeWord (placeWord (loaderTables s.mm.bytes) 0x20000 w) 0x2000C 0x028007800000002000000000#96
  let wg := Wg.fresh loaderSheet l 0 0 0 0 0 0 [0] [] false
  { s with
    agenda := ⟨0, 0, [], [], [], 0, .issue ⟨n, 0⟩⟩ :: s.agenda
    mm := { s.mm with bytes := mem }
    contexts := ins s.contexts ctx ⟨0x10000, 0, 0, false, 0, 0, [], ⟨[], false⟩⟩
    launches := ins s.launches l ⟨loaderSheet, ctx, 0, true, 0, none, [], 1, 0#8, 0, [], 384, 768⟩
    wgs := ins s.wgs n { wg with phase := .running, tgs := wg.tgs.map fun g => { g with active := true } } }

end Sys2Proof.Machine
end

