-- ==== Sys2Proof/Machine/DefenceEv.lean ====
section
/-! DEFINITION. Events of the defences against silent errors: scheduler rebuilds (R448), dailies (R449, R450), cores that leave
service (R451), wear (R453). -/

namespace Sys2Proof.Machine

/-! ### Fencing (R451) -/

/-- Change the daily registers of a unit. -/
def updDaily (s : State) (u : TestUnit) (f : Daily → Daily) : State :=
  let rest := s.dfs.dailies.filter fun d => d.target != u
  s.setDefs fun d => { d with dailies := rest ++ [f (dailyOf s u)] }

/-- Fence a core. -/
def fenceCore (s : State) (k : Nat) : State := s.setCore k { s.core k with fenced := true }

/-- Cores of a cluster. -/
def coresOf (cluster : Nat) : List Nat := (List.range 8).map (8 * cluster + ·)

/-- Fence a unit: its core, or every core of its cluster. -/
def fenceUnit (s : State) : TestUnit → State
  | .core k _ => fenceCore s k
  | .cluster c _ => (coresOf c).foldl fenceCore s

/-- Fence a unit and mark it. -/
def fenceMarked (s : State) (u : TestUnit) : State := fenceUnit (updDaily s u fun d => { d with fenced := true }) u

/-- The unit exists (Table 19.4). -/
def unitKnown : TestUnit → Bool
  | .core k j => decide (k < 384) && decide (j < 8)
  | .cluster c j => decide (c < 48) && decide (j < 2)

/-- UNIT of a record of a unit, and its CORE (Table 19.8). -/
def unitNum : TestUnit → Nat
  | .core k j => j + 16 * clusterOf k
  | .cluster c j => j + 16 * c
def unitCore : TestUnit → Nat
  | .core k _ => k
  | .cluster _ _ => noCore

/-! ### Scheduler rebuilds (R448) -/

/-- The fourth rebuild of a cluster within 2^30 counts fences it: its two units are marked (log 37). -/
def countRebuild (s : State) (k : Nat) : State :=
  let q := s.cluster k
  let now := s.clock.toNat
  let l := now :: q.rebuilds.filter fun t => decide (now < t + 2 ^ 30)
  let s1 := s.setCluster k { q with rebuilds := l }
  if 4 ≤ l.length then fenceMarked (fenceMarked s1 (.cluster k 0)) (.cluster k 1) else s1

/-- The copy engine of a core suspends: a chunk that is read and not begun to be written is read again (Table 18.4). -/
def suspendCopies (s : State) (k : Nat) : State :=
  let c := s.core k
  s.setCore k { c with copyq := c.copyq.map fun x => if x.phase == .loaded then x.saved else x }

/-- The decompression engine of a cluster suspends: a job in progress starts again. -/
def suspendJobs (s : State) (k : Nat) : State :=
  let q := s.cluster k
  s.setCluster k { q with jobs := q.jobs.map fun x => if x.phase == .active then x.saved else x }

/-- The engines of a cluster whose own control may have held the illegal state suspend, by a free choice, and go on after the rebuild; a
matrix engine goes on at its progress. -/
def suspendEngines (s : State) (cluster : Nat) : State :=
  let s1 := ((liveCores s).filter fun k => clusterOf k == cluster && Config.freeBit s.tick k).foldl suspendCopies s
  if (liveClusters s).contains cluster && Config.freeBit s.tick (384 + cluster) then suspendJobs s1 cluster else s1

/-- A rebuild of a cluster: accesses in flight are performed; workgroups whose table words fail their check are lost. -/
def execSchedulerRebuild (cluster : Nat) (lost : List Nat) (s : State) : Host.Outcome State Fault Refusal :=
  if 48 ≤ cluster then .next s
  else
    let here := s.wgs.filter fun x => x.2.saveable && clusterOf x.2.core == cluster
    let s1 := (here.flatMap fun x => x.2.refs x.1).foldl performAll s
    let s2 := ((here.map (·.1)).filter lost.contains).foldl (fun s n =>
      appendRecord (endWorkgroup s n 1) 0 0x72 noCore cluster 0 0 0) (suspendEngines s1 cluster)
    .next (countRebuild (appendRecord s2 0 0x71 noCore cluster 0 0 0) cluster)

/-! ### Dailies (R449, R450) -/

/-- A thread group of a core may issue. -/
def coreIssues (s : State) (k : Nat) (p : TgRef → Bool) : Bool :=
  s.wgs.any fun x => x.2.core == k && (x.2.refs x.1).any fun r =>
    p r && ((s.tg? r).map fun g => mayIssue s x.2 g).getD false

/-- Accesses of a core are in flight. -/
def coreBusy (s : State) (k : Nat) : Bool := s.wgs.any fun x => x.2.core == k && x.2.tgs.any fun g => g.ops.any fun o => !o.performed

/-- The unit has no work. -/
def unitIdle (s : State) : TestUnit → Bool
  | .core k j =>
    if j < 4 then !coreIssues s k fun r => pipeOf r == j
    else if j == 4 then (s.core k).matq.isEmpty
    else if j == 5 then (s.core k).copyq.isEmpty
    else !coreIssues s k (fun _ => true) && !coreBusy s k
  | .cluster c j =>
    if j == 0 then (s.cluster c).jobs.isEmpty
    else (coresOf c).all fun k => !coreIssues s k (fun _ => true) && !coreBusy s k

/-- Counts of `sr.clock` between two runs of one unit. -/
def dailyPeriod (s : State) : Nat := max 1 s.dfs.dailyPeriod.toNat * 1000000

/-- A run of a unit's structural test begins. -/
def execDailyRun (u : TestUnit) (s : State) : Host.Outcome State Fault Refusal :=
  let d := dailyOf s u
  let due := match d.last with | some t => decide (t + dailyPeriod s ≤ s.clock.toNat) | none => true
  if !unitKnown u || !s.dfs.dailyEn || d.running || !due || !unitIdle s u then .next s
  else .next (updDaily s u fun d => { d with running := true, last := some s.clock.toNat })

/-- A run ends: its signature is compared with the expected one. -/
def execDailyRunComplete (u : TestUnit) (sig : BitVec 64) (s : State) : Host.Outcome State Fault Refusal :=
  let d := dailyOf s u
  if !d.running then .next s
  else
    let diff := sig ^^^ Config.dailyExpected u
    if diff == 0#64 then
      .next (updDaily s u fun d => { d with
        running := false, passes := min 0xFFFFFFFF (d.passes + 1), history := (false :: d.history).take 8 })
    else
      let h := (true :: d.history).take 8
      let fence := d.fenced || decide (3 ≤ countIf h id)
      let s1 := updDaily s u fun d => { d with
        running := false, fails := min 0xFFFFFF (d.fails + 1), lsig := diff, history := h, fenced := fence }
      let s2 := appendRecord s1 0 0x73 (unitCore u) (unitNum u) 0 diff.toNat 0
      .next (if fence then fenceUnit s2 u else s2)

/-- The unit for which a core was fenced. -/
def fencedFor (s : State) (k : Nat) : Option TestUnit :=
  (s.dfs.dailies.find? fun d => d.fenced && match d.target with | .core c _ => c == k | .cluster c _ => c == clusterOf k).map (·.target)

/-- A fenced core that holds no workgroup leaves service. -/
def execCoreLeaveService (s : State) : Host.Outcome State Fault Refusal :=
  let k := s.unit
  let q := s.core k
  if 384 ≤ k || !q.fenced || q.out || s.wgs.any (fun x => x.2.core == k && x.2.resident) then .next s
  else
    let unit := match fencedFor s k with | some u => unitNum u | none => Config.freeNat s.tick 0 % 16 + 16 * clusterOf k
    let s1 := postEvent (s.setCore k { q with out := true }) 0x04 0 k
    .next (appendRecord s1 0 0x74 k unit 0 0 0)

/-! ### Wear (R453) -/

/-- Counts of the first 24 hours after power-on. -/
def firstDay : Nat := 86400 * 10 ^ 9

/-- The WEAR register of a die after an update: reserved bits zero, EOL unknown on the first day, REFM zero on the I/O die. -/
def wearWord (s : State) (die x : Nat) : Nat :=
  let eol := if s.clock.toNat < firstDay then 0xFF else bitsAt x 48 8
  eol * 2 ^ 48 + keepBits x 32 16 + (if die == 6 then 0 else keepBits x 16 16) + bitsAt x 0 16

/-- The hourly update of a die's ageing. -/
def execWearUpdate (die : Nat) (w : BitVec 64) (s : State) : Host.Outcome State Fault Refusal :=
  if 7 ≤ die then .next s
  else
    let old := bitsAt (s.dfs.wear.getD die 0#64).toNat 48 8
    let new := wearWord s die w.toNat
    let s1 := s.setDefs fun d => { d with wear := d.wear.set die (BitVec.ofNat 64 new) }
    .next (if 6 ≤ old && bitsAt new 48 8 < 6 then appendRecord s1 0 0x75 noCore die 0 new 0 else s1)

end Sys2Proof.Machine
end

