-- ==== Sys2Proof/Machine/HostEv.lean ====
section
/-! DEFINITION. Events of the host interface (chapter 22): doorbells, commands of CTXCMD, logs, the window, registers, the slate
trigger. -/

namespace Sys2Proof.Machine

def execDoorbellTail (part : BitVec 3) (tail : Word) (s : State) : Host.Outcome State Fault Refusal :=
  .next (ringDoorbell s part.toNat tail)

def execCtxcmdCreate (ctx : BitVec 16) (s : State) : Host.Outcome State Fault Refusal :=
  .next (command s fun s => createContext s ctx.toNat)

def execCtxcmdDestroy (ctx : BitVec 16) (s : State) : Host.Outcome State Fault Refusal :=
  .next (command s fun s => destroyContext s ctx.toNat)

def execCtxcmdEndWorkgroup (ctx : BitVec 16) (core : BitVec 9) (slot : BitVec 6) (s : State) : Host.Outcome State Fault Refusal :=
  .next (command s fun s => endNamed s ctx.toNat core.toNat slot.toNat)

def execCtxcmdStep (ctx : BitVec 16) (core : BitVec 9) (slot : BitVec 6) (s : State) : Host.Outcome State Fault Refusal :=
  .next (command s fun s => stepTg s ctx.toNat core.toNat slot.toNat)

def execCtxcmdStepThread (ctx : BitVec 16) (core : BitVec 9) (slot thread : BitVec 6) (s : State) : Host.Outcome State Fault Refusal :=
  .next (command s fun s => stepThread s ctx.toNat core.toNat slot.toNat thread.toNat)

def execCtxcmdResume (ctx : BitVec 16) (core : BitVec 9) (slot : BitVec 6) (s : State) : Host.Outcome State Fault Refusal :=
  .next (command s fun s => resumeTg s ctx.toNat core.toNat slot.toNat)

def execLogPop (part : BitVec 3) (s : State) : Host.Outcome State Fault Refusal := .next (popLog s part.toNat)

def execWindowRead (off : BitVec 36) (s : State) : Host.Outcome State Fault Refusal := .next (readWindow s off)

def execWindowWrite (off : BitVec 36) (v : BitVec 64) (s : State) : Host.Outcome State Fault Refusal := .next (writeWindow s off v)

/-- An access that is not of eight aligned bytes is unsupported and has no effect (R460). -/
def execRegisterWrite (off : BitVec 24) (size : Nat) (v : BitVec 64) (s : State) : Host.Outcome State Fault Refusal :=
  .next (if size == 8 && off.toNat % 8 == 0 then writeReg s off.toNat v.toNat else s)

def execSlateFire (tag : BitVec 16) (s : State) : Host.Outcome State Fault Refusal := .next (fireSlate s 1 tag.toNat)

end Sys2Proof.Machine
end

