-- ==== Sys2Proof/Machine/LinkEv.lean ====
section
/-! DEFINITION. Events of the package mesh (R14 to R16) and of the Otaethar links (R141, R471). -/

namespace Sys2Proof.Machine

/-! ### The mesh -/

def MeshLink.fresh : MeshLink := ⟨0, [], false⟩

def meshLink (s : State) (l : Nat) : MeshLink := lookD .fresh s.dfs.mesh l

def setMesh (s : State) (l : Nat) (x : MeshLink) : State := { s with dfs := { s.dfs with mesh := put .fresh s.dfs.mesh l x } }

/-- The first 248 bytes of a flit (Table 1.4). -/
def flitBytes (f : Flit) : List Byte :=
  let code (i : Nat) : Nat := (f.words.getD i .zero).code.toNat
  ((List.range 48).flatMap fun i => (List.range 4).map fun k => byteOf (f.words.getD i .zero).data k) ++
    ((List.range 24).map fun i => BitVec.ofNat 8 (code (2 * i) + 16 * code (2 * i + 1))) ++ f.header

/-- The CRC of the flit holds. -/
def flitOk (f : Flit) : Bool := f.words.length == 48 && f.header.length == 32 && crc64 (flitBytes f) == f.crc

/-- A flit arrives at a router: its CRC is checked before its residues; a flit whose CRC fails is discarded and is to be sent
again. The partition of a flit stands in its header, whose layout the manual does not give (log 20). -/
def execMeshFlitReceive (link : Nat) (router : BitVec 3) (f : Flit) (s : State) : Host.Outcome State Fault Refusal :=
  let m := meshLink s link
  if m.down || 8 ≤ m.fails || 6 < router.toNat then .next s
  else if !flitOk f then .next (setMesh s link { m with fails := m.fails + 1, retry := if m.retry.isEmpty then [f] else m.retry })
  else
    let s1 := setMesh s link { m with fails := 0, retry := [] }
    .next (checkIn s1 5 (0x400 + router.toNat) (Config.freeNat s.tick 0 % 8) noCore 0 f.words).1

/-- After eight consecutive failures the link retrains, its flits kept, or fails for good with the fatal mesh error. -/
def execMeshLinkRetrain (link : Nat) (ok : Bool) (s : State) : Host.Outcome State Fault Refusal :=
  let m := meshLink s link
  if m.down || m.fails < 8 then .next s
  else if ok then .next (setMesh s link { m with fails := 0 })
  else .next (postEvent (setMesh s link { m with down := true }) 0x06 0 (Config.eventInfo 0x06 link 0))

/-! ### Otaethar links -/

/-- The link is one of those of a bound peer, and is up. -/
def carries (s : State) (l p : Nat) : Bool :=
  match s.host.peers[p]?, s.host.links[l]? with
  | some x, some k => x.valid && x.links.getLsbD l && k.state == 2
  | _, _ => false

/-- A frame of a peer arrives: a frame whose CRC fails is sent again; its words are checked, and written in the context that is
bound to the peer. A fault ends the peer's command, and nothing is written. -/
def execLinkFrameReceive (link : Nat) (f : Sys2Proof.Frame) (s : State) : Host.Outcome State Fault Refusal :=
  if !f.crcOk || !carries s link f.peer.toNat || f.words.isEmpty then .next s
  else
    let ctx := ((s.host.peers[f.peer.toNat]?).map (·.ctx.toNat)).getD 0
    match s.ctx? ctx with
    | none => .next s
    | some c =>
      let (s1, ws) := checkIn s 6 (0x800 + link) c.part noCore 0 f.words
      let a : Eng := ⟨⟨0, 0⟩, noCore, ctx, c.part, false, 6⟩
      let (s2, ps) := placeAll s1 (fun s x => placeBytes s a 5 (fun _ => true) x.1 x.2 (x.1 - f.va.toNat))
        (lineSplit f.va.toNat (4 * ws.length))
      match gather ps with
      | (none, [], qs) => .next (writePieces s2 a qs 0 (bytesOf ws))
      | _ => .next s2

def execLinkEnable (s : State) : Host.Outcome State Fault Refusal := .next (enableLink s s.unit)

/-- Training ends. -/
def execLinkTrainingDone (link : Nat) (ok : Bool) (margin : BitVec 16) (s : State) : Host.Outcome State Fault Refusal :=
  match s.host.links[link]? with
  | none => .next s
  | some x =>
    if x.state != 1 then .next s
    else .next (postEvent (updLink s link fun x => { x with state := if ok then 2 else 3, margin := margin }) (if ok then 0x07 else 0x08) 0 link)

/-- A chunk of a `CPYX` in its write phase goes over the link: surely when no other link to its peer is up (R141). -/
def overLink (s : State) (core l : Nat) (x : CopyCmd) : Bool :=
  match x.peer with
  | none => false
  | some p =>
    mayCommit s core x && carries s l p &&
      (!((List.range 18).any fun k => k != l && carries s k p) || Config.freeBit s.tick (32 * core + x.eslot))

/-- A link fails to retrain: the chunks in progress on it end their commands. -/
def execLinkFailure (s : State) : Host.Outcome State Fault Refusal :=
  let l := s.unit
  match s.host.links[l]? with
  | none => .next s
  | some x =>
    if x.state != 2 then .next s
    else
      let cut := (liveCores s).flatMap fun k => ((s.core k).copyq.filter (overLink s k l)).map fun x => (k, x.eslot)
      let s1 := updLink s l fun x => { x with state := 3 }
      .next (postEvent (cut.foldl (fun s ke => finishCopy s ke.1 ke.2 0x06) s1) 0x08 0 l)

/-- A link retrains after CRC failures; the count has eight bits, and the manual does not say what follows 255 (log 31). -/
def execOtaetharLinkRetrain (s : State) : Host.Outcome State Fault Refusal :=
  match s.host.links[s.unit]? with
  | none => .next s
  | some x =>
    if x.state != 2 then .next s
    else
      let n := if x.retrains == 255#8 then BitVec.ofNat 8 (Config.freeNat s.tick 0) else x.retrains + 1#8
      .next (updLink s s.unit fun x => { x with retrains := n })

end Sys2Proof.Machine
end

