-- ==== Sys2Proof/Machine/MemoryEv.lean ====
section
/-! DEFINITION. Events of homes, page walkers, memory controllers and the host's memory-management registers (R42 to R57, R70,
R80, R83, R85, R90, R93 to R97, R162, R310). An event that has nothing to act on changes nothing (log 6). -/

namespace Sys2Proof.Machine

/-! ### Accesses in flight -/

/-- The result of a variable-latency instruction returns (R162); the sheet of an `LNCH` has its own event order (R354). -/
def execVariableLatencyResult (r : TgRef) (op : Nat) (s : State) : Host.Outcome State Fault Refusal :=
  match (s.tg? r).bind fun g => g.ops.find? fun o => o.id == op with
  | some o => .next (if o.launch.isSome then launchSheet s r o else landOp s r op)
  | none => .next s

/-- A load or store arrives at its L2 home (R85): a read of bytes that the L2 does not hold requests its line. -/
def execL2Lookup (r : TgRef) (op acc : Nat) (s : State) : Host.Outcome State Fault Refusal :=
  match pendingAcc s r op acc with
  | none => .next s
  | some (w, _, o, a) =>
    let pt := s.partOf w
    let line := a.pa / 128 * 128
    if a.page == .spad || a.page == .host || a.isAtomic || (w.takeOn && a.isHeld) || (a.coded.isSome && a.isWrite) then .next s
    else if a.coded.isNone && !a.isWrite && !homeHits s line (2 ^ 128 - 1) && fills s pt a.pa then
      .next (homeMiss s pt w.core line)
    else .next (performNow s r o acc a)

/-- A store of a thread group arrives at the home of a coded region and is merged (R70 to R72). -/
def execCodedMerge (r : TgRef) (op acc : Nat) (s : State) : Host.Outcome State Fault Refusal :=
  match pendingAcc s r op acc with
  | none => .next s
  | some (w, _, o, a) =>
    if a.coded.isNone || a.kind != .store || w.takeOn then .next s else .next (performNow s r o acc a)

/-- A global atomic is performed at its home (R310, R312); in two-take mode its pair is (R444). -/
def execHomeAtomic (r : TgRef) (op acc : Nat) (s : State) : Host.Outcome State Fault Refusal :=
  match pendingAcc s r op acc with
  | none => .next s
  | some (w, _, _, a) =>
    if !a.isAtomic || a.page == .spad || a.page == .host || w.takeOn then .next s
    else
      let (s1, ws) := atomicAt s (s.partOf w) w.core a
      .next (accDone s1 r op acc ws)

/-- An access to host memory is performed at the I/O die (R83, R314, R339). -/
def execHostMemoryAccess (r : TgRef) (op acc : Nat) (s : State) : Host.Outcome State Fault Refusal :=
  match pendingAcc s r op acc with
  | none => .next s
  | some (w, _, o, a) =>
    if a.page != .host || (w.takeOn && a.kind != .load) then .next s
    else if a.isAtomic then
      let (s1, ws) := atomicAt s (s.partOf w) w.core a
      .next (accDone s1 r op acc ws)
    else .next (performNow s r o acc a)

/-! ### Translation (R93, R94) -/

/-- A leaf that no use of it can make fault by itself: its partition is the context's, and its address exists (R93, R95). -/
def leafServes (c : Context) (va e level : Nat) : Bool :=
  bitsAt e 58 3 == c.part && (pteCoded e || isHost (leafAddr e level va) || isMain (leafAddr e level va))

/-- A walk for a TLB miss: a leaf is cached, an entry that raises a fault is not. -/
def execPageWalk (core ctx : Nat) (va : BitVec 57) (s : State) : Host.Outcome State Fault Refusal :=
  match s.ctx? ctx with
  | none => .next s
  | some c =>
    if 384 ≤ core || (tlbFind s core ctx va.toNat).isSome then .next s
    else
      match walkFrom s c.part core ctx va.toNat 4 c.root with
      | (s1, .leaf e level) => .next (if leafServes c va.toNat e level then tlbFill s1 core ctx va.toNat e level else s1)
      | (s1, .fault _ _ _) => .next s1

def execTlbinvPage (ctx : BitVec 16) (s : State) : Host.Outcome State Fault Refusal := .next (startInval s ctx.toNat false)

def execTlbinvAll (ctx : BitVec 16) (s : State) : Host.Outcome State Fault Refusal := .next (startInval s ctx.toNat true)

def execTlbinvDone (s : State) : Host.Outcome State Fault Refusal :=
  match s.cs.tlbinv with
  | some x => .next (if invalWaits s x then s else finishInval s x)
  | none => .next s

def execFqPop (s : State) : Host.Outcome State Fault Refusal := .next (popFault s)

def execFqResume (s : State) : Host.Outcome State Fault Refusal := .next (resumeQueue s false)

def execFqCancel (s : State) : Host.Outcome State Fault Refusal := .next (resumeQueue s true)

/-! ### Memory controllers (R42 to R49) -/

/-- Take a request from the controllers' queue and serve it, when none for its atom stands before it (R49) and the bandwidth
weights let it be served (R88). -/
def serveAt (s : State) (i : Nat) (p : McReq → Bool) : State :=
  match s.mm.queue[i]? with
  | none => s
  | some q =>
    let stack := stackOf s q.atom
    if !p q || ((s.mm.queue.take i).any fun x => x.atom == q.atom) || !weightAllows s stack q.part then s
    else countServed (serveReq { s with mm := { s.mm with queue := s.mm.queue.eraseIdx i } } q) stack q.part (competing s stack)

/-- The request writes every byte of its atom. -/
def McReq.full (s : State) (q : McReq) : Bool := maskSub (byteMask 0 (atomBytes s q.atom)) q.mask

def execHbmAtomWrite (s : State) : Host.Outcome State Fault Refusal := .next (serveAt s s.unit fun q => q.write && q.full s)

def execHbmAtomRead (s : State) : Host.Outcome State Fault Refusal := .next (serveAt s s.unit fun q => !q.write)

def execHbmReadModifyWrite (s : State) : Host.Outcome State Fault Refusal := .next (serveAt s s.unit fun q => q.write && !q.full s)

/-! ### Map-out (R54 to R57) -/

/-- A die that has shown enough errors is declared failing, with a record; one already removed or queued, or the last of its
segment, is not queued. -/
def execMapoutDeclare (stack die : Nat) (s : State) : Host.Outcome State Fault Refusal :=
  let key := 16 * stack + die
  if 12 ≤ stack || 16 ≤ die || s.mm.declared.contains key ||
      (lookD 0 s.mm.uncorr key < 8 && lookD 0 s.mm.corr key < 65536) then .next s
  else
    let s1 := if dieTaken s stack die || lastStack s stack die then s else declareDie s stack die
    .next (stackRecord { s1 with mm := { s1.mm with declared := key :: s1.mm.declared } } stack 0 0x14 noCore (lookD 0 s.mm.last key) 0)

def execMapoutReq (stack seg : BitVec 4) (s : State) : Host.Outcome State Fault Refusal := .next (requestMapout s stack.toNat seg.toNat)

/-- The map-out at the head of the queue enters remove-pending; a pending die joins the queue. -/
def execMapoutStart (s : State) : Host.Outcome State Fault Refusal :=
  match s.mm.mapouts with
  | [] => .next s
  | (stack, k) :: rest =>
    if s.mm.mstate != 0 then .next s
    else
      let s1 := { s with mm := { s.mm with mapouts := rest, mstate := 1, mseg := k, mstack := stack } }
      .next (postEvent (joinPending s1) 0x02 0 (Config.eventInfo 0x02 k stack))

def execMapoutAck (s : State) : Host.Outcome State Fault Refusal := .next (ackMapout s)

/-- The rebuild ends: the segment holds zeros, MEMCAP falls by 4 GiB, the hot-remove event is posted. SEG and STACK of MAPOUT keep
their values while idle (log 82). -/
def execMapoutRebuildComplete (s : State) : Host.Outcome State Fault Refusal :=
  if s.mm.mstate != 2 then .next s
  else
    let s0 := serveSegment s s.mm.mseg
    let m := zeroSegment s0.mm s.mm.mseg
    let s1 := { s0 with mm := { m with mstate := 0, memcap := m.memcap - BitVec.ofNat 40 (2 ^ 32) } }
    .next (postEvent s1 0x03 0 (Config.eventInfo 0x03 s.mm.mseg s.mm.mstack))

/-! ### Flushes and partitions (R80, R90) -/

def execCrflush (ctx : BitVec 16) (s : State) : Host.Outcome State Fault Refusal := .next (startFlush s ctx.toNat)

def execCrflushDone (s : State) : Host.Outcome State Fault Refusal :=
  match s.cs.crflush with
  | some ctx => let s1 := flushContext s ctx; .next { s1 with cs := { s1.cs with crflush := none } }
  | none => .next s

def execWaysAll (part : BitVec 3) (ways : BitVec 16) (s : State) : Host.Outcome State Fault Refusal :=
  .next ((List.range 384).foldl (fun s g => setWays s part.toNat g ways) s)

end Sys2Proof.Machine
end

