-- ==== Sys2Proof/Machine/PowerEv.lean ====
section
/-! DEFINITION. Events of power, temperature, reset, boot and attestation (R9, R56, R472, R473). -/

namespace Sys2Proof.Machine

def execPwrStateActive (s : State) : Host.Outcome State Fault Refusal := .next (powerActive s)

def execPwrStateIdle (s : State) : Host.Outcome State Fault Refusal := .next (powerIdle s)

/-- The standing request takes effect. -/
def execPwrEnterIdle (s : State) : Host.Outcome State Fault Refusal :=
  if s.host.pwrReq && s.host.pwrState == 0#2 && noLaunch s then
    .next { s with host := { s.host with pwrState := 1#2, pwrReq := false } }
  else .next s

def execPwrStateOff (s : State) : Host.Outcome State Fault Refusal := .next (powerOff s)

/-- A die reports its temperature, in a layout that the manual does not give. -/
def reportTemp (s : State) (die : Nat) : State :=
  { s with host := { s.host with therm := s.host.therm.set die (BitVec.ofNat 64 (Config.freeNat s.tick die)) } }

/-- The die that the turn names reaches 95 °C: the device throttles, which changes only time. -/
def execThermalThrottle (s : State) : Host.Outcome State Fault Refusal :=
  if 7 ≤ s.unit then .next s else .next (postEvent (reportTemp s s.unit) 0x05 0 (Config.eventInfo 0x05 s.unit 1))

/-- The die reaches 110 °C: every workgroup ends and the device powers off. -/
def execThermalShutdown (s : State) : Host.Outcome State Fault Refusal :=
  if 7 ≤ s.unit then .next s
  else .next (powerOff (postEvent (endAll (reportTemp s s.unit)) 0x05 0 (Config.eventInfo 0x05 s.unit 2)))

/-- Outcome of the boot: which stage failed and by which signature, or that none did (log 17). -/
def bootOutcome (tick : Nat) : BitVec 16 :=
  let by_ := Config.freeNat tick 1 % 3
  if by_ == 0 then 0#16 else BitVec.ofNat 16 (Config.freeNat tick 0 % 256 + 256 * by_)

/-- A fundamental reset: every register at its reset value, main memory unpredictable, the host's memory as it stands; then the
boot. -/
def resetDevice (s : State) : State :=
  let r := State.reset
  let moved := (List.range 768).filter fun g => !ganged s (g * 2 ^ 30)
  { r with
    agenda := s.agenda
    tick := s.tick
    pick := s.pick
    unit := s.unit
    mm := { r.mm with
      bytes := s.mm.bytes.filter fun c => isHost c.1
      unsettled := moved.map (fun g => ⟨g * 2 ^ 30, (g + 1) * 2 ^ 30, s.tick, true⟩) ++ [⟨0, mainTop, s.tick, false⟩] }
    host := { r.host with bootStatus := bootOutcome s.tick } }

def execFundamentalReset (s : State) : Host.Outcome State Fault Refusal := .next (resetDevice s)

/-- The host supplies a nonce and a buffer, and the report is written there (log 18). -/
def execAttestationRequest (nonce : BitVec 256) (buf : BitVec 64) (s : State) : Host.Outcome State Fault Refusal :=
  .next (attest { s with host := { s.host with attNonce := nonce } } buf)

end Sys2Proof.Machine
end

