-- ==== Sys2Proof/Machine/Sync.lean ====
section
/-! DEFINITION. Group 0xD: named barriers and splice rings (R361 to R367). -/

namespace Sys2Proof.Machine

/-- Dissolve the ring of a barrier: each of its barriers becomes plain with E = 1, PH and LSTAT kept (R364). -/
def Wg.dissolve (w : Wg) (b : Nat) : Wg :=
  match (w.barriers[b]?).bind (·.ring) with
  | none => w
  | some (first, len) =>
    { w with barriers := (w.barriers.zip (List.range w.barriers.length)).map fun xi =>
        if first ≤ xi.2 && xi.2 < first + len then { xi.1 with e := 1, arr := 0, stat := 0#8, ring := none }
        else xi.1 }

/-- The effect of `BARI`. -/
def Wg.initBarrier (w : Wg) (b e : Nat) : Wg :=
  let w1 := w.dissolve b
  { w1 with barriers := updAt w1.barriers b fun x => { x with e := e, arr := 0, stat := 0#8 } }

/-- The effect of `SPLI` (R365). -/
def Wg.initRing (w : Wg) (b len ef ee : Nat) : Wg :=
  let w1 := (List.range len).foldl (fun w i => w.dissolve (b + i)) w
  { w1 with barriers := (w1.barriers.zip (List.range w1.barriers.length)).map fun xi =>
      if b ≤ xi.2 && xi.2 < b + len then ⟨xi.1.e, ef, ee, 0, 0#32, 0#8, 0#8, some (b, len)⟩
      else xi.1 }

def execBari (h : Hints) (bar : BitVec 4) (e : BitVec 12) (s : State) : Host.Outcome State Fault Refusal :=
  onceOp s { h := h } noLate fun c => c.s.updWg c.e.r.wg fun w => w.initBarrier bar.toNat e.toNat

def execSpli (h : Hints) (bar len : BitVec 4) (ef ee : BitVec 12) (s : State) : Host.Outcome State Fault Refusal :=
  onceOp s { h := h } noLate fun c => c.s.updWg c.e.r.wg fun w => w.initRing bar.toNat len.toNat ef.toNat ee.toNat

/-- Destination of RD. -/
def rdDst (rd : Option U) : Option (Reg × Nat) := rd.map fun u => (.s u, 1)

/-- Issue an arrival: it is made once every earlier access is performed (R326). -/
def issueArrival (s : State) (r : TgRef) (x : Arrival) (waits : Bool) : State :=
  match s.tg? r with
  | none => s
  | some g =>
    let id := g.nextOp
    let g1 := if waits then g.owe (.arrival id) else g
    let gated := if ((s.wg? r.wg).map (·.takeOn)).getD false then g.commits else 0
    progress (s.setTg r (g1.launchOp { MemOp.blank with arrive := some x, performed := false, gated := gated })) r

/-- Scope of a barrier at an issue. -/
def Ctx.barScope (c : Ctx) (b : Nat) : Nat := barrierScope c.s ((c.s.wg? c.e.r.wg).getD c.e.w) b

def execBarv (h : Hints) (bar : BitVec 4) (rd : Option U) (s : State) : Host.Outcome State Fault Refusal :=
  onceOp s { h := h, dst := rdDst rd } noLate fun c =>
    let sc := c.barScope bar.toNat
    issueArrival (commitPoint c.s c.e.r sc) c.e.r ⟨bar.toNat, sc, rd, none⟩ rd.isSome

def execBarw (h : Hints) (bar : BitVec 4) (b : Opd) (rd : Option U) (s : State) : Host.Outcome State Fault Refusal :=
  onceOp s { h := h, srcs := [(srcB b 1).consumed], dst := rdDst rd, cutAfter := true } noLate fun c =>
    (commitPoint c.s c.e.r (c.barScope bar.toNat)).updTg c.e.r fun g => g.owe (.barrier bar.toNat (BitVec.ofNat 32 (c.uval 0)) rd)

def execBars (h : Hints) (bar : BitVec 4) (rd : Option U) (s : State) : Host.Outcome State Fault Refusal :=
  onceOp s { h := h, dst := rdDst rd, cutAfter := true } noLate fun c =>
    let sc := c.barScope bar.toNat
    issueArrival (commitPoint c.s c.e.r sc) c.e.r ⟨bar.toNat, sc, none, some rd⟩ true

/-! ### Splice rings (R365 to R367) -/

/-- Slot and generation of an iteration: a barrier that does not begin a ring stands for a ring of length 1. -/
def Wg.spliceSlot (w : Wg) (b n : Nat) : Nat × Nat :=
  match (w.barriers[b]?).bind (·.ring) with
  | some (first, len) => if first == b then (b + n % len, n / len) else (b, n)
  | none => (b, n)

def Ctx.spliceSlot (c : Ctx) (bar : BitVec 4) : Nat × Nat := ((c.s.wg? c.e.r.wg).getD c.e.w).spliceSlot bar.toNat (c.uval 0)

/-- The wait of `SPLW` for a target of PH relative to 2g. -/
def splwOp (h : Hints) (bar : BitVec 4) (b : Opd) (rd : Option U) (plus : Nat) (s : State) : Host.Outcome State Fault Refusal :=
  onceOp s { h := h, srcs := [(srcB b 1).consumed], dst := rdDst rd, cutAfter := true } noLate fun c =>
    let (i, g) := c.spliceSlot bar
    c.put (c.tg.owe (.splice i (BitVec.ofNat 32 (2 * g + plus)) rd))

def execSplwEmpty (h : Hints) (bar : BitVec 4) (b : Opd) (rd : Option U) (s : State) : Host.Outcome State Fault Refusal :=
  splwOp h bar b rd 0 s

def execSplwFull (h : Hints) (bar : BitVec 4) (b : Opd) (rd : Option U) (s : State) : Host.Outcome State Fault Refusal :=
  splwOp h bar b rd 1 s

def execSpld (h : Hints) (bar : BitVec 4) (b : Opd) (s : State) : Host.Outcome State Fault Refusal :=
  onceOp s { h := h, srcs := [(srcB b 1).consumed] } noLate fun c =>
    issueArrival c.s c.e.r ⟨(c.spliceSlot bar).1, 2, none, none⟩ false

end Sys2Proof.Machine
end

