-- ==== Sys2Proof/Machine/Dispatch.lean ====
section
/-! DEFINITION. The one arm of each instruction and event: a direct call of its meaning. -/

namespace Sys2Proof.Machine

def exec (i : Instr) (s : State) : Host.Outcome State Fault Refusal :=
  match i with
  | .nop h => Sys2Proof.Machine.execNop h s
  | .bra h off => Sys2Proof.Machine.execBra h off s
  | .brx h a => Sys2Proof.Machine.execBrx h a s
  | .call h sv off => Sys2Proof.Machine.execCall h sv off s
  | .callx h sv a => Sys2Proof.Machine.execCallx h sv a s
  | .ret h ld => Sys2Proof.Machine.execRet h ld s
  | .exit h => Sys2Proof.Machine.execExit h s
  | .rcv h off => Sys2Proof.Machine.execRcv h off s
  | .join h => Sys2Proof.Machine.execJoin h s
  | .cut h b => Sys2Proof.Machine.execCut h b s
  | .cutWaitEnd r => Sys2Proof.Machine.execCutWaitEnd r s
  | .yield h => Sys2Proof.Machine.execYield h s
  | .brk h code => Sys2Proof.Machine.execBrk h code s
  | .trap h code => Sys2Proof.Machine.execTrap h code s
  | .tret h => Sys2Proof.Machine.execTret h s
  | .lnch h after d a => Sys2Proof.Machine.execLnch h after d a s
  | .iadd h ty sat d a b => Sys2Proof.Machine.execIadd h ty sat d a b s
  | .iaddx h ty d co a b ci => Sys2Proof.Machine.execIaddx h ty d co a b ci s
  | .isub h ty sat d a b => Sys2Proof.Machine.execIsub h ty sat d a b s
  | .ineg h ty sat d b => Sys2Proof.Machine.execIneg h ty sat d b s
  | .iabs h ty sat d b => Sys2Proof.Machine.execIabs h ty sat d b s
  | .imin h ty d a b => Sys2Proof.Machine.execImin h ty d a b s
  | .imax h ty d a b => Sys2Proof.Machine.execImax h ty d a b s
  | .imul h ty sat d a b => Sys2Proof.Machine.execImul h ty sat d a b s
  | .imulh h ty d a b => Sys2Proof.Machine.execImulh h ty d a b s
  | .imad h ty d a b c => Sys2Proof.Machine.execImad h ty d a b c s
  | .imadw h ty d a b c => Sys2Proof.Machine.execImadw h ty d a b c s
  | .idiv h ty d a b => Sys2Proof.Machine.execIdiv h ty d a b s
  | .irem h ty d a b => Sys2Proof.Machine.execIrem h ty d a b s
  | .idot4 h ty mix d a b c => Sys2Proof.Machine.execIdot4 h ty mix d a b c s
  | .isad h ty d a b c => Sys2Proof.Machine.execIsad h ty d a b c s
  | .iclamp h ty d a b c => Sys2Proof.Machine.execIclamp h ty d a b c s
  | .lea h ty k d a b => Sys2Proof.Machine.execLea h ty k d a b s
  | .and h w d a b => Sys2Proof.Machine.execAnd h w d a b s
  | .or h w d a b => Sys2Proof.Machine.execOr h w d a b s
  | .xor h w d a b => Sys2Proof.Machine.execXor h w d a b s
  | .andn h w d a b => Sys2Proof.Machine.execAndn h w d a b s
  | .orn h w d a b => Sys2Proof.Machine.execOrn h w d a b s
  | .lop3 h w f0 f1 d a b c => Sys2Proof.Machine.execLop3 h w f0 f1 d a b c s
  | .shl h w wrap d a b => Sys2Proof.Machine.execShl h w wrap d a b s
  | .shr h w wrap d a b => Sys2Proof.Machine.execShr h w wrap d a b s
  | .sar h w wrap d a b => Sys2Proof.Machine.execSar h w wrap d a b s
  | .rol h w d a b => Sys2Proof.Machine.execRol h w d a b s
  | .fsh h left d a b c => Sys2Proof.Machine.execFsh h left d a b c s
  | .popc h w d b => Sys2Proof.Machine.execPopc h w d b s
  | .clz h w d b => Sys2Proof.Machine.execClz h w d b s
  | .ctz h w d b => Sys2Proof.Machine.execCtz h w d b s
  | .brev h w d b => Sys2Proof.Machine.execBrev h w d b s
  | .bfx h ty d a b => Sys2Proof.Machine.execBfx h ty d a b s
  | .bfi h w d a b c => Sys2Proof.Machine.execBfi h w d a b c s
  | .permb h d a b c => Sys2Proof.Machine.execPermb h d a b c s
  | .icmp h ty cmp comb g a b => Sys2Proof.Machine.execIcmp h ty cmp comb g a b s
  | .fcmp h ty cmp comb g a b => Sys2Proof.Machine.execFcmp h ty cmp comb g a b s
  | .gset h lut g ga gb => Sys2Proof.Machine.execGset h lut g ga gb s
  | .gsetNz h g b => Sys2Proof.Machine.execGsetNz h g b s
  | .gmov h w n neg d a b => Sys2Proof.Machine.execGmov h w n neg d a b s
  | .sel h w d a b c => Sys2Proof.Machine.execSel h w d a b c s
  | .mov h w d b => Sys2Proof.Machine.execMov h w d b s
  | .rsd h w raw d b => Sys2Proof.Machine.execRsd h w raw d b s
  | .rsdp h w d b => Sys2Proof.Machine.execRsdp h w d b s
  | .rsdq h w g b => Sys2Proof.Machine.execRsdq h w g b s
  | .fadd h ty ma mb d a b => Sys2Proof.Machine.execFadd h ty ma mb d a b s
  | .fsub h ty ma mb d a b => Sys2Proof.Machine.execFsub h ty ma mb d a b s
  | .fmul h ty ma mb d a b => Sys2Proof.Machine.execFmul h ty ma mb d a b s
  | .ffma h ty ma mb mc d a b c => Sys2Proof.Machine.execFfma h ty ma mb mc d a b c s
  | .fmin h ty ma mb d a b => Sys2Proof.Machine.execFmin h ty ma mb d a b s
  | .fmax h ty ma mb d a b => Sys2Proof.Machine.execFmax h ty ma mb d a b s
  | .frnd h ty rm mb d b => Sys2Proof.Machine.execFrnd h ty rm mb d b s
  | .fscl h ty ma d a b => Sys2Proof.Machine.execFscl h ty ma d a b s
  | .fcls h ty d b => Sys2Proof.Machine.execFcls h ty d b s
  | .hadd2 h bf na nb d a b => Sys2Proof.Machine.execHadd2 h bf na nb d a b s
  | .hmul2 h bf na nb d a b => Sys2Proof.Machine.execHmul2 h bf na nb d a b s
  | .hfma2 h bf na nb nc d a b c => Sys2Proof.Machine.execHfma2 h bf na nb nc d a b c s
  | .hmin2 h bf na nb d a b => Sys2Proof.Machine.execHmin2 h bf na nb d a b s
  | .hmax2 h bf na nb d a b => Sys2Proof.Machine.execHmax2 h bf na nb d a b s
  | .qadd4 h q d a b => Sys2Proof.Machine.execQadd4 h q d a b s
  | .qmul4 h q d a b => Sys2Proof.Machine.execQmul4 h q d a b s
  | .qfma4 h q d a b c => Sys2Proof.Machine.execQfma4 h q d a b c s
  | .qmax4 h abs q d a b => Sys2Proof.Machine.execQmax4 h abs q d a b s
  | .dot2 h bf d a b c => Sys2Proof.Machine.execDot2 h bf d a b c s
  | .dot4q h qa qb d a b c => Sys2Proof.Machine.execDot4q h qa qb d a b c s
  | .dotbg h d a b c => Sys2Proof.Machine.execDotbg h d a b c s
  | .rcp h ty d b => Sys2Proof.Machine.execRcp h ty d b s
  | .rsq h ty d b => Sys2Proof.Machine.execRsq h ty d b s
  | .sqrt h ty d b => Sys2Proof.Machine.execSqrt h ty d b s
  | .fdiv h ty d a b => Sys2Proof.Machine.execFdiv h ty d a b s
  | .exp2 h ty d b => Sys2Proof.Machine.execExp2 h ty d b s
  | .log2 h ty d b => Sys2Proof.Machine.execLog2 h ty d b s
  | .sin h ty d b => Sys2Proof.Machine.execSin h ty d b s
  | .cos h ty d b => Sys2Proof.Machine.execCos h ty d b s
  | .tanh h ty d b => Sys2Proof.Machine.execTanh h ty d b s
  | .cvt h dt st d b => Sys2Proof.Machine.execCvt h dt st d b s
  | .cvtiToInt h it ft rm d b => Sys2Proof.Machine.execCvtiToInt h it ft rm d b s
  | .cvtiFromInt h it ft d b => Sys2Proof.Machine.execCvtiFromInt h it ft d b s
  | .cvtnNarrow h nf wf d b => Sys2Proof.Machine.execCvtnNarrow h nf wf d b s
  | .cvtnWiden h nf wf d b => Sys2Proof.Machine.execCvtnWiden h nf wf d b s
  | .qnt h nf gs d a b c => Sys2Proof.Machine.execQnt h nf gs d a b c s
  | .dqnt h nf wf d a b => Sys2Proof.Machine.execDqnt h nf wf d a b s
  | .qscl h nf e d b => Sys2Proof.Machine.execQscl h nf e d b s
  | .qspl h nf d b => Sys2Proof.Machine.execQspl h nf d b s
  | .qsplRec h d a b => Sys2Proof.Machine.execQsplRec h d a b s
  | .pack h sz pos d a b => Sys2Proof.Machine.execPack h sz pos d a b s
  | .unpk h sz pos sx d b => Sys2Proof.Machine.execUnpk h sz pos sx d b s
  | .shfl h mode w seg d a b => Sys2Proof.Machine.execShfl h mode w seg d a b s
  | .vote h form neg ga => Sys2Proof.Machine.execVote h form neg ga s
  | .lred h ty op d b => Sys2Proof.Machine.execLred h ty op d b s
  | .lscn h ty op exc d b => Sys2Proof.Machine.execLscn h ty op exc d b s
  | .mtch h w d b => Sys2Proof.Machine.execMtch h w d b s
  | .rdln h w d a b => Sys2Proof.Machine.execRdln h w d a b s
  | .wrln h w d a b => Sys2Proof.Machine.execWrln h w d a b s
  | .ld h sz mis nt d a b => Sys2Proof.Machine.execLd h sz mis nt d a b s
  | .st h sz mis nt d a b => Sys2Proof.Machine.execSt h sz mis nt d a b s
  | .lda h sz sc d a b => Sys2Proof.Machine.execLda h sz sc d a b s
  | .stl h sz sc d a b => Sys2Proof.Machine.execStl h sz sc d a b s
  | .ldc h sz d n a off => Sys2Proof.Machine.execLdc h sz d n a off s
  | .pref h l1 a b => Sys2Proof.Machine.execPref h l1 a b s
  | .preft h l1 bar a b => Sys2Proof.Machine.execPreft h l1 bar a b s
  | .lds h sz d a b => Sys2Proof.Machine.execLds h sz d a b s
  | .sts h sz d a b => Sys2Proof.Machine.execSts h sz d a b s
  | .ldfKeep h sz d a b => Sys2Proof.Machine.execLdfKeep h sz d a b s
  | .ldfTake h sz d a b => Sys2Proof.Machine.execLdfTake h sz d a b s
  | .ldfReadPerform r => Sys2Proof.Machine.execLdfReadPerform r s
  | .stf h sz d a b => Sys2Proof.Machine.execStf h sz d a b s
  | .grnClr h a b => Sys2Proof.Machine.execGrnClr h a b s
  | .grnSet h a b => Sys2Proof.Machine.execGrnSet h a b s
  | .grnQry h d a b => Sys2Proof.Machine.execGrnQry h d a b s
  | .ldx h sz k d a b => Sys2Proof.Machine.execLdx h sz k d a b s
  | .stx h sz k d a b => Sys2Proof.Machine.execStx h sz k d a b s
  | .atom h ty op sc d a b => Sys2Proof.Machine.execAtom h ty op sc d a b s
  | .atoms h ty op d a b => Sys2Proof.Machine.execAtoms h ty op d a b s
  | .red h ty op sc a b => Sys2Proof.Machine.execRed h ty op sc a b s
  | .redSpad h ty op a b => Sys2Proof.Machine.execRedSpad h ty op a b s
  | .cas h ty sc d a b c => Sys2Proof.Machine.execCas h ty sc d a b c s
  | .cass h ty d a b c => Sys2Proof.Machine.execCass h ty d a b c s
  | .fence h kind sc mask => Sys2Proof.Machine.execFence h kind sc mask s
  | .rngs h spad f a b => Sys2Proof.Machine.execRngs h spad f a b s
  | .rngsT h f th => Sys2Proof.Machine.execRngsT h f th s
  | .rngc h f => Sys2Proof.Machine.execRngc h f s
  | .tdw h clr n th => Sys2Proof.Machine.execTdw h clr n th s
  | .tdr h sel clr d th j => Sys2Proof.Machine.execTdr h sel clr d th j s
  | .macq h af g m b => Sys2Proof.Machine.execMacq h af g m b s
  | .mrel h m => Sys2Proof.Machine.execMrel h m s
  | .mzro h m => Sys2Proof.Machine.execMzro h m s
  | .mma h acc m n ta tb => Sys2Proof.Machine.execMma h acc m n ta tb s
  | .mmaGang h acc m n ta tb => Sys2Proof.Machine.execMmaGang h acc m n ta tb s
  | .mgng h n => Sys2Proof.Machine.execMgng h n s
  | .mgngClr h => Sys2Proof.Machine.execMgngClr h s
  | .mlda h m n th => Sys2Proof.Machine.execMlda h m n th s
  | .msta h m n th gs => Sys2Proof.Machine.execMsta h m n th gs s
  | .mprgRd h d => Sys2Proof.Machine.execMprgRd h d s
  | .mprgPc h d => Sys2Proof.Machine.execMprgPc h d s
  | .mprgGo h => Sys2Proof.Machine.execMprgGo h s
  | .mprgAb h => Sys2Proof.Machine.execMprgAb h s
  | .mdupClr h th => Sys2Proof.Machine.execMdupClr h th s
  | .mdupCp h td ts => Sys2Proof.Machine.execMdupCp h td ts s
  | .cpy h n => Sys2Proof.Machine.execCpy h n s
  | .cpygGather h n b => Sys2Proof.Machine.execCpygGather h n b s
  | .cpygScatter h n b => Sys2Proof.Machine.execCpygScatter h n b s
  | .cpyx h n p => Sys2Proof.Machine.execCpyx h n p s
  | .cpyrGo h g a => Sys2Proof.Machine.execCpyrGo h g a s
  | .cpyrAb h g a => Sys2Proof.Machine.execCpyrAb h g a s
  | .dcmp h n => Sys2Proof.Machine.execDcmp h n s
  | .waitc h c n => Sys2Proof.Machine.execWaitc h c n s
  | .dgrs h k b => Sys2Proof.Machine.execDgrs h k b s
  | .dgrsClr h k => Sys2Proof.Machine.execDgrsClr h k s
  | .bari h bar e => Sys2Proof.Machine.execBari h bar e s
  | .barv h bar rd => Sys2Proof.Machine.execBarv h bar rd s
  | .barw h bar b rd => Sys2Proof.Machine.execBarw h bar b rd s
  | .bars h bar rd => Sys2Proof.Machine.execBars h bar rd s
  | .spli h bar len ef ee => Sys2Proof.Machine.execSpli h bar len ef ee s
  | .splwFull h bar b rd => Sys2Proof.Machine.execSplwFull h bar b rd s
  | .splwEmpty h bar b rd => Sys2Proof.Machine.execSplwEmpty h bar b rd s
  | .spld h bar b => Sys2Proof.Machine.execSpld h bar b s
  | .rdsr h n d => Sys2Proof.Machine.execRdsr h n d s
  | .wrsr h n b => Sys2Proof.Machine.execWrsr h n b s
  | .slate h tag => Sys2Proof.Machine.execSlate h tag s
  | .erriCnt h d => Sys2Proof.Machine.execErriCnt h d s
  | .erriRd h n ix => Sys2Proof.Machine.execErriRd h n ix s
  | .erriPop h => Sys2Proof.Machine.execErriPop h s
  | .takeSig h d => Sys2Proof.Machine.execTakeSig h d s
  | .takeCmt h => Sys2Proof.Machine.execTakeCmt h s
  | .boundaryTrap r => Sys2Proof.Machine.execBoundaryTrap r s
  | .copyCommandAccept core part => Sys2Proof.Machine.execCopyCommandAccept core part s
  | .copyQueueHead core part => Sys2Proof.Machine.execCopyQueueHead core part s
  | .copyChunkRead core entry => Sys2Proof.Machine.execCopyChunkRead core entry s
  | .copyChunkCommit core entry => Sys2Proof.Machine.execCopyChunkCommit core entry s
  | .cpyxChunkAck core entry ok => Sys2Proof.Machine.execCpyxChunkAck core entry ok s
  | .preftChunk core entry => Sys2Proof.Machine.execPreftChunk core entry s
  | .decompressionJobRun cluster ix => Sys2Proof.Machine.execDecompressionJobRun cluster ix s
  | .decompressionJobComplete cluster ix => Sys2Proof.Machine.execDecompressionJobComplete cluster ix s
  | .l2Lookup r op acc => Sys2Proof.Machine.execL2Lookup r op acc s
  | .codedMerge r op acc => Sys2Proof.Machine.execCodedMerge r op acc s
  | .homeAtomic r op acc => Sys2Proof.Machine.execHomeAtomic r op acc s
  | .pageWalk core ctx va => Sys2Proof.Machine.execPageWalk core ctx va s
  | .mapoutDeclare stack die => Sys2Proof.Machine.execMapoutDeclare stack die s
  | .mapoutReq stack seg => Sys2Proof.Machine.execMapoutReq stack seg s
  | .crflush ctx => Sys2Proof.Machine.execCrflush ctx s
  | .tlbinvPage ctx => Sys2Proof.Machine.execTlbinvPage ctx s
  | .tlbinvAll ctx => Sys2Proof.Machine.execTlbinvAll ctx s
  | .waysAll part ways => Sys2Proof.Machine.execWaysAll part ways s
  | .meshFlitReceive link router f => Sys2Proof.Machine.execMeshFlitReceive link router f s
  | .meshLinkRetrain link ok => Sys2Proof.Machine.execMeshLinkRetrain link ok s
  | .linkFrameReceive link f => Sys2Proof.Machine.execLinkFrameReceive link f s
  | .linkTrainingDone link ok margin => Sys2Proof.Machine.execLinkTrainingDone link ok margin s
  | .doorbellTail part tail => Sys2Proof.Machine.execDoorbellTail part tail s
  | .launchAccept part => Sys2Proof.Machine.execLaunchAccept part s
  | .placeDistributedUnit die at_ at1 => Sys2Proof.Machine.execPlaceDistributedUnit die at_ at1 s
  | .activeSetRotation core pipe => Sys2Proof.Machine.execActiveSetRotation core pipe s
  | .ctxcmdCreate ctx => Sys2Proof.Machine.execCtxcmdCreate ctx s
  | .ctxcmdDestroy ctx => Sys2Proof.Machine.execCtxcmdDestroy ctx s
  | .ctxcmdPreempt ctx core slot => Sys2Proof.Machine.execCtxcmdPreempt ctx core slot s
  | .ctxcmdRestore ctx at_ => Sys2Proof.Machine.execCtxcmdRestore ctx at_ s
  | .ctxcmdEndWorkgroup ctx core slot => Sys2Proof.Machine.execCtxcmdEndWorkgroup ctx core slot s
  | .ctxcmdStep ctx core slot => Sys2Proof.Machine.execCtxcmdStep ctx core slot s
  | .ctxcmdStepThread ctx core slot thread => Sys2Proof.Machine.execCtxcmdStepThread ctx core slot thread s
  | .ctxcmdResume ctx core slot => Sys2Proof.Machine.execCtxcmdResume ctx core slot s
  | .logPop part => Sys2Proof.Machine.execLogPop part s
  | .windowRead off => Sys2Proof.Machine.execWindowRead off s
  | .windowWrite off v => Sys2Proof.Machine.execWindowWrite off v s
  | .registerWrite off size v => Sys2Proof.Machine.execRegisterWrite off size v s
  | .slateFire tag => Sys2Proof.Machine.execSlateFire tag s
  | .takeAtomicPair r op acc => Sys2Proof.Machine.execTakeAtomicPair r op acc s
  | .rushesEntryFree r => Sys2Proof.Machine.execRushesEntryFree r s
  | .schedulerRebuild cluster lost => Sys2Proof.Machine.execSchedulerRebuild cluster lost s
  | .dailyRun u => Sys2Proof.Machine.execDailyRun u s
  | .dailyRunComplete u sig => Sys2Proof.Machine.execDailyRunComplete u sig s
  | .wearUpdate die w => Sys2Proof.Machine.execWearUpdate die w s
  | .attestationRequest nonce buf => Sys2Proof.Machine.execAttestationRequest nonce buf s
  | .variableLatencyResult r op => Sys2Proof.Machine.execVariableLatencyResult r op s
  | .hostMemoryAccess r op acc => Sys2Proof.Machine.execHostMemoryAccess r op acc s
  | .extensionOperation w => Sys2Proof.Machine.execExtensionOperation w s
  | .invalidEncoding w => Sys2Proof.Machine.execInvalidEncoding w s
  | .decompressionJobAccept => Sys2Proof.Machine.execDecompressionJobAccept s
  | .matrixArrayStep => Sys2Proof.Machine.execMatrixArrayStep s
  | .matrixRowBlock => Sys2Proof.Machine.execMatrixRowBlock s
  | .mrelPerform => Sys2Proof.Machine.execMrelPerform s
  | .gangRendezvousTimeout => Sys2Proof.Machine.execGangRendezvousTimeout s
  | .governorWindow => Sys2Proof.Machine.execGovernorWindow s
  | .hbmAtomWrite => Sys2Proof.Machine.execHbmAtomWrite s
  | .hbmAtomRead => Sys2Proof.Machine.execHbmAtomRead s
  | .hbmReadModifyWrite => Sys2Proof.Machine.execHbmReadModifyWrite s
  | .mapoutStart => Sys2Proof.Machine.execMapoutStart s
  | .mapoutAck => Sys2Proof.Machine.execMapoutAck s
  | .mapoutRebuildComplete => Sys2Proof.Machine.execMapoutRebuildComplete s
  | .crflushDone => Sys2Proof.Machine.execCrflushDone s
  | .tlbinvDone => Sys2Proof.Machine.execTlbinvDone s
  | .fqPop => Sys2Proof.Machine.execFqPop s
  | .fqResume => Sys2Proof.Machine.execFqResume s
  | .fqCancel => Sys2Proof.Machine.execFqCancel s
  | .linkEnable => Sys2Proof.Machine.execLinkEnable s
  | .linkFailure => Sys2Proof.Machine.execLinkFailure s
  | .stealRequest => Sys2Proof.Machine.execStealRequest s
  | .stagingCopy => Sys2Proof.Machine.execStagingCopy s
  | .workgroupStart => Sys2Proof.Machine.execWorkgroupStart s
  | .exitWriteback => Sys2Proof.Machine.execExitWriteback s
  | .workgroupEnd => Sys2Proof.Machine.execWorkgroupEnd s
  | .launchComplete => Sys2Proof.Machine.execLaunchComplete s
  | .preemptSave => Sys2Proof.Machine.execPreemptSave s
  | .preemptHoldTimeout => Sys2Proof.Machine.execPreemptHoldTimeout s
  | .takeCommitDecide => Sys2Proof.Machine.execTakeCommitDecide s
  | .takeCommitTimeout => Sys2Proof.Machine.execTakeCommitTimeout s
  | .coreLeaveService => Sys2Proof.Machine.execCoreLeaveService s
  | .pwrStateActive => Sys2Proof.Machine.execPwrStateActive s
  | .pwrStateIdle => Sys2Proof.Machine.execPwrStateIdle s
  | .pwrEnterIdle => Sys2Proof.Machine.execPwrEnterIdle s
  | .pwrStateOff => Sys2Proof.Machine.execPwrStateOff s
  | .thermalThrottle => Sys2Proof.Machine.execThermalThrottle s
  | .thermalShutdown => Sys2Proof.Machine.execThermalShutdown s
  | .fundamentalReset => Sys2Proof.Machine.execFundamentalReset s
  | .otaetharLinkRetrain => Sys2Proof.Machine.execOtaetharLinkRetrain s

end Sys2Proof.Machine
end

