-- ==== Sys2Proof/Machine/Step.lean ====
section
/-! DEFINITION. One step of the device: the next turn, and what its thread group or event does (log 3, log 6). -/

namespace Sys2Proof.Machine

/-- One step: the next turn happens, or, when there is none, nothing but the count of steps changes. -/
def step (s : State) : Host.Outcome State Fault Refusal :=
  match s.nextTurn with
  | none => .next { s with tick := s.tick + 1 }
  | some t =>
    match s.turn t with
    | (s1, some i) => exec i s1
    | (s1, none) => .next s1

/-- A word of the opcode table placed where the next step fetches its instruction (log 5). -/
def State.withFetchWord (s : State) (nbits w : Nat) : State := s.load (BitVec.ofNat 96 (w % 2 ^ nbits))

end Sys2Proof.Machine
end

