-- ==== Sys2Proof/Safety.lean ====
section
/-! DEFINITION. The terms in which claims are stated: when an instruction issues undisturbed, what its operands supply, what
its issue leaves of the thread group, and the invariant that every step keeps. -/

namespace Sys2Proof.Safety

open Sys2Proof.Machine

/-! ### Operands -/

/-- The words that a window operand supplies. -/
def windowOf (s : State) (e : Env) (x : Src) : List CWord :=
  match (x.window s e).2 with
  | .words ws => ws
  | _ => []

/-- The words that an operand supplies to a lane: those that its registers hold, an immediate's, a window's (R155,
R156). -/
def given (s : State) (e : Env) (x : Src) (l : Nat) : List CWord :=
  match x.opd with
  | .imm w => immWords x.words x.ext w
  | .win _ _ => windowOf s e x
  | .reg _ => (x.keys l).map e.g.word

/-- The operand can be read in some lanes: no write of its registers is pending (R161), its words agree with their
codes unless it is read raw (R24), a window's words stand in the constant cache (R156), and no word that it consumes is
Poison (R29). -/
def Readable (s : State) (e : Env) (ls : List Nat) (x : Src) : Prop :=
  (∀ l ∈ ls, ∀ k ∈ x.keys l, e.g.readsEarly k = false ∧ (x.raw = false → (e.g.word k).passes = true)) ∧
    (∀ n off, x.opd = .win n off → x.window s e = (s, .words (windowOf s e x)) ∧
      (x.raw = false → (windowOf s e x).all CWord.passes = true)) ∧
    (x.consume = true → ∀ l ∈ if x.first then e.part.take 1 else ls, anyBad (given s e x l) = false)

/-- Lanes in which a source of a plan is read: all of them when a lane supplies the others (R249, R253). -/
def lanesRead (e : Env) (p : Plan) (x : Src) : List Nat := if p.sel.isSome && x.field == 0 then List.range (max 64 e.g.width) else e.part

/-- The value and the Poison of source `i` in a lane. -/
def value (s : State) (e : Env) (xs : List Src) (i l : Nat) : Nat := valOf ((xs[i]?.map fun x => given s e x l).getD [])
def words (s : State) (e : Env) (xs : List Src) (i l : Nat) : List CWord := (xs[i]?.map fun x => given s e x l).getD []
def tainted (s : State) (e : Env) (xs : List Src) (l : Nat) : Bool := xs.any fun x => anyBad (given s e x l)

/-! ### An issue that nothing disturbs -/

/-- The link of a thread as words. -/
def linkOf (e : Env) (l : Nat) : List CWord := (e.g.threads[l]?.map fun t => [t.linkLo, t.linkHi]).getD []

/-- The thread group of `e` issues an instruction with plan `p` that raises no trap before its own checks: no wait of it
was cancelled (R97), the form is legal here (R148, R163, R164, R344), its role may issue it (R295), some thread takes part,
its operands, guards and link register can be read, and no upset waits for its result (log 12). -/
structure Ready (s : State) (e : Env) (p : Plan) : Prop where
  env : env? s p.h = some e
  cancel : e.g.cancel = false
  legal : p.illegal e = false
  role : p.role e.g.role = true
  takes : e.part ≠ []
  srcs : ∀ x ∈ p.srcs, Readable s e (lanesRead e p x) x
  guards : ∀ i ∈ p.guards, ∀ l ∈ e.part, e.g.readsEarly (.g i.toNat l) = false
  selects : p.h.gidx.toNat < 8 → ∀ l ∈ members e.set, e.g.readsEarly (.g p.h.gidx.toNat l) = false
  links : p.link = true → ∀ l ∈ e.part, ∀ w ∈ linkOf e l, w.passes = true ∧ w.bad = false
  calm : ∀ u ∈ s.strikes, u.forms e.r = false

/-- The context of such an issue: what its operands supplied and its result stage formed. -/
def context (s : State) (e : Env) (p : Plan) (form : Ctx → Nat → LaneRes) : Ctx :=
  (Ctx.start s e (p.srcs.map fun x => (x, match x.opd with | .win _ _ => windowOf s e x | _ => []))).form p form

/-- The state after the thread group of `e` has retired the instruction of its issue (R163, R164, R405); a step of CTXCMD that is
done with it ends (R464). -/
def retired (e : Env) (h : Hints) (cut : Bool) (s : State) : State := (s.updTg e.r fun g => g.retire e.set h cut).endStep e.r

/-! ### What an issue leaves of its thread group -/

/-- A key names a register word that exists. -/
def realKey : RKey → Bool
  | .v _ l => decide (l < 64)
  | .k _ l => decide (l < 64)
  | _ => true

/-- A thread but for its guards, its PC and its age. -/
def restOfThread (t : Thread) : Thread := { t with guards := 0#8, pc := 0#57, age := 0 }

/-- An operation in flight but for the registers that a later write has overtaken (R160). -/
def restOfOp (o : MemOp) : MemOp := { o with skip := [] }

/-- A thread group but for its register words, its threads, its shot, its debug state and its clocks of issue. -/
def restOfTg (g : Tg) : Tg :=
  { g with
    vregs := [], mirror := [], uregs := [], temps := [], threads := [], flights := [], ops := [], steps := 0, rpt := []
    debug := .off, busy := 0, shot := Shot.none }

/-- `g'` is what the issue leaves of `g`, a thread group at the effect of its instruction: the words given are written and
no other register word or guard changes; the threads of the issue set stand at the next instruction (R164), no other
moves; the shot counts the instruction (R163); a step in the debug state counts it (R416); the operations in flight stay, but for registers that a write overtakes
(R160); nothing else of the thread group changes. -/
structure Leaves (e : Env) (h : Hints) (g g' : Tg) (ws : List (RKey × CWord)) : Prop where
  wrote : ∀ kw ∈ ws, g'.word kw.1 = kw.2
  kept : ∀ k, realKey k = true → k ∉ ws.map (·.1) → g'.word k = g.word k
  pcs : g'.threads.map (·.pc) =
    (g.threads.zip (List.range g.threads.length)).map fun ti => if e.set.getLsbD ti.2 then e.pc + 12#57 else ti.1.pc
  threads : g'.threads.map restOfThread = g.threads.map restOfThread
  shot : g'.shot = { g.shot with count := g.shot.count + 1, pc := e.pc + 12#57, yieldHint := g.shot.yieldHint || h.yld }
  debug : g'.debug = Debug.after g.debug false
  ops : g'.ops.map restOfOp = g.ops.map restOfOp
  rest : restOfTg g' = restOfTg g

/-- The words that some lanes give to a register, one lane's for a uniform register (R158). -/
def toReg (e : Env) (d : Reg) (f : Nat → List CWord) : List (RKey × CWord) :=
  (if d.isS then e.part.take 1 else e.part).flatMap fun l =>
    (List.range (f l).length).map fun k => (d.key k l, (f l).getD k .zero)

/-- The words of a value of 32 or 64 bits: Poison when an operand was, else with the codes of their bits (R26, R28). -/
def valueWords (n v : Nat) (poison : Bool) : List CWord := (wordsOf n v).map fun w => if poison then .poisoned w else .of w

/-- The words that a guard write gives to the threads that take part. -/
def guardWords (e : Env) (g : BitVec 3) (f : Nat → Bool) : List (RKey × CWord) := e.part.map fun l => (.g g.toNat l, guardWord (f l))

/-- A word of elements of a type (R198): element `i` is `f i`. -/
def elements (t : IntTy) (f : Nat → Nat) : Nat := packEls (ibits t) ((List.range (obits t / ibits t)).map f)

/-- `.sat` clamps when SAT of the INT class is 1 (R200). -/
def clamps (e : Env) (sat : Bool) : Bool := sat && (ctlOf e.g.fmode.toNat 6).sat

/-- The rounding environment of a thread: `sr.fmode` and the hash of R186 over its index and CCNT. -/
def laneEnv (e : Env) (l : Nat) : FEnv :=
  ⟨e.g.fmode.toNat, hash186 e.sheet.nonce (BitVec.ofNat 64 (globalIndex e.sheet e.w e.r.tg l % 2 ^ 63))
    ((((e.g.threads[l]?).map (·.ccnt)).getD 0#32).setWidth 64)⟩

/-- A rounded result in a register: its bits in 32 or 64. -/
def floatWords (t : FloatTy) (bits : Nat) (poison : Bool) : List CWord := valueWords (if t.bits == 64 then 64 else 32) bits poison

/-- A word of floating elements. -/
def packedWords (f : Fmt) (g : Nat → Nat) (poison : Bool) : List CWord :=
  valueWords 32 (packEls f.bits ((List.range (32 / f.bits)).map g)) poison

/-- The thread group with the conversion counts of an instruction that rounds into some classes: CCNT rises in the threads
that take part when one of them has RND 4 (R187). -/
def counted (e : Env) (cls : List Fmt) (g : Tg) : Tg :=
  if cls.any fun f => (ctlOf e.g.fmode.toNat f.cls).rnd == 4 then g.countConversions e.part else g

/-! ### The shapes of instructions -/

/-- A register instruction of the integer, logic and float datapaths: sources, and a register of `n` words. -/
def regPlan (h : Hints) (d : Reg) (n : Nat) (srcs : List Src) : Plan := { h := h, srcs := srcs, dst := some (d, n), alu := true }

/-- An instruction of the special-function unit. -/
def sfPlan (h : Hints) (d : Reg) (n : Nat) (srcs : List Src) : Plan := { h := h, srcs := srcs, dst := some (d, n), unit := 2 }

/-- An instruction that writes a guard. -/
def guardPlan (h : Hints) (srcs : List Src) (guards : List (BitVec 3)) : Plan := { h := h, srcs := srcs, guards := guards }

/-- An operation in flight that returns some words (R159, R162). -/
def resultOp (h : Hints) (ws : List (RKey × CWord)) : MemOp := { MemOp.blank with ps := h.ps.toNat, results := ws }

/-- The issue completes with the effect that its thread group, from `g`, holds the words given, and nothing but the
thread group changes, and CTXCMD where it ends a step. -/
def Writes (s : State) (e : Env) (h : Hints) (out : Host.Outcome State Fault Refusal) (g : Tg) (ws : List (RKey × CWord)) :
    Prop :=
  ∃ g', out = .next ((s.setTg e.r g').endStep e.r) ∧ Leaves e h g g' ws

/-- An instruction of fixed latency gives its register some words in every state in which it issues undisturbed, and
changes nothing else (R159, R163, R164). -/
def Gives (i : Instr) (p : Plan) (d : Reg) (f : State → Env → Nat → List CWord) : Prop :=
  ∀ s e, Ready s e p → Writes s e p.h (exec i s) e.g (toReg e d (f s e))

/-- The same for one that rounds into some classes, which it counts (R187). -/
def GivesRounded (i : Instr) (cls : List Fmt) (p : Plan) (d : Reg) (f : State → Env → Nat → List CWord) : Prop :=
  ∀ s e, Ready s e p → Writes s e p.h (exec i s) (counted e cls e.g) (toReg e d (f s e))

/-- The same for one of variable latency: no register changes at the issue, and an operation in flight holds the words
that will be written (R159, R162). -/
def Returns (i : Instr) (cls : List Fmt) (p : Plan) (d : Reg) (f : State → Env → Nat → List CWord) : Prop :=
  ∀ s e, Ready s e p →
    Writes s e p.h (exec i s) ((counted e cls e.g).launchOp (resultOp p.h (toReg e d (f s e)))) []

/-- An instruction writes a guard in every thread that takes part, and nothing else. -/
def GivesGuard (i : Instr) (p : Plan) (g : BitVec 3) (f : State → Env → Nat → Bool) : Prop :=
  ∀ s e, Ready s e p → Writes s e p.h (exec i s) e.g (guardWords e g (f s e))

/-- Element `i` of a source in a lane, read as its type says: `Val` of R201. -/
def element (s : State) (e : Env) (xs : List Src) (ty : IntTy) (k l i : Nat) : Int :=
  ival ty.signed (ibits ty) (elem (ibits ty) (value s e xs k l) i)

/-- A number formed bit by bit. -/
def bitwise (n : Nat) (f : Nat → Bool) : Nat := packEls 1 ((List.range n).map fun j => (f j).toNat)

/-- The words that an elementwise choice among sources gives: each element of the source chosen for it; a 64-bit form
passes the pair on; a packed word is Poison when an element comes from a Poison word (R203). -/
def chosenWords (s : State) (e : Env) (xs : List Src) (ty : IntTy) (pick : Nat → Nat) (l : Nat) : List CWord :=
  if ty.is64 then words s e xs (pick 0) l
  else valueWords 32 (elements ty fun i => elem (ibits ty) (value s e xs (pick i) l) i)
    ((List.range (32 / ibits ty)).any fun i => anyBad (words s e xs (pick i) l))

/-- An undisturbed instruction whose own checks pass has an effect on the state, and retires (R163, R164). -/
def Performs (i : Instr) (p : Plan) (ok : State → Env → Prop) (eff : State → Env → State) : Prop :=
  ∀ s e, Ready s e p → ok s e → exec i s = .next (retired e p.h p.cut (eff s e))

/-- An undisturbed instruction takes a trap as its effect. -/
def Traps (i : Instr) (p : Plan) (ok : State → Env → Prop) (cause : State → Env → BitVec 32) : Prop :=
  ∀ s e, Ready s e p → ok s e → exec i s = .next (takeTrap s e.r (cause s e) (maskOf e.part) false)

/-- No check of its own. -/
def always (_ : State) (_ : Env) : Prop := True

/-- A target of a transfer that does not fault (R347). -/
abbrev sane (x : Nat) : Prop := x < 2 ^ 57 ∧ x % 4 = 0

/-- The targets of a transfer: the threads of the issue set that take part go where each is sent, with a change to their
link registers; the others fall through the `CUT` (R347). -/
def sent (e : Env) (g : Tg) (target : Nat → Nat) (link : Nat → Thread → Thread) : Tg :=
  g.mapThreads e.set fun i t =>
    if i ∈ e.part then { link i t with next := some (BitVec.ofNat 57 (target i)) } else { t with next := some (e.pc + 24#57) }

/-- A thread whose link register holds the address after the `CUT` (R347). -/
def linked (e : Env) (t : Thread) : Thread :=
  { t with
    linkLo := .of (BitVec.ofNat 32 (e.pc + 24#57).toNat)
    linkHi := .of (BitVec.ofNat 32 ((e.pc + 24#57).toNat / 2 ^ 32)) }

/-- The thread group with the links of the threads that take part copied to a vector pair (R347). -/
def savedLinks (e : Env) (sv : Option Reg) : Tg :=
  match sv with
  | none => e.g
  | some d => e.part.foldl (fun g l =>
      match e.g.threads[l]? with
      | some t => (g.write 0 (d.key 0 l) t.linkLo).write 0 (d.key 1 l) (linkHalf t.linkHi)
      | none => g) e.g

/-- The thread group stands at the end of its shot, ready for the next one. -/
def shotEnded (g : Tg) : Prop := g.phase = .ready ∧ g.shot = Shot.none ∧ g.temps = []

/-! ### Memory -/

/-- The address that a lane's adder forms from a base and a signed offset of 32 bits (R289). -/
def addr (n : Nat) (s : State) (e : Env) (xs : List Src) (l : Nat) : Nat :=
  (value s e xs 0 l + wrapInt n (ival true 32 (value s e xs 1 l))) % 2 ^ n

/-- Threads that make an access: one for a uniform destination, or for a load from one address (R294). -/
def accessors (e : Env) (d : Option Reg) (uni : Bool) : List Nat :=
  if (d.map (·.isS)).getD false || uni then e.part.take 1 else e.part

/-- Threads that make the accesses of a store or a `RED`: one when all its sources are uniform (R158, Table 17.2; log 34). -/
def makers (e : Env) (uni : Bool) : List Nat := if uni then e.part.take 1 else e.part

/-- Accesses that some threads make: one that serves the whole issue is every thread's that takes part (R296, R298). -/
def madeBy (e : Env) (ls : List Nat) (as : List Acc) : List Acc :=
  if ls.length < e.part.length then as.map fun a => { a with threads := maskOf e.part } else as

/-- The accesses of a lane's global request: no rule of R420 turns it away, and its translations are at hand (R93). -/
def Reaches (s : State) (e : Env) (q : Global) (l va : Nat) (d d2 : List CWord) (as : List Acc) : Prop :=
  va < 2 ^ 57 ∧ (q.mis = true ∨ va % q.n = 0) ∧ targetRule e q d as = none ∧
    ∃ at_ : Nat → Nat × PageKind × Option CodedTag,
      (∀ p ∈ pieces va q.n q.mis, p.1 < 2 ^ 57 ∧
        translate s e.core e.ctx e.g.super q.cls p.1 p.2 = (s, .to (at_ p.1).1 (at_ p.1).2.1 (at_ p.1).2.2)) ∧
      as = (pieces va q.n q.mis).map fun p =>
        mkAcc l q.kind p.1 p.2 (at_ p.1).1 (at_ p.1).2.1 (at_ p.1).2.2 (pieceWords (p.1 - va) (p.1 % 4) p.2 d)
          (pieceWords (p.1 - va) (p.1 % 4) p.2 d2)

/-- An operation that returns `n` bytes to a register: a uniform register takes one lane's, and one address serves every
lane (R290, R294). -/
def returning (e : Env) (h : Hints) (d : Reg) (uni : Bool) (n : Nat) (signed : Bool) : MemOp :=
  { MemOp.blank with
    dst := some d, size := n, signed := signed, ps := h.ps.toNat
    lanes := if d.isS then (e.part.take 1).map fun l => (l, l) else e.part.map fun l => (l, if uni then e.part.headD 0 else l) }

/-- The accesses of an operation put in flight: the memory counter and the range slots that they touch count it (R299,
R316), and a slot counter beyond its width waits. -/
def inFlight (s : State) (e : Env) (spad : Bool) (as : List Acc) (o : MemOp) : State :=
  (issueOp s e.r { o with accs := as, counts := true, performed := false, super := e.g.super,
                          slots := e.g.touched spad (extents as) }).updTg e.r Tg.oweSlots

/-- `n` bytes at `o` lie aligned in the workgroup's scratchpad (R291, R100). -/
abbrev fits (e : Env) (o n : Nat) : Prop := o % n = 0 ∧ o + n ≤ e.sheet.spadBytes

/-- A lane's access to a scratchpad: its own, or another's. -/
def onSpad (kind : AccKind) (n : Nat) (w : Option Nat) (l o : Nat) (d d2 : List CWord) : Acc :=
  { mkAcc l kind o n o .spad none (pieceWords 0 (o % 4) n d) (pieceWords 0 (o % 4) n d2) with wg := w }

/-- A byte of some words, from the first byte of the first. -/
def byteIn (ws : List CWord) (i : Nat) : Byte := byteOf (ws.getD (i / 4) .zero).data (i % 4)

/-- A byte of a workgroup's scratchpad. -/
def spadByte (w : Wg) (o : Nat) : Byte := byteOf (lookD .zero w.spad (o / 4)).data (o % 4)

/-- A byte of an uncoded line in a core's L1. -/
def l1Byte (s : State) (core pa : Nat) : Option Byte :=
  (l1Find s core pa none).bind fun ln => if ln.valid.testBit (pa % 128) then some (byteIn ln.words (pa % 128)) else none

/-- The highest-numbered of some lanes whose `n` bytes, from the place of each, take in a byte (R298). -/
def lastOver (ls : List Nat) (place : Nat → Nat) (n o : Nat) : Option Nat :=
  ls.reverse.find? fun l => decide (place l ≤ o) && decide (o < place l + n)

/-- The thread group with waits for its `CUT` (R163), no two alike. -/
def owing (g : Tg) (ws : List Wait) : Tg :=
  { g with shot := { g.shot with waits := ws.foldl (fun l w => if l.contains w then l else l ++ [w]) g.shot.waits } }

/-- A commit point of two-take mode comes with a release at cluster scope or wider (R341). -/
def committing (e : Env) (scope : Nat) (g : Tg) : Tg :=
  if e.w.takeOn = true ∧ 3 ≤ scope then { g with shot := { g.shot with waits := g.shot.waits ++ [.commit] } } else g

/-- The numbers of the SCOPE field (Table 14.1). -/
def scopeNo : Scope → Nat
  | .thread => 0
  | .tg => 1
  | .wg => 2
  | .cluster => 3
  | .die => 4
  | .device => 5
  | .system => 6

/-! ### Events -/

/-- An access of an operation in flight may be performed now (Table 14.2, R299, R325 to R328). -/
structure Pending (s : State) (r : TgRef) (op ix : Nat) (w : Wg) (g : Tg) (o : MemOp) (a : Acc) : Prop where
  wg : s.wg? r.wg = some w
  tg : s.tg? r = some g
  op : (g.ops.find? fun o => o.id == op) = some o
  acc : o.accs[ix]? = some a
  waits : a.done = false
  plain : o.setFull = false
  here : w.phase ≠ .saved
  turn : g.mayPerform o ix a = true
  first : a.page = .host → s.hostAhead r o.id = false

/-- The L1 of a core has frames free for `n` more lines (R99). -/
def L1Room (s : State) (core n : Nat) : Prop :=
  ∃ fs : List Nat, fs.Nodup ∧ n ≤ fs.length ∧ ∀ f ∈ fs, f < 36864 ∧ (s.spadUnitsOn core).contains (f / 512) = false ∧
    ∀ ln ∈ s.cs.l1, ln.core = core → ln.frame ≠ f

/-- The L2 holds a line of main memory whole, every word with its code. -/
structure WholeLine (s : State) (pa : Nat) (ln : L2Line) : Prop where
  held : lineAt s pa = some ln
  all : ln.valid = 2 ^ 128 - 1
  size : ln.words.length = 32
  sound : ln.words.all CWord.passes = true

/-- What an operation of one access leaves when that access has been performed: itself while it has a value to return
(R162). -/
def performedOp (o : MemOp) (a : Acc) (res : List CWord) : List MemOp :=
  if o.dst.isNone && o.results.isEmpty then []
  else [{ o with performed := true, accs := [{ a with done := true, result := res }] }]

/-- A doubleword of host memory. -/
def hostDw (s : State) (pa : Nat) : Nat := (rdWord s.mm.bytes pa).toNat + 2 ^ 32 * (rdWord s.mm.bytes (pa + 4)).toNat

/-- Words that pass their check and are not Poison. -/
def clean (ws : List CWord) : Bool := ws.all fun w => w.passes && !w.bad

/-- Bytes of a workgroup's scratchpad, none of a Poison word. -/
def spadBytes (w : Wg) (o n : Nat) : List (Byte × Bool) := (List.range n).map fun i => (spadByte w (o + i), false)

/-- The scratchpad words that some bytes touch pass their check and are not Poison. -/
def cleanSpad (w : Wg) (o n : Nat) : Prop := ∀ i, o / 4 ≤ i → i ≤ (o + n - 1) / 4 → clean [lookD .zero w.spad i] = true

/-- A log with room takes one record of a kind and an address (R371). -/
def Recorded (s t : State) (part kind addr : Nat) : Prop :=
  ∀ l, s.logs[part]? = some l → l.recs.length < 256 →
    ∃ r : ErrRec, (t.logs[part]?).map (·.recs) = some (l.recs ++ [r]) ∧ r.dw0.toNat / 2 ^ 56 = kind ∧ r.dw1 = BitVec.ofNat 64 addr

/-- No two accumulators of some elements of a tile share a word. -/
def apart (t : Tile) (els : List (Nat × Nat)) : Prop :=
  ∀ x ∈ els, ∀ y ∈ els, ∀ j k, j < accWords t.af → k < accWords t.af → t.wordAt x.1 x.2 j = t.wordAt y.1 y.2 k → x = y ∧ j = k

/-! ### The invariant -/

/-- What every step keeps: memory has its canonical form; there are eight error logs, of at most 256 records each. -/
structure Inv (s : State) : Prop where
  memory : Memory.wf s.mm.bytes = true
  logs : s.logs.length = 8
  full : ∀ l ∈ s.logs, l.recs.length ≤ 256

end Sys2Proof.Safety
end

