-- ==== Sys2Proof/Certificates/Slice0/Obligations.lean ====
section
/-! DEFINITION. The statements for the provers, one definition each. -/

open Sys2Proof Sys2Proof.Machine Sys2Proof.Safety

/-! ### Integer, logic and bit instructions -/

/-- The fixed-latency instructions of group 0x1 but IADDX: the results of R202, R203, R205, R207 and R208. The
products' high part, the wide sum and IMULH exist for 32 and 64 bits. IADDX adds with a carry (R204): the sum's low
word, and the carry out in a guard; a Poison operand is consumed (R201), so none is Poison here. IDIV and IREM (R206):
the quotient rounds toward zero; a zero divisor gives all ones and the dividend; the least number by −1 gives itself
and 0. Both return later. The data bits of a Poison result are the model's (log 32). -/
def Obligations.IntegerResults : Prop :=
  (
    ∀ (h : Hints) (ty : IntTy) (sat mix : Bool) (k : BitVec 3) (d a c : Reg) (b : Opd),
      let n := ibits ty
      let ab := intAB ty a b
      let abc := intAB ty a b ++ [srcC c ty.words]
      let w1 := [srcA a 1, srcB b 1, srcC c 1]
      let fit (e : Env) (r : Int) : Nat := fitInt (clamps e sat) ty.signed n r
      let out (s : State) (e : Env) (xs : List Src) (l : Nat) (f : Nat → Nat) : List CWord :=
        valueWords (obits ty) (elements ty f) (tainted s e xs l)
      let bytesOf (s : State) (e : Env) (sg : Bool) (k l i : Nat) : Int := ival sg 8 (elem 8 (value s e w1 k l) i)
      Gives (.iadd h ty sat d a b) (regPlan h d ty.words ab) d
          (fun s e l => out s e ab l fun i => fit e (element s e ab ty 0 l i + element s e ab ty 1 l i)) ∧
        Gives (.isub h ty sat d a b) (regPlan h d ty.words ab) d
          (fun s e l => out s e ab l fun i => fit e (element s e ab ty 0 l i - element s e ab ty 1 l i)) ∧
        Gives (.ineg h ty sat d b) (regPlan h d ty.words [intB ty b]) d
          (fun s e l => out s e [intB ty b] l fun i => fit e (-element s e [intB ty b] ty 0 l i)) ∧
        Gives (.iabs h ty sat d b) (regPlan h d ty.words [intB ty b]) d
          (fun s e l => out s e [intB ty b] l fun i => fit e (element s e [intB ty b] ty 0 l i).natAbs) ∧
        Gives (.imin h ty d a b) (regPlan h d ty.words ab) d
          (fun s e l => chosenWords s e ab ty (fun i => if element s e ab ty 0 l i ≤ element s e ab ty 1 l i then 0 else 1) l) ∧
        Gives (.imax h ty d a b) (regPlan h d ty.words ab) d
          (fun s e l => chosenWords s e ab ty (fun i => if element s e ab ty 1 l i ≤ element s e ab ty 0 l i then 0 else 1) l) ∧
        Gives (.iclamp h ty d a b c) (regPlan h d ty.words abc) d
          (fun s e l => chosenWords s e abc ty
            (fun i =>
              let x := element s e abc ty 0 l i
              let y := element s e abc ty 1 l i
              if element s e abc ty 2 l i < max x y then 2 else if x < y then 1 else 0) l) ∧
        Gives (.imul h ty sat d a b) (regPlan h d ty.words ab) d
          (fun s e l => out s e ab l fun i => fit e (element s e ab ty 0 l i * element s e ab ty 1 l i)) ∧
        (ty.narrow = false → Gives (.imulh h ty d a b) (regPlan h d ty.words ab) d
          (fun s e l => out s e ab l fun i => wrapInt n (element s e ab ty 0 l i * element s e ab ty 1 l i / 2 ^ n))) ∧
        Gives (.imad h ty d a b c) (regPlan h d ty.words abc) d
          (fun s e l => out s e abc l fun i =>
            wrapInt n (element s e abc ty 0 l i * element s e abc ty 1 l i + element s e abc ty 2 l i)) ∧
        Gives (.imadw h ty d a b c) (regPlan h d 2 [srcA a 1, srcB b 1, srcC c 2]) d
          (fun s e l =>
            let xs := [srcA a 1, srcB b 1, srcC c 2]
            valueWords 64
              (wrapInt 64 (ival ty.signed 32 (value s e xs 0 l) * ival ty.signed 32 (value s e xs 1 l) + value s e xs 2 l))
              (tainted s e xs l)) ∧
        Gives (.idot4 h ty mix d a b c) (regPlan h d 1 w1) d
          (fun s e l => valueWords 32
            (wrapInt 32 (value s e w1 2 l + ((List.range 4).map fun i =>
              bytesOf s e ty.signed 0 l i * bytesOf s e (ty.signed && !mix) 1 l i).sum)) (tainted s e w1 l)) ∧
        Gives (.isad h ty d a b c) (regPlan h d 1 w1) d
          (fun s e l => valueWords 32
            (wrapInt 32 (value s e w1 2 l + ((List.range (32 / n)).map fun i =>
              ((element s e w1 ty 0 l i - element s e w1 ty 1 l i).natAbs : Int)).sum)) (tainted s e w1 l)) ∧
        Gives (.lea h ty k d a b) (regPlan h d ty.words [srcA a 1, intB ty b]) d
          (fun s e l =>
            let xs := [srcA a 1, intB ty b]
            valueWords (obits ty) (wrapInt (obits ty) (ival ty.signed 32 (value s e xs 0 l) * 2 ^ k.toNat + value s e xs 1 l))
              (tainted s e xs l))) ∧
  (
    ∀ (h : Hints) (ty : IntTy) (d a : Reg) (co : BitVec 3) (b : Opd) (ci : Option (BitVec 3)) (s : State) (e : Env),
      let xs := (intAB ty a b).map Src.consumed
      let p : Plan := { regPlan h d 1 xs with guards := ci.toList, alu := false }
      let sum (l : Nat) : Nat :=
        value s e xs 0 l + value s e xs 1 l + (match ci with | some i => ((e.g.word (.g i.toNat l)).data.getLsbD 0).toNat | none => 0)
      Instr.wf (.iaddx h ty d co a b ci) = true → Ready s e p →
        Writes s e h (exec (.iaddx h ty d co a b ci) s) e.g
          (toReg e d (fun l => valueWords 32 (sum l % 2 ^ 32) false) ++ guardWords e co fun l => decide (2 ^ 32 ≤ sum l))) ∧
  (
    ∀ (h : Hints) (ty : IntTy) (d a : Reg) (b : Opd), ty.narrow = false →
      let n := ibits ty
      let xs := intAB ty a b
      let x (s : State) (e : Env) (l : Nat) : Int := ival ty.signed n (value s e xs 0 l)
      let y (s : State) (e : Env) (l : Nat) : Int := ival ty.signed n (value s e xs 1 l)
      Returns (.idiv h ty d a b) [] (regPlan h d ty.words xs) d
          (fun s e l => valueWords n (if y s e l = 0 then 2 ^ n - 1 else wrapInt n ((x s e l).tdiv (y s e l))) (tainted s e xs l)) ∧
        Returns (.irem h ty d a b) [] (regPlan h d ty.words xs) d
          (fun s e l => valueWords n (wrapInt n (if y s e l = 0 then x s e l else (x s e l).tmod (y s e l))) (tainted s e xs l)))

/-- The instructions of group 0x2: logic, shifts, counts, fields, permutation (R210 to R216). The data bits of a
Poison result are the model's (log 32); `LOP3` follows the pseudocode of R211 (log 49). -/
def Obligations.LogicResults : Prop :=
  ∀ (h : Hints) (ty : IntTy) (w wrap left : Bool) (f0 f1 : BitVec 4) (d a c : Reg) (b : Opd), ty.narrow = false →
    let n := width w
    let m := obits ty
    let ab := [srcA a (wide w), srcB b (wide w)]
    let sh := [srcA a (wide w), srcB b 1]
    let abc := [srcA a (wide w), srcB b (wide w), srcC c (wide w)]
    let w3 := [srcA a 1, srcB b 1, srcC c 1]
    let bx := [srcA a ty.words, srcB b 1]
    let bi := [srcA a (wide w), srcB b 1, srcC c (wide w)]
    let bb := [srcB b (wide w)]
    let bit (s : State) (e : Env) (xs : List Src) (k l j : Nat) : Bool := (value s e xs k l).testBit j
    let by2 (op : Bool → Bool → Bool) (s : State) (e : Env) (l : Nat) : List CWord :=
      valueWords n (bitwise n fun j => op (bit s e ab 0 l j) (bit s e ab 1 l j)) (tainted s e ab l)
    let shift (f : Nat → Nat → Nat) (s : State) (e : Env) (l : Nat) : List CWord :=
      valueWords n (f (value s e sh 0 l) (if wrap then value s e sh 1 l % n else value s e sh 1 l)) (tainted s e sh l)
    Gives (.and h w d a b) (regPlan h d (wide w) ab) d (by2 fun x y => x && y) ∧
      Gives (.or h w d a b) (regPlan h d (wide w) ab) d (by2 fun x y => x || y) ∧
      Gives (.xor h w d a b) (regPlan h d (wide w) ab) d (by2 fun x y => x ^^ y) ∧
      Gives (.andn h w d a b) (regPlan h d (wide w) ab) d (by2 fun x y => x && !y) ∧
      Gives (.orn h w d a b) (regPlan h d (wide w) ab) d (by2 fun x y => x || !y) ∧
      Gives (.lop3 h w f0 f1 d a b c) (regPlan h d (wide w) abc) d
        (fun s e l => valueWords n
          (bitwise n fun j => (if bit s e abc 2 l j then f1 else f0).getLsbD
            (2 * (bit s e abc 0 l j).toNat + (bit s e abc 1 l j).toNat)) (tainted s e abc l)) ∧
      Gives (.shl h w wrap d a b) (regPlan h d (wide w) sh) d (shift fun x k => if k < n then x * 2 ^ k % 2 ^ n else 0) ∧
      Gives (.shr h w wrap d a b) (regPlan h d (wide w) sh) d (shift fun x k => if k < n then x / 2 ^ k else 0) ∧
      Gives (.sar h w wrap d a b) (regPlan h d (wide w) sh) d
        (shift fun x k => if k < n then wrapInt n (ival true n x / 2 ^ k) else if 2 ^ (n - 1) ≤ x then 2 ^ n - 1 else 0) ∧
      Gives (.rol h w d a b) (regPlan h d (wide w) sh) d
        (fun s e l => valueWords n (bitwise n fun j => bit s e sh 0 l ((j + n - value s e sh 1 l % n) % n)) (tainted s e sh l)) ∧
      Gives (.fsh h left d a b c) (regPlan h d 1 w3) d
        (fun s e l =>
          let v := value s e w3 0 l + 2 ^ 32 * value s e w3 1 l
          let k := value s e w3 2 l % 32
          valueWords 32 (if left then v / 2 ^ (32 - k) % 2 ^ 32 else v / 2 ^ k % 2 ^ 32) (tainted s e w3 l)) ∧
      Gives (.popc h w d b) (regPlan h d 1 bb) d
        (fun s e l => valueWords 32 ((List.range n).filter (bit s e bb 0 l)).length (tainted s e bb l)) ∧
      Gives (.clz h w d b) (regPlan h d 1 bb) d
        (fun s e l => valueWords 32 ((List.range n).takeWhile fun j => !bit s e bb 0 l (n - 1 - j)).length (tainted s e bb l)) ∧
      Gives (.ctz h w d b) (regPlan h d 1 bb) d
        (fun s e l => valueWords 32 ((List.range n).takeWhile fun j => !bit s e bb 0 l j).length (tainted s e bb l)) ∧
      Gives (.brev h w d b) (regPlan h d (wide w) bb) d
        (fun s e l => valueWords n (bitwise n fun j => bit s e bb 0 l (n - 1 - j)) (tainted s e bb l)) ∧
      Gives (.bfx h ty d a b) (regPlan h d ty.words bx) d
        (fun s e l =>
          let p := value s e bx 1 l % 2 ^ 8
          let len := value s e bx 1 l / 2 ^ 8 % 2 ^ 8
          let f := value s e bx 0 l / 2 ^ p % 2 ^ min len (m - p)
          valueWords m (if m ≤ p ∨ len = 0 then 0 else wrapInt m (ival ty.signed (min len (m - p)) f)) (tainted s e bx l)) ∧
      Gives (.bfi h w d a b c) (regPlan h d (wide w) bi) d
        (fun s e l =>
          let p := value s e bi 1 l % 2 ^ 8
          let len := value s e bi 1 l / 2 ^ 8 % 2 ^ 8
          valueWords n (bitwise n fun j => if p ≤ j ∧ j < p + len then bit s e bi 0 l (j - p) else bit s e bi 2 l j)
            (tainted s e bi l)) ∧
      Gives (.permb h d a b c) (regPlan h d 1 w3) d
        (fun s e l =>
          let pair := value s e w3 0 l + 2 ^ 32 * value s e w3 1 l
          let byte (i : Nat) : Nat :=
            let nib := elem 4 (value s e w3 2 l) i
            let x := elem 8 pair (nib % 8)
            if 8 ≤ nib then (if x.testBit 7 then 255 else 0) else x
          valueWords 32 (packEls 8 ((List.range 4).map byte)) (tainted s e w3 l))

/-! ### Moves, residues, guards -/

/-- MOV, SEL and GMOV pass the words of one source on with their codes; a Poison selector makes the words of SEL
Poison; RSD reads codes as data, raw ones without the operand-read check; RSDP gives the same data as Poison (R37 to
R40, R220, R221). The data bits of a `SEL` that a Poison selector makes Poison are the model's (log 32). -/
def Obligations.Moves : Prop :=
  ∀ (h : Hints) (w raw neg : Bool) (n : BitVec 3) (d a c : Reg) (b : Opd),
    let bb := [srcB b (wide w)]
    let ab := [srcA a (wide w), srcB b (wide w)]
    let abc := [srcA a (wide w), srcB b (wide w), srcC c 1]
    let rs := [{ srcB b (wide w) with raw := raw }]
    Gives (.mov h w d b) (regPlan h d (wide w) bb) d (fun s e l => words s e bb 0 l) ∧
      Gives (.sel h w d a b c) (regPlan h d (wide w) abc) d
        (fun s e l =>
          let ws := words s e abc (if value s e abc 2 l = 0 then 1 else 0) l
          if anyBad (words s e abc 2 l) then ws.map fun x => .poisoned x.data else ws) ∧
      Gives (.gmov h w n neg d a b) { regPlan h d (wide w) ab with guards := [n], alu := false } d
        (fun s e l => words s e ab (if (e.g.word (.g n.toNat l)).data.getLsbD 0 = neg then 1 else 0) l) ∧
      Gives (.rsd h w raw d b) { regPlan h d 1 rs with super := raw } d
        (fun s e l => valueWords 32 ((words s e rs 0 l).foldr (fun x n => x.code.toNat + 16 * n) 0) false) ∧
      Gives (.rsdp h w d b) (regPlan h d (wide w) bb) d
        (fun s e l => (words s e bb 0 l).map fun x => .poisoned x.data)

/-- The instructions that write one guard in every thread that takes part: the compares with their combination, the
two-input functions of guards, the test of a word, and the test for Poison, which is no consumption (R218, R219, R232,
R40). -/
def Obligations.GuardResults : Prop :=
  ∀ (h : Hints) (ty : IntTy) (ft : FloatTy) (ci : ICond) (cf : FCond) (k : Comb) (w : Bool) (lut : BitVec 4)
    (g ga gb : BitVec 3) (a : Reg) (b : Opd), ty.narrow = false →
    let xi := (intAB ty a b).map Src.consumed
    let xf := (floatAB ft a b).map Src.consumed
    let was (e : Env) (i : BitVec 3) (l : Nat) : Bool := (e.g.word (.g i.toNat l)).data.getLsbD 0
    GivesGuard (.icmp h ty ci k g a b) (guardPlan h xi (combGuards k g)) g
        (fun s e l => combine k (was e g l) (icond ci (element s e xi ty 0 l 0) (element s e xi ty 1 l 0))) ∧
      GivesGuard (.fcmp h ft cf k g a b) (guardPlan h xf (combGuards k g)) g
        (fun s e l => combine k (was e g l)
          (fcond cf ((Fmt.ieee ft).val (value s e xf 0 l % 2 ^ ft.bits)) ((Fmt.ieee ft).val (value s e xf 1 l % 2 ^ ft.bits)))) ∧
      GivesGuard (.gset h lut g ga gb) (guardPlan h [] [ga, gb]) g
        (fun _ e l => lut.getLsbD (2 * (was e ga l).toNat + (was e gb l).toNat)) ∧
      GivesGuard (.gsetNz h g b) (guardPlan h [(srcB b 1).consumed] []) g
        (fun s e l => decide (value s e [(srcB b 1).consumed] 0 l ≠ 0)) ∧
      GivesGuard (.rsdq h w g b) (guardPlan h [srcB b (wide w)] []) g
        (fun s e l => (words s e [srcB b (wide w)] 0 l).any fun x => x.code == poisonCode)

/-! ### Floating point -/

/-- The instructions of group 0x4 that write a register (R227 to R231): the exact result of the modified operands,
rounded once under the class of the type; the choices and the class mask round nothing. The data bits of a Poison
result are the model's (log 32). -/
def Obligations.FloatResults : Prop :=
  ∀ (h : Hints) (ty : FloatTy) (ma mb mc : NegAbs) (rm : RMode) (d a c : Reg) (b : Opd),
    let ab := floatAB ty a b
    let abc := floatAB ty a b ++ [srcC c ty.words]
    let ai := [srcA a ty.words, srcB b 1]
    let bb := [floatB ty b]
    let f := Fmt.ieee ty
    let rnd (e : Env) : Nat := (ctlOf e.g.fmode.toNat f.cls).rnd
    let rounded (xs : List Src) (v : State → Env → Nat → Val) (s : State) (e : Env) (l : Nat) : List CWord :=
      floatWords ty ((laneEnv e l).round f 0 (v s e l)).bits (tainted s e xs l)
    let opd (xs : List Src) (k : Nat) (m : NegAbs) (s : State) (e : Env) (l : Nat) : Val := fval ty m (value s e xs k l)
    let pat (xs : List Src) (k : Nat) (m : NegAbs) (s : State) (e : Env) (l : Nat) : Nat := applyMod m ty.bits (value s e xs k l)
    GivesRounded (.fadd h ty ma mb d a b) [f] (regPlan h d ty.words ab) d
        (rounded ab fun s e l => Val.add (rnd e) (opd ab 0 ma s e l) (opd ab 1 mb s e l)) ∧
      GivesRounded (.fsub h ty ma mb d a b) [f] (regPlan h d ty.words ab) d
        (rounded ab fun s e l => Val.add (rnd e) (opd ab 0 ma s e l) (opd ab 1 mb s e l).neg) ∧
      GivesRounded (.fmul h ty ma mb d a b) [f] (regPlan h d ty.words ab) d
        (rounded ab fun s e l => Val.mul (opd ab 0 ma s e l) (opd ab 1 mb s e l)) ∧
      GivesRounded (.ffma h ty ma mb mc d a b c) [f] (regPlan h d ty.words abc) d
        (rounded abc fun s e l => Val.add (rnd e) (Val.mul (opd abc 0 ma s e l) (opd abc 1 mb s e l)) (opd abc 2 mc s e l)) ∧
      GivesRounded (.fscl h ty ma d a b) [f] (regPlan h d ty.words ai) d
        (rounded ai fun s e l => fsclVal (opd ai 0 ma s e l) (ival true 32 (value s e ai 1 l))) ∧
      Gives (.fmin h ty ma mb d a b) (regPlan h d ty.words ab) d
        (fun s e l => floatWords ty (fchoose false f (pat ab 0 ma s e l) (pat ab 1 mb s e l)) (tainted s e ab l)) ∧
      Gives (.fmax h ty ma mb d a b) (regPlan h d ty.words ab) d
        (fun s e l => floatWords ty (fchoose true f (pat ab 0 ma s e l) (pat ab 1 mb s e l)) (tainted s e ab l)) ∧
      GivesRounded (.frnd h ty rm mb d b) (if rm = .rf then [f] else []) (regPlan h d ty.words bb) d
        (fun s e l => floatWords ty (frndBits ty rm (laneEnv e l) (pat bb 0 mb s e l)) (tainted s e bb l)) ∧
      Gives (.fcls h ty d b) (regPlan h d 1 bb) d
        (fun s e l => valueWords 32 (fclass ty (value s e bb 0 l % 2 ^ ty.bits)) (tainted s e bb l))

/-- The bits of a number that a standard format holds are unchanged by rounding it into that format, under every
control word: so a conversion to the same format changes no number (R182, R239). -/
def Obligations.RoundingIsExact : Prop :=
  ∀ (t : FloatTy) (c : Ctl) (r16 x : Nat), r16 < 2 ^ 16 → x < 2 ^ t.bits →
    (Fmt.ieee t).val x ≠ .nan → (roundTo (.ieee t) c r16 ((Fmt.ieee t).val x)).bits = x

/-- The packed instructions and dot products of group 0x5 (R233 to R236): each element is rounded alone, as the
element of its index; a dot product is exact and rounded once to binary32. The data bits of a Poison result are the
model's (log 32). -/
def Obligations.PackedResults : Prop :=
  ∀ (h : Hints) (bf na nb nc abs : Bool) (q qa qb : B8Fmt) (d a c : Reg) (b : Opd),
    let ab := words2 a b
    let abc := words3 a b c
    let f := halfFmt bf
    let rnd (e : Env) (f : Fmt) : Nat := (ctlOf e.g.fmode.toNat f.cls).rnd
    let el (xs : List Src) (k : Nat) (f : Fmt) (s : State) (e : Env) (l i : Nat) : Val := f.val (elem f.bits (value s e xs k l) i)
    let packed (xs : List Src) (f : Fmt) (v : State → Env → Nat → Nat → Val) (s : State) (e : Env) (l : Nat) : List CWord :=
      packedWords f (fun i => ((laneEnv e l).round f i (v s e l i)).bits) (tainted s e xs l)
    let half (k : Nat) (neg : Bool) (s : State) (e : Env) (l i : Nat) : Nat := applyMod ⟨neg, false⟩ 16 (elem 16 (value s e ab k l) i)
    let dotted (n : Nat) (fa fb : Fmt) (s : State) (e : Env) (l : Nat) : List CWord :=
      floatWords .f32
        ((laneEnv e l).round (.ieee .f32) 0 (Val.sum (rnd e (.ieee .f32))
          ((Fmt.ieee .f32).val (value s e abc 2 l) ::
            (List.range n).map fun i => Val.mul (el abc 0 fa s e l i) (el abc 1 fb s e l i)))).bits (tainted s e abc l)
    GivesRounded (.hadd2 h bf na nb d a b) [f] (regPlan h d 1 ab) d
        (packed ab f fun s e l i => Val.add (rnd e f) (negIf na (el ab 0 f s e l i)) (negIf nb (el ab 1 f s e l i))) ∧
      GivesRounded (.hmul2 h bf na nb d a b) [f] (regPlan h d 1 ab) d
        (packed ab f fun s e l i => Val.mul (negIf na (el ab 0 f s e l i)) (negIf nb (el ab 1 f s e l i))) ∧
      GivesRounded (.hfma2 h bf na nb nc d a b c) [f] (regPlan h d 1 abc) d
        (packed abc f fun s e l i =>
          Val.add (rnd e f) (Val.mul (negIf na (el abc 0 f s e l i)) (negIf nb (el abc 1 f s e l i))) (negIf nc (el abc 2 f s e l i))) ∧
      Gives (.hmin2 h bf na nb d a b) (regPlan h d 1 ab) d
        (fun s e l => packedWords f (fun i => fchoose false f (half 0 na s e l i) (half 1 nb s e l i)) (tainted s e ab l)) ∧
      Gives (.hmax2 h bf na nb d a b) (regPlan h d 1 ab) d
        (fun s e l => packedWords f (fun i => fchoose true f (half 0 na s e l i) (half 1 nb s e l i)) (tainted s e ab l)) ∧
      GivesRounded (.qadd4 h q d a b) [.b8 q] (regPlan h d 1 ab) d
        (packed ab (.b8 q) fun s e l i => Val.add (rnd e (.b8 q)) (el ab 0 (.b8 q) s e l i) (el ab 1 (.b8 q) s e l i)) ∧
      GivesRounded (.qmul4 h q d a b) [.b8 q] (regPlan h d 1 ab) d
        (packed ab (.b8 q) fun s e l i => Val.mul (el ab 0 (.b8 q) s e l i) (el ab 1 (.b8 q) s e l i)) ∧
      GivesRounded (.qfma4 h q d a b c) [.b8 q] (regPlan h d 1 abc) d
        (packed abc (.b8 q) fun s e l i =>
          Val.add (rnd e (.b8 q)) (Val.mul (el abc 0 (.b8 q) s e l i) (el abc 1 (.b8 q) s e l i)) (el abc 2 (.b8 q) s e l i)) ∧
      Gives (.qmax4 h abs q d a b) (regPlan h d 1 ab) d
        (fun s e l => packedWords (.b8 q) (fun i => qmaxElem abs q (elem 8 (value s e ab 0 l) i) (elem 8 (value s e ab 1 l) i))
          (tainted s e ab l)) ∧
      GivesRounded (.dot2 h bf d a b c) [.ieee .f32] (regPlan h d 1 abc) d (dotted 2 f f) ∧
      GivesRounded (.dot4q h qa qb d a b c) [.ieee .f32] (regPlan h d 1 abc) d (dotted 4 (.b8 qa) (.b8 qb)) ∧
      GivesRounded (.dotbg h d a b c) [.ieee .f32] (regPlan h d 1 abc) d (dotted 8 .bg4 .bg4)

/-! ### Special functions and conversions -/

/-- The functions of Table 11.4 and the division (R238): one rounding of the function of the operand, returned later.
The square root of a finite positive value is enclosed as closely as every rounding needs: its square lies on the same
side of the square of every multiple of 2^−700 as the radicand does; exact roots are exact (R238). The data bits of a
Poison result are the model's (log 32). -/
def Obligations.SpecialFunctions : Prop :=
  (
    ∀ (h : Hints) (ty : FloatTy) (d a : Reg) (b : Opd),
      let bb := [floatB ty b]
      let ab := floatAB ty a b
      let f := Fmt.ieee ty
      let rounded (xs : List Src) (v : State → Env → Nat → Val) (s : State) (e : Env) (l : Nat) : List CWord :=
        floatWords ty ((laneEnv e l).round f 0 (v s e l)).bits (tainted s e xs l)
      let x (s : State) (e : Env) (l : Nat) : Val := f.val (value s e bb 0 l % 2 ^ ty.bits)
      Returns (.rcp h ty d b) [f] (sfPlan h d ty.words bb) d (rounded bb fun s e l => Val.div (.num false 1 1) (x s e l)) ∧
        Returns (.rsq h ty d b) [f] (sfPlan h d ty.words bb) d (rounded bb fun s e l => rsqFn (x s e l)) ∧
        Returns (.sqrt h ty d b) [f] (sfPlan h d ty.words bb) d (rounded bb fun s e l => sqrtFn (x s e l)) ∧
        Returns (.exp2 h ty d b) [f] (sfPlan h d ty.words bb) d (rounded bb fun s e l => exp2Fn (x s e l)) ∧
        Returns (.log2 h ty d b) [f] (sfPlan h d ty.words bb) d (rounded bb fun s e l => log2Fn (x s e l)) ∧
        Returns (.sin h ty d b) [f] (sfPlan h d ty.words bb) d (rounded bb fun s e l => sinFn (x s e l)) ∧
        Returns (.cos h ty d b) [f] (sfPlan h d ty.words bb) d (rounded bb fun s e l => cosFn (x s e l)) ∧
        Returns (.tanh h ty d b) [f] (sfPlan h d ty.words bb) d (rounded bb fun s e l => tanhFn (x s e l)) ∧
        Returns (.fdiv h ty d a b) [f] (sfPlan h d ty.words ab) d
          (rounded ab fun s e l => Val.div (f.val (value s e ab 0 l % 2 ^ ty.bits)) (f.val (value s e ab 1 l % 2 ^ ty.bits)))) ∧
  (
    ∀ (n d k : Nat), 0 < n → 0 < d → ∀ (a b : Nat), sqrtFn (.num false n d) = .num false a b →
      0 < b ∧ (k * b < a * 2 ^ 700 ↔ k ^ 2 * d < n * 2 ^ 1400) ∧ (a * 2 ^ 700 < k * b ↔ n * 2 ^ 1400 < k ^ 2 * d))

/-- The conversions, the dequantisation, the scale of a channel, the split and the packing of group 0x6 (R239 to R245,
R247), returned later. The data bits of a Poison result are the model's (log 32), and so is the bound of a signed
integer format (log 50). -/
def Obligations.Conversions : Prop :=
  ∀ (h : Hints) (ft dt : FloatTy) (it : IntTy) (rm : RMode) (nf : NarrowFmt) (qf : QuantFmt) (wf : WideFmt) (sf : SplitFmt)
    (sz : PackSz) (pos : BitVec 3) (ex sx : Bool) (d a : Reg) (b : Opd),
    let bf := [floatB ft b]
    let bi := [intB it b]
    let b1 := [srcB b 1]
    let ab := words2 a b
    let pk := words2 a b ++ if sz = .h then [] else [srcD d 1]
    let n := ibits it
    let x (s : State) (e : Env) (l : Nat) : Val := (Fmt.ieee ft).val (value s e bf 0 l % 2 ^ ft.bits)
    let y (s : State) (e : Env) (xs : List Src) (k l : Nat) : Nat := value s e xs k l
    let wide : Fmt := .ieee (WideFmt.ty wf)
    let m := packBits sz
    Returns (.cvt h dt ft d b) [.ieee dt] (sfPlan h d dt.words bf) d
        (fun s e l => floatWords dt ((laneEnv e l).round (.ieee dt) 0 (x s e l)).bits (tainted s e bf l)) ∧
      Returns (.cvtiToInt h it ft rm d b) (if it.narrow then [.int it.signed n] else []) (sfPlan h d it.words bf) d
        (fun s e l => valueWords (obits it)
          (if it.narrow then ((laneEnv e l).round (.int it.signed n) 0 (x s e l)).bits
            else toWideInt it.signed n (rmCode rm) (x s e l)) (tainted s e bf l)) ∧
      Returns (.cvtiFromInt h it ft d b) [.ieee ft] (sfPlan h d ft.words bi) d
        (fun s e l => floatWords ft
          ((laneEnv e l).round (.ieee ft) 0 (Val.ofInt (ival it.signed n (y s e bi 0 l % 2 ^ n)))).bits (tainted s e bi l)) ∧
      Returns (.cvtnNarrow h nf wf d b) [NarrowFmt.fmt nf] (sfPlan h d 1 b1) d
        (fun s e l => valueWords 32
          ((laneEnv e l).round (NarrowFmt.fmt nf) 0 (wide.val (y s e b1 0 l % 2 ^ wide.bits))).bits (tainted s e b1 l)) ∧
      Returns (.cvtnWiden h nf wf d b) [wide] (sfPlan h d 1 b1) d
        (fun s e l => valueWords 32 ((laneEnv e l).round wide 0 ((NarrowFmt.fmt nf).val (y s e b1 0 l))).bits (tainted s e b1 l)) ∧
      Returns (.dqnt h qf wf d a b) [wide] (sfPlan h d 1 [srcA a 1, srcB b 1]) d
        (fun s e l => valueWords 32
          ((laneEnv e l).round wide 0
            (Val.mul ((QuantFmt.fmt qf).val (y s e ab 0 l)) (scaleVal (BitVec.ofNat 32 (y s e ab 1 l))))).bits (tainted s e ab l)) ∧
      Returns (.qscl h qf ex d b) [] (sfPlan h d 1 b1) d
        (fun s e _ => valueWords 32
          (wrapInt 32 (scaleOf (QuantFmt.fmt qf) ex (amaxOf (e.part.map (y s e b1 0))))) (e.part.any (tainted s e b1))) ∧
      Returns (.qspl h sf d b) [] (sfPlan h d 2 b1) d
        (fun s e l =>
          let f := SplitFmt.fmt sf
          let half (g : Nat × Nat → Nat) : Word := BitVec.ofNat 32
            (packEls f.bits ((List.range (32 / f.bits)).map fun i => g (splitElem f (elem f.bits (y s e b1 0 l) i))))
          [half (·.1), half (·.2)].map fun w => if tainted s e b1 l then .poisoned w else .of w) ∧
      Returns (.pack h sz pos d a b) [] (sfPlan h d 1 pk) d
        (fun s e l => valueWords 32
          (packEls m ((List.range (32 / m)).map fun i =>
            if i = 2 * pos.toNat then y s e pk 0 l % 2 ^ m
            else if i = 2 * pos.toNat + 1 then y s e pk 1 l % 2 ^ m
            else if sz = .h then 0 else elem m (y s e pk 2 l) i)) (tainted s e pk l)) ∧
      Returns (.unpk h sz pos sx d b) [] (sfPlan h d 1 b1) d
        (fun s e l => valueWords 32 (wrapInt 32 (ival sx m (elem m (y s e b1 0 l) pos.toNat))) (tainted s e b1 l))

/-- The quantisation (R242): the codes and, with a guard named, the marks of missed scales return later; the counters
of the tensor entries named by the controls rise at once, by one for each saturated or flushed element of a thread
whose CEN is 1 and whose value and scale are not Poison. QSPL.rec (R246): an append to the duplication map of a tensor
entry, with the channel or the failure code that returns later; the entry of the map is one that other thread groups'
matrix operations do not see as yet. The model's choices: the data bits of a Poison result (log 32), the bound of a
signed integer format (log 50), a Poison conversion counts (log 64). -/
def Obligations.Quantise : Prop :=
  (
    ∀ (h : Hints) (nf : QuantFmt) (gs : Option (BitVec 3)) (d a c : Reg) (b : Opd) (s : State) (e : Env),
      let xs := [srcA a 1, srcB b 1, (srcC c 1).consumed]
      let p := sfPlan h d 1 xs
      let f := QuantFmt.fmt nf
      let x (l : Nat) : Val := (Fmt.ieee .f32).val (value s e xs 0 l)
      let code (l : Nat) : Rounded :=
        let y := (laneEnv e l).round f 0 (Val.div (x l) (scaleVal (BitVec.ofNat 32 (value s e xs 1 l))))
        { y with flush := y.flush || ((x l).finite && !(x l).isZero && !y.above && y.bits == 0) }
      let made (l : Nat) : Rounded := code (if d.isS then e.part.headD 0 else l)
      let bad (l : Nat) : Bool := anyBad (words s e xs 0 l) || anyBad (words s e xs 1 l)
      let marks : List (RKey × CWord) :=
        match gs with
        | none => []
        | some g => guardWords e g fun l => bad l || (made l).above || (made l).flush
      let results := toReg e d (fun l => valueWords 32 (code l).bits (bad l)) ++ marks
      let counts (w : Wg) : Wg :=
        (if d.isS then e.part.take 1 else e.part).foldl (fun w l =>
          if (value s e xs 2 l).testBit 6 && !bad l then
            w.countValid (value s e xs 2 l % 64) (code l).above.toNat (code l).flush.toNat
          else w) w
      Ready s e p →
        ∃ g', Leaves e h ((counted e [f] e.g).launchOp (resultOp h results)) g' [] ∧
          exec (.qnt h nf gs d a b c) s = .next (((s.setTg e.r g').updWg e.r.wg counts).endStep e.r)) ∧
  (
    ∀ (h : Hints) (d a : U) (b : Opd) (s : State) (e : Env) (t : Tensor),
      let xs := [(srcA (.s a) 1).consumed, (srcB b 1).consumed]
      let th := value s e xs 0 (e.part.headD 0) % 64
      let k := value s e xs 1 (e.part.headD 0)
      let n := t.map.length
      let w : Nat :=
        if t.valid = false then 0xFFFFFFFD
        else if t.cols + n ≤ k then 0xFFFFFFFE
        else if n = 64 then 0xFFFFFFFF
        else t.cols + n
      let t' : Tensor :=
        if t.valid = true ∧ k < t.cols + n ∧ n ≠ 64 then
          { t with
            map := t.map ++ [if k < t.cols then k else t.map.getD (k - t.cols) 0]
            fresh := t.fresh ++ [⟨n, e.r.tg, e.g.nextOp, []⟩] }
        else t
      Ready s e { h := h, srcs := xs, dst := some (.s d, 1), unit := 2 } → e.w.tensors[th]? = some t →
        ∃ g', Leaves e h (e.g.launchOp (resultOp h [(.s d.toNat, .of (BitVec.ofNat 32 w))])) g' [] ∧
          exec (.qsplRec h d a b) s =
            .next (((s.setTg e.r g').updWg e.r.wg fun w => { w with tensors := updAt w.tensors th fun _ => t' }).endStep e.r))

/-! ### Lanes of one thread group -/

/-- The cross-lane instructions (R248 to R253), returned later: SHFL, RDLN and WRLN move words with their codes; VOTE
writes a guard or a mask; LRED and LSCN reduce; MTCH gives the mask of the equal threads. A thread group has no more
threads than its width. The model's choices: the data bits of a Poison result (log 32); a reduction over one thread
(log 63). -/
def Obligations.CrossLane : Prop :=
  ∀ (h : Hints) (mode : ShflMode) (w neg exc : Bool) (seg g ga : BitVec 3) (ty : RedTy) (op : RedOp) (d a : Reg) (u v : U)
    (vd : BitVec 8) (b : Opd),
    let lane (xs : List Src) (dst : Option (Reg × Nat)) : Plan := { h := h, srcs := xs, dst := dst, unit := 3 }
    let later (i : Instr) (s : State) (e : Env) (ws : List (RKey × CWord)) : Prop :=
      Writes s e h (exec i s) (e.g.launchOp (resultOp h ws)) []
    let cnt := (srcB b 1).consumed
    let xs := srcA a (wide w) :: if mode = .rev then [] else [cnt]
    let j (s : State) (e : Env) (t : Nat) : Nat :=
      let n := if seg = 0#3 then e.g.width else 2 ^ seg.toNat
      let u := t % n
      match mode with
      | .sel => t - u + value s e xs 1 t % n
      | .rot => t - u + (u + value s e xs 1 t) % n
      | .xch => t - u + Nat.xor u (value s e xs 1 t % n)
      | .rev => t - u + (n - 1 - u)
    let see (e : Env) (l : Nat) : Bool := (e.g.word (.g ga.toNat l)).data.getLsbD 0 != neg
    let rb := [redB ty b]
    let reduced (s : State) (e : Env) (key : Nat) (ts : List Nat) : List CWord :=
      let vs := ts.map fun t => redVal ty (value s e rb 0 t)
      let bad := ts.any (tainted s e rb)
      match redIntTy ty, redFloatTy ty with
      | some t, _ => valueWords (obits t) (redInt t op vs) bad
      | none, some t => floatWords t (redFloat t op (laneEnv e key) vs) bad
      | none, none => []
    let scanned (e : Env) (t : Nat) : List Nat := e.part.filter fun i => if exc then decide (i < t) else decide (i ≤ t)
    let eb := [srcB b (wide w)]
    let ys := [srcA a (wide w), { cnt with first := true }]
    let zs := [(srcA (.s v) 1).consumed, srcB b (wide w)]
    ∀ (s : State) (e : Env), e.g.threads.length ≤ e.g.width →
      (Ready s e { lane xs (some (d, wide w)) with sel := some fun _ => j s e } → (seg = 0#3 ∨ 2 ^ seg.toNat ≤ e.g.width) →
        later (.shfl h mode w seg d a b) s e (toReg e d fun t => given s e (srcA a (wide w)) (j s e t))) ∧
      (Ready s e { lane [] none with guards := [ga] } →
        later (.vote h (.all g) neg ga) s e (guardWords e g fun _ => e.part.all (see e)) ∧
        later (.vote h (.any g) neg ga) s e (guardWords e g fun _ => e.part.any (see e)) ∧
        later (.vote h (.eq g) neg ga) s e (guardWords e g fun _ => e.part.all (see e) || e.part.all fun l => !see e l)) ∧
      (Ready s e { lane [] (some (d, 2)) with guards := [ga] } →
        later (.vote h (.mask d) neg ga) s e
          (toReg e d fun _ => valueWords 64 (maskOf (e.part.filter (see e))).toNat false)) ∧
      (Ready s e (lane rb (some (d, ty.words))) →
        Writes s e h (exec (.lred h ty op d b) s)
          ((counted e (redClass ty op) e.g).launchOp
            (resultOp h (toReg e d fun _ => reduced s e (e.part.headD 0) e.part))) [] ∧
        Writes s e h (exec (.lscn h ty op exc d b) s)
          ((counted e (if exc = true ∧ e.part.length < 2 then [] else redClass ty op) e.g).launchOp
            (resultOp h (toReg e d fun t => reduced s e t (scanned e t)))) []) ∧
      (Ready s e (lane eb (some (d, 2))) →
        later (.mtch h w d b) s e (toReg e d fun t =>
          valueWords 64 (maskOf (e.part.filter fun i => !tainted s e eb i && value s e eb 0 i == value s e eb 0 t)).toNat
            (tainted s e eb t))) ∧
      (Ready s e { lane ys (some (.s u, wide w)) with sel := some fun _ _ => value s e ys 1 (e.part.headD 0) % e.g.width } →
        later (.rdln h w u a b) s e (toReg e (.s u) fun _ =>
          given s e (srcA a (wide w)) (value s e ys 1 (e.part.headD 0) % e.g.width))) ∧
      (Ready s e (lane zs (some (.v vd, wide w))) →
        later (.wrln h w vd v b) s e (toReg e (.v vd) fun t =>
          if t = value s e zs 0 (e.part.headD 0) % e.g.width then words s e zs 1 t else []))

/-! ### Encoding, decoding, steps -/

/-- Decoding the encoding of any well-formed instruction gives it back: no operand bit is dropped (R153 to R157). -/
def Obligations.DecodeEncode : Prop :=
  ∀ i : Instr, i.isWord = true → i.wf = true → decode (encode i) = i

/-- Only one word stands for an instruction, and it is well formed: every unused bit is zero (R169). A word of group
0xF whose fields have the general form is an operation of the extension group; the zero word, an always true guard
that is negated, and pending slot 7 are no instruction (R169). -/
def Obligations.EncodeDecode : Prop :=
  (
    ∀ (w : BitVec 96) (i : Instr), decode w = i → i.isWord = true → encode i = w ∧ i.wf = true) ∧
  (
    ∀ w : BitVec 96,
      (w.extractLsb' 92 4 = 15#4 → w.extractLsb' 71 4 = 15#4 → w.getLsbD 75 = false → w.extractLsb' 64 3 ≠ 7#3 →
          w.extractLsb' 0 62 = 0#62 → decode w = .extensionOperation w) ∧
        (w = 0#96 → decode w = .invalidEncoding w) ∧
        (w.extractLsb' 71 4 = 15#4 → w.getLsbD 75 = true → decode w = .invalidEncoding w) ∧
        (w.extractLsb' 64 3 = 7#3 → decode w = .invalidEncoding w))

/-- Words that the manual writes out in its examples decode to the instructions they stand for. -/
def Obligations.DecodedWords : Prop :=
  let h : Hints := ⟨false, 15#4, 0#4, 0#3, false, false⟩
  decode 0x31800780001C00000000000C#96 = .rsd h false false (.v 7) (.reg (.v 12)) ∧
    decode 0x10489780000400C000000004#96 = .iaddx h .n32 (.v 1) 2 (.v 3) (.reg (.v 4)) (some 1) ∧
    decode 0x50000780002002400000000A#96 = .hadd2 h false false false (.v 8) (.v 9) (.reg (.v 10)) ∧
    decode 0x80001782002001A000000040#96 = .ld { h with ps := 2 } .b64 false false (.v 8) (.v 6) (.imm 0x40) ∧
    decode 0x010017800050002000000600#96 = .call h (some (.v 20)) 0x600 ∧
    decode 0xA140D7800000002000000001#96 = .fence h .rel .device 1 ∧
    decode 0xB14017802409022000000040#96 = .mma h true 2 8 0 1 ∧
    decode 0xC08007800001022000000001#96 = .cpyx h 8 1

/-- A step whose turn is an event performs the event at the state that the turn enters; a step whose turn is an issue
performs the instruction that the three words at the PC decode to, and for an instruction that a CUT must follow it notes
whether one does; a step without a turn changes nothing but the count of steps (log 3, log 6, R153, R164). -/
def Obligations.StepRunsDecoded : Prop :=
  ∀ (s : State) (t : Turn), s.host.pwrState ≠ 2#2 →
    (s.nextTurn = none → step s = .next { s with tick := s.tick + 1 }) ∧
      (s.nextTurn = some t → ∀ i, t.move = .event i → i.isWord = false → step s = exec i (s.enter t)) ∧
      (s.nextTurn = some t → ∀ (r : TgRef) (w : Wg) (g g1 : Tg) (l : Launch) (s1 : State) (ws : List CWord),
        t.move = .issue r → (s.enter t).wg? r.wg = some w → (s.enter t).tg? r = some g → (s.enter t).launchOf w = some l →
        mayIssue (s.enter t) w g = true → (s.enter t).inTurn w.core r g = true → g.ensureShot = some g1 → g1.shot.pc.toNat % 4 = 0 →
        fetch { (takeRound (s.enter t) w.core r g).setTg r { g1 with brk := none } with cur := some r } w.core l.ctx l.part g1.super
          ((members g1.shot.set).headD 0) g1.shot.pc.toNat 3 = (s1, .words ws) → anyBad ws = false →
        (Instr.needsCut (decode (wordOf3 ws)) = false →
          step s = exec (decode (wordOf3 ws)) (s1.updTg r fun g => { g with debug := stepped g.debug false })) ∧
        (Instr.needsCut (decode (wordOf3 ws)) = true → ∀ s2 next,
          fetch s1 w.core l.ctx l.part g1.super ((members g1.shot.set).headD 0) ((g1.shot.pc.toNat + 12) % 2 ^ 57) 3 =
            (s2, .words next) →
          step s = exec (decode (wordOf3 ws))
            ((s2.updTg r fun g => { g with nextCut := isCut next }).updTg r fun g => { g with debug := stepped g.debug (Instr.stepsWithCut (decode (wordOf3 ws))) })))

/-- Every instruction and event has a next state in every state in which it can be performed: an instruction when some
thread group of a launched workgroup issues, an event always. There is no stuck state and no refusal. -/
def Obligations.EveryInstructionCompletes : Prop :=
  ∀ (i : Instr) (s : State),
    (match i with | .invalidEncoding _ | .extensionOperation _ => false | i => !i.isWord) = true ∨
      (∃ r w g l, s.cur = some r ∧ s.wg? r.wg = some w ∧ s.tg? r = some g ∧ s.launchOf w = some l) →
    ∃ t, exec i s = .next t

/-- What every step keeps (log 1, log 3; R371): the canonical form of memory, and eight logs of at most 256 records. -/
def Obligations.StepKeepsInvariant : Prop :=
  ∀ s t : State, Inv s → step s = .next t → Inv t

/-- The invariant holds after reset. -/
def Obligations.ResetHasInvariant : Prop :=
  Inv State.reset

/-- What reset leaves of the registers whose reset values the register tables give (R9): main memory's capacity and region
table (Table 3.3), map-out (Table 3.5), partitions (Tables 4.5, 5.2, 5.6), the host interface (chapter 22), power, the
defences (chapter 19); no context, launch, workgroup or cached line. -/
def Obligations.ResetValues : Prop :=
  let s := State.reset
  s.mm.memcap = 0xC000000000#40 ∧ s.mm.regions = List.replicate 64 0#64 ∧ s.mm.full = false ∧ s.mm.mstate = 0 ∧
    s.mm.segLive = List.replicate 16 0xFFF#12 ∧ s.mm.diePend = List.replicate 12 0#16 ∧
    s.cs.weight = List.replicate 8 1#8 ∧ s.cs.ceq = 32#6 :: List.replicate 7 0#6 ∧ s.cs.crflush = none ∧ s.cs.tlbinv = none ∧
    s.host.evLog = 0 ∧ s.host.ctxCnt = 0#16 ∧ s.host.cmd = none ∧ s.host.pwrLimit = 3000#12 ∧ s.host.pwrState = 0#2 ∧
    s.host.featCores = 384 ∧ s.host.featGib = 768 ∧ (∀ q ∈ s.host.queues, q.head = 0#32 ∧ q.tail = 0#32) ∧ (∀ l ∈ s.host.links, l.en = false ∧ l.state = 0) ∧
    (∀ p ∈ s.host.peers, p.valid = false) ∧ s.dfs.dailyEn = true ∧ s.dfs.dailyPeriod = 1000#16 ∧ s.dfs.slArm = true ∧
    (s.core 0).govLimit = 256 ∧ (s.core 0).govStep = 64 ∧
    s.contexts = [] ∧ s.launches = [] ∧ s.wgs = [] ∧ s.cs.l1 = [] ∧ s.cs.l2 = [] ∧ s.cs.tlb = [] ∧ s.clock = 0#64 ∧
    s.logs = List.replicate 8 ⟨[], 0⟩

/-! ### Traps -/

/-- Taking a trap in user mode (R425): the cause, the threads and the address are saved, supervisor mode begins, the
threads of the issue set stand ready at the trap vector, every other ready thread is held, a new shot will start;
registers, guards, links, counts, `sr.fmode`, the stack, serial mode, slots and counters stay; a step of a debugger
ends (log 40). (A CONTINUITY trap also counts REPEAT and may fire the slate: it is stated apart.) A continuity trap
(R31, R425): besides, its address counts for REPEAT, at most 63, and the slate when it is armed for continuity
failures (R452). -/
def Obligations.TrapEntry : Prop :=
  (
    ∀ (s : State) (r : TgRef) (g : Tg) (w : Wg) (cause : BitVec 32) (mask : BitVec 64) (cut : Bool),
      s.tg? r = some g → s.wg? r.wg = some w → g.super = false → causeOf cause ≠ 2 → g.threads.length ≤ 64 →
        ∃ g', takeTrap s r cause mask cut = (s.setTg r g').endStep r ∧
          g'.tcause = cause ∧ g'.tmask = mask ∧ g'.tpc = g.shot.pc.setWidth 64 ∧ g'.super = true ∧ shotEnded g' ∧
          (∃ sv, g'.saved = some sv ∧ sv.shot = g.shot ∧ sv.set = g.shot.set ∧ sv.temps = g.temps ∧ sv.tpc = g.shot.pc) ∧
          g'.threads.length = g.threads.length ∧
          (∀ i t t', g.threads[i]? = some t → g'.threads[i]? = some t' →
            t'.guards = t.guards ∧ t'.ccnt = t.ccnt ∧ t'.linkLo = t.linkLo ∧ t'.linkHi = t.linkHi ∧
              (if g.shot.set.getLsbD i then t'.pc = trapVector s w ∧ t'.status = .ready
                else t'.pc = t.pc ∧ t'.status = if t.status = .ready then .held else t.status)) ∧
          { g' with tcause := 0#32, tmask := 0#64, tpc := 0#64, super := false, saved := none, threads := [] } =
            { g with
              tcause := 0#32, tmask := 0#64, tpc := 0#64, super := false, saved := none, threads := [], flights := [], temps := []
              shot := .none, phase := .ready, debug := Debug.halted g.debug }) ∧
  (
    ∀ (s : State) (r : TgRef) (g : Tg) (w : Wg) (cause : BitVec 32) (mask : BitVec 64) (cut : Bool),
      s.tg? r = some g → s.wg? r.wg = some w → g.super = false → causeOf cause = 2 →
        ∃ g', takeTrap s r cause mask cut =
            ((if s.dfs.slConten then fireSlate s 2 (cause.toNat / 2 ^ 16) else s).setTg r g').endStep r ∧
          g'.tcause = cause ∧ g'.tmask = mask ∧ g'.tpc = g.shot.pc.setWidth 64 ∧ g'.super = true ∧
          g'.rpt = g.shot.pc :: g.rpt ∧
          (∀ k, realKey k = true → (∀ i l, k ≠ .k i l) → g'.word k = g.word k))

/-- A trap of any cause in supervisor mode is a double trap (R427): a record of kind 0x60 with both cause words and
the handler's address, and the workgroup ends as R428 states, with end status ENDED. A continuity failure is one also
for the slate's arm (R452). With host debugging on, `BRK` stops the thread group before it has any effect (R429). -/
def Obligations.DoubleTrap : Prop :=
  (
    ∀ (s : State) (r : TgRef) (g : Tg) (w : Wg) (cause : BitVec 32) (mask : BitVec 64) (cut : Bool),
      s.tg? r = some g → s.wg? r.wg = some w → g.super = true →
        let s0 := if causeOf cause = 2 ∧ s.dfs.slConten = true then fireSlate s 2 (cause.toNat / 2 ^ 16) else s
        takeTrap s r cause mask cut =
          endWorkgroup
            (appendRecord s0 (s.partOf w) 0x60 w.core g.slot g.shot.pc.toNat (cause.toNat + 2 ^ 32 * g.tcause.toNat) 0) r.wg 1) ∧
  (
    ∀ (h : Hints) (code : BitVec 16) (s : State) (e : Env), Ready s e { h := h } → debugging s e = true →
      ∃ t g', exec (.brk h code) s = .next t ∧ t.tg? e.r = some g' ∧ g'.debug = .stopped ∧ g'.brk = some e.pc ∧
        g'.threads = e.g.threads ∧ g'.super = e.g.super ∧ g'.active = false)

/-- A trap and a return that leaves `sr.tpc` alone give the thread group back, ready to replay the instruction: its
registers, its threads at their PCs, its shot and its temporaries (R35, R425, R426). What differs is what the trap
itself writes, the ages, which count the issue (R405), and a debugger's step, which ends (log 40). The return when the
handler has moved `sr.tpc` (R426, R166): one instruction on, the interrupted shot continues, unless it was the shot's
`CUT` that was skipped; to any other address, a new shot starts there, and the waits that the shot deferred are kept.
-/
def Obligations.TrapThenReturn : Prop :=
  (
    ∀ (s : State) (r : TgRef) (g : Tg) (w : Wg) (cause : BitVec 32) (mask : BitVec 64) (cut : Bool),
      s.tg? r = some g → s.wg? r.wg = some w → g.super = false → g.saved = none → g.ret = false → g.phase = .ready →
      causeOf cause ≠ 2 →
      (∀ i t, g.threads[i]? = some t → g.shot.set.getLsbD i = true → t.status = .ready ∧ t.pc = g.shot.pc) →
        ((takeTrap s r cause mask cut).tg? r).map Tg.trapReturn =
          some { g.countIssue g.shot.set with
            tcause := cause, tmask := mask, tpc := g.shot.pc.setWidth 64, flights := [], debug := Debug.halted g.debug }) ∧
  (
    ∀ (g : Tg) (sv : SavedShot), g.saved = some sv → sv.boundary = false → sv.atExit = false →
      let tpc : BitVec 57 := g.tpc.setWidth 57
      g.trapReturn.super = false ∧ g.trapReturn.saved = none ∧ g.trapReturn.phase = .ready ∧
        (∀ i t, g.trapReturn.threads[i]? = some t → sv.set.getLsbD i = true → t.pc = tpc) ∧
        (tpc = sv.tpc + 12#57 → sv.wasCut = false →
          g.trapReturn.shot = { sv.shot with pc := tpc } ∧ g.trapReturn.temps = sv.temps ∧ g.trapReturn.kept = g.kept) ∧
        (tpc ≠ sv.tpc → tpc ≠ sv.tpc + 12#57 ∨ sv.wasCut = true →
          g.trapReturn.shot = Shot.none ∧ g.trapReturn.kept = g.kept ++ sv.shot.waits))

/-- `TRAP` and, without host debugging, `BRK` enter the handler with their code; a word that is no instruction enters it as an
illegal instruction, with threads that the manual does not name (log 25); an operation of group 0xF enters it for emulation,
with its word and its operands left for the handler (R170, R352, R429). -/
def Obligations.SoftwareTraps : Prop :=
  ∀ (h : Hints) (code : BitVec 16) (x : BitVec 96) (s : State) (e : Env),
    Traps (.trap h code) { h := h } always (fun _ _ => BitVec.ofNat 32 (0x08000000 + code.toNat)) ∧
      Traps (.brk h code) { h := h } (fun s e => debugging s e = false) (fun _ _ => BitVec.ofNat 32 (0x09000000 + code.toNat)) ∧
      (env? s ⟨false, 15#4, 0#4, 0#3, false, false⟩ = some e →
        ∃ mask, exec (.invalidEncoding x) s = .next (takeTrap s e.r 0x01000000#32 mask false)) ∧
      (Ready s e { h := wordHints x, srcs := extSrcs x, dst := extDst x } → e.g.width ≤ 64 →
        ∃ g', exec (.extensionOperation x) s = .next (takeTrap (s.setTg e.r g') e.r 0x04000000#32 (maskOf e.part) false) ∧
          g'.tinst = x ∧ { g' with tinst := e.g.tinst, tops := e.g.tops } = e.g ∧
          ∀ y ∈ extSrcs x, ∀ l, y.field < 3 → l < e.g.width →
            lookD .zero g'.tops (64 * y.field + l) = if l ∈ e.part then (given s e y l).headD .zero else .zero)

/-- The instructions that their entry reserves to supervisor mode take the illegal-instruction trap in user mode, whatever
thread takes part (R169, R353, R360, R371, R38, R150). -/
def Obligations.Privilege : Prop :=
  ∀ (i : Instr) (h : Hints) (s : State) (e : Env), env? s h = some e → e.g.cancel = false → e.g.super = false →
    (match i with
      | .tret k => k = h
      | .erriCnt k _ | .erriRd k _ _ => k = h
      | .erriPop k => k = h
      | .cpyrGo k _ _ | .cpyrAb k _ _ => k = h
      | .rsd k _ raw _ _ => k = h ∧ raw = true
      | .wrsr k n _ => k = h ∧ srSuper n = true
      | .rdsr k n _ => k = h ∧ srSuper n = true
      | _ => False) →
    ∃ mask, exec i s = .next (takeTrap s e.r 0x01000000#32 mask false)

/-! ### Control -/

/-- Instructions without operands, and the transfers (R347, R353): `NOP` and `YIELD`; the targets, the links, the
saved and restored links; `TRET` marks the return that its `CUT` performs. A target that does not lie at a multiple of
4 below 2^57 takes the ADDRESS trap of the fetch class in the lowest thread, with every such thread reported (R347,
R420). -/
def Obligations.Transfers : Prop :=
  (
    ∀ (h : Hints) (off : Word) (a b : Reg) (v : Option (BitVec 8)),
      let sv := v.map Reg.v
      let rel (e : Env) : Int := (e.pc.toNat : Int) + off.toInt
      let fine (e : Env) : Prop := 0 ≤ rel e ∧ sane (rel e).toNat
      let src := [(srcA a 2).consumed]
      let p : Plan := { h := h, cutAfter := true }
      let dst : Option (Reg × Nat) := sv.map fun d => (d, 2)
      Performs (.nop h) { h := h } always (fun s _ => s) ∧
        Performs (.yield h) { h := h } always (fun s e => s.setTg e.r { e.g with shot := { e.g.shot with yieldInstr := true } }) ∧
        Performs (.bra h off) p (fun _ e => fine e) (fun s e => s.setTg e.r (sent e e.g (fun _ => (rel e).toNat) fun _ t => t)) ∧
        Performs (.brx h a) { p with srcs := src } (fun s e => ∀ l ∈ e.part, sane (value s e src 0 l))
          (fun s e => s.setTg e.r (sent e e.g (value s e src 0) fun _ t => t)) ∧
        Performs (.call h sv off) { p with dst := dst } (fun _ e => fine e)
          (fun s e => s.setTg e.r (sent e (savedLinks e sv) (fun _ => (rel e).toNat) fun _ t => linked e t)) ∧
        Performs (.callx h sv a) { p with srcs := src, dst := dst } (fun s e => ∀ l ∈ e.part, sane (value s e src 0 l))
          (fun s e => s.setTg e.r (sent e (savedLinks e sv) (value s e src 0) fun _ t => linked e t)) ∧
        Performs (.ret h none) { p with link := true } (fun _ e => ∀ l ∈ e.part, valOf (linkOf e l) % 4 = 0)
          (fun s e => s.setTg e.r (sent e e.g (fun l => valOf (linkOf e l) % 2 ^ 57) fun _ t => t)) ∧
        Performs (.ret h (some b)) { p with srcs := [srcA b 2], link := true }
          (fun _ e => ∀ l ∈ e.part, valOf (linkOf e l) % 4 = 0)
          (fun s e => s.setTg e.r (sent e e.g (fun l => valOf (linkOf e l) % 2 ^ 57) fun l t =>
            { t with
              linkLo := (words s e [srcA b 2] 0 l).getD 0 .zero
              linkHi := linkHalf ((words s e [srcA b 2] 0 l).getD 1 .zero) })) ∧
        Performs (.tret h) { p with super := true } (fun _ e => sane e.g.tpc.toNat)
          (fun s e => s.setTg e.r { e.g.mapThreads e.set (fun _ t => { t with next := some (e.pc + 24#57) }) with ret := true })) ∧
  (
    ∀ (h : Hints) (a : Reg) (s : State) (e : Env),
      let src := [(srcA a 2).consumed]
      let bad := e.part.filter fun l => decide (¬ sane (value s e src 0 l))
      Ready s e { h := h, srcs := src, cutAfter := true } → bad ≠ [] →
        exec (.brx h a) s =
          .next (takeTrap s e.r (BitVec.ofNat 32 (0x11 * 2 ^ 24 + 3 * 2 ^ 17 + bad.headD 0 * 2 ^ 10)) (maskOf bad) false))

/-- The reconvergence stack (R348, R349, R408): `RCV` pushes a frame of the threads that take part; the overflowing
one puts all but the lowest of them to wait; one in serial mode appends a level. `JOIN` away from the top frame's
address falls through; at it, the threads wait while a member has not arrived, and the last arrival releases the
members behind the `CUT`. `EXIT` (R350, R428): outside a handler and any frame, the threads that take part are exited
and leave the issue set; in a handler, it ends the workgroup with end status ENDED. -/
def Obligations.Reconvergence : Prop :=
  (
    ∀ (h : Hints) (off : Word) (s : State) (e : Env),
      let rel : Int := (e.pc.toNat : Int) + off.toInt
      let jpc : BitVec 57 := BitVec.ofNat 57 rel.toNat
      let fell := e.g.mapThreads e.set fun _ t => { t with next := some (e.pc + 24#57) }
      (Ready s e { h := h } → 0 ≤ rel → sane rel.toNat →
        (e.g.serial = none → e.g.stack.length < 16 →
          exec (.rcv h off) s =
            .next (retired e h false (s.setTg e.r { e.g with stack := e.g.stack ++ [⟨jpc, maskOf e.part⟩] }))) ∧
        (e.g.serial = none → 16 ≤ e.g.stack.length →
          exec (.rcv h off) s =
            .next (retired e h false (s.setTg e.r
              { e.g.mapThreads (maskOf (e.part.drop 1)) (fun _ t => { t with status := .held }) with
                serial := some ⟨[jpc], maskOf e.part, e.part.headD 0⟩
                shot := { e.g.shot with set := maskOf [e.part.headD 0] } }))) ∧
        (∀ x, e.g.serial = some x → x.jpcs.length < 255 →
          exec (.rcv h off) s =
            .next (retired e h false (s.setTg e.r { e.g with serial := some { x with jpcs := x.jpcs ++ [jpc] } })))) ∧
      (Ready s e { h := h, cutAfter := true } → e.g.serial = none →
        ((e.g.stack.getLast?.map (·.jpc)) ≠ some e.pc → exec (.join h) s = .next (retired e h false (s.setTg e.r fell))) ∧
        (∀ f, e.g.stack.getLast? = some f → f.jpc = e.pc →
          ((∃ i t, i ∈ members f.members ∧ i ∉ e.part ∧ e.g.threads[i]? = some t ∧ t.status ≠ .arrived ∧ t.status ≠ .exited) →
            exec (.join h) s = .next (retired e h false (s.setTg e.r
              { fell.mapThreads (maskOf e.part) (fun _ t => { t with status := .arrived }) with
                shot := { e.g.shot with set := e.g.shot.set &&& ~~~(maskOf e.part) } }))) ∧
          ((∀ i ∈ members f.members, i ∉ e.part → ∀ t, e.g.threads[i]? = some t → t.status = .arrived ∨ t.status = .exited) →
            (∃ i ∈ e.part, i ∈ members f.members) →
            ∃ g', exec (.join h) s = .next (retired e h false (s.setTg e.r g')) ∧ g'.stack = e.g.stack.dropLast ∧
              ∀ i t t', i ∈ members f.members → e.g.threads[i]? = some t → t.status ≠ .exited → g'.threads[i]? = some t' →
                t'.status = .ready ∧ (if e.set.getLsbD i then t'.next = some (e.pc + 24#57) else t'.pc = e.pc + 24#57))))) ∧
  (
    ∀ (h : Hints) (s : State) (e : Env), Ready s e { h := h, cutAfter := true } →
      (e.g.super = false → e.g.serial = none → e.g.stack = [] →
        exec (.exit h) s = .next (retired e h false (s.setTg e.r
          { (e.g.mapThreads e.set fun _ t => { t with next := some (e.pc + 24#57) }).mapThreads (maskOf e.part)
              (fun _ t => { t with status := .exited, next := none }) with
            shot := { e.g.shot with set := e.g.shot.set &&& ~~~(maskOf e.part) }
            exitSet := maskOf e.part }))) ∧
        (e.g.super = true → exec (.exit h) s = .next (retired e h false (endWorkgroup s e.r.wg 1))))

/-- `CUT` (R163 to R165): with nothing to wait for it ends the shot, its temporaries are invalid, and each thread of
the issue set stands at the target that a transfer set, or behind the `CUT`; with a slot it names not empty it waits,
out of the active set, and the wait ends once slots and waits allow. The end of a wait at a `CUT`, when every slot and
wait allows it (R163, R165). -/
def Obligations.CutEndsShot : Prop :=
  (
    ∀ (h : Hints) (w : Word) (s : State) (e : Env), Ready s e { h := h, srcs := [(srcB (.imm w) 1).consumed], cut := true } →
      let mask : BitVec 6 := BitVec.ofNat 6 (w.toNat / 2)
      e.g.shot.waits = [] → e.g.kept = [] → e.g.ret = false → (∀ t ∈ e.g.threads, t.status ≠ .exited) →
      (e.g.shot.yieldInstr = false → e.g.slotsClear mask = true →
        ∃ t g', exec (.cut h (.imm w)) s = .next t ∧ t.tg? e.r = some g' ∧ shotEnded g' ∧ g'.flights = [] ∧
          g'.threads.map (·.pc) =
            (e.g.threads.zip (List.range e.g.threads.length)).map fun ti =>
              if e.set.getLsbD ti.2 then ti.1.next.getD (e.pc + 12#57) else ti.1.pc) ∧
      (e.g.slotsClear mask = false →
        ∃ t g', exec (.cut h (.imm w)) s = .next t ∧ t.tg? e.r = some g' ∧ g'.phase = .atCut mask ∧ g'.active = false)) ∧
  (
    ∀ (r : TgRef) (s : State) (w : Wg) (g : Tg) (mask : BitVec 6), s.wg? r.wg = some w → s.tg? r = some g → w.phase = .running →
      g.phase = .atCut mask → g.shot.waits = [] → g.kept = [] → g.ret = false → g.boundary = [] → g.shot.yieldInstr = false →
      (∀ t ∈ g.threads, t.status ≠ .exited) → g.threads ≠ [] →
      (g.slotsClear mask = true →
        ∃ t g', exec (.cutWaitEnd r) s = .next t ∧ t.tg? r = some g' ∧ shotEnded g' ∧ g'.threads = g.threads) ∧
      (g.slotsClear mask = false → exec (.cutWaitEnd r) s = .next s))

/-- A boundary trap (R423, R425): at a shot boundary in user mode, the first that pends is taken by the threads of the next
shot, with its cause and the PC at which that shot would have begun; none is reported in `sr.tmask`. -/
def Obligations.BoundaryTraps : Prop :=
  ∀ (r : TgRef) (s : State) (w : Wg) (g : Tg) (t : BoundaryTrap) (ts : List BoundaryTrap) (pc : BitVec 57) (set : BitVec 64),
    s.wg? r.wg = some w → s.tg? r = some g → w.phase = .running → g.phase = .ready → g.shot.active = false → g.super = false →
    g.debug = .off → g.boundary = t :: ts → t.pc = none → causeOf t.tcause ≠ 2 → g.choose = some (pc, set) →
      ∃ s' g', exec (.boundaryTrap r) s = .next s' ∧ s'.tg? r = some g' ∧ g'.tcause = t.tcause ∧ g'.tmask = 0#64 ∧
        g'.tpc = pc.setWidth 64 ∧ g'.super = true ∧ g'.boundary = ts ∧
        (∀ i x, set.getLsbD i = true → g'.threads[i]? = some x → x.pc = trapVector s w ∧ x.status = .ready)

/-! ### Memory -/

/-- Global loads, stores, prefetches and constant loads that no rule turns away, with translations at hand (R289 to
R303): the accesses of each thread, one for the issue where one address or a uniform destination serves it, are put in
flight; `LDA` acquires and `STL` releases at its scope, at cluster scope or wider as a commit point of two-take mode.
The model's choices: one access where every source is uniform (log 34), and which thread serves a uniform destination
(log 51). -/
def Obligations.GlobalAccesses : Prop :=
  ∀ (h : Hints) (sz : MemSz) (mis nt l1 : Bool) (sc : Scope) (d a : Reg) (b : Opd) (k : BitVec 3) (off : BitVec 19)
    (as : Nat → List Acc) (ws : Nat → List CWord),
    let uni := uniformAddr a b
    let n := sz.bytes
    let ms (e : Env) : List Nat := makers e (d.isS && uni)
    let signed : Bool := sz == .s16 || sz == .s8
    let ld : Plan := { h := h, srcs := addrSrcs 2 a b, dst := some (d, sz.words), role := vectorOnly }
    let st : Plan := { h := h, srcs := storeSrcs 2 sz d a b, role := vectorOnly }
    let ldc : Plan := { h := h, srcs := [(srcA a 1).consumed], dst := some (d, sz.words), role := vectorOrUniform d }
    let at_ (s : State) (e : Env) (l : Nat) : Nat := (value s e ldc.srcs 0 l + off.toNat) % 2 ^ 32
    let made (e : Env) (ls : List Nat) : List Acc := madeBy e ls (ls.flatMap as)
    Performs (.ld h sz mis nt d a b) { ld with role := vectorOrUniform d }
        (fun s e => ∀ l ∈ accessors e (some d) uni,
          Reaches s e { kind := .load, cls := 0, n := n, mis := mis } l (addr 64 s e ld.srcs l) [] [] (as l))
        (fun s e => inFlight s e false (made e (accessors e (some d) uni)) (returning e h d uni n signed)) ∧
      Performs (.lda h sz sc d a b) ld
        (fun s e => ∀ l ∈ accessors e (some d) uni,
          Reaches s e { kind := .load, cls := 0, n := n } l (addr 64 s e ld.srcs l) [] [] (as l))
        (fun s e => inFlight s e false (made e (accessors e (some d) uni)) { returning e h d uni n signed with acquire := some sc }) ∧
      Performs (.st h sz mis nt d a b) st
        (fun s e => ∀ l ∈ ms e, Reaches s e { kind := .store, cls := 1, n := n, mis := mis } l (addr 64 s e st.srcs l)
          (words s e st.srcs 2 l) [] (as l))
        (fun s e => inFlight s e false (made e (ms e)) MemOp.blank) ∧
      Performs (.stl h sz sc d a b) st
        (fun s e => ∀ l ∈ ms e, Reaches s e { kind := .store, cls := 1, n := n } l (addr 64 s e st.srcs l)
          (words s e st.srcs 2 l) [] (as l))
        (fun s e =>
          let g := committing e (scopeNo sc) e.g
          inFlight (s.setTg e.r g) { e with g := g } false (made e (ms e)) { MemOp.blank with scope := sc, rel := true }) ∧
      Performs (.ldc h sz d k a off) ldc
        (fun s e => ∀ l ∈ accessors e (some d) a.isS, at_ s e l % n = 0 ∧
          windowReadAt s e l k.toNat (at_ s e l / 4 * 4) ((n + 3) / 4) = (s, .words (ws l)))
        (fun s e =>
          let ls := accessors e (some d) a.isS
          let accs := madeBy e ls (ls.map fun l =>
            { mkAcc l .load (at_ s e l) n (at_ s e l) .rc none [] [] with done := true, result := ws l })
          let base := (e.sheet.windows.getD k.toNat (0, 0)).1
          (issueOp s e.r { returning e h d a.isS n signed with
            counts := true, performed := false, accs := accs
            slots := e.g.touched false ((extents accs).map fun x => (base + x.1, x.2)) }).updTg e.r Tg.oweSlots) ∧
      Performs (.pref h l1 a b) { h := h, srcs := addrSrcs 2 a b, role := vectorOnly } always
        (fun s e => e.part.foldl (fun t l => prefetchLane e l1 t (addr 64 s e (addrSrcs 2 a b) l)) s)

/-- Scratchpad loads and stores, held loads, filling stores and the cluster-remote forms (R103, R109, R289 to R294, R305 to
R308): aligned and within the scratchpad, they are put in flight; a remote one needs a workgroup of the cluster-level unit
on the core named. -/
def Obligations.ScratchpadAccesses : Prop :=
  ∀ (h : Hints) (sz : MemSz) (k : BitVec 3) (d a : Reg) (b : Opd) (w : Nat),
    let uni := uniformAddr a b
    let n := sz.bytes
    let ld : Plan := { h := h, srcs := addrSrcs 1 a b, dst := some (d, sz.words), role := vectorOnly }
    let st : Plan := { h := h, srcs := storeSrcs 1 sz d a b, role := vectorOnly }
    let loads (wg : Option Nat) (s : State) (e : Env) : List Acc :=
      madeBy e (accessors e (some d) uni) ((accessors e (some d) uni).map fun l => onSpad .load n wg l (addr 32 s e ld.srcs l) [] [])
    let stores (wg : Option Nat) (s : State) (e : Env) : List Acc :=
      madeBy e (makers e (d.isS && uni)) ((makers e (d.isS && uni)).map fun l =>
        onSpad .store n wg l (addr 32 s e st.srcs l) (words s e st.srcs 2 l) [])
    let back (e : Env) : MemOp := returning e h d uni n (sz == .s16 || sz == .s8)
    let ldOk (s : State) (e : Env) : Prop := ∀ l ∈ accessors e (some d) uni, fits e (addr 32 s e ld.srcs l) n
    let stOk (s : State) (e : Env) : Prop := ∀ l ∈ makers e (d.isS && uni), fits e (addr 32 s e st.srcs l) n
    let remote (s : State) (e : Env) : Prop := clusterPeer s e (8 * (e.core / 8) + k.toNat) = some w
    let other (e : Env) : Option Nat := if w = e.r.wg then none else some w
    let held (take : Bool) (s : State) (e : Env) : State :=
      (inFlight s e true (loads none s e) { back e with granule := some take }).updTg e.r fun g => owing g [.granules e.g.nextOp]
    Performs (.lds h sz d a b) ld ldOk (fun s e => inFlight s e true (loads none s e) (back e)) ∧
      Performs (.sts h sz d a b) st stOk (fun s e => inFlight s e true (stores none s e) MemOp.blank) ∧
      Performs (.ldfKeep h sz d a b) ld ldOk (held false) ∧
      Performs (.ldfTake h sz d a b) ld ldOk (held true) ∧
      Performs (.stf h sz d a b) st stOk (fun s e => inFlight s e true (stores none s e) { MemOp.blank with setFull := true }) ∧
      Performs (.ldx h sz k d a b) ld (fun s e => ldOk s e ∧ remote s e)
        (fun s e => inFlight s e true (loads (other e) s e) (back e)) ∧
      Performs (.stx h sz k d a b) st (fun s e => stOk s e ∧ remote s e)
        (fun s e => inFlight s e true (stores (other e) s e) MemOp.blank)

/-- Granules (R110 to R112, R307, R309): `GRN` is put in flight as one operation and, with nothing before it, empties,
fills or counts the granules of its range at once; a held load performs its read, and takes its granules where it says so, once all of them are full, and not before. -/
def Obligations.Granules : Prop :=
  (∀ (h : Hints) (d a : U) (b : Opd),
    let srcs := [(srcA (.s a) 1).consumed, (srcB b 1).consumed]
    let p : Plan := { h := h, srcs := srcs, role := vectorOnly }
    let o (s : State) (e : Env) : Nat := value s e srcs 0 (e.part.headD 0)
    let n (s : State) (e : Env) : Nat := value s e srcs 1 (e.part.headD 0)
    let ok (s : State) (e : Env) : Prop := o s e % 16 = 0 ∧ n s e % 16 = 0 ∧ n s e ≠ 0 ∧ o s e + n s e ≤ e.sheet.spadBytes
    let range (s : State) (e : Env) : List Nat := (List.range (n s e / 16)).map (o s e / 16 + ·)
    let put (set : Option Bool) (s : State) (e : Env) (x : MemOp) : State :=
      (issueOp s e.r { x with counts := true, performed := false, slots := e.g.touched true [(o s e, n s e)]
                              grn := some ⟨set, o s e / 16, n s e / 16⟩ }).updTg e.r Tg.oweSlots
    let back : MemOp := { MemOp.blank with ps := h.ps.toNat, results := [(.s d.toNat, .zero)] }
    let now (eff : State → Env → State → Prop) (i : Instr) (q : Plan) : Prop :=
      ∀ s e, Ready s e q → ok s e → e.g.ops = [] → ∃ t, exec i s = .next t ∧ t.mm = s.mm ∧ t.cs = s.cs ∧ eff s e t
    let become (v : Bool) (s : State) (e : Env) (t : State) : Prop := ∃ w', t.wg? e.r.wg = some w' ∧ w'.spad = e.w.spad ∧
      ∀ i, lookD false w'.gran i = if i ∈ range s e then v else lookD false e.w.gran i
    Performs (.grnClr h a b) p ok (fun s e => put (some false) s e MemOp.blank) ∧
      Performs (.grnSet h a b) p ok (fun s e => put (some true) s e MemOp.blank) ∧
      Performs (.grnQry h d a b) { p with dst := some (.s d, 1) } ok (fun s e => put none s e back) ∧
      now (become false) (.grnClr h a b) p ∧ now (become true) (.grnSet h a b) p ∧
      now (fun s e t => (∀ i ∈ range s e, lookD false e.w.gran i = lookD false e.w.gran2 i) →
          ∃ w' g' x, t.wg? e.r.wg = some w' ∧ w'.spad = e.w.spad ∧ w'.gran = e.w.gran ∧ t.tg? e.r = some g' ∧ g'.ops = [x] ∧
            x.performed = true ∧ x.ps = h.ps.toNat ∧
            x.results = [(.s d.toNat, .of (BitVec.ofNat 32 (countIf (range s e) fun i => lookD false e.w.gran i)))])
        (.grnQry h d a b) { p with dst := some (.s d, 1) }) ∧
  ∀ (s : State) (r : TgRef) (w : Wg) (g : Tg) (o : MemOp) (take : Bool), s.wg? r.wg = some w → s.tg? r = some g → g.ops = [o] →
    o.granule = some take → o.performed = false → o.setFull = false → o.arrive = none → o.acquire = none → o.rel = false → o.grn = none →
    o.dst.isSome = true → o.accs ≠ [] →
    (∀ a ∈ o.accs, a.page = .spad ∧ a.kind = .load ∧ a.wg = none ∧ a.done = false) →
    (o.accs.Pairwise fun a b => a.threads &&& b.threads = 0#64) →
    (∀ i ∈ granulesOf o.accs, lookD false w.gran i = lookD false w.gran2 i) →
    ((∃ i ∈ granulesOf o.accs, lookD false w.gran i = false) → exec (.ldfReadPerform r) s = .next s) ∧
      ((∀ i ∈ granulesOf o.accs, lookD false w.gran i = true) →
        ∃ t w' g', exec (.ldfReadPerform r) s = .next t ∧ t.wg? r.wg = some w' ∧ t.tg? r = some g' ∧
          g'.ops = [{ o with performed := true,
                             accs := o.accs.map fun a => { a with done := true, result := w.spadRead a.pa a.count } }] ∧
          g'.cntMem = (if o.counts then g.cntMem - 1 else g.cntMem) ∧ w'.spad = w.spad ∧
          (∀ i, lookD false w'.gran i = if take = true ∧ i ∈ granulesOf o.accs then false else lookD false w.gran i) ∧
          t.mm = s.mm ∧ t.cs = s.cs)

/-- Atomics (R108, R291, R296, R310, R311, R313): with aligned addresses that no rule turns away, one operation for
each thread that takes part, or for all where the address (R294) or every source of a `RED` (log 34) is uniform, is
put in flight, which returns the old value, or nothing (`RED`). The thread that serves a uniform destination is the
model's choice (log 51). -/
def Obligations.Atomics : Prop :=
  ∀ (h : Hints) (ty : AtomTy) (op : AtomOp) (sc : Scope) (d a : Reg) (b : Opd) (c : Reg) (as : Nat → List Acc),
    let n := 4 * ty.words
    let ms (e : Env) : List Nat := makers e (uniformAddr a b)
    let dst : Option (Reg × Nat) := some (d, ty.words)
    let srcs (m : Nat) : List Src := [(srcA a m).consumed, atomB ty b]
    let casSrcs (m : Nat) : List Src := [(srcA a m).consumed, srcB b ty.words, srcC c ty.words]
    let k : AccKind := .atom ty op
    let q (k : AccKind) : Global := { kind := k, cls := 2, n := n }
    let back (e : Env) (sc : Scope) : MemOp := { returning e h d a.isS n false with scope := sc }
    let ls (e : Env) : List Nat := accessors e (some d) a.isS
    let made (e : Env) (ls : List Nat) : List Acc := madeBy e ls (ls.flatMap as)
    let here (s : State) (e : Env) (xs : List Src) (ls : List Nat) : Prop := ∀ l ∈ ls, fits e (value s e xs 0 l) n
    let own (s : State) (e : Env) (xs : List Src) (k : AccKind) (d2 : Bool) (ls : List Nat) : List Acc :=
      madeBy e ls (ls.map fun l =>
        { onSpad k n none l (value s e xs 0 l) (words s e xs 1 l) (if d2 then words s e xs 2 l else []) with
          err := List.replicate ty.words 0#32 })
    Performs (.atom h ty op sc d a b) { h := h, srcs := srcs 2, dst := dst, role := vectorOnly }
        (fun s e => ∀ l ∈ ls e, Reaches s e (q k) l (value s e (srcs 2) 0 l) (words s e (srcs 2) 1 l) [] (as l))
        (fun s e => inFlight s e false (made e (ls e)) (back e sc)) ∧
      Performs (.red h ty op sc a b) { h := h, srcs := srcs 2, role := vectorOnly }
        (fun s e => ∀ l ∈ ms e, Reaches s e (q k) l (value s e (srcs 2) 0 l) (words s e (srcs 2) 1 l) [] (as l))
        (fun s e => inFlight s e false (made e (ms e)) { MemOp.blank with scope := sc }) ∧
      Performs (.cas h ty sc d a b c) { h := h, srcs := casSrcs 2, dst := dst, role := vectorOnly }
        (fun s e => ∀ l ∈ ls e, Reaches s e (q (.cas ty)) l (value s e (casSrcs 2) 0 l) (words s e (casSrcs 2) 1 l)
          (words s e (casSrcs 2) 2 l) (as l))
        (fun s e => inFlight s e false (made e (ls e)) (back e sc)) ∧
      Performs (.atoms h ty op d a b) { h := h, srcs := srcs 1, dst := dst, role := vectorOnly }
        (fun s e => here s e (srcs 1) (ls e))
        (fun s e => inFlight s e true (own s e (srcs 1) k false (ls e)) (back e .thread)) ∧
      Performs (.redSpad h ty op a b) { h := h, srcs := srcs 1, role := vectorOnly }
        (fun s e => here s e (srcs 1) (ms e))
        (fun s e => inFlight s e true (own s e (srcs 1) k false (ms e)) MemOp.blank) ∧
      Performs (.cass h ty d a b c) { h := h, srcs := casSrcs 1, dst := dst, role := vectorOnly }
        (fun s e => here s e (casSrcs 1) (ls e))
        (fun s e => inFlight s e true (own s e (casSrcs 1) (.cas ty) true (ls e)) (back e .thread))

/-- An access that is misaligned, leaves the address space or leaves the scratchpad traps before any access of the issue
(R291, R296, R420): the first thread by number gives cause, class and LANE, and the mask names the threads with its fault,
or for one access that serves the issue every thread that takes part. -/
def Obligations.AccessFaults : Prop :=
  ∀ (h : Hints) (sz : MemSz) (mis nt : Bool) (d a : Reg) (b : Opd) (s : State) (e : Env) (l c : Nat),
    let n := sz.bytes
    let ms := makers e (d.isS && uniformAddr a b)
    let first (ls : List Nat) (fault : Nat → Option Nat) : Prop :=
      (ls.find? fun k => (fault k).isSome) = some l ∧ fault l = some c
    let trap (ls : List Nat) (fault : Nat → Option Nat) (cls : Nat) : State :=
      takeTrap s e.r (BitVec.ofNat 32 (c * 2 ^ 24 + cls * 2 ^ 17 + l * 2 ^ 10))
        (maskOf (if ls.length < e.part.length then e.part else ls.filter fun k => fault k == some c)) false
    let glob (xs : List Src) (k : Nat) : Option Nat :=
      let va := addr 64 s e xs k
      if 2 ^ 57 ≤ va then some 0x11 else if mis = false ∧ va % n ≠ 0 then some 0x12 else none
    let spad (xs : List Src) (k : Nat) : Option Nat :=
      let o := addr 32 s e xs k
      if o % n ≠ 0 then some 0x12 else if e.sheet.spadBytes < o + n then some 0x13 else none
    let lds (dw : Nat) : Plan := { h := h, srcs := addrSrcs dw a b, dst := some (d, sz.words), role := vectorOnly }
    let sts (dw : Nat) : Plan := { h := h, srcs := storeSrcs dw sz d a b, role := vectorOnly }
    let ls := accessors e (some d) (uniformAddr a b)
    (Ready s e (lds 1) → first ls (spad (addrSrcs 1 a b)) →
        exec (.lds h sz d a b) s = .next (trap ls (spad (addrSrcs 1 a b)) 0)) ∧
      (Ready s e (sts 1) → first ms (spad (storeSrcs 1 sz d a b)) →
        exec (.sts h sz d a b) s = .next (trap ms (spad (storeSrcs 1 sz d a b)) 1)) ∧
      (Ready s e { lds 2 with role := vectorOrUniform d } → first ls (glob (addrSrcs 2 a b)) →
        (∀ k ∈ ls, glob (addrSrcs 2 a b) k = none → ∃ as,
          Reaches s e { kind := .load, cls := 0, n := n, mis := mis } k (addr 64 s e (addrSrcs 2 a b) k) [] [] as) →
        exec (.ld h sz mis nt d a b) s = .next (trap ls (glob (addrSrcs 2 a b)) 0)) ∧
      (Ready s e (sts 2) → first ms (glob (storeSrcs 2 sz d a b)) →
        (∀ k ∈ ms, glob (storeSrcs 2 sz d a b) k = none → ∃ as,
          Reaches s e { kind := .store, cls := 1, n := n, mis := mis } k (addr 64 s e (storeSrcs 2 sz d a b) k)
            (words s e (storeSrcs 2 sz d a b) 2 k) [] as) →
        exec (.st h sz mis nt d a b) s = .next (trap ms (glob (storeSrcs 2 sz d a b)) 1))

/-- Where stores go, and that they go nowhere else (R292, R298, R305, R308, Table 5.1): with nothing of the thread group in
flight, a scratchpad store, a filling store and a plain store to main memory leave every byte outside those that its threads
name as it was, and each byte that they name as the highest-numbered thread gives it; a plain store is performed in the core's
L1, which has room, and changes nothing beyond it. (The bytes stored over hold words that agree with their codes.) -/
def Obligations.Stores : Prop :=
  ∀ (h : Hints) (sz : MemSz) (nt : Bool) (d a : Reg) (b : Opd) (s : State) (e : Env) (pa : Nat → Nat) (page : PageKind),
    let n := sz.bytes
    let ms := makers e (d.isS && uniformAddr a b)
    let p (dw : Nat) : Plan := { h := h, srcs := storeSrcs dw sz d a b, role := vectorOnly }
    let o (l : Nat) : Nat := addr 32 s e (storeSrcs 1 sz d a b) l
    let va (l : Nat) : Nat := addr 64 s e (storeSrcs 2 sz d a b) l
    let bytesOk (w' : Wg) : Prop := ∀ k, spadByte w' k =
      match lastOver ms o n k with
      | some l => byteIn (words s e (storeSrcs 1 sz d a b) 2 l) (k - o l)
      | none => spadByte e.w k
    let elsewhere (t : State) : Prop := t.mm = s.mm ∧ t.logs.length = s.logs.length ∧ ∀ k ≠ e.r.wg, t.wg? k = s.wg? k
    (Ready s e (p 1) → e.g.ops = [] → (∀ k, (lookD .zero e.w.spad k).passes = true) → (∀ l ∈ ms, fits e (o l) n) →
      (∃ t w', exec (.sts h sz d a b) s = .next t ∧ t.wg? e.r.wg = some w' ∧ bytesOk w' ∧ elsewhere t ∧ t.cs = s.cs ∧
        w'.gran = e.w.gran ∧ w'.acc = e.w.acc) ∧
      (∃ t w', exec (.stf h sz d a b) s = .next t ∧ t.wg? e.r.wg = some w' ∧ bytesOk w' ∧ elsewhere t ∧ t.cs = s.cs ∧
        (∀ k, lookD false w'.gran k = ((ms.any fun l => o l / 16 == k) || lookD false e.w.gran k)) ∧ w'.acc = e.w.acc)) ∧
    (Ready s e (p 2) → e.g.ops = [] → e.w.takeOn = false → e.sheet.staged = false → page = .rc ∨ page = .uo →
      (∀ l ∈ ms, va l < 2 ^ 57 ∧ va l % n = 0 ∧ pa l % 128 = va l % 128 ∧
        translate s e.core e.ctx e.g.super 1 (va l) n = (s, .to (pa l) page none) ∧
        ∀ ln, l1Find s e.core (pa l) none = some ln → ln.words.length = 32 ∧ ∀ y ∈ ln.words, y.passes = true) →
      L1Room s e.core ms.length →
      ∃ t w', exec (.st h sz false nt d a b) s = .next t ∧ t.wg? e.r.wg = some w' ∧ elsewhere t ∧ t.cs = { s.cs with l1 := t.cs.l1 } ∧
        w'.spad = e.w.spad ∧ w'.gran = e.w.gran ∧ w'.acc = e.w.acc ∧
        ∀ core k, l1Byte t core k =
          if core = e.core then
            match lastOver ms pa n k with
            | some l => some (byteIn (words s e (storeSrcs 2 sz d a b) 2 l) (k - pa l))
            | none => l1Byte s core k
          else l1Byte s core k)

/-- What loads return, and that they change no memory (R290, R292, R294, R300, R305): with nothing of the thread group in
flight, a scratchpad load is performed at once, and so is a plain load of bytes that the core's L1 holds; what each thread
read stands in the operation until it returns; then the value, zero- or sign-extended, is in the thread's register. -/
def Obligations.Loads : Prop :=
  (∀ (h : Hints) (sz : MemSz) (nt : Bool) (d a : Reg) (b : Opd) (s : State) (e : Env) (pa : Nat → Nat) (page : PageKind)
    (ws : Nat → List CWord),
    let n := sz.bytes
    let uni := uniformAddr a b
    let ls := accessors e (some d) uni
    let p (dw : Nat) : Plan := { h := h, srcs := addrSrcs dw a b, dst := some (d, sz.words), role := vectorOnly }
    let o (l : Nat) : Nat := addr 32 s e (addrSrcs 1 a b) l
    let va (l : Nat) : Nat := addr 64 s e (addrSrcs 2 a b) l
    let signed : Bool := sz == .s16 || sz == .s8
    let same (t : State) : Prop := t.mm = s.mm ∧ t.cs = s.cs ∧ ∀ k ≠ e.r.wg, t.wg? k = s.wg? k
    let holds (t : State) (as : List Acc) : Prop := ∃ w' g', t.wg? e.r.wg = some w' ∧ w'.spad = e.w.spad ∧ w'.gran = e.w.gran ∧
      w'.acc = e.w.acc ∧ t.tg? e.r = some g' ∧ g'.vregs = e.g.vregs ∧ g'.uregs = e.g.uregs ∧ g'.cntMem = e.g.cntMem ∧
      ∃ x, g'.ops = [x] ∧ x.accs = as ∧ x.performed = true ∧ x.dst = some d ∧ x.size = n ∧ x.signed = signed ∧
        x.lanes = (returning e h d uni n signed).lanes ∧ x.ps = h.ps.toNat
    (Ready s e (p 1) → e.g.ops = [] → (∀ l ∈ ls, fits e (o l) n) →
      ∃ t, exec (.lds h sz d a b) s = .next t ∧ same t ∧
        holds t (madeBy e ls (ls.map fun l => { onSpad .load n none l (o l) [] [] with
          done := true, result := e.w.spadRead (o l / 4 * 4) ((n + 3) / 4) }))) ∧
    (Ready s e { p 2 with role := vectorOrUniform d } → e.g.ops = [] → e.w.takeOn = false → e.sheet.staged = false →
      page = .rc ∨ page = .uo →
      (∀ l ∈ ls, va l < 2 ^ 57 ∧ va l % n = 0 ∧
        translate s e.core e.ctx e.g.super 0 (va l) n = (s, .to (pa l) page none) ∧
        l1Read s e.core (pa l / 4 * 4) (byteMask (va l % 4) n) ((n + 3) / 4) = some (ws l)) →
      ∃ t, exec (.ld h sz false nt d a b) s = .next t ∧ same t ∧
        holds t (madeBy e ls (ls.map fun l => { mkAcc l .load (va l) n (pa l) page none [] [] with done := true, result := ws l })))) ∧
  ∀ (s : State) (r : TgRef) (w : Wg) (g : Tg) (x : MemOp) (d : Reg) (l : Nat) (c : Acc), s.wg? r.wg = some w → s.tg? r = some g →
    w.phase ≠ .saved → (g.ops.find? fun o => o.id == x.id) = some x → x.performed = true → x.launch = none → x.arrive = none →
    (s.core w.core).matq = [] → x.dst = some d → x.results = [] → x.skip = [] → x.lanes = [(l, l)] → x.accs = [c] → c.lane = l →
    (∀ y ∈ c.result, y.passes = true) → l < 64 →
      ∃ t g', exec (.variableLatencyResult r x.id) s = .next t ∧ t.tg? r = some g' ∧ t.mm = s.mm ∧ t.cs = s.cs ∧
        (x.size = 4 → c.mask = 15 → c.va % 4 = 0 → ∀ y, c.result = [y] → g'.word (d.key 0 l) = y) ∧
        (x.size = 1 → ∀ i y, i < 4 → c.mask = 2 ^ i → c.result = [y] → y.bad = false →
          g'.word (d.key 0 l) = .of (if x.signed then (byteOf y.data i).signExtend 32 else (byteOf y.data i).setWidth 32)) ∧
        (∀ k, realKey k = true → (∀ i, k ≠ d.key i l) → g'.word k = g.word k) ∧
        g'.ops = g.ops.filter fun o => o.id != x.id

/-! ### Codes of stored words, coded regions -/

/-- A store that replaces fewer than four bytes of a word (R22): the bytes; the new code by prediction from the residues of the
replaced and of the new bytes; the comparison with the residue of the merged word; Poison of either side; and the failed entry
check that a mismatch is (R19), which makes the word Poison and, in a scratchpad, raises a record of kind 0x01. -/
def Obligations.MergeByPrediction : Prop :=
  ∀ (old new : CWord) (mask : Nat), 0 < mask → mask < 15 →
    let m := mergeWord old new mask
    let bytes (w : Word) : Nat := ((List.range 4).map fun i => if mask.testBit i then (byteOf w i).toNat * 256 ^ i else 0).sum
    let code : Int := ((old.code.toNat : Int) - (bytes old.data % 15 : Nat) + (bytes new.data % 15 : Nat)) % 15
    (∀ i, i < 4 → byteOf m.data i = if mask.testBit i then byteOf new.data i else byteOf old.data i) ∧
      (old.bad = true ∨ new.bad = true → m.bad = true) ∧
      (old.bad = false → new.bad = false →
        (code = (m.data.toNat % 15 : Nat) → m.code = BitVec.ofInt 4 code ∧ m.bad = false ∧ mergeFails old new mask = false) ∧
          (code ≠ (m.data.toNat % 15 : Nat) → m.bad = true ∧ mergeFails old new mask = true)) ∧
      (old.passes = true → old.bad = false → new.bad = false → m.passes = true ∧ m.bad = false) ∧
      ∀ (s : State) (n o : Nat) (w : Wg), s.wg? n = some w → lookD .zero w.spad (o / 4) = old → new.passes = true →
        mergeFails old new mask = true →
        spadWrite s n o mask [new] =
          (appendRecord s (s.partOf w) 0x01 w.core (0x200 + w.core / 8) (65536 * w.base + o) 0 0).updWg n fun w =>
            { w with spad := put .zero w.spad (o / 4) m }

/-- The coding order of Table 4.2, and that lowest sequency comes first in both shapes (R66). -/
def Obligations.CodingOrder : Prop :=
  let σ (i : Nat) : Nat := [0, 1, 2, 2].getD i 0
  let rising (l : List Nat) : Bool := (l.zip (l.drop 1)).all fun x => decide (x.1 ≤ x.2)
  codeOrder false = [0, 4, 8, 12, 1, 5, 9, 13, 2, 6, 10, 14, 3, 7, 11, 15] ∧
    codeOrder true = [0, 1, 4, 5, 2, 8, 3, 12, 6, 9, 7, 13, 10, 14, 11, 15] ∧
    rising ((codeOrder false).map fun k => σ (k % 4)) = true ∧ rising ((codeOrder true).map fun k => σ (k / 4) + σ (k % 4)) = true

/-! ### Ordering and synchronisation -/

/-- Instructions that the `CUT` of their shot waits for, and those that set a range slot or a deferred slot (R163, R315, R316,
R341, R358, R359, R364, R366, R367, R373): the fence, `WAITC`, `BARW`, `SPLW` and `TAKE.cmt` add their wait, with a commit
point of two-take mode where they release at cluster scope or wider; a splice waits for its slot and generation. -/
def Obligations.OrderingInstructions : Prop :=
  ∀ (h : Hints) (kind : FenceKind) (sc : Scope) (m : BitVec 8) (spad : Bool) (f k : BitVec 3) (a c : U) (th : BitVec 6)
    (cls : CntClass) (n : BitVec 8) (b : Opd) (bar : BitVec 4) (rd : Option U),
    let p : Plan := { h := h }
    let w : Plan := { h := h, cutAfter := true }
    let one := [(srcB b 1).consumed]
    let pair := [(srcA (.s a) 2).consumed, (srcB (.reg (.s c)) 2).consumed]
    let v (s : State) (e : Env) (i : Nat) (xs : List Src) : Nat := value s e xs i (e.part.headD 0)
    let slot (e : Env) (u : SlotUse) : Tg := { e.g with slots := updAt e.g.slots f.toNat fun x => { x with use := u } }
    let deferred (s : State) (e : Env) (d : Deferred) : State :=
      s.setWg e.r.wg { e.w with deferred := updAt e.w.deferred k.toNat fun _ => d }
    let cut (x : Nat) : BitVec 64 := BitVec.ofNat 64 (if spad then x % 2 ^ 32 else x)
    let waiting : Plan := { w with srcs := one, dst := rd.map fun u => (.s u, 1) }
    let place (e : Env) (n : Nat) : Nat × Nat :=
      match (e.w.barriers[bar.toNat]?).bind (·.ring) with
      | some (first, len) => if first = bar.toNat then (bar.toNat + n % len, n / len) else (bar.toNat, n)
      | none => (bar.toNat, n)
    let splice (plus : Nat) (s : State) (e : Env) : State :=
      let x := place e (v s e 0 one)
      s.setTg e.r (owing e.g [.splice x.1 (BitVec.ofNat 32 (2 * x.2 + plus)) rd])
    Performs (.fence h kind sc m) w always (fun s e =>
        let g := owing e.g [.fence kind sc m]
        s.setTg e.r (if kind = .acq then g else committing e (scopeNo sc) g)) ∧
      Performs (.waitc h cls n) w always (fun s e => s.setTg e.r (owing e.g [.counter cls n.toNat])) ∧
      Performs (.takeCmt h) w always (fun s e => s.setTg e.r (committing e 5 (owing e.g [.fence .rel .device 0#8]))) ∧
      Performs (.barw h bar b rd) waiting always (fun s e =>
        s.setTg e.r (owing (committing e (barrierScope s e.w bar.toNat) e.g) [.barrier bar.toNat (BitVec.ofNat 32 (v s e 0 one)) rd])) ∧
      Performs (.splwEmpty h bar b rd) waiting always (splice 0) ∧
      Performs (.splwFull h bar b rd) waiting always (splice 1) ∧
      Performs (.rngs h spad f a c) { p with srcs := pair } always
        (fun s e => s.setTg e.r (slot e (.range spad (cut (v s e 0 pair)) (cut (v s e 1 pair))))) ∧
      Performs (.rngsT h f th) p always (fun s e => s.setTg e.r (slot e (.handle th))) ∧
      Performs (.rngc h f) p always (fun s e => s.setTg e.r (slot e .empty)) ∧
      Performs (.dgrs h k b) { p with srcs := one } always
        (fun s e => deferred s e (if v s e 0 one = 0 then .no else .yes)) ∧
      Performs (.dgrsClr h k) p always (fun s e => deferred s e .unresolved)

/-- Barriers (R361, R362, R364 to R367): `BARI` and `SPLI` set up a barrier or a ring and dissolve the rings that they
meet; with nothing of the thread group in flight, in one-take mode and with nothing to write back, `BARV`, `BARS` and
`SPLD` make one arrival of status 0; the phase before it goes to the register of `BARV`, and `BARS` waits for the
phase to change. What a repeated `SPLI` keeps is the model's choice (log 71). -/
def Obligations.Barriers : Prop :=
  ∀ (h : Hints) (bar len : BitVec 4) (x ef ee : BitVec 12) (b : Opd) (rd : Option U) (s : State) (e : Env),
    let n := bar.toNat
    let inRing (j i : Nat) : Bool :=
      match (e.w.barriers[j]?).bind (·.ring) with
      | some (first, l) => first ≤ i && i < first + l
      | none => false
    let dissolved (y : Barrier) : Barrier := { y with e := 1, arr := 0, stat := 0#8, ring := none }
    let arrived (y : Barrier) : Barrier :=
      let need := match y.ring with
        | none => y.e
        | some _ => if y.ph.getLsbD 0 then y.ee else y.ef
      if y.arr + 1 = need then { y with lstat := y.stat, stat := 0#8, arr := 0, ph := y.ph + 1#32 }
      else { y with arr := (y.arr + 1) % 4096 }
    let ph (j : Nat) : BitVec 32 := ((e.w.barriers[j]?).map (·.ph)).getD 0#32
    let slot : Nat :=
      match (e.w.barriers[n]?).bind (·.ring) with
      | some (first, l) => if first = n then n + value s e [(srcB b 1).consumed] 0 (e.part.headD 0) % l else n
      | none => n
    let idle (j : Nat) : Prop := e.g.ops = [] ∧ e.w.takeOn = false ∧
      (barrierScope s e.w j < 3 ∨ ∀ ln ∈ s.cs.l1, ln.core = e.core → ln.dirty = 0)
    let arrives (i : Instr) (j : Nat) (got : Option U) (waits : List Wait) : Prop :=
      ∃ t w' g', exec i s = .next t ∧ t.wg? e.r.wg = some w' ∧ t.tg? e.r = some g' ∧ t.mm = s.mm ∧ t.cs = s.cs ∧
        w'.barriers = updAt e.w.barriers j arrived ∧ w'.spad = e.w.spad ∧ g'.ops = [] ∧ g'.shot.count = e.g.shot.count + 1 ∧
        (∀ u, got = some u → g'.word (.s u.toNat) = .of (ph j)) ∧
        (∀ k, realKey k = true → (∀ u, got = some u → k ≠ .s u.toNat) → g'.word k = e.g.word k) ∧
        (∀ y, y ≠ .arrival e.g.nextOp → (y ∈ g'.shot.waits ↔ y ∈ waits ∨ y ∈ e.g.shot.waits))
    (Ready s e { h := h } →
      (∃ w', exec (.bari h bar x) s = .next (retired e h false (s.setWg e.r.wg w')) ∧ w' = { e.w with barriers := w'.barriers } ∧
        w'.barriers.length = e.w.barriers.length ∧
        ∀ i y z, e.w.barriers[i]? = some y → w'.barriers[i]? = some z →
          let y1 := if inRing n i then dissolved y else y
          z = if i = n then { y1 with e := x.toNat, arr := 0, stat := 0#8 } else y1) ∧
      (∃ w', exec (.spli h bar len ef ee) s = .next (retired e h false (s.setWg e.r.wg w')) ∧
        w' = { e.w with barriers := w'.barriers } ∧ w'.barriers.length = e.w.barriers.length ∧
        ∀ i y z, e.w.barriers[i]? = some y → w'.barriers[i]? = some z →
          let mine (j : Nat) : Prop := n ≤ j ∧ j < n + len.toNat
          (mine i → z = ⟨z.e, ef.toNat, ee.toNat, 0, 0#32, 0#8, 0#8, some (n, len.toNat)⟩ ∧ (inRing i i = false → z.e = y.e)) ∧
            (¬mine i → (∀ j, mine j → inRing j i = false) → z = y) ∧
            (¬mine i → ∀ j, mine j → (∀ k, n ≤ k → k < j → inRing k j = false) → inRing j i = true → z = dissolved y))) ∧
    (Ready s e { h := h, dst := rd.map fun u => (.s u, 1) } → idle n → arrives (.barv h bar rd) n rd []) ∧
    (Ready s e { h := h, dst := rd.map fun u => (.s u, 1), cutAfter := true } → idle n →
      arrives (.bars h bar rd) n none [.barrier n (ph n) rd]) ∧
    (Ready s e { h := h, srcs := [(srcB b 1).consumed] } → e.g.ops = [] → e.w.takeOn = false → arrives (.spld h bar b) slot none [])

/-! ### Engines -/

/-- Copy commands, prefetches and decompression jobs enter their queue at issue behind the others, with the
doublewords of their registers and their deferred slot; the counter of the class rises, and the `CUT` waits below 255
and for a place (R89, R117, R118, R157, R304, R356, R357). `CPYR` (R360): it acts on the command of the thread group
that its cursor names when that is suspended, and writes 1 to the guard; else it writes 0 and does nothing. `.go` sets
the command going again at its cursor, `.ab` completes it with status 0x05. -/
def Obligations.EngineCommands : Prop :=
  (
    ∀ (h : Hints) (n : U) (b : Opd) (p bar : BitVec 4) (a : U) (l1 : Bool),
      let cmd := (srcA (.s n) 8).consumed
      let two := [cmd, (srcB b 1).consumed]
      let tier := [(srcA (.s a) 2).consumed, (srcB b 1).consumed]
      let v (s : State) (e : Env) (i : Nat) (xs : List Src) : Nat := value s e xs i (e.part.headD 0)
      let dws (s : State) (e : Env) (xs : List Src) : List (BitVec 64) :=
        (List.range 4).map fun i => BitVec.ofNat 64 (valOf (((words s e xs 0 (e.part.headD 0)).drop (2 * i)).take 2))
      let defer : Option (Nat × Bool) := if 8 ≤ h.gidx.toNat ∧ h.gidx.toNat < 15 then some (h.gidx.toNat - 8, h.gneg) else none
      let full (s : State) (e : Env) : Prop := 32 ≤ (s.core e.core).copyq.length ∨
        min 32 (s.cs.ceq.getD e.pt 0#6).toNat ≤ countIf (s.core e.core).copyq fun x => x.part == e.pt
      let keeps (s t : State) (e : Env) (g' : Tg) : Prop := t.mm = s.mm ∧ t.cs = s.cs ∧ t.logs = s.logs ∧ g'.ops = e.g.ops ∧
        (∀ k, realKey k = true → g'.word k = e.g.word k) ∧ g'.shot.count = e.g.shot.count + 1
      let queues (i : Instr) (xs : List Src) (role : Nat → Bool) (kind : State → Env → CopyKind)
          (ws : State → Env → List (BitVec 64)) : Prop :=
        ∀ s e, Ready s e { h := h, srcs := xs, role := role } →
          ∃ t x g', exec i s = .next t ∧ t.tg? e.r = some g' ∧ (t.core e.core).copyq = (s.core e.core).copyq ++ [x] ∧
            x.kind = kind s e ∧ x.words = ws s e ∧ x.issuer = e.r ∧ x.part = e.pt ∧ x.ctx = e.ctx ∧ x.defer = defer ∧
            x.phase = .queued ∧ x.accepted = false ∧ g'.cntCopy = e.g.cntCopy + 1 ∧ Wait.counter .cpy 255 ∈ g'.shot.waits ∧
            (full s e → Wait.enter ∈ g'.shot.waits) ∧ keeps s t e g'
      queues (.cpy h n) [cmd] copyOnly (fun _ _ => .copy) (fun s e => dws s e [cmd]) ∧
        queues (.cpygGather h n b) two copyOnly (fun s e => .gather (v s e 1 two)) (fun s e => dws s e two) ∧
        queues (.cpygScatter h n b) two copyOnly (fun s e => .scatter (v s e 1 two)) (fun s e => dws s e two) ∧
        queues (.cpyx h n p) [cmd] copyOnly (fun _ _ => .peer p.toNat) (fun s e => dws s e [cmd]) ∧
        queues (.preft h l1 bar a b) tier copyOrVector (fun _ _ => .prefetch l1)
          (fun s e => [BitVec.ofNat 64 (v s e 0 tier), BitVec.ofNat 64 (v s e 1 tier), BitVec.ofNat 64 bar.toNat]) ∧
        ∀ s e, Ready s e { h := h, srcs := [cmd], role := copyOnly } →
          let k := e.core / 8
          ∃ t x g', exec (.dcmp h n) s = .next t ∧ t.tg? e.r = some g' ∧ (t.cluster k).jobs = (s.cluster k).jobs ++ [x] ∧
            x.words = dws s e [cmd] ∧ x.issuer = e.r ∧ x.core = e.core ∧ x.part = e.pt ∧ x.ctx = e.ctx ∧ x.defer = defer ∧
            x.phase = .queued ∧ x.accepted = false ∧ g'.cntDcmp = e.g.cntDcmp + 1 ∧ Wait.counter .dcmp 255 ∈ g'.shot.waits ∧
            (16 ≤ (s.cluster k).jobs.length → Wait.enter ∈ g'.shot.waits) ∧ keeps s t e g') ∧
  (
    ∀ (h : Hints) (gd : BitVec 3) (a : U) (s : State) (e : Env),
      let srcs := [(srcA (.s a) 2).consumed]
      let x := value s e srcs 0 (e.part.headD 0)
      let core := x / 2 ^ 32 % 512
      let entry := x / 2 ^ 24 % 32
      let q := s.core core
      Ready s e { h := h, srcs := srcs, super := true } →
        (∀ c, q.copyq.find? (fun c => c.accepted && c.eslot == entry) = some c → c.issuer = e.r → c.phase = .suspended →
          Writes (s.setCore core { q with copyq := q.copyq.map fun y =>
              if y.accepted && y.eslot == entry then { y with phase := .active, buf := [] } else y }) e h (exec (.cpyrGo h gd a) s) e.g
            (guardWords e gd fun _ => true) ∧
          (let t := finishCopy s core entry 0x05
           ∀ g, t.tg? e.r = some g → Writes t e h (exec (.cpyrAb h gd a) s) g (guardWords e gd fun _ => true))) ∧
        ((∀ c, q.copyq.find? (fun c => c.accepted && c.eslot == entry) = some c → c.issuer ≠ e.r ∨ c.phase ≠ .suspended) →
          Writes s e h (exec (.cpyrGo h gd a) s) e.g (guardWords e gd fun _ => false) ∧
            Writes s e h (exec (.cpyrAb h gd a) s) e.g (guardWords e gd fun _ => false)))

/-! ### Special registers, error records, takes, launches -/

/-- `RDSR` (R150 to R152, R369, R378, R379, Table 8.2): each register gives its value, for each thread or once, in one word or
in a pair, with the codes of its bits. -/
def Obligations.SpecialReads : Prop :=
  ∀ (h : Hints) (n : BitVec 10) (d : Reg),
    let thread (e : Env) (l : Nat) : Option Thread := e.g.threads[l]?
    let level (e : Env) (i l : Nat) : Nat :=
      match e.sheet.levels[i]? with
      | none => 0
      | some v =>
        let x := globalIndex e.sheet e.w e.r.tg l / e.sheet.prod 0 i % (v.x * v.y * v.z)
        x % v.x + x / v.x % v.y * 2 ^ 21 + x / (v.x * v.y) * 2 ^ 42
    let extent (e : Env) (i : Nat) : Nat :=
      match e.sheet.levels[i]? with
      | none => 0
      | some v => v.x + v.y * 2 ^ 21 + v.z * 2 ^ 42
    let top (e : Env) (i l : Nat) : Nat := let w := lookD .zero e.g.tops (64 * i + l); w.data.toNat + 2 ^ 32 * w.code.toNat
    let small (s : State) (e : Env) (l : Nat) : List (Nat × Nat) :=
      [(0x000, l), (0x001, e.r.tg), (0x002, e.g.slot), (0x003, e.core % 8), (0x004, e.core / 8 % 8), (0x005, e.core / 64),
        (0x018, e.sheet.nonce.toNat), (0x020, s.clock.toNat),
        (0x030, e.g.fmode.toNat + 2 ^ 32 * (((thread e l).map (·.ccnt)).getD 0#32).toNat), (0x031, e.g.chk.toNat),
        (0x038, (if e.w.takeOn then e.w.take + 2 else 0) + 4 * e.g.mirrored.toNat)]
    let trap (e : Env) (l : Nat) : List (Nat × Nat) :=
      [(0x040, e.g.tcause.toNat), (0x041, e.g.tmask.toNat), (0x042, e.g.tpc.toNat), (0x043, e.g.tinst.toNat % 2 ^ 64),
        (0x044, e.g.tinst.toNat / 2 ^ 64), (0x045, top e 0 l), (0x046, top e 1 l), (0x047, top e 2 l)]
    let other (s : State) (e : Env) : List (Nat × Nat) :=
      [(0x048, 0x01FF), (0x049, 0), (0x04A, ((s.launchOf e.w).map fun x => x.coresIn + x.memGib * 2 ^ 9).getD 0), (0x04B, 0),
        (0x050, (s.core e.core).govLimit + 2 ^ 16 * (s.core e.core).govStep), (0x051, e.g.govst.toNat), (0x058, e.g.crIdx.toNat),
        (0x059, e.g.crSum.toNat), (0x05A, e.g.crMax.toNat), (0x05B, e.g.crCnt.toNat), (0x05C, e.g.crNf.toNat)]
    let val (s : State) (e : Env) (l : Nat) : Nat :=
      if 0x008 ≤ n.toNat ∧ n.toNat < 0x010 then level e (n.toNat - 0x008) l
      else if 0x010 ≤ n.toNat ∧ n.toNat < 0x018 then extent e (n.toNat - 0x010)
      else (((small s e l ++ trap e l ++ other s e).find? fun x => x.1 == n.toNat).map (·.2)).getD 0
    srInfo n ≠ none →
      Returns (.rdsr h n d) [] { h := h, dst := some (d, srBits n / 32), super := srSuper n } d
        (fun s e l => valueWords (srBits n) (val s e l) false)

/-- `WRSR` (R8, R79, R150, R151, R369, R424, R458, Table 12.8): the class fields of `sr.fmode`, EN, `sr.tpc`, LIMIT and STEP, and a
snapshot of a coded region's counters take the value; the snapshot, which counts as a read of the region, does not issue while an
earlier acquire or an earlier access of the thread group to the region is to be performed (log 15); a reserved value raises the
illegal-instruction trap, with a mask that the manual does not state (log 25). `RDSR` and `WRSR` of the other registers are elsewhere. -/
def Obligations.SpecialWrites : Prop :=
  ∀ (h : Hints) (n : BitVec 10) (b : Opd) (s : State) (e : Env),
    let p : Plan := { h := h, srcs := [(srcB b (srBits n / 32)).consumed], super := srSuper n,
                      reserved := fun c => srReserved n.toNat (c.uval 0) }
    let v := value s e p.srcs 0 (e.part.headD 0)
    let done (t : State) : Prop := exec (.wrsr h n b) s = .next (retired e h false t)
    let traps : Prop := ∃ mask, exec (.wrsr h n b) s = .next (takeTrap s e.r 0x01000000#32 mask false)
    let waits : Prop := ∃ o ∈ e.g.ops,
      (o.id < e.g.nextOp ∧ o.performed = false ∧ (o.acquire.isSome = true ∨ o.granule.isSome = true)) ∨
        ∃ a ∈ o.accs, a.done = false ∧ ∃ t, a.coded = some t ∧ t.ctx = e.ctx ∧ t.ix = v % 64
    Ready s e p →
      (n = 0x030 → v / 2 ^ 28 % 16 = 0 → (∀ i, i < 7 → v / 2 ^ (4 * i) % 8 < 5) →
          done (s.setTg e.r { e.g with fmode := BitVec.ofNat 28 v })) ∧
        (n = 0x030 → (v / 2 ^ 28 % 16 ≠ 0 ∨ ∃ i, i < 7 ∧ 5 ≤ v / 2 ^ (4 * i) % 8) → traps) ∧
        (n = 0x031 → v < 2 → done (s.setTg e.r { e.g with chk := decide (v = 1) })) ∧ (n = 0x031 → 2 ≤ v → traps) ∧
        (n = 0x042 → (∀ sv, e.g.saved = some sv → sv.atExit = false) → done (s.setTg e.r { e.g with tpc := BitVec.ofNat 64 v })) ∧
        (n = 0x042 → (∃ sv, e.g.saved = some sv ∧ sv.atExit = true) → done s) ∧
        (n = 0x050 → v / 2 ^ 26 % 64 = 0 → v / 2 ^ 9 % 128 = 0 → 1 ≤ v % 512 → v % 512 ≤ 256 → v / 2 ^ 16 % 1024 ≤ 256 →
          done (s.setCore e.core { s.core e.core with govLimit := v % 512, govStep := v / 2 ^ 16 % 1024 })) ∧
        (n = 0x050 → (v / 2 ^ 26 % 64 ≠ 0 ∨ v / 2 ^ 9 % 128 ≠ 0 ∨ v % 512 = 0 ∨ 256 < v % 512 ∨ 256 < v / 2 ^ 16 % 1024) → traps) ∧
        (n = 0x058 → 128 ≤ v → traps) ∧
        (n = 0x058 → v < 128 → waits → exec (.wrsr h n b) s = .next s) ∧
        (n = 0x058 → v < 128 → ¬ waits → ∀ c, s.ctx? e.ctx = some c →
          let x := lookD ⟨0, 0#64, 0#64, 0#32⟩ c.counters (v % 64)
          let g := { e.g with
            crIdx := BitVec.ofNat 6 v, crSum := BitVec.ofNat 64 (ofUnits x.sum), crMax := x.max, crCnt := x.count, crNf := x.nonfin }
          (v < 64 → done (s.setTg e.r g)) ∧
            (64 ≤ v → done ((s.setTg e.r g).setCtx e.ctx
              { c with counters := put ⟨0, 0#64, 0#64, 0#32⟩ c.counters (v % 64) ⟨0, 0#64, 0#64, 0#32⟩ })))

/-- `SLATE` (R370, R452), `TAKE.sig` (R373) and `LNCH` (R354): the trigger fires with its tag, joins a snapshot of its
own cycle, or counts a missed firing; the signature of the take, or zero; a call sheet whose address translates is to
be queued by the thread group, which its `CUT` waits for, and its status returns to a uniform. Deferred error records
(R371, R372, R470): appending to a log that has room or is full; `ERRI`, in supervisor mode, reads the log of the
issuing context's partition and removes its oldest record; a pop by the host is the same. The return of `LNCH` rests
on log 35. -/
def Obligations.SystemInstructions : Prop :=
  (
    ∀ (h : Hints) (tag : BitVec 16) (d a : U) (after : Bool) (pa : Nat) (page : PageKind) (coded : Option CodedTag),
      let lsrc := [(srcA (.s a) 2).consumed]
      let va (s : State) (e : Env) : Nat := value s e lsrc 0 (e.part.headD 0)
      Performs (.slate h tag) { h := h } always (fun s _ =>
          if s.dfs.slArm then
            { s with dfs := { s.dfs with slArm := false, slSrc := 1#4, slTag := tag, slSnap := some s.clock } }
          else if s.dfs.slSnap = some s.clock ∧ Config.freeBit s.tick 598 = true then
            { s with dfs := { s.dfs with
                slSrc := s.dfs.slSrc ||| 1#4
                slTag := if s.dfs.slSrc.getLsbD 0 = true ∧ Config.freeBit s.tick 597 = false then s.dfs.slTag else tag } }
          else { s with dfs := { s.dfs with slMissed := BitVec.ofNat 32 (min 0xFFFFFFFF (s.dfs.slMissed.toNat + 1)) } }) ∧
        Returns (.takeSig h d) [] { h := h, dst := some (.s d, 2) } (.s d)
          (fun _ e _ => valueWords 64 (if e.w.takeOn then e.w.sig.toNat else 0) false) ∧
        Performs (.lnch h after d a) { h := h, srcs := lsrc, dst := some (.s d, 1) }
          (fun s e => va s e < 2 ^ 57 ∧ va s e % 1024 = 0 ∧
            translate s e.core e.ctx e.g.super 0 (va s e) 1024 = (s, .to pa page coded))
          (fun s e => (commitPoint s e.r 5).updTg e.r fun g => (owing g [.launch]).launchOp
            { MemOp.blank with ps := h.ps.toNat, results := [(.s d.toNat, .zero)], super := e.g.super, gated := g.commits,
                               launch := some ⟨e.pc, maskOf e.part, va s e, pa, page, coded, after, none, none⟩ })) ∧
  (
    ∀ (h : Hints) (d n : U) (ix : BitVec 8) (part : BitVec 3) (s : State),
      let log (k : Nat) : ErrLog := s.logs.getD k ⟨[], 0⟩
      let popped (l : ErrLog) : ErrLog := ⟨l.recs.drop 1, if l.recs.length ≤ 1 then 0 else l.lost⟩
      let dws (l : ErrLog) : List (BitVec 64) :=
        match l.recs[ix.toNat]? with
        | some r => [r.dw0, r.dw1, r.dw2, r.dw3]
        | none => [0#64, 0#64, 0#64, 0#64]
      let p : Plan := { h := h, super := true }
      (∀ (k kind core unit addr i0 i1 : Nat), s.logs.length = 8 → k < 8 → kind < 256 → core < 512 → unit < 4096 →
        let t := appendRecord s k kind core unit addr i0 i1
        let dw0 := kind * 2 ^ 56 + k * 2 ^ 53 + core * 2 ^ 44 + unit * 2 ^ 32 + s.clock.toNat % 2 ^ 32
        t.logs = s.logs.set k (if (log k).recs.length < 256
          then ⟨(log k).recs ++ [⟨BitVec.ofNat 64 dw0, BitVec.ofNat 64 addr, BitVec.ofNat 64 i0, BitVec.ofNat 64 i1⟩], (log k).lost⟩
          else ⟨(log k).recs, min 0xFFFF ((log k).lost + 1)⟩)) ∧
      (∀ e, Ready s e { p with dst := some (.s d, 1) } →
        Writes s e h (exec (.erriCnt h d) s)
          (e.g.launchOp (resultOp h (toReg e (.s d) fun _ =>
            valueWords 32 ((log e.pt).recs.length + 2 ^ 16 * (log e.pt).lost) false))) []) ∧
      (∀ e, Ready s e { p with dst := some (.s n, 8) } →
        Writes s e h (exec (.erriRd h n ix) s)
          (e.g.launchOp (resultOp h ((List.range 8).map fun k => (.s (n.toNat + k),
            ((dws (log e.pt)).flatMap fun x => valueWords 64 x.toNat false).getD k .zero)))) []) ∧
      (∀ e, Ready s e p → exec (.erriPop h) s = .next (retired e h false { s with logs := s.logs.set e.pt (popped (log e.pt)) })) ∧
      exec (.logPop part) s = .next { s with logs := s.logs.set part.toNat (popped (log part.toNat)) })

/-! ### The matrix engine -/

/-- Instructions of group 0xB that act at issue (R246, R263 to R266, R278, R279): the tensor table is written, read and its
counters and map cleared or copied; a tile is mapped to the lowest free pages when its shape and the pages allow it; a gang
list that keeps R279 is set, another traps; the progress of the thread group's oldest operation, STATE 0 without one (log 26). -/
def Obligations.TensorTable : Prop :=
  ∀ (h : Hints) (clr : Bool) (n d : U) (th td ts j : BitVec 6) (sel : TdrSel) (af : AccFmt) (gd : BitVec 3) (m : BitVec 4)
    (b : Opd) (o : MatOp),
    let p : Plan := { h := h, role := notCopy }
    let cmd := [(srcA (.s n) 8).consumed]
    let list := [(srcA (.s n) 4).consumed]
    let tensor (e : Env) (k : BitVec 6) : Tensor := (e.w.tensors[k.toNat]?).getD Tensor.zero
    let setT (s : State) (e : Env) (k : BitVec 6) (t : Tensor) : State :=
      s.setWg e.r.wg { e.w with tensors := updAt e.w.tensors k.toNat fun _ => t }
    let dw (s : State) (e : Env) (i : Nat) : BitVec 64 :=
      BitVec.ofNat 64 (valOf (((words s e cmd 0 (e.part.headD 0)).drop (2 * i)).take 2))
    let read (t : Tensor) : Nat × Nat :=
      match sel with
      | .dw0 => (64, t.dw0.toNat)
      | .dw1 => (64, t.dw1.toNat)
      | .dw2 => (64, t.dw2.toNat)
      | .dw3 => (64, t.dw3.toNat)
      | .sat => (32, t.sat.toNat)
      | .flush => (32, t.flush.toNat)
      | .e => (32, t.map.length)
      | .map => (32, t.map.getD j.toNat 0)
    let cleared (t : Tensor) : Tensor :=
      { t with sat := if sel = .sat then 0#32 else t.sat, flush := if sel = .flush then 0#32 else t.flush }
    let back (s : State) (e : Env) (bits v : Nat) : State :=
      s.setTg e.r (e.g.launchOp (resultOp h (toReg e (.s d) fun _ => valueWords bits v false)))
    let args (s : State) (e : Env) : List Nat :=
      (List.range 4).map fun i => ((words s e list 0 (e.part.headD 0)).getD i .zero).data.toNat
    let fields (ws : List Nat) : List (Nat × Nat) :=
      (List.range 6).map fun i => let f := ws.getD (i / 2) 0 / 2 ^ (16 * (i % 2)) % 2 ^ 16; (f / 64, f % 64)
    let gang (ws : List Nat) : List (Nat × Nat) := (fields ws).take (ws.getD 3 0 % 8)
    let good (e : Env) (ws : List Nat) : Prop :=
      ∃ lv u rank, e.sheet.clusterLevel = some lv ∧ e.sheet.clusterUnit e.w = some (u, rank) ∧ ws.getD 3 0 < 8 ∧
        2 ≤ ws.getD 3 0 ∧ ws.getD 3 0 ≤ 6 ∧ (∀ x ∈ (fields ws).drop (ws.getD 3 0), x = (0, 0)) ∧
        (gang ws).eraseDups.length = (gang ws).length ∧ (rank, e.r.tg) ∈ gang ws ∧
        ∀ x ∈ gang ws, x.1 < e.sheet.prod e.sheet.coreLevel lv ∧ x.2 < e.sheet.groups
    let oldest (s : State) (e : Env) : Option MatOp := (s.core e.core).matq.find? fun x => x.issuer == e.r
    Performs (.tdw h clr n th) { p with srcs := cmd } always (fun s e =>
        let t := tensor e th
        let t1 := { t with dw0 := dw s e 0, dw1 := dw s e 1, dw2 := dw s e 2, dw3 := dw s e 3 }
        setT s e th (if clr then { t1 with sat := 0#32, flush := 0#32, map := [], fresh := [] } else t1)) ∧
      Performs (.tdr h sel clr d th j) { p with dst := some (.s d, (read Tensor.zero).1 / 32) } always (fun s e =>
        back (if clr then setT s e th (cleared (tensor e th)) else s) e (read (tensor e th)).1 (read (tensor e th)).2) ∧
      Performs (.mdupClr h th) p always (fun s e => setT s e th { tensor e th with map := [], fresh := [] }) ∧
      Performs (.mdupCp h td ts) p always (fun s e => setT s e td { tensor e td with map := (tensor e ts).map, fresh := (tensor e ts).fresh }) ∧
      (∀ s e, Ready s e { p with srcs := [(srcB b 1).consumed] } →
        let x := value s e [(srcB b 1).consumed] 0 (e.part.headD 0)
        let r := x % 1024
        let c := x / 2 ^ 16 % 1024
        let need := (r * c * (if af = .f32 ∨ af = .s32 then 4 else 8) + 16383) / 16384
        let free := ascending (freePages s e.r.wg e.w)
        let fits : Prop := (e.w.tiles[m.toNat]?).join = none ∧ r % 16 = 0 ∧ 16 ≤ r ∧ r ≤ 512 ∧ c % 16 = 0 ∧ 16 ≤ c ∧ c ≤ 768 ∧
          need ≤ free.length
        (fits → Writes (s.setWg e.r.wg { e.w with tiles := updAt e.w.tiles m.toNat fun _ => some ⟨r, c, af, free.take need⟩ }) e h
            (exec (.macq h af gd m b) s) e.g (guardWords e gd fun _ => true)) ∧
          (¬fits → Writes s e h (exec (.macq h af gd m b) s) e.g (guardWords e gd fun _ => false))) ∧
      Performs (.mgng h n) { p with srcs := list } (fun s e => good e (args s e)) (fun s e =>
        let l := gang (args s e)
        s.setTg e.r { e.g with
          gang := l, gangPos := l.idxOf (((e.sheet.clusterUnit e.w).map (·.2)).getD 0, e.r.tg) }) ∧
      Traps (.mgng h n) { p with srcs := list } (fun s e => ¬good e (args s e)) (fun _ _ => 0x07000000#32) ∧
      Performs (.mgngClr h) p always (fun s e => s.setTg e.r { e.g with gang := [], gangPos := 0 }) ∧
      Performs (.mprgRd h d) { p with dst := some (.s d, 2) } (fun s e => oldest s e = some o) (fun s e =>
        let kind : Nat := match o.kind with
          | .mzro => 0
          | .mma => 1
          | .mlda => 2
          | .msta => 3
          | .mrel => 4
        back s e 64 (o.rows + o.kch % 2 ^ 22 * 2 ^ 10 + o.state * 2 ^ 32 + kind * 2 ^ 36 + o.cause * 2 ^ 40 + o.point * 2 ^ 48 +
          o.stage * 2 ^ 52 + o.cstep * 2 ^ 56)) ∧
      Performs (.mprgPc h d) { p with dst := some (.s d, 2) } (fun s e => oldest s e = some o) (fun s e => back s e 64 o.pc.toNat) ∧
      (∀ s e, Ready s e { p with dst := some (.s d, 2) } → oldest s e = none →
        (∃ v, v / 2 ^ 32 % 16 = 0 ∧ exec (.mprgRd h d) s = .next (retired e h false (back s e 64 v))) ∧
          ∃ v, exec (.mprgPc h d) s = .next (retired e h false (back s e 64 v)))

/-- Matrix operations (R258 to R261, R268, R270, R277 to R280, R282 to R284): their checks at issue, with the traps of
Table 18.3; the operation that enters the queue of its core with what it captured; the counter and the waits of its
`CUT`; `MREL` frees its handle at once; `MSTA` with a guard holds an operation in flight for it; a gang member waits
in the latch; `MPRG.go` and `.ab` act on a suspended oldest operation. The model's choices: the threads that a trap
reports (log 57), the checks of a coded `MSTA` (log 74). -/
def Obligations.MatrixOperations : Prop :=
  ∀ (h : Hints) (acc : Bool) (m : BitVec 4) (n : U) (ta tb th : BitVec 6) (gs : BitVec 3) (s : State) (e : Env),
    let p : Plan := { h := h, role := notCopy }
    let four := [(srcA (.s n) 4).consumed]
    let two := [(srcA (.s n) 2).consumed]
    let tensor (k : BitVec 6) : Tensor := (e.w.tensors[k.toNat]?).getD Tensor.zero
    let tile : Option Tile := (e.w.tiles[m.toNat]?).join
    let args (xs : List Src) (k : Nat) : List Nat :=
      (List.range k).map fun i => ((words s e xs 0 (e.part.headD 0)).getD i .zero).data.toNat
    let q := (s.core e.core).matq
    let issued (o : MatOp) (kind : MatKind) (a b : Tensor) (xs : List Nat) (acc : Bool) : Prop :=
      o.kind = kind ∧ o.issuer = e.r ∧ o.pc = e.pc ∧ o.threads = maskOf e.part ∧ o.tile = tile ∧ o.ta = a ∧ o.tb = b ∧ o.args = xs ∧
        o.acc = acc ∧ o.num = e.g.matIssued ∧ o.fmode = e.g.fmode ∧ o.nonce = e.sheet.nonce ∧ o.state = 1 ∧ o.rows = 0 ∧ o.kch = 0 ∧ o.cstep = 0 ∧
        o.super = e.g.super
    let counted (t : State) (g' : Tg) : Prop := t.tg? e.r = some g' ∧ g'.cntMat = e.g.cntMat + 1 ∧ g'.matIssued = e.g.matIssued + 1 ∧
      Wait.counter .mat 255 ∈ g'.shot.waits ∧ t.mm = s.mm ∧ t.cs = s.cs ∧ (∀ k, realKey k = true → g'.word k = e.g.word k)
    let queued (i : Instr) (x : MatOp → Prop) (y : State → Tg → MatOp → Prop) : Prop :=
      ∃ t g' o, exec i s = .next t ∧ counted t g' ∧ (t.core e.core).matq = q ++ [o] ∧ x o ∧ y t g' o ∧
        (16 ≤ q.length → Wait.enter ∈ g'.shot.waits)
    let plain (t : State) (g' : Tg) (o : MatOp) : Prop := g'.ops = e.g.ops ∧ o.guardD = none ∧
      (t.wg? e.r.wg).map (·.tiles) = some e.w.tiles
    let traps (i : Instr) (fcode : Nat) : Prop :=
      exec i s = .next (takeTrap s e.r (BitVec.ofNat 32 (0x0C000000 + fcode * 2 ^ 20)) (maskOf e.part) false)
    let mmaGood : Prop := (tensor ta).valid = true ∧ (tensor tb).valid = true ∧ (∃ t, tile = some t ∧ mmaOk (tensor ta) (tensor tb) t.af = true) ∧
      (args four 4).getD 0 0 < (tensor ta).rows ∧ (args four 4).getD 1 0 < (tensor tb).cols
    let mmaOp (o : MatOp) : Prop := issued o .mma ((tensor ta).seenBy e.r.tg) (tensor tb) (args four 4) acc
    (Ready s e p →
      (tile ≠ none → queued (.mzro h m) (fun o => issued o .mzro Tensor.zero Tensor.zero [] false) plain) ∧
        (tile = none → traps (.mzro h m) 1) ∧
        queued (.mrel h m) (fun o => issued o .mrel Tensor.zero Tensor.zero [] false) fun t g' o =>
          g'.ops = e.g.ops ∧ o.guardD = none ∧ (t.wg? e.r.wg).map (·.tiles) = some (updAt e.w.tiles m.toNat fun _ => none)) ∧
    (Ready s e { p with srcs := four } →
      (mmaGood → queued (.mma h acc m n ta tb) mmaOp plain) ∧
        (¬((tensor ta).valid = true ∧ (tensor tb).valid = true) → traps (.mma h acc m n ta tb) 0 ∧ traps (.mmaGang h acc m n ta tb) 0) ∧
        ((tensor ta).valid = true → (tensor tb).valid = true → tile = none →
          traps (.mma h acc m n ta tb) 1 ∧ traps (.mmaGang h acc m n ta tb) 1) ∧
        (∀ t, (tensor ta).valid = true → (tensor tb).valid = true → tile = some t →
          (mmaOk (tensor ta) (tensor tb) t.af = false → traps (.mma h acc m n ta tb) 2) ∧
            (mmaOk (tensor ta) (tensor tb) t.af = true →
              (tensor ta).rows ≤ (args four 4).getD 0 0 ∨ (tensor tb).cols ≤ (args four 4).getD 1 0 →
              traps (.mma h acc m n ta tb) 3)) ∧
        (mmaGood → e.g.gang = [] →
          exec (.mmaGang h acc m n ta tb) s = .next (takeTrap s e.r 0x07100000#32 (maskOf e.part) false)) ∧
        (mmaGood → (s.cluster (e.core / 8)).latch = [] → (∃ x ∈ e.g.gang, gangRef s e.sheet e.w x ≠ e.r) →
          (∀ x ∈ e.g.gang, s.gone (gangRef s e.sheet e.w x) = false) →
          ∃ t g' x, exec (.mmaGang h acc m n ta tb) s = .next t ∧ counted t g' ∧ (t.core e.core).matq = q ∧
            (t.cluster (e.core / 8)).latch = [x] ∧ x.ref = e.r ∧ x.list = e.g.gang ∧
            x.members = e.g.gang.map (gangRef s e.sheet e.w) ∧ mmaOp x.op ∧ x.since = s.clock.toNat ∧
            Wait.rendezvous ∈ g'.shot.waits)) ∧
    (Ready s e { p with srcs := two } →
      let pairs (t : Tile) : Prop := match (tensor th).format with
        | some (.int _ _) => t.af = .s32 ∨ t.af = .s64
        | _ => t.af = .f32 ∨ t.af = .f64
      ((tensor th).valid = true → (∃ t, tile = some t ∧ pairs t) →
          queued (.mlda h m n th) (fun o => issued o .mlda (tensor th) Tensor.zero (args two 2) false ∧ o.th = th.toNat) plain) ∧
        ((tensor th).valid = true → (∃ t, tile = some t ∧ ¬pairs t) → traps (.mlda h m n th) 2) ∧
        ((tensor th).valid = false → traps (.mlda h m n th) 0 ∧ traps (.msta h m n th none) 0) ∧
        ((tensor th).valid = true → tile = none → traps (.mlda h m n th) 1 ∧ traps (.msta h m n th (some gs)) 1) ∧
        ((tensor th).valid = true → tile ≠ none →
          queued (.msta h m n th none) (fun o => issued o .msta (tensor th) Tensor.zero (args two 2) false ∧ o.th = th.toNat) plain ∧
            queued (.msta h m n th (some gs)) (fun o => issued o .msta (tensor th) Tensor.zero (args two 2) false ∧ o.th = th.toNat)
              fun _ g' o => ∃ x, g'.ops = e.g.ops ++ [x] ∧ o.guardD = some x.id ∧ x.ps = h.ps.toNat ∧
                x.results.map (·.1) = e.part.map fun l => .g gs.toNat l)) ∧
    (Ready s e { p with super := true } → ∀ o, (q.find? fun x => x.issuer == e.r) = some o →
      (o.state ≠ 4 → o.state ≠ 5 → exec (.mprgGo h) s = .next (retired e h false s) ∧ exec (.mprgAb h) s = .next (retired e h false s)) ∧
        (o.state = 4 ∨ o.state = 5 → o.gang = none →
          exec (.mprgGo h) s = .next (retired e h false (updMat s e.core o fun y =>
              { y with state := 2, cause := 0, point := 0, stage := 0, waits := [] })) ∧
            exec (.mprgAb h) s = .next (retired e h false (completeMat s e.core o))))

/-! ### Accesses at their homes -/

/-- A pending access performed at its home (Table 14.2, R70 to R72, R83, R85, R310, R314). A load takes the words of a
line that the L2 holds; a miss places the line and requests its atoms; a store merges into a decoded line of a
write-back region, which becomes dirty, and the core's copy goes; an atomic returns the old words and stores the new
ones; host memory is read and written as it stands. Every pending access of a thread group is performed at its home
(R70 to R72, R83, R85, R310, R312, R314): a read of bytes that the L2 does not hold requests its line; other loads,
stores and atomics are performed, those of a take that are held excepted. That the core's copy is written back before
it goes is the model's choice (log 60). -/
def Obligations.HomeAccesses : Prop :=
  (
    ∀ (s : State) (r : TgRef) (op ix : Nat) (w : Wg) (g : Tg) (o : MemOp) (a : Acc), Pending s r op ix w g o a → g.ops = [o] →
      o.accs = [a] → w.takeOn = false → o.arrive = none → o.acquire = none → o.rel = false → o.grn = none → o.performed = false →
      let at_ := a.pa % 128 / 4
      let n := a.data.length
      let base := a.pa / 128 * 128
      let pt := s.partOf w
      let new (old : List CWord) : List CWord := a.kind.after old a.data a.data2
      let leaves (t : State) (res : List CWord) : Prop := ∃ g', t.tg? r = some g' ∧ g'.ops = performedOp o a res
      (a.page = .rc → a.coded = none → a.kind = .load → l1Find s w.core a.pa none = none → L1Room s w.core 1 →
        a.mask * 2 ^ (a.pa % 128) < 2 ^ 128 →
        (∀ ln, WholeLine s a.pa ln →
          ∃ t, exec (.l2Lookup r op ix) s = .next t ∧ leaves t ((ln.words.drop at_).take a.count) ∧ t.mm = s.mm) ∧
        (lineAt s a.pa = none → populated s a.pa = true →
          (∃ k, k < 16 ∧ (waysOf s (sliceOf s base) pt).getLsbD k = true ∧
            ∀ x ∈ s.cs.l2, x.slice = sliceOf s base → x.set = setOf base → x.way ≠ k) →
          ∃ t, exec (.l2Lookup r op ix) s = .next t ∧ (lineAt t a.pa).isSome = true ∧ t.wgs = s.wgs ∧
            ∀ k, k < 128 / atomBytes s base → ⟨false, base + atomBytes s base * k, [], 0, pt, w.core⟩ ∈ t.mm.queue)) ∧
      (∀ (c : CodedTag) (ln : L2Line), a.page = .rc → a.coded = some c → a.kind = .store → c.entry.through = false →
        c.sameSet c = true → (s.cs.l2.find? (·.decodes c)) = some ln → a.data.all CWord.passes = true →
        ∃ t ln', exec (.codedMerge r op ix) s = .next t ∧ leaves t [] ∧ (t.cs.l2.find? (·.decodes c)) = some ln' ∧
          ln'.words = mergeWords ln.words at_ a.mask a.data ∧ ln'.dirty = Nat.lor ln.dirty (a.mask * 2 ^ (4 * at_)) ∧
          ∀ x ∈ t.cs.l1, x.isAt w.core 0 (some c) = false) ∧
      (∀ ln, a.page = .rc → a.coded = none → a.isAtomic = true → WholeLine s a.pa ln → l1Find s w.core a.pa none = none →
        (∀ u ∈ s.strikes, ∀ k, u ≠ .homeAlu k) → a.data.all CWord.passes = true → a.data2.all CWord.passes = true →
        a.pa % 4 = 0 → a.pa % 128 + 4 * n ≤ 128 →
        let old := (ln.words.drop at_).take n
        (new old).length = n →
        ∃ t ln', exec (.homeAtomic r op ix) s = .next t ∧ leaves t old ∧ lineAt t a.pa = some ln' ∧
          ln'.words = setWords ln.words at_ (new old)) ∧
      (a.page = .host → a.coded = none →
        let old (k : Nat) : List CWord := (List.range k).map fun i => .of (rdWord s.mm.bytes (a.pa + 4 * i))
        (a.kind = .load →
          ∃ t, exec (.hostMemoryAccess r op ix) s = .next t ∧ leaves t (old a.count) ∧ t.mm = s.mm) ∧
        (a.kind = .store → clean a.data = true →
          ∃ t, exec (.hostMemoryAccess r op ix) s = .next t ∧ leaves t [] ∧
            ∀ i, rdByte t.mm.bytes i =
              if a.pa ≤ i ∧ i < a.pa + 4 * n ∧ a.mask.testBit (i - a.pa) = true then byteIn a.data (i - a.pa) else rdByte s.mm.bytes i) ∧
        (a.isAtomic = true → clean (new (old n)) = true → (new (old n)).length = n →
          ∃ t, exec (.hostMemoryAccess r op ix) s = .next t ∧ leaves t (old n) ∧
            ∀ i, rdByte t.mm.bytes i =
              if a.pa ≤ i ∧ i < a.pa + 4 * n then byteIn (new (old n)) (i - a.pa) else rdByte s.mm.bytes i))) ∧
  (
    ∀ (s : State) (r : TgRef) (op ix : Nat) (w : Wg) (g : Tg) (o : MemOp) (a : Acc), Pending s r op ix w g o a →
      let line := a.pa / 128 * 128
      let miss : Prop := a.coded = none ∧ a.isWrite = false ∧ homeHits s line (2 ^ 128 - 1) = false ∧ fills s (s.partOf w) a.pa = true
      let atomic := atomicAt s (s.partOf w) w.core a
      (a.page ≠ .spad → a.page ≠ .host → a.isAtomic = false → (w.takeOn = true → a.isHeld = false) →
        (a.coded ≠ none → a.isWrite = false) →
        (miss → exec (.l2Lookup r op ix) s = .next (homeMiss s (s.partOf w) w.core line)) ∧
        (¬ miss → exec (.l2Lookup r op ix) s = .next (performNow s r o ix a))) ∧
      (a.coded ≠ none → a.kind = .store → w.takeOn = false → exec (.codedMerge r op ix) s = .next (performNow s r o ix a)) ∧
      (a.isAtomic = true → a.page ≠ .spad → a.page ≠ .host → w.takeOn = false →
        exec (.homeAtomic r op ix) s = .next (accDone atomic.1 r op ix atomic.2)) ∧
      (a.page = .host → (w.takeOn = true → a.kind = .load) →
        exec (.hostMemoryAccess r op ix) s =
          .next (if a.isAtomic = true then accDone atomic.1 r op ix atomic.2 else performNow s r o ix a)))

/-- A memory controller serves a request when none for its atom stands before it (R45 to R49, R53), with no other
partition at its stack: a read gives the stored words to the line that waits for them; a write of a whole atom stores
words, Poison and fresh check symbols; a write of some bytes leaves the others. A request of a partition of weight 0
waits while one of nonzero weight stands at its stack (R88). Every request of a memory controller is served in its
turn, and counted for the shares of its stack (R45 to R49, R53, R88). -/
def Obligations.MemoryControllers : Prop :=
  (
    ∀ (s : State) (q : McReq), s.mm.queue[s.unit]? = some q → (∀ x ∈ s.mm.queue.take s.unit, x.atom ≠ q.atom) →
      q.atom = atomOf s q.atom → populated s q.atom = true → unsettledAt s q.atom = none → look? s.mm.errs q.atom = none →
      (∀ x ∈ s.mm.queue, stackOf s x.atom = stackOf s q.atom → x.part = q.part) →
      let n := atomBytes s q.atom
      let rest := s.mm.queue.eraseIdx s.unit
      let stored (i : Nat) : CWord :=
        let x := rdWord s.mm.bytes (q.atom + 4 * i)
        if s.mm.poison.contains (q.atom / 4 + i) then .poisoned x else .of x
      let inAtom (i : Nat) : Prop := q.atom ≤ i ∧ i < q.atom + n
      let filled (ln : L2Line) : L2Line :=
        if ln.holds q.atom then fillLine ln (q.atom % 128 / 4) ((List.range (n / 4)).map stored) else ln
      (q.write = false →
        ∃ v, exec .hbmAtomRead s = .next { s with
          mm := { s.mm with queue := rest, served := v }
          cs := { s.cs with l2 := s.cs.l2.map filled } }) ∧
      (q.write = true → exec .hbmAtomRead s = .next s) ∧
      (q.write = true → q.words.length = n / 4 → q.words.all CWord.passes = true →
        (maskSub (2 ^ n - 1) q.mask = true →
          ∃ t, exec .hbmAtomWrite s = .next t ∧ t.mm.queue = rest ∧ look? t.mm.errs q.atom = none ∧ t.cs = s.cs ∧
            (∀ i, inAtom i → rdByte t.mm.bytes i = byteIn q.words (i - q.atom)) ∧
            (∀ i, ¬ inAtom i → rdByte t.mm.bytes i = rdByte s.mm.bytes i) ∧
            ∀ i, inAtom (4 * i) → (i ∈ t.mm.poison ↔ (q.words.getD (i - q.atom / 4) .zero).bad = true)) ∧
        (maskSub (2 ^ n - 1) q.mask = false →
          exec .hbmAtomWrite s = .next s ∧
          ∃ t, exec .hbmReadModifyWrite s = .next t ∧ t.mm.queue = rest ∧
            (∀ i, inAtom i → rdByte t.mm.bytes i =
              if q.mask.testBit (i - q.atom) = true then byteIn q.words (i - q.atom) else rdByte s.mm.bytes i) ∧
            ∀ i, ¬ inAtom i → rdByte t.mm.bytes i = rdByte s.mm.bytes i)) ∧
      ∀ (u : State) (y z : McReq), u.mm.queue[u.unit]? = some y → z ∈ u.mm.queue → stackOf u z.atom = stackOf u y.atom → z.part < 8 →
        u.cs.weight.getD y.part 0#8 = 0#8 → u.cs.weight.getD z.part 0#8 ≠ 0#8 →
        exec .hbmAtomRead u = .next u ∧ exec .hbmAtomWrite u = .next u ∧ exec .hbmReadModifyWrite u = .next u) ∧
  (
    ∀ (s : State) (q : McReq), s.mm.queue[s.unit]? = some q → (∀ x ∈ s.mm.queue.take s.unit, x.atom ≠ q.atom) →
      weightAllows s (stackOf s q.atom) q.part = true →
      let t := countServed (serveReq { s with mm := { s.mm with queue := s.mm.queue.eraseIdx s.unit } } q) (stackOf s q.atom) q.part
        (competing s (stackOf s q.atom))
      let whole := maskSub (2 ^ atomBytes s q.atom - 1) q.mask
      (q.write = false → exec .hbmAtomRead s = .next t) ∧
      (q.write = true → whole = true → exec .hbmAtomWrite s = .next t) ∧
      (q.write = true → whole = false → exec .hbmReadModifyWrite s = .next t))

/-- Translation (R91 to R97). A walk down tables in host memory caches the leaf it ends at in the core's and the
cluster's TLB and the entries above it in the die's walkers, and nothing where an entry is not valid. An invalidation
is busy until no access that it names is in flight; then the entries that it names are gone. The fault queue drops its
oldest record; its thread groups go on, or take their fault when they are cancelled. A walk ends at its leaf, which is
cached when it serves the context, or at a fault; an invalidation and a flush end (R80, R93 to R95). -/
def Obligations.Translation : Prop :=
  (
    ∀ s : State,
      (∀ (core ctx : Nat) (va : BitVec 57) (c : Context) (T : Nat → Nat) (leaf : Nat), core < 384 → s.ctx? ctx = some c →
        tlbFind s core ctx va.toNat = none → (∀ l, walkHeld s core ctx va.toNat l = none) → T 4 = c.root →
        let at_ (l : Nat) : Nat := T l + 8 * (va.toNat / 2 ^ (12 + 9 * l) % 512)
        (∀ l, l < 5 → isHost (at_ l) = true) →
        (hostDw s (at_ 4) % 2 = 0 → exec (.pageWalk core ctx va) s = .next s) ∧
        ((∀ l, l < 4 → T l % 4096 = 0 ∧ T l < 2 ^ 52 ∧ hostDw s (at_ (l + 1)) = T l + 1) → hostDw s (at_ 0) = leaf → leaf % 4 = 3 →
          leafOk leaf 0 = true → pteSz64 leaf = false → leaf / 2 ^ 58 % 8 = c.part → isMain (leafAddr leaf 0 va.toNat) = true →
          (s.cs.tlb.filter fun t => t.unit == core).length < 512 → (s.cs.tlb.filter fun t => t.unit == 384 + core / 8).length < 16384 →
          let page := va.toNat / 4096
          let above (l : Nat) : TlbEntry := ⟨432 + core / 64, ctx, page / 512 ^ l * 512 ^ l, T (l - 1) + 1, l⟩
          exec (.pageWalk core ctx va) s =
            .next { s with cs := { s.cs with tlb :=
              [⟨core, ctx, page, leaf, 0⟩, ⟨384 + core / 8, ctx, page, leaf, 0⟩, above 1, above 2, above 3, above 4] ++ s.cs.tlb } })) ∧
      (∀ x : BitVec 16,
        let busy (all : Bool) : State := { s with cs := { s.cs with tlbinv := some (x.toNat, all, s.cs.tlbVa.toNat / 2 ^ 12 % 2 ^ 45) } }
        exec (.tlbinvPage x) s = .next (if s.cs.tlbinv.isSome then s else busy false) ∧
          exec (.tlbinvAll x) s = .next (if s.cs.tlbinv.isSome then s else busy true)) ∧
      (∀ y, s.cs.tlbinv = some y →
        (invalWaits s y = true → exec .tlbinvDone s = .next s) ∧
        (invalWaits s y = false → (∀ ln ∈ s.cs.l1, ln.dirty = 0) →
          exec .tlbinvDone s =
            .next { s with cs := { s.cs with tlb := s.cs.tlb.filter fun e => !e.named y, tlbinv := none } })) ∧
      (∀ c, s.ctx? s.host.fqSel.toNat = some c →
        let q := c.faults
        exec .fqPop s = .next (s.setCtx s.host.fqSel.toNat { c with faults := { q with recs := q.recs.drop 1 } }) ∧
        (s.cores = [] → s.clusters = [] → (∀ x ∈ s.wgs, x.2.stageWait = []) → ∀ cancel : Bool,
          ∃ t, exec (if cancel then .fqCancel else .fqResume) s = .next t ∧
            (t.ctx? s.host.fqSel.toNat).map (·.faults.recs) = some (q.recs.map fun x => { x with unresolved := false }) ∧
            ∀ r g, r ∈ ctxTgs s s.host.fqSel.toNat → s.tg? r = some g → g.phase = .faulted →
              ∃ g', t.tg? r = some g' ∧ g'.phase = .ready ∧ g'.cancel = cancel ∧ (cancel = false → g'.faults = [])))) ∧
  (
    ∀ s : State,
      (∀ (core ctx : Nat) (va : BitVec 57) (c : Context) s1, core < 384 → s.ctx? ctx = some c → tlbFind s core ctx va.toNat = none →
        (∀ e level, walkFrom s c.part core ctx va.toNat 4 c.root = (s1, .leaf e level) →
          exec (.pageWalk core ctx va) s =
            .next (if leafServes c va.toNat e level = true then tlbFill s1 core ctx va.toNat e level else s1)) ∧
        (∀ cause level pte, walkFrom s c.part core ctx va.toNat 4 c.root = (s1, .fault cause level pte) →
          exec (.pageWalk core ctx va) s = .next s1)) ∧
      (∀ y, s.cs.tlbinv = some y → invalWaits s y = false → exec .tlbinvDone s = .next (finishInval s y)) ∧
      (∀ ctx, s.cs.crflush = some ctx →
        let t := flushContext s ctx
        exec .crflushDone s = .next { t with cs := { t.cs with crflush := none } }))

/-- Map-out, flushes and ways (R54 to R57, R80, R86, R90, Tables 3.4, 3.5; INFO of the events free, log 23): a die
that has shown enough errors is declared with a record, once, and queued if it is not already; a request queues a die,
or finds the queue full; the head of the queue enters remove-pending, its acknowledgement drops the stack from the
segment and the segment's lines from the L2, and the rebuild leaves zeros and 4 GiB less; a flush drops every decoded
line of its context; one write sets a partition's ways everywhere. Declarations for a segment's last stack are ignored
(log 76). -/
def Obligations.MemoryManagement : Prop :=
  ∀ s : State,
    (∀ stack die, stack < 12 → die < 16 → dieTaken s stack die = false → lastStack s stack die = false → s.mm.mapouts.length < 31 →
      s.mm.declared.contains (16 * stack + die) = false →
      let key := 16 * stack + die
      (8 ≤ lookD 0 s.mm.uncorr key ∨ 65536 ≤ lookD 0 s.mm.corr key →
        ∃ t, exec (.mapoutDeclare stack die) s = .next t ∧ t.mm.mapouts = s.mm.mapouts ++ [(stack, die)] ∧
          Recorded s t 0 0x14 (lookD 0 s.mm.last key)) ∧
      (lookD 0 s.mm.uncorr key < 8 → lookD 0 s.mm.corr key < 65536 → exec (.mapoutDeclare stack die) s = .next s)) ∧
    (∀ stack die, stack < 12 → die < 16 → dieTaken s stack die = true → 8 ≤ lookD 0 s.mm.uncorr (16 * stack + die) →
      (s.mm.declared.contains (16 * stack + die) = true → exec (.mapoutDeclare stack die) s = .next s) ∧
      (s.mm.declared.contains (16 * stack + die) = false →
        ∃ t, exec (.mapoutDeclare stack die) s = .next t ∧ t.mm.mapouts = s.mm.mapouts ∧
          Recorded s t 0 0x14 (lookD 0 s.mm.last (16 * stack + die)))) ∧
    (∀ stack seg : BitVec 4, stack.toNat < 12 →
      let key := 16 * stack.toNat + seg.toNat
      let m : MainMem := { s.mm with
        uncorr := del s.mm.uncorr key, corr := del s.mm.corr key, declared := s.mm.declared.filter (· != key) }
      (s.mm.mapouts.length < 31 → dieTaken s stack.toNat seg.toNat = false → lastStack s stack.toNat seg.toNat = false →
        exec (.mapoutReq stack seg) s =
          .next { s with mm := { m with mapouts := s.mm.mapouts ++ [(stack.toNat, seg.toNat)] } }) ∧
      (31 ≤ s.mm.mapouts.length → exec (.mapoutReq stack seg) s = .next { s with mm := { s.mm with full := true } })) ∧
    (∀ x k rest, s.mm.mapouts = (x, k) :: rest → (∀ d ∈ s.mm.diePend, d = 0#16) →
      exec .mapoutStart s =
        if s.mm.mstate = 0 then
          .next (postEvent { s with mm := { s.mm with mapouts := rest, mstate := 1, mseg := k, mstack := x } } 0x02 0
            (Config.eventInfo 0x02 k x))
        else .next s) ∧
    (s.mm.mstate = 1 → ∃ t, exec .mapoutAck s = .next t ∧ t.mm.mstate = 2 ∧ t.mm.bytes = s.mm.bytes ∧
      (t.mm.segLive.getD s.mm.mseg 0#12).getLsbD s.mm.mstack = false ∧
      ∀ ln, ln ∈ t.cs.l2 ↔ ln ∈ s.cs.l2 ∧ ln.inSegment s.mm.mseg = false) ∧
    (s.mm.mstate = 2 → ∃ t, exec .mapoutRebuildComplete s =
        .next (postEvent t 0x03 0 (Config.eventInfo 0x03 s.mm.mseg s.mm.mstack)) ∧
      t.mm.mstate = 0 ∧ t.mm.memcap = s.mm.memcap - 0x100000000#40 ∧
      ∀ a, rdByte t.mm.bytes a = if a / 0xC00000000 = s.mm.mseg then 0#8 else rdByte s.mm.bytes a) ∧
    (∀ x : BitVec 16, exec (.crflush x) s =
      .next (if s.cs.crflush.isSome then s else { s with cs := { s.cs with crflush := some x.toNat } })) ∧
    (∀ ctx, s.cs.crflush = some ctx → (∀ ln ∈ s.cs.l2, ∀ u, ln.coded = some u → u.sameSet u = true) →
      ∃ t, exec .crflushDone s = .next t ∧ t.cs.crflush = none ∧
        (∀ ln ∈ t.cs.l2, ∀ u, ln.coded = some u → u.ctx ≠ ctx) ∧ ∀ ln ∈ t.cs.l1, ∀ u, ln.coded = some u → u.ctx ≠ ctx) ∧
    (∀ (part : BitVec 3) (ways : BitVec 16), ∃ t, exec (.waysAll part ways) s = .next t ∧ t.mm = s.mm ∧
      (∀ i, i < 384 → waysOf t i part.toNat = ways) ∧
      ∀ i p, p < 8 → p ≠ part.toNat → waysOf t i p = waysOf s i p)

/-! ### Engines -/

/-- The copy engines (R117 to R128, R131, R141, R304, R357, R358), seen on a core with one command. It is accepted
into entry 0, and opens its chain; a bad field ends it with status 0x07, recorded when no barrier reports it. At the
head of the queue it becomes active, waits for its deferred slot, or is discarded. A chunk is read into the buffer and
then written: here from scratchpad to scratchpad, filling the granules it covers, after which the command completes. A
peer's acknowledgement commits a chunk, or its fault ends the command with status 0x06; a prefetch goes on chunk by
chunk. The decompression engines (R143 to R146), seen on a cluster with one job: it is accepted, with the status of
its fields; it starts; its stream, here in scratchpad, is decoded into its output, or ends it with the failing status;
it completes, which fills the granules wholly inside the output, or is recorded when no barrier reports a nonzero
status. Every copy command goes through its events (R89, R122 to R127, R132, R136, R137, R141, R304): the first to
arrive whose partition has room takes an entry, and goes on or ends with its status; a chunk whose bytes are all
placed is read, and one in the buffer is written and enters the running value, where nothing of its thread group comes
first and no check fails; the last chunk ends the command. Every decompression job goes through its events (R117, R143
to R146, R356, R357): the first that has no entry is accepted where one is free; the first of the queue starts when
fewer than two are active, or is discarded; an active one decodes its stream into its output where every page is there
and nothing of its thread group comes first; the jobs of a thread group complete in order. The model's choices: log
69, log 70. -/
def Obligations.CopyEvents : Prop :=
  (
    ∀ (s : State) (core : Nat) (x : CopyCmd) (w : Wg), s.wg? x.issuer.wg = some w →
      let alloc := s.spadOf x.issuer.wg
      let q := (s.core core).copyq
      let entry (t : State) : Option CopyCmd := (t.core core).entry x.eslot
      (q = [x] → x.accepted = false → 1 ≤ shareOf s x.part →
        let y : CopyCmd := { x with accepted := true, eslot := 0 }
        (x.isPrefetch = true → 0 < x.length → x.length ≤ 1048576 →
          ∃ t, exec (.copyCommandAccept core x.part) s = .next t ∧ (t.core core).copyq = [y]) ∧
        (x.kind = .copy → x.fieldOk s w alloc = true → x.ssp = true → x.dsp = true → x.srcSide.within x.rows alloc = true →
          x.dstSide.within x.rows alloc = true → (s.core core).chains = [] → x.idx = [] →
          ∃ t, exec (.copyCommandAccept core x.part) s = .next t ∧ (t.core core).copyq = [y] ∧
            (t.core core).chains = if x.chains then [⟨x.issuer, x.csum, none, 1⟩] else []) ∧
        (x.kind = .copy → x.fieldOk s w alloc = false →
          ∃ t, exec (.copyCommandAccept core x.part) s = .next t ∧ (t.core core).copyq = [] ∧
            (x.arrv = false → Recorded s t x.part 0x40 0))) ∧
      (q.find? (fun y => y.accepted && y.phase == .queued) = some x →
        let defers (d : Deferred) : Prop := ∃ k neg, x.defer = some (k, neg) ∧ w.deferred[k]? =
          some (match d with | .unresolved => .unresolved | .yes => (if neg then .no else .yes) | .no => (if neg then .yes else .no))
        (x.defer = none ∨ defers .yes →
          exec (.copyQueueHead core x.part) s = .next (updEntry s core x.eslot fun y =>
            { y with defer := none, phase := if 8 ≤ countIf q CopyCmd.isActive then .queued else .active })) ∧
        (defers .no → exec (.copyQueueHead core x.part) s = .next (finishCopy s core x.eslot 0)) ∧
        (defers .unresolved → (∃ g ∈ w.tgs, g.phase ≠ .exiting ∧ g.phase ≠ .ended) →
          exec (.copyQueueHead core x.part) s = .next s)) ∧
      (entry s = some x → x.kind = .copy → x.rows = 1 → x.chunk = 0 → x.isRaw = false → x.dsp = true → 0 < x.rowb → x.rowb ≤ 4096 →
        (mayRead s core x = true → x.ssp = true → cleanSpad w x.saddr x.rowb → Upset.copyNet core ∉ s.strikes →
          ∃ t y, exec (.copyChunkRead core x.eslot) s = .next t ∧ entry t = some y ∧ y.phase = .loaded ∧
            y.buf.flatMap BufWord.bytes = spadBytes w x.saddr x.rowb) ∧
        (∀ (g : Tg) (bs : List Byte), q = [x] → mayCommit s core x = true → x.csum = 0 → x.chains = false → w.takeOn = false → s.tg? x.issuer = some g →
          (∀ b ∈ x.buf, b.w.passes = true) → x.buf.flatMap BufWord.bytes = bs.map (fun b => (b, false)) → bs.length = x.rowb →
          ∃ t w' g', exec (.copyChunkCommit core x.eslot) s = .next t ∧ (t.core core).copyq = [] ∧
            t.wg? x.issuer.wg = some w' ∧ t.tg? x.issuer = some g' ∧ g'.cntCopy = g.cntCopy - 1 ∧
            (∀ o, spadByte w' o = if x.daddr ≤ o ∧ o < x.daddr + x.rowb then bs.getD (o - x.daddr) 0#8 else spadByte w o) ∧
            ∀ i, x.daddr ≤ 16 * i → 16 * i + 16 ≤ x.daddr + x.rowb → lookD false w'.gran i = true)) ∧
      (∀ p, entry s = some x → x.kind = .peer p → mayCommit s core x = true →
        exec (.cpyxChunkAck core x.eslot false) s = .next (finishCopy s core x.eslot 0x06) ∧
        ((∀ b ∈ x.buf, b.w.passes = true) → x.csum = 0 → x.chunk + 1 < x.chunks →
          ∃ t y, exec (.cpyxChunkAck core x.eslot true) s = .next t ∧ entry t = some y ∧ y.phase = .active ∧ y.chunk = x.chunk + 1)) ∧
      (∀ l1, entry s = some x → x.kind = .prefetch l1 → x.phase = .active →
        (x.chunk + 1 < x.chunks →
          ∃ t y, exec (.preftChunk core x.eslot) s = .next t ∧ entry t = some y ∧ y.phase = .active ∧ y.chunk = x.chunk + 1) ∧
        (q = [x] → x.chunks ≤ x.chunk + 1 → ∃ t, exec (.preftChunk core x.eslot) s = .next t ∧ (t.core core).copyq = []))) ∧
  (
    ∀ (s : State) (k : Nat) (x : Job) (w : Wg) (g : Tg), (s.cluster k).jobs = [x] → s.wg? x.issuer.wg = some w →
      s.tg? x.issuer = some g →
      (s.unit = k → x.accepted = false →
        let st := x.check (s.spadOf x.issuer.wg)
        ∃ t, exec .decompressionJobAccept s = .next t ∧
          (t.cluster k).jobs = [{ x with accepted := true, phase := if st = 0 then .queued else .finished, status := st }]) ∧
      (x.accepted = true → x.phase = .queued → x.defer = none → x.dsp = true →
        ∃ t y, exec (.decompressionJobRun k 0) s = .next t ∧ (t.cluster k).jobs = [y] ∧ y.phase = .active) ∧
      (x.phase = .active → x.ssp = true → x.dsp = true → 0 < x.slen → 0 < x.olen → w.takeOn = false → cleanSpad w x.saddr x.slen →
        s.engineWaits x.issuer x.id true false = false → Upset.decomp k ∉ s.strikes →
        (∀ b, x.stream = some b → b = (spadBytes w x.saddr x.slen).map (·.1)) →
        (∀ e, decompress x.olen (spadBytes w x.saddr x.slen) = .error e →
          ∃ t w', exec (.decompressionJobRun k 0) s = .next t ∧ t.wg? x.issuer.wg = some w' ∧
            (∀ o, ¬(x.daddr ≤ o ∧ o < x.daddr + x.olen) → spadByte w' o = spadByte w o) ∧
            (t.cluster k).jobs = [{ x with phase := .finished, status := e }]) ∧
        (∀ out, decompress x.olen (spadBytes w x.saddr x.slen) = .ok out → out.length = x.olen →
          ∃ t w', exec (.decompressionJobRun k 0) s = .next t ∧ (t.cluster k).jobs = [{ x with phase := .finished, status := 0 }] ∧
            t.wg? x.issuer.wg = some w' ∧
            ∀ o, spadByte w' o = if x.daddr ≤ o ∧ o < x.daddr + x.olen then out.getD (o - x.daddr) 0#8 else spadByte w o)) ∧
      (x.phase = .finished → x.defer = none →
        (x.status = 0 →
          ∃ t w' g', exec (.decompressionJobComplete k 0) s = .next t ∧ (t.cluster k).jobs = [] ∧
            t.wg? x.issuer.wg = some w' ∧ t.tg? x.issuer = some g' ∧ g'.cntDcmp = g.cntDcmp - 1 ∧
            (x.dsp = true → ∀ i, x.daddr ≤ 16 * i → 16 * i + 16 ≤ x.daddr + x.olen → lookD false w'.gran i = true)) ∧
        (x.status ≠ 0 → x.arrv = false →
          ∃ t, exec (.decompressionJobComplete k 0) s = .next t ∧ (t.cluster k).jobs = [] ∧ Recorded s t x.part 0x40 0))) ∧
  (
    ∀ (s : State) (core e : Nat) (x : CopyCmd),
      let a := x.eng core
      let lo := x.chunkLo x.chunk
      let hi := x.chunkHi x.chunk
      let goesOn (t : State) (bs : List (Byte × Bool)) : State :=
        let y := { x with chain := x.chain.enter x.csum bs, chunk := x.chunk + 1, phase := .active, buf := [], retried := false }
        let u := updEntry t core e fun _ => y
        if x.chunks ≤ x.chunk + 1 then finishCopy u core e y.verdict else u
      let summed (t : State) : Prop := ∀ u ∈ t.strikes, ∀ n, u ≠ .copySum core n
      (∀ s1 s2 st, takeEntry s core x.part = some ({ x with accepted := true, eslot := e }, s1) →
        (if x.isPrefetch = true then (s1, prefetchStatus { x with accepted := true, eslot := e })
          else acceptStatus s1 core { x with accepted := true, eslot := e }) = (s2, st) →
        (st = 0 → ∃ t y, exec (.copyCommandAccept core x.part) s = .next t ∧ (t.core core).entry e = some y ∧
          y = { x with accepted := true, eslot := e, idx := y.idx }) ∧
        (st ≠ 0 → exec (.copyCommandAccept core x.part) s = .next (freeEnter (finishCopy s2 core e st) x.issuer))) ∧
      ((s.core core).entry e = some x →
        (∀ s1 s2 s3 src dst buf, mayRead s core x = true → sidePieces s a x.srcSide lo hi = (s1, src) →
          (if x.peer.isSome then (s1, []) else sidePieces s1 a x.dstSide lo hi) = (s2, dst) →
          (gather (src ++ dst)).1 = none → (gather (src ++ dst)).2.1 = [] → unlikeB src dst = false →
          readPieces s2 a (gather src).2.2 = (s3, buf) → uncorrTotal s3 ≤ uncorrTotal s2 → Upset.copyNet core ∉ s3.strikes →
          exec (.copyChunkRead core e) s = .next (updEntry s3 core e fun y => { y with phase := .loaded, buf := buf })) ∧
        (mayCommit s core x = true →
          (∀ s1 s2 s3 dst bs, x.peer = none → sidePieces s a x.dstSide lo hi = (s1, dst) →
            (gather dst).1 = none → (gather dst).2.1 = [] → drainBuf s1 a x.buf = (s2, bs) →
            engineWrite s2 a (gather dst).2.2 lo bs = some s3 → summed s3 →
            exec (.copyChunkCommit core e) s =
              .next (goesOn (s3.updWg x.issuer.wg fun w => w.setGranules true (x.fullGranules hi (gather dst).2.2)) bs)) ∧
          (∀ p s1 bs, x.kind = .peer p → drainBuf s a x.buf = (s1, bs) → summed s1 →
            exec (.cpyxChunkAck core e true) s = .next (goesOn s1 bs) ∧
              exec (.cpyxChunkAck core e false) s = .next (finishCopy s core e 0x06))) ∧
        (∀ l1, x.kind = .prefetch l1 → x.phase = .active →
          let t := updEntry (prefetchChunk s core x l1) core e fun y => { y with chunk := y.chunk + 1 }
          exec (.preftChunk core e) s = .next (if x.chunks ≤ x.chunk + 1 then finishCopy t core e 0 else t)))) ∧
  (
    ∀ (s : State) (k i : Nat) (x : Job), ((s.cluster k).jobs.map fun y => (y.issuer, y.id)).Nodup →
      let q := (s.cluster k).jobs
      let put (y : Job) : List Job := q.map fun z => if z = x then y else z
      (s.unit = k → q.find? (fun y => !y.accepted) = some x → countIf q (·.accepted) < 16 →
        ∃ t, exec .decompressionJobAccept s = .next t ∧
          let st := x.check (s.spadOf x.issuer.wg)
          (t.cluster k).jobs = put { x with accepted := true, phase := if st = 0 then .queued else .finished, status := st }) ∧
      (q[i]? = some x →
        (∀ w, s.wg? x.issuer.wg = some w → x.accepted = true → x.phase = .queued →
          (∀ y ∈ q.take i, y.accepted = false ∨ y.phase ≠ .queued) →
          (deferState w x.defer = .yes → countIf q (fun y => y.phase == .active || y.phase == .waiting) < 2 →
            ∃ t, exec (.decompressionJobRun k i) s = .next t ∧ (t.cluster k).jobs = put { x with defer := none, phase := .active }) ∧
          (deferState w x.defer = .yes → 2 ≤ countIf q (fun y => y.phase == .active || y.phase == .waiting) →
            ∃ t, exec (.decompressionJobRun k i) s = .next t ∧ (t.cluster k).jobs = put { x with defer := none }) ∧
          (deferState w x.defer = .no →
            ∃ t, exec (.decompressionJobRun k i) s = .next t ∧ (t.cluster k).jobs = put { x with phase := .finished, status := 0 })) ∧
        (∀ s1 s2 s3 s4 src dst buf out, x.phase = .active → s.engineWaits x.issuer x.id true (x.hostLeft s) = false →
          sidePieces s x.eng x.srcSide 0 x.slen = (s1, src) → (gather src).1 = none → (gather src).2.1 = [] →
          readPieces s1 x.eng (gather src).2.2 = (s2, buf) → Upset.decomp k ∉ s2.strikes →
          (∀ b, x.stream = some b → b = (buf.flatMap BufWord.bytes).map (·.1)) →
          decompress x.olen (buf.flatMap BufWord.bytes) = .ok out →
          sidePieces s2 x.eng x.dstSide 0 x.olen = (s3, dst) → (gather dst).1 = none → (gather dst).2.1 = [] →
          engineWrite s3 x.eng (gather dst).2.2 0 (out.map fun b => (b, false)) = some s4 →
          exec (.decompressionJobRun k i) s = .next (endJob s4 k x 0)) ∧
        (x.phase = .finished → (∀ y ∈ q.take i, y.issuer ≠ x.issuer) →
          ∃ t, exec (.decompressionJobComplete k i) s = .next t ∧ (t.cluster k).jobs = q.eraseIdx i ∧
            ∀ g, s.tg? x.issuer = some g → ∃ g', t.tg? x.issuer = some g' ∧ g'.cntDcmp = g.cntDcmp - 1)))

/-- The matrix engine (R268, R274, R275, R280, R286, R287; Table 12.8). An array step that the governor bars counts a
wait; another gives each accumulator of its rows and columns the sum of R272 and moves the operation on. `MZRO` writes
zeros, row block by row block; `MREL` completes. A gang that has waited 2^30 counts fails with code 3, and its member
no longer counts. A new window of the governor takes its bounds. Every operation at the head of a core's queue goes
on, or completes (R260, R268, R272, R274, R281 to R287): a step of an `MMA` and of its gang is held when the governor
bars one of them, and performed when what it reads is there and passes its checks; the row blocks of `MZRO`, `MLDA`
and `MSTA` write the tile, or the tensor with its counters; `MREL` completes. The gangs that no member can complete,
and those that have waited 2^30 counts, fail with code 3. The bound of the first window is the model's choice (log
77). -/
def Obligations.MatrixEvents : Prop :=
  (
    ∀ (s : State),
      let k := s.unit
      let q := s.core k
      (∀ (o : MatOp) (w : Wg) (t : Tile), headMat s k = some o → o.tile = some t → s.wg? o.issuer.wg = some w → o.gang = none →
        (o.cstep = 0 → s.stops w = false) →
        (o.kind = .mma → q.bound ≤ q.busy → exec .matrixArrayStep s = .next (s.updTg o.issuer fun g =>
          { g with govst := if g.govst = 0xFFFFFFFFFFFFFFFF#64 then g.govst else g.govst + 1#64 })) ∧
        (∀ fa fb, o.kind = .mma → q.busy < q.bound → fetchPlaces s (o.eng s k) o.leftPlaces = (s, fa) →
          fetchPlaces s (o.eng s k) (o.rightPlaces t) = (s, fb) → fa.fail = none → fb.fail = none → fa.waits = [] → fb.waits = [] →
          accFails s o = false → (∀ u ∈ s.strikes, ∀ p st, u ≠ .array k p st) → o.advance.complete = false →
          let els := o.stepRows.flatMap fun i => (o.stepCols t).map fun j => (i, j)
          apart t els →
          ∃ t' w', exec .matrixArrayStep s = .next t' ∧ (t'.core k).matq = o.advance :: q.matq.tail ∧
            (t'.core k).busy = q.busy + 1 ∧ t'.wg? o.issuer.wg = some w' ∧
            ∀ x ∈ els, w'.accRead t x.1 x.2 = stepElement o t w fa fb x.1 x.2) ∧
        (o.kind = .mzro → o.nextBlock.complete = false → apart t (o.block t) →
          ∃ t' w', exec .matrixRowBlock s = .next t' ∧ (t'.core k).matq = o.nextBlock :: q.matq.tail ∧
            t'.wg? o.issuer.wg = some w' ∧
            ∀ x ∈ o.block t, w'.accRead t x.1 x.2 = List.replicate (accWords t.af) (.of 0#32))) ∧
      (∀ (o : MatOp) (g : Tg), headMat s k = some o → o.kind = .mrel → o.guardD = none → s.tg? o.issuer = some g →
        o.num = g.matNext → g.matDone = [] →
        ∃ t g', exec .mrelPerform s = .next t ∧ (t.core k).matq = q.matq.tail ∧ t.tg? o.issuer = some g' ∧
          g'.cntMat = g.cntMat - 1) ∧
      (∀ (x : GangWait) (g : Tg), (s.cluster k).latch = [x] → x.since + 2 ^ 30 ≤ s.clock.toNat → s.tg? x.ref = some g →
        g.debug = .off → x.op.num = g.matNext → g.matDone = [] →
        ∃ t g', exec .gangRendezvousTimeout s = .next t ∧ (t.cluster k).latch = [] ∧ t.tg? x.ref = some g' ∧
          g'.cntMat = g.cntMat - 1 ∧ (.rendezvous ∈ g.shot.waits → .gangFail 3 ∈ g'.shot.waits)) ∧
      exec .governorWindow s = .next (s.setCore k { q with
        busyPrev := q.busy
        busy := 0
        bound := if q.govStep = 0 then q.govLimit else min q.govLimit (q.busy + q.govStep)
        window := q.window + 1 })) ∧
  (
    ∀ (s : State),
      let k := s.unit
      let l := (s.cluster k).latch
      (∀ (o : MatOp), headMat s k = some o →
        (∀ t, o.kind = .mma → o.tile = some t → gangReady s o (s.fellowsOf k o) = true → stepHeld s o = false →
          let xs := s.fellowsOf k o
          ((xs.any fun x => governed (s.core x.1)) = true →
            exec .matrixArrayStep s = .next ((xs.filter fun x => governed (s.core x.1)).foldl (fun s x => holdStep s x.2.issuer) s)) ∧
          (∀ y ys s1 s2 lefts right u, xs = y :: ys → (xs.any fun x => governed (s.core x.1)) = false → y.2.tile = some u →
            fetchLefts s xs = (s1, lefts, none) → fetchPlaces s1 (y.2.eng s1 y.1) (y.2.rightPlaces u) = (s2, right) →
            right.fail = none → right.waits = [] → stepFailure s2 xs = none →
            exec .matrixArrayStep s = .next (performStep s2 xs lefts right))) ∧
        (∀ t w, o.tile = some t → s.wg? o.issuer.wg = some w →
          (o.kind = .mzro → exec .matrixRowBlock s = .next (progressMat
            (writeTile s o t ((o.block t).map fun x => (x.1, x.2, List.replicate (accWords t.af) (.of 0#32)))) k o o.nextBlock)) ∧
          (∀ s1 f, o.kind = .mlda → fetchPlaces s (o.eng s k) (o.loadPlaces t) = (s1, f) → f.fail = none → f.waits = [] →
            exec .matrixRowBlock s = .next (progressMat (writeTile s1 o t (o.loaded t f)) k o o.nextBlock)) ∧
          (∀ s1 s2 s3 f ps, o.kind = .msta →
            let els := o.storeEls t w
            let codes := o.storeCodes t f els
            let bytes := o.storeBytes f codes
            (∀ x ∈ els, ∀ y ∈ x.1, y.passes = true) → fetchPlaces s (o.eng s k) (o.storePlaces els) = (s1, f) → f.fail = none →
            f.waits = [] → placeStore s1 (o.eng s k) o.ta (byteRuns (bytes.map (·.va))) = (s2, ps) → (gather ps).1 = none →
            (gather ps).2.1 = [] →
            storeBlock s2 (o.eng s k) (gather ps).2.2 (bytes.map fun b => (BitVec.ofNat 8 b.val, b.bad)) = some s3 →
            exec .matrixRowBlock s = .next (storedRows s3 k o codes))) ∧
        (o.kind = .mrel → exec .mrelPerform s = .next (completeMat s k o))) ∧
      (exec .gangRendezvousTimeout s = .next (failGang (checkLatch s k) k (fun x =>
          ((l.find? fun y => y.list == x.list && y.members == x.members).map fun y =>
            decide (y.since + 2 ^ 30 ≤ s.waitNow y.ref y.since)).getD false) 3)))

/-! ### Links and the host interface -/

/-- The package mesh and the Otaethar links (R14 to R16, R141, R471; INFO of event 0x06 free, log 23). A flit that
fails its CRC is kept for retransmission and counted; after eight failures the link retrains or fails for good. A
frame of a bound peer writes its words, here to host memory; a frame that fails its CRC, or of a peer that is not
bound, writes nothing. Setting EN starts the training of a link, which ends up or down; a link without `CPYX` chunks
fails alone; retrains are counted (what follows 255 is free, log 31). A flit that arrives whole goes on, its words
checked by residue at the router (code 5); a frame of a bound peer whose pages are there writes its words; the failure
of a link ends the `CPYX` commands whose chunk it carries (R15, R18, R141). -/
def Obligations.LinkEvents : Prop :=
  (
    ∀ (s : State) (link : Nat),
      (∀ (router : BitVec 3) (f : Flit),
        let m := lookD ⟨0, [], false⟩ s.dfs.mesh link
        let set (x : MeshLink) : State := { s with dfs := { s.dfs with mesh := put ⟨0, [], false⟩ s.dfs.mesh link x } }
        m.down = false →
        (m.fails < 8 → router.toNat ≤ 6 →
          (flitOk f = false → exec (.meshFlitReceive link router f) s =
            .next (set { m with fails := m.fails + 1, retry := if m.retry.isEmpty then [f] else m.retry })) ∧
          (flitOk f = true → f.words.all CWord.passes = true →
            exec (.meshFlitReceive link router f) s = .next (set { m with fails := 0, retry := [] }))) ∧
        (8 ≤ m.fails →
          exec (.meshLinkRetrain link true) s = .next (set { m with fails := 0 }) ∧
          exec (.meshLinkRetrain link false) s =
            .next (postEvent (set { m with down := true }) 0x06 0 (Config.eventInfo 0x06 link 0)))) ∧
      (∀ (f : Sys2Proof.Frame) (p : Peer) (l : Link) (c : Context) (pa : Nat), s.host.peers[f.peer.toNat]? = some p →
        s.host.links[link]? = some l → s.ctx? p.ctx.toNat = some c →
        let n := 4 * f.words.length
        let bound : Prop := p.valid = true ∧ p.links.getLsbD link = true ∧ l.state = 2
        (f.crcOk = false ∨ ¬ bound → exec (.linkFrameReceive link f) s = .next s) ∧
        (f.crcOk = true → bound → f.words ≠ [] → clean f.words = true → f.va.toNat % 128 + n ≤ 128 →
          translate s noCore p.ctx.toNat false 5 f.va.toNat n = (s, .to pa .host none) →
          ∃ t, exec (.linkFrameReceive link f) s = .next t ∧
            ∀ i, rdByte t.mm.bytes i = if pa ≤ i ∧ i < pa + n then byteIn f.words (i - pa) else rdByte s.mm.bytes i)) ∧
      (∀ l, s.host.links[link]? = some l →
        let set (x : Link) : State := { s with host := { s.host with links := s.host.links.set link x } }
        (∀ ok margin, l.state = 1 → exec (.linkTrainingDone link ok margin) s =
          .next (postEvent (set { l with state := if ok then 2 else 3, margin := margin }) (if ok then 0x07 else 0x08) 0 link)) ∧
        (s.unit = link →
          exec .linkEnable s = .next (set (if l.en then l else { l with en := true, state := 1 })) ∧
          (l.state = 2 → (∀ k, ∀ x ∈ (s.core k).copyq, x.peer = none) →
            exec .linkFailure s = .next (postEvent (set { l with state := 3 }) 0x08 0 link)) ∧
          (l.state = 2 → l.retrains ≠ 255#8 →
            exec .otaetharLinkRetrain s = .next (set { l with retrains := l.retrains + 1#8 }))))) ∧
  (
    ∀ (s : State) (link : Nat),
      (∀ (router : BitVec 3) (f : Flit), flitOk f = true → (meshLink s link).down = false → (meshLink s link).fails < 8 →
        router.toNat ≤ 6 → exec (.meshFlitReceive link router f) s =
          .next (checkIn (setMesh s link { meshLink s link with fails := 0, retry := [] }) 5 (0x400 + router.toNat)
            (Config.freeNat s.tick 0 % 8) noCore 0 f.words).1) ∧
      (∀ (f : Sys2Proof.Frame) (p : Peer) (c : Context) (s1 s2 : State) (ws : List CWord) (ps : List PieceOut),
        f.crcOk = true → carries s link f.peer.toNat = true → f.words ≠ [] → s.host.peers[f.peer.toNat]? = some p →
        s.ctx? p.ctx.toNat = some c → checkIn s 6 (0x800 + link) c.part noCore 0 f.words = (s1, ws) →
        let a : Eng := ⟨⟨0, 0⟩, noCore, p.ctx.toNat, c.part, false, 6⟩
        placeAll s1 (fun s x => placeBytes s a 5 (fun _ => true) x.1 x.2 (x.1 - f.va.toNat)) (lineSplit f.va.toNat (4 * ws.length)) =
          (s2, ps) →
        (gather ps).1 = none → (gather ps).2.1 = [] →
        exec (.linkFrameReceive link f) s = .next (writePieces s2 a (gather ps).2.2 0 (bytesOf ws))) ∧
      (∀ l, s.host.links[link]? = some l → s.unit = link → l.state = 2 →
        let cut := (liveCores s).flatMap fun k => ((s.core k).copyq.filter (overLink s k link)).map fun x => (k, x.eslot)
        exec .linkFailure s = .next (postEvent (cut.foldl (fun s ke => finishCopy s ke.1 ke.2 0x06)
          (updLink s link fun x => { x with state := 3 })) 0x08 0 link)))

/-- The host's accesses (R7, R8, R452, R460, R461, R463 to R472): eight bytes read and written through the window,
here in a line that the L2 holds; registers written in eight aligned bytes, a sample of them stated, and nothing
otherwise; the slate fires once while it is armed, joins triggers of one cycle (whether two fall in one is free, log
4), and counts misses; an attestation request leaves its nonce, its buffer and the report (free, log 18). Every access
of the host (R460, R461, R463 to R473): a doubleword of the window is read word by word at its homes, all ones outside
main memory (log 29), and written line by line; every register takes its write in eight aligned bytes; a report is
written wherever its buffer lies. The window outside main memory is the model's choice (log 29). -/
def Obligations.HostAccesses : Prop :=
  (
    ∀ (s : State),
      (∀ (off : BitVec 36) (ln : L2Line),
        let pa := s.host.winBase.toNat + off.toNat
        isMain pa = true → pa % 128 + 8 ≤ 128 → WholeLine s pa ln →
        (∃ t, exec (.windowRead off) s = .next t ∧ (clean ln.words = true → t.host.winData =
          BitVec.ofNat 64 ((List.range 8).map fun i => (byteIn ln.words (pa % 128 + i)).toNat * 256 ^ i).sum)) ∧
        ∀ v : BitVec 64, ∃ t ln', exec (.windowWrite off v) s = .next t ∧ lineAt t pa = some ln' ∧
          ∀ i, i < 128 → byteIn ln'.words i =
            if pa % 128 ≤ i ∧ i < pa % 128 + 8 then v.extractLsb' (8 * (i - pa % 128)) 8 else byteIn ln.words i) ∧
      (∀ (off : BitVec 24) (size : Nat) (v : BitVec 64),
        let w (f : HostSt → HostSt) : Prop := exec (.registerWrite off 8 v) s = .next { s with host := f s.host }
        (size ≠ 8 ∨ off.toNat % 8 ≠ 0 ∨ findReg off.toNat = none → exec (.registerWrite off size v) s = .next s) ∧
          (off = 0x10000 → w fun h => { h with ctxBase := BitVec.ofNat 64 (v.toNat / 2 ^ 6 % 2 ^ 46 * 2 ^ 6) }) ∧
          (off = 0x10008 → w fun h => { h with ctxCnt := BitVec.ofNat 16 v.toNat }) ∧
          (off = 0x10018 → w fun h => { h with ctxArg := BitVec.ofNat 64 (v.toNat / 2 ^ 12 % 2 ^ 28 * 2 ^ 12) }) ∧
          (off = 0x30018 → w fun h => { h with evHead := v }) ∧
          (off = 0x50200 → w fun h => { h with fqSel := BitVec.ofNat 16 v.toNat }) ∧
          (off = 0xA0100 → w fun h => { h with bootSrc := v }) ∧
          (off = 0x40400 → exec (.registerWrite off 8 v) s = .next s)) ∧
      (∀ tag : BitVec 16,
        let d := s.dfs
        let low : Bool := d.slSrc.getLsbD 0 || (d.slSrc.getLsbD 1 && !Config.freeBit s.tick 597)
        let d' : DefSt :=
          if d.slArm = true then { d with slArm := false, slSrc := 2#4, slTag := tag, slSnap := some s.clock }
          else if d.slSnap = some s.clock ∧ Config.freeBit s.tick 598 = true then
            { d with slSrc := d.slSrc ||| 2#4, slTag := if low = true then d.slTag else tag }
          else { d with slMissed := if d.slMissed = 0xFFFFFFFF#32 then d.slMissed else d.slMissed + 1#32 }
        exec (.slateFire tag) s = .next { s with dfs := d' }) ∧
      (∀ (nonce : BitVec 256) (buf : BitVec 64),
        let report := Config.attestReport nonce s.host.bootSrc
        2 ^ 51 ≤ buf.toNat → buf.toNat + report.length ≤ 2 ^ 52 →
        ∃ t, exec (.attestationRequest nonce buf) s = .next t ∧ t.host.attNonce = nonce ∧ t.host.attBuf = buf ∧
          ∀ i, rdByte t.mm.bytes i =
            if buf.toNat ≤ i ∧ i < buf.toNat + report.length then report.getD (i - buf.toNat) 0#8 else rdByte s.mm.bytes i)) ∧
  (
    ∀ (s : State),
      (∀ (off : BitVec 36) s1 ws,
        let pa := s.host.winBase.toNat + off.toNat
        let x := ((ws.zip (List.range 3)).map fun wi => wi.1.toNat * 2 ^ (32 * wi.2)).sum / 256 ^ (pa % 4)
        windowWords (wakeUp s) (pa / 4 * 4) ((pa % 4 + 11) / 4) = (s1, ws) →
        exec (.windowRead off) s = .next { s1 with host := { s1.host with winData := BitVec.ofNat 64 x } }) ∧
      (∀ (off : BitVec 36) (v : BitVec 64),
        let pa := s.host.winBase.toNat + off.toNat
        exec (.windowWrite off v) s = .next ((lineSplit pa 8).foldl (fun s x => if isMain x.1 = true then
          homeWrite s 0 noCore (x.1 / 4 * 4) (byteMask (x.1 % 4) x.2) (hostWords (x.1 % 4) x.2 ((dwordBytes v).drop (x.1 - pa)))
          else s) (wakeUp s))) ∧
      (∀ (off : BitVec 24) (v : BitVec 64) g i, off.toNat % 8 = 0 → findReg off.toNat = some (g, i) →
        exec (.registerWrite off 8 v) s = .next (g.write s i v.toNat)) ∧
      (∀ (nonce : BitVec 256) (buf : BitVec 64), exec (.attestationRequest nonce buf) s =
        .next (ioBytes { s with host := { s.host with attNonce := nonce, attBuf := buf } } buf.toNat
          (Config.attestReport nonce s.host.bootSrc))) ∧
      (∀ (part : BitVec 3) (tail : Word),
        let u := wakeUp s
        let q := u.queue part.toNat
        exec (.doorbellTail part tail) s = .next (if 2 ^ q.log < (tail - q.head).toNat then postEvent u 0x09 part.toNat part.toNat
          else u.setQueue part.toNat { q with tail := tail })))

/-! ### Launches and workgroups -/

/-- A launch (R392 to R398, R400, R467; INFO of event 0x01 the queue index): a doorbell moves TAIL, or is refused with
an event when it passes the queue's size; a distributor takes the next entry, here in host memory, and appends the
launch of its call sheet, every unit owned by a live die in turn; a unit of one workgroup is placed where there is
room, its thread groups in the active or the pending set; a die without units takes half of another's; take 1 of a
unit goes to the next live die (R437); a launch whose units have ended writes its completion record and posts its
event. Every launch goes through its events (R354, R392 to R400): the entry at the head of a queue is accepted with
the status of its sheet, or rejected with the status of what could not be read; the lowest unit of a die is placed
where the hints find room; a die without units takes the upper half of the first other die that has two, or is
refused; a launch whose units have ended writes back the L1 of every core, then its record. The model's choices: log
35, log 75. -/
def Obligations.LaunchEvents : Prop :=
  (
    ∀ (s : State),
      (∀ (part : BitVec 3) (tail : Word), s.host.pwrState ≠ 1#2 →
        let q := s.queue part.toNat
        exec (.doorbellTail part tail) s = .next (if 2 ^ q.log < (tail - q.head).toNat then postEvent s 0x09 part.toNat part.toNat
          else s.setQueue part.toNat { q with tail := tail })) ∧
      (∀ part : BitVec 3, (s.queue part.toNat).head = (s.queue part.toNat).tail → exec (.launchAccept part) s = .next s) ∧
      (∀ (part : BitVec 3) (ctx va : Nat) (c : Context) (ws : List CWord) (im : SheetRead),
        let p := part.toNat
        let q := s.queue p
        let at_ := q.base.toNat + 16 * (q.head.toNat % 2 ^ q.log)
        let s0 := s.setQueue p { q with head := q.head + 1#32 }
        s.host.pwrState = 0#2 → s.host.bootStatus = 0#16 → q.head ≠ q.tail → isHost at_ = true → hostDw s at_ = va →
        hostDw s (at_ + 8) = ctx → va < 2 ^ 57 → ctx < 2 ^ 16 → s.ctx? ctx = some c → c.part = p → va % 1024 = 0 →
        readCall s0 noCore ctx true 0 (ioRead p) va = (s0, .words ws im) → callStatus s0 ws im = 0 →
        ∃ t n l, exec (.launchAccept part) s = .next t ∧ s.launch? n = none ∧ t.launch? n = some l ∧ t.queue p = s0.queue p ∧
          l.sheet = callSheet ws im ∧ l.ctx = ctx ∧ l.part = p ∧ l.fromHost = true ∧ l.unitsLeft = (callSheet ws im).units ∧
          l.unplaced = (List.range (callSheet ws im).units).map fun i => (i, (liveDies s).getD (i % max 1 (liveDies s).length) 0)) ∧
      (∀ (die n u : Nat) (d : Dist) (l : Launch) (x : PlaceHint), die < 6 → servedBy s die = some (n, d) → s.launch? n = some l →
        l.sheet.coop = false → l.sheet.takes = false → l.sheet.mirror = false → l.sheet.ranks = 1 → coopBars s n = false →
        (l.owned die).min? = some u → dieOf x.core = die →
        (spotOn s l.sheet false x = none → exec (.placeDistributedUnit die [x] []) s = .next s) ∧
        (∀ spot, spotOn s l.sheet false x = some spot →
          ∃ t w, exec (.placeDistributedUnit die [x] []) s = .next t ∧ t.wg? (freshKey s.wgs) = some w ∧
            (let f := Wg.fresh l.sheet n u 0 0 x.core spot.base (nextOrder s) spot.slots spot.pages false
             w = { f with tgs := w.tgs } ∧ w.tgs.length = f.tgs.length ∧
               ∀ (i : Nat) (g0 g : Tg), f.tgs[i]? = some g0 → w.tgs[i]? = some g →
                 g = { g0 with active := g.active, readySince := s.clock.toNat, round := g.round }) ∧
            t.launch? n = some { l with
              unplaced := l.unplaced.filter fun v => v.1 != u
              refused := l.refused.filter (· != die) })) ∧
      (∀ (n : Nat) (d : Dist) (l : Launch), s.unit ∈ liveDies s → servedBy s s.unit = some (n, d) → s.launch? n = some l →
        l.sheet.coop = false → l.owned s.unit = [] → l.refused.contains s.unit = false →
        ∃ t l', exec .stealRequest s = .next t ∧ t.launch? n = some l' ∧ l'.unplaced.map (·.1) = l.unplaced.map (·.1) ∧
          (l'.owned s.unit = [] → l'.unplaced = l.unplaced ∧ l'.refused = l.refused ++ [s.unit]) ∧
          ∀ v ∈ l'.unplaced, v.2 ≠ s.unit → v ∈ l.unplaced) ∧
      (∀ l, s.launch? s.unit = some l →
        (l.unitsLeft ≠ 0 → exec .launchComplete s = .next s) ∧
        (l.unitsLeft = 0 → s.cs.l1 = [] →
          let s1 := completionWrite s l.ctx l.part l.sheet.cdone (l.orStatus.toNat + 2 ^ 16 * l.bad)
          exec .launchComplete s = .next (postEvent { s1 with launches := del s1.launches s.unit } 0x01 l.part l.entryIx)))) ∧
  (
    ∀ (s : State),
      (∀ (part : BitVec 3) s1 ws,
        let p := part.toNat
        let q := s.queue p
        let ix := q.head.toNat % 2 ^ q.log
        let ctx := (dwsFrom ws).getD 1 0 % 2 ^ 16
        let va := (dwsFrom ws).getD 0 0 % 2 ^ 57
        let ends (t : State) : Prop := exec (.launchAccept part) s = .next t
        s.host.pwrState = 0#2 → s.host.bootStatus = 0#16 → q.head ≠ q.tail →
        ioWords (s.setQueue p { q with head := q.head + 1#32 }) p (q.base.toNat + 16 * ix) 4 = (s1, ws) →
        (sound ws = false → ends (rejectLaunch s1 ctx p 0 0x06 ix)) ∧
        (sound ws = true →
          ((s1.ctx? ctx).map (·.part) ≠ some p → ends (rejectLaunch s1 ctx p 0 0x08 ix)) ∧
          ((s1.ctx? ctx).map (·.part) = some p →
            (va % 1024 ≠ 0 → ends (rejectLaunch s1 ctx p 0 0x01 ix)) ∧
            (∀ s2 call, va % 1024 = 0 → readCall s1 noCore ctx true 0 (ioRead p) va = (s2, call) →
              (∀ cs im, call = .words cs im →
                (callStatus s2 cs im = 0 → ends (appendLaunch s2 (callSheet cs im) ctx p true ix none)) ∧
                (callStatus s2 cs im ≠ 0 → ends (rejectLaunch s2 ctx p (callDone cs) (callStatus s2 cs im) ix))) ∧
              ((∀ cs im, call ≠ .words cs im) → ends (rejectLaunch s2 ctx p 0 0x06 ix)))))) ∧
      (∀ (die n : Nat) (d : Dist) (l : Launch), servedBy s die = some (n, d) → s.launch? n = some l →
        (∀ at0 at1 s1 l1, die < 6 → placeNext s die n l at0 at1 = some (s1, l1) →
          exec (.placeDistributedUnit die at0 at1) s = .next { s1.setLaunch n l1 with dists := s1.dists.set die d }) ∧
        (∀ at0 at1, die < 6 → die ∈ liveDies s → l.sheet.coop = false → l.sheet.domain ≠ 4 →
          let live := liveDies s
          let next := (live.drop (live.idxOf die + 1) ++ live.take (live.idxOf die + 1)).headD 0
          (∃ x ∈ at1, x.core / 64 ≠ next) → exec (.placeDistributedUnit die at0 at1) s = .next s) ∧
        (s.unit = die → die ∈ liveDies s → l.owned die = [] → l.refused.contains die = false →
          let live := liveDies s
          let asked := (live.drop (live.idxOf die + 1) ++ live.take (live.idxOf die)).filter (· != die)
          let turn (l1 : Launch) : Prop := exec .stealRequest s = .next { s.setLaunch n l1 with dists := s.dists.set die d }
          ((∀ k ∈ asked, (l.owned k).length < 2) → turn { l with refused := l.refused ++ [die] }) ∧
          (∀ k, asked.find? (fun k => decide (2 ≤ (l.owned k).length)) = some k →
            let mine := ascending (l.owned k)
            turn { l with
              unplaced := l.unplaced.map fun u => if u.1 ∈ mine.drop (mine.length - mine.length / 2) then (u.1, die) else u
              refused := l.refused.filter (· != die) }))) ∧
      (∀ l, s.launch? s.unit = some l → l.unitsLeft = 0 →
        let s1 := (List.range 384).foldl l1Release s
        let s2 := completionWrite s1 l.ctx l.part l.sheet.cdone (l.orStatus.toNat + 2 ^ 16 * l.bad)
        exec .launchComplete s = .next (postEvent { s2 with launches := del s2.launches s.unit } 0x01 l.part l.entryIx)))

/-- The life of a workgroup (R389 to R393, R399, R415): its regions are staged, here from host memory, and fill their
granules; then it waits for its start, which empties the core's RC and UO lines and constant cache (log 9); it ends
when every thread has exited and nothing is in flight: its regions are written back, here to host memory, and its
launch counts it. The thread group longest in a full active set gives its place to the oldest that has waited 8,192
cycles. Every chunk of the regions of a workgroup (R389, R391): one of a staging copy is read, checked and written to
scratchpad; one of an exit write-back is read and written to memory, and the region is left when a page of it faults.
8,192 cycles are 2,276 counts (log 4). -/
def Obligations.WorkgroupEvents : Prop :=
  (
    ∀ (s : State),
      (∀ (w : Wg) (h : Sheet), s.wg? s.unit = some w → s.sheetOf w = some h → s.stops w = false → w.stageWait = [] →
        let left := h.regions.drop w.region
        let eng := stageEng s s.unit w
        (w.phase = .staging → left = [] → exec .stagingCopy s = .next (s.setWg s.unit { w with phase := .placed, region := 0 })) ∧
        (∀ g pa rest, w.phase = .staging → left = g :: rest → w.cursor = 0 → w.held = [] → 0 < g.len → g.len ≤ 128 →
          sidePieces s eng (g.memSide false) 0 g.len = (s, [.ok ⟨0, g.len, g.va, pa, .host, none, none⟩]) →
          Upset.copyNet w.core ∉ s.strikes →
          ∃ t w', exec .stagingCopy s = .next t ∧ t.wg? s.unit = some w' ∧ w'.phase = .staging ∧ w'.region = w.region + 1 ∧
            w'.cursor = 0 ∧ (∀ i, g.soff / 16 ≤ i → i < g.soff / 16 + g.len / 16 → lookD false w'.gran i = true) ∧
            ∀ o, spadByte w' o = if g.soff ≤ o ∧ o < g.soff + g.len then rdByte s.mm.bytes (pa + (o - g.soff)) else spadByte w o) ∧
        (∀ g rest, w.phase = .writeback → left = g :: rest → g.wb = false →
          exec .exitWriteback s = .next (s.setWg s.unit { w with region := w.region + 1, cursor := 0 })) ∧
        (∀ g pa rest, w.phase = .writeback → left = g :: rest → g.wb = true → w.cursor = 0 → w.takeOn = false → 0 < g.len →
          g.len ≤ 128 → sidePieces s eng (g.memSide true) 0 g.len = (s, [.ok ⟨0, g.len, g.va, pa, .host, none, none⟩]) →
          Upset.copyNet w.core ∉ s.strikes → cleanSpad w g.soff g.len →
          ∃ t w', exec .exitWriteback s = .next t ∧ t.wg? s.unit = some w' ∧ w'.region = w.region + 1 ∧ w'.status = w.status ∧
            ∀ i, rdByte t.mm.bytes i = if pa ≤ i ∧ i < pa + g.len then spadByte w (g.soff + (i - pa)) else rdByte s.mm.bytes i) ∧
        (w.phase = .placed →
          ∃ t w', exec .workgroupStart s = .next t ∧ t.wg? s.unit = some w' ∧ w'.phase = .running ∧
            (∀ x ∈ t.cs.cc, x.core ≠ w.core) ∧
            ∀ x ∈ t.cs.l1, x.core = w.core → x.coded = none → x.page ≠ .rc ∧ x.page ≠ .uo) ∧
        (w.phase = .running → w.quiet = true → h.staged = true →
          ∃ t w', exec .workgroupEnd s = .next t ∧ t.wg? s.unit = some w' ∧ w'.phase = .writeback ∧ w'.region = 0 ∧ w'.cursor = 0 ∧
            ∀ g ∈ w'.tgs, g.phase = .ended) ∧
        (w.phase = .running → w.quiet = false → exec .workgroupEnd s = .next s) ∧
        (w.phase = .writeback → left = [] → w.points = [] → w.takeOn = false →
          exec .workgroupEnd s = .next (s.setWg s.unit { w with phase := .finishing })) ∧
        (∀ l, w.phase = .finishing → w.takeOn = false → s.launch? w.launch = some l → (∀ g ∈ w.tgs, ∀ o ∈ g.ops, o.performed = true) →
          let others := (del s.wgs s.unit).any fun x => x.2.launch == w.launch && x.2.unitIx == w.unitIx
          ∃ t, exec .workgroupEnd s = .next t ∧ t.wg? s.unit = none ∧ t.launch? w.launch = some { l with
            unitsLeft := if others then l.unitsLeft else l.unitsLeft - 1
            orStatus := l.orStatus ||| w.status
            bad := if w.status = 0#8 then l.bad else min 0xFFFFFFFF (l.bad + 1) })) ∧
      (∀ (core pipe : Nat) (r q : TgRef) (g : Tg), longestActive s core pipe = some r → s.tg? r = some g →
        oldest s (s.pendingOn core pipe) = some q → 8 ≤ (s.activeOn core pipe).length → starvedTg s core pipe = true →
        g.shot.active = false → g.phase = .ready →
        ∃ t g1 g2, exec (.activeSetRotation core pipe) s = .next t ∧ t.tg? r = some g1 ∧ g1.active = false ∧
          t.tg? q = some g2 ∧ g2.active = true)) ∧
  (
    ∀ (s : State) (w : Wg) (h : Sheet) (g : Region) (rest : List Region), s.wg? s.unit = some w → s.sheetOf w = some h →
      s.stops w = false → w.stageWait = [] → h.regions.drop w.region = g :: rest →
      let a := stageEng s s.unit w
      let hi := min g.len (w.cursor + 4096)
      (∀ s1 s2 s3 s4 src dst buf bs, w.phase = .staging → sidePieces s a (g.memSide false) w.cursor hi = (s1, src) →
        (gather src).1 = none → (gather src).2.1 = [] → readPieces s1 a (gather src).2.2 = (s2, buf) →
        Upset.copyNet w.core ∉ s2.strikes → drainBuf s2 a buf = (s3, bs) → (∀ b ∈ bs, b.2 = false) →
        sidePieces s3 a (g.spadSide true) w.cursor hi = (s4, dst) →
        exec .stagingCopy s = .next ((writePieces s4 a (gather dst).2.2 w.cursor bs).updWg s.unit fun w =>
          if hi < g.len then { w with cursor := hi }
          else { w.setGranules true ((List.range (g.len / 16)).map (g.soff / 16 + ·)) with region := w.region + 1, cursor := 0 })) ∧
      (∀ s1 dst, w.phase = .writeback → g.wb = true → sidePieces s a (g.memSide true) w.cursor hi = (s1, dst) →
        ((gather dst).1 ≠ none → exec .exitWriteback s = .next (s1.updWg s.unit fun w =>
          { w with region := w.region + 1, cursor := 0, status := w.status ||| 8#8 })) ∧
        (∀ s2 s3 s4 s5 src buf bs, (gather dst).1 = none → (gather dst).2.1 = [] →
          sidePieces s1 a (g.spadSide false) w.cursor hi = (s2, src) → readPieces s2 a (gather src).2.2 = (s3, buf) →
          Upset.copyNet w.core ∉ s3.strikes → drainBuf s3 a buf = (s4, bs) →
          engineWrite s4 a (gather dst).2.2 w.cursor bs = some s5 →
          exec .exitWriteback s = .next (s5.updWg s.unit fun w =>
            if hi < g.len then { w with cursor := hi } else { w with region := w.region + 1, cursor := 0 }))))

/-! ### Contexts, pre-emption, debugging -/

/-- The commands of `CTXCMD` (R416, R417, R428 to R436, R463 to R466): none begins while one is running. A context is
created from its descriptor, here in host memory, within CTX_CNT; destroyed, it is gone; a thread group that is not
named has status 1, one that is not in the debug state status 3. A named workgroup ends with status ENDED; a stopped
thread group begins its step, and the command stands until that is done; it goes on. A pre-emption marks its unit when
the image fits the save area (status 2 otherwise). The model's choices: log 40, log 41, log 45. -/
def Obligations.ContextCommands : Prop :=
  ∀ (s : State) (x : BitVec 16) (core : BitVec 9) (slot thread : BitVec 6),
    let ctx := x.toNat
    let ended (t : State) (st : BitVec 3) : Prop := t.host.cmd = none ∧ t.host.cmdStatus = st
    let answers (i : Instr) (st : BitVec 3) : Prop := ∃ t, exec i s = .next t ∧ ended t st
    (s.host.cmd.isSome = true →
      exec (.ctxcmdCreate x) s = .next s ∧ exec (.ctxcmdDestroy x) s = .next s ∧ exec (.ctxcmdPreempt x core slot) s = .next s ∧
      exec (.ctxcmdEndWorkgroup x core slot) s = .next s ∧ exec (.ctxcmdResume x core slot) s = .next s ∧
      exec (.ctxcmdStep x core slot) s = .next s ∧ exec (.ctxcmdStepThread x core slot thread) s = .next s) ∧
    (s.host.cmd = none →
      (s.host.ctxCnt.toNat ≤ ctx → answers (.ctxcmdCreate x) 1#3) ∧
      (ctx < s.host.ctxCnt.toNat →
        let at_ := s.host.ctxBase.toNat + 64 * ctx
        let dw (i : Nat) : Nat := hostDw s (at_ + 8 * i)
        isHost at_ = true →
        ∃ t, exec (.ctxcmdCreate x) s = .next t ∧ ended t 0#3 ∧
          t.ctx? ctx = some { root := dw 0 % 2 ^ 52, crtab := dw 1 % 2 ^ 52, saveBase := dw 2 % 2 ^ 52, saveSize := dw 3 % 2 ^ 32
                              part := dw 3 / 2 ^ 32 % 8, debug := (dw 3).testBit 35, counters := [], faults := ⟨[], false⟩ }) ∧
      (s.ctx? ctx = none → answers (.ctxcmdDestroy x) 1#3) ∧
      (∀ c, s.ctx? ctx = some c →
        ∃ t, exec (.ctxcmdDestroy x) s = .next t ∧ ended t 0#3 ∧ t.ctx? ctx = none ∧ ∀ im ∈ t.images, im.ctx ≠ ctx) ∧
      (tgAt s ctx core.toNat slot.toNat = none →
        answers (.ctxcmdEndWorkgroup x core slot) 1#3 ∧ answers (.ctxcmdStep x core slot) 1#3 ∧
        answers (.ctxcmdStepThread x core slot thread) 1#3 ∧ answers (.ctxcmdResume x core slot) 1#3) ∧
      (∀ r g, tgAt s ctx core.toNat slot.toNat = some r → s.tg? r = some g →
        let steps (i : Instr) (op th : Nat) (d : Debug) : Prop :=
          ∃ t, exec i s = .next t ∧ t.host.cmd = some ⟨op, ctx, core.toNat, g.slot, th, r.wg⟩ ∧ t.tg? r = some { g with debug := d }
        exec (.ctxcmdEndWorkgroup x core slot) s = .next
          { endWorkgroup s r.wg 1 with host := { (endWorkgroup s r.wg 1).host with cmd := none, cmdStatus := 0#3 } } ∧
        (g.debug = .off →
          answers (.ctxcmdStep x core slot) 3#3 ∧ answers (.ctxcmdStepThread x core slot thread) 3#3 ∧
          answers (.ctxcmdResume x core slot) 3#3) ∧
        (g.debug ≠ .off →
          (g.shot.active = true ∨ g.choose.isSome = true → steps (.ctxcmdStep x core slot) 6 0 .step) ∧
          (g.shot.active = false → g.choose = none → answers (.ctxcmdStep x core slot) 3#3) ∧
          (g.shot.active = true → steps (.ctxcmdStepThread x core slot thread) 7 thread.toNat .step) ∧
          (∀ t, g.shot.active = false → g.threads[thread.toNat]? = some t →
            let free : Prop := ∀ y, g.serial = some y → y.running = thread.toNat
            (t.status = .ready → free → steps (.ctxcmdStepThread x core slot thread) 7 thread.toNat (.stepThread thread.toNat)) ∧
            (t.status ≠ .ready ∨ ¬ free → answers (.ctxcmdStepThread x core slot thread) 3#3)) ∧
          (g.brk = none → ∃ t g', exec (.ctxcmdResume x core slot) s = .next t ∧ ended t 0#3 ∧ t.tg? r = some g' ∧
            g'.debug = .off ∧ g'.threads = g.threads ∧ g'.shot = g.shot))) ∧
      (∀ (c : Context) (n : Nat) (w : Wg), s.ctx? ctx = some c →
        (s.wgs.find? fun y => y.2.saveable && s.ctxOf y.2 == ctx && y.2.core == core.toNat && y.2.tgs.any fun g => g.slot == slot.toNat) =
          some (n, w) →
        let need := s.host.ctxArg.toNat / 2 ^ 12 % 2 ^ 28 * 4096 + 4096 + 0x02900000 * (unitOf s w).length
        (c.saveSize < need → answers (.ctxcmdPreempt x core slot) 2#3) ∧
        (need ≤ c.saveSize →
          ∃ t, exec (.ctxcmdPreempt x core slot) s = .next t ∧
            t.host.cmd = some ⟨3, ctx, core.toNat, slot.toNat, 0, n⟩ ∧
            ∀ y ∈ unitOf s w, ∃ w', t.wg? y.1 = some w' ∧ w'.preempt = true ∧ w'.preemptSince = s.clock.toNat)))

/-- Save and restore (R431 to R436, R466; log 22). The save of a unit waits while a thread group of it is in
supervisor mode, at most 1,000,000 counts; then, here with nothing in flight, its workgroups hold no core and an image
names them. A restore places the workgroup of a valid image where there is room, as it was, and clears VALID; without
such an image it has status 4. Every save and restore (R431 to R436, R465, R466): a pre-emption is carried out once no
thread group of its unit is in supervisor mode, or its 1,000,000 counts are over, and no `MMA` of it is amid a chunk;
a valid image is restored where the hints hold it, the words that its save area lost being Poison (log 22). A restore
that finds no place waits (log 28). -/
def Obligations.SaveAndRestore : Prop :=
  (
    ∀ (s : State) (ctx : Nat) (c : Context),
      let idle (t : State) (st : BitVec 3) : Prop := t.host.cmd = none ∧ t.host.cmdStatus = st
      (∀ ws, preempting s = some (ctx, c, ws) →
        let late : Prop := ∀ y ∈ ws, y.2.preemptSince + 1000000 ≤ s.clock.toNat
        let quiet : Prop := s.cores = [] ∧ s.clusters = [] ∧ s.cs.l1 = [] ∧ isHost (imageAddr s c) = true ∧ ws ≠ [] ∧
          ∀ y ∈ ws, ∀ g ∈ y.2.tgs, g.ops = []
        let saved (i : Instr) : Prop :=
          ∃ t im, exec i s = .next t ∧ idle t 0#3 ∧ im ∈ t.images ∧ im.ctx = ctx ∧ im.addr = imageAddr s c ∧
            im.wgs = ws.map (fun y => (y.1, y.2.phase)) ∧
            ∀ y ∈ ws, ∃ w', t.wg? y.1 = some w' ∧ w'.phase = .saved ∧ w'.preempt = false ∧ w'.spad = y.2.spad
        (anySuper ws = true → exec .preemptSave s = .next s ∧ (¬ late → exec .preemptHoldTimeout s = .next s)) ∧
        ((∀ y ∈ ws, s.wg? y.1 = some y.2) → quiet →
          (anySuper ws = false → saved .preemptSave) ∧ (anySuper ws = true → late → saved .preemptHoldTimeout))) ∧
      (∀ (x : BitVec 16), s.host.cmd = none → x.toNat = ctx → s.ctx? ctx = some c → isHost (imageAddr s c) = true →
        (∀ hints, (hostDw s (imageAddr s c)).testBit 63 = false →
          ∃ t, exec (.ctxcmdRestore x hints) s = .next t ∧ idle t 4#3 ∧ t.wgs = s.wgs) ∧
        (∀ (n : Nat) (w : Wg) (h : Sheet) (ph : WgPhase) (hint : PlaceHint) (spot : Spot) (time : Nat),
          let im : UnitImage := ⟨ctx, imageAddr s c, time, [(n, ph)], [], [], [], [], [], []⟩
          s.images = [im] → s.wgs = [(n, w)] → s.sheetOf w = some h → hostDw s (imageAddr s c) = 2 ^ 63 + 1 →
          spotOn s h w.mirrored hint = some spot → w.badWords = 0 → (s.core hint.core).copyq = [] → (s.core hint.core).matq = [] →
          s.cs.l1 = [] →
          ∃ t w', exec (.ctxcmdRestore x [hint]) s = .next t ∧ idle t 0#3 ∧ t.images = [] ∧ hostDw t (imageAddr s c) = 1 ∧
            t.wg? n = some w' ∧ w'.phase = ph ∧ w'.core = hint.core ∧ w'.base = spot.base ∧ w'.spad = w.spad))) ∧
  (
    ∀ (s : State),
      (∀ x, preempting s = some x → midChunk s x.2.2 = false →
        (anySuper x.2.2 = false → exec .preemptSave s = .next (carryOut s x)) ∧
        (anySuper x.2.2 = true → (∀ y ∈ x.2.2, y.2.preemptSince + 1000000 ≤ s.clock.toNat) →
          exec .preemptHoldTimeout s = .next (carryOut s x))) ∧
      (∀ (x : BitVec 16) (at_ : List PlaceHint) (c : Context) s1 s2 s3 ws im lost, mayRestore s x.toNat = true →
        s.ctx? x.toNat = some c → ioWords s c.part (imageAddr s c) 2 = (s1, ws) → sound ws = true →
        let dw := (dwsFrom ws).getD 0 0
        dw.testBit 63 = true →
        s1.images.find? (fun y => y.ctx == x.toNat && y.addr == imageAddr s c && dw % 2 ^ 32 == y.wgs.length) = some im →
        lostWords s1 c.part (imageAddr s c) im.wgs.length = (s2, lost) → restoreUnit (loseWords s2 im lost) im at_ = some s3 →
        ∃ t, exec (.ctxcmdRestore x at_) s = .next t ∧ t.wgs = s3.wgs ∧ t.images = s3.images.erase im ∧ t.host.cmd = none ∧
          t.host.cmdStatus = 0#3))

/-! ### Two-take execution -/

/-- Commit points and atomics of two takes (R440 to R444). When both takes have reached one with equal signatures,
their held writes are performed and both go on; with different ones, or when one has waited 2^30 counts for the other,
which no time in the debug state counts to, or waits while the other waits for the partner of an atomic, both end with
a record of kind 0x70. A store that waits for an entry is held once one is free. Requests for an atomic that are alike
are performed once for both takes (which of several of the partner's meets it is a free choice); unlike ones end both.
The model's choices: log 48, log 66. -/
def Obligations.TakeEvents : Prop :=
  ∀ (s : State),
    (∀ (n0 n1 : Nat) (w0 w1 : Wg), takesOf s s.unit = some (n0, n1, w0, w1) →
      let mismatch : State :=
        endWorkgroup (appendRecord s (s.partOf w0) 0x70 noCore (w0.core / 8) 0 w0.sig.toNat w1.sig.toNat) n0 2
      (∀ p q ps qs, w0.points = p :: ps → w1.points = q :: qs → n0 ≠ n1 → s.wg? n0 = some w0 → s.wg? n1 = some w1 →
        ((w0.sig ≠ w1.sig ∨ ((p.by_ = .exits) ↔ ¬ (q.by_ = .exits))) → exec .takeCommitDecide s = .next mismatch) ∧
        (w0.sig = w1.sig → p.by_ = .exits → q.by_ = .exits → w0.held = [] → w1.held = [] →
          ∃ t v0 v1, exec .takeCommitDecide s = .next t ∧ t.wg? n0 = some v0 ∧ t.wg? n1 = some v1 ∧
            v0 = { w0 with sig := 0#64, commits := w0.commits + 1, points := ps, phase := .finishing, tgs := v0.tgs } ∧
            v1 = { w1 with sig := 0#64, commits := w1.commits + 1, points := qs, phase := .finishing, tgs := v1.tgs } ∧
            v0.tgs.map Tg.threads = w0.tgs.map Tg.threads ∧ v1.tgs.map Tg.threads = w1.tgs.map Tg.threads) ∧
        (w0.sig = w1.sig → p.by_ = .writeback → q.by_ = .writeback →
          (∀ a ∈ w0.held ++ w1.held, a.page = .host ∧ a.coded = none) →
          ∃ t v0 v1, exec .takeCommitDecide s = .next t ∧ t.wg? n0 = some v0 ∧ t.wg? n1 = some v1 ∧
            v0.held = [] ∧ v0.sig = 0#64 ∧ v0.commits = w0.commits + 1 ∧ v0.points = ps ∧
            v1.held = [] ∧ v1.sig = 0#64 ∧ v1.commits = w1.commits + 1 ∧ v1.points = qs)) ∧
      (∀ p ps, w0.points = p :: ps → w1.points = [] → (∀ (i : Nat) (g : Tg), p.by_ = .tg i → s.tg? ⟨n0, i⟩ = some g → g.debug = .off) →
        exec .takeCommitTimeout s = .next (if p.since + 2 ^ 30 ≤ s.clock.toNat then mismatch else s)) ∧
      (∀ p ps, w1.points = p :: ps → w0.points = [] → (∀ (i : Nat) (g : Tg), p.by_ = .tg i → s.tg? ⟨n1, i⟩ = some g → g.debug = .off) →
        exec .takeCommitTimeout s = .next (if p.since + 2 ^ 30 ≤ s.clock.toNat then mismatch else s)) ∧
      (w0.points = [] ∨ w1.points = [] →
        exec .takeCommitDecide s = .next (if stranded w0 w1 = true ∨ stranded w1 w0 = true then mismatch else s)) ∧
      (∀ p q ps qs, w0.points = p :: ps → w1.points = q :: qs → w0.sig = w1.sig → (p.by_ = .exits ↔ q.by_ = .exits) →
        exec .takeCommitDecide s = .next (matchTakes s n0 n1 w0 w1 p q))) ∧
    (∀ (r : TgRef) (w : Wg) (g : Tg) (o : MemOp), s.wg? r.wg = some w → s.tg? r = some g → w.takeOn = true →
      (g.ops.find? fun o => o.gated != 0 && !o.performed) = some o →
      let stores := o.accs.filter fun a => a.isHeld && !a.done
      stores ≠ [] → scopeNo o.scope < 3 →
      exec (.rushesEntryFree r) s = .next (if rushesRoom s w stores then progress (holdOp s r o.id) r else s)) ∧
    (∀ (r : TgRef) (op ix : Nat) (w w1 : Wg) (g : Tg) (o p : MemOp) (a b : Acc) (m i jx : Nat), Pending s r op ix w g o a →
      w.take = 0 → takesOf s r.wg = some (r.wg, m, w, w1) → a.isAtomic = true → a.page ≠ .spad → o.gated = 0 →
      (r.tg, o, ix, a) ∈ firstAt w a → firstAt w1 a = [(i, p, jx, b)] →
      (alike o p a b = false → exec (.takeAtomicPair r op ix) s = .next
        (endWorkgroup (appendRecord s (s.partOf w) 0x70 noCore (w.core / 8) 0 w.sig.toNat w1.sig.toNat) r.wg 2)) ∧
      (alike o p a b = true →
        let x := atomicAt (dropCopies s [w.core, w1.core] a) (s.partOf w) w.core a
        exec (.takeAtomicPair r op ix) s = .next (accDone (accDone x.1 r op ix x.2) ⟨m, i⟩ p.id jx x.2))) ∧
    (∀ (r : TgRef) (op ix : Nat) (w w0 w1 : Wg) (g : Tg) (o p : MemOp) (a b : Acc) (n0 n1 i jx : Nat), Pending s r op ix w g o a →
      takesOf s r.wg = some (n0, n1, w0, w1) → a.isAtomic = true → a.page ≠ .spad → o.gated = 0 → (r.tg, o, ix, a) ∈ firstAt w a →
      let m := if r.wg = n0 then n1 else n0
      let l := firstAt (if r.wg = n0 then w1 else w0) a
      l[Config.freeNat s.tick 0 % max 1 l.length]? = some (i, p, jx, b) →
      (alike o p a b = false → exec (.takeAtomicPair r op ix) s = .next (mismatchTakes s n0 w0 w1)) ∧
      (alike o p a b = true →
        let x := atomicAt (dropCopies s [w0.core, w1.core] a) (s.partOf w) w0.core a
        exec (.takeAtomicPair r op ix) s = .next (accDone (accDone x.1 r op ix x.2) ⟨m, i⟩ p.id jx x.2)))

/-! ### Defences, power and reset -/

/-- The defences (R447 to R453; INFO of event 0x04 the core). A rebuild of a cluster performs its accesses in flight,
suspends engines by a free choice (log 12), ends the workgroups that are lost and leaves its record; the fourth within
2^30 counts fences its cores, its units marked. A daily run begins when it is due and its unit idle, and passes or
fails by its signature (the expected one is free); the third failure of the last eight fences the unit. A fenced core
without workgroups leaves service. Wear is updated by the hour, with a record when the forecast falls below 6. The
logs and fields of the records are the model's choice (log 37). -/
def Obligations.DefenceEvents : Prop :=
  ∀ (s : State),
    (∀ cluster, cluster < 48 → s.wgs = [] →
      ∃ t, exec (.schedulerRebuild cluster []) s = .next t ∧ Recorded s t 0 0x71 0 ∧
        (t.cluster cluster).rebuilds.head? = some s.clock.toNat ∧
        (3 ≤ countIf (s.cluster cluster).rebuilds (fun x => decide (s.clock.toNat < x + 2 ^ 30)) →
          ∀ i, i < 8 → (t.core (8 * cluster + i)).fenced = true)) ∧
    (∀ cluster lost, cluster < 48 →
      let here := s.wgs.filter fun x => x.2.saveable && x.2.core / 8 == cluster
      let s1 := (here.flatMap fun x => x.2.refs x.1).foldl performAll s
      let s2 := ((here.map (·.1)).filter lost.contains).foldl (fun s n =>
        appendRecord (endWorkgroup s n 1) 0 0x72 noCore cluster 0 0 0) (suspendEngines s1 cluster)
      exec (.schedulerRebuild cluster lost) s = .next (countRebuild (appendRecord s2 0 0x71 noCore cluster 0 0 0) cluster)) ∧
    (∀ (u : TestUnit) (sig : BitVec 64),
      let d := dailyOf s u
      let due : Prop := ∀ x, d.last = some x → x + max 1 s.dfs.dailyPeriod.toNat * 1000000 ≤ s.clock.toNat
      let now (t : State) (x : Daily) : Prop := dailyOf t u = x
      d.target = u →
      (unitKnown u = true → s.dfs.dailyEn = true → d.running = false → unitIdle s u = true →
        (due → ∃ t, exec (.dailyRun u) s = .next t ∧ now t { d with running := true, last := some s.clock.toNat }) ∧
        (¬ due → exec (.dailyRun u) s = .next s)) ∧
      (d.running = true →
        (sig = Config.dailyExpected u → ∃ t, exec (.dailyRunComplete u sig) s = .next t ∧
          now t { d with running := false, passes := min 0xFFFFFFFF (d.passes + 1), history := (false :: d.history).take 8 }) ∧
        (sig ≠ Config.dailyExpected u →
          let failed := countIf ((true :: d.history).take 8) id
          ∃ t, exec (.dailyRunComplete u sig) s = .next t ∧ Recorded s t 0 0x73 0 ∧
            now t { d with running := false, fails := min 0xFFFFFF (d.fails + 1), lsig := sig ^^^ Config.dailyExpected u
                           history := (true :: d.history).take 8, fenced := d.fenced || decide (3 ≤ failed) } ∧
            ∀ k j, u = .core k j → 3 ≤ failed → (t.core k).fenced = true))) ∧
    (s.unit < 384 → (s.core s.unit).fenced = true → (s.core s.unit).out = false →
      ((∃ x ∈ s.wgs, x.2.core = s.unit ∧ x.2.resident = true) → exec .coreLeaveService s = .next s) ∧
      ((∀ x ∈ s.wgs, x.2.core = s.unit → x.2.resident = false) →
        ∃ t, exec .coreLeaveService s = .next t ∧ (t.core s.unit).out = true ∧ Recorded s t 0 0x74 0)) ∧
    (∀ die (v : BitVec 64), die < 7 → s.dfs.wear.length = 7 →
      let x := v.toNat
      let eol := if s.clock.toNat < 86400 * 10 ^ 9 then 0xFF else x / 2 ^ 48 % 256
      let word := BitVec.ofNat 64
        (eol * 2 ^ 48 + x / 2 ^ 32 % 2 ^ 16 * 2 ^ 32 + (if die = 6 then 0 else x / 2 ^ 16 % 2 ^ 16 * 2 ^ 16) + x % 2 ^ 16)
      let t : State := { s with dfs := { s.dfs with wear := s.dfs.wear.set die word } }
      exec (.wearUpdate die v) s = .next
        (if 6 ≤ (s.dfs.wear.getD die 0#64).toNat / 2 ^ 48 % 256 ∧ eol < 6 then
          appendRecord t 0 0x75 noCore die 0 word.toNat 0 else t))

/-- Power, temperature and reset (R9, R472, R473; a die's report, INFO of the events and the outcome of the boot are
free, log 17, log 19, log 23). STATE 0 withdraws a request; STATE 1 stands until nothing runs or is queued; STATE 2
ends every workgroup and removes power. At 95 °C the device throttles; at 110 °C it powers off. A fundamental reset
gives every register its reset value; main memory is unpredictable and the host's memory stands. What a fundamental
reset leaves in memory is the model's choice (log 39). -/
def Obligations.PowerEvents : Prop :=
  ∀ (s : State),
    let host (f : HostSt → HostSt) : State := { s with host := f s.host }
    exec .pwrStateActive s = .next (host fun h => { h with
      pwrState := if h.pwrState = 1#2 then 0#2 else h.pwrState, pwrReq := false }) ∧
    exec .pwrStateIdle s = .next (if s.host.pwrState = 0#2 then host fun h => { h with pwrReq := true } else s) ∧
    (s.host.pwrReq = true → s.host.pwrState = 0#2 → s.launches = [] → (∀ q ∈ s.host.queues, q.head = q.tail) →
      exec .pwrEnterIdle s = .next (host fun h => { h with pwrState := 1#2, pwrReq := false })) ∧
    (s.launches ≠ [] ∨ s.host.pwrReq = false ∨ s.host.pwrState ≠ 0#2 ∨ (∃ q ∈ s.host.queues, q.head ≠ q.tail) →
      exec .pwrEnterIdle s = .next s) ∧
    (let t := (s.wgs.map (·.1)).foldl endAnywhere s
     exec .pwrStateOff s = .next { t with host := { t.host with pwrState := 2#2, pwrReq := false } }) ∧
    (s.wgs = [] → exec .pwrStateOff s = .next (host fun h => { h with pwrState := 2#2, pwrReq := false })) ∧
    (∀ n w, s.wgs = [(n, w)] → w.takeOn = false → w.phase = .running →
      ∃ t w', exec .pwrStateOff s = .next t ∧ t.host.pwrState = 2#2 ∧ t.wg? n = some w' ∧ w'.phase = .finishing ∧
        w'.status = w.status ||| 1#8 ∧ ∀ g ∈ w'.tgs, g.phase = .ended) ∧
    (s.unit < 7 →
      (∃ v, exec .thermalThrottle s = .next (postEvent (host fun h => { h with therm := h.therm.set s.unit v }) 0x05 0
        (Config.eventInfo 0x05 s.unit 1))) ∧
      ∃ t, exec .thermalShutdown s = .next t ∧ t.host.pwrState = 2#2 ∧ t.host.pwrReq = false) ∧
    ∃ boot, exec .fundamentalReset s = .next { State.reset with
      agenda := s.agenda
      tick := s.tick
      pick := s.pick
      unit := s.unit
      mm := { State.reset.mm with
        bytes := s.mm.bytes.filter fun c => isHost c.1
        unsettled := (((List.range 768).filter fun g => !ganged s (g * 2 ^ 30)).map fun g =>
            ⟨g * 2 ^ 30, (g + 1) * 2 ^ 30, s.tick, true⟩) ++
          [⟨0, 0xC000000000, s.tick, false⟩] }
      host := { State.reset.host with bootStatus := boot } }
end

