-- ==== Sys2Proof/Laws/Store.lean ====
section
/-! SUPPORT. Laws of the sparse stores and of memory: read after write, and the canonical form that every operation
keeps. -/

namespace Sys2Proof.Machine

variable {α : Type}

/-! ### Reading what was listed or removed -/

@[simp] theorem lookD_nil (d : α) (k : Nat) : lookD d [] k = d := rfl

theorem lookD_ins_self (d : α) (m : Sparse α) (k : Nat) (v : α) : lookD d (ins m k v) k = v := by
  induction m with
  | nil => simp [ins, lookD]
  | cons a m ih =>
    obtain ⟨j, w⟩ := a
    by_cases h1 : j < k
    · simp [ins, h1, lookD, Nat.ne_of_lt h1, ih]
    · by_cases h2 : j = k <;> simp [ins, h1, h2, lookD]

theorem lookD_ins_ne (d : α) (m : Sparse α) {k i : Nat} (h : k ≠ i) (v : α) : lookD d (ins m k v) i = lookD d m i := by
  induction m with
  | nil => simp [ins, lookD, h]
  | cons a m ih =>
    obtain ⟨j, w⟩ := a
    by_cases h1 : j < k
    · simp [ins, h1, lookD, ih]
    · by_cases h2 : j = k
      · subst h2; simp [ins, lookD, h]
      · simp [ins, h1, h2, lookD, h]

theorem look?_ins_self (m : Sparse α) (k : Nat) (v : α) : look? (ins m k v) k = some v := by
  induction m with
  | nil => simp [ins, look?]
  | cons a m ih =>
    obtain ⟨j, w⟩ := a
    by_cases h1 : j < k
    · simp [ins, h1, look?, Nat.ne_of_lt h1, ih]
    · by_cases h2 : j = k <;> simp [ins, h1, h2, look?]

theorem look?_ins_ne (m : Sparse α) {k i : Nat} (h : k ≠ i) (v : α) : look? (ins m k v) i = look? m i := by
  induction m with
  | nil => simp [ins, look?, h]
  | cons a m ih =>
    obtain ⟨j, w⟩ := a
    by_cases h1 : j < k
    · simp [ins, h1, look?, ih]
    · by_cases h2 : j = k
      · subst h2; simp [ins, look?, h]
      · simp [ins, h1, h2, look?, h]

theorem lookD_del_self (d : α) (m : Sparse α) (k : Nat) : lookD d (del m k) k = d := by
  induction m with
  | nil => rfl
  | cons a m ih =>
    obtain ⟨j, w⟩ := a
    by_cases h : j = k <;> simp [del, lookD, h, ih]

theorem lookD_del_ne (d : α) (m : Sparse α) {k i : Nat} (h : k ≠ i) : lookD d (del m k) i = lookD d m i := by
  induction m with
  | nil => rfl
  | cons a m ih =>
    obtain ⟨j, w⟩ := a
    by_cases h2 : j = k
    · subst h2; simp [del, lookD, h, ih]
    · simp [del, h2, lookD, ih]

/-! ### Rising keys -/

/-- Every key of a store is above a bound. -/
def above (b : Nat) (m : Sparse α) : Prop := ∀ kv ∈ m, b < kv.1

theorem rising_cons (j : Nat) (w : α) (m : Sparse α) : rising ((j, w) :: m) = true ↔ above j m ∧ rising m = true := by
  induction m generalizing j w with
  | nil => simp [rising, above]
  | cons a m ih =>
    obtain ⟨k, x⟩ := a
    simp only [rising, Bool.and_eq_true, decide_eq_true_eq, ih, above, List.forall_mem_cons]
    constructor
    · rintro ⟨h, ha, hr⟩
      exact ⟨⟨h, fun y hy => Nat.lt_trans h (ha y hy)⟩, ha, hr⟩
    · rintro ⟨⟨h, -⟩, ha, hr⟩
      exact ⟨h, ha, hr⟩

theorem above_ins {b : Nat} {m : Sparse α} {k : Nat} (v : α) (hk : b < k) (h : above b m) : above b (ins m k v) := by
  induction m with
  | nil => simpa [ins, above] using hk
  | cons a m ih =>
    obtain ⟨j, w⟩ := a
    have hj : b < j := h (j, w) (by simp)
    have hm : above b m := fun y hy => h y (by simp [hy])
    by_cases h1 : j < k
    · simp only [ins, h1, if_true]
      intro y hy
      rcases List.mem_cons.mp hy with rfl | hy
      · exact hj
      · exact ih hm y hy
    · by_cases h2 : j = k
      · simp only [ins, h2, Nat.lt_irrefl, if_false, beq_self_eq_true, if_true]
        intro y hy
        rcases List.mem_cons.mp hy with rfl | hy
        · exact hk
        · exact hm y hy
      · simp only [ins, h1, if_false, beq_iff_eq, h2]
        intro y hy
        rcases List.mem_cons.mp hy with rfl | hy
        · exact hk
        · exact h y hy

theorem rising_ins {m : Sparse α} (h : rising m = true) (k : Nat) (v : α) : rising (ins m k v) = true := by
  induction m with
  | nil => simp [ins, rising]
  | cons a m ih =>
    obtain ⟨j, w⟩ := a
    obtain ⟨ha, hr⟩ := (rising_cons j w m).mp h
    by_cases h1 : j < k
    · simp only [ins, h1, if_true]
      exact (rising_cons _ _ _).mpr ⟨above_ins v h1 ha, ih hr⟩
    · by_cases h2 : j = k
      · subst h2
        simp only [ins, h1, if_false, beq_self_eq_true, if_true]
        exact (rising_cons _ _ _).mpr ⟨ha, hr⟩
      · simp only [ins, h1, if_false, beq_iff_eq, h2]
        refine (rising_cons _ _ _).mpr ⟨fun y hy => ?_, h⟩
        rcases List.mem_cons.mp hy with rfl | hy
        · show k < j; omega
        · exact Nat.lt_trans (by omega) (ha y hy)

theorem mem_del {m : Sparse α} {k : Nat} {y : Nat × α} (h : y ∈ del m k) : y ∈ m := by
  induction m with
  | nil => exact h
  | cons a m ih =>
    obtain ⟨j, w⟩ := a
    by_cases h2 : j = k
    · simp only [del, h2, beq_self_eq_true, if_true] at h
      exact List.mem_cons_of_mem _ (ih h)
    · simp only [del, beq_iff_eq, h2, if_false, List.mem_cons] at h ⊢
      exact h.imp id ih

theorem rising_del {m : Sparse α} (h : rising m = true) (k : Nat) : rising (del m k) = true := by
  induction m with
  | nil => rfl
  | cons a m ih =>
    obtain ⟨j, w⟩ := a
    obtain ⟨ha, hr⟩ := (rising_cons j w m).mp h
    by_cases h2 : j = k
    · simpa only [del, h2, beq_self_eq_true, if_true] using ih hr
    · simp only [del, beq_iff_eq, h2, if_false]
      exact (rising_cons _ _ _).mpr ⟨fun y hy => ha y (mem_del hy), ih hr⟩

theorem mem_ins {m : Sparse α} {k : Nat} {v : α} {y : Nat × α} (h : y ∈ ins m k v) : y = (k, v) ∨ y ∈ m := by
  induction m with
  | nil => simpa [ins] using h
  | cons a m ih =>
    obtain ⟨j, w⟩ := a
    by_cases h1 : j < k
    · simp only [ins, h1, if_true, List.mem_cons] at h ⊢
      rcases h with rfl | h
      · exact .inr (.inl rfl)
      · exact (ih h).imp id .inr
    · by_cases h2 : j = k
      · simp only [ins, h2, Nat.lt_irrefl, if_false, beq_self_eq_true, if_true, List.mem_cons] at h ⊢
        exact h.imp id .inr
      · simpa only [ins, h1, if_false, beq_iff_eq, h2, List.mem_cons] using h

/-! ### The canonical form -/

section Canonical
variable [DecidableEq α]

theorem lookD_put_self (d : α) (m : Sparse α) (k : Nat) (v : α) : lookD d (put d m k v) k = v := by
  unfold put
  split
  · rename_i hv; rw [lookD_del_self, hv]
  · exact lookD_ins_self d m k v

theorem lookD_put_ne (d : α) (m : Sparse α) {k i : Nat} (h : k ≠ i) (v : α) : lookD d (put d m k v) i = lookD d m i := by
  unfold put
  split
  · exact lookD_del_ne d m h
  · exact lookD_ins_ne d m h v

theorem Sparse.wf_iff (d : α) (m : Sparse α) : Sparse.wf d m = true ↔ rising m = true ∧ ∀ y ∈ m, y.2 ≠ d := by
  simp [Sparse.wf]

theorem Sparse.wf_put {d : α} {m : Sparse α} (h : Sparse.wf d m = true) (k : Nat) (v : α) : Sparse.wf d (put d m k v) = true := by
  obtain ⟨hr, hd⟩ := (Sparse.wf_iff d m).mp h
  unfold put
  split
  · exact (Sparse.wf_iff d _).mpr ⟨rising_del hr k, fun y hy => hd y (mem_del hy)⟩
  · rename_i hv
    refine (Sparse.wf_iff d _).mpr ⟨rising_ins hr k v, fun y hy => ?_⟩
    rcases mem_ins hy with rfl | hy
    · exact hv
    · exact hd y hy

omit [DecidableEq α] in
theorem above_filter {b : Nat} {m : Sparse α} (p : Nat × α → Bool) (h : above b m) : above b (m.filter p) :=
  fun y hy => h y (List.mem_filter.mp hy).1

omit [DecidableEq α] in
theorem rising_filter {m : Sparse α} (p : Nat × α → Bool) (h : rising m = true) : rising (m.filter p) = true := by
  induction m with
  | nil => rfl
  | cons a m ih =>
    obtain ⟨j, w⟩ := a
    obtain ⟨ha, hr⟩ := (rising_cons j w m).mp h
    by_cases hp : p (j, w)
    · simp only [List.filter_cons, hp, if_true]
      exact (rising_cons _ _ _).mpr ⟨above_filter p ha, ih hr⟩
    · simpa [List.filter_cons, hp] using ih hr

theorem Sparse.wf_filter {d : α} {m : Sparse α} (p : Nat × α → Bool) (h : Sparse.wf d m = true) :
    Sparse.wf d (m.filter p) = true := by
  obtain ⟨hr, hd⟩ := (Sparse.wf_iff d m).mp h
  exact (Sparse.wf_iff d _).mpr ⟨rising_filter p hr, fun y hy => hd y (List.mem_filter.mp hy).1⟩

end Canonical

/-! ### Memory -/

theorem Memory.wf_wrByte {m : Memory} (h : Memory.wf m = true) (a : Nat) (b : Byte) : Memory.wf (wrByte m a b) = true :=
  Sparse.wf_put h a b

theorem Memory.wf_wrWord {m : Memory} (h : Memory.wf m = true) (a : Nat) (w : Word) : Memory.wf (wrWord m a w) = true :=
  wf_wrByte (wf_wrByte (wf_wrByte (wf_wrByte h ..) ..) ..) ..

theorem Memory.wf_wrWords {m : Memory} (h : Memory.wf m = true) (a : Nat) (ws : List Word) :
    Memory.wf (wrWords m a ws) = true := by
  induction ws generalizing m a with
  | nil => exact h
  | cons w ws ih => exact ih (wf_wrWord h a w) (a + 4)

theorem Memory.wf_filter {m : Memory} (h : Memory.wf m = true) (p : Host.Cell → Bool) : Memory.wf (m.filter p) = true :=
  Sparse.wf_filter p h

theorem rdByte_wrByte_self (m : Memory) (a : Nat) (b : Byte) : rdByte (wrByte m a b) a = b := lookD_put_self _ m a b

theorem rdByte_wrByte_ne (m : Memory) {a i : Nat} (h : a ≠ i) (b : Byte) : rdByte (wrByte m a b) i = rdByte m i :=
  lookD_put_ne _ m h b

theorem rdByte_wrWord_ne (m : Memory) {a i : Nat} (h : i < a ∨ a + 4 ≤ i) (w : Word) :
    rdByte (wrWord m a w) i = rdByte m i := by
  unfold wrWord
  rw [rdByte_wrByte_ne _ (by omega), rdByte_wrByte_ne _ (by omega), rdByte_wrByte_ne _ (by omega),
    rdByte_wrByte_ne _ (by omega)]

/-- Writing words leaves every byte outside them alone. -/
theorem rdByte_wrWords_ne (m : Memory) {a i : Nat} (ws : List Word) (h : i < a ∨ a + 4 * ws.length ≤ i) :
    rdByte (wrWords m a ws) i = rdByte m i := by
  induction ws generalizing m a with
  | nil => rfl
  | cons w ws ih =>
    simp only [List.length_cons] at h
    rw [wrWords, ih _ (by omega), rdByte_wrWord_ne _ (by omega)]

theorem rdByte_wrWord (m : Memory) (a : Nat) (w : Word) (i : Nat) (hi : i < 4) :
    rdByte (wrWord m a w) (a + i) = byteOf w i := by
  unfold wrWord
  obtain rfl | rfl | rfl | rfl : i = 0 ∨ i = 1 ∨ i = 2 ∨ i = 3 := by omega
  · rw [rdByte_wrByte_ne _ (by omega), rdByte_wrByte_ne _ (by omega), rdByte_wrByte_ne _ (by omega)]
    exact rdByte_wrByte_self ..
  · rw [rdByte_wrByte_ne _ (by omega), rdByte_wrByte_ne _ (by omega)]
    exact rdByte_wrByte_self ..
  · rw [rdByte_wrByte_ne _ (by omega)]
    exact rdByte_wrByte_self ..
  · exact rdByte_wrByte_self ..

theorem bytes_of_word (w : Word) : byteOf w 3 ++ (byteOf w 2 ++ (byteOf w 1 ++ byteOf w 0)) = w := by
  apply BitVec.eq_of_getLsbD_eq
  intro i hi
  simp only [byteOf, BitVec.getLsbD_append, BitVec.getLsbD_extractLsb']
  have hi' : i < 32 := hi
  interval_cases i <;> simp

/-- A word read back is the word written. -/
theorem rdWord_wrWord (m : Memory) (a : Nat) (w : Word) : rdWord (wrWord m a w) a = w := by
  unfold rdWord
  rw [rdByte_wrWord m a w 3 (by omega), rdByte_wrWord m a w 2 (by omega), rdByte_wrWord m a w 1 (by omega)]
  have := rdByte_wrWord m a w 0 (by omega)
  rw [Nat.add_zero] at this
  rw [this]
  exact bytes_of_word w

theorem rdWord_wrWord_ne (m : Memory) {a i : Nat} (h : i + 4 ≤ a ∨ a + 4 ≤ i) (w : Word) :
    rdWord (wrWord m a w) i = rdWord m i := by
  unfold rdWord
  rw [rdByte_wrWord_ne _ (by omega), rdByte_wrWord_ne _ (by omega), rdByte_wrWord_ne _ (by omega),
    rdByte_wrWord_ne _ (by omega)]

end Sys2Proof.Machine
end

