-- ==== Sys2Proof/Laws/State.lean ====
section
/-! SUPPORT. What each update of the state leaves alone: one lemma for each field and update, and what the accessors
give after an update. -/

namespace Sys2Proof.Machine

@[simp] theorem State.agenda_setWg (s : State) (n : Nat) (w : Wg) : (s.setWg n w).agenda = s.agenda := rfl
@[simp] theorem State.tick_setWg (s : State) (n : Nat) (w : Wg) : (s.setWg n w).tick = s.tick := rfl
@[simp] theorem State.cur_setWg (s : State) (n : Nat) (w : Wg) : (s.setWg n w).cur = s.cur := rfl
@[simp] theorem State.unit_setWg (s : State) (n : Nat) (w : Wg) : (s.setWg n w).unit = s.unit := rfl
@[simp] theorem State.pick_setWg (s : State) (n : Nat) (w : Wg) : (s.setWg n w).pick = s.pick := rfl
@[simp] theorem State.strikes_setWg (s : State) (n : Nat) (w : Wg) : (s.setWg n w).strikes = s.strikes := rfl
@[simp] theorem State.clock_setWg (s : State) (n : Nat) (w : Wg) : (s.setWg n w).clock = s.clock := rfl
@[simp] theorem State.mm_setWg (s : State) (n : Nat) (w : Wg) : (s.setWg n w).mm = s.mm := rfl
@[simp] theorem State.cs_setWg (s : State) (n : Nat) (w : Wg) : (s.setWg n w).cs = s.cs := rfl
@[simp] theorem State.contexts_setWg (s : State) (n : Nat) (w : Wg) : (s.setWg n w).contexts = s.contexts := rfl
@[simp] theorem State.logs_setWg (s : State) (n : Nat) (w : Wg) : (s.setWg n w).logs = s.logs := rfl
@[simp] theorem State.host_setWg (s : State) (n : Nat) (w : Wg) : (s.setWg n w).host = s.host := rfl
@[simp] theorem State.dfs_setWg (s : State) (n : Nat) (w : Wg) : (s.setWg n w).dfs = s.dfs := rfl
@[simp] theorem State.cores_setWg (s : State) (n : Nat) (w : Wg) : (s.setWg n w).cores = s.cores := rfl
@[simp] theorem State.clusters_setWg (s : State) (n : Nat) (w : Wg) : (s.setWg n w).clusters = s.clusters := rfl
@[simp] theorem State.dists_setWg (s : State) (n : Nat) (w : Wg) : (s.setWg n w).dists = s.dists := rfl
@[simp] theorem State.launches_setWg (s : State) (n : Nat) (w : Wg) : (s.setWg n w).launches = s.launches := rfl
@[simp] theorem State.images_setWg (s : State) (n : Nat) (w : Wg) : (s.setWg n w).images = s.images := rfl

@[simp] theorem State.agenda_setCore (s : State) (n : Nat) (c : CoreSt) : (s.setCore n c).agenda = s.agenda := rfl
@[simp] theorem State.tick_setCore (s : State) (n : Nat) (c : CoreSt) : (s.setCore n c).tick = s.tick := rfl
@[simp] theorem State.cur_setCore (s : State) (n : Nat) (c : CoreSt) : (s.setCore n c).cur = s.cur := rfl
@[simp] theorem State.unit_setCore (s : State) (n : Nat) (c : CoreSt) : (s.setCore n c).unit = s.unit := rfl
@[simp] theorem State.pick_setCore (s : State) (n : Nat) (c : CoreSt) : (s.setCore n c).pick = s.pick := rfl
@[simp] theorem State.strikes_setCore (s : State) (n : Nat) (c : CoreSt) : (s.setCore n c).strikes = s.strikes := rfl
@[simp] theorem State.clock_setCore (s : State) (n : Nat) (c : CoreSt) : (s.setCore n c).clock = s.clock := rfl
@[simp] theorem State.mm_setCore (s : State) (n : Nat) (c : CoreSt) : (s.setCore n c).mm = s.mm := rfl
@[simp] theorem State.cs_setCore (s : State) (n : Nat) (c : CoreSt) : (s.setCore n c).cs = s.cs := rfl
@[simp] theorem State.contexts_setCore (s : State) (n : Nat) (c : CoreSt) : (s.setCore n c).contexts = s.contexts := rfl
@[simp] theorem State.logs_setCore (s : State) (n : Nat) (c : CoreSt) : (s.setCore n c).logs = s.logs := rfl
@[simp] theorem State.host_setCore (s : State) (n : Nat) (c : CoreSt) : (s.setCore n c).host = s.host := rfl
@[simp] theorem State.dfs_setCore (s : State) (n : Nat) (c : CoreSt) : (s.setCore n c).dfs = s.dfs := rfl
@[simp] theorem State.clusters_setCore (s : State) (n : Nat) (c : CoreSt) : (s.setCore n c).clusters = s.clusters := rfl
@[simp] theorem State.dists_setCore (s : State) (n : Nat) (c : CoreSt) : (s.setCore n c).dists = s.dists := rfl
@[simp] theorem State.launches_setCore (s : State) (n : Nat) (c : CoreSt) : (s.setCore n c).launches = s.launches := rfl
@[simp] theorem State.wgs_setCore (s : State) (n : Nat) (c : CoreSt) : (s.setCore n c).wgs = s.wgs := rfl
@[simp] theorem State.images_setCore (s : State) (n : Nat) (c : CoreSt) : (s.setCore n c).images = s.images := rfl

@[simp] theorem State.agenda_setCluster (s : State) (n : Nat) (c : ClusterSt) : (s.setCluster n c).agenda = s.agenda := rfl
@[simp] theorem State.tick_setCluster (s : State) (n : Nat) (c : ClusterSt) : (s.setCluster n c).tick = s.tick := rfl
@[simp] theorem State.cur_setCluster (s : State) (n : Nat) (c : ClusterSt) : (s.setCluster n c).cur = s.cur := rfl
@[simp] theorem State.unit_setCluster (s : State) (n : Nat) (c : ClusterSt) : (s.setCluster n c).unit = s.unit := rfl
@[simp] theorem State.pick_setCluster (s : State) (n : Nat) (c : ClusterSt) : (s.setCluster n c).pick = s.pick := rfl
@[simp] theorem State.strikes_setCluster (s : State) (n : Nat) (c : ClusterSt) : (s.setCluster n c).strikes = s.strikes := rfl
@[simp] theorem State.clock_setCluster (s : State) (n : Nat) (c : ClusterSt) : (s.setCluster n c).clock = s.clock := rfl
@[simp] theorem State.mm_setCluster (s : State) (n : Nat) (c : ClusterSt) : (s.setCluster n c).mm = s.mm := rfl
@[simp] theorem State.cs_setCluster (s : State) (n : Nat) (c : ClusterSt) : (s.setCluster n c).cs = s.cs := rfl
@[simp] theorem State.contexts_setCluster (s : State) (n : Nat) (c : ClusterSt) : (s.setCluster n c).contexts = s.contexts := rfl
@[simp] theorem State.logs_setCluster (s : State) (n : Nat) (c : ClusterSt) : (s.setCluster n c).logs = s.logs := rfl
@[simp] theorem State.host_setCluster (s : State) (n : Nat) (c : ClusterSt) : (s.setCluster n c).host = s.host := rfl
@[simp] theorem State.dfs_setCluster (s : State) (n : Nat) (c : ClusterSt) : (s.setCluster n c).dfs = s.dfs := rfl
@[simp] theorem State.cores_setCluster (s : State) (n : Nat) (c : ClusterSt) : (s.setCluster n c).cores = s.cores := rfl
@[simp] theorem State.dists_setCluster (s : State) (n : Nat) (c : ClusterSt) : (s.setCluster n c).dists = s.dists := rfl
@[simp] theorem State.launches_setCluster (s : State) (n : Nat) (c : ClusterSt) : (s.setCluster n c).launches = s.launches := rfl
@[simp] theorem State.wgs_setCluster (s : State) (n : Nat) (c : ClusterSt) : (s.setCluster n c).wgs = s.wgs := rfl
@[simp] theorem State.images_setCluster (s : State) (n : Nat) (c : ClusterSt) : (s.setCluster n c).images = s.images := rfl

@[simp] theorem State.agenda_setCtx (s : State) (n : Nat) (c : Context) : (s.setCtx n c).agenda = s.agenda := rfl
@[simp] theorem State.tick_setCtx (s : State) (n : Nat) (c : Context) : (s.setCtx n c).tick = s.tick := rfl
@[simp] theorem State.cur_setCtx (s : State) (n : Nat) (c : Context) : (s.setCtx n c).cur = s.cur := rfl
@[simp] theorem State.unit_setCtx (s : State) (n : Nat) (c : Context) : (s.setCtx n c).unit = s.unit := rfl
@[simp] theorem State.pick_setCtx (s : State) (n : Nat) (c : Context) : (s.setCtx n c).pick = s.pick := rfl
@[simp] theorem State.strikes_setCtx (s : State) (n : Nat) (c : Context) : (s.setCtx n c).strikes = s.strikes := rfl
@[simp] theorem State.clock_setCtx (s : State) (n : Nat) (c : Context) : (s.setCtx n c).clock = s.clock := rfl
@[simp] theorem State.mm_setCtx (s : State) (n : Nat) (c : Context) : (s.setCtx n c).mm = s.mm := rfl
@[simp] theorem State.cs_setCtx (s : State) (n : Nat) (c : Context) : (s.setCtx n c).cs = s.cs := rfl
@[simp] theorem State.logs_setCtx (s : State) (n : Nat) (c : Context) : (s.setCtx n c).logs = s.logs := rfl
@[simp] theorem State.host_setCtx (s : State) (n : Nat) (c : Context) : (s.setCtx n c).host = s.host := rfl
@[simp] theorem State.dfs_setCtx (s : State) (n : Nat) (c : Context) : (s.setCtx n c).dfs = s.dfs := rfl
@[simp] theorem State.cores_setCtx (s : State) (n : Nat) (c : Context) : (s.setCtx n c).cores = s.cores := rfl
@[simp] theorem State.clusters_setCtx (s : State) (n : Nat) (c : Context) : (s.setCtx n c).clusters = s.clusters := rfl
@[simp] theorem State.dists_setCtx (s : State) (n : Nat) (c : Context) : (s.setCtx n c).dists = s.dists := rfl
@[simp] theorem State.launches_setCtx (s : State) (n : Nat) (c : Context) : (s.setCtx n c).launches = s.launches := rfl
@[simp] theorem State.wgs_setCtx (s : State) (n : Nat) (c : Context) : (s.setCtx n c).wgs = s.wgs := rfl
@[simp] theorem State.images_setCtx (s : State) (n : Nat) (c : Context) : (s.setCtx n c).images = s.images := rfl

@[simp] theorem State.agenda_setLaunch (s : State) (n : Nat) (l : Launch) : (s.setLaunch n l).agenda = s.agenda := rfl
@[simp] theorem State.tick_setLaunch (s : State) (n : Nat) (l : Launch) : (s.setLaunch n l).tick = s.tick := rfl
@[simp] theorem State.cur_setLaunch (s : State) (n : Nat) (l : Launch) : (s.setLaunch n l).cur = s.cur := rfl
@[simp] theorem State.unit_setLaunch (s : State) (n : Nat) (l : Launch) : (s.setLaunch n l).unit = s.unit := rfl
@[simp] theorem State.pick_setLaunch (s : State) (n : Nat) (l : Launch) : (s.setLaunch n l).pick = s.pick := rfl
@[simp] theorem State.strikes_setLaunch (s : State) (n : Nat) (l : Launch) : (s.setLaunch n l).strikes = s.strikes := rfl
@[simp] theorem State.clock_setLaunch (s : State) (n : Nat) (l : Launch) : (s.setLaunch n l).clock = s.clock := rfl
@[simp] theorem State.mm_setLaunch (s : State) (n : Nat) (l : Launch) : (s.setLaunch n l).mm = s.mm := rfl
@[simp] theorem State.cs_setLaunch (s : State) (n : Nat) (l : Launch) : (s.setLaunch n l).cs = s.cs := rfl
@[simp] theorem State.contexts_setLaunch (s : State) (n : Nat) (l : Launch) : (s.setLaunch n l).contexts = s.contexts := rfl
@[simp] theorem State.logs_setLaunch (s : State) (n : Nat) (l : Launch) : (s.setLaunch n l).logs = s.logs := rfl
@[simp] theorem State.host_setLaunch (s : State) (n : Nat) (l : Launch) : (s.setLaunch n l).host = s.host := rfl
@[simp] theorem State.dfs_setLaunch (s : State) (n : Nat) (l : Launch) : (s.setLaunch n l).dfs = s.dfs := rfl
@[simp] theorem State.cores_setLaunch (s : State) (n : Nat) (l : Launch) : (s.setLaunch n l).cores = s.cores := rfl
@[simp] theorem State.clusters_setLaunch (s : State) (n : Nat) (l : Launch) : (s.setLaunch n l).clusters = s.clusters := rfl
@[simp] theorem State.dists_setLaunch (s : State) (n : Nat) (l : Launch) : (s.setLaunch n l).dists = s.dists := rfl
@[simp] theorem State.wgs_setLaunch (s : State) (n : Nat) (l : Launch) : (s.setLaunch n l).wgs = s.wgs := rfl
@[simp] theorem State.images_setLaunch (s : State) (n : Nat) (l : Launch) : (s.setLaunch n l).images = s.images := rfl

@[simp] theorem State.agenda_clearStrikes (s : State) (r : TgRef) : (s.clearStrikes r).agenda = s.agenda := rfl
@[simp] theorem State.tick_clearStrikes (s : State) (r : TgRef) : (s.clearStrikes r).tick = s.tick := rfl
@[simp] theorem State.cur_clearStrikes (s : State) (r : TgRef) : (s.clearStrikes r).cur = s.cur := rfl
@[simp] theorem State.unit_clearStrikes (s : State) (r : TgRef) : (s.clearStrikes r).unit = s.unit := rfl
@[simp] theorem State.pick_clearStrikes (s : State) (r : TgRef) : (s.clearStrikes r).pick = s.pick := rfl
@[simp] theorem State.clock_clearStrikes (s : State) (r : TgRef) : (s.clearStrikes r).clock = s.clock := rfl
@[simp] theorem State.mm_clearStrikes (s : State) (r : TgRef) : (s.clearStrikes r).mm = s.mm := rfl
@[simp] theorem State.cs_clearStrikes (s : State) (r : TgRef) : (s.clearStrikes r).cs = s.cs := rfl
@[simp] theorem State.contexts_clearStrikes (s : State) (r : TgRef) : (s.clearStrikes r).contexts = s.contexts := rfl
@[simp] theorem State.logs_clearStrikes (s : State) (r : TgRef) : (s.clearStrikes r).logs = s.logs := rfl
@[simp] theorem State.host_clearStrikes (s : State) (r : TgRef) : (s.clearStrikes r).host = s.host := rfl
@[simp] theorem State.dfs_clearStrikes (s : State) (r : TgRef) : (s.clearStrikes r).dfs = s.dfs := rfl
@[simp] theorem State.cores_clearStrikes (s : State) (r : TgRef) : (s.clearStrikes r).cores = s.cores := rfl
@[simp] theorem State.clusters_clearStrikes (s : State) (r : TgRef) : (s.clearStrikes r).clusters = s.clusters := rfl
@[simp] theorem State.dists_clearStrikes (s : State) (r : TgRef) : (s.clearStrikes r).dists = s.dists := rfl
@[simp] theorem State.launches_clearStrikes (s : State) (r : TgRef) : (s.clearStrikes r).launches = s.launches := rfl
@[simp] theorem State.wgs_clearStrikes (s : State) (r : TgRef) : (s.clearStrikes r).wgs = s.wgs := rfl
@[simp] theorem State.images_clearStrikes (s : State) (r : TgRef) : (s.clearStrikes r).images = s.images := rfl

/-! ### Updates of a thread group or a workgroup change `wgs` alone -/

theorem State.setTg_eq (s : State) (r : TgRef) (g : Tg) : ∃ l, s.setTg r g = { s with wgs := l } := by
  unfold State.setTg
  split
  · exact ⟨_, rfl⟩
  · exact ⟨s.wgs, rfl⟩

@[simp] theorem State.agenda_setTg (s : State) (r : TgRef) (g : Tg) : (s.setTg r g).agenda = s.agenda := by unfold State.setTg; split <;> rfl
@[simp] theorem State.tick_setTg (s : State) (r : TgRef) (g : Tg) : (s.setTg r g).tick = s.tick := by unfold State.setTg; split <;> rfl
@[simp] theorem State.cur_setTg (s : State) (r : TgRef) (g : Tg) : (s.setTg r g).cur = s.cur := by unfold State.setTg; split <;> rfl
@[simp] theorem State.unit_setTg (s : State) (r : TgRef) (g : Tg) : (s.setTg r g).unit = s.unit := by unfold State.setTg; split <;> rfl
@[simp] theorem State.pick_setTg (s : State) (r : TgRef) (g : Tg) : (s.setTg r g).pick = s.pick := by unfold State.setTg; split <;> rfl
@[simp] theorem State.strikes_setTg (s : State) (r : TgRef) (g : Tg) : (s.setTg r g).strikes = s.strikes := by unfold State.setTg; split <;> rfl
@[simp] theorem State.clock_setTg (s : State) (r : TgRef) (g : Tg) : (s.setTg r g).clock = s.clock := by unfold State.setTg; split <;> rfl
@[simp] theorem State.mm_setTg (s : State) (r : TgRef) (g : Tg) : (s.setTg r g).mm = s.mm := by unfold State.setTg; split <;> rfl
@[simp] theorem State.cs_setTg (s : State) (r : TgRef) (g : Tg) : (s.setTg r g).cs = s.cs := by unfold State.setTg; split <;> rfl
@[simp] theorem State.contexts_setTg (s : State) (r : TgRef) (g : Tg) : (s.setTg r g).contexts = s.contexts := by unfold State.setTg; split <;> rfl
@[simp] theorem State.logs_setTg (s : State) (r : TgRef) (g : Tg) : (s.setTg r g).logs = s.logs := by unfold State.setTg; split <;> rfl
@[simp] theorem State.host_setTg (s : State) (r : TgRef) (g : Tg) : (s.setTg r g).host = s.host := by unfold State.setTg; split <;> rfl
@[simp] theorem State.dfs_setTg (s : State) (r : TgRef) (g : Tg) : (s.setTg r g).dfs = s.dfs := by unfold State.setTg; split <;> rfl
@[simp] theorem State.cores_setTg (s : State) (r : TgRef) (g : Tg) : (s.setTg r g).cores = s.cores := by unfold State.setTg; split <;> rfl
@[simp] theorem State.clusters_setTg (s : State) (r : TgRef) (g : Tg) : (s.setTg r g).clusters = s.clusters := by unfold State.setTg; split <;> rfl
@[simp] theorem State.dists_setTg (s : State) (r : TgRef) (g : Tg) : (s.setTg r g).dists = s.dists := by unfold State.setTg; split <;> rfl
@[simp] theorem State.launches_setTg (s : State) (r : TgRef) (g : Tg) : (s.setTg r g).launches = s.launches := by unfold State.setTg; split <;> rfl
@[simp] theorem State.images_setTg (s : State) (r : TgRef) (g : Tg) : (s.setTg r g).images = s.images := by unfold State.setTg; split <;> rfl

@[simp] theorem State.agenda_updTg (s : State) (r : TgRef) (f : Tg → Tg) : (s.updTg r f).agenda = s.agenda := by unfold State.updTg; split <;> simp
@[simp] theorem State.tick_updTg (s : State) (r : TgRef) (f : Tg → Tg) : (s.updTg r f).tick = s.tick := by unfold State.updTg; split <;> simp
@[simp] theorem State.cur_updTg (s : State) (r : TgRef) (f : Tg → Tg) : (s.updTg r f).cur = s.cur := by unfold State.updTg; split <;> simp
@[simp] theorem State.unit_updTg (s : State) (r : TgRef) (f : Tg → Tg) : (s.updTg r f).unit = s.unit := by unfold State.updTg; split <;> simp
@[simp] theorem State.pick_updTg (s : State) (r : TgRef) (f : Tg → Tg) : (s.updTg r f).pick = s.pick := by unfold State.updTg; split <;> simp
@[simp] theorem State.strikes_updTg (s : State) (r : TgRef) (f : Tg → Tg) : (s.updTg r f).strikes = s.strikes := by unfold State.updTg; split <;> simp
@[simp] theorem State.clock_updTg (s : State) (r : TgRef) (f : Tg → Tg) : (s.updTg r f).clock = s.clock := by unfold State.updTg; split <;> simp
@[simp] theorem State.mm_updTg (s : State) (r : TgRef) (f : Tg → Tg) : (s.updTg r f).mm = s.mm := by unfold State.updTg; split <;> simp
@[simp] theorem State.cs_updTg (s : State) (r : TgRef) (f : Tg → Tg) : (s.updTg r f).cs = s.cs := by unfold State.updTg; split <;> simp
@[simp] theorem State.contexts_updTg (s : State) (r : TgRef) (f : Tg → Tg) : (s.updTg r f).contexts = s.contexts := by unfold State.updTg; split <;> simp
@[simp] theorem State.logs_updTg (s : State) (r : TgRef) (f : Tg → Tg) : (s.updTg r f).logs = s.logs := by unfold State.updTg; split <;> simp
@[simp] theorem State.host_updTg (s : State) (r : TgRef) (f : Tg → Tg) : (s.updTg r f).host = s.host := by unfold State.updTg; split <;> simp
@[simp] theorem State.dfs_updTg (s : State) (r : TgRef) (f : Tg → Tg) : (s.updTg r f).dfs = s.dfs := by unfold State.updTg; split <;> simp
@[simp] theorem State.cores_updTg (s : State) (r : TgRef) (f : Tg → Tg) : (s.updTg r f).cores = s.cores := by unfold State.updTg; split <;> simp
@[simp] theorem State.clusters_updTg (s : State) (r : TgRef) (f : Tg → Tg) : (s.updTg r f).clusters = s.clusters := by unfold State.updTg; split <;> simp
@[simp] theorem State.dists_updTg (s : State) (r : TgRef) (f : Tg → Tg) : (s.updTg r f).dists = s.dists := by unfold State.updTg; split <;> simp
@[simp] theorem State.launches_updTg (s : State) (r : TgRef) (f : Tg → Tg) : (s.updTg r f).launches = s.launches := by unfold State.updTg; split <;> simp
@[simp] theorem State.images_updTg (s : State) (r : TgRef) (f : Tg → Tg) : (s.updTg r f).images = s.images := by unfold State.updTg; split <;> simp

@[simp] theorem State.agenda_updWg (s : State) (n : Nat) (f : Wg → Wg) : (s.updWg n f).agenda = s.agenda := by unfold State.updWg; split <;> simp
@[simp] theorem State.tick_updWg (s : State) (n : Nat) (f : Wg → Wg) : (s.updWg n f).tick = s.tick := by unfold State.updWg; split <;> simp
@[simp] theorem State.cur_updWg (s : State) (n : Nat) (f : Wg → Wg) : (s.updWg n f).cur = s.cur := by unfold State.updWg; split <;> simp
@[simp] theorem State.unit_updWg (s : State) (n : Nat) (f : Wg → Wg) : (s.updWg n f).unit = s.unit := by unfold State.updWg; split <;> simp
@[simp] theorem State.pick_updWg (s : State) (n : Nat) (f : Wg → Wg) : (s.updWg n f).pick = s.pick := by unfold State.updWg; split <;> simp
@[simp] theorem State.strikes_updWg (s : State) (n : Nat) (f : Wg → Wg) : (s.updWg n f).strikes = s.strikes := by unfold State.updWg; split <;> simp
@[simp] theorem State.clock_updWg (s : State) (n : Nat) (f : Wg → Wg) : (s.updWg n f).clock = s.clock := by unfold State.updWg; split <;> simp
@[simp] theorem State.mm_updWg (s : State) (n : Nat) (f : Wg → Wg) : (s.updWg n f).mm = s.mm := by unfold State.updWg; split <;> simp
@[simp] theorem State.cs_updWg (s : State) (n : Nat) (f : Wg → Wg) : (s.updWg n f).cs = s.cs := by unfold State.updWg; split <;> simp
@[simp] theorem State.contexts_updWg (s : State) (n : Nat) (f : Wg → Wg) : (s.updWg n f).contexts = s.contexts := by unfold State.updWg; split <;> simp
@[simp] theorem State.logs_updWg (s : State) (n : Nat) (f : Wg → Wg) : (s.updWg n f).logs = s.logs := by unfold State.updWg; split <;> simp
@[simp] theorem State.host_updWg (s : State) (n : Nat) (f : Wg → Wg) : (s.updWg n f).host = s.host := by unfold State.updWg; split <;> simp
@[simp] theorem State.dfs_updWg (s : State) (n : Nat) (f : Wg → Wg) : (s.updWg n f).dfs = s.dfs := by unfold State.updWg; split <;> simp
@[simp] theorem State.cores_updWg (s : State) (n : Nat) (f : Wg → Wg) : (s.updWg n f).cores = s.cores := by unfold State.updWg; split <;> simp
@[simp] theorem State.clusters_updWg (s : State) (n : Nat) (f : Wg → Wg) : (s.updWg n f).clusters = s.clusters := by unfold State.updWg; split <;> simp
@[simp] theorem State.dists_updWg (s : State) (n : Nat) (f : Wg → Wg) : (s.updWg n f).dists = s.dists := by unfold State.updWg; split <;> simp
@[simp] theorem State.launches_updWg (s : State) (n : Nat) (f : Wg → Wg) : (s.updWg n f).launches = s.launches := by unfold State.updWg; split <;> simp
@[simp] theorem State.images_updWg (s : State) (n : Nat) (f : Wg → Wg) : (s.updWg n f).images = s.images := by unfold State.updWg; split <;> simp

/-! ### Accessors after updates -/

@[simp] theorem State.wg?_setWg_self (s : State) (n : Nat) (w : Wg) : (s.setWg n w).wg? n = some w := look?_ins_self ..

theorem State.wg?_setWg_ne (s : State) {n m : Nat} (h : n ≠ m) (w : Wg) : (s.setWg n w).wg? m = s.wg? m :=
  look?_ins_ne _ h _

@[simp] theorem State.launch?_setWg (s : State) (n m : Nat) (w : Wg) : (s.setWg n w).launch? m = s.launch? m := rfl

@[simp] theorem State.wg?_clearStrikes (s : State) (r : TgRef) (n : Nat) : (s.clearStrikes r).wg? n = s.wg? n := rfl

@[simp] theorem State.tg?_clearStrikes (s : State) (r q : TgRef) : (s.clearStrikes r).tg? q = s.tg? q := rfl

theorem State.wg_of_tg {s : State} {r : TgRef} {g : Tg} (h : s.tg? r = some g) :
    ∃ w, s.wg? r.wg = some w ∧ w.tgs[r.tg]? = some g := by
  unfold State.tg? at h
  cases hw : s.wg? r.wg with
  | none => simp [hw] at h
  | some w => exact ⟨w, rfl, by simpa [hw] using h⟩

theorem State.setTg_some {s : State} {r : TgRef} {w : Wg} (h : s.wg? r.wg = some w) (g : Tg) :
    s.setTg r g = s.setWg r.wg (w.setTg r.tg g) := by simp [State.setTg, h]

/-- A thread group that exists is the one last put there. -/
theorem State.tg?_setTg_self {s : State} {r : TgRef} {g : Tg} (h : s.tg? r = some g) (g' : Tg) :
    (s.setTg r g').tg? r = some g' := by
  obtain ⟨w, hw, hg⟩ := State.wg_of_tg h
  rw [State.setTg_some hw]
  have : r.tg < w.tgs.length := by
    rcases List.getElem?_eq_some_iff.mp hg with ⟨hlt, -⟩
    exact hlt
  simp [State.tg?, Wg.setTg, this]

theorem State.tg?_setTg_ne (s : State) {r q : TgRef} (h : r ≠ q) (g : Tg) : (s.setTg r g).tg? q = s.tg? q := by
  unfold State.setTg
  split
  · rename_i w hw
    by_cases hn : r.wg = q.wg
    · have ht : r.tg ≠ q.tg := fun e => h (by cases r; cases q; simp_all)
      simp only [State.tg?, ← hn, State.wg?_setWg_self, hw, Option.bind_some, Wg.setTg]
      exact List.getElem?_set_ne ht
    · simp only [State.tg?, State.wg?_setWg_ne s hn]
  · rfl

theorem State.updTg_some {s : State} {r : TgRef} {g : Tg} (h : s.tg? r = some g) (f : Tg → Tg) :
    s.updTg r f = s.setTg r (f g) := by simp [State.updTg, h]

/-- Two updates of one thread group in a row leave what the last one says. -/
theorem State.setTg_setTg {s : State} {r : TgRef} {w : Wg} (h : s.wg? r.wg = some w) (g g' : Tg) :
    (s.setTg r g).setTg r g' = s.setTg r g' := by
  rw [State.setTg_some h, State.setTg_some h, State.setTg_some (State.wg?_setWg_self ..)]
  simp only [Wg.setTg, List.set_set, State.setWg]
  congr 1
  generalize s.wgs = m
  induction m with
  | nil => simp [ins]
  | cons a m ih =>
    obtain ⟨j, x⟩ := a
    by_cases h1 : j < r.wg
    · simp [ins, h1, ih]
    · by_cases h2 : j = r.wg <;> simp [ins, h1, h2]

end Sys2Proof.Machine
end

