-- ==== Sys2Proof/Laws/Issue.lean ====
section
/-! SUPPORT. What the issue of an undisturbed instruction does: its operands supply what they hold, no check fails, and
its effect is performed and retired. -/

namespace Sys2Proof.Safety

open Sys2Proof.Machine

/-! ### Operands -/

/-- A read of a register that nothing is about to write receives the word it holds. -/
theorem readWord_settled {g : Tg} {k : RKey} (h : g.readsEarly k = false) (tick ix : Nat) : g.readWord tick ix k = g.word k := by
  unfold Tg.readsEarly at h
  simp only [Bool.or_eq_false_iff, Bool.not_eq_false', List.isEmpty_iff] at h
  obtain ⟨⟨h1, h2⟩, -⟩ := h
  simp [Tg.readWord, h1, h2]

/-- The words with which a source enters an issue: a window's, or none. -/
def entered (s : State) (e : Env) (x : Src) : List CWord := match x.opd with | .win _ _ => windowOf s e x | _ => []

theorem read_given {s : State} {e : Env} {ls : List Nat} {x : Src} (h : Readable s e ls x) {l : Nat} (hl : l ∈ ls) :
    x.read e (entered s e x) l = given s e x l := by
  unfold Src.read given entered
  cases hx : x.opd with
  | imm w => rfl
  | win n off => rfl
  | reg r =>
    simp only [Src.keys, hx, List.map_map]
    refine List.map_congr_left fun k hk => ?_
    exact readWord_settled (h.1 l hl _ (by simp only [Src.keys, hx]; exact List.mem_map_of_mem hk)).1 ..

theorem window_entered {s : State} {e : Env} {ls : List Nat} {x : Src} (h : Readable s e ls x) :
    x.window s e = (s, .words (entered s e x)) := by
  cases hx : x.opd with
  | win n off => simpa [entered, hx] using (h.2.1 n off hx).1
  | reg r => simp [Src.window, entered, hx]
  | imm w => simp [Src.window, entered, hx]

theorem readWindows_ready {s : State} {e : Env} {xs : List Src} {ls : Src → List Nat} (h : ∀ x ∈ xs, Readable s e (ls x) x) :
    readWindows s e xs = (s, xs.map fun x => (x, entered s e x), .go) := by
  induction xs with
  | nil => rfl
  | cons x xs ih =>
    have hx := window_entered (h x (by simp))
    simp [readWindows, hx, ih fun y hy => h y (by simp [hy])]

/-! ### The environment -/

theorem env?_iff {s : State} {h : Hints} {e : Env} (he : env? s h = some e) :
    s.cur = some e.r ∧ s.wg? e.r.wg = some e.w ∧ s.tg? e.r = some e.g ∧ e.set = e.g.shot.set ∧ e.pc = e.g.shot.pc ∧
      e.part = ((members e.g.shot.set).filter fun l => decide (l < e.g.threads.length) && takesPart e.g s.tick h l) ∧
      e.tick = s.tick := by
  unfold env? at he
  split at he
  · cases he
  · split at he
    · split at he
      · cases he; simp_all
      · cases he
    · cases he

theorem mem_part {s : State} {h : Hints} {e : Env} (he : env? s h = some e) {l : Nat} (hl : l ∈ e.part) :
    l < 64 ∧ l < e.g.threads.length ∧ e.set.getLsbD l = true := by
  obtain ⟨-, -, -, h4, -, h6, -⟩ := env?_iff he
  rw [h6] at hl
  simp only [List.mem_filter, members, List.mem_range, Bool.and_eq_true, decide_eq_true_eq] at hl
  rw [h4]
  exact ⟨hl.1.1, hl.2.1, hl.1.2⟩

theorem part_lanesRead {s : State} {e : Env} {p : Plan} (h : Ready s e p) {l : Nat} (hl : l ∈ e.part) (x : Src) :
    l ∈ lanesRead e p x := by
  unfold lanesRead
  split
  · have := (mem_part h.env hl).1
    exact List.mem_range.mpr (by omega)
  · exact hl

/-- The context after the operands have been read, with what the result stage formed. -/
def readCtx (s : State) (e : Env) (p : Plan) (fs : List (Nat × LaneRes) := []) : Ctx :=
  { s := s, e := e, srcs := p.srcs.map fun x => (x, entered s e x), formed := fs }

theorem src_given {s : State} {e : Env} {p : Plan} (h : Ready s e p) {l : Nat} (hl : l ∈ e.part) (i : Nat) :
    (readCtx s e p).src i l = words s e p.srcs i l := by
  simp only [Ctx.src, readCtx, words, List.getElem?_map]
  cases hx : p.srcs[i]? with
  | none => simp
  | some x =>
    have hm : x ∈ p.srcs := List.mem_of_getElem? hx
    simpa using read_given (h.srcs x hm) (part_lanesRead h hl x)

/-- What a source holds in any lane in which it is read. -/
theorem src_given_lane {s : State} {e : Env} {p : Plan} (h : Ready s e p) {i : Nat} {x : Src} (hx : p.srcs[i]? = some x) {l : Nat}
    (hl : l ∈ lanesRead e p x) : (readCtx s e p).src i l = given s e x l := by
  simp only [Ctx.src, readCtx, List.getElem?_map, hx, Option.map_some]
  exact read_given (h.srcs x (List.mem_of_getElem? hx)) hl

theorem val_value {s : State} {e : Env} {p : Plan} (h : Ready s e p) {l : Nat} (hl : l ∈ e.part) (i : Nat) :
    (readCtx s e p).val i l = value s e p.srcs i l := by
  rw [Ctx.val, src_given h hl]; rfl

theorem bad_tainted {s : State} {e : Env} {p : Plan} (h : Ready s e p) {l : Nat} (hl : l ∈ e.part) :
    (readCtx s e p).bad l = tainted s e p.srcs l := by
  simp only [Ctx.bad, readCtx, tainted, List.any_map]
  refine Bool.eq_iff_iff.mpr ?_
  simp only [List.any_eq_true]
  constructor
  · rintro ⟨x, hx, hb⟩
    exact ⟨x, hx, by rw [← read_given (h.srcs x hx) (part_lanesRead h hl x)]; exact hb⟩
  · rintro ⟨x, hx, hb⟩
    exact ⟨x, hx, by simpa [read_given (h.srcs x hx) (part_lanesRead h hl x)] using hb⟩

/-! ### No check of the operands fails -/

/-- Lanes in which a source is read take part. -/
theorem lanes_part {e : Env} (h : e.part ≠ []) {x : Src} {l : Nat} (hl : l ∈ x.lanes e) : l ∈ e.part := by
  unfold Src.lanes at hl
  split at hl
  · obtain ⟨a, as, hp⟩ := List.exists_cons_of_ne_nil h
    simp only [List.mem_singleton, hp, List.headD_cons] at hl
    simp [hp, hl]
  · exact hl

theorem lanesOf_sub {s : State} {e : Env} {p : Plan} (h : e.part ≠ []) {fs : List (Nat × LaneRes)} {x : Src} {l : Nat} (hl : l ∈ (readCtx s e p fs).lanesOf p x) :
    l ∈ lanesRead e p x := by
  unfold Ctx.lanesOf at hl
  unfold lanesRead
  have lanes : ∀ l ∈ x.lanes e, l ∈ e.part := fun _ => lanes_part h
  split at hl
  · rename_i f hf
    split at hl
    · rename_i hx
      simp only [hf, Option.isSome_some, hx, Bool.and_self, if_true, List.mem_range]
      have := (List.mem_filter.mp hl).1
      have hw : l < e.g.width := by simpa [readCtx] using this
      omega
    · rename_i hx
      simp only [hf, Option.isSome_some, hx, Bool.true_and]
      exact lanes l hl
  · rename_i hf
    simp only [hf, Option.isSome_none, Bool.false_and]
    exact lanes l hl

theorem passes_of_keys {s : State} {e : Env} {ls : List Nat} {x : Src} (h : Readable s e ls x) (hr : x.raw = false) {l : Nat}
    (hl : l ∈ ls) : (given s e x l).all CWord.passes = true ∨ x.keys l = [] := by
  cases hx : x.opd with
  | reg r =>
    refine .inl (List.all_eq_true.mpr fun w hw => ?_)
    simp only [given, hx, List.mem_map] at hw
    obtain ⟨k, hk, rfl⟩ := hw
    exact (h.1 l hl k hk).2 hr
  | win n off => exact .inr (by simp [Src.keys, hx])
  | imm w => exact .inr (by simp [Src.keys, hx])

theorem firstFailing_none {e : Env} {lanes : Src → List Nat} {ok : CWord → Bool} {xs : List (Src × List CWord)}
    (h : ∀ x ∈ xs, ∀ l ∈ lanes x.1, (x.1.read e x.2 l).all ok = true) : firstFailing e lanes ok xs = none := by
  induction xs with
  | nil => rfl
  | cons x xs ih =>
    obtain ⟨x, win⟩ := x
    have hx : (lanes x).filter (fun l => !(x.read e win l).all ok) = [] := by
      rw [List.filter_eq_nil_iff]
      intro l hl
      simp [h (x, win) (by simp) l hl]
    simp [firstFailing, failing, hx, ih fun y hy => h y (by simp [hy])]

theorem repair_ready {s : State} {e : Env} {p : Plan} (h : Ready s e p) : (readCtx s e p).repair p = readCtx s e p := by
  unfold Ctx.repair
  split
  · rfl
  · have : ∀ ks : List RKey, (∀ k ∈ ks, (e.g.word k).passes = true) →
        ks.foldl (fun (a : State × Env) k => repairWord a.1 a.2 k) (s, e) = (s, e) := by
      intro ks hk
      induction ks with
      | nil => rfl
      | cons k ks ih =>
        have hp := hk k (by simp)
        have : repairWord s e k = (s, e) := by
          cases k <;> simp [repairWord, hp]
        simp only [List.foldl_cons, this]
        exact ih fun k' hk' => hk k' (by simp [hk'])
    have hs := this (p.srcs.flatMap fun x => if x.raw then [] else ((readCtx s e p).lanesOf p x).flatMap x.keys) (by
      intro k hk
      simp only [List.mem_flatMap] at hk
      obtain ⟨x, hx, hk⟩ := hk
      split at hk
      · cases hk
      · rename_i hr
        obtain ⟨l, hl, hk⟩ := List.mem_flatMap.mp hk
        exact ((h.srcs x hx).1 l (lanesOf_sub h.takes hl) k hk).2 (by simpa using hr))
    simp only [readCtx] at hs ⊢
    simp only [hs]

theorem linkFailing_ready {s : State} {e : Env} {p : Plan} {fs : List (Nat × LaneRes)} (h : Ready s e p) {ok : CWord → Bool}
    (hok : ∀ w : CWord, w.passes = true → w.bad = false → ok w = true) : (readCtx s e p fs).linkFailing p ok = none := by
  unfold Ctx.linkFailing
  split
  · rename_i hp
    have : e.part.filter (fun l => !(linkOf e l).all ok) = [] := by
      rw [List.filter_eq_nil_iff]
      intro l hl
      have := fun w hw => hok w (h.links hp l hl w hw).1 (h.links hp l hl w hw).2
      simp only [Bool.not_eq_true', Bool.not_eq_false, List.all_eq_true]
      exact this
    show failing e.part ok (linkOf e) = none
    simp [failing, this]
  · rfl

theorem readFailure_ready {s : State} {e : Env} {p : Plan} {fs : List (Nat × LaneRes)} (h : Ready s e p) : (readCtx s e p fs).readFailure p = none := by
  unfold Ctx.readFailure
  rw [firstFailing_none, linkFailing_ready h fun _ hw _ => hw]
  · rfl
  intro x hx l hl
  simp only [readCtx, List.mem_filter, List.mem_map, Bool.and_eq_true, Bool.not_eq_true', bne_iff_ne] at hx
  obtain ⟨⟨y, hy, rfl⟩, hr, hk⟩ := hx
  have hl' := lanesOf_sub h.takes hl
  show (y.read e (entered s e y) l).all CWord.passes = true
  rw [read_given (h.srcs y hy) hl']
  rcases passes_of_keys (h.srcs y hy) hr hl' with hp | hp
  · exact hp
  · exfalso
    apply hk
    cases hy' : y.opd with
    | reg r =>
      simp only [Src.keys, hy', List.map_eq_nil_iff, List.range_eq_nil] at hp ⊢
      exact hp
    | win n off => simp [Src.keys, hy']
    | imm w => simp [Src.keys, hy']

theorem poisonFailure_ready {s : State} {e : Env} {p : Plan} {fs : List (Nat × LaneRes)} (h : Ready s e p) : (readCtx s e p fs).poisonFailure p = none := by
  unfold Ctx.poisonFailure
  rw [firstFailing_none, linkFailing_ready h fun _ _ hw => by simp [hw]]
  · rfl
  intro x hx l hl
  simp only [readCtx, List.mem_filter, List.mem_map] at hx
  obtain ⟨⟨y, hy, rfl⟩, hc⟩ := hx
  have hp : l ∈ e.part := by
    simp only [readCtx] at hl
    split at hl
    · exact List.mem_of_mem_take hl
    · exact lanes_part h.takes hl
  have hl' := part_lanesRead h hp y
  show (y.read e (entered s e y) l).all (fun w => !w.bad) = true
  rw [read_given (h.srcs y hy) hl']
  have := (h.srcs y hy).2.2 hc l (by
    split
    · rename_i hf
      simpa only [readCtx, hf, if_true] using hl
    · exact hl')
  simpa [anyBad, List.any_eq_false, List.all_eq_true] using this

theorem stallFailure_ready {s : State} {e : Env} {p : Plan} {fs : List (Nat × LaneRes)} (h : Ready s e p) : (readCtx s e p fs).stallFailure p = none := by
  unfold Ctx.stallFailure
  split
  · rfl
  · have h1 : (readCtx s e p fs).srcs.filterMap (fun x =>
        let bad := ((readCtx s e p fs).lanesOf p x.1).filter fun l => (x.1.keys l).any (readCtx s e p fs).e.g.readsEarly
        if bad.isEmpty then none else some (stallCause x.1.field, reported (readCtx s e p fs).e x.1 bad)) = [] := by
      rw [List.filterMap_eq_nil_iff]
      intro x hx
      simp only [readCtx, List.mem_map] at hx
      obtain ⟨y, hy, rfl⟩ := hx
      have : ((readCtx s e p fs).lanesOf p y).filter (fun l => (y.keys l).any (readCtx s e p fs).e.g.readsEarly) = [] := by
        rw [List.filter_eq_nil_iff]
        intro l hl
        simp only [List.any_eq_true, not_exists, not_and, Bool.not_eq_true]
        intro k hk
        exact ((h.srcs y hy).1 l (lanesOf_sub h.takes hl) k hk).1
      simp only [this, List.isEmpty_nil, if_true]
    have h2 : selectStall e p.h = none := by
      have : (members e.set).filter (fun l => decide (p.h.gidx.toNat < 8) && e.g.readsEarly (.g p.h.gidx.toNat l)) = [] := by
        rw [List.filter_eq_nil_iff]
        intro l hl
        by_cases hg : p.h.gidx.toNat < 8
        · simp [h.selects hg l hl]
        · simp [hg]
      simp [selectStall, this]
    have h3 : p.guards.filterMap (fun i =>
        let bad := e.part.filter fun l => ([RKey.g i.toNat l]).any e.g.readsEarly
        if bad.isEmpty then none else some (stallCause 5, maskOf bad)) = [] := by
      rw [List.filterMap_eq_nil_iff]
      intro i hi
      have : e.part.filter (fun l => ([RKey.g i.toNat l]).any e.g.readsEarly) = [] := by
        rw [List.filter_eq_nil_iff]
        intro l hl
        simp [h.guards i hi l hl]
      simp only [this, List.isEmpty_nil, if_true]
    have h1' := h1
    simp only [readCtx] at h1' ⊢
    simp only [h1', h2, Option.toList_none, List.nil_append]
    exact congrArg List.head? h3

/-! ### The result stage -/

theorem error_ready {s : State} {e : Env} {p : Plan} (h : Ready s e p) (l : Nat) (r : LaneRes) (k : Nat) : (readCtx s e p).error p l r k = 0#32 := by
  have key : ∀ q : Upset → Bool, (∀ u ∈ s.strikes, q u = false) → (readCtx s e p).s.strikes.find? q = none := by
    intro q hq
    rw [List.find?_eq_none]
    intro u hu
    simp [hq u hu]
  have h2 : (readCtx s e p).srcs.any (fun x => !x.1.raw && x.2.any fun w => !w.passes) = false := by
    simp only [readCtx, List.any_map, List.any_eq_false, Function.comp, Bool.and_eq_true, Bool.not_eq_true', not_and]
    intro x hx hr
    cases hy : x.opd with
    | win n off =>
      have := ((h.srcs x hx).2.1 n off hy).2 hr
      simpa [entered, hy, List.all_eq_true] using this
    | reg r => simp [entered, hy]
    | imm w => simp [entered, hy]
  unfold Ctx.error
  simp only [h2, Bool.and_false]
  rw [key]
  · rfl
  · intro u hu
    cases u with
    | result r t w d =>
      have := h.calm _ hu
      simp only [Upset.forms] at this
      simp [readCtx, this]
    | _ => rfl

theorem strike_ready {s : State} {e : Env} {p : Plan} (h : Ready s e p) (l : Nat) (r : LaneRes) :
    (readCtx s e p).strike p l r = r := by
  unfold Ctx.strike
  have : (r.words.zip (List.range r.words.length)).map (fun wk => wk.1 ^^^ (readCtx s e p).error p l r wk.2) = r.words := by
    simp only [error_ready h, BitVec.xor_zero]
    apply List.ext_getElem <;> simp
  rw [this]

/-- The lanes for which a result is formed. -/
def formLanes (e : Env) (p : Plan) : List Nat := if p.once then e.part.take 1 else e.part

theorem context_eq {s : State} {e : Env} {p : Plan} (h : Ready s e p) (form : Ctx → Nat → LaneRes) :
    context s e p form = readCtx s e p ((formLanes e p).map fun l => (l, form (readCtx s e p) l)) := by
  have : context s e p form = (readCtx s e p).form p form := rfl
  rw [this]
  unfold Ctx.form formLanes
  simp only [strike_ready h]
  rfl

/-- A lane that passes its own check. -/
def Sound (r : LaneRes) : Prop := r.stage = none

theorem upStages_calm {c : Ctx} (h : ∀ u ∈ c.s.strikes, u.forms c.e.r = false) (p : Plan) (l : Nat) (r : LaneRes) :
    c.upStages p l r = [] := by
  unfold Ctx.upStages
  split
  · rfl
  · rw [List.filterMap_eq_nil_iff]
    intro u hu
    have := h u hu
    cases u with
    | stage q t st err =>
      simp only [Upset.forms] at this
      simp [this]
    | _ => rfl

theorem resultFailure_none {c : Ctx} {p : Plan} (calm : ∀ u ∈ c.s.strikes, u.forms c.e.r = false) (h : ∀ lr ∈ c.formed, Sound lr.2) :
    c.resultFailure p = none := by
  unfold Ctx.resultFailure
  have : c.formed.flatMap (c.failedStages p) = [] := by
    rw [List.flatMap_eq_nil_iff]
    intro lr hlr
    have : lr.2.stage = none := h lr hlr
    simp [Ctx.failedStages, this, upStages_calm calm]
  rw [this]

theorem clearStrikes_calm {s : State} {r : TgRef} (h : ∀ u ∈ s.strikes, u.forms r = false) : s.clearStrikes r = s := by
  unfold State.clearStrikes
  have : s.strikes.filter (fun u => !u.forms r) = s.strikes := by
    rw [List.filter_eq_self]
    intro u hu
    simp [h u hu]
  rw [this]

/-! ### The issue -/

/-- An undisturbed instruction whose own checks let it go performs its effect and retires. -/
theorem issue_ready {s : State} {e : Env} {p : Plan} (h : Ready s e p) (form : Ctx → Nat → LaneRes)
    (late : Ctx → Ctx × Verdict) (act : Ctx → State)
    (sound : ∀ l ∈ formLanes e p, Sound (form (readCtx s e p) l))
    (usual : p.reserved (context s e p form) = false)
    {c : Ctx} (go : late (context s e p form) = (c, .go)) (he : c.e = e) :
    issue s p form late act = .next (retired e p.h p.cut (act { c with s := c.s.clearStrikes e.r })) := by
  have hp : e.part.isEmpty = false := by simpa [List.isEmpty_iff] using h.takes
  have hctx := context_eq h form
  have hform : (readCtx s e p).form p form = context s e p form := rfl
  have hr : (context s e p form).readFailure p = none := by
    rw [hctx]; exact readFailure_ready h
  have hq : (context s e p form).poisonFailure p = none := by
    rw [hctx]; exact poisonFailure_ready h
  have hst : (context s e p form).stallFailure p = none := by
    rw [hctx]; exact stallFailure_ready h
  have hres : (context s e p form).resultFailure p = none := by
    rw [hctx]
    refine resultFailure_none h.calm ?_
    intro lr hlr
    obtain ⟨l, hl, rfl⟩ := List.mem_map.mp hlr
    exact sound l hl
  unfold issue
  rw [h.env]
  unfold issueAt
  simp only [h.cancel, h.legal, h.role, hp, Bool.false_eq_true, if_false, Bool.not_true, Bool.false_and]
  rw [readWindows_ready h.srcs]
  have hrep : (Ctx.start s e (p.srcs.map fun x => (x, entered s e x))).repair p = readCtx s e p := repair_ready h
  simp only [hrep, hform]
  unfold decide_
  have hv : firstVerdict .go .go = .go := rfl
  simp only [hr, hres, hq, hst, usual, Bool.and_false, Bool.false_eq_true, if_false, go, hv, beq_self_eq_true, Bool.true_or, if_true]
  simp only [finish, retired, he]
  have : (context s e p form).e = e := by rw [hctx]; rfl
  rw [this]

end Sys2Proof.Safety
end

