-- ==== Sys2Proof/Laws/LaneChecks.lean ====
section
/-! SUPPORT. The result checks raise no false alarm: what an instruction of the integer and logic groups forms agrees with
its prediction (R25, R26, Table 2.2). -/

namespace Sys2Proof.Safety

open Sys2Proof.Machine

/-! ### Residues -/

theorem res_mod (w : Word) : res w = w.toNat % 15 := by
  have step : ∀ x : Nat, x = x % 16 + 16 * (x / 16) := fun x => (Nat.mod_add_div x 16).symm
  have next : ∀ x k : Nat, x / 2 ^ (k + 4) = x / 2 ^ k / 16 := fun x k => by rw [Nat.pow_add, ← Nat.div_div_eq_div_mul]
  have h := w.isLt
  simp only [res, BitVec.extractLsb'_toNat, Nat.shiftRight_eq_div_pow, next w.toNat 0, next w.toNat 4, next w.toNat 8,
    next w.toNat 12, next w.toNat 16, next w.toNat 20, next w.toNat 24, Nat.pow_zero, Nat.div_one]
  generalize w.toNat = x at h ⊢
  have h1 := step x
  have h2 := step (x / 16)
  have h3 := step (x / 16 / 16)
  have h4 := step (x / 16 / 16 / 16)
  have h5 := step (x / 16 / 16 / 16 / 16)
  have h6 := step (x / 16 / 16 / 16 / 16 / 16)
  have h7 := step (x / 16 / 16 / 16 / 16 / 16 / 16)
  have h8 : x / 16 / 16 / 16 / 16 / 16 / 16 / 16 < 16 := by omega
  simp only [show (2 : Nat) ^ 4 = 16 from rfl, Nat.mod_eq_of_lt h8]
  omega

theorem rn_def (x : Nat) : rn x = ((x % 15 : Nat) : Int) := rfl

theorem m15_lt (x : Int) : m15 x < 15 := by unfold m15; omega

theorem m15_val (x : Int) : (m15 x : Int) = x % 15 := by unfold m15; omega

/-- A prediction whose number has the residue of a value. -/
theorem m15_of {x : Int} {v : Nat} (h : ∃ z : Int, x = v + 15 * z) : m15 x = v % 15 := by
  obtain ⟨z, rfl⟩ := h
  unfold m15; omega

theorem resWords_wordsOf {n : Nat} (hn : n = 32 ∨ n = 64) (v : Nat) : resWords (wordsOf n v) = v % 2 ^ n % 15 := by
  rcases hn with rfl | rfl
  · simp [resWords, wordsOf, res_mod]
  · simp only [resWords, wordsOf, res_mod, BitVec.toNat_ofNat, beq_self_eq_true, if_true, List.map_cons, List.map_nil,
      List.sum_cons, List.sum_nil]
    have h1 : v % 2 ^ 64 = v % 2 ^ 32 + 2 ^ 32 * (v / 2 ^ 32 % 2 ^ 32) := by omega
    rw [h1]
    generalize v % 2 ^ 32 = a
    generalize v / 2 ^ 32 % 2 ^ 32 = b
    omega

theorem sound_of_check {r : LaneRes} (h : r.check r.words = none) : Sound r := by
  unfold Sound LaneRes.stage
  split
  · rfl
  · exact h

theorem predicted_one {stage p : Nat} {ws : List Word} (hp : p = resWords ws) : predicted stage [p] ws = none := by
  have h15 : p % 15 = p := by rw [hp]; exact Nat.mod_mod ..
  unfold predicted
  split
  · rename_i hl
    rw [if_pos]
    match ws, hl with
    | [w], _ =>
      have h := res_mod w
      have := w.isLt
      simp only [hp, resWords, List.map_cons, List.map_nil, List.sum_cons, List.sum_nil, beq_iff_eq, List.cons.injEq, and_true]
      omega
  · rw [if_pos]
    simp only [List.sum_cons, List.sum_nil, Nat.add_zero, h15]
    simp [hp]

theorem pred_sound {n v stage p : Nat} {poison : Bool} (hn : n = 32 ∨ n = 64) (hp : p = v % 2 ^ n % 15) :
    Sound (LaneRes.pred n v stage p poison) :=
  sound_of_check (predicted_one (hp.trans (resWords_wordsOf hn v).symm))

/-- A value that fits. -/
theorem pred_sound_lt {n v stage p : Nat} {poison : Bool} (hn : n = 32 ∨ n = 64) (hv : v < 2 ^ n) (hp : p = v % 15) :
    Sound (LaneRes.pred n v stage p poison) := pred_sound hn (by rw [Nat.mod_eq_of_lt hv]; exact hp)

theorem dup_sound (n v : Nat) (poison : Bool) : Sound (LaneRes.dup n v poison) :=
  sound_of_check (by simp [LaneRes.dup, duplicated])

/-- The code of a word that passes and is not Poison. -/
theorem code_of_passes {w : CWord} (h : w.passes = true) (hb : w.bad = false) : w.code.toNat = res w.data := by
  simp only [CWord.passes, hb, Bool.false_or, beq_iff_eq] at h
  rw [h, codeOf, BitVec.toNat_ofNat, res_mod]
  omega

/-- The codes of words that pass, none Poison, are what the words predict. -/
theorem codes_predicted {ws : List CWord} (h : ∀ w ∈ ws, w.passes = true) (hb : ¬(ws.map (·.bad)).any id = true) (st : Nat) :
    predicted st (ws.map fun w => w.code.toNat) (ws.map (·.data)) = none := by
  have codes : (ws.map fun w => w.code.toNat) = (ws.map (·.data)).map res := by
    rw [List.map_map]
    refine List.map_congr_left fun w hw => code_of_passes (h w hw) ?_
    simp only [List.any_map, List.any_eq_true, not_exists, not_and] at hb
    simpa using hb w hw
  simp [predicted, codes]

/-- Words that pass are passed on (R24, R220, R249). -/
theorem chosen_sound {ws : List CWord} (h : ∀ w ∈ ws, w.passes = true) : Sound (LaneRes.chosen ws) := by
  unfold Sound LaneRes.stage
  split
  · rfl
  · exact codes_predicted h ‹_› _

theorem moved_sound {ws : List CWord} (h : ∀ w ∈ ws, w.passes = true) : Sound (LaneRes.moved ws) := by
  unfold Sound LaneRes.stage
  split
  · rfl
  · exact codes_predicted h ‹_› _

theorem sound_stages {r : LaneRes} (h : Sound r) (st : List Nat) (p : Bool) : Sound { r with stages := st, picks := p } := h

theorem m15_rn (v : Nat) : m15 (rn v) = v % 15 := m15_of ⟨-(v / 15 : Nat), by rw [rn_def]; omega⟩

/-! ### Powers of two modulo 15 -/

/-- Widths that are multiples of four bits. -/
def Nibbles (n : Nat) : Prop := ∃ k : Nat, 2 ^ n = 15 * k + 1

theorem nibbles_four (k : Nat) : Nibbles (4 * k) := by
  induction k with
  | zero => exact ⟨0, rfl⟩
  | succ k ih =>
    obtain ⟨j, hj⟩ := ih
    exact ⟨16 * j + 1, by rw [Nat.mul_succ, Nat.pow_add, hj]; omega⟩

theorem nibbles_of {n : Nat} (h : n % 4 = 0) : Nibbles n := by
  have := nibbles_four (n / 4)
  rwa [Nat.mul_div_cancel' (Nat.dvd_of_mod_eq_zero h)] at this

theorem ibits_nibbles (t : IntTy) : Nibbles (ibits t) := nibbles_of (by cases t <;> rfl)

theorem nibbles_int {n : Nat} (h : Nibbles n) : ∃ k : Int, (2 : Int) ^ n = 15 * k + 1 := by
  obtain ⟨k, hk⟩ := h
  exact ⟨k, by exact_mod_cast hk⟩

/-! ### Integers of a width -/

/-- The signed or unsigned number of a value differs from it by a multiple of the modulus. -/
theorem ival_shift {signed : Bool} {n x : Nat} (_hn : 0 < n) (hx : x < 2 ^ n) :
    ival signed n x = x - 2 ^ n * (sgn signed n x : Int) := by
  unfold ival sgn
  cases signed with
  | false => simp
  | true =>
    have h2 : 2 ^ n = 2 * 2 ^ (n - 1) := by
      rw [← Nat.pow_succ']
      congr 1; omega
    simp only [Bool.true_and, decide_eq_true_eq, if_true]
    split
    · rename_i h
      have : x / 2 ^ (n - 1) % 2 = 1 := by
        have h1 : x / 2 ^ (n - 1) = 1 := by
          apply Nat.div_eq_of_lt_le <;> omega
        rw [h1]
      rw [this]; push_cast; omega
    · rename_i h
      have : x / 2 ^ (n - 1) % 2 = 0 := by
        rw [Nat.div_eq_of_lt (by omega)]
      rw [this]; push_cast; omega

theorem wrapInt_lt (n : Nat) (r : Int) : wrapInt n r < 2 ^ n := by
  unfold wrapInt
  have h : (0 : Int) < ((2 ^ n : Nat) : Int) := by exact_mod_cast Nat.two_pow_pos n
  have h1 := Int.emod_nonneg r (ne_of_gt h)
  have h2 := Int.emod_lt_of_pos r h
  omega

/-- A number is the wrapped one and a multiple of the modulus. -/
theorem wrapInt_eq (n : Nat) (r : Int) : ∃ z : Int, r = wrapInt n r + 2 ^ n * z := by
  refine ⟨r / ((2 ^ n : Nat) : Int), ?_⟩
  unfold wrapInt
  have h : (0 : Int) < ((2 ^ n : Nat) : Int) := by exact_mod_cast Nat.two_pow_pos n
  rw [Int.toNat_of_nonneg (Int.emod_nonneg r (ne_of_gt h))]
  have := Int.emod_add_mul_ediv r ((2 ^ n : Nat) : Int)
  push_cast at this ⊢
  omega

/-- What wraps to a number. -/
theorem wrapInt_of {n v : Nat} {r : Int} (hv : v < 2 ^ n) (h : ∃ z : Int, r = v + 2 ^ n * z) : wrapInt n r = v := by
  obtain ⟨z, rfl⟩ := h
  unfold wrapInt
  have : ((v : Int) + 2 ^ n * z) % ((2 ^ n : Nat) : Int) = v := by
    push_cast
    rw [Int.add_mul_emod_self_left]
    exact Int.emod_eq_of_lt (by omega) (by exact_mod_cast hv)
  rw [this]; rfl

theorem elem_lt (n x i : Nat) : elem n x i < 2 ^ n := Nat.mod_lt _ (Nat.two_pow_pos n)

theorem fitInt_lt (clamp signed : Bool) (n : Nat) (r : Int) : fitInt clamp signed n r < 2 ^ n := by
  unfold fitInt
  split <;> exact wrapInt_lt ..

/-- A result that was not clamped is the wrapped one. -/
theorem fitInt_free {clamp signed : Bool} {n : Nat} {r : Int} (h : clamped clamp signed n r = false) :
    fitInt clamp signed n r = wrapInt n r := by
  unfold fitInt
  split
  · rename_i hc
    unfold clamped at h
    simp only [hc, Bool.true_and, Bool.or_eq_false_iff, decide_eq_false_iff_not, not_lt] at h
    rw [min_eq_right h.2, max_eq_right h.1]
  · rfl

/-! ### Elementwise lanes -/

theorem packEls_lt {n : Nat} {l : List Nat} (h : ∀ x ∈ l, x < 2 ^ n) : packEls n l < 2 ^ (n * l.length) := by
  induction l with
  | nil => simp [packEls]
  | cons x xs ih =>
    have hx := h x (by simp)
    have ih := ih fun y hy => h y (by simp [hy])
    simp only [packEls, List.length_cons, Nat.mul_succ, Nat.pow_add]
    have : 2 ^ n * packEls n xs + 2 ^ n ≤ 2 ^ n * 2 ^ (n * xs.length) := by
      rw [← Nat.mul_succ]
      exact Nat.mul_le_mul_left _ ih
    rw [Nat.mul_comm (2 ^ (n * xs.length))]
    omega

theorem packEls_mod {n : Nat} (hn : Nibbles n) (l : List Nat) : packEls n l % 15 = l.sum % 15 := by
  obtain ⟨k, hk⟩ := hn
  induction l with
  | nil => rfl
  | cons x xs ih =>
    simp only [packEls, List.sum_cons, hk, Nat.add_mul, Nat.one_mul, Nat.mul_assoc]
    omega

theorem sum_mod {α : Type} {l : List α} {f g : α → Nat} (h : ∀ x ∈ l, f x % 15 = g x % 15) : (l.map f).sum % 15 = (l.map g).sum % 15 := by
  induction l with
  | nil => rfl
  | cons x xs ih =>
    have h1 := h x (by simp)
    have h2 := ih fun y hy => h y (by simp [hy])
    simp only [List.map_cons, List.sum_cons]
    omega

theorem obits_or (t : IntTy) : obits t = 32 ∨ obits t = 64 := by unfold obits; split <;> simp

theorem obits_split (t : IntTy) : ibits t * (obits t / ibits t) = obits t := by cases t <;> rfl

theorem laneEls_sound {t : IntTy} {stage : Nat} {poison : Bool} {f : Nat → Nat × Nat}
    (h : ∀ i, (f i).1 < 2 ^ ibits t ∧ (f i).2 % 15 = (f i).1 % 15) : Sound (laneEls t stage poison f) := by
  unfold laneEls
  apply pred_sound_lt (obits_or t)
  · have := packEls_lt (n := ibits t) (l := ((List.range (obits t / ibits t)).map f).map (·.1)) (by
      intro x hx
      simp only [List.map_map, List.mem_map, Function.comp] at hx
      obtain ⟨i, -, rfl⟩ := hx
      exact (h i).1)
    simpa [obits_split] using this
  · rw [packEls_mod (ibits_nibbles t)]
    exact sum_mod fun x hx => by
      obtain ⟨i, -, rfl⟩ := List.mem_map.mp hx
      exact (h i).2

theorem ibits_pos (t : IntTy) : 0 < ibits t := by cases t <;> decide

/-! ### Congruences -/

theorem m15_modEq {x : Int} {v : Nat} (h : x ≡ v [ZMOD 15]) : m15 x = v % 15 := by
  unfold m15
  rw [h]
  omega

theorem rn_modEq (x : Nat) : rn x ≡ x [ZMOD 15] := by
  unfold rn Int.ModEq
  omega

theorem pow_modEq {n : Nat} (hn : Nibbles n) : (2 : Int) ^ n ≡ 1 [ZMOD 15] := by
  obtain ⟨k, hk⟩ := nibbles_int hn
  rw [hk]
  unfold Int.ModEq
  omega

theorem mulPow_modEq {n : Nat} (hn : Nibbles n) (z : Int) : (2 : Int) ^ n * z ≡ z [ZMOD 15] := by
  simpa using (pow_modEq hn).mul_right z

/-- A number and its split at a width of whole nibbles. -/
theorem split_modEq {n : Nat} (hn : Nibbles n) (x : Nat) : (x : Int) ≡ (x % 2 ^ n : Nat) + (x / 2 ^ n : Nat) [ZMOD 15] := by
  have h : (x : Int) = (x % 2 ^ n : Nat) + 2 ^ n * (x / 2 ^ n : Nat) := by exact_mod_cast (Nat.mod_add_div x (2 ^ n)).symm
  conv_lhs => rw [h]
  exact (Int.ModEq.refl _).add (mulPow_modEq hn _)

theorem rval_modEq {signed : Bool} {n x : Nat} (hn : Nibbles n) (h0 : 0 < n) (hx : x < 2 ^ n) :
    rval signed n x ≡ ival signed n x [ZMOD 15] := by
  rw [ival_shift h0 hx]
  unfold rval
  exact (rn_modEq x).sub (mulPow_modEq hn _).symm

theorem predAdd_mod {n : Nat} (hn : Nibbles n) (a b c : Nat) : predAdd n a b c = (a + b + c) % 2 ^ n % 15 := by
  apply m15_modEq
  have h := split_modEq hn (a + b + c)
  have h1 := ((rn_modEq a).add (rn_modEq b)).add (Int.ModEq.refl (c : Int))
  have h2 := (h1.trans (by push_cast at h ⊢; exact h)).sub (Int.ModEq.refl (((a + b + c) / 2 ^ n : Nat) : Int))
  refine h2.trans ?_
  push_cast
  rw [Int.add_sub_cancel]

theorem predSub_mod {n : Nat} (hn : Nibbles n) {a b : Nat} (hb : b < 2 ^ n) : predSub n a b = (a + 2 ^ n - b) % 2 ^ n % 15 := by
  apply m15_modEq
  have he : a + (2 ^ n - 1 - b) + 1 = a + 2 ^ n - b := by omega
  rw [he]
  have h := split_modEq hn (a + 2 ^ n - b)
  have hc : ((a + 2 ^ n - b : Nat) : Int) = a - b + 2 ^ n := by
    rw [Nat.cast_sub (by omega)]
    push_cast; ring
  have h1 := ((rn_modEq a).sub (rn_modEq b)).add (pow_modEq hn).symm
  rw [← hc] at h1
  have h2 := (h1.trans h).sub (Int.ModEq.refl (((a + 2 ^ n - b) / 2 ^ n : Nat) : Int))
  refine h2.trans ?_
  rw [Int.add_sub_cancel]

/-! ### Group 0x1 -/

theorem ival_add {signed : Bool} {n x y : Nat} (h0 : 0 < n) (hx : x < 2 ^ n) (hy : y < 2 ^ n) :
    wrapInt n (ival signed n x + ival signed n y) = (x + y) % 2 ^ n := by
  apply wrapInt_of (Nat.mod_lt _ (Nat.two_pow_pos n))
  refine ⟨((x + y) / 2 ^ n : Nat) - sgn signed n x - sgn signed n y, ?_⟩
  have h : ((x + y : Nat) : Int) = ((x + y) % 2 ^ n : Nat) + 2 ^ n * ((x + y) / 2 ^ n : Nat) := by
    exact_mod_cast (Nat.mod_add_div (x + y) (2 ^ n)).symm
  rw [ival_shift h0 hx, ival_shift h0 hy]
  push_cast at h ⊢
  linear_combination h

theorem ival_sub {signed : Bool} {n x y : Nat} (h0 : 0 < n) (hx : x < 2 ^ n) (hy : y < 2 ^ n) :
    wrapInt n (ival signed n x - ival signed n y) = (x + 2 ^ n - y) % 2 ^ n := by
  apply wrapInt_of (Nat.mod_lt _ (Nat.two_pow_pos n))
  refine ⟨((x + 2 ^ n - y) / 2 ^ n : Nat) - 1 - sgn signed n x + sgn signed n y, ?_⟩
  have h : ((x + 2 ^ n - y : Nat) : Int) = ((x + 2 ^ n - y) % 2 ^ n : Nat) + 2 ^ n * ((x + 2 ^ n - y) / 2 ^ n : Nat) := by
    exact_mod_cast (Nat.mod_add_div (x + 2 ^ n - y) (2 ^ n)).symm
  have hc : ((x + 2 ^ n - y : Nat) : Int) = x - y + 2 ^ n := by
    rw [Nat.cast_sub (by omega)]
    push_cast; ring
  rw [ival_shift h0 hx, ival_shift h0 hy]
  rw [hc] at h
  push_cast at h ⊢
  linear_combination h

theorem iadd_sound (t : IntTy) (clamp : Bool) (a b : Nat) (poison : Bool) : Sound (laneIadd t clamp a b poison) := by
  apply laneEls_sound
  intro i
  refine ⟨fitInt_lt .., ?_⟩
  dsimp only
  cases hc : clamped clamp t.signed (ibits t) (ival t.signed (ibits t) (elem (ibits t) a i) + ival t.signed (ibits t) (elem (ibits t) b i)) with
  | true => rw [if_pos rfl, m15_rn, Nat.mod_mod]
  | false =>
    rw [if_neg Bool.false_ne_true, fitInt_free hc, ival_add (ibits_pos t) (elem_lt ..) (elem_lt ..), predAdd_mod (ibits_nibbles t)]
    simp

theorem isub_sound (t : IntTy) (clamp : Bool) (a b : Nat) (poison : Bool) : Sound (laneIsub t clamp a b poison) := by
  apply laneEls_sound
  intro i
  refine ⟨fitInt_lt .., ?_⟩
  dsimp only
  cases hc : clamped clamp t.signed (ibits t) (ival t.signed (ibits t) (elem (ibits t) a i) - ival t.signed (ibits t) (elem (ibits t) b i)) with
  | true => rw [if_pos rfl, m15_rn, Nat.mod_mod]
  | false =>
    rw [if_neg Bool.false_ne_true, fitInt_free hc, ival_sub (ibits_pos t) (elem_lt ..) (elem_lt ..),
      predSub_mod (ibits_nibbles t) (elem_lt ..), Nat.mod_mod]

theorem ineg_sound (t : IntTy) (clamp : Bool) (b : Nat) (poison : Bool) : Sound (laneIneg t clamp b poison) := isub_sound ..

theorem elem_zero (n i : Nat) : elem n 0 i = 0 := by simp [elem]

theorem ival_zero (signed : Bool) (n : Nat) : ival signed n 0 = 0 := by
  unfold ival
  have := Nat.two_pow_pos (n - 1)
  cases signed <;> simp

theorem iabs_sound (t : IntTy) (clamp : Bool) (b : Nat) (poison : Bool) : Sound (laneIabs t clamp b poison) := by
  apply laneEls_sound
  intro i
  refine ⟨fitInt_lt .., ?_⟩
  dsimp only
  have hy := elem_lt (ibits t) b i
  generalize elem (ibits t) b i = y at hy ⊢
  have h0 := ibits_pos t
  have hn := ibits_nibbles t
  generalize ibits t = n at *
  generalize t.signed = sg
  cases hc : clamped clamp sg n (ival sg n y).natAbs with
  | true => rw [if_pos rfl, m15_rn, Nat.mod_mod]
  | false =>
    rw [if_neg Bool.false_ne_true, fitInt_free hc]
    by_cases hs : ival sg n y < 0
    · rw [if_pos hs, predSub_mod hn hy]
      have h := ival_sub (signed := sg) (x := 0) h0 (Nat.two_pow_pos n) hy
      rw [ival_zero] at h
      rw [← h, show ((ival sg n y).natAbs : Int) = 0 - ival sg n y by omega, Nat.mod_mod]
    · rw [if_neg hs, m15_rn, show ((ival sg n y).natAbs : Int) = ival sg n y by omega]
      rw [wrapInt_of hy ⟨-(sgn sg n y : Int), by rw [ival_shift h0 hy]; ring⟩, Nat.mod_mod]

theorem ielem_nibble_sum (l : List Nat) :
    ((l.map fun e => m15 (rn e)).sum) % 15 = l.sum % 15 := by
  conv_rhs => rw [← List.map_id l]
  exact sum_mod fun x _ => by rw [m15_rn]; simp

/-- A word packed from elements that fit, each of which is predicted. -/
theorem packed_sound {n stage p : Nat} {poison : Bool} {l : List Nat} (hn : Nibbles n) (hl : n * l.length = 32)
    (h : ∀ x ∈ l, x < 2 ^ n) (hp : p = l.sum % 15) : Sound (LaneRes.pred 32 (packEls n l) stage p poison) := by
  apply pred_sound_lt (.inl rfl)
  · have := packEls_lt h
    rwa [hl] at this
  · rw [packEls_mod hn, hp]

theorem choose_sound (t : IntTy) {a b : List CWord} (ha : ∀ w ∈ a, w.passes = true) (hb : ∀ w ∈ b, w.passes = true)
    (pick : Nat → Bool) : Sound (laneChoose t a b pick) := by
  unfold laneChoose
  split
  · exact sound_stages (chosen_sound (by split <;> assumption)) ..
  · rename_i h64
    dsimp only
    apply packed_sound (ibits_nibbles t)
    · cases t <;> simp_all [ibits, IntTy.is64]
    · intro x hx
      obtain ⟨i, -, rfl⟩ := List.mem_map.mp hx
      split <;> exact elem_lt ..
    · refine sum_mod fun i _ => ?_
      rw [m15_rn, Nat.mod_mod]

theorem imin_sound (t : IntTy) {a b : List CWord} (ha : ∀ w ∈ a, w.passes = true) (hb : ∀ w ∈ b, w.passes = true) :
    Sound (laneImin t a b) := choose_sound t ha hb _
theorem imax_sound (t : IntTy) {a b : List CWord} (ha : ∀ w ∈ a, w.passes = true) (hb : ∀ w ∈ b, w.passes = true) :
    Sound (laneImax t a b) := choose_sound t ha hb _

theorem iclamp_sound (t : IntTy) {a b c : List CWord} (ha : ∀ w ∈ a, w.passes = true) (hb : ∀ w ∈ b, w.passes = true)
    (hc : ∀ w ∈ c, w.passes = true) : Sound (laneIclamp t a b c) := by
  unfold laneIclamp
  dsimp only
  split
  · exact sound_stages (chosen_sound (by split <;> assumption)) ..
  · apply packed_sound (ibits_nibbles t)
    · cases t <;> simp_all [ibits, IntTy.is64]
    · intro x hx
      obtain ⟨i, -, rfl⟩ := List.mem_map.mp hx
      exact elem_lt ..
    · exact ielem_nibble_sum _

/-! ### Products -/

theorem ival_bounds {signed : Bool} {n x : Nat} (h0 : 0 < n) (hx : x < 2 ^ n) :
    (if signed then -(2 : Int) ^ (n - 1) else 0) ≤ ival signed n x ∧
      ival signed n x < if signed then (2 : Int) ^ (n - 1) else 2 ^ n := by
  have h2 : (2 : Int) ^ n = 2 * 2 ^ (n - 1) := by
    rw [← pow_succ']
    congr 1; omega
  have hx' : (x : Int) < 2 ^ n := by exact_mod_cast hx
  cases signed with
  | false => simp only [ival, Bool.false_and, Bool.false_eq_true, if_false]; omega
  | true =>
    simp only [ival, Bool.true_and, decide_eq_true_eq, if_true]
    split
    · rename_i h
      have : (2 : Int) ^ (n - 1) ≤ x := by exact_mod_cast h
      omega
    · rename_i h
      have : (x : Int) < 2 ^ (n - 1) := by exact_mod_cast Nat.lt_of_not_le h
      omega

theorem prod_bounds {signed : Bool} {n x y : Nat} (h0 : 0 < n) (hx : x < 2 ^ n) (hy : y < 2 ^ n) :
    (if signed then -(2 : Int) ^ (2 * n - 1) else 0) ≤ ival signed n x * ival signed n y ∧
      ival signed n x * ival signed n y < if signed then (2 : Int) ^ (2 * n - 1) else 2 ^ (2 * n) := by
  have hbx := ival_bounds (signed := signed) h0 hx
  have hby := ival_bounds (signed := signed) h0 hy
  have hp : (0 : Int) < 2 ^ (n - 1) := by positivity
  have hq : (2 : Int) ^ (2 * n - 1) = 2 * 2 ^ (n - 1) * 2 ^ (n - 1) := by
    rw [← pow_succ', ← pow_add]
    congr 1; omega
  have hn2 : (2 : Int) ^ (2 * n) = 2 ^ n * 2 ^ n := by rw [← pow_add]; congr 1; omega
  cases signed with
  | false =>
    simp only [Bool.false_eq_true, if_false] at *
    rw [hn2]
    exact ⟨by nlinarith, by nlinarith⟩
  | true =>
    simp only [if_true] at *
    rw [hq]
    constructor <;> nlinarith

/-- The wrapped product of twice the width, read with its sign, is the product. -/
theorem prod_split {signed : Bool} {n x y : Nat} (h0 : 0 < n) (hx : x < 2 ^ n) (hy : y < 2 ^ n) :
    ival signed n x * ival signed n y = wrapInt (2 * n) (ival signed n x * ival signed n y) -
      2 ^ (2 * n) * (sgn signed (2 * n) (wrapInt (2 * n) (ival signed n x * ival signed n y)) : Int) := by
  have hb := prod_bounds (signed := signed) h0 hx hy
  generalize ival signed n x * ival signed n y = r at hb ⊢
  have hw := wrapInt_lt (2 * n) r
  rw [← ival_shift (by omega) hw]
  obtain ⟨z, hz⟩ := wrapInt_eq (2 * n) r
  have hi := ival_bounds (signed := signed) (by omega) hw
  have hs := ival_shift (signed := signed) (by omega) hw
  have h2 : (2 : Int) ^ (2 * n) = 2 * 2 ^ (2 * n - 1) := by
    rw [← pow_succ']
    congr 1; omega
  have hp : (0 : Int) < 2 ^ (2 * n - 1) := by positivity
  generalize ival signed (2 * n) (wrapInt (2 * n) r) = v at *
  have hv : r = v + 2 ^ (2 * n) * (z + sgn signed (2 * n) (wrapInt (2 * n) r)) := by rw [hs]; linarith
  generalize z + (sgn signed (2 * n) (wrapInt (2 * n) r) : Int) = q at hv
  have : q = 0 := by
    cases signed with
    | false =>
      simp only [Bool.false_eq_true, if_false] at hb hi
      have h1 : q < 1 := by by_contra h; nlinarith
      have h3 : -1 < q := by by_contra h; nlinarith
      omega
    | true =>
      simp only [if_true] at hb hi
      have h1 : q < 1 := by by_contra h; nlinarith
      have h3 : -1 < q := by by_contra h; nlinarith
      omega
  rw [hv, this]; ring

/-- The sign of a value of twice the width is that of its high half. -/
theorem sgn_high {signed : Bool} {n : Nat} (h0 : 0 < n) (p : Nat) : sgn signed n (p / 2 ^ n) = sgn signed (2 * n) p := by
  unfold sgn
  cases signed with
  | false => rfl
  | true =>
    simp only [if_true]
    rw [Nat.div_div_eq_div_mul, ← Nat.pow_add]
    congr 3; omega

/-- The residue of a product in terms of its halves. -/
theorem prod_modEq {signed : Bool} {n x y : Nat} (hn : Nibbles n) (h0 : 0 < n) (hx : x < 2 ^ n) (hy : y < 2 ^ n) :
    let p := wrapInt (2 * n) (ival signed n x * ival signed n y)
    rval signed n x * rval signed n y + sgn signed n (p / 2 ^ n) ≡ (p % 2 ^ n : Nat) + (p / 2 ^ n : Nat) [ZMOD 15] := by
  intro p
  have h2n : Nibbles (2 * n) := by
    obtain ⟨k, hk⟩ := hn
    exact ⟨15 * k * k + 2 * k, by rw [Nat.two_mul, Nat.pow_add, hk]; ring⟩
  have h1 := (rval_modEq (signed := signed) hn h0 hx).mul (rval_modEq (signed := signed) hn h0 hy)
  have hs : ival signed n x * ival signed n y = (p : Int) - 2 ^ (2 * n) * (sgn signed (2 * n) p : Int) := prod_split h0 hx hy
  rw [hs] at h1
  have h2 := h1.trans ((split_modEq hn p).sub (mulPow_modEq h2n (sgn signed (2 * n) p)))
  have h3 := h2.add (Int.ModEq.refl (sgn signed n (p / 2 ^ n) : Int))
  refine h3.trans ?_
  rw [sgn_high h0, Int.sub_add_cancel]

theorem predMulLo_mod {signed : Bool} {n x y : Nat} (hn : Nibbles n) (h0 : 0 < n) (hx : x < 2 ^ n) (hy : y < 2 ^ n) :
    predMulLo signed n x y (wrapInt (2 * n) (ival signed n x * ival signed n y) / 2 ^ n) =
      wrapInt (2 * n) (ival signed n x * ival signed n y) % 2 ^ n % 15 := by
  apply m15_modEq
  have h := (prod_modEq (signed := signed) hn h0 hx hy).sub
    (rn_modEq (wrapInt (2 * n) (ival signed n x * ival signed n y) / 2 ^ n))
  refine h.trans ?_
  rw [Int.add_sub_cancel]

/-- Wrapping at twice the width and then at the width is wrapping at the width. -/
theorem wrap_wrap (n : Nat) (r : Int) : wrapInt (2 * n) r % 2 ^ n = wrapInt n r := by
  symm
  apply wrapInt_of (Nat.mod_lt _ (Nat.two_pow_pos n))
  obtain ⟨z, hz⟩ := wrapInt_eq (2 * n) r
  have h : ((wrapInt (2 * n) r : Nat) : Int) = (wrapInt (2 * n) r % 2 ^ n : Nat) + 2 ^ n * (wrapInt (2 * n) r / 2 ^ n : Nat) := by
    exact_mod_cast (Nat.mod_add_div _ (2 ^ n)).symm
  have h2 : (2 : Int) ^ (2 * n) = 2 ^ n * 2 ^ n := by rw [← pow_add]; congr 1; omega
  refine ⟨(wrapInt (2 * n) r / 2 ^ n : Nat) + 2 ^ n * z, ?_⟩
  conv_lhs => rw [hz, h, h2]
  ring

theorem imul_sound (t : IntTy) (clamp : Bool) (a b : Nat) (poison : Bool) : Sound (laneImul t clamp a b poison) := by
  apply laneEls_sound
  intro i
  refine ⟨fitInt_lt .., ?_⟩
  dsimp only
  cases hc : clamped clamp t.signed (ibits t) (ival t.signed (ibits t) (elem (ibits t) a i) * ival t.signed (ibits t) (elem (ibits t) b i)) with
  | true => rw [if_pos rfl, m15_rn, Nat.mod_mod]
  | false =>
    rw [if_neg Bool.false_ne_true, fitInt_free hc, predMulLo_mod (ibits_nibbles t) (ibits_pos t) (elem_lt ..) (elem_lt ..),
      wrap_wrap, Nat.mod_mod]

theorem imulh_sound (t : IntTy) {a b : Nat} (hw : ibits t = 32 ∨ ibits t = 64) (ha : a < 2 ^ ibits t) (hb : b < 2 ^ ibits t) (poison : Bool) :
    Sound (laneImulh t a b poison) := by
  have hn := ibits_nibbles t
  have h0 := ibits_pos t
  unfold laneImulh
  dsimp only
  apply pred_sound_lt hw
  · have := wrapInt_lt (2 * ibits t) (ival t.signed (ibits t) a * ival t.signed (ibits t) b)
    rw [Nat.two_mul, Nat.pow_add] at this
    rw [Nat.two_mul]
    exact Nat.div_lt_of_lt_mul this
  · apply m15_modEq
    have h := (prod_modEq (signed := t.signed) hn h0 ha hb).sub
      (rn_modEq (wrapInt (2 * ibits t) (ival t.signed (ibits t) a * ival t.signed (ibits t) b) % 2 ^ ibits t))
    refine h.trans ?_
    rw [add_sub_cancel_left]

/-- The residue of a value reduced modulo a power of whole nibbles. -/
theorem modPow_modEq {n : Nat} (hn : Nibbles n) (x : Nat) : (x : Int) - (x / 2 ^ n : Nat) ≡ (x % 2 ^ n : Nat) [ZMOD 15] := by
  have h := (split_modEq hn x).sub (Int.ModEq.refl ((x / 2 ^ n : Nat) : Int))
  rwa [add_sub_cancel_right] at h

theorem imad_sound (t : IntTy) (a b c : Nat) (poison : Bool) : Sound (laneImad t a b c poison) := by
  apply laneEls_sound
  intro i
  refine ⟨wrapInt_lt .., ?_⟩
  dsimp only
  have hn := ibits_nibbles t
  have h0 := ibits_pos t
  have hx := elem_lt (ibits t) a i
  have hy := elem_lt (ibits t) b i
  have hz := elem_lt (ibits t) c i
  generalize elem (ibits t) a i = x at *
  generalize elem (ibits t) b i = y at *
  generalize elem (ibits t) c i = z at *
  generalize ibits t = n at *
  generalize t.signed = sg at *
  have hv : wrapInt n (ival sg n x * ival sg n y + ival sg n z) = (wrapInt n (ival sg n x * ival sg n y) + z) % 2 ^ n := by
    apply wrapInt_of (Nat.mod_lt _ (Nat.two_pow_pos n))
    obtain ⟨q, hq⟩ := wrapInt_eq n (ival sg n x * ival sg n y)
    generalize wrapInt n (ival sg n x * ival sg n y) = w at *
    refine ⟨q + ((w + z) / 2 ^ n : Nat) - sgn sg n z, ?_⟩
    have h : ((w + z : Nat) : Int) = ((w + z) % 2 ^ n : Nat) + 2 ^ n * ((w + z) / 2 ^ n : Nat) := by
      exact_mod_cast (Nat.mod_add_div (w + z) (2 ^ n)).symm
    rw [hq, ival_shift h0 hz]
    push_cast at h ⊢
    linear_combination h
  rw [hv, Nat.mod_eq_of_lt (m15_lt _)]
  apply m15_modEq
  rw [predMulLo_mod hn h0 hx hy, wrap_wrap]
  generalize wrapInt n (ival sg n x * ival sg n y) = w
  have h1 : ((w % 15 : Nat) : Int) ≡ w [ZMOD 15] := rn_modEq w
  have h2 := (h1.add (rn_modEq z)).sub (Int.ModEq.refl (((w + z) / 2 ^ n : Nat) : Int))
  refine h2.trans ?_
  have := modPow_modEq hn (w + z)
  push_cast at this ⊢
  exact this

theorem nibbles32 : Nibbles 32 := nibbles_of rfl
theorem nibbles64 : Nibbles 64 := nibbles_of rfl

theorem imadw_sound (t : IntTy) {a b : Nat} (c : Nat) (ha : a < 2 ^ 32) (hb : b < 2 ^ 32) (poison : Bool) :
    Sound (laneImadw t a b c poison) := by
  apply pred_sound (.inr rfl)
  rw [Nat.mod_mod]
  apply m15_modEq
  have h1 := (rval_modEq (signed := t.signed) nibbles32 (by omega) ha).mul (rval_modEq (signed := t.signed) nibbles32 (by omega) hb)
  have hs := prod_split (signed := t.signed) (n := 32) (by omega) ha hb
  generalize ival t.signed 32 a * ival t.signed 32 b = r at *
  generalize hw : wrapInt 64 r = p at *
  have h2 : r ≡ p - sgn t.signed 64 p [ZMOD 15] := by
    rw [hs]
    exact (Int.ModEq.refl _).sub (mulPow_modEq nibbles64 _)
  have h3 := (((h1.trans h2).add (Int.ModEq.refl (sgn t.signed 64 p : Int))).add (rn_modEq c)).sub
    (Int.ModEq.refl (((p + c) / 2 ^ 64 : Nat) : Int))
  refine h3.trans ?_
  have := modPow_modEq nibbles64 (p + c)
  rw [Int.sub_add_cancel]
  push_cast at this ⊢
  exact this

/-- The divide row holds of quotient and remainder. -/
theorem divCheck_divide {signed : Bool} {n a b : Nat} (hn : Nibbles n) (h1 : 1 < n) (ha : a < 2 ^ n) (hb : b < 2 ^ n) :
    divCheck signed n (divide signed n a b).1 (divide signed n a b).2.2 (divide signed n a b).2.1 b a = true := by
  have h0 : 0 < n := by omega
  unfold divCheck
  rw [beq_iff_eq]
  have conv : ∀ {x y : Int}, x ≡ y [ZMOD 15] → m15 x = m15 y := fun h => by unfold m15; rw [h]
  apply conv
  unfold divide
  dsimp only
  by_cases hz : b = 0
  · subst hz
    have hr : rval signed n 0 = 0 := by
      have : (0 : Nat) / 2 ^ (n - 1) = 0 := Nat.zero_div _
      cases signed <;> simp [rval, sgn, rn]
    simp only [beq_self_eq_true, if_true, hr, mul_zero, zero_add]
    exact Int.ModEq.refl _
  · simp only [beq_iff_eq, hz, if_false]
    by_cases ho : (signed && ival signed n a == iminOf true n && ival signed n b == -1) = true
    · simp only [ho, if_true]
      simp only [Bool.and_eq_true, beq_iff_eq] at ho
      obtain ⟨⟨hs, hx⟩, hy⟩ := ho
      subst hs
      have e1 := rval_modEq (signed := true) hn h0 hb
      have e2 := rval_modEq (signed := true) hn h0 ha
      rw [hy] at e1
      have hr : rval true n 0 = 0 := by simp [rval, sgn, rn]
      rw [hr, add_zero]
      have hva := ival_shift (signed := true) h0 ha
      rw [hx] at hva e2
      -- a = 2^(n-1), and 2^n ≡ 1
      have h2 : (2 : Int) ^ n = 2 * 2 ^ (n - 1) := by
        rw [← pow_succ']
        congr 1; omega
      have hi : iminOf true n = -2 ^ (n - 1) := by simp [iminOf]
      have hp : (0 : Int) < 2 ^ (n - 1) := by positivity
      have hsg : (sgn true n a : Int) = 1 := by
        have hs2 : sgn true n a = 0 ∨ sgn true n a = 1 := by unfold sgn; simp only [if_true]; omega
        rcases hs2 with h | h
        · rw [h] at hva; simp only [Nat.cast_zero, mul_zero, sub_zero] at hva; omega
        · rw [h]; rfl
      rw [hsg, hi] at hva
      have haa : (a : Int) = 2 ^ (n - 1) := by linarith
      have h3 : (rn a - (0 : Nat)) * rval true n b ≡ (a - (0 : Nat)) * -1 [ZMOD 15] :=
        ((rn_modEq a).sub (Int.ModEq.refl _)).mul e1
      refine (h3.trans ?_).trans e2.symm
      rw [haa, hi]
      simp
    · simp only [ho, if_false, Bool.false_eq_true]
      have hyz : ival signed n b ≠ 0 := by
        rw [ival_shift h0 hb]
        intro h
        have hs2 : sgn signed n b = 0 ∨ sgn signed n b = 1 := by unfold sgn; split <;> omega
        have hb' : (b : Int) < 2 ^ n := by exact_mod_cast hb
        rcases hs2 with e | e
        · rw [e] at h; simp only [Nat.cast_zero, mul_zero, sub_zero] at h; omega
        · rw [e] at h; simp only [Nat.cast_one, mul_one] at h; omega
      have bx := ival_bounds (signed := signed) h0 ha
      have by_ := ival_bounds (signed := signed) h0 hb
      have e1 := rval_modEq (signed := signed) hn h0 hb
      have e2 := rval_modEq (signed := signed) hn h0 ha
      have hdm := Int.tdiv_mul_add_tmod (ival signed n a) (ival signed n b)
      have h2 : (2 : Int) ^ n = 2 * 2 ^ (n - 1) := by
        rw [← pow_succ']
        congr 1; omega
      have hp : (0 : Int) < 2 ^ (n - 1) := by positivity
      have himin : signed = true → ¬(ival signed n a = -2 ^ (n - 1) ∧ ival signed n b = -1) := by
        intro hs hc
        apply ho
        subst hs
        simp [iminOf, hc.1, hc.2]
      -- both results are the signed readings of their wrapped values
      have fits : ∀ r : Int, (if signed then -(2 : Int) ^ (n - 1) else 0) ≤ r → r < (if signed then (2 : Int) ^ (n - 1) else 2 ^ n) →
          ival signed n (wrapInt n r) = r := by
        intro r hlo hhi
        have hw := wrapInt_lt n r
        obtain ⟨z, hz'⟩ := wrapInt_eq n r
        have hib := ival_bounds (signed := signed) h0 hw
        have hs := ival_shift (signed := signed) h0 hw
        have hq : r = ival signed n (wrapInt n r) + 2 ^ n * (z + sgn signed n (wrapInt n r)) := by rw [hs]; linarith
        generalize z + (sgn signed n (wrapInt n r) : Int) = q at hq
        have : q = 0 := by
          cases signed with
          | false =>
            simp only [Bool.false_eq_true, if_false] at *
            have h1 : q < 1 := by by_contra h; nlinarith
            have h3 : -1 < q := by by_contra h; nlinarith
            omega
          | true =>
            simp only [if_true] at *
            have h1 : q < 1 := by by_contra h; nlinarith
            have h3 : -1 < q := by by_contra h; nlinarith
            omega
        rw [this] at hq
        linarith
      generalize ival signed n a = x at *
      generalize ival signed n b = y at *
      have habs : (x.tdiv y).natAbs ≤ x.natAbs := by rw [Int.natAbs_tdiv]; exact Nat.div_le_self _ _
      have hmabs : (x.tmod y).natAbs ≤ x.natAbs := by rw [Int.natAbs_tmod]; exact Nat.mod_le _ _
      have hq : ival signed n (wrapInt n (x.tdiv y)) = x.tdiv y := by
        cases signed with
        | false =>
          simp only [Bool.false_eq_true, if_false] at *
          have h0q : 0 ≤ x.tdiv y := Int.tdiv_nonneg bx.1 by_.1
          have hle : x.tdiv y ≤ x := by
            generalize x.tdiv y = q at habs h0q
            omega
          exact fits _ h0q (lt_of_le_of_lt hle bx.2)
        | true =>
          simp only [if_true] at *
          refine fits _ (by omega) ?_
          by_contra hc
          -- the quotient would have the magnitude of the least value
          have hx2 : x.natAbs = (2 ^ (n - 1) : Nat) ∧ (x.tdiv y).natAbs = x.natAbs := by
            have : ((2 ^ (n - 1) : Nat) : Int) = 2 ^ (n - 1) := by push_cast; rfl
            omega
          have hxe : x = -2 ^ (n - 1) := by
            have : ((2 ^ (n - 1) : Nat) : Int) = 2 ^ (n - 1) := by push_cast; rfl
            omega
          have hy1 : y.natAbs = 1 := by
            have hd := hx2.2
            rw [Int.natAbs_tdiv] at hd
            have hpos : 0 < x.natAbs := by rw [hx2.1]; positivity
            by_contra hne
            have : 1 < y.natAbs := by omega
            exact absurd hd (Nat.ne_of_lt (Nat.div_lt_self hpos this))
          have hy2 : y = 1 ∨ y = -1 := by omega
          rcases hy2 with rfl | rfl
          · rw [Int.tdiv_one] at hc; omega
          · exact himin trivial ⟨hxe, rfl⟩
      have hm : ival signed n (wrapInt n (x.tmod y)) = x.tmod y := by
        cases signed with
        | false =>
          simp only [Bool.false_eq_true, if_false] at *
          have : 0 ≤ x.tmod y := Int.tmod_nonneg _ bx.1
          exact fits _ this (by omega)
        | true =>
          simp only [if_true] at *
          refine fits _ (by omega) ?_
          by_contra hc
          have hxe : x = -2 ^ (n - 1) := by omega
          have hneg : x.tmod y ≤ 0 := by
            have := Int.tmod_nonneg (a := -x) y (by omega)
            rw [Int.neg_tmod] at this
            omega
          omega
      have r1 := rval_modEq (signed := signed) hn h0 (wrapInt_lt n (x.tdiv y))
      have r2 := rval_modEq (signed := signed) hn h0 (wrapInt_lt n (x.tmod y))
      rw [hq] at r1
      rw [hm] at r2
      have h3 := (r1.mul e1).add r2
      rw [hdm] at h3
      exact h3.trans e2.symm

theorem divide_lt (signed : Bool) {n a b : Nat} (ha : a < 2 ^ n) :
    (divide signed n a b).1 < 2 ^ n ∧ (divide signed n a b).2.1 < 2 ^ n := by
  have := Nat.two_pow_pos n
  unfold divide
  dsimp only
  split
  · exact ⟨by dsimp only; omega, ha⟩
  · split
    · exact ⟨ha, this⟩
    · exact ⟨wrapInt_lt .., wrapInt_lt ..⟩

/-- The words of a value hold it. -/
theorem wordsOf_val {n v : Nat} (hn : n = 32 ∨ n = 64) (hv : v < 2 ^ n) :
    (wordsOf n v).foldr (fun w acc => w.toNat + 2 ^ 32 * acc) 0 = v := by
  rcases hn with rfl | rfl
  · simp only [wordsOf, Nat.reduceBEq, Bool.false_eq_true, if_false, List.foldr_cons, List.foldr_nil, BitVec.toNat_ofNat]
    omega
  · simp only [wordsOf, beq_self_eq_true, if_true, List.foldr_cons, List.foldr_nil, BitVec.toNat_ofNat]
    omega

theorem div_sound (t : IntTy) (rem : Bool) {a b : Nat} (hw : ibits t = 32 ∨ ibits t = 64) (ha : a < 2 ^ ibits t) (hb : b < 2 ^ ibits t)
    (poison : Bool) : Sound (laneDiv t rem a b poison) := by
  have hl := divide_lt t.signed (b := b) ha
  have hc := divCheck_divide (signed := t.signed) (ibits_nibbles t) (by rcases hw with h | h <;> omega) ha hb
  apply sound_of_check
  unfold laneDiv
  dsimp only
  cases rem with
  | false => simp only [Bool.false_eq_true, if_false, wordsOf_val hw hl.1, hc, if_true]
  | true => simp only [if_true, wordsOf_val hw hl.2, hc]

/-! ### Dot products, differences, addresses -/

theorem nibbles8 : Nibbles 8 := nibbles_of rfl

theorem sum_modEq {α : Type} {l : List α} {f g : α → Int} (h : ∀ x ∈ l, f x ≡ g x [ZMOD 15]) : (l.map f).sum ≡ (l.map g).sum [ZMOD 15] := by
  induction l with
  | nil => exact Int.ModEq.refl _
  | cons x xs ih =>
    simp only [List.map_cons, List.sum_cons]
    exact (h x (by simp)).add (ih fun y hy => h y (by simp [hy]))

theorem idot4_sound (sa sb : Bool) (c a b : Nat) (poison : Bool) : Sound (laneIdot4 sa sb c a b poison) := by
  unfold laneIdot4
  dsimp only
  apply pred_sound_lt (.inl rfl) (Nat.mod_lt _ (by norm_num))
  have hs : ((List.range 4).map fun i => rval sa 8 (elem 8 a i) * rval sb 8 (elem 8 b i)).sum ≡
      ((List.range 4).map fun i => ival sa 8 (elem 8 a i) * ival sb 8 (elem 8 b i)).sum [ZMOD 15] :=
    sum_modEq fun i _ => (rval_modEq nibbles8 (by omega) (elem_lt ..)).mul (rval_modEq nibbles8 (by omega) (elem_lt ..))
  have hb : -2 ^ 31 ≤ ((List.range 4).map fun i => ival sa 8 (elem 8 a i) * ival sb 8 (elem 8 b i)).sum ∧
      ((List.range 4).map fun i => ival sa 8 (elem 8 a i) * ival sb 8 (elem 8 b i)).sum < 2 ^ 31 := by
    have each : ∀ i, -65536 ≤ ival sa 8 (elem 8 a i) * ival sb 8 (elem 8 b i) ∧
        ival sa 8 (elem 8 a i) * ival sb 8 (elem 8 b i) ≤ 65536 := by
      intro i
      have h1 := ival_bounds (signed := sa) (n := 8) (by omega) (elem_lt 8 a i)
      have h2 := ival_bounds (signed := sb) (n := 8) (by omega) (elem_lt 8 b i)
      have h1' : -256 ≤ ival sa 8 (elem 8 a i) ∧ ival sa 8 (elem 8 a i) ≤ 256 := by
        cases sa <;> norm_num at h1 <;> omega
      have h2' : -256 ≤ ival sb 8 (elem 8 b i) ∧ ival sb 8 (elem 8 b i) ≤ 256 := by
        cases sb <;> norm_num at h2 <;> omega
      have h3 : |ival sa 8 (elem 8 a i) * ival sb 8 (elem 8 b i)| ≤ 256 * 256 := by
        rw [abs_mul]
        exact mul_le_mul (abs_le.mpr h1') (abs_le.mpr h2') (abs_nonneg _) (by norm_num)
      have := abs_le.mp h3
      omega
    simp only [List.range_succ, List.range_zero, List.nil_append, List.cons_append, List.map_cons, List.map_nil, List.sum_cons, List.sum_nil]
    have e0 := each 0; have e1 := each 1; have e2 := each 2; have e3 := each 3
    constructor <;> omega
  generalize hg : ((List.range 4).map fun i => ival sa 8 (elem 8 a i) * ival sb 8 (elem 8 b i)).sum = p at *
  apply m15_modEq
  have hw : (wrapInt 32 p : Int) = p + 2 ^ 32 * (if p < 0 then 1 else 0) := by
    have : wrapInt 32 p = (p + 2 ^ 32 * (if p < 0 then 1 else 0)).toNat := by
      apply wrapInt_of
      · split <;> omega
      · refine ⟨-(if p < 0 then 1 else 0), ?_⟩
        split <;> omega
    rw [this]
    split <;> omega
  have h1 := (((rn_modEq c).add hs).add (Int.ModEq.refl (if p < 0 then 1 else 0))).sub
    (Int.ModEq.refl (((c + wrapInt 32 p) / 2 ^ 32 : Nat) : Int))
  refine h1.trans ?_
  have h2 := modPow_modEq nibbles32 (c + wrapInt 32 p)
  refine Int.ModEq.trans ?_ h2
  push_cast
  rw [hw]
  refine Int.ModEq.sub ?_ (Int.ModEq.refl _)
  generalize (if p < 0 then (1 : Int) else 0) = z at *
  have h3 := mulPow_modEq nibbles32 z
  have h4 := (Int.ModEq.refl (c + p : Int)).add h3.symm
  rw [← add_assoc (c : Int) p]
  exact h4

theorem isad_sound (t : IntTy) (c a b : Nat) (poison : Bool) : Sound (laneIsad t c a b poison) := by
  unfold laneIsad
  dsimp only
  apply pred_sound_lt (.inl rfl) (Nat.mod_lt _ (by norm_num))
  apply m15_modEq
  generalize (List.range (32 / ibits t)).map (fun i =>
    (ival t.signed (ibits t) (elem (ibits t) a i) - ival t.signed (ibits t) (elem (ibits t) b i)).natAbs) = ds
  have hs : (ds.map rn).sum ≡ (ds.sum : Nat) [ZMOD 15] := by
    have := sum_modEq (l := ds) (f := rn) (g := fun x => (x : Int)) fun x _ => rn_modEq x
    rwa [← Nat.cast_list_sum] at this
  have h1 := ((rn_modEq c).add hs).sub (Int.ModEq.refl (((c + ds.sum) / 2 ^ 32 : Nat) : Int))
  refine h1.trans ?_
  have := modPow_modEq nibbles32 (c + ds.sum)
  push_cast at this ⊢
  exact this

/-! ### Shifts -/

theorem pow_four (k : Nat) : (2 : Int) ^ k ≡ 2 ^ (k % 4) [ZMOD 15] := by
  conv_lhs => rw [← Nat.mod_add_div k 4, pow_add]
  simpa using (pow_modEq (nibbles_four (k / 4))).mul_left (2 ^ (k % 4))

/-- Eight undoes two, modulo 15. -/
theorem eight_pow (k : Nat) : (8 : Int) ^ k * 2 ^ k ≡ 1 [ZMOD 15] := by
  rw [← mul_pow]
  simpa using (show (16 : Int) ≡ 1 [ZMOD 15] by decide).pow k

/-- The value lost and the value kept by a left shift. -/
theorem shl_modEq {n : Nat} (hn : Nibbles n) (x k : Nat) :
    rn x * 2 ^ (k % 4) - rn (x * 2 ^ k / 2 ^ n) ≡ (x * 2 ^ k % 2 ^ n : Nat) [ZMOD 15] := by
  have h1 := ((rn_modEq x).mul (pow_four k).symm).sub (rn_modEq (x * 2 ^ k / 2 ^ n))
  refine h1.trans ?_
  have := modPow_modEq hn (x * 2 ^ k)
  push_cast at this ⊢
  exact this

theorem predShl_mod {n : Nat} (hn : Nibbles n) (x k : Nat) : predShl x k (x * 2 ^ k / 2 ^ n) = x * 2 ^ k % 2 ^ n % 15 :=
  m15_modEq (shl_modEq hn x k)

theorem shr_modEq (x k : Nat) : (rn x - rn (x % 2 ^ k)) * 8 ^ (k % 4) ≡ (x / 2 ^ k : Nat) [ZMOD 15] := by
  have h1 := ((rn_modEq x).sub (rn_modEq (x % 2 ^ k))).mul (Int.ModEq.refl ((8 : Int) ^ (k % 4)))
  have hx : (x : Int) - (x % 2 ^ k : Nat) = 2 ^ k * (x / 2 ^ k : Nat) := by
    have : (x : Int) = (x % 2 ^ k : Nat) + 2 ^ k * (x / 2 ^ k : Nat) := by exact_mod_cast (Nat.mod_add_div x (2 ^ k)).symm
    linarith
  rw [hx] at h1
  refine h1.trans ?_
  have h2 := (((pow_four k).mul_right ((x / 2 ^ k : Nat) : Int)).mul_right ((8 : Int) ^ (k % 4)))
  refine h2.trans ?_
  have h3 := (eight_pow (k % 4)).mul_right ((x / 2 ^ k : Nat) : Int)
  rw [one_mul] at h3
  convert h3 using 1
  ring

theorem predShr_mod (x k : Nat) : predShr x k (x % 2 ^ k) = x / 2 ^ k % 15 := m15_modEq (shr_modEq x k)

theorem lea_sound (t : IntTy) (k a b : Nat) (poison : Bool) : Sound (laneLea t k a b poison) := by
  have hn : Nibbles (obits t) := nibbles_of (by cases t <;> rfl)
  unfold laneLea
  dsimp only
  apply pred_sound_lt (obits_or t) (Nat.mod_lt _ (Nat.two_pow_pos _))
  rw [predShl_mod hn]
  generalize wrapInt (obits t) (ival t.signed 32 a) * 2 ^ k % 2 ^ obits t = sh
  apply m15_modEq
  have h1 := ((rn_modEq sh).add (rn_modEq b)).sub (Int.ModEq.refl (((sh + b) / 2 ^ obits t : Nat) : Int))
  refine Int.ModEq.trans (Int.ModEq.refl _) (h1.trans ?_)
  have := modPow_modEq hn (sh + b)
  push_cast at this ⊢
  exact this

theorem width_or (w : Bool) : width w = 32 ∨ width w = 64 := by cases w <;> simp [width]
theorem width_nibbles (w : Bool) : Nibbles (width w) := nibbles_of (by cases w <;> rfl)

theorem div_shift {n k : Nat} (h : k ≤ n) (a : Nat) : a * 2 ^ k / 2 ^ n = a / 2 ^ (n - k) := by
  rw [show 2 ^ n = 2 ^ (n - k) * 2 ^ k by rw [← Nat.pow_add]; congr 1; omega]
  exact Nat.mul_div_mul_right _ _ (Nat.two_pow_pos k)

theorem shl_sound (w wrap : Bool) (a b : Nat) (poison : Bool) : Sound (laneShl w wrap a b poison) := by
  unfold laneShl
  dsimp only
  split
  · rename_i hk
    apply pred_sound_lt (width_or w) (Nat.mod_lt _ (Nat.two_pow_pos _))
    rw [← div_shift (Nat.le_of_lt hk), predShl_mod (width_nibbles w)]
  · exact pred_sound (width_or w) (by simp)

theorem shr_sound (w wrap : Bool) {a : Nat} (b : Nat) (ha : a < 2 ^ width w) (poison : Bool) : Sound (laneShr w wrap a b poison) := by
  unfold laneShr
  dsimp only
  split
  · apply pred_sound_lt (width_or w) (lt_of_le_of_lt (Nat.div_le_self _ _) ha)
    rw [predShr_mod]
  · exact pred_sound (width_or w) (by simp)

theorem sar_sound (w wrap : Bool) {a : Nat} (b : Nat) (ha : a < 2 ^ width w) (poison : Bool) : Sound (laneSar w wrap a b poison) := by
  have h0 : 0 < width w := by cases w <;> decide
  have hn := width_nibbles w
  have hor := width_or w
  unfold laneSar
  dsimp only
  generalize width w = n at *
  generalize shiftCount wrap n b = k
  have hpn := Nat.two_pow_pos n
  split
  · rename_i hk
    have hpk : (0 : Int) < 2 ^ k := by positivity
    -- the sign bits shifted in
    have hv : (wrapInt n (ival true n a / ((2 ^ k : Nat) : Int)) : Int) =
        (a / 2 ^ k : Nat) + (if sgn true n a = 1 then (2 : Int) ^ n - 2 ^ (n - k) else 0) := by
      have hs := ival_shift (signed := true) h0 ha
      have hsg : sgn true n a = 0 ∨ sgn true n a = 1 := by unfold sgn; simp only [if_true]; omega
      have hpp : (2 : Int) ^ n = 2 ^ (n - k) * 2 ^ k := by rw [← pow_add]; congr 1; omega
      have hdiv : ival true n a / ((2 ^ k : Nat) : Int) = (a / 2 ^ k : Nat) - 2 ^ (n - k) * (sgn true n a : Int) := by
        rw [hs, hpp]
        push_cast
        have : (a : Int) - 2 ^ (n - k) * 2 ^ k * (sgn true n a : Int) = a + 2 ^ k * (-(2 ^ (n - k) * (sgn true n a : Int))) := by ring
        rw [this, Int.add_mul_ediv_left _ _ (ne_of_gt hpk)]
        ring
      rw [hdiv]
      have hle : (2 : Nat) ^ (n - k) ≤ 2 ^ n := Nat.pow_le_pow_right (by omega) (by omega)
      have hak : a / 2 ^ k < 2 ^ (n - k) := by
        apply Nat.div_lt_of_lt_mul
        rw [← Nat.pow_add]
        convert ha using 2
        omega
      rcases hsg with h | h
      · rw [h, if_neg (by omega)]
        have hlt : a / 2 ^ k < 2 ^ n := lt_of_lt_of_le hak hle
        have := wrapInt_of (n := n) (v := a / 2 ^ k) (r := (a / 2 ^ k : Nat) - 2 ^ (n - k) * ((0 : Nat) : Int)) hlt ⟨0, by simp⟩
        rw [this]; simp
      · rw [h, if_pos rfl]
        have hlt : a / 2 ^ k + 2 ^ n - 2 ^ (n - k) < 2 ^ n := by
          generalize a / 2 ^ k = q at hak
          omega
        have := wrapInt_of (n := n) (v := a / 2 ^ k + 2 ^ n - 2 ^ (n - k)) (r := (a / 2 ^ k : Nat) - 2 ^ (n - k) * ((1 : Nat) : Int)) hlt ⟨-1, by
          rw [Nat.cast_sub (le_trans hle (Nat.le_add_left _ _))]
          push_cast; ring⟩
        rw [this, Nat.cast_sub (le_trans hle (Nat.le_add_left _ _))]
        push_cast; ring
    apply pred_sound_lt hor (wrapInt_lt ..)
    apply m15_modEq
    rw [hv]
    refine (shr_modEq a k).add ?_
    by_cases hs : sgn true n a = 1
    · by_cases hk0 : k = 0
      · subst hk0; simp
      · simp only [hs, beq_self_eq_true, Bool.true_and, bne_iff_ne, ne_eq, hk0, not_false_eq_true, if_true]
        refine (rn_modEq _).trans ?_
        have hle : (2 : Nat) ^ (n - k) ≤ 2 ^ n := Nat.pow_le_pow_right (by omega) (by omega)
        have hp1 := Nat.two_pow_pos (n - k)
        have : ((2 ^ n - 1 - (2 ^ (n - k) - 1) : Nat) : Int) = 2 ^ n - 2 ^ (n - k) := by
          have he : 2 ^ n - 1 - (2 ^ (n - k) - 1) = 2 ^ n - 2 ^ (n - k) := by omega
          rw [he, Nat.cast_sub hle]
          push_cast; rfl
        rw [this]
    · simp [hs]
  · refine pred_sound hor ?_
    obtain ⟨j, hj⟩ := hn
    split
    · rw [Nat.mod_eq_of_lt (Nat.sub_lt hpn Nat.one_pos), hj]; omega
    · simp

theorem rol_sound (w : Bool) {a : Nat} (b : Nat) (ha : a < 2 ^ width w) (poison : Bool) : Sound (laneRol w a b poison) := by
  have hn := width_nibbles w
  have hor := width_or w
  have h0 : 0 < width w := by cases w <;> decide
  unfold laneRol
  dsimp only
  generalize width w = n at *
  have hk : b % n < n := Nat.mod_lt _ h0
  generalize b % n = k at *
  have hsplit := Nat.mod_add_div (a * 2 ^ k) (2 ^ n)
  rw [← div_shift (Nat.le_of_lt hk)]
  have hlt : a * 2 ^ k / 2 ^ n < 2 ^ k := by
    apply Nat.div_lt_of_lt_mul
    exact Nat.mul_lt_mul_of_pos_right ha (Nat.two_pow_pos k)
  have hmul : a * 2 ^ k % 2 ^ n ≤ 2 ^ n - 2 ^ k := by
    rw [show 2 ^ n = 2 ^ (n - k) * 2 ^ k by rw [← Nat.pow_add]; congr 1; omega, Nat.mul_mod_mul_right]
    have := Nat.mod_lt a (Nat.two_pow_pos (n - k))
    rw [← Nat.sub_one_mul]
    exact Nat.mul_le_mul_right _ (by omega)
  have hle : (2 : Nat) ^ k ≤ 2 ^ n := Nat.pow_le_pow_right (by omega) (by omega)
  apply pred_sound_lt hor (by omega)
  apply m15_modEq
  have h1 := (rn_modEq a).mul (pow_four k).symm
  refine h1.trans ?_
  have := split_modEq hn (a * 2 ^ k)
  push_cast at this ⊢
  exact this

theorem fsh_sound (left : Bool) {a b : Nat} (c : Nat) (ha : a < 2 ^ 32) (hb : b < 2 ^ 32) (poison : Bool) :
    Sound (laneFsh left a b c poison) := by
  unfold laneFsh
  dsimp only
  have hv : a + 2 ^ 32 * b < 2 ^ 64 := by omega
  have hk : c % 32 < 32 := Nat.mod_lt _ (by omega)
  generalize a + 2 ^ 32 * b = v at *
  generalize c % 32 = k at *
  apply pred_sound_lt (.inl rfl) (by split <;> exact Nat.mod_lt _ (by norm_num))
  have hpk := Nat.two_pow_pos k
  split
  · apply m15_modEq
    -- v·2^k = out·2^64 + mid·2^32 + low
    have e1 : v / 2 ^ (64 - k) = v * 2 ^ k / 2 ^ 64 := (div_shift (by omega) v).symm
    have e2 : v / 2 ^ (32 - k) = v * 2 ^ k / 2 ^ 32 := (div_shift (by omega) v).symm
    rw [e1, e2]
    have h1 := (((rn_modEq v).mul (pow_four k).symm).sub (rn_modEq (v * 2 ^ k / 2 ^ 64))).sub (rn_modEq (v * 2 ^ k % 2 ^ 32))
    refine h1.trans ?_
    have hc : (v : Int) * 2 ^ k = ((v * 2 ^ k : Nat) : Int) := by push_cast; rfl
    rw [hc]
    generalize v * 2 ^ k = x
    have e3 : x / 2 ^ 64 = x / 2 ^ 32 / 2 ^ 32 := by rw [Nat.div_div_eq_div_mul, ← Nat.pow_add]
    rw [e3]
    have s1 := split_modEq nibbles32 x
    have s2 := split_modEq nibbles32 (x / 2 ^ 32)
    have s3 := ((s1.trans ((Int.ModEq.refl _).add s2)).sub (Int.ModEq.refl ((x / 2 ^ 32 / 2 ^ 32 : Nat) : Int))).sub
      (Int.ModEq.refl ((x % 2 ^ 32 : Nat) : Int))
    refine s3.trans ?_
    have : ((x % 2 ^ 32 : Nat) : Int) + ((x / 2 ^ 32 % 2 ^ 32 : Nat) + (x / 2 ^ 32 / 2 ^ 32 : Nat)) - (x / 2 ^ 32 / 2 ^ 32 : Nat) -
        (x % 2 ^ 32 : Nat) = (x / 2 ^ 32 % 2 ^ 32 : Nat) := by ring
    rw [this]
  · rw [predShr_mod]
    apply m15_modEq
    have s1 : ((v / 2 ^ k % 15 : Nat) : Int) ≡ (v / 2 ^ k : Nat) [ZMOD 15] := rn_modEq _
    refine (s1.sub (rn_modEq (v / 2 ^ k / 2 ^ 32))).trans ?_
    exact modPow_modEq nibbles32 (v / 2 ^ k)

/-! ### Logic and bit fields -/

/-- The bitwise operations of two numbers and their sum. -/
theorem and_add_or (x y : Nat) : Nat.land x y + Nat.lor x y = x + y ∧ Nat.xor x y + Nat.land x y = Nat.lor x y := by
  have key : ∀ n x y : Nat, x < 2 ^ n → y < 2^n → (x &&& y) + (x ||| y) = x + y ∧ (x ^^^ y) + (x &&& y) = (x ||| y) := by
    intro n
    induction n with
    | zero => intro x y hx hy; have : x = 0 := by omega
              have : y = 0 := by omega
              subst_vars; simp
    | succ n ih =>
      intro x y hx hy
      obtain ⟨h1, h2⟩ := ih (x / 2) (y / 2) (by omega) (by omega)
      have a1 := Nat.mod_add_div (x &&& y) 2
      have a2 := Nat.mod_add_div (x ||| y) 2
      have a3 := Nat.mod_add_div (x ^^^ y) 2
      rw [Nat.and_div_two] at a1
      rw [Nat.or_div_two] at a2
      rw [Nat.xor_div_two] at a3
      have m1 := Nat.and_mod_two_pow (a := x) (b := y) (n := 1)
      have m2 := Nat.or_mod_two_pow (a := x) (b := y) (n := 1)
      have m3 := Nat.xor_mod_two_pow (a := x) (b := y) (n := 1)
      simp only [pow_one] at m1 m2 m3
      rw [m1] at a1; rw [m2] at a2; rw [m3] at a3
      have hx := Nat.mod_two_eq_zero_or_one x
      have hy := Nat.mod_two_eq_zero_or_one y
      rcases hx with hx | hx <;> rcases hy with hy | hy <;> simp only [hx, hy] at a1 a2 a3 <;> norm_num at a1 a2 a3 <;> omega
  obtain ⟨n, hn⟩ : ∃ n, x < 2 ^ n ∧ y < 2 ^ n := ⟨x + y, lt_of_le_of_lt (Nat.le_add_right x y) Nat.lt_two_pow_self, lt_of_le_of_lt (Nat.le_add_left y x) Nat.lt_two_pow_self⟩
  exact key n x y hn.1 hn.2

theorem logicHalf_ok (op : Logic) {a b : Nat} (ha : a < 2 ^ 32) (hb : b < 2 ^ 32) :
    (logicHalf op a b).1 < 2 ^ 32 ∧ (logicHalf op a b).2 = (logicHalf op a b).1 % 15 := by
  have pre : ∀ c : Nat, c < 2 ^ 32 →
      (Nat.land a c < 2 ^ 32 ∧ m15 (rn a + rn c - rn (Nat.lor a c)) = Nat.land a c % 15) ∧
      (Nat.lor a c < 2 ^ 32 ∧ m15 (rn a + rn c - rn (Nat.land a c)) = Nat.lor a c % 15) ∧
      (Nat.xor a c < 2 ^ 32 ∧ m15 (rn (Nat.lor a c) - rn (Nat.land a c)) = Nat.xor a c % 15) := by
    intro c hc
    obtain ⟨h1, h2⟩ := and_add_or a c
    refine ⟨⟨Nat.and_lt_two_pow a hc, ?_⟩, ⟨Nat.or_lt_two_pow ha hc, ?_⟩, ⟨Nat.xor_lt_two_pow ha hc, ?_⟩⟩ <;>
    · unfold m15 rn
      omega
  have hnb : 2 ^ 32 - 1 - b < 2 ^ 32 := by omega
  unfold logicHalf
  cases op
  · exact (pre b hb).1
  · exact (pre b hb).2.1
  · exact (pre b hb).2.2
  · exact (pre _ hnb).1
  · exact (pre _ hnb).2.1

theorem predicted_each {α : Type} {stage : Nat} {l : List α} {p : α → Nat} {w : α → Word} (h : ∀ x ∈ l, p x = res (w x)) :
    predicted stage (l.map p) (l.map w) = none := by
  unfold predicted
  rw [if_pos (by simp), if_pos]
  rw [beq_iff_eq, List.map_map]
  exact List.map_congr_left h

theorem logic_sound (op : Logic) (w : Bool) (a b : Nat) (poison : Bool) : Sound (laneLogic op w a b poison) := by
  apply sound_of_check
  unfold laneLogic
  dsimp only
  apply predicted_each
  intro x hx
  obtain ⟨i, -, rfl⟩ := List.mem_map.mp hx
  have h := logicHalf_ok op (elem_lt 32 a i) (elem_lt 32 b i)
  rw [h.2, res_mod, BitVec.toNat_ofNat, Nat.mod_eq_of_lt h.1]

theorem lop3_sound (w : Bool) (f0 f1 : BitVec 4) (a b c : Nat) (poison : Bool) : Sound (laneLop3 w f0 f1 a b c poison) := dup_sound ..
theorem popc_sound (w : Bool) (b : Nat) (poison : Bool) : Sound (lanePopc w b poison) := dup_sound ..
theorem clz_sound (w : Bool) (b : Nat) (poison : Bool) : Sound (laneClz w b poison) := dup_sound ..
theorem ctz_sound (w : Bool) (b : Nat) (poison : Bool) : Sound (laneCtz w b poison) := dup_sound ..
theorem brev_sound (w : Bool) (b : Nat) (poison : Bool) : Sound (laneBrev w b poison) := dup_sound ..

/-- Position and length of a bit field that is not empty. -/
theorem bfField_pos {n b : Nat} (hp : ¬(n ≤ (bfField n b).1)) (hl : b / 256 % 256 ≠ 0) :
    0 < (bfField n b).2 ∧ (bfField n b).1 + (bfField n b).2 ≤ n := by
  unfold bfField at *
  dsimp only at *
  omega

theorem bfx_sound (t : IntTy) {a : Nat} (b : Nat) (ha : a < 2 ^ obits t) (poison : Bool) : Sound (laneBfx t a b poison) := by
  have hn : Nibbles (obits t) := nibbles_of (by cases t <;> rfl)
  have hor := obits_or t
  unfold laneBfx
  dsimp only
  split
  · exact pred_sound hor (by simp)
  · rename_i hc
    simp only [Bool.or_eq_true, decide_eq_true_eq, beq_iff_eq, not_or] at hc
    obtain ⟨h0l, hpl⟩ := bfField_pos hc.1 hc.2
    generalize (bfField (obits t) b).1 = p at *
    generalize (bfField (obits t) b).2 = l at *
    generalize obits t = n at *
    generalize t.signed = sg
    apply pred_sound_lt hor (wrapInt_lt ..)
    have hf : a / 2 ^ p % 2 ^ l < 2 ^ l := Nat.mod_lt _ (Nat.two_pow_pos l)
    have hle : (2 : Nat) ^ l ≤ 2 ^ n := Nat.pow_le_pow_right (by omega) (by omega)
    have hv : (wrapInt n (ival sg l (a / 2 ^ p % 2 ^ l)) : Int) = (a / 2 ^ p % 2 ^ l : Nat) + (if sgn sg l (a / 2 ^ p % 2 ^ l) = 1 then (2 : Int) ^ n - 2 ^ l else 0) := by
      rw [ival_shift h0l hf]
      have hsg : sgn sg l (a / 2 ^ p % 2 ^ l) = 0 ∨ sgn sg l (a / 2 ^ p % 2 ^ l) = 1 := by unfold sgn; split <;> omega
      generalize a / 2 ^ p % 2 ^ l = f at *
      rcases hsg with h | h
      · rw [h, if_neg (by omega)]
        have := wrapInt_of (n := n) (v := f) (r := (f : Int) - 2 ^ l * ((0 : Nat) : Int)) (lt_of_lt_of_le hf hle) ⟨0, by simp⟩
        rw [this]; simp
      · rw [h, if_pos rfl]
        have := wrapInt_of (n := n) (v := f + 2 ^ n - 2 ^ l) (r := (f : Int) - 2 ^ l * ((1 : Nat) : Int)) (by omega) ⟨-1, by
          rw [Nat.cast_sub (le_trans hle (Nat.le_add_left _ _))]
          push_cast; ring⟩
        rw [this, Nat.cast_sub (le_trans hle (Nat.le_add_left _ _))]
        push_cast; ring
    apply m15_modEq
    rw [hv, predShr_mod]
    have h1 : ((a / 2 ^ p % 15 : Nat) : Int) ≡ (a / 2 ^ p : Nat) [ZMOD 15] := rn_modEq _
    refine ((h1.sub (rn_modEq _)).add (d := if sgn sg l (a / 2 ^ p % 2 ^ l) = 1 then (2 : Int) ^ n - 2 ^ l else 0) ?_).trans ?_
    · by_cases hs : sgn sg l (a / 2 ^ p % 2 ^ l) = 1
      · simp only [hs, beq_self_eq_true, if_true]
        refine (rn_modEq _).trans ?_
        rw [Nat.cast_sub hle]
        push_cast
        exact Int.ModEq.refl _
      · simp only [beq_iff_eq, hs, if_false]
        exact Int.ModEq.refl _
    · have hd := Nat.mod_add_div (a / 2 ^ p) (2 ^ l)
      have : ((a / 2 ^ p : Nat) : Int) - (a / 2 ^ p / 2 ^ l * 2 ^ l : Nat) = (a / 2 ^ p % 2 ^ l : Nat) := by
        have e : (((a / 2 ^ p % 2 ^ l) + 2 ^ l * (a / 2 ^ p / 2 ^ l) : Nat) : Int) = (a / 2 ^ p : Nat) := by rw [hd]
        push_cast at e ⊢
        linear_combination -e
      rw [this]

theorem bfi_sound (w : Bool) (a b : Nat) {c : Nat} (hc : c < 2 ^ width w) (poison : Bool) : Sound (laneBfi w a b c poison) := by
  have hn := width_nibbles w
  have hor := width_or w
  unfold laneBfi
  dsimp only
  split
  · exact pred_sound_lt hor hc (m15_rn c)
  · rename_i hcond
    simp only [Bool.or_eq_true, decide_eq_true_eq, beq_iff_eq, not_or] at hcond
    obtain ⟨h0l, hpl⟩ := bfField_pos hcond.1 hcond.2
    generalize (bfField (width w) b).1 = p at *
    generalize (bfField (width w) b).2 = l at *
    generalize width w = n at *
    -- c = low + old·2^p + high·2^(p+l)
    have hold : c / 2 ^ p % 2 ^ l * 2 ^ p ≤ c :=
      le_trans (Nat.mul_le_mul_right _ (Nat.mod_le _ _)) (Nat.div_mul_le_self c (2 ^ p))
    have hnew : a % 2 ^ l < 2 ^ l := Nat.mod_lt _ (Nat.two_pow_pos l)
    generalize a % 2 ^ l = x at hnew ⊢
    have hlt : c - c / 2 ^ p % 2 ^ l * 2 ^ p + x * 2 ^ p < 2 ^ n := by
      have e1 := Nat.mod_add_div c (2 ^ p)
      have e2 := Nat.mod_add_div (c / 2 ^ p) (2 ^ l)
      have h1 : c % 2 ^ p < 2 ^ p := Nat.mod_lt _ (Nat.two_pow_pos p)
      have h3 : c / 2 ^ p / 2 ^ l < 2 ^ (n - p - l) := by
        rw [Nat.div_div_eq_div_mul, ← Nat.pow_add]
        apply Nat.div_lt_of_lt_mul
        rw [← Nat.pow_add]
        convert hc using 2
        omega
      have hp2 : (2 : Nat) ^ n = 2 ^ p * (2 ^ l * 2 ^ (n - p - l)) := by
        rw [← Nat.pow_add, ← Nat.pow_add]
        congr 1; omega
      rw [hp2]
      generalize c / 2 ^ p / 2 ^ l = hi at *
      generalize c / 2 ^ p % 2 ^ l = od at *
      generalize c % 2 ^ p = lo at *
      generalize (2 : Nat) ^ (n - p - l) = H at *
      have hc2 : c = lo + 2 ^ p * (od + 2 ^ l * hi) := by rw [e2]; exact e1.symm
      have hsub : c - od * 2 ^ p = lo + 2 ^ p * (2 ^ l * hi) := by
        rw [hc2]
        rw [Nat.mul_add, Nat.mul_comm od]
        omega
      rw [hsub]
      have s1 : x + 2 ^ l * hi + 1 ≤ 2 ^ l * H := by
        have : 2 ^ l * (hi + 1) ≤ 2 ^ l * H := Nat.mul_le_mul_left _ h3
        rw [Nat.mul_add, Nat.mul_one] at this
        omega
      have s2 := Nat.mul_le_mul_left (2 ^ p) s1
      rw [Nat.mul_add, Nat.mul_add, Nat.mul_one] at s2
      rw [Nat.mul_comm x]
      omega
    apply pred_sound_lt hor hlt
    apply m15_modEq
    have hcast : ((c - c / 2 ^ p % 2 ^ l * 2 ^ p + x * 2 ^ p : Nat) : Int) = c - (c / 2 ^ p % 2 ^ l : Nat) * 2 ^ p + x * 2 ^ p := by
      rw [Nat.cast_add, Nat.cast_sub hold]
      push_cast; ring
    rw [hcast]
    exact ((rn_modEq c).sub ((rn_modEq _).mul (pow_four p).symm)).add ((rn_modEq x).mul (pow_four p).symm)

theorem permb_sound (a b c : Nat) (poison : Bool) : Sound (lanePermb a b c poison) := by
  have each : ∀ i, (permByte a b c i).1 < 2 ^ 8 ∧
      (if (permByte a b c i).2 then 0 else m15 (rn (permByte a b c i).1)) % 15 = (permByte a b c i).1 % 15 := by
    intro i
    unfold permByte
    dsimp only
    split
    · split <;> simp
    · exact ⟨elem_lt .., by simp [m15_rn]⟩
  unfold lanePermb
  dsimp only
  apply packed_sound nibbles8 (by simp)
  · intro x hx
    simp only [List.map_map, List.mem_map, Function.comp] at hx
    obtain ⟨i, -, rfl⟩ := hx
    exact (each i).1
  · exact sum_mod fun x hx => by
      obtain ⟨i, -, rfl⟩ := List.mem_map.mp hx
      exact (each i).2

/-! ### Compares, copies of codes, addresses -/

theorem compare_sound {n : Nat} (hn : n = 32 ∨ n = 64) {x y : Nat} (hy : y < 2 ^ n) (poison : Bool) : Sound (compareForm n x y poison) := by
  have hnn : Nibbles n := by rcases hn with rfl | rfl <;> exact nibbles_of rfl
  apply pred_sound_lt hn (Nat.mod_lt _ (Nat.two_pow_pos n))
  rw [predSub_mod hnn hy]

theorem addr_sound {n : Nat} (hn : n = 32 ∨ n = 64) (a b : Nat) (poison : Bool) : Sound (addrForm n a b poison) := by
  have hnn : Nibbles n := by rcases hn with rfl | rfl <;> exact nibbles_of rfl
  apply pred_sound_lt hn (Nat.mod_lt _ (Nat.two_pow_pos n))
  rw [predAdd_mod hnn, Nat.add_zero]

end Sys2Proof.Safety
end

