-- ==== Sys2Proof/Laws/FloatChecks.lean ====
section
/-! SUPPORT. The result checks of the floating, packed, conversion and cross-lane instructions raise no false alarm: a
rounded result fits its format, and the packing residue of Table 2.3 is the residue of the packed value (R27). -/

namespace Sys2Proof.Safety

open Sys2Proof.Machine

/-! ### Results fit their formats -/

/-- The bits of a result lie in its format. -/
def FitsFmt (f : Fmt) (x : Nat) : Prop := x < 2 ^ f.bits

theorem inf_lt (t : FloatTy) : t.infCode < 2 ^ (t.bits - 1) := by cases t <;> decide
theorem bits_pos (t : FloatTy) : 0 < t.bits := by cases t <;> decide

theorem half_half (t : FloatTy) : 2 ^ t.bits = 2 ^ (t.bits - 1) + 2 ^ (t.bits - 1) := by cases t <;> rfl

theorem b8_code (q : B8Fmt) : q.maxCode ≤ 0xFE ∧ (q.uns = false → q.maxCode ≤ 0x7F) := by
  unfold B8Fmt.maxCode
  cases q.uns <;> cases q.fin <;> simp

theorem pack_fits (f : Fmt) (neg : Bool) {code : Nat} (h : (∀ s n, f ≠ .int s n) → code ≤ f.maxCode neg) : FitsFmt f (f.pack neg code) := by
  unfold FitsFmt
  cases f with
  | ieee t =>
    have h := h (by simp)
    simp only [Fmt.pack, Fmt.bits, Fmt.maxCode] at *
    have := inf_lt t
    rw [half_half]
    split <;> omega
  | b8 q =>
    have h := h (by simp)
    simp only [Fmt.pack, Fmt.bits, Fmt.maxCode] at *
    obtain ⟨h1, h2⟩ := b8_code q
    split
    · rename_i hc
      simp only [Bool.and_eq_true, Bool.not_eq_true'] at hc
      have := h2 hc.1.2
      omega
    · omega
  | bg4 =>
    have h := h (by simp)
    simp only [Fmt.pack, Fmt.bits, Fmt.maxCode] at *
    split <;> omega
  | int s n =>
    simp only [Fmt.pack, Fmt.bits]
    split <;> exact Nat.mod_lt _ (Nat.two_pow_pos n)

theorem nan_fits (f : Fmt) : FitsFmt f f.nan := by
  unfold FitsFmt
  cases f with
  | ieee t => cases t <;> decide
  | b8 q => cases q with | mk u fi p => cases u <;> simp [Fmt.nan, Fmt.bits, B8Fmt.nanCode]
  | bg4 => decide
  | int s n => exact Nat.two_pow_pos n

theorem inf_fits {f : Fmt} {neg : Bool} {i : Nat} (h : f.inf? neg = some i) : FitsFmt f i := by
  unfold FitsFmt
  cases f with
  | ieee t =>
    simp only [Fmt.inf?, Option.some.injEq] at h
    subst h
    have := inf_lt t
    simp only [Fmt.bits]
    rw [half_half]
    split <;> omega
  | b8 q =>
    simp only [Fmt.inf?] at h
    split at h
    · cases h
    · simp only [Option.some.injEq] at h
      subst h
      simp only [Fmt.bits]
      split
      · omega
      · split <;> omega
  | bg4 => cases h
  | int s n => cases h

theorem zero_fits (f : Fmt) : FitsFmt f 0 := Nat.two_pow_pos _

theorem big_fits (f : Fmt) (neg : Bool) : FitsFmt f (f.pack neg (f.maxCode neg)) := pack_fits f neg fun _ => le_refl _

theorem overflow_fits (f : Fmt) (c : Ctl) (neg : Bool) (code : Nat) : FitsFmt f (overflow f c neg code) := by
  unfold overflow
  cases f with
  | int s n =>
    simp only
    split
    · split
      · exact zero_fits _
      · exact big_fits _ _
    · exact pack_fits _ _ fun h => absurd rfl (h s n)
  | _ =>
    simp only
    split
    · split
      · exact zero_fits _
      · exact nan_fits _
    · split
      · exact big_fits _ _
      · split
        · exact nan_fits _
        · rename_i i hi
          have := inf_fits hi
          split
          · exact big_fits _ _
          · split
            · exact this
            · exact big_fits _ _
          · split
            · exact big_fits _ _
            · exact this
          · exact this

theorem infinite_fits (f : Fmt) (c : Ctl) (neg : Bool) : FitsFmt f (infinite f c neg) := by
  unfold infinite
  cases f with
  | int s n =>
    simp only
    split
    · split
      · exact zero_fits _
      · exact big_fits _ _
    · exact zero_fits _
  | _ =>
    simp only
    split
    · rename_i i hi
      exact inf_fits hi
    · split
      · split
        · exact zero_fits _
        · exact big_fits _ _
      · exact nan_fits _

theorem round_fits (f : Fmt) (c : Ctl) (r : Nat) (v : Val) : FitsFmt f (roundTo f c r v).bits := by
  cases v with
  | nan => exact nan_fits f
  | inf s => exact infinite_fits f c s
  | num s n d =>
    unfold roundTo
    simp only
    split
    · exact pack_fits _ _ fun _ => Nat.zero_le _
    · split
      · exact overflow_fits ..
      · generalize (if roundUp c.rnd s r (f.pos n d) = true then (f.pos n d).code + 1 else (f.pos n d).code) = k
        split
        · exact overflow_fits ..
        · rename_i h
          simp only [Bool.or_eq_true, decide_eq_true_eq, not_or, not_lt] at h
          exact pack_fits _ _ fun _ => h.2

/-! ### Packing residues -/

theorem pow_three (k : Nat) : (2 : Int) ^ (4 * k + 3) ≡ 8 [ZMOD 15] := by
  rw [pow_add]
  have := (pow_modEq (nibbles_four k)).mul_right (2 ^ 3)
  rwa [one_mul] at this

/-- The weighted fields of a packed value have its residue. -/
theorem fields_modEq {k m x : Nat} (hm : m ≤ 4 * k + 3) (hx : x < 2 ^ (4 * k + 4)) :
    (8 * (x / 2 ^ (4 * k + 3) % 2 : Nat) + 2 ^ (m % 4) * (x % 2 ^ (4 * k + 3) / 2 ^ m : Nat) + rn (x % 2 ^ m) : Int) ≡ x [ZMOD 15] := by
  have h1 : x / 2 ^ (4 * k + 3) % 2 = x / 2 ^ (4 * k + 3) := by
    apply Nat.mod_eq_of_lt
    apply Nat.div_lt_of_lt_mul
    rw [← Nat.pow_succ]
    exact hx
  have e1 := Nat.mod_add_div x (2 ^ (4 * k + 3))
  have e2 := Nat.mod_add_div (x % 2 ^ (4 * k + 3)) (2 ^ m)
  have e3 : x % 2 ^ (4 * k + 3) % 2 ^ m = x % 2 ^ m := Nat.mod_mod_of_dvd x (Nat.pow_dvd_pow 2 hm)
  rw [e3] at e2
  rw [h1]
  generalize x % 2 ^ (4 * k + 3) / 2 ^ m = e at *
  generalize x / 2 ^ (4 * k + 3) = s at *
  have hxe : (x : Int) = 2 ^ (4 * k + 3) * s + 2 ^ m * e + (x % 2 ^ m : Nat) := by
    have : x = 2 ^ (4 * k + 3) * s + 2 ^ m * e + x % 2 ^ m := by omega
    exact_mod_cast this
  conv_rhs => rw [hxe]
  exact (((pow_three k).symm.mul_right _).add ((pow_four m).symm.mul_right _)).add (rn_modEq _)

theorem predPack_mod {f : Fmt} {x : Nat} (h : FitsFmt f x) : predPack f x = x % 15 := by
  unfold FitsFmt at h
  cases f with
  | ieee t =>
    unfold predPack
    apply m15_modEq
    have hb : ∃ k, t.bits = 4 * k + 4 ∧ t.grid.p - 1 ≤ 4 * k + 3 := by
      cases t
      · exact ⟨15, rfl, by decide⟩
      · exact ⟨7, rfl, by decide⟩
      · exact ⟨3, rfl, by decide⟩
      · exact ⟨3, rfl, by decide⟩
    obtain ⟨k, hk, hm⟩ := hb
    simp only [Fmt.bits] at h
    rw [hk] at h ⊢
    have := fields_modEq hm h
    push_cast at this ⊢
    exact this
  | b8 q =>
    unfold predPack
    apply m15_modEq
    have hm : q.p.toNat - 1 ≤ 7 := by have := q.p.isLt; omega
    simp only [Fmt.bits] at h
    cases hu : q.uns with
    | false =>
      have := fields_modEq (k := 1) hm h
      simp only [Bool.false_eq_true, if_false]
      push_cast at this ⊢
      exact this
    | true =>
      simp only [if_true]
      rw [show x % 256 = x from Nat.mod_eq_of_lt h]
      have e1 : (x : Int) = 2 ^ (q.p.toNat - 1) * (x / 2 ^ (q.p.toNat - 1) : Nat) + (x % 2 ^ (q.p.toNat - 1) : Nat) := by
        exact_mod_cast (Nat.div_add_mod x _).symm
      conv_rhs => rw [e1]
      have := ((pow_four (q.p.toNat - 1)).symm.mul_right ((x / 2 ^ (q.p.toNat - 1) : Nat) : Int)).add (rn_modEq (x % 2 ^ (q.p.toNat - 1)))
      push_cast at this ⊢
      simpa using this
  | bg4 => exact m15_rn x
  | int s n => exact m15_rn x

/-! ### Lanes of floating results -/

theorem float_sound {t : FloatTy} {x : Nat} (h : FitsFmt (.ieee t) x) (poison : Bool) : Sound (laneFloat (.ieee t) x poison) := by
  unfold laneFloat
  apply pred_sound_lt
  · split <;> simp
  · unfold FitsFmt at h
    cases t <;> simp only [Fmt.bits, FloatTy.bits] at h ⊢ <;> norm_num at h ⊢ <;> omega
  · exact predPack_mod h

theorem code_sound {f : Fmt} {x : Nat} (hb : f.bits ≤ 32) (h : FitsFmt f x) (poison : Bool) : Sound (laneCode f x poison) := by
  unfold laneCode
  split
  · exact sound_stages (dup_sound ..) ..
  · exact sound_stages (pred_sound_lt (.inl rfl) (lt_of_lt_of_le h (Nat.pow_le_pow_right (by omega) hb)) (predPack_mod h)) ..

theorem elems_sound {f : Fmt} {xs : List Nat} (hb : Nibbles f.bits) (hl : f.bits * xs.length = 32) (h : ∀ x ∈ xs, FitsFmt f x) (poison : Bool) :
    Sound (laneElems f xs poison) := by
  apply packed_sound hb hl h
  conv_rhs => rw [← List.map_id xs]
  exact sum_mod fun x hx => by rw [predPack_mod (h x hx), Nat.mod_mod]; rfl

theorem mod_fits (t : FloatTy) (m : NegAbs) (x : Nat) : FitsFmt (.ieee t) (applyMod m t.bits x) := by
  unfold FitsFmt applyMod
  have h1 : x % 2 ^ (t.bits - 1) < 2 ^ (t.bits - 1) := Nat.mod_lt _ (Nat.two_pow_pos _)
  have h2 : x % 2 ^ t.bits < 2 ^ t.bits := Nat.mod_lt _ (Nat.two_pow_pos _)
  have hh := half_half t
  simp only [Fmt.bits] at *
  generalize x % 2 ^ (t.bits - 1) = y at *
  generalize x % 2 ^ t.bits = z at *
  split <;> split <;> (try split) <;> omega

theorem choose_fits {max : Bool} {f : Fmt} {x y : Nat} (hx : FitsFmt f x) (hy : FitsFmt f y) : FitsFmt f (fchoose max f x y) := by
  unfold fchoose
  dsimp only
  split
  · exact nan_fits f
  · exact hy
  · exact hx
  · split
    · split <;> assumption
    · split <;> assumption
    · split
      · exact hx
      · split <;> assumption

theorem f2_sound (o : FOp) (t : FloatTy) (ma mb : NegAbs) (e : FEnv) (a b : Nat) (poison : Bool) : Sound (laneF2 o t ma mb e a b poison) :=
  float_sound (round_fits ..) _

theorem ffma_sound (t : FloatTy) (ma mb mc : NegAbs) (e : FEnv) (a b c : Nat) (poison : Bool) :
    Sound (laneFfma t ma mb mc e a b c poison) := float_sound (round_fits ..) _

theorem fminmax_sound (max : Bool) (t : FloatTy) (ma mb : NegAbs) (a b : Nat) (poison : Bool) :
    Sound (laneFminmax max t ma mb a b poison) := float_sound (choose_fits (mod_fits ..) (mod_fits ..)) _

theorem frnd_sound (t : FloatTy) (rm : RMode) (mb : NegAbs) (e : FEnv) (b : Nat) (poison : Bool) : Sound (laneFrnd t rm mb e b poison) := by
  apply float_sound
  unfold frndBits
  dsimp only
  split
  · exact nan_fits _
  · exact mod_fits ..
  · exact round_fits ..

theorem fscl_sound (t : FloatTy) (ma : NegAbs) (e : FEnv) (a b : Nat) (poison : Bool) : Sound (laneFscl t ma e a b poison) :=
  float_sound (round_fits ..) _

theorem fcls_sound (t : FloatTy) (b : Nat) (poison : Bool) : Sound (laneFcls t b poison) := dup_sound ..

theorem elemOp_sound (o : EOp) (f : Fmt) (hf : (∃ bf, f = halfFmt bf) ∨ ∃ q, f = .b8 q) (na nb nc : Bool) (e : FEnv) (a b c : Nat) (poison : Bool) :
    Sound (laneElemOp o f na nb nc e a b c poison) := by
  have hb : Nibbles f.bits ∧ f.bits * (32 / f.bits) = 32 := by
    rcases hf with ⟨bf, rfl⟩ | ⟨q, rfl⟩
    · cases bf <;> exact ⟨nibbles_of rfl, rfl⟩
    · exact ⟨nibbles_of (by simp [Fmt.bits]), by simp [Fmt.bits]⟩
  refine elems_sound hb.1 (by simpa using hb.2) ?_ _
  intro x hx
  obtain ⟨i, -, rfl⟩ := List.mem_map.mp hx
  exact round_fits ..

theorem hminmax_sound (max bf na nb : Bool) (a b : Nat) (poison : Bool) : Sound (laneHminmax max bf na nb a b poison) := by
  have hb : (hfmt bf).bits = 16 := by cases bf <;> rfl
  refine elems_sound (by simp only [Fmt.bits, hb]; exact nibbles_of rfl) (by simp [Fmt.bits, hb]) ?_ _
  intro x hx
  obtain ⟨i, -, rfl⟩ := List.mem_map.mp hx
  have := @mod_fits (hfmt bf)
  rw [hb] at this
  exact choose_fits (this _ _) (this _ _)

theorem qmax_fits (abs : Bool) (q : B8Fmt) {x y : Nat} (hx : x < 2 ^ 8) (hy : y < 2 ^ 8) : FitsFmt (.b8 q) (qmaxElem abs q x y) := by
  have hm : ∀ c, c < 2 ^ 8 → (if abs && !q.uns then c % 128 else c) < 2 ^ 8 := fun c hc => by split <;> omega
  have hn : (Fmt.b8 q).nan < 2 ^ 8 := nan_fits (.b8 q)
  unfold qmaxElem FitsFmt
  dsimp only [Fmt.bits]
  split
  · exact hn
  · exact hm _ hy
  · exact hm _ hx
  · cases hc : abs && !q.uns <;> simp only [Bool.false_eq_true, if_false, if_true] <;> split <;> omega

theorem qmax4_sound (abs : Bool) (q : B8Fmt) (a b : Nat) (poison : Bool) : Sound (laneQmax4 abs q a b poison) := by
  refine elems_sound (f := .b8 q) (nibbles_of (by simp [Fmt.bits])) (by simp [Fmt.bits]) ?_ _
  intro x hx
  obtain ⟨i, -, rfl⟩ := List.mem_map.mp hx
  exact qmax_fits _ _ (elem_lt ..) (elem_lt ..)

theorem dot_sound (e : FEnv) (ps : List Val) (c : Nat) (poison : Bool) : Sound (laneDot e ps c poison) := float_sound (round_fits ..) _

/-! ### Conversions -/

theorem sfn_sound (g : SFn) (t : FloatTy) (e : FEnv) (b : Nat) (poison : Bool) : Sound (laneSfn g t e b poison) :=
  float_sound (round_fits ..) _
theorem fdiv_sound (t : FloatTy) (e : FEnv) (a b : Nat) (poison : Bool) : Sound (laneFdiv t e a b poison) := float_sound (round_fits ..) _
theorem cvt_sound (dt st : FloatTy) (e : FEnv) (b : Nat) (poison : Bool) : Sound (laneCvt dt st e b poison) := float_sound (round_fits ..) _

theorem wide_fits (signed : Bool) (n rm : Nat) (v : Val) : toWideInt signed n rm v < 2 ^ n := by
  have p : ∀ s c, (Fmt.int signed n).pack s c < 2 ^ n := fun s c => pack_fits (.int signed n) s fun h => absurd rfl (h signed n)
  unfold toWideInt
  split
  · exact Nat.two_pow_pos n
  · exact p ..
  · dsimp only
    split
    · exact Nat.two_pow_pos n
    · exact p ..

theorem cvtiTo_sound (it : IntTy) (ft : FloatTy) (rm : RMode) (e : FEnv) (b : Nat) (poison : Bool) :
    Sound (laneCvtiToInt it ft rm e b poison) := by
  unfold laneCvtiToInt
  dsimp only
  apply pred_sound_lt (obits_or it) _ (m15_rn _)
  have hle : (2 : Nat) ^ ibits it ≤ 2 ^ obits it := Nat.pow_le_pow_right (by omega) (by cases it <;> decide)
  refine lt_of_lt_of_le ?_ hle
  split
  · exact round_fits (.int it.signed (ibits it)) ..
  · exact wide_fits ..

theorem cvtiFrom_sound (it : IntTy) (ft : FloatTy) (e : FEnv) (b : Nat) (poison : Bool) : Sound (laneCvtiFromInt it ft e b poison) :=
  float_sound (round_fits ..) _

theorem narrow_bits (nf : NarrowFmt) : (NarrowFmt.fmt nf).bits ≤ 32 := by cases nf <;> simp [NarrowFmt.fmt, Fmt.bits]
theorem quant_bits (nf : QuantFmt) : (QuantFmt.fmt nf).bits ≤ 32 := by cases nf <;> simp [QuantFmt.fmt, Fmt.bits]

theorem cvtnNarrow_sound (nf : NarrowFmt) (wf : WideFmt) (e : FEnv) (b : Nat) (poison : Bool) : Sound (laneCvtnNarrow nf wf e b poison) :=
  code_sound (narrow_bits nf) (round_fits ..) _
theorem cvtnWiden_sound (nf : NarrowFmt) (wf : WideFmt) (e : FEnv) (b : Nat) (poison : Bool) : Sound (laneCvtnWiden nf wf e b poison) :=
  float_sound (round_fits ..) _

theorem qnt_sound (nf : QuantFmt) (e : FEnv) (a b : Nat) (poison : Bool) : Sound (laneQnt nf e a b poison) :=
  code_sound (quant_bits nf) (round_fits ..) _
theorem dqnt_sound (nf : QuantFmt) (wf : WideFmt) (e : FEnv) (a b : Nat) (poison : Bool) : Sound (laneDqnt nf wf e a b poison) :=
  float_sound (round_fits ..) _

theorem channelScale_sound (c : Ctx) (nf : QuantFmt) (e : Bool) : Sound (channelScale c nf e) := by
  unfold channelScale
  dsimp only
  cases e with
  | true => exact pred_sound_lt (.inl rfl) (wrapInt_lt ..) (m15_rn _)
  | false =>
    apply float_sound
    unfold FitsFmt scaleOf
    split
    · simp only [Bool.false_eq_true, if_false]
      split
      · decide
      · exact round_fits (.ieee .f32) ..
    · decide

theorem split_fits (nf : SplitFmt) {x : Nat} (hx : x < 2 ^ (SplitFmt.fmt nf).bits) :
    FitsFmt (SplitFmt.fmt nf) (splitElem (SplitFmt.fmt nf) x).1 ∧ FitsFmt (SplitFmt.fmt nf) (splitElem (SplitFmt.fmt nf) x).2 := by
  unfold splitElem
  split
  · rename_i s n hf
    rw [hf]
    exact ⟨wrapInt_lt .., wrapInt_lt ..⟩
  · split
    · exact ⟨round_fits .., round_fits ..⟩
    · exact ⟨hx, hx⟩

theorem splitFmt_bits (nf : SplitFmt) : Nibbles (SplitFmt.fmt nf).bits ∧ (SplitFmt.fmt nf).bits * (32 / (SplitFmt.fmt nf).bits) = 32 := by
  cases nf <;> exact ⟨nibbles_of (by simp [SplitFmt.fmt, Fmt.bits, FloatTy.bits]), by simp [SplitFmt.fmt, Fmt.bits, FloatTy.bits]⟩

theorem word_sum_mod {n : Nat} {l : List Nat} (hn : Nibbles n) (hl : n * l.length = 32) (h : ∀ x ∈ l, x < 2 ^ n) :
    res (BitVec.ofNat 32 (packEls n l)) = l.sum % 15 := by
  have := packEls_lt h
  rw [hl] at this
  rw [res_mod, BitVec.toNat_ofNat, Nat.mod_eq_of_lt this, packEls_mod hn]

theorem qspl_sound (nf : SplitFmt) (b : Nat) (poison : Bool) : Sound (laneQspl nf b poison) := by
  obtain ⟨hn, hl⟩ := splitFmt_bits nf
  apply sound_of_check
  unfold laneQspl
  dsimp only
  have fits : ∀ i, _ := fun i => split_fits nf (elem_lt (SplitFmt.fmt nf).bits b i)
  generalize SplitFmt.fmt nf = f at *
  unfold predicted
  rw [if_pos (by simp), if_pos]
  rw [beq_iff_eq]
  simp only [List.map_cons, List.map_nil, List.cons.injEq, and_true]
  constructor
  · rw [word_sum_mod hn (by simpa using hl)]
    · exact sum_mod fun p hp => by
        obtain ⟨j, -, rfl⟩ := List.mem_map.mp hp
        rw [predPack_mod (fits j).1, Nat.mod_mod]
    · intro x hx
      simp only [List.map_map, List.mem_map, Function.comp] at hx
      obtain ⟨i, -, rfl⟩ := hx
      exact (fits i).1
  · rw [word_sum_mod hn (by simpa using hl)]
    · exact sum_mod fun p hp => by
        obtain ⟨j, -, rfl⟩ := List.mem_map.mp hp
        rw [predPack_mod (fits j).2, Nat.mod_mod]
    · intro x hx
      simp only [List.map_map, List.mem_map, Function.comp] at hx
      obtain ⟨i, -, rfl⟩ := hx
      exact (fits i).2

theorem packBits_ok (sz : PackSz) : Nibbles (packBits sz) ∧ packBits sz * (32 / packBits sz) = 32 ∧ packBits sz ≤ 32 ∧ 0 < packBits sz := by
  cases sz <;> exact ⟨nibbles_of rfl, rfl, by decide, by decide⟩

theorem pack_sound (sz : PackSz) (pos old a b : Nat) (poison : Bool) : Sound (lanePack sz pos old a b poison) := by
  obtain ⟨hn, hl, -, -⟩ := packBits_ok sz
  apply packed_sound hn (by simpa using hl)
  · intro x hx
    obtain ⟨i, -, rfl⟩ := List.mem_map.mp hx
    split
    · exact elem_lt ..
    · split <;> exact elem_lt ..
  · exact ielem_nibble_sum _

/-- The residue of a sign-extended element is its own: the bits shifted in are whole words of ones. -/
theorem unpk_sound (sz : PackSz) (pos : Nat) (sx : Bool) (b : Nat) (poison : Bool) : Sound (laneUnpk sz pos sx b poison) := by
  obtain ⟨hn, -, hle, h0⟩ := packBits_ok sz
  unfold laneUnpk
  dsimp only
  apply pred_sound_lt (.inl rfl) (wrapInt_lt ..)
  rw [m15_rn]
  have hx := elem_lt (packBits sz) b pos
  generalize elem (packBits sz) b pos = x at *
  generalize packBits sz = n at *
  obtain ⟨z, hz⟩ := wrapInt_eq 32 (ival sx n x)
  have e1 := ival_shift (signed := sx) h0 hx
  have hs : sgn sx n x = 0 ∨ sgn sx n x = 1 := by unfold sgn; split <;> omega
  have hle2 : (2 : Nat) ^ n ≤ 2 ^ 32 := Nat.pow_le_pow_right (by omega) hle
  have hle3 : (2 : Int) ^ n ≤ 2 ^ 32 := by exact_mod_cast hle2
  have key : (wrapInt 32 (ival sx n x) : Int) ≡ x [ZMOD 15] := by
    have h2 : (wrapInt 32 (ival sx n x) : Int) = x - 2 ^ n * (sgn sx n x : Int) - 2 ^ 32 * z := by linarith
    have hw := wrapInt_lt 32 (ival sx n x)
    have hx' : (x : Int) < 2 ^ n := by exact_mod_cast hx
    have hzs : z = -(sgn sx n x : Int) := by
      rcases hs with h | h
      · rw [h] at h2 ⊢
        simp only [Nat.cast_zero, mul_zero, sub_zero, neg_zero] at *
        omega
      · rw [h] at h2 ⊢
        simp only [Nat.cast_one, mul_one] at *
        omega
    rw [h2, hzs]
    have h3 := ((Int.ModEq.refl (x : Int)).sub (mulPow_modEq hn (sgn sx n x : Int))).sub (mulPow_modEq nibbles32 (-(sgn sx n x : Int)))
    refine h3.trans ?_
    rw [show (x : Int) - (sgn sx n x : Int) - -(sgn sx n x : Int) = x by ring]
  unfold Int.ModEq at key
  omega

/-! ### Reductions -/

theorem foldl_fits {P : Nat → Prop} {f : Nat → Nat → Nat} (hf : ∀ a x, P a → P x → P (f a x)) {l : List Nat} (hl : ∀ x ∈ l, P x) {a : Nat}
    (ha : P a) : P (l.foldl f a) := by
  induction l generalizing a with
  | nil => exact ha
  | cons x xs ih => exact ih (fun y hy => hl y (by simp [hy])) (hf _ _ ha (hl x (by simp)))

theorem redInt_fits (t : IntTy) (op : RedOp) {xs : List Nat} (hx : ∀ x ∈ xs, x < 2 ^ ibits t) : redInt t op xs < 2 ^ ibits t := by
  have hp := Nat.two_pow_pos (ibits t)
  unfold redInt
  cases op
  · exact foldl_fits (P := (· < 2 ^ ibits t)) (fun a x _ _ => Nat.mod_lt _ hp) hx hp
  all_goals first
    | exact wrapInt_lt ..
    | exact foldl_fits (P := (· < 2 ^ ibits t)) (fun a x _ h => Nat.and_lt_two_pow a h) hx (by omega)
    | exact foldl_fits (P := (· < 2 ^ ibits t)) (fun a x h1 h2 => Nat.or_lt_two_pow h1 h2) hx hp
    | exact foldl_fits (P := (· < 2 ^ ibits t)) (fun a x h1 h2 => Nat.xor_lt_two_pow h1 h2) hx hp

theorem redFloat_fits (t : FloatTy) (op : RedOp) (e : FEnv) {xs : List Nat} (hx : ∀ x ∈ xs, FitsFmt (.ieee t) x) :
    FitsFmt (.ieee t) (redFloat t op e xs) := by
  have hinf : FitsFmt (.ieee t) t.infCode ∧ FitsFmt (.ieee t) (2 ^ (t.bits - 1) + t.infCode) := by unfold FitsFmt; cases t <;> decide
  unfold redFloat
  dsimp only
  split
  · split
    · exact hinf.1
    · split
      · exact nan_fits _
      · exact foldl_fits (P := FitsFmt (.ieee t)) (fun a x => choose_fits) (fun y hy => hx y (by simp [hy])) (hx _ (by simp))
  · split
    · exact hinf.2
    · split
      · exact nan_fits _
      · exact foldl_fits (P := FitsFmt (.ieee t)) (fun a x => choose_fits) (fun y hy => hx y (by simp [hy])) (hx _ (by simp))
  · split
    · exact zero_fits _
    · exact round_fits ..

/-- The operands of a reduction lie in its type. -/
def RedFits (ty : RedTy) (x : Nat) : Prop :=
  (∀ t, redIntTy ty = some t → x < 2 ^ ibits t) ∧ (∀ t, redFloatTy ty = some t → FitsFmt (.ieee t) x)

theorem red_sound (ty : RedTy) (op : RedOp) (e : FEnv) {xs : List Nat} (hx : ∀ x ∈ xs, RedFits ty x) (poison : Bool) : Sound (laneRed ty op e xs poison) := by
  unfold laneRed
  split
  · rename_i t ht
    dsimp only
    apply pred_sound_lt (obits_or t) _ (m15_rn _)
    have hle : (2 : Nat) ^ ibits t ≤ 2 ^ obits t := Nat.pow_le_pow_right (by omega) (by cases t <;> decide)
    exact lt_of_lt_of_le (redInt_fits t op fun x h => (hx x h).1 t ht) hle
  · rename_i t _ ht
    exact float_sound (redFloat_fits t op e fun x h => (hx x h).2 t ht) _
  · exact pred_sound (.inl rfl) rfl

end Sys2Proof.Safety
end

