-- ==== Sys2Proof/Laws/PerInstr.lean ====
section
/-! SUPPORT. For each instruction: the hint fields of its word are the hints it is written with (Table 8.5); an event has
none. -/

namespace Sys2Proof.Laws
open Sys2Proof

theorem getLsbD_low {m n : Nat} (x : BitVec m) (y : BitVec n) (i : Nat) (h : i < n) :
    (x ++ y).getLsbD i = y.getLsbD i := by simp [BitVec.getLsbD_append, h]

theorem getLsbD_flag {n : Nat} (b : Bool) (y : BitVec n) : (BitVec.ofBool b ++ y).getLsbD n = b := by
  rw [BitVec.getLsbD_append]; simp

theorem extract_low {m n : Nat} (x : BitVec m) (y : BitVec n) (k l : Nat) (h : k + l ≤ n) :
    (x ++ y).extractLsb' k l = y.extractLsb' k l := by
  apply BitVec.eq_of_getLsbD_eq
  intro i hi
  simp [BitVec.getLsbD_append, show k + i < n by omega]

theorem extract_top {m n : Nat} (x : BitVec m) (y : BitVec n) : (x ++ y).extractLsb' n m = x := by
  apply BitVec.eq_of_getLsbD_eq
  intro i hi
  simp [BitVec.getLsbD_append, hi]

/-- The hint fields of a word of given fields. -/
theorem fields_of_word (r : Raw) : (Raw.ofWord r.toWord).h = r.h := by
  obtain ⟨op, md, ⟨gneg, gidx, st, ps, yld, reuse⟩, d, a, b⟩ := r
  simp only [Raw.ofWord, Raw.toWord, bit1, Hints.mk.injEq]
  refine ⟨?_, ?_, ?_, ?_, ?_, ?_⟩
  · exact (getLsbD_low op _ 75 (by omega)).trans ((getLsbD_low md _ 75 (by omega)).trans (getLsbD_flag gneg _))
  · exact (extract_low op _ 71 4 (by omega)).trans ((extract_low md _ 71 4 (by omega)).trans
      ((extract_low (BitVec.ofBool gneg) _ 71 4 (by omega)).trans (extract_top gidx _)))
  · exact (extract_low op _ 67 4 (by omega)).trans ((extract_low md _ 67 4 (by omega)).trans
      ((extract_low (BitVec.ofBool gneg) _ 67 4 (by omega)).trans ((extract_low gidx _ 67 4 (by omega)).trans (extract_top st _))))
  · exact (extract_low op _ 64 3 (by omega)).trans ((extract_low md _ 64 3 (by omega)).trans
      ((extract_low (BitVec.ofBool gneg) _ 64 3 (by omega)).trans ((extract_low gidx _ 64 3 (by omega)).trans
        ((extract_low st _ 64 3 (by omega)).trans (extract_top ps _)))))
  · exact (getLsbD_low op _ 63 (by omega)).trans ((getLsbD_low md _ 63 (by omega)).trans
      ((getLsbD_low (BitVec.ofBool gneg) _ 63 (by omega)).trans ((getLsbD_low gidx _ 63 (by omega)).trans
        ((getLsbD_low st _ 63 (by omega)).trans ((getLsbD_low ps _ 63 (by omega)).trans (getLsbD_flag yld _))))))
  · exact (getLsbD_low op _ 62 (by omega)).trans ((getLsbD_low md _ 62 (by omega)).trans
      ((getLsbD_low (BitVec.ofBool gneg) _ 62 (by omega)).trans ((getLsbD_low gidx _ 62 (by omega)).trans
        ((getLsbD_low st _ 62 (by omega)).trans ((getLsbD_low ps _ 62 (by omega)).trans
          ((getLsbD_low (BitVec.ofBool yld) _ 62 (by omega)).trans (getLsbD_flag reuse _)))))))


end Sys2Proof.Laws

namespace Sys2Proof.Laws.HintsField
open Sys2Proof

/-- The guard, stall, pending-slot, yield and reuse fields of the encoding. -/
def Statement (i : Instr) : Prop := ∀ h, i.hints? = some h → (Raw.ofWord (encode i)).h = h

theorem nop (h : Hints) : Statement (.nop h) := fun _ e => Option.some.inj e ▸ fields_of_word _
theorem bra (h : Hints) (off : Word) : Statement (.bra h off) := fun _ e => Option.some.inj e ▸ fields_of_word _
theorem brx (h : Hints) (a : Reg) : Statement (.brx h a) := fun _ e => Option.some.inj e ▸ fields_of_word _
theorem call (h : Hints) (sv : Option Reg) (off : Word) : Statement (.call h sv off) := fun _ e => Option.some.inj e ▸ fields_of_word _
theorem callx (h : Hints) (sv : Option Reg) (a : Reg) : Statement (.callx h sv a) := fun _ e => Option.some.inj e ▸ fields_of_word _
theorem ret (h : Hints) (ld : Option Reg) : Statement (.ret h ld) := fun _ e => Option.some.inj e ▸ fields_of_word _
theorem exit (h : Hints) : Statement (.exit h) := fun _ e => Option.some.inj e ▸ fields_of_word _
theorem rcv (h : Hints) (off : Word) : Statement (.rcv h off) := fun _ e => Option.some.inj e ▸ fields_of_word _
theorem join (h : Hints) : Statement (.join h) := fun _ e => Option.some.inj e ▸ fields_of_word _
theorem cut (h : Hints) (b : Opd) : Statement (.cut h b) := fun _ e => Option.some.inj e ▸ fields_of_word _
theorem cutWaitEnd (r : TgRef) : Statement (.cutWaitEnd r) := nofun
theorem yield (h : Hints) : Statement (.yield h) := fun _ e => Option.some.inj e ▸ fields_of_word _
theorem brk (h : Hints) (code : BitVec 16) : Statement (.brk h code) := fun _ e => Option.some.inj e ▸ fields_of_word _
theorem trap (h : Hints) (code : BitVec 16) : Statement (.trap h code) := fun _ e => Option.some.inj e ▸ fields_of_word _
theorem tret (h : Hints) : Statement (.tret h) := fun _ e => Option.some.inj e ▸ fields_of_word _
theorem lnch (h : Hints) (after : Bool) (d : U) (a : U) : Statement (.lnch h after d a) := fun _ e => Option.some.inj e ▸ fields_of_word _
theorem iadd (h : Hints) (ty : IntTy) (sat : Bool) (d : Reg) (a : Reg) (b : Opd) : Statement (.iadd h ty sat d a b) := fun _ e => Option.some.inj e ▸ fields_of_word _
theorem iaddx (h : Hints) (ty : IntTy) (d : Reg) (co : BitVec 3) (a : Reg) (b : Opd) (ci : Option (BitVec 3)) : Statement (.iaddx h ty d co a b ci) := fun _ e => Option.some.inj e ▸ fields_of_word _
theorem isub (h : Hints) (ty : IntTy) (sat : Bool) (d : Reg) (a : Reg) (b : Opd) : Statement (.isub h ty sat d a b) := fun _ e => Option.some.inj e ▸ fields_of_word _
theorem ineg (h : Hints) (ty : IntTy) (sat : Bool) (d : Reg) (b : Opd) : Statement (.ineg h ty sat d b) := fun _ e => Option.some.inj e ▸ fields_of_word _
theorem iabs (h : Hints) (ty : IntTy) (sat : Bool) (d : Reg) (b : Opd) : Statement (.iabs h ty sat d b) := fun _ e => Option.some.inj e ▸ fields_of_word _
theorem imin (h : Hints) (ty : IntTy) (d : Reg) (a : Reg) (b : Opd) : Statement (.imin h ty d a b) := fun _ e => Option.some.inj e ▸ fields_of_word _
theorem imax (h : Hints) (ty : IntTy) (d : Reg) (a : Reg) (b : Opd) : Statement (.imax h ty d a b) := fun _ e => Option.some.inj e ▸ fields_of_word _
theorem imul (h : Hints) (ty : IntTy) (sat : Bool) (d : Reg) (a : Reg) (b : Opd) : Statement (.imul h ty sat d a b) := fun _ e => Option.some.inj e ▸ fields_of_word _
theorem imulh (h : Hints) (ty : IntTy) (d : Reg) (a : Reg) (b : Opd) : Statement (.imulh h ty d a b) := fun _ e => Option.some.inj e ▸ fields_of_word _
theorem imad (h : Hints) (ty : IntTy) (d : Reg) (a : Reg) (b : Opd) (c : Reg) : Statement (.imad h ty d a b c) := fun _ e => Option.some.inj e ▸ fields_of_word _
theorem imadw (h : Hints) (ty : IntTy) (d : Reg) (a : Reg) (b : Opd) (c : Reg) : Statement (.imadw h ty d a b c) := fun _ e => Option.some.inj e ▸ fields_of_word _
theorem idiv (h : Hints) (ty : IntTy) (d : Reg) (a : Reg) (b : Opd) : Statement (.idiv h ty d a b) := fun _ e => Option.some.inj e ▸ fields_of_word _
theorem irem (h : Hints) (ty : IntTy) (d : Reg) (a : Reg) (b : Opd) : Statement (.irem h ty d a b) := fun _ e => Option.some.inj e ▸ fields_of_word _
theorem idot4 (h : Hints) (ty : IntTy) (mix : Bool) (d : Reg) (a : Reg) (b : Opd) (c : Reg) : Statement (.idot4 h ty mix d a b c) := fun _ e => Option.some.inj e ▸ fields_of_word _
theorem isad (h : Hints) (ty : IntTy) (d : Reg) (a : Reg) (b : Opd) (c : Reg) : Statement (.isad h ty d a b c) := fun _ e => Option.some.inj e ▸ fields_of_word _
theorem iclamp (h : Hints) (ty : IntTy) (d : Reg) (a : Reg) (b : Opd) (c : Reg) : Statement (.iclamp h ty d a b c) := fun _ e => Option.some.inj e ▸ fields_of_word _
theorem lea (h : Hints) (ty : IntTy) (k : BitVec 3) (d : Reg) (a : Reg) (b : Opd) : Statement (.lea h ty k d a b) := fun _ e => Option.some.inj e ▸ fields_of_word _
theorem and (h : Hints) (w : Bool) (d : Reg) (a : Reg) (b : Opd) : Statement (.and h w d a b) := fun _ e => Option.some.inj e ▸ fields_of_word _
theorem or (h : Hints) (w : Bool) (d : Reg) (a : Reg) (b : Opd) : Statement (.or h w d a b) := fun _ e => Option.some.inj e ▸ fields_of_word _
theorem xor (h : Hints) (w : Bool) (d : Reg) (a : Reg) (b : Opd) : Statement (.xor h w d a b) := fun _ e => Option.some.inj e ▸ fields_of_word _
theorem andn (h : Hints) (w : Bool) (d : Reg) (a : Reg) (b : Opd) : Statement (.andn h w d a b) := fun _ e => Option.some.inj e ▸ fields_of_word _
theorem orn (h : Hints) (w : Bool) (d : Reg) (a : Reg) (b : Opd) : Statement (.orn h w d a b) := fun _ e => Option.some.inj e ▸ fields_of_word _
theorem lop3 (h : Hints) (w : Bool) (f0 : BitVec 4) (f1 : BitVec 4) (d : Reg) (a : Reg) (b : Opd) (c : Reg) : Statement (.lop3 h w f0 f1 d a b c) := fun _ e => Option.some.inj e ▸ fields_of_word _
theorem shl (h : Hints) (w : Bool) (wrap : Bool) (d : Reg) (a : Reg) (b : Opd) : Statement (.shl h w wrap d a b) := fun _ e => Option.some.inj e ▸ fields_of_word _
theorem shr (h : Hints) (w : Bool) (wrap : Bool) (d : Reg) (a : Reg) (b : Opd) : Statement (.shr h w wrap d a b) := fun _ e => Option.some.inj e ▸ fields_of_word _
theorem sar (h : Hints) (w : Bool) (wrap : Bool) (d : Reg) (a : Reg) (b : Opd) : Statement (.sar h w wrap d a b) := fun _ e => Option.some.inj e ▸ fields_of_word _
theorem rol (h : Hints) (w : Bool) (d : Reg) (a : Reg) (b : Opd) : Statement (.rol h w d a b) := fun _ e => Option.some.inj e ▸ fields_of_word _
theorem fsh (h : Hints) (left : Bool) (d : Reg) (a : Reg) (b : Opd) (c : Reg) : Statement (.fsh h left d a b c) := fun _ e => Option.some.inj e ▸ fields_of_word _
theorem popc (h : Hints) (w : Bool) (d : Reg) (b : Opd) : Statement (.popc h w d b) := fun _ e => Option.some.inj e ▸ fields_of_word _
theorem clz (h : Hints) (w : Bool) (d : Reg) (b : Opd) : Statement (.clz h w d b) := fun _ e => Option.some.inj e ▸ fields_of_word _
theorem ctz (h : Hints) (w : Bool) (d : Reg) (b : Opd) : Statement (.ctz h w d b) := fun _ e => Option.some.inj e ▸ fields_of_word _
theorem brev (h : Hints) (w : Bool) (d : Reg) (b : Opd) : Statement (.brev h w d b) := fun _ e => Option.some.inj e ▸ fields_of_word _
theorem bfx (h : Hints) (ty : IntTy) (d : Reg) (a : Reg) (b : Opd) : Statement (.bfx h ty d a b) := fun _ e => Option.some.inj e ▸ fields_of_word _
theorem bfi (h : Hints) (w : Bool) (d : Reg) (a : Reg) (b : Opd) (c : Reg) : Statement (.bfi h w d a b c) := fun _ e => Option.some.inj e ▸ fields_of_word _
theorem permb (h : Hints) (d : Reg) (a : Reg) (b : Opd) (c : Reg) : Statement (.permb h d a b c) := fun _ e => Option.some.inj e ▸ fields_of_word _
theorem icmp (h : Hints) (ty : IntTy) (cmp : ICond) (comb : Comb) (g : BitVec 3) (a : Reg) (b : Opd) : Statement (.icmp h ty cmp comb g a b) := fun _ e => Option.some.inj e ▸ fields_of_word _
theorem fcmp (h : Hints) (ty : FloatTy) (cmp : FCond) (comb : Comb) (g : BitVec 3) (a : Reg) (b : Opd) : Statement (.fcmp h ty cmp comb g a b) := fun _ e => Option.some.inj e ▸ fields_of_word _
theorem gset (h : Hints) (lut : BitVec 4) (g : BitVec 3) (ga : BitVec 3) (gb : BitVec 3) : Statement (.gset h lut g ga gb) := fun _ e => Option.some.inj e ▸ fields_of_word _
theorem gsetNz (h : Hints) (g : BitVec 3) (b : Opd) : Statement (.gsetNz h g b) := fun _ e => Option.some.inj e ▸ fields_of_word _
theorem gmov (h : Hints) (w : Bool) (n : BitVec 3) (neg : Bool) (d : Reg) (a : Reg) (b : Opd) : Statement (.gmov h w n neg d a b) := fun _ e => Option.some.inj e ▸ fields_of_word _
theorem sel (h : Hints) (w : Bool) (d : Reg) (a : Reg) (b : Opd) (c : Reg) : Statement (.sel h w d a b c) := fun _ e => Option.some.inj e ▸ fields_of_word _
theorem mov (h : Hints) (w : Bool) (d : Reg) (b : Opd) : Statement (.mov h w d b) := fun _ e => Option.some.inj e ▸ fields_of_word _
theorem rsd (h : Hints) (w : Bool) (raw : Bool) (d : Reg) (b : Opd) : Statement (.rsd h w raw d b) := fun _ e => Option.some.inj e ▸ fields_of_word _
theorem rsdp (h : Hints) (w : Bool) (d : Reg) (b : Opd) : Statement (.rsdp h w d b) := fun _ e => Option.some.inj e ▸ fields_of_word _
theorem rsdq (h : Hints) (w : Bool) (g : BitVec 3) (b : Opd) : Statement (.rsdq h w g b) := fun _ e => Option.some.inj e ▸ fields_of_word _
theorem fadd (h : Hints) (ty : FloatTy) (ma mb : NegAbs) (d : Reg) (a : Reg) (b : Opd) : Statement (.fadd h ty ma mb d a b) := fun _ e => Option.some.inj e ▸ fields_of_word _
theorem fsub (h : Hints) (ty : FloatTy) (ma mb : NegAbs) (d : Reg) (a : Reg) (b : Opd) : Statement (.fsub h ty ma mb d a b) := fun _ e => Option.some.inj e ▸ fields_of_word _
theorem fmul (h : Hints) (ty : FloatTy) (ma mb : NegAbs) (d : Reg) (a : Reg) (b : Opd) : Statement (.fmul h ty ma mb d a b) := fun _ e => Option.some.inj e ▸ fields_of_word _
theorem ffma (h : Hints) (ty : FloatTy) (ma mb mc : NegAbs) (d : Reg) (a : Reg) (b : Opd) (c : Reg) : Statement (.ffma h ty ma mb mc d a b c) := fun _ e => Option.some.inj e ▸ fields_of_word _
theorem fmin (h : Hints) (ty : FloatTy) (ma mb : NegAbs) (d : Reg) (a : Reg) (b : Opd) : Statement (.fmin h ty ma mb d a b) := fun _ e => Option.some.inj e ▸ fields_of_word _
theorem fmax (h : Hints) (ty : FloatTy) (ma mb : NegAbs) (d : Reg) (a : Reg) (b : Opd) : Statement (.fmax h ty ma mb d a b) := fun _ e => Option.some.inj e ▸ fields_of_word _
theorem frnd (h : Hints) (ty : FloatTy) (rm : RMode) (mb : NegAbs) (d : Reg) (b : Opd) : Statement (.frnd h ty rm mb d b) := fun _ e => Option.some.inj e ▸ fields_of_word _
theorem fscl (h : Hints) (ty : FloatTy) (ma : NegAbs) (d : Reg) (a : Reg) (b : Opd) : Statement (.fscl h ty ma d a b) := fun _ e => Option.some.inj e ▸ fields_of_word _
theorem fcls (h : Hints) (ty : FloatTy) (d : Reg) (b : Opd) : Statement (.fcls h ty d b) := fun _ e => Option.some.inj e ▸ fields_of_word _
theorem hadd2 (h : Hints) (bf na nb : Bool) (d : Reg) (a : Reg) (b : Opd) : Statement (.hadd2 h bf na nb d a b) := fun _ e => Option.some.inj e ▸ fields_of_word _
theorem hmul2 (h : Hints) (bf na nb : Bool) (d : Reg) (a : Reg) (b : Opd) : Statement (.hmul2 h bf na nb d a b) := fun _ e => Option.some.inj e ▸ fields_of_word _
theorem hfma2 (h : Hints) (bf na nb nc : Bool) (d : Reg) (a : Reg) (b : Opd) (c : Reg) : Statement (.hfma2 h bf na nb nc d a b c) := fun _ e => Option.some.inj e ▸ fields_of_word _
theorem hmin2 (h : Hints) (bf na nb : Bool) (d : Reg) (a : Reg) (b : Opd) : Statement (.hmin2 h bf na nb d a b) := fun _ e => Option.some.inj e ▸ fields_of_word _
theorem hmax2 (h : Hints) (bf na nb : Bool) (d : Reg) (a : Reg) (b : Opd) : Statement (.hmax2 h bf na nb d a b) := fun _ e => Option.some.inj e ▸ fields_of_word _
theorem qadd4 (h : Hints) (q : B8Fmt) (d : Reg) (a : Reg) (b : Opd) : Statement (.qadd4 h q d a b) := fun _ e => Option.some.inj e ▸ fields_of_word _
theorem qmul4 (h : Hints) (q : B8Fmt) (d : Reg) (a : Reg) (b : Opd) : Statement (.qmul4 h q d a b) := fun _ e => Option.some.inj e ▸ fields_of_word _
theorem qfma4 (h : Hints) (q : B8Fmt) (d : Reg) (a : Reg) (b : Opd) (c : Reg) : Statement (.qfma4 h q d a b c) := fun _ e => Option.some.inj e ▸ fields_of_word _
theorem qmax4 (h : Hints) (abs : Bool) (q : B8Fmt) (d : Reg) (a : Reg) (b : Opd) : Statement (.qmax4 h abs q d a b) := fun _ e => Option.some.inj e ▸ fields_of_word _
theorem dot2 (h : Hints) (bf : Bool) (d : Reg) (a : Reg) (b : Opd) (c : Reg) : Statement (.dot2 h bf d a b c) := fun _ e => Option.some.inj e ▸ fields_of_word _
theorem dot4q (h : Hints) (qa qb : B8Fmt) (d : Reg) (a : Reg) (b : Opd) (c : Reg) : Statement (.dot4q h qa qb d a b c) := fun _ e => Option.some.inj e ▸ fields_of_word _
theorem dotbg (h : Hints) (d : Reg) (a : Reg) (b : Opd) (c : Reg) : Statement (.dotbg h d a b c) := fun _ e => Option.some.inj e ▸ fields_of_word _
theorem rcp (h : Hints) (ty : FloatTy) (d : Reg) (b : Opd) : Statement (.rcp h ty d b) := fun _ e => Option.some.inj e ▸ fields_of_word _
theorem rsq (h : Hints) (ty : FloatTy) (d : Reg) (b : Opd) : Statement (.rsq h ty d b) := fun _ e => Option.some.inj e ▸ fields_of_word _
theorem sqrt (h : Hints) (ty : FloatTy) (d : Reg) (b : Opd) : Statement (.sqrt h ty d b) := fun _ e => Option.some.inj e ▸ fields_of_word _
theorem fdiv (h : Hints) (ty : FloatTy) (d : Reg) (a : Reg) (b : Opd) : Statement (.fdiv h ty d a b) := fun _ e => Option.some.inj e ▸ fields_of_word _
theorem exp2 (h : Hints) (ty : FloatTy) (d : Reg) (b : Opd) : Statement (.exp2 h ty d b) := fun _ e => Option.some.inj e ▸ fields_of_word _
theorem log2 (h : Hints) (ty : FloatTy) (d : Reg) (b : Opd) : Statement (.log2 h ty d b) := fun _ e => Option.some.inj e ▸ fields_of_word _
theorem sin (h : Hints) (ty : FloatTy) (d : Reg) (b : Opd) : Statement (.sin h ty d b) := fun _ e => Option.some.inj e ▸ fields_of_word _
theorem cos (h : Hints) (ty : FloatTy) (d : Reg) (b : Opd) : Statement (.cos h ty d b) := fun _ e => Option.some.inj e ▸ fields_of_word _
theorem tanh (h : Hints) (ty : FloatTy) (d : Reg) (b : Opd) : Statement (.tanh h ty d b) := fun _ e => Option.some.inj e ▸ fields_of_word _
theorem cvt (h : Hints) (dt st : FloatTy) (d : Reg) (b : Opd) : Statement (.cvt h dt st d b) := fun _ e => Option.some.inj e ▸ fields_of_word _
theorem cvtiToInt (h : Hints) (it : IntTy) (ft : FloatTy) (rm : RMode) (d : Reg) (b : Opd) : Statement (.cvtiToInt h it ft rm d b) := fun _ e => Option.some.inj e ▸ fields_of_word _
theorem cvtiFromInt (h : Hints) (it : IntTy) (ft : FloatTy) (d : Reg) (b : Opd) : Statement (.cvtiFromInt h it ft d b) := fun _ e => Option.some.inj e ▸ fields_of_word _
theorem cvtnNarrow (h : Hints) (nf : NarrowFmt) (wf : WideFmt) (d : Reg) (b : Opd) : Statement (.cvtnNarrow h nf wf d b) := fun _ e => Option.some.inj e ▸ fields_of_word _
theorem cvtnWiden (h : Hints) (nf : NarrowFmt) (wf : WideFmt) (d : Reg) (b : Opd) : Statement (.cvtnWiden h nf wf d b) := fun _ e => Option.some.inj e ▸ fields_of_word _
theorem qnt (h : Hints) (nf : QuantFmt) (gs : Option (BitVec 3)) (d : Reg) (a : Reg) (b : Opd) (c : Reg) : Statement (.qnt h nf gs d a b c) := fun _ e => Option.some.inj e ▸ fields_of_word _
theorem dqnt (h : Hints) (nf : QuantFmt) (wf : WideFmt) (d : Reg) (a : Reg) (b : Opd) : Statement (.dqnt h nf wf d a b) := fun _ e => Option.some.inj e ▸ fields_of_word _
theorem qscl (h : Hints) (nf : QuantFmt) (e : Bool) (d : Reg) (b : Opd) : Statement (.qscl h nf e d b) := fun _ e => Option.some.inj e ▸ fields_of_word _
theorem qspl (h : Hints) (nf : SplitFmt) (d : Reg) (b : Opd) : Statement (.qspl h nf d b) := fun _ e => Option.some.inj e ▸ fields_of_word _
theorem qsplRec (h : Hints) (d : U) (a : U) (b : Opd) : Statement (.qsplRec h d a b) := fun _ e => Option.some.inj e ▸ fields_of_word _
theorem pack (h : Hints) (sz : PackSz) (pos : BitVec 3) (d : Reg) (a : Reg) (b : Opd) : Statement (.pack h sz pos d a b) := fun _ e => Option.some.inj e ▸ fields_of_word _
theorem unpk (h : Hints) (sz : PackSz) (pos : BitVec 3) (sx : Bool) (d : Reg) (b : Opd) : Statement (.unpk h sz pos sx d b) := fun _ e => Option.some.inj e ▸ fields_of_word _
theorem shfl (h : Hints) (mode : ShflMode) (w : Bool) (seg : BitVec 3) (d : Reg) (a : Reg) (b : Opd) : Statement (.shfl h mode w seg d a b) := fun _ e => Option.some.inj e ▸ fields_of_word _
theorem vote (h : Hints) (form : VoteForm) (neg : Bool) (ga : BitVec 3) : Statement (.vote h form neg ga) := by
  rintro _ ⟨⟩
  cases form <;> exact fields_of_word _
theorem lred (h : Hints) (ty : RedTy) (op : RedOp) (d : Reg) (b : Opd) : Statement (.lred h ty op d b) := fun _ e => Option.some.inj e ▸ fields_of_word _
theorem lscn (h : Hints) (ty : RedTy) (op : RedOp) (exc : Bool) (d : Reg) (b : Opd) : Statement (.lscn h ty op exc d b) := fun _ e => Option.some.inj e ▸ fields_of_word _
theorem mtch (h : Hints) (w : Bool) (d : Reg) (b : Opd) : Statement (.mtch h w d b) := fun _ e => Option.some.inj e ▸ fields_of_word _
theorem rdln (h : Hints) (w : Bool) (d : U) (a : Reg) (b : Opd) : Statement (.rdln h w d a b) := fun _ e => Option.some.inj e ▸ fields_of_word _
theorem wrln (h : Hints) (w : Bool) (d : BitVec 8) (a : U) (b : Opd) : Statement (.wrln h w d a b) := fun _ e => Option.some.inj e ▸ fields_of_word _
theorem ld (h : Hints) (sz : MemSz) (mis nt : Bool) (d : Reg) (a : Reg) (b : Opd) : Statement (.ld h sz mis nt d a b) := fun _ e => Option.some.inj e ▸ fields_of_word _
theorem st (h : Hints) (sz : MemSz) (mis nt : Bool) (d : Reg) (a : Reg) (b : Opd) : Statement (.st h sz mis nt d a b) := fun _ e => Option.some.inj e ▸ fields_of_word _
theorem lda (h : Hints) (sz : MemSz) (sc : Scope) (d : Reg) (a : Reg) (b : Opd) : Statement (.lda h sz sc d a b) := fun _ e => Option.some.inj e ▸ fields_of_word _
theorem stl (h : Hints) (sz : MemSz) (sc : Scope) (d : Reg) (a : Reg) (b : Opd) : Statement (.stl h sz sc d a b) := fun _ e => Option.some.inj e ▸ fields_of_word _
theorem ldc (h : Hints) (sz : MemSz) (d : Reg) (n : BitVec 3) (a : Reg) (off : BitVec 19) : Statement (.ldc h sz d n a off) := fun _ e => Option.some.inj e ▸ fields_of_word _
theorem pref (h : Hints) (l1 : Bool) (a : Reg) (b : Opd) : Statement (.pref h l1 a b) := fun _ e => Option.some.inj e ▸ fields_of_word _
theorem preft (h : Hints) (l1 : Bool) (bar : BitVec 4) (a : U) (b : Opd) : Statement (.preft h l1 bar a b) := fun _ e => Option.some.inj e ▸ fields_of_word _
theorem lds (h : Hints) (sz : MemSz) (d : Reg) (a : Reg) (b : Opd) : Statement (.lds h sz d a b) := fun _ e => Option.some.inj e ▸ fields_of_word _
theorem sts (h : Hints) (sz : MemSz) (d : Reg) (a : Reg) (b : Opd) : Statement (.sts h sz d a b) := fun _ e => Option.some.inj e ▸ fields_of_word _
theorem ldfKeep (h : Hints) (sz : MemSz) (d : Reg) (a : Reg) (b : Opd) : Statement (.ldfKeep h sz d a b) := fun _ e => Option.some.inj e ▸ fields_of_word _
theorem ldfTake (h : Hints) (sz : MemSz) (d : Reg) (a : Reg) (b : Opd) : Statement (.ldfTake h sz d a b) := fun _ e => Option.some.inj e ▸ fields_of_word _
theorem ldfReadPerform (r : TgRef) : Statement (.ldfReadPerform r) := nofun
theorem stf (h : Hints) (sz : MemSz) (d : Reg) (a : Reg) (b : Opd) : Statement (.stf h sz d a b) := fun _ e => Option.some.inj e ▸ fields_of_word _
theorem grnClr (h : Hints) (a : U) (b : Opd) : Statement (.grnClr h a b) := fun _ e => Option.some.inj e ▸ fields_of_word _
theorem grnSet (h : Hints) (a : U) (b : Opd) : Statement (.grnSet h a b) := fun _ e => Option.some.inj e ▸ fields_of_word _
theorem grnQry (h : Hints) (d : U) (a : U) (b : Opd) : Statement (.grnQry h d a b) := fun _ e => Option.some.inj e ▸ fields_of_word _
theorem ldx (h : Hints) (sz : MemSz) (k : BitVec 3) (d : Reg) (a : Reg) (b : Opd) : Statement (.ldx h sz k d a b) := fun _ e => Option.some.inj e ▸ fields_of_word _
theorem stx (h : Hints) (sz : MemSz) (k : BitVec 3) (d : Reg) (a : Reg) (b : Opd) : Statement (.stx h sz k d a b) := fun _ e => Option.some.inj e ▸ fields_of_word _
theorem atom (h : Hints) (ty : AtomTy) (op : AtomOp) (sc : Scope) (d : Reg) (a : Reg) (b : Opd) : Statement (.atom h ty op sc d a b) := fun _ e => Option.some.inj e ▸ fields_of_word _
theorem atoms (h : Hints) (ty : AtomTy) (op : AtomOp) (d : Reg) (a : Reg) (b : Opd) : Statement (.atoms h ty op d a b) := fun _ e => Option.some.inj e ▸ fields_of_word _
theorem red (h : Hints) (ty : AtomTy) (op : AtomOp) (sc : Scope) (a : Reg) (b : Opd) : Statement (.red h ty op sc a b) := fun _ e => Option.some.inj e ▸ fields_of_word _
theorem redSpad (h : Hints) (ty : AtomTy) (op : AtomOp) (a : Reg) (b : Opd) : Statement (.redSpad h ty op a b) := fun _ e => Option.some.inj e ▸ fields_of_word _
theorem cas (h : Hints) (ty : AtomTy) (sc : Scope) (d : Reg) (a : Reg) (b : Opd) (c : Reg) : Statement (.cas h ty sc d a b c) := fun _ e => Option.some.inj e ▸ fields_of_word _
theorem cass (h : Hints) (ty : AtomTy) (d : Reg) (a : Reg) (b : Opd) (c : Reg) : Statement (.cass h ty d a b c) := fun _ e => Option.some.inj e ▸ fields_of_word _
theorem fence (h : Hints) (kind : FenceKind) (sc : Scope) (mask : BitVec 8) : Statement (.fence h kind sc mask) := fun _ e => Option.some.inj e ▸ fields_of_word _
theorem rngs (h : Hints) (spad : Bool) (f : BitVec 3) (a : U) (b : U) : Statement (.rngs h spad f a b) := fun _ e => Option.some.inj e ▸ fields_of_word _
theorem rngsT (h : Hints) (f : BitVec 3) (th : BitVec 6) : Statement (.rngsT h f th) := fun _ e => Option.some.inj e ▸ fields_of_word _
theorem rngc (h : Hints) (f : BitVec 3) : Statement (.rngc h f) := fun _ e => Option.some.inj e ▸ fields_of_word _
theorem tdw (h : Hints) (clr : Bool) (n : U) (th : BitVec 6) : Statement (.tdw h clr n th) := fun _ e => Option.some.inj e ▸ fields_of_word _
theorem tdr (h : Hints) (sel : TdrSel) (clr : Bool) (d : U) (th : BitVec 6) (j : BitVec 6) : Statement (.tdr h sel clr d th j) := fun _ e => Option.some.inj e ▸ fields_of_word _
theorem macq (h : Hints) (af : AccFmt) (g : BitVec 3) (m : BitVec 4) (b : Opd) : Statement (.macq h af g m b) := fun _ e => Option.some.inj e ▸ fields_of_word _
theorem mrel (h : Hints) (m : BitVec 4) : Statement (.mrel h m) := fun _ e => Option.some.inj e ▸ fields_of_word _
theorem mzro (h : Hints) (m : BitVec 4) : Statement (.mzro h m) := fun _ e => Option.some.inj e ▸ fields_of_word _
theorem mma (h : Hints) (acc : Bool) (m : BitVec 4) (n : U) (ta tb : BitVec 6) : Statement (.mma h acc m n ta tb) := fun _ e => Option.some.inj e ▸ fields_of_word _
theorem mmaGang (h : Hints) (acc : Bool) (m : BitVec 4) (n : U) (ta tb : BitVec 6) : Statement (.mmaGang h acc m n ta tb) := fun _ e => Option.some.inj e ▸ fields_of_word _
theorem mgng (h : Hints) (n : U) : Statement (.mgng h n) := fun _ e => Option.some.inj e ▸ fields_of_word _
theorem mgngClr (h : Hints) : Statement (.mgngClr h) := fun _ e => Option.some.inj e ▸ fields_of_word _
theorem mlda (h : Hints) (m : BitVec 4) (n : U) (th : BitVec 6) : Statement (.mlda h m n th) := fun _ e => Option.some.inj e ▸ fields_of_word _
theorem msta (h : Hints) (m : BitVec 4) (n : U) (th : BitVec 6) (gs : Option (BitVec 3)) : Statement (.msta h m n th gs) := fun _ e => Option.some.inj e ▸ fields_of_word _
theorem mprgRd (h : Hints) (d : U) : Statement (.mprgRd h d) := fun _ e => Option.some.inj e ▸ fields_of_word _
theorem mprgPc (h : Hints) (d : U) : Statement (.mprgPc h d) := fun _ e => Option.some.inj e ▸ fields_of_word _
theorem mprgGo (h : Hints) : Statement (.mprgGo h) := fun _ e => Option.some.inj e ▸ fields_of_word _
theorem mprgAb (h : Hints) : Statement (.mprgAb h) := fun _ e => Option.some.inj e ▸ fields_of_word _
theorem mdupClr (h : Hints) (th : BitVec 6) : Statement (.mdupClr h th) := fun _ e => Option.some.inj e ▸ fields_of_word _
theorem mdupCp (h : Hints) (td ts : BitVec 6) : Statement (.mdupCp h td ts) := fun _ e => Option.some.inj e ▸ fields_of_word _
theorem cpy (h : Hints) (n : U) : Statement (.cpy h n) := fun _ e => Option.some.inj e ▸ fields_of_word _
theorem cpygGather (h : Hints) (n : U) (b : Opd) : Statement (.cpygGather h n b) := fun _ e => Option.some.inj e ▸ fields_of_word _
theorem cpygScatter (h : Hints) (n : U) (b : Opd) : Statement (.cpygScatter h n b) := fun _ e => Option.some.inj e ▸ fields_of_word _
theorem cpyx (h : Hints) (n : U) (p : BitVec 4) : Statement (.cpyx h n p) := fun _ e => Option.some.inj e ▸ fields_of_word _
theorem cpyrGo (h : Hints) (g : BitVec 3) (a : U) : Statement (.cpyrGo h g a) := fun _ e => Option.some.inj e ▸ fields_of_word _
theorem cpyrAb (h : Hints) (g : BitVec 3) (a : U) : Statement (.cpyrAb h g a) := fun _ e => Option.some.inj e ▸ fields_of_word _
theorem dcmp (h : Hints) (n : U) : Statement (.dcmp h n) := fun _ e => Option.some.inj e ▸ fields_of_word _
theorem waitc (h : Hints) (c : CntClass) (n : BitVec 8) : Statement (.waitc h c n) := fun _ e => Option.some.inj e ▸ fields_of_word _
theorem dgrs (h : Hints) (k : BitVec 3) (b : Opd) : Statement (.dgrs h k b) := fun _ e => Option.some.inj e ▸ fields_of_word _
theorem dgrsClr (h : Hints) (k : BitVec 3) : Statement (.dgrsClr h k) := fun _ e => Option.some.inj e ▸ fields_of_word _
theorem bari (h : Hints) (bar : BitVec 4) (e : BitVec 12) : Statement (.bari h bar e) := fun _ e => Option.some.inj e ▸ fields_of_word _
theorem barv (h : Hints) (bar : BitVec 4) (rd : Option U) : Statement (.barv h bar rd) := fun _ e => Option.some.inj e ▸ fields_of_word _
theorem barw (h : Hints) (bar : BitVec 4) (b : Opd) (rd : Option U) : Statement (.barw h bar b rd) := fun _ e => Option.some.inj e ▸ fields_of_word _
theorem bars (h : Hints) (bar : BitVec 4) (rd : Option U) : Statement (.bars h bar rd) := fun _ e => Option.some.inj e ▸ fields_of_word _
theorem spli (h : Hints) (bar : BitVec 4) (len : BitVec 4) (ef ee : BitVec 12) : Statement (.spli h bar len ef ee) := fun _ e => Option.some.inj e ▸ fields_of_word _
theorem splwFull (h : Hints) (bar : BitVec 4) (b : Opd) (rd : Option U) : Statement (.splwFull h bar b rd) := fun _ e => Option.some.inj e ▸ fields_of_word _
theorem splwEmpty (h : Hints) (bar : BitVec 4) (b : Opd) (rd : Option U) : Statement (.splwEmpty h bar b rd) := fun _ e => Option.some.inj e ▸ fields_of_word _
theorem spld (h : Hints) (bar : BitVec 4) (b : Opd) : Statement (.spld h bar b) := fun _ e => Option.some.inj e ▸ fields_of_word _
theorem rdsr (h : Hints) (n : BitVec 10) (d : Reg) : Statement (.rdsr h n d) := fun _ e => Option.some.inj e ▸ fields_of_word _
theorem wrsr (h : Hints) (n : BitVec 10) (b : Opd) : Statement (.wrsr h n b) := fun _ e => Option.some.inj e ▸ fields_of_word _
theorem slate (h : Hints) (tag : BitVec 16) : Statement (.slate h tag) := fun _ e => Option.some.inj e ▸ fields_of_word _
theorem erriCnt (h : Hints) (d : U) : Statement (.erriCnt h d) := fun _ e => Option.some.inj e ▸ fields_of_word _
theorem erriRd (h : Hints) (n : U) (ix : BitVec 8) : Statement (.erriRd h n ix) := fun _ e => Option.some.inj e ▸ fields_of_word _
theorem erriPop (h : Hints) : Statement (.erriPop h) := fun _ e => Option.some.inj e ▸ fields_of_word _
theorem takeSig (h : Hints) (d : U) : Statement (.takeSig h d) := fun _ e => Option.some.inj e ▸ fields_of_word _
theorem takeCmt (h : Hints) : Statement (.takeCmt h) := fun _ e => Option.some.inj e ▸ fields_of_word _
theorem boundaryTrap (r : TgRef) : Statement (.boundaryTrap r) := nofun
theorem copyCommandAccept (core : Nat) (part : Nat) : Statement (.copyCommandAccept core part) := nofun
theorem copyQueueHead (core : Nat) (part : Nat) : Statement (.copyQueueHead core part) := nofun
theorem copyChunkRead (core : Nat) (entry : Nat) : Statement (.copyChunkRead core entry) := nofun
theorem copyChunkCommit (core : Nat) (entry : Nat) : Statement (.copyChunkCommit core entry) := nofun
theorem cpyxChunkAck (core : Nat) (entry : Nat) (ok : Bool) : Statement (.cpyxChunkAck core entry ok) := nofun
theorem preftChunk (core : Nat) (entry : Nat) : Statement (.preftChunk core entry) := nofun
theorem decompressionJobRun (cluster : Nat) (ix : Nat) : Statement (.decompressionJobRun cluster ix) := nofun
theorem decompressionJobComplete (cluster : Nat) (ix : Nat) : Statement (.decompressionJobComplete cluster ix) := nofun
theorem l2Lookup (r : TgRef) (op : Nat) (acc : Nat) : Statement (.l2Lookup r op acc) := nofun
theorem codedMerge (r : TgRef) (op : Nat) (acc : Nat) : Statement (.codedMerge r op acc) := nofun
theorem homeAtomic (r : TgRef) (op : Nat) (acc : Nat) : Statement (.homeAtomic r op acc) := nofun
theorem pageWalk (core : Nat) (ctx : Nat) (va : BitVec 57) : Statement (.pageWalk core ctx va) := nofun
theorem mapoutDeclare (stack : Nat) (die : Nat) : Statement (.mapoutDeclare stack die) := nofun
theorem mapoutReq (stack : BitVec 4) (seg : BitVec 4) : Statement (.mapoutReq stack seg) := nofun
theorem crflush (ctx : BitVec 16) : Statement (.crflush ctx) := nofun
theorem tlbinvPage (ctx : BitVec 16) : Statement (.tlbinvPage ctx) := nofun
theorem tlbinvAll (ctx : BitVec 16) : Statement (.tlbinvAll ctx) := nofun
theorem waysAll (part : BitVec 3) (ways : BitVec 16) : Statement (.waysAll part ways) := nofun
theorem meshFlitReceive (link : Nat) (router : BitVec 3) (f : Flit) : Statement (.meshFlitReceive link router f) := nofun
theorem meshLinkRetrain (link : Nat) (ok : Bool) : Statement (.meshLinkRetrain link ok) := nofun
theorem linkFrameReceive (link : Nat) (f : Frame) : Statement (.linkFrameReceive link f) := nofun
theorem linkTrainingDone (link : Nat) (ok : Bool) (margin : BitVec 16) : Statement (.linkTrainingDone link ok margin) := nofun
theorem doorbellTail (part : BitVec 3) (tail : Word) : Statement (.doorbellTail part tail) := nofun
theorem launchAccept (part : BitVec 3) : Statement (.launchAccept part) := nofun
theorem placeDistributedUnit (die : Nat) (at_ : List PlaceHint) (at1 : List PlaceHint) : Statement (.placeDistributedUnit die at_ at1) := nofun
theorem activeSetRotation (core : Nat) (pipe : Nat) : Statement (.activeSetRotation core pipe) := nofun
theorem ctxcmdCreate (ctx : BitVec 16) : Statement (.ctxcmdCreate ctx) := nofun
theorem ctxcmdDestroy (ctx : BitVec 16) : Statement (.ctxcmdDestroy ctx) := nofun
theorem ctxcmdPreempt (ctx : BitVec 16) (core : BitVec 9) (slot : BitVec 6) : Statement (.ctxcmdPreempt ctx core slot) := nofun
theorem ctxcmdRestore (ctx : BitVec 16) (at_ : List PlaceHint) : Statement (.ctxcmdRestore ctx at_) := nofun
theorem ctxcmdEndWorkgroup (ctx : BitVec 16) (core : BitVec 9) (slot : BitVec 6) : Statement (.ctxcmdEndWorkgroup ctx core slot) := nofun
theorem ctxcmdStep (ctx : BitVec 16) (core : BitVec 9) (slot : BitVec 6) : Statement (.ctxcmdStep ctx core slot) := nofun
theorem ctxcmdStepThread (ctx : BitVec 16) (core : BitVec 9) (slot : BitVec 6) (thread : BitVec 6) : Statement (.ctxcmdStepThread ctx core slot thread) := nofun
theorem ctxcmdResume (ctx : BitVec 16) (core : BitVec 9) (slot : BitVec 6) : Statement (.ctxcmdResume ctx core slot) := nofun
theorem logPop (part : BitVec 3) : Statement (.logPop part) := nofun
theorem windowRead (off : BitVec 36) : Statement (.windowRead off) := nofun
theorem windowWrite (off : BitVec 36) (v : BitVec 64) : Statement (.windowWrite off v) := nofun
theorem registerWrite (off : BitVec 24) (size : Nat) (v : BitVec 64) : Statement (.registerWrite off size v) := nofun
theorem slateFire (tag : BitVec 16) : Statement (.slateFire tag) := nofun
theorem takeAtomicPair (r : TgRef) (op : Nat) (acc : Nat) : Statement (.takeAtomicPair r op acc) := nofun
theorem rushesEntryFree (r : TgRef) : Statement (.rushesEntryFree r) := nofun
theorem schedulerRebuild (cluster : Nat) (lost : List Nat) : Statement (.schedulerRebuild cluster lost) := nofun
theorem dailyRun (u : TestUnit) : Statement (.dailyRun u) := nofun
theorem dailyRunComplete (u : TestUnit) (sig : BitVec 64) : Statement (.dailyRunComplete u sig) := nofun
theorem wearUpdate (die : Nat) (w : BitVec 64) : Statement (.wearUpdate die w) := nofun
theorem attestationRequest (nonce : BitVec 256) (buf : BitVec 64) : Statement (.attestationRequest nonce buf) := nofun
theorem variableLatencyResult (r : TgRef) (op : Nat) : Statement (.variableLatencyResult r op) := nofun
theorem hostMemoryAccess (r : TgRef) (op : Nat) (acc : Nat) : Statement (.hostMemoryAccess r op acc) := nofun
theorem extensionOperation (w : BitVec 96) : Statement (.extensionOperation w) := nofun
theorem invalidEncoding (w : BitVec 96) : Statement (.invalidEncoding w) := nofun
theorem decompressionJobAccept : Statement .decompressionJobAccept := nofun
theorem matrixArrayStep : Statement .matrixArrayStep := nofun
theorem matrixRowBlock : Statement .matrixRowBlock := nofun
theorem mrelPerform : Statement .mrelPerform := nofun
theorem gangRendezvousTimeout : Statement .gangRendezvousTimeout := nofun
theorem governorWindow : Statement .governorWindow := nofun
theorem hbmAtomWrite : Statement .hbmAtomWrite := nofun
theorem hbmAtomRead : Statement .hbmAtomRead := nofun
theorem hbmReadModifyWrite : Statement .hbmReadModifyWrite := nofun
theorem mapoutStart : Statement .mapoutStart := nofun
theorem mapoutAck : Statement .mapoutAck := nofun
theorem mapoutRebuildComplete : Statement .mapoutRebuildComplete := nofun
theorem crflushDone : Statement .crflushDone := nofun
theorem tlbinvDone : Statement .tlbinvDone := nofun
theorem fqPop : Statement .fqPop := nofun
theorem fqResume : Statement .fqResume := nofun
theorem fqCancel : Statement .fqCancel := nofun
theorem linkEnable : Statement .linkEnable := nofun
theorem linkFailure : Statement .linkFailure := nofun
theorem stealRequest : Statement .stealRequest := nofun
theorem stagingCopy : Statement .stagingCopy := nofun
theorem workgroupStart : Statement .workgroupStart := nofun
theorem exitWriteback : Statement .exitWriteback := nofun
theorem workgroupEnd : Statement .workgroupEnd := nofun
theorem launchComplete : Statement .launchComplete := nofun
theorem preemptSave : Statement .preemptSave := nofun
theorem preemptHoldTimeout : Statement .preemptHoldTimeout := nofun
theorem takeCommitDecide : Statement .takeCommitDecide := nofun
theorem takeCommitTimeout : Statement .takeCommitTimeout := nofun
theorem coreLeaveService : Statement .coreLeaveService := nofun
theorem pwrStateActive : Statement .pwrStateActive := nofun
theorem pwrStateIdle : Statement .pwrStateIdle := nofun
theorem pwrEnterIdle : Statement .pwrEnterIdle := nofun
theorem pwrStateOff : Statement .pwrStateOff := nofun
theorem thermalThrottle : Statement .thermalThrottle := nofun
theorem thermalShutdown : Statement .thermalShutdown := nofun
theorem fundamentalReset : Statement .fundamentalReset := nofun
theorem otaetharLinkRetrain : Statement .otaetharLinkRetrain := nofun

end Sys2Proof.Laws.HintsField
end

