-- ==== Sys2Proof/Laws/Registers.lean ====
section
/-! SUPPORT. Register words of a thread group: what a write changes, what the retirement of an instruction changes, and
what an issue that writes registers leaves. -/

namespace Sys2Proof.Safety

open Sys2Proof.Machine

/-! ### Lists with their indices -/

theorem getElem?_zipRange {α β : Type} (l : List α) (f : α × Nat → β) (i : Nat) :
    ((l.zip (List.range l.length)).map f)[i]? = l[i]?.map fun t => f (t, i) := by
  simp only [List.getElem?_map, List.zip]
  by_cases h : i < l.length
  · simp [h]
  · simp [h]

theorem map_zipRange_map {α β γ : Type} (l : List α) (f : α × Nat → β) (g : β → γ) (k : α → γ) (h : ∀ t i, g (f (t, i)) = k t) :
    ((l.zip (List.range l.length)).map f).map g = l.map k := by
  apply List.ext_getElem?
  intro i
  rw [List.getElem?_map, getElem?_zipRange, List.getElem?_map]
  cases l[i]? <;> simp [h]

@[simp] theorem length_zipRange {α β : Type} (l : List α) (f : α × Nat → β) : ((l.zip (List.range l.length)).map f).length = l.length := by
  simp

/-! ### Writing one word -/

/-- A word that a register can hold: a guard of a thread that exists holds a bit. -/
def Fits (g : Tg) : RKey → CWord → Prop
  | .g i l, w => i < 8 ∧ l < g.threads.length ∧ ∃ b, w = guardWord b
  | _, _ => True

@[simp] theorem guardWord_bit (b : Bool) : (guardWord b).data.getLsbD 0 = b := by cases b <;> rfl

theorem getLsbD_setBit (x : BitVec 8) {i j : Nat} (hi : i < 8) (b : Bool) :
    (setBit x i b).getLsbD j = if j = i then b else x.getLsbD j := by
  unfold setBit
  by_cases hj : j < 8
  · split
    · rename_i hb
      subst hb
      simp only [BitVec.getLsbD_or, BitVec.getLsbD_shiftLeft, BitVec.getLsbD_one]
      by_cases h : j = i
      · subst h; simp [hj]
      · rcases Nat.lt_or_gt_of_ne h with h' | h'
        · simp [h, h']
        · have : j - i ≠ 0 := by omega
          simp [h, this]
    · rename_i hb
      simp only [Bool.not_eq_true] at hb
      subst hb
      simp only [BitVec.getLsbD_and, BitVec.getLsbD_not, BitVec.getLsbD_shiftLeft, BitVec.getLsbD_one, hj, decide_true, Bool.true_and]
      by_cases h : j = i
      · subst h; simp
      · rcases Nat.lt_or_gt_of_ne h with h' | h'
        · simp [h, h']
        · have : j - i ≠ 0 := by omega
          simp [h, this]
  · have h1 : ∀ y : BitVec 8, y.getLsbD j = false := fun y => BitVec.getLsbD_of_ge y j (by omega)
    rw [h1, h1]
    have : j ≠ i := by omega
    simp [this]

theorem getElem?_updAt {α : Type} (l : List α) (i : Nat) (f : α → α) (j : Nat) :
    (updAt l i f)[j]? = if j = i then l[j]?.map f else l[j]? := by
  unfold updAt
  split
  · rename_i x hx
    by_cases h : j = i
    · subst h
      have : j < l.length := (List.getElem?_eq_some_iff.mp hx).1
      rw [List.getElem?_set_self (by simpa using this)]
      simp [hx]
    · simp [List.getElem?_set_ne (Ne.symm h), h]
  · rename_i hx
    by_cases h : j = i
    · subst h; simp [hx]
    · simp [h]

@[simp] theorem length_updAt {α : Type} (l : List α) (i : Nat) (f : α → α) : (updAt l i f).length = l.length := by
  unfold updAt; split <;> simp

theorem word_setWord_self {g : Tg} {k : RKey} {w : CWord} (h : Fits g k w) : (g.setWord k w).word k = w := by
  cases k with
  | v i l => simp [Tg.setWord, Tg.word, lookD_put_self]
  | s i => simp [Tg.setWord, Tg.word, lookD_put_self]
  | k i l => simp [Tg.setWord, Tg.word, lookD_ins_self]
  | g i l =>
    obtain ⟨hi, hl, b, rfl⟩ := h
    simp only [Tg.setWord, Tg.word, Tg.guard, getElem?_updAt, if_true]
    rw [List.getElem?_eq_getElem hl]
    simp only [Option.map_some, Option.getD_some, getLsbD_setBit _ hi, if_true, guardWord_bit]

theorem word_setWord_ne {g : Tg} {k q : RKey} (w : CWord) (hk : realKey k = true) (hq : realKey q = true) (hi : ∀ i l, k = .g i l → i < 8)
    (h : q ≠ k) : (g.setWord k w).word q = g.word q := by
  cases k with
  | v i l =>
    cases q with
    | v j m =>
      simp only [realKey, decide_eq_true_eq] at hk hq
      simp only [Tg.setWord, Tg.word]
      exact lookD_put_ne _ _ (fun e => h (by have : i = j := by omega
                                             subst this; simp; omega)) w
    | _ => rfl
  | s i =>
    cases q with
    | s j => exact lookD_put_ne _ _ (fun e => h (by rw [e])) w
    | _ => rfl
  | k i l =>
    cases q with
    | k j m =>
      simp only [realKey, decide_eq_true_eq] at hk hq
      simp only [Tg.setWord, Tg.word]
      exact lookD_ins_ne _ _ (fun e => h (by have : i = j := by omega
                                             subst this; simp; omega)) w
    | _ => rfl
  | g i l =>
    cases q with
    | g j m =>
      simp only [Tg.setWord, Tg.word, Tg.guard, getElem?_updAt]
      by_cases hm : m = l
      · subst hm
        have hj : j ≠ i := fun e => h (by rw [e])
        simp only [if_true, Option.map_map]
        congr 1
        cases g.threads[m]? with
        | none => rfl
        | some t => simp [getLsbD_setBit _ (hi i m rfl), hj]
      · simp [hm]
    | _ => rfl

@[simp] theorem threads_length_setWord (g : Tg) (k : RKey) (w : CWord) : (g.setWord k w).threads.length = g.threads.length := by
  cases k <;> simp [Tg.setWord]

@[simp] theorem word_write (g : Tg) (lat : Nat) (k q : RKey) (w : CWord) : (g.write lat k w).word q = (g.setWord k w).word q := by
  cases q <;> rfl

@[simp] theorem threads_write (g : Tg) (lat : Nat) (k : RKey) (w : CWord) : (g.write lat k w).threads = (g.setWord k w).threads := rfl

theorem rest_setWord (g : Tg) (k : RKey) (w : CWord) : restOfTg (g.setWord k w) = restOfTg g := by
  cases k <;> rfl

theorem rest_write (g : Tg) (lat : Nat) (k : RKey) (w : CWord) : restOfTg (g.write lat k w) = restOfTg g := by
  cases k <;> rfl

theorem shot_write (g : Tg) (lat : Nat) (k : RKey) (w : CWord) : (g.write lat k w).shot = g.shot := by cases k <;> rfl

theorem threads_setWord_map {β : Type} (g : Tg) (k : RKey) (w : CWord) (f : Thread → β) (hf : ∀ t b, f { t with guards := b } = f t) :
    (g.setWord k w).threads.map f = g.threads.map f := by
  cases k with
  | g i l =>
    apply List.ext_getElem?
    intro j
    simp only [Tg.setWord, List.getElem?_map, getElem?_updAt]
    split
    · cases g.threads[j]? <;> simp [hf]
    · rfl
  | _ => rfl

/-! ### Writing some words -/

/-- Writes of some words, in order. -/
def writeAll (g : Tg) (lat : RKey → Nat) (ws : List (RKey × CWord)) : Tg := ws.foldl (fun g kw => g.write (lat kw.1) kw.1 kw.2) g

theorem length_writeAll (g : Tg) (lat : RKey → Nat) (ws : List (RKey × CWord)) : (writeAll g lat ws).threads.length = g.threads.length := by
  induction ws generalizing g with
  | nil => rfl
  | cons kw ws ih => simp only [writeAll, List.foldl_cons] at ih ⊢; rw [ih]; simp

/-- Words that can be written together: no register twice. -/
structure Writable (g : Tg) (ws : List (RKey × CWord)) : Prop where
  fits : ∀ kw ∈ ws, Fits g kw.1 kw.2
  real : ∀ kw ∈ ws, realKey kw.1 = true
  once : (ws.map (·.1)).Nodup

theorem Writable.cons {g : Tg} {kw : RKey × CWord} {ws : List (RKey × CWord)} (h : Writable g (kw :: ws)) (lat : Nat) :
    Writable (g.write lat kw.1 kw.2) ws := by
  refine ⟨fun x hx => ?_, fun x hx => h.real x (by simp [hx]), (List.nodup_cons.mp h.once).2⟩
  have := h.fits x (by simp [hx])
  unfold Fits at this ⊢
  split at this
  · simpa using this
  · simp_all

theorem word_writeAll_ne {g : Tg} {lat : RKey → Nat} {ws : List (RKey × CWord)} (h : Writable g ws) {q : RKey}
    (hq : realKey q = true) (hn : q ∉ ws.map (·.1)) : (writeAll g lat ws).word q = g.word q := by
  induction ws generalizing g with
  | nil => rfl
  | cons kw ws ih =>
    simp only [List.map_cons, List.mem_cons, not_or] at hn
    have hf := h.fits kw (by simp)
    show (writeAll (g.write (lat kw.1) kw.1 kw.2) lat ws).word q = _
    rw [ih (h.cons _) hn.2, word_write]
    exact word_setWord_ne _ (h.real kw (by simp)) hq (fun i l e => by rw [e] at hf; exact hf.1) hn.1

theorem word_writeAll {g : Tg} {lat : RKey → Nat} {ws : List (RKey × CWord)} (h : Writable g ws) :
    ∀ kw ∈ ws, (writeAll g lat ws).word kw.1 = kw.2 := by
  induction ws generalizing g with
  | nil => simp
  | cons kw ws ih =>
    intro x hx
    show (writeAll (g.write (lat kw.1) kw.1 kw.2) lat ws).word x.1 = _
    rcases List.mem_cons.mp hx with rfl | hx
    · rw [word_writeAll_ne (h.cons _) (h.real _ (by simp)) (List.nodup_cons.mp h.once).1, word_write]
      exact word_setWord_self (h.fits _ (by simp))
    · exact ih (h.cons _) x hx

theorem rest_writeAll (g : Tg) (lat : RKey → Nat) (ws : List (RKey × CWord)) : restOfTg (writeAll g lat ws) = restOfTg g := by
  induction ws generalizing g with
  | nil => rfl
  | cons kw ws ih => exact (ih (g.write (lat kw.1) kw.1 kw.2)).trans (rest_write ..)

theorem shot_writeAll (g : Tg) (lat : RKey → Nat) (ws : List (RKey × CWord)) : (writeAll g lat ws).shot = g.shot := by
  induction ws generalizing g with
  | nil => rfl
  | cons kw ws ih => exact (ih (g.write (lat kw.1) kw.1 kw.2)).trans (shot_write ..)

theorem threads_writeAll_map {β : Type} (g : Tg) (lat : RKey → Nat) (ws : List (RKey × CWord)) (f : Thread → β)
    (hf : ∀ t b, f { t with guards := b } = f t) : (writeAll g lat ws).threads.map f = g.threads.map f := by
  induction ws generalizing g with
  | nil => rfl
  | cons kw ws ih => exact (ih (g.write (lat kw.1) kw.1 kw.2)).trans (threads_setWord_map g kw.1 kw.2 f hf)

theorem debug_writeAll (g : Tg) (lat : RKey → Nat) (ws : List (RKey × CWord)) : (writeAll g lat ws).debug = g.debug := by
  induction ws generalizing g with
  | nil => rfl
  | cons kw ws ih =>
    refine (ih (g.write (lat kw.1) kw.1 kw.2)).trans ?_
    obtain ⟨k, w⟩ := kw
    cases k <;> rfl

theorem ops_writeAll (g : Tg) (lat : RKey → Nat) (ws : List (RKey × CWord)) :
    (writeAll g lat ws).ops.map restOfOp = g.ops.map restOfOp := by
  induction ws generalizing g with
  | nil => rfl
  | cons kw ws ih =>
    refine (ih (g.write (lat kw.1) kw.1 kw.2)).trans ?_
    have : (g.write (lat kw.1) kw.1 kw.2).ops = g.ops.map fun o => if o.keys.contains kw.1 then { o with skip := kw.1 :: o.skip } else o := by
      obtain ⟨k, w⟩ := kw
      cases k <;> rfl
    rw [this, List.map_map]
    refine List.map_congr_left fun o _ => ?_
    simp only [Function.comp]
    split <;> rfl

/-! ### Retirement -/

/-- Ages after an issue, but for the `CUT` of a step's pair, which is one issue with the instruction before it (R405, R416). -/
def agedTo (g : Tg) (b : Bool) (age : Nat) : Nat := if g.debug == .closing true then age else if b then 0 else min 255 (age + 1)

/-- The threads after the retirement of an instruction other than `CUT`. -/
theorem threads_retire (g : Tg) (set : BitVec 64) (h : Hints) :
    (g.retire set h false).threads = (g.threads.zip (List.range g.threads.length)).map fun ti =>
      let t : Thread := { ti.1 with age := agedTo g (set.getLsbD ti.2) ti.1.age }
      if set.getLsbD ti.2 then { t with pc := g.shot.pc + 12#57 } else t := by
  apply List.ext_getElem?
  intro i
  by_cases hd : g.debug == .closing true
  · simp only [Tg.retire, Tg.mapThreads, agedTo, hd, Bool.false_eq_true, if_false, if_true]
  · simp only [Tg.retire, Tg.mapThreads, Tg.countIssue, agedTo, hd, Bool.false_eq_true, if_false]
    rw [getElem?_zipRange, getElem?_zipRange, getElem?_zipRange]
    cases g.threads[i]? <;> rfl

/-- What a retirement keeps of the thread group, its ages counted or not. -/
theorem aged_vregs (g : Tg) (set : BitVec 64) : (if (g.debug == .closing true) = true then g else g.countIssue set).vregs = g.vregs := by
  split <;> rfl
theorem aged_uregs (g : Tg) (set : BitVec 64) : (if (g.debug == .closing true) = true then g else g.countIssue set).uregs = g.uregs := by
  split <;> rfl
theorem aged_temps (g : Tg) (set : BitVec 64) : (if (g.debug == .closing true) = true then g else g.countIssue set).temps = g.temps := by
  split <;> rfl

theorem word_retire (g : Tg) (set : BitVec 64) (h : Hints) (q : RKey) : (g.retire set h false).word q = g.word q := by
  cases q with
  | g i l =>
    simp only [Tg.word, Tg.guard]
    rw [threads_retire, getElem?_zipRange]
    congr 1
    cases g.threads[l]? with
    | none => rfl
    | some t => simp only [Option.map_some]; split <;> rfl
  | v i l => exact congrArg (fun m => lookD CWord.zero m (64 * i + l)) (aged_vregs g set)
  | s i => exact congrArg (fun m => lookD CWord.zero m i) (aged_uregs g set)
  | k i l => exact congrArg (fun m => lookD CWord.zero m (64 * i + l)) (aged_temps g set)

/-- What an issue that writes some words leaves of its thread group. -/
theorem leaves_writeAll {e : Env} {g : Tg} {h : Hints} {lat : RKey → Nat} {ws : List (RKey × CWord)} (hw : Writable g ws)
    (hs : g.shot.pc = e.pc) : Leaves e h g ((writeAll g lat ws).retire e.set h false) ws := by
  have hshot := shot_writeAll g lat ws
  constructor
  · intro kw hkw
    rw [word_retire]
    exact word_writeAll hw kw hkw
  · intro k hk hn
    rw [word_retire]
    exact word_writeAll_ne hw hk hn
  · rw [threads_retire]
    have hpc := threads_writeAll_map g lat ws (·.pc) (fun _ _ => rfl)
    apply List.ext_getElem?
    intro i
    rw [List.getElem?_map, getElem?_zipRange, getElem?_zipRange]
    have hi := congrArg (·[i]?) hpc
    simp only [List.getElem?_map] at hi
    cases h1 : (writeAll g lat ws).threads[i]? with
    | none =>
      rw [h1] at hi
      cases h2 : g.threads[i]? with
      | none => rfl
      | some t => rw [h2] at hi; cases hi
    | some t =>
      rw [h1] at hi
      cases h2 : g.threads[i]? with
      | none => rw [h2] at hi; cases hi
      | some u =>
        rw [h2] at hi
        simp only [Option.map_some, Option.some.injEq] at hi ⊢
        by_cases hb : e.set.getLsbD i
        · simp [hb, hshot, hs]
        · simp [hb, hi]
  · rw [threads_retire, ← threads_writeAll_map g lat ws restOfThread (fun _ _ => rfl)]
    exact map_zipRange_map _ _ _ _ fun t i => by simp only; split <;> rfl
  · simp only [Tg.retire, Tg.mapThreads]
    split <;> simp only [Tg.countIssue, hshot, hs]
  · rw [← debug_writeAll g lat ws]
    rfl
  · rw [← ops_writeAll g lat ws]
    simp only [Tg.retire, Tg.mapThreads]
    split <;> rfl
  · rw [← rest_writeAll g lat ws]
    simp only [Tg.retire, Tg.mapThreads]
    split <;> rfl

end Sys2Proof.Safety
end

