-- ==== Sys2Proof/Laws/RegisterOps.lean ====
section
/-! SUPPORT. What the shared shapes of register instructions do when nothing disturbs them: fixed and variable latency,
rounding, guard writes. -/

namespace Sys2Proof.Safety

open Sys2Proof.Machine

/-! ### The effect of an issue on its thread group -/

theorem context_e (s : State) (e : Env) (p : Plan) (form : Ctx → Nat → LaneRes) : (context s e p form).e = e := rfl
theorem context_s (s : State) (e : Env) (p : Plan) (form : Ctx → Nat → LaneRes) : (context s e p form).s = s := rfl

theorem context_calm {s : State} {e : Env} {p : Plan} (h : Ready s e p) (form : Ctx → Nat → LaneRes) :
    { context s e p form with s := (context s e p form).s.clearStrikes e.r } = context s e p form := by
  rw [context_s, clearStrikes_calm h.calm]; rfl

theorem tg_of_ready {s : State} {e : Env} {p : Plan} (h : Ready s e p) : s.tg? e.r = some e.g := (env?_iff h.env).2.2.1

theorem context_tg {s : State} {e : Env} {p : Plan} (h : Ready s e p) (form : Ctx → Nat → LaneRes) : (context s e p form).tg = e.g := by
  unfold Ctx.tg
  rw [context_s, context_e, tg_of_ready h]; rfl

/-- Retiring after an update of the thread group is one update. -/
theorem retired_setTg {s : State} {e : Env} (ht : s.tg? e.r = some e.g) (h : Hints) (cut : Bool) (g : Tg) :
    retired e h cut (s.setTg e.r g) = (s.setTg e.r (g.retire e.set h cut)).endStep e.r := by
  obtain ⟨w, hw, -⟩ := State.wg_of_tg ht
  unfold retired
  rw [State.updTg_some (State.tg?_setTg_self ht g), State.setTg_setTg hw]

/-- An undisturbed instruction without causes of its own, whose effect is on its thread group. -/
theorem issue_tg {s : State} {e : Env} {p : Plan} (h : Ready s e p) {form : Ctx → Nat → LaneRes} {act : Ctx → State} {g : Tg}
    (sound : ∀ l ∈ formLanes e p, Sound (form (readCtx s e p) l)) (usual : p.reserved (context s e p form) = false)
    (eff : act (context s e p form) = s.setTg e.r g) :
    issue s p form noLate act = .next ((s.setTg e.r (g.retire e.set p.h p.cut)).endStep e.r) := by
  rw [issue_ready h form noLate act sound usual (c := context s e p form) rfl rfl, context_calm h form, eff,
    retired_setTg (tg_of_ready h)]

/-- The same for an effect that writes words. -/
theorem issue_writes {s : State} {e : Env} {p : Plan} (h : Ready s e p) {form : Ctx → Nat → LaneRes} {act : Ctx → State} {g : Tg}
    {lat : RKey → Nat} {ws : List (RKey × CWord)} (sound : ∀ l ∈ formLanes e p, Sound (form (readCtx s e p) l))
    (usual : p.reserved (context s e p form) = false) (hcut : p.cut = false) (hg : g.shot.pc = e.pc) (hw : Writable g ws)
    (eff : act (context s e p form) = s.setTg e.r (writeAll g lat ws)) :
    Writes s e p.h (issue s p form noLate act) g ws := by
  refine ⟨_, issue_tg h sound usual eff, ?_⟩
  rw [hcut]
  exact leaves_writeAll hw hg

theorem shot_pc {s : State} {e : Env} {p : Plan} (h : Ready s e p) : e.g.shot.pc = e.pc := (env?_iff h.env).2.2.2.2.1.symm

/-! ### The words of some lanes -/

theorem formLanes_part {e : Env} {p : Plan} {l : Nat} (hl : l ∈ formLanes e p) : l ∈ e.part := by
  unfold formLanes at hl
  split at hl
  · exact List.mem_of_mem_take hl
  · exact hl

theorem key_real (d : Reg) (k : Nat) {l : Nat} (hl : l < 64) : realKey (d.key k l) = true := by
  cases d <;> simp [Reg.key, realKey, hl]

theorem key_fits (g : Tg) (d : Reg) (k l : Nat) (w : CWord) : Fits g (d.key k l) w := by
  cases d <;> exact True.intro

theorem key_inj (d : Reg) {k l k' l' : Nat} (h : d.key k l = d.key k' l') : k = k' ∧ (d.isS = false → l = l') := by
  cases d <;> simp_all [Reg.key, Reg.isS]

theorem part_nodup {s : State} {h : Hints} {e : Env} (he : env? s h = some e) : e.part.Nodup := by
  obtain ⟨-, -, -, -, -, h6, -⟩ := env?_iff he
  rw [h6]
  exact List.Nodup.filter _ (List.Nodup.filter _ List.nodup_range)

theorem take_lanes {e : Env} (d : Reg) {l : Nat}
    (hl : l ∈ (if d.isS then e.part.take 1 else e.part)) : l ∈ e.part := by
  split at hl
  · exact List.mem_of_mem_take hl
  · exact hl

theorem toReg_nodup {s : State} {h : Hints} {e : Env} (he : env? s h = some e) (d : Reg) (f : Nat → List CWord) :
    ((toReg e d f).map (·.1)).Nodup := by
  unfold toReg
  rw [List.map_flatMap]
  have inner : ∀ l, (((List.range (f l).length).map fun k => (d.key k l, (f l).getD k .zero)).map (·.1)).Nodup := by
    intro l
    rw [List.map_map]
    exact List.Nodup.map (fun a b hab => (key_inj d hab).1) List.nodup_range
  by_cases hs : d.isS
  · simp only [hs, if_true]
    cases hp : e.part with
    | nil => simp
    | cons l ls => simpa [hp] using inner l
  · simp only [hs, Bool.false_eq_true, if_false]
    rw [List.nodup_flatMap]
    refine ⟨fun l _ => inner l, ?_⟩
    refine (part_nodup he).imp ?_
    intro a b hab x hx hy
    simp only [List.map_map, List.mem_map, List.mem_range, Function.comp] at hx hy
    obtain ⟨k, -, rfl⟩ := hx
    obtain ⟨k', -, hk'⟩ := hy
    exact hab ((key_inj d hk').2 (by simpa using hs)).symm

theorem toReg_writable {s : State} {h : Hints} {e : Env} (he : env? s h = some e) (g : Tg) (d : Reg) (f : Nat → List CWord) :
    Writable g (toReg e d f) := by
  refine ⟨?_, ?_, toReg_nodup he d f⟩
  · intro kw hkw
    simp only [toReg, List.mem_flatMap, List.mem_map] at hkw
    obtain ⟨l, -, k, -, rfl⟩ := hkw
    exact key_fits ..
  · intro kw hkw
    simp only [toReg, List.mem_flatMap, List.mem_map] at hkw
    obtain ⟨l, hl, k, -, rfl⟩ := hkw
    exact key_real d k (mem_part he (take_lanes d hl)).1

/-- Lanes that agree give the same words. -/
theorem toReg_congr {e : Env} (d : Reg) {f f' : Nat → List CWord}
    (hf : ∀ l ∈ e.part, f l = f' l) : toReg e d f = toReg e d f' := by
  unfold toReg
  apply List.flatMap_congr
  intro l hl
  rw [hf l (take_lanes d hl)]

/-- The words that a formed result writes to its register. -/
theorem results_eq {s : State} {e : Env} {p : Plan} (h : Ready s e p) {d : Reg} {n : Nat} (hd : p.dst = some (d, n))
    {form : Ctx → Nat → LaneRes} {f : Nat → List CWord} (hf : ∀ l ∈ e.part, (form (readCtx s e p) l).out = f l) :
    (context s e p form).results d = toReg e d f := by
  rw [← toReg_congr d hf, context_eq h form]
  unfold Ctx.results toReg formLanes Plan.once
  rw [hd]
  simp only [readCtx, List.flatMap_map]

/-! ### Fixed latency -/

/-- Writing results at one latency. -/
theorem foldl_write (g : Tg) (lat : Nat) (ws : List (RKey × CWord)) :
    ws.foldl (fun g kw => g.write lat kw.1 kw.2) g = writeAll g (fun _ => lat) ws := rfl

/-- What a lane forms passes its check, and gives these words. -/
def Forms (r : LaneRes) (ws : List CWord) : Prop := Sound r ∧ r.out = ws

theorem fixedOp_writes {s : State} {e : Env} {h : Hints} {base : Nat} {d : Reg} {n : Nat} {srcs : List Src}
    {form : Ctx → Nat → LaneRes} {f : Nat → List CWord} (hr : Ready s e (regPlan h d n srcs))
    (hf : ∀ l ∈ e.part, Forms (form (readCtx s e (regPlan h d n srcs)) l) (f l)) :
    Writes s e h (fixedOp s h base d n srcs form) e.g (toReg e d f) := by
  refine issue_writes hr (lat := fun _ => (regPlan h d n srcs).latency base) (fun l hl => (hf l (formLanes_part hl)).1) rfl rfl
    (shot_pc hr) (toReg_writable hr.env _ d _) ?_
  show (context s e (regPlan h d n srcs) form).put _ = _
  rw [Ctx.put, context_s, context_e, context_tg hr, foldl_write, results_eq hr rfl fun l hl => (hf l hl).2]
  rfl

theorem shot_countConversions (g : Tg) (part : List Nat) : (g.countConversions part).shot = g.shot := rfl

theorem shot_counted (e : Env) (cls : List Fmt) (g : Tg) : (counted e cls g).shot.pc = g.shot.pc := by
  unfold counted
  split <;> rfl

theorem roundedOp_writes {s : State} {e : Env} {h : Hints} {base : Nat} {cls : List Fmt} {d : Reg} {n : Nat} {srcs : List Src}
    {form : Ctx → Nat → LaneRes} {f : Nat → List CWord} (hr : Ready s e (regPlan h d n srcs))
    (hf : ∀ l ∈ e.part, Forms (form (readCtx s e (regPlan h d n srcs)) l) (f l)) :
    Writes s e h (roundedOp s h base cls d n srcs form) (counted e cls e.g) (toReg e d f) := by
  refine issue_writes hr (lat := fun _ => (regPlan h d n srcs).latency base) (fun l hl => (hf l (formLanes_part hl)).1) rfl rfl
    ((shot_counted ..).trans (shot_pc hr)) (toReg_writable hr.env _ d _) ?_
  show (context s e (regPlan h d n srcs) form).put _ = _
  rw [Ctx.put, context_s, context_e, context_tg hr, foldl_write, results_eq hr rfl fun l hl => (hf l hl).2]
  rfl

/-! ### Variable latency -/

theorem writable_nil (g : Tg) : Writable g [] := ⟨by simp, by simp, by simp⟩

theorem shot_launchOp (g : Tg) (o : MemOp) : (g.launchOp o).shot = g.shot := by
  have pend : (g.addPend o.ps).shot = g.shot := by
    unfold Tg.addPend
    split <;> rfl
  exact pend

/-- An instruction whose effect is to put an operation in flight. -/
theorem launch_writes {s : State} {e : Env} {p : Plan} {form : Ctx → Nat → LaneRes} {act : Ctx → State} {cls : List Fmt} {o : MemOp}
    (hr : Ready s e p) (hcut : p.cut = false) (usual : p.reserved (context s e p form) = false)
    (sound : ∀ l ∈ e.part, Sound (form (readCtx s e p) l))
    (eff : act (context s e p form) = s.setTg e.r ((counted e cls e.g).launchOp o)) :
    Writes s e p.h (issue s p form noLate act) ((counted e cls e.g).launchOp o) [] := by
  refine issue_writes hr (lat := fun _ => 0) (fun l hl => sound l (formLanes_part hl)) usual hcut ?_ (writable_nil _) eff
  rw [shot_launchOp]
  exact (shot_counted e cls e.g).trans (shot_pc hr)

theorem counted_nil (e : Env) (g : Tg) : counted e [] g = g := rfl

/-- A variable-latency instruction that returns its results in the destination. -/
theorem varOp_writes {s : State} {e : Env} {p : Plan} {d : Reg} {n : Nat} {form : Ctx → Nat → LaneRes} {f : Nat → List CWord}
    (hr : Ready s e p) (hcut : p.cut = false) (hd : p.dst = some (d, n)) (usual : p.reserved (context s e p form) = false)
    (hf : ∀ l ∈ e.part, Forms (form (readCtx s e p) l) (f l)) :
    Writes s e p.h (varOp s p form fun c => c.results d) (e.g.launchOp (resultOp p.h (toReg e d f))) [] := by
  refine launch_writes (cls := []) hr hcut usual (fun l hl => (hf l hl).1) ?_
  rw [Ctx.put, context_s, context_e, context_tg hr, ← results_eq hr hd fun l hl => (hf l hl).2]
  rfl

theorem sfOp_writes {s : State} {e : Env} {h : Hints} {cls : List Fmt} {d : Reg} {n : Nat} {srcs : List Src}
    {form : Ctx → Nat → LaneRes} {f : Nat → List CWord} (hr : Ready s e (sfPlan h d n srcs))
    (hf : ∀ l ∈ e.part, Forms (form (readCtx s e (sfPlan h d n srcs)) l) (f l)) :
    Writes s e h (sfOp s h cls d n srcs form) ((counted e cls e.g).launchOp (resultOp h (toReg e d f))) [] := by
  refine launch_writes (p := sfPlan h d n srcs) hr rfl rfl (fun l hl => (hf l hl).1) ?_
  show (context s e (sfPlan h d n srcs) form).put _ = _
  rw [Ctx.put, context_s, context_e, context_tg hr, results_eq hr rfl fun l hl => (hf l hl).2]
  rfl

/-! ### Guards -/

theorem guardWords_writable {s : State} {h : Hints} {e : Env} (he : env? s h = some e) {t : Tg}
    (ht : t.threads.length = e.g.threads.length) (g : BitVec 3) (f : Nat → Bool) : Writable t (guardWords e g f) := by
  refine ⟨?_, ?_, ?_⟩
  · intro kw hkw
    obtain ⟨l, hl, rfl⟩ := List.mem_map.mp hkw
    exact ⟨g.isLt, by rw [ht]; exact (mem_part he hl).2.1, f l, rfl⟩
  · intro kw hkw
    obtain ⟨l, hl, rfl⟩ := List.mem_map.mp hkw
    rfl
  · simp only [guardWords, List.map_map]
    exact List.Nodup.map (fun a b hab => by simpa using hab) (part_nodup he)

theorem foldl_writeGuard (t : Tg) (base g : Nat) (ls : List Nat) (f : Nat → Bool) :
    ls.foldl (fun t l => t.writeGuard base g l (f l)) t =
      writeAll t (fun _ => base) (ls.map fun l => (.g g l, guardWord (f l))) := by
  unfold writeAll
  rw [List.foldl_map]
  rfl

theorem guardWords_congr {e : Env} (g : BitVec 3) {f f' : Nat → Bool} (hf : ∀ l ∈ e.part, f l = f' l) : guardWords e g f = guardWords e g f' := by
  unfold guardWords
  exact List.map_congr_left fun l hl => by rw [hf l hl]

theorem guardOp_writes {s : State} {e : Env} {h : Hints} {base : Nat} {srcs : List Src} {guards : List (BitVec 3)} {g : BitVec 3}
    {form : Ctx → Nat → LaneRes} {val : Ctx → Nat → Bool} {f : Nat → Bool} (hr : Ready s e (guardPlan h srcs guards))
    (sound : ∀ l ∈ e.part, Sound (form (readCtx s e (guardPlan h srcs guards)) l))
    (hf : ∀ l ∈ e.part, val (context s e (guardPlan h srcs guards) form) l = f l) :
    Writes s e h (guardOp s h base srcs guards g form val) e.g (guardWords e g f) := by
  rw [← guardWords_congr g hf]
  refine issue_writes hr (lat := fun _ => base) (fun l hl => sound l (formLanes_part hl)) rfl rfl (shot_pc hr)
    (guardWords_writable hr.env rfl g _) ?_
  show (context s e (guardPlan h srcs guards) form).put _ = _
  rw [Ctx.put, context_s, context_e, context_tg hr, foldl_writeGuard]
  rfl

/-! ### What lanes form -/

theorem pred_out (n v stage p : Nat) (poison : Bool) : (LaneRes.pred n v stage p poison).out = valueWords n v poison := by
  unfold LaneRes.pred LaneRes.out valueWords wordsOf
  split <;> rfl

theorem dup_out (n v : Nat) (poison : Bool) : (LaneRes.dup n v poison).out = valueWords n v poison := by
  unfold LaneRes.dup LaneRes.out valueWords wordsOf
  split <;> rfl

/-- The values of an issue in its context. -/
theorem context_val {s : State} {e : Env} {p : Plan} (h : Ready s e p) (form : Ctx → Nat → LaneRes) {l : Nat} (hl : l ∈ e.part) (i : Nat) :
    (context s e p form).val i l = value s e p.srcs i l := by
  rw [← val_value h hl, context_eq h form]
  rfl

end Sys2Proof.Safety
end

