-- ==== Sys2Proof/Laws/Values.lean ====
section
/-! SUPPORT. What operands supply: as many words as the operand has, and values that fit in them. -/

namespace Sys2Proof.Safety

open Sys2Proof.Machine

theorem ccRead_length {s s1 : State} {e : Env} {lane va n : Nat} {ws : List CWord} (h : ccRead s e lane va n = (s1, .words ws)) : ws.length = n := by
  induction n generalizing s s1 va ws with
  | zero => unfold ccRead at h; cases h; rfl
  | succ n ih =>
    unfold ccRead at h
    split at h
    · split at h
      · rename_i s2 ws' hr
        cases h
        simp [ih hr]
      · rename_i hn
        exact absurd h (hn s1 ws)
    · split at h
      · split at h <;> cases h
      · dsimp only at h
        split at h
        · rename_i s2 ws' hr
          cases h
          simp [ih hr]
        · rename_i hn
          exact absurd h (hn s1 ws)

theorem windowReadAt_length {s s1 : State} {e : Env} {lane win off n : Nat} {ws : List CWord}
    (h : windowReadAt s e lane win off n = (s1, .words ws)) : ws.length = n := by
  unfold windowReadAt at h
  dsimp only at h
  split at h
  · cases h
  · split at h
    · cases h
    · exact ccRead_length h

theorem immWords_length {n : Nat} (hn : n = 1 ∨ n = 2) (ext : ImmExt) (w : Word) : (immWords n ext w).length = n := by
  unfold immWords
  rcases hn with rfl | rfl
  · simp
  · cases ext <;> simp

/-- An operand of one or two words supplies as many. -/
theorem given_length {s : State} {e : Env} {ls : List Nat} {x : Src} (h : Readable s e ls x) (hw : x.words = 1 ∨ x.words = 2) (l : Nat) :
    (given s e x l).length = x.words := by
  unfold given
  cases hx : x.opd with
  | imm w => exact immWords_length hw ..
  | reg r => simp [Src.keys, hx]
  | win n off =>
    have := (h.2.1 n off hx).1
    unfold Src.window at this
    rw [hx] at this
    exact windowReadAt_length this

theorem valOf_lt (ws : List CWord) : valOf ws < 2 ^ (32 * ws.length) := by
  induction ws with
  | nil => simp [valOf]
  | cons w ws ih =>
    have := w.data.isLt
    rw [valOf, List.length_cons, Nat.mul_succ, Nat.pow_add]
    have : 2 ^ 32 * valOf ws + 2 ^ 32 ≤ 2 ^ 32 * 2 ^ (32 * ws.length) := by
      rw [← Nat.mul_succ]
      exact Nat.mul_le_mul_left _ ih
    rw [Nat.mul_comm (2 ^ (32 * ws.length))]
    omega

/-- The value of a source fits in its words. -/
theorem value_lt {s : State} {e : Env} {p : Plan} (h : Ready s e p) {i : Nat} {x : Src} (hx : p.srcs[i]? = some x)
    (hw : x.words = 1 ∨ x.words = 2) (l : Nat) : value s e p.srcs i l < 2 ^ (32 * x.words) := by
  unfold value
  rw [hx]
  have := valOf_lt (given s e x l)
  rw [given_length (h.srcs x (List.mem_of_getElem? hx)) hw] at this
  exact this

end Sys2Proof.Safety
end

