-- ==== Sys2Proof/Tests/Slice0.lean ====
section
/-! SUPPORT. Tests of the model against the manual's encodings and worked examples, and witnesses: a state and operands
that meet the hypotheses of every statement. -/

namespace Sys2Proof.Tests

open Sys2Proof Sys2Proof.Machine Sys2Proof.Safety

/-! ### Words written out from the encoding tables

Fields of Table 8.5 and register specifiers of R154 and R37, written out here by themselves. -/

/-- The hints of a plain word: always true, no stall, no slot (Table 8.7). -/
def h0 : Hints := ⟨false, 15#4, 0#4, 0#3, false, false⟩

/-- A word from its opcode, MOD, guard [75:71], ST, PS, YIELD and REUSE, D, A and B (Table 8.5). -/
def word (op mod guard st ps hint d a b : Nat) : BitVec 96 :=
  BitVec.ofNat 96 (op * 2 ^ 86 + mod * 2 ^ 76 + guard * 2 ^ 71 + st * 2 ^ 67 + ps * 2 ^ 64 + hint * 2 ^ 62 + d * 2 ^ 50 + a * 2 ^ 38 + b)

/-- A word with an always true guard and no hints. -/
def plain (op mod d a b : Nat) : BitVec 96 := word op mod 15 0 0 0 d a b

/-- Specifiers: uniform, temporary, guard, tile handle, barrier, range slot (R154, R37); field B of kinds 00 with C, 01
and 10 (Table 8.6). -/
def sR (i : Nat) : Nat := 0x400 + i
def kR (i : Nat) : Nat := 0x800 + i
def gR (i : Nat) : Nat := 0x880 + i
def mR (i : Nat) : Nat := 0x900 + i
def bR (i : Nat) : Nat := 0x980 + i
def fR (i : Nat) : Nat := 0xA00 + i
def withC (c b : Nat) : Nat := c * 2 ^ 24 + b
def winB (n off : Nat) : Nat := 2 ^ 36 + n * 2 ^ 17 + off
def immB (w : Nat) : Nat := 2 * 2 ^ 36 + w

/-- Every word of a list decodes to the instruction beside it. -/
def allDecode (l : List (BitVec 96 × Instr)) : Bool := l.all fun x => decide (decode x.1 = x.2)

/-- Group 0x0 (Table 15.1, R165). -/
theorem test_decode_control : allDecode [
    (plain 0x001 0 0 0 0, .nop h0), (word 0x001 0 0x13 9 5 3 0 0 0, .nop ⟨true, 3#4, 9#4, 5#3, true, true⟩),
    (plain 0x002 0 0 0 (immB 0xFFFFFFF4), .bra h0 0xFFFFFFF4#32), (plain 0x003 0 0 (sR 1022) 0, .brx h0 (.s 1022)),
    (plain 0x004 1 20 0 (immB 0x600), .call h0 (some (.v 20)) 0x600#32), (plain 0x004 0 0 0 (immB 12), .call h0 none 12#32),
    (plain 0x005 1 254 8 0, .callx h0 (some (.v 254)) (.v 8)), (plain 0x006 0 0 0 0, .ret h0 none),
    (plain 0x006 1 0 30 0, .ret h0 (some (.v 30))), (plain 0x007 0 0 0 0, .exit h0),
    (plain 0x008 0 0 0 (immB 0x7FFFFFFC), .rcv h0 0x7FFFFFFC#32), (plain 0x009 0 0 0 0, .join h0),
    (plain 0x00A 0 0 0 (immB 0x187E), .cut h0 (.imm 0x187E)), (plain 0x00A 0 0 0 (sR 5), .cut h0 (.reg (.s 5))),
    (plain 0x00B 0 0 0 0, .yield h0), (plain 0x00C 0 0 0 (immB 0xBEEF), .brk h0 0xBEEF#16),
    (plain 0x00D 0 0 0 (immB 0xFFFF), .trap h0 0xFFFF#16), (plain 0x00E 0 0 0 0, .tret h0),
    (plain 0x00F 1 (sR 7) (sR 1022) 0, .lnch h0 true 7 1022)] = true := by decide

/-- Group 0x1 (Table 10.1). -/
theorem test_decode_integer : allDecode [
    (plain 0x040 (4 + 8) 255 0 (immB 0xFFFFFFFF), .iadd h0 .s16 true (.v 255) (.v 0) (.imm 0xFFFFFFFF)),
    (plain 0x041 (1 + 8 * 7 + 64 * 2) 1 3 4, .iaddx h0 .n32 (.v 1) 2 (.v 3) (.reg (.v 4)) (some 7)),
    (plain 0x041 (64 * 7 + 512) 1 3 4, .iaddx h0 .s32 (.v 1) 7 (.v 3) (.reg (.v 4)) none),
    (plain 0x042 3 254 (sR 2) (winB 7 0x1FFFE), .isub h0 .n64 false (.v 254) (.s 2) (.win 7 0x1FFFE)),
    (plain 0x043 2 (kR 6) 0 (kR 2), .ineg h0 .s64 false (.k 6) (.reg (.k 2))),
    (plain 0x044 (6 + 8) 1 0 2, .iabs h0 .s8 true (.v 1) (.reg (.v 2))), (plain 0x045 5 1 2 3, .imin h0 .n16 (.v 1) (.v 2) (.reg (.v 3))),
    (plain 0x046 7 1 2 3, .imax h0 .n8 (.v 1) (.v 2) (.reg (.v 3))), (plain 0x047 0 1 2 3, .imul h0 .s32 false (.v 1) (.v 2) (.reg (.v 3))),
    (plain 0x048 1 1 2 3, .imulh h0 .n32 (.v 1) (.v 2) (.reg (.v 3))),
    (plain 0x049 0 1 2 (withC 4 3), .imad h0 .s32 (.v 1) (.v 2) (.reg (.v 3)) (.v 4)),
    (plain 0x04A 1 6 2 (withC (sR 8) (sR 3)), .imadw h0 .n32 (.v 6) (.v 2) (.reg (.s 3)) (.s 8)),
    (plain 0x04B 2 6 2 8, .idiv h0 .s64 (.v 6) (.v 2) (.reg (.v 8))), (plain 0x04C 0 1 2 3, .irem h0 .s32 (.v 1) (.v 2) (.reg (.v 3))),
    (plain 0x04D (6 + 8) 1 2 (withC 4 3), .idot4 h0 .s8 true (.v 1) (.v 2) (.reg (.v 3)) (.v 4)),
    (plain 0x04E 7 1 2 (withC 4 3), .isad h0 .n8 (.v 1) (.v 2) (.reg (.v 3)) (.v 4)),
    (plain 0x04F 0 1 2 (withC 4 3), .iclamp h0 .s32 (.v 1) (.v 2) (.reg (.v 3)) (.v 4)),
    (plain 0x050 (3 + 8 * 7) 8 2 4, .lea h0 .n64 7 (.v 8) (.v 2) (.reg (.v 4)))] = true := by decide

/-- Group 0x2 (Table 10.4, R211); `.b32` is code 1 and `.b64` code 3 (R199). -/
theorem test_decode_logic : allDecode [
    (plain 0x080 1 1 2 3, .and h0 false (.v 1) (.v 2) (.reg (.v 3))), (plain 0x081 3 8 2 4, .or h0 true (.v 8) (.v 2) (.reg (.v 4))),
    (plain 0x082 1 1 2 3, .xor h0 false (.v 1) (.v 2) (.reg (.v 3))), (plain 0x083 1 1 2 3, .andn h0 false (.v 1) (.v 2) (.reg (.v 3))),
    (plain 0x084 1 1 2 3, .orn h0 false (.v 1) (.v 2) (.reg (.v 3))),
    (plain 0x085 (4 * 0x8 + 64 * 0xE) 1 2 (withC 4 3), .lop3 h0 false 0x8 0xE (.v 1) (.v 2) (.reg (.v 3)) (.v 4)),
    (plain 0x086 (1 + 8) 1 2 (immB 33), .shl h0 false true (.v 1) (.v 2) (.imm 33)), (plain 0x087 3 8 2 5, .shr h0 true false (.v 8) (.v 2) (.reg (.v 5))),
    (plain 0x088 1 1 2 3, .sar h0 false false (.v 1) (.v 2) (.reg (.v 3))), (plain 0x089 1 1 2 3, .rol h0 false (.v 1) (.v 2) (.reg (.v 3))),
    (plain 0x08A (1 + 8) 1 2 (withC 4 3), .fsh h0 true (.v 1) (.v 2) (.reg (.v 3)) (.v 4)), (plain 0x08B 3 1 0 2, .popc h0 true (.v 1) (.reg (.v 2))),
    (plain 0x08C 1 1 0 2, .clz h0 false (.v 1) (.reg (.v 2))), (plain 0x08D 1 1 0 2, .ctz h0 false (.v 1) (.reg (.v 2))),
    (plain 0x08E 3 4 0 2, .brev h0 true (.v 4) (.reg (.v 2))), (plain 0x08F 2 8 2 5, .bfx h0 .s64 (.v 8) (.v 2) (.reg (.v 5))),
    (plain 0x090 1 1 2 (withC 4 3), .bfi h0 false (.v 1) (.v 2) (.reg (.v 3)) (.v 4)),
    (plain 0x091 1 1 2 (withC 4 3), .permb h0 (.v 1) (.v 2) (.reg (.v 3)) (.v 4))] = true := by decide

/-- Group 0x3 (Table 10.7, Table 2.7, R219, R232). -/
theorem test_decode_moves : allDecode [
    (plain 0x0C0 (2 + 8 * 5 + 64 * 2) (gR 7) 2 4, .icmp h0 .s64 .ge .disj 7 (.v 2) (.reg (.v 4))),
    (plain 0x0C1 (1 + 8 * 7 + 64) (gR 1) 2 3, .fcmp h0 .f32 .nan .conj 1 (.v 2) (.reg (.v 3))),
    (plain 0x0C2 0x6 (gR 1) (gR 2) (gR 3), .gset h0 6 1 2 3), (plain 0x0C2 0x10 (gR 1) 0 (immB 9), .gsetNz h0 1 (.imm 9)),
    (plain 0x0C3 (3 + 8 * 6 + 64) 4 2 6, .gmov h0 true 6 true (.v 4) (.v 2) (.reg (.v 6))),
    (plain 0x0C4 1 1 2 (withC 4 3), .sel h0 false (.v 1) (.v 2) (.reg (.v 3)) (.v 4)),
    (plain 0x0C5 1 (kR 7) 0 (immB 0x3F800000), .mov h0 false (.k 7) (.imm 0x3F800000)),
    (plain 0x0C6 (1 + 4) 1 0 2, .rsd h0 true true (.v 1) (.reg (.v 2))), (plain 0x0C7 1 4 0 2, .rsdp h0 true (.v 4) (.reg (.v 2))),
    (plain 0x0C8 0 (gR 5) 0 (winB 1 3), .rsdq h0 false 5 (.win 1 3))] = true := by decide

/-- Groups 0x4 and 0x5 (Table 11.1, Table 11.2). -/
theorem test_decode_float : allDecode [
    (plain 0x100 (1 + 8 + 64) 1 2 3, .fadd h0 .f32 ⟨true, false⟩ ⟨false, true⟩ (.v 1) (.v 2) (.reg (.v 3))),
    (plain 0x101 (0 + 16 + 32) 4 2 6, .fsub h0 .f64 ⟨false, true⟩ ⟨true, false⟩ (.v 4) (.v 2) (.reg (.v 6))),
    (plain 0x102 2 1 2 3, .fmul h0 .f16 ⟨false, false⟩ ⟨false, false⟩ (.v 1) (.v 2) (.reg (.v 3))),
    (plain 0x103 (3 + 128) 1 2 (withC 4 3), .ffma h0 .bf16 ⟨false, false⟩ ⟨false, false⟩ ⟨true, false⟩ (.v 1) (.v 2) (.reg (.v 3)) (.v 4)),
    (plain 0x104 (1 + 16) 1 2 3, .fmin h0 .f32 ⟨false, true⟩ ⟨false, false⟩ (.v 1) (.v 2) (.reg (.v 3))),
    (plain 0x105 (1 + 32) 1 2 3, .fmax h0 .f32 ⟨false, false⟩ ⟨true, false⟩ (.v 1) (.v 2) (.reg (.v 3))),
    (plain 0x106 (1 + 32 + 128 * 4) 1 0 3, .frnd h0 .f32 .rf ⟨true, false⟩ (.v 1) (.reg (.v 3))),
    (plain 0x107 (0 + 8) 4 2 3, .fscl h0 .f64 ⟨true, false⟩ (.v 4) (.v 2) (.reg (.v 3))),
    (plain 0x108 1 1 0 3, .fcls h0 .f32 (.v 1) (.reg (.v 3))),
    (plain 0x140 (1 + 2) 1 2 3, .hadd2 h0 true true false (.v 1) (.v 2) (.reg (.v 3))),
    (plain 0x141 4 1 2 3, .hmul2 h0 false false true (.v 1) (.v 2) (.reg (.v 3))),
    (plain 0x142 8 1 2 (withC 4 3), .hfma2 h0 false false false true (.v 1) (.v 2) (.reg (.v 3)) (.v 4)),
    (plain 0x143 0 1 2 3, .hmin2 h0 false false false (.v 1) (.v 2) (.reg (.v 3))),
    (plain 0x144 1 1 2 3, .hmax2 h0 true false false (.v 1) (.v 2) (.reg (.v 3))),
    (plain 0x145 0x04 1 2 3, .qadd4 h0 ⟨false, false, 4⟩ (.v 1) (.v 2) (.reg (.v 3))),
    (plain 0x146 0x1B 1 2 3, .qmul4 h0 ⟨true, true, 3⟩ (.v 1) (.v 2) (.reg (.v 3))),
    (plain 0x147 0x17 1 2 (withC 4 3), .qfma4 h0 ⟨true, false, 7⟩ (.v 1) (.v 2) (.reg (.v 3)) (.v 4)),
    (plain 0x148 (0x09 + 32) 1 2 3, .qmax4 h0 true ⟨false, true, 1⟩ (.v 1) (.v 2) (.reg (.v 3))),
    (plain 0x149 1 1 2 (withC 4 3), .dot2 h0 true (.v 1) (.v 2) (.reg (.v 3)) (.v 4)),
    (plain 0x14A (0x04 + 32 * 0x13) 1 2 (withC 4 3), .dot4q h0 ⟨false, false, 4⟩ ⟨true, false, 3⟩ (.v 1) (.v 2) (.reg (.v 3)) (.v 4)),
    (plain 0x14B 0 1 2 (withC 4 3), .dotbg h0 (.v 1) (.v 2) (.reg (.v 3)) (.v 4))] = true := by decide

/-- Groups 0x6 and 0x7 (Table 11.3, Table 11.5, R240 to R247). -/
theorem test_decode_convert : allDecode [
    (plain 0x180 0 4 0 2, .rcp h0 .f64 (.v 4) (.reg (.v 2))), (plain 0x181 1 1 0 2, .rsq h0 .f32 (.v 1) (.reg (.v 2))),
    (plain 0x182 2 1 0 2, .sqrt h0 .f16 (.v 1) (.reg (.v 2))), (plain 0x183 3 1 2 3, .fdiv h0 .bf16 (.v 1) (.v 2) (.reg (.v 3))),
    (plain 0x184 1 1 0 2, .exp2 h0 .f32 (.v 1) (.reg (.v 2))), (plain 0x185 1 1 0 2, .log2 h0 .f32 (.v 1) (.reg (.v 2))),
    (plain 0x186 1 1 0 2, .sin h0 .f32 (.v 1) (.reg (.v 2))), (plain 0x187 1 1 0 2, .cos h0 .f32 (.v 1) (.reg (.v 2))),
    (plain 0x188 1 1 0 2, .tanh h0 .f32 (.v 1) (.reg (.v 2))), (plain 0x189 (0 + 8 * 3) 4 0 2, .cvt h0 .f64 .bf16 (.v 4) (.reg (.v 2))),
    (plain 0x18A (2 + 8 * 1 + 64 * 3) 4 0 2, .cvtiToInt h0 .s64 .f32 .ru (.v 4) (.reg (.v 2))),
    (plain 0x18A (6 + 8 * 2 + 32) 1 0 2, .cvtiFromInt h0 .s8 .f16 (.v 1) (.reg (.v 2))),
    (plain 0x18B (0x2C + 64 * 1) 1 0 2, .cvtnNarrow h0 (.b8 ⟨false, true, 4⟩) .f16 (.v 1) (.reg (.v 2))),
    (plain 0x18B (0x04 + 64 * 2 + 256) 1 0 2, .cvtnWiden h0 .bg4 .bf16 (.v 1) (.reg (.v 2))),
    (plain 0x18C (0x09 + 64 * 7 + 512) 1 2 (withC 4 3), .qnt h0 .n8 (some 7) (.v 1) (.v 2) (.reg (.v 3)) (.v 4)),
    (plain 0x18C 0x0A 1 2 (withC 4 3), .qnt h0 .s16 none (.v 1) (.v 2) (.reg (.v 3)) (.v 4)),
    (plain 0x18D (0x3F + 64 * 2) 1 2 3, .dqnt h0 (.b8 ⟨true, true, 7⟩) .bf16 (.v 1) (.v 2) (.reg (.v 3))),
    (plain 0x18E (0x08 + 64) (sR 1) 0 2, .qscl h0 .s8 true (.s 1) (.reg (.v 2))), (plain 0x18F 0x02 4 0 2, .qspl h0 .f16 (.v 4) (.reg (.v 2))),
    (plain 0x18F 64 (sR 1) (sR 2) (immB 63), .qsplRec h0 1 2 (.imm 63)), (plain 0x190 (2 + 4 * 3) 1 2 3, .pack h0 .n 3 (.v 1) (.v 2) (.reg (.v 3))),
    (plain 0x191 (1 + 4 * 3 + 32) 1 0 3, .unpk h0 .b 3 true (.v 1) (.reg (.v 3))),
    (plain 0x1C0 (1 + 4 + 8 * 6) 4 2 (immB 5), .shfl h0 .rot true 6 (.v 4) (.v 2) (.imm 5)),
    (plain 0x1C0 3 4 2 0, .shfl h0 .rev false 0 (.v 4) (.v 2) (.reg (.v 0))),
    (plain 0x1C1 4 (gR 1) (gR 7) 0, .vote h0 (.all 1) true 7), (plain 0x1C1 1 (gR 1) (gR 2) 0, .vote h0 (.any 1) false 2),
    (plain 0x1C1 2 (gR 1) (gR 2) 0, .vote h0 (.eq 1) false 2), (plain 0x1C1 3 (sR 4) (gR 2) 0, .vote h0 (.mask (.s 4)) false 2),
    (plain 0x1C2 (0 + 16 * 5) 1 0 2, .lred h0 .s32 .xor (.v 1) (.reg (.v 2))), (plain 0x1C3 (5 + 128) 6 0 5, .lscn h0 .f32 .add true (.v 6) (.reg (.v 5))),
    (plain 0x1C4 4 6 0 4, .mtch h0 true (.v 6) (.reg (.v 4))), (plain 0x1C5 0 (sR 1) 2 3, .rdln h0 false 1 (.v 2) (.reg (.v 3))),
    (plain 0x1C6 4 6 (sR 1) (sR 2), .wrln h0 true 6 1 (.reg (.s 2)))] = true := by decide

/-- Groups 0x8, 0x9 and 0xA (Table 13.2). -/
theorem test_decode_memory : allDecode [
    (word 0x200 (1 + 8 + 16) 15 0 2 0 8 6 (immB 0x40), .ld ⟨false, 15#4, 0#4, 2#3, false, false⟩ .b64 true true (.v 8) (.v 6) (.imm 0x40)),
    (plain 0x201 6 8 6 (immB 0), .st h0 .s8 false false (.v 8) (.v 6) (.imm 0)),
    (plain 0x202 (8 * 6) 8 6 9, .lda h0 .b32 .system (.v 8) (.v 6) (.reg (.v 9))),
    (plain 0x203 (2 + 8 * 3) 8 6 9, .stl h0 .b128 .cluster (.v 8) (.v 6) (.reg (.v 9))),
    (plain 0x204 5 8 6 (immB (7 * 2 ^ 29 + 0x7FFFF)), .ldc h0 .n16 (.v 8) 7 (.v 6) 0x7FFFF), (plain 0x205 1 0 6 (immB 4), .pref h0 true (.v 6) (.imm 4)),
    (plain 0x206 0 (bR 15) (sR 6) (immB 4096), .preft h0 false 15 6 (.imm 4096)), (plain 0x240 4 8 6 (immB 4), .lds h0 .s16 (.v 8) (.v 6) (.imm 4)),
    (plain 0x241 7 8 6 (immB 4), .sts h0 .n8 (.v 8) (.v 6) (.imm 4)), (plain 0x242 2 8 6 (immB 4), .ldfKeep h0 .b128 (.v 8) (.v 6) (.imm 4)),
    (plain 0x242 8 8 6 (immB 4), .ldfTake h0 .b32 (.v 8) (.v 6) (.imm 4)), (plain 0x243 1 8 6 (immB 4), .stf h0 .b64 (.v 8) (.v 6) (.imm 4)),
    (plain 0x244 0 0 (sR 3) (immB 16), .grnClr h0 3 (.imm 16)), (plain 0x244 1 0 (sR 3) (sR 4), .grnSet h0 3 (.reg (.s 4))),
    (plain 0x244 2 (sR 9) (sR 3) (immB 16), .grnQry h0 9 3 (.imm 16)), (plain 0x245 (8 * 7) 8 6 (immB 4), .ldx h0 .b32 7 (.v 8) (.v 6) (.imm 4)),
    (plain 0x246 (1 + 8) 8 6 (immB 4), .stx h0 .b64 1 (.v 8) (.v 6) (.imm 4)),
    (plain 0x280 (0 + 16 * 6 + 128 * 5) 8 6 9, .atom h0 .s32 .exch .device (.v 8) (.v 6) (.reg (.v 9))),
    (plain 0x281 (6 + 16) 8 7 9, .atoms h0 .f16x2 .min (.v 8) (.v 7) (.reg (.v 9))),
    (plain 0x282 (5 + 128 * 2) 0 6 (immB 0x3F800000), .red h0 .f32 .add .wg (.v 6) (.imm 0x3F800000)),
    (plain 0x282 (3 + 8 + 16 * 4) 0 7 8, .redSpad h0 .n64 .or (.v 7) (.reg (.v 8))),
    (plain 0x283 (1 + 128) 8 6 (withC 10 9), .cas h0 .n32 .tg (.v 8) (.v 6) (.reg (.v 9)) (.v 10)),
    (plain 0x284 2 8 7 (withC 10 12), .cass h0 .s64 (.v 8) (.v 7) (.reg (.v 12)) (.v 10)),
    (plain 0x285 (5 + 8 * 1) 0 0 (immB 0x81), .fence h0 .rel .device 0x81), (plain 0x285 (2 + 8 * 3) 0 0 (immB 0), .fence h0 .full .wg 0),
    (plain 0x286 2 (fR 7) (sR 2) (sR 4), .rngs h0 true 7 2 4), (plain 0x286 1 (fR 0) 0 (immB 63), .rngsT h0 0 63),
    (plain 0x287 0 (fR 3) 0 0, .rngc h0 3)] = true := by decide

/-- Group 0xB (Table 12.2, R264). -/
theorem test_decode_matrix : allDecode [
    (plain 0x2C0 1 0 (sR 8) (immB 63), .tdw h0 true 8 63), (plain 0x2C1 3 (sR 6) 0 (immB 5), .tdr h0 .dw3 false 6 5 0),
    (plain 0x2C1 (4 + 8) (sR 5) 0 (immB 2), .tdr h0 .sat true 5 2 0), (plain 0x2C1 7 (sR 5) 0 (immB (2 + 256 * 63)), .tdr h0 .map false 5 2 63),
    (plain 0x2C2 3 (gR 1) (mR 15) (immB (512 + 65536 * 768)), .macq h0 .s64 1 15 (.imm (512 + 65536 * 768))),
    (plain 0x2C3 0 (mR 3) 0 0, .mrel h0 3), (plain 0x2C4 0 (mR 3) 0 0, .mzro h0 3),
    (plain 0x2C5 1 (mR 2) (sR 8) (immB (0 + 64 * 1)), .mma h0 true 2 8 0 1), (plain 0x2C5 2 (mR 2) (sR 8) (immB (63 + 64 * 1)), .mmaGang h0 false 2 8 63 1),
    (plain 0x2C6 0 0 (sR 4) 0, .mgng h0 4), (plain 0x2C6 1 0 0 0, .mgngClr h0), (plain 0x2C7 0 (mR 2) (sR 6) (immB 7), .mlda h0 2 6 7),
    (plain 0x2C8 0 (mR 2) (sR 6) (immB 7), .msta h0 2 6 7 none),
    (word 0x2C8 (7 + 8) 15 0 6 0 (mR 2) (sR 6) (immB 7), .msta ⟨false, 15#4, 0#4, 6#3, false, false⟩ 2 6 7 (some 7)),
    (plain 0x2C9 0 (sR 6) 0 0, .mprgRd h0 6), (plain 0x2C9 1 (sR 6) 0 0, .mprgPc h0 6), (plain 0x2C9 2 0 0 0, .mprgGo h0),
    (plain 0x2C9 3 0 0 0, .mprgAb h0), (plain 0x2CA 0 0 0 (immB 9), .mdupClr h0 9), (plain 0x2CA 1 0 0 (immB (9 + 64 * 63)), .mdupCp h0 9 63)] = true := by
  decide

/-- Groups 0xC, 0xD and 0xE (Table 15.2, Table 15.4, Table 15.6); group 0xF (R169, R170). -/
theorem test_decode_system : allDecode [
    (word 0x300 0 8 0 0 0 0 (sR 8) 0, .cpy { h0 with gidx := 8 } 8), (word 0x301 0 0x1E 0 0 0 0 (sR 8) (immB 64), .cpygGather { h0 with gidx := 14, gneg := true } 8 (.imm 64)),
    (plain 0x301 1 0 (sR 8) (sR 9), .cpygScatter h0 8 (.reg (.s 9))), (plain 0x302 0 0 (sR 8) (immB 15), .cpyx h0 8 15),
    (plain 0x303 0 (gR 1) (sR 8) 0, .cpyrGo h0 1 8), (plain 0x303 1 (gR 1) (sR 8) 0, .cpyrAb h0 1 8), (plain 0x304 0 0 (sR 16) 0, .dcmp h0 16),
    (plain 0x305 3 0 0 (immB 255), .waitc h0 .mem 255), (plain 0x306 6 0 0 (immB 1), .dgrs h0 6 (.imm 1)), (plain 0x306 (5 + 8) 0 0 0, .dgrsClr h0 5),
    (plain 0x340 0 0 (bR 15) (immB 4095), .bari h0 15 4095), (plain 0x341 1 (sR 3) (bR 2) 0, .barv h0 2 (some 3)), (plain 0x341 0 0 (bR 2) 0, .barv h0 2 none),
    (plain 0x342 0 0 (bR 2) (immB 7), .barw h0 2 (.imm 7) none), (plain 0x343 1 (sR 3) (bR 2) 0, .bars h0 2 (some 3)),
    (plain 0x344 0 0 (bR 8) (immB (8 + 16 * 4095 + 65536 * 1)), .spli h0 8 8 4095 1), (plain 0x345 (1 + 2) (sR 3) (bR 2) (sR 4), .splwFull h0 2 (.reg (.s 4)) (some 3)),
    (plain 0x345 0 0 (bR 2) (immB 3), .splwEmpty h0 2 (.imm 3) none), (plain 0x346 0 0 (bR 2) (immB 3), .spld h0 2 (.imm 3)),
    (plain 0x380 0x05C 4 0 0, .rdsr h0 0x5C (.v 4)), (plain 0x381 0x030 0 0 (sR 4), .wrsr h0 0x30 (.reg (.s 4))),
    (plain 0x382 0 0 0 (immB 0xFFFF), .slate h0 0xFFFF), (plain 0x383 0 (sR 1) 0 0, .erriCnt h0 1), (plain 0x383 1 (sR 8) 0 (immB 255), .erriRd h0 8 255),
    (plain 0x383 2 0 0 0, .erriPop h0), (plain 0x384 0 (sR 6) 0 0, .takeSig h0 6), (plain 0x384 1 0 0 0, .takeCmt h0),
    (plain 0x3FF 0 0 0 0, .extensionOperation (plain 0x3FF 0 0 0 0)), (0, .invalidEncoding 0)] = true := by decide

/-- Encodings that R154, R155, R157, R165, R169 and the tables reserve are no instructions. -/
theorem test_decode_reserved : ([plain 0x040 8 1 2 3, plain 0x040 0 0x100 2 3, plain 0x040 0 1 0xC00 3, plain 0x040 0 1 2 (3 * 2 ^ 36),
    plain 0x040 0 1 2 (0x1000 + 3), plain 0x040 0 1 2 (immB 0 + 2 ^ 32), plain 0x041 (512 + 8) 1 3 4, plain 0x0C0 (8 * 6) (gR 1) 2 3,
    plain 0x00A 0 0 0 (immB 1), plain 0x00A 0 0 0 (immB 0x1900), plain 0x002 0 0 0 (immB 2), plain 0x000 0 0 0 0, plain 0x010 0 0 0 0,
    word 0x001 0 0x1F 0 0 0 0 0 0, word 0x001 0 15 0 7 0 0 0 0, word 0x001 0 8 0 0 0 0 0 0, word 0x00A 0 0 0 0 0 0 0 (immB 0), plain 0x200 3 8 6 (immB 0),
    plain 0x202 (8 * 7) 8 6 9, plain 0x280 (16 * 7) 8 6 9, plain 0x280 (5 + 16 * 3) 8 6 9, plain 0x2C1 (4 + 8) (sR 5) 0 (immB (2 + 256)),
    plain 0x306 7 0 0 (immB 1), plain 0x344 0 0 (bR 8) (immB (9 + 16 + 65536)), plain 0x380 6 4 0 0].all fun w => decide (decode w = .invalidEncoding w)) = true := by
  decide

/-! ### Ill-formed terms that the checks refuse (R148 to R169, R198, R221, R254, R288) -/

theorem test_illformed_integer : ([
    .iadd { h0 with ps := 7 } .s32 false (.v 1) (.v 2) (.reg (.v 3)), .iadd { h0 with gneg := true } .s32 false (.v 1) (.v 2) (.reg (.v 3)),
    .iadd { h0 with gidx := 8 } .s32 false (.v 1) (.v 2) (.reg (.v 3)), .iadd h0 .s32 true (.v 1) (.v 2) (.reg (.v 3)),
    .iadd h0 .s64 false (.v 1) (.v 2) (.reg (.v 4)), .iadd h0 .s64 false (.v 2) (.v 3) (.reg (.v 4)), .iadd h0 .s64 false (.v 2) (.v 4) (.win 0 1),
    .iadd h0 .s32 false (.s 1) (.v 2) (.imm 0), .iadd h0 .s32 false (.s 1) (.s 2) (.reg (.v 0)), .iaddx h0 .s64 (.v 2) 0 (.v 4) (.reg (.v 6)) none,
    .ineg h0 .s32 true (.v 1) (.reg (.v 3)), .iabs h0 .n32 false (.v 1) (.reg (.v 2)), .imulh h0 .s8 (.v 1) (.v 2) (.reg (.v 3)),
    .imad h0 .s32 (.v 1) (.v 2) (.imm 0) (.v 3), .imadw h0 .s32 (.v 1) (.v 2) (.reg (.v 3)) (.v 4), .imadw h0 .s16 (.v 2) (.v 2) (.reg (.v 3)) (.v 4),
    .idiv h0 .s32 (.k 1) (.v 2) (.reg (.v 3)), .irem h0 .s16 (.v 1) (.v 2) (.reg (.v 3)), .idot4 h0 .n8 true (.v 1) (.v 2) (.reg (.v 3)) (.v 4),
    .isad h0 .s64 (.v 2) (.v 2) (.reg (.v 4)) (.v 6), .lea h0 .s16 0 (.v 1) (.v 2) (.reg (.v 3)), .and h0 true (.v 1) (.v 2) (.reg (.v 4)),
    .lop3 h0 false 0 0 (.v 1) (.v 2) (.imm 0) (.v 3), .shl h0 true false (.v 2) (.v 3) (.imm 1), .popc h0 true (.v 1) (.reg (.v 3)), .bfx h0 .s8 (.v 1) (.v 2) (.reg (.v 3)),
    .bfi h0 true (.v 2) (.v 4) (.reg (.v 3)) (.v 5), .icmp h0 .s16 .eq .set 0 (.v 1) (.reg (.v 2)), .icmp h0 .s64 .eq .set 0 (.v 1) (.reg (.v 2)),
    .fcmp h0 .f64 .eq .set 0 (.v 2) (.reg (.v 3)), .gmov h0 true 0 false (.v 2) (.v 4) (.reg (.v 5)), .sel h0 false (.v 1) (.v 2) (.imm 1) (.v 3), .mov h0 true (.v 2) (.reg (.v 3)),
    .rsd h0 false false (.v 1) (.imm 0), .rsd h0 false false (.k 1) (.reg (.v 0)), .rsdp h0 true (.v 1) (.reg (.v 2)), .rsdq h0 true 0 (.reg (.v 3))].all
      fun i : Instr => i.wf = false) = true := by decide

theorem test_illformed_float : ([
    .fadd h0 .f64 ⟨false, false⟩ ⟨false, false⟩ (.v 1) (.v 2) (.reg (.v 4)), .ffma h0 .f32 ⟨false, false⟩ ⟨false, false⟩ ⟨false, false⟩ (.v 1) (.v 2) (.imm 0) (.v 4),
    .qadd4 h0 ⟨false, false, 0⟩ (.v 1) (.v 2) (.reg (.v 3)), .qmax4 h0 false ⟨true, true, 0⟩ (.v 1) (.v 2) (.reg (.v 3)),
    .dot4q h0 ⟨false, false, 1⟩ ⟨false, false, 0⟩ (.v 1) (.v 2) (.reg (.v 3)) (.v 4), .rcp h0 .f32 (.k 1) (.reg (.v 2)), .exp2 h0 .f64 (.v 2) (.reg (.v 4)),
    .cvt h0 .f64 .f32 (.v 1) (.reg (.v 2)), .cvtiToInt h0 .s8 .f32 .rz (.v 1) (.reg (.v 2)), .cvtiToInt h0 .s32 .f32 .rf (.v 1) (.reg (.v 2)),
    .cvtnNarrow h0 (.b8 ⟨false, false, 0⟩) .f32 (.v 1) (.reg (.v 2)), .qnt h0 .s8 none (.v 1) (.v 2) (.imm 0) (.v 3), .qspl h0 .f32 (.v 1) (.reg (.v 2)),
    .qsplRec h0 0 0 (.win 0 0), .pack h0 .b 2 (.v 1) (.v 2) (.reg (.v 3)), .unpk h0 .h 2 false (.v 1) (.reg (.v 2)), .shfl h0 .sel false 7 (.v 1) (.v 2) (.imm 0),
    .shfl h0 .rev false 0 (.v 1) (.v 2) (.imm 0), .shfl h0 .sel false 0 (.k 1) (.v 2) (.imm 0), .vote h0 (.mask (.v 1)) false 0, .lred h0 .f32 .and (.v 1) (.reg (.v 2)),
    .lscn h0 .f64 .add false (.v 1) (.reg (.v 2)), .mtch h0 false (.v 1) (.reg (.v 2)), .rdln h0 true 1 (.v 2) (.imm 0), .wrln h0 false 1 0 (.reg (.v 2))].all
      fun i : Instr => i.wf = false) = true := by decide

theorem test_illformed_memory : ([
    .ld h0 .b128 false false (.v 2) (.v 4) (.imm 0), .ld h0 .s8 true false (.v 2) (.v 4) (.imm 0), .ld h0 .b32 false false (.k 2) (.v 4) (.imm 0),
    .ld h0 .b32 false false (.s 2) (.v 4) (.imm 0), .ld h0 .b32 false false (.s 2) (.s 4) (.reg (.v 1)), .ld h0 .b32 false false (.v 2) (.v 5) (.imm 0),
    .st h0 .b64 false false (.v 1) (.v 4) (.imm 0), .st h0 .n16 true false (.v 1) (.v 4) (.imm 0), .ldc h0 .b64 (.v 1) 0 (.v 2) 0, .pref h0 false (.v 1) (.imm 0),
    .preft h0 false 0 1 (.imm 0), .preft h0 false 0 2 (.win 0 0), .ldfKeep h0 .s16 (.v 1) (.v 2) (.imm 0), .stf h0 .n8 (.v 1) (.v 2) (.imm 0),
    .grnClr h0 0 (.win 0 0), .atom h0 .f32 .and .tg (.v 1) (.v 2) (.reg (.v 3)), .atom h0 .s64 .add .tg (.v 1) (.v 2) (.reg (.v 4)), .red h0 .s32 .add .tg (.v 1) (.reg (.v 3)),
    .cas h0 .f32 .tg (.v 1) (.v 2) (.reg (.v 3)) (.v 4), .cas h0 .s32 .tg (.v 1) (.v 2) (.imm 0) (.v 4), .cass h0 .s64 (.v 2) (.v 3) (.reg (.v 4)) (.v 5),
    .rngs h0 false 0 1 2].all fun i : Instr => i.wf = false) = true := by decide

theorem test_illformed_system : ([
    .bra h0 2, .brx h0 (.k 2), .brx h0 (.v 1), .call h0 (some (.v 1)) 0, .call h0 (some (.s 2)) 0, .callx h0 none (.v 3), .ret h0 (some (.v 1)), .rcv h0 1,
    .cut h0 (.imm 0x1900), .cut h0 (.reg (.v 0)), .cut { h0 with gidx := 0 } (.imm 0), .cut { h0 with ps := 1 } (.imm 0), .lnch h0 false 0 1,
    .tdw h0 false 4 0, .tdr h0 .dw0 false 1 0 0, .tdr h0 .dw0 true 2 0 0, .tdr h0 .e false 1 0 1, .macq h0 .f32 0 0 (.imm 0x400), .mma h0 false 0 2 0 0,
    .mgng h0 2, .mlda h0 0 1 0, .msta h0 0 1 0 none, .msta h0 0 2 0 (some 0), .mprgRd h0 1, .cpy h0 4, .cpygGather h0 8 (.reg (.v 1)), .cpyx h0 12 0, .cpyrGo h0 0 1,
    .dgrs h0 7 (.imm 0), .dgrs h0 0 (.reg (.v 0)), .bari h0 0 0, .barw h0 0 (.reg (.v 0)) none, .spli h0 0 1 1 1, .spli h0 9 8 1 1, .spli h0 0 2 0 1, .splwFull h0 0 (.reg (.v 0)) none,
    .spld h0 0 (.reg (.v 0)), .rdsr h0 0x006 (.v 0), .rdsr h0 0x020 (.v 1), .rdsr h0 0x000 (.s 0), .wrsr h0 0x020 (.imm 0), .wrsr h0 0x030 (.reg (.s 1)), .erriRd h0 4 0, .takeSig h0 1].all
      fun i : Instr => i.wf = false) = true := by decide

/-! ### One step of an instruction, with results from the manual's examples -/

/-- A workgroup of sixteen threads that stands before its first instruction. -/
def base : State :=
  let s := State.reset.load 0
  { s.updTg ⟨0, 0⟩ (fun g => g.ensureShot.getD g) with cur := some ⟨0, 0⟩ }

/-- The base state with some register words, and some threads in the issue set. -/
def withRegs (set : Nat) (ws : List (RKey × Word)) : State :=
  base.updTg ⟨0, 0⟩ fun g =>
    { ws.foldl (fun g kw => g.setWord kw.1 (.of kw.2)) g with shot := { g.shot with set := BitVec.ofNat 64 set } }

def nextOf (o : Host.Outcome State Fault Refusal) : State :=
  match o with
  | .next t => t
  | _ => base

/-- The thread group after one step of an instruction and the return of its result. -/
def after (i : Instr) (s : State) : Tg :=
  let t := nextOf (exec i s)
  ((nextOf (exec (.variableLatencyResult ⟨0, 0⟩ 0) t)).tg? ⟨0, 0⟩).getD (Tg.fresh loaderSheet 0 0 0 false)

/-- Words that a step leaves in some registers. -/
def leaves (i : Instr) (set : Nat) (ws : List (RKey × Word)) (ks : List RKey) : List CWord := ks.map (after i (withRegs set ws)).word

/-- Words with the codes of their data. -/
def coded (l : List (Word × Code)) : List CWord := l.map fun x => ⟨x.1, x.2⟩

/-- Example 2.2: a carry out, and code 6. Example 10.1: with a carry in. -/
theorem test_iaddx_carry :
    leaves (.iaddx h0 .n32 (.v 1) 2 (.v 3) (.reg (.v 4)) none) 1 [(.v 3 0, 0xFFFFFFF0), (.v 4 0, 0x25)] [.v 1 0, .g 2 0] = coded [(0x15, 6), (1, 1)] ∧
    leaves (.iaddx h0 .n32 (.v 1) 2 (.v 3) (.reg (.v 4)) (some 1)) 1 [(.v 3 0, 0xFFFFFFF0), (.v 4 0, 0x25), (.g 1 0, 1)] [.v 1 0, .g 2 0] =
      coded [(0x16, 7), (1, 1)] := by decide

/-- Example 2.3: a shift that loses bits. -/
theorem test_shl_loses_bits :
    leaves (.shl h0 false false (.v 1) (.v 2) (.imm 5)) 1 [(.v 2 0, 0xC0000003)] [.v 1 0] = coded [(0x60, 6)] := by decide

/-- Example 2.4: AND, OR and XOR. -/
theorem test_logic :
    leaves (.and h0 false (.v 1) (.v 2) (.reg (.v 3))) 1 [(.v 2 0, 0x1234ABCD), (.v 3 0, 0x0F0FF0F0)] [.v 1 0] = coded [(0x0204A0C0, 13)] ∧
    leaves (.or h0 false (.v 1) (.v 2) (.reg (.v 3))) 1 [(.v 2 0, 0x1234ABCD), (.v 3 0, 0x0F0FF0F0)] [.v 1 0] = coded [(0x1F3FFBFD, 13)] ∧
    leaves (.xor h0 false (.v 1) (.v 2) (.reg (.v 3))) 1 [(.v 2 0, 0x1234ABCD), (.v 3 0, 0x0F0FF0F0)] [.v 1 0] = coded [(0x1D3B5B3D, 0)] := by decide

/-- Example 2.4: an AND output with bit 8 stuck in thread 5 traps with CAUSE 0x02, POINT 1, STAGE 3, and thread 5's mask. -/
theorem test_logic_check_fails :
    let s := { withRegs 0xFFFF ((List.range 16).flatMap fun l => [(.v 2 l, 0x1234ABCD#32), (.v 3 l, 0x0F0FF0F0#32)]) with
      strikes := [.result ⟨0, 0⟩ 5 0 0x100#32] }
    let g := after (.and h0 false (.v 1) (.v 2) (.reg (.v 3))) s
    (g.tcause, g.tmask, g.super, g.word (.v 1 0)) = (0x021000C0#32, 0x20#64, true, .zero) := by decide

/-- Example 10.2: the signed overflow of IDIV; R206: division by zero. -/
theorem test_idiv :
    leaves (.idiv h0 .s32 (.v 1) (.v 2) (.reg (.v 3))) 1 [(.v 2 0, 0x80000000), (.v 3 0, 0xFFFFFFFF)] [.v 1 0] = coded [(0x80000000, 8)] ∧
    leaves (.idiv h0 .s32 (.v 1) (.v 2) (.reg (.v 3))) 1 [(.v 2 0, 7)] [.v 1 0] = coded [(0xFFFFFFFF, 0)] ∧
    leaves (.irem h0 .s32 (.v 1) (.v 2) (.reg (.v 3))) 1 [(.v 2 0, 0xFFFFFFF9), (.v 3 0, 2)] [.v 1 0] = coded [(0xFFFFFFFF, 0)] := by decide

/-- Example 10.3: PERMB. -/
theorem test_permb :
    leaves (.permb h0 (.v 1) (.v 2) (.reg (.v 3)) (.v 4)) 1 [(.v 2 0, 0x11223344), (.v 3 0, 0xA0B0C0D0), (.v 4 0, 0xE47)] [.v 1 0] =
      [.of 0x44FFD0A0] := by decide

/-- R211: the majority of three bits; R212: a count of 32; R215: a signed field. -/
theorem test_lop3_majority :
    leaves (.lop3 h0 false 0x8 0xE (.v 1) (.v 2) (.reg (.v 3)) (.v 4)) 1 [(.v 2 0, 0xC), (.v 3 0, 0xA), (.v 4 0, 0x9)] [.v 1 0] = [.of 0x8] := by decide
theorem test_sar_full :
    leaves (.sar h0 false false (.v 1) (.v 2) (.imm 32)) 1 [(.v 2 0, 0x80000000)] [.v 1 0] = [.of 0xFFFFFFFF] ∧
    leaves (.shl h0 false true (.v 1) (.v 2) (.imm 32)) 1 [(.v 2 0, 7)] [.v 1 0] = [.of 7] := by decide
theorem test_bfx_signed :
    leaves (.bfx h0 .s32 (.v 1) (.v 2) (.imm 0x0404)) 1 [(.v 2 0, 0x12345F84)] [.v 1 0] = [.of 0xFFFFFFF8] := by decide

/-- R200: `.sat` clamps each byte when SAT of the INT class is 1. -/
theorem test_iadd_sat :
    let s := (withRegs 1 [(.v 2 0, 0x7F80FF01), (.v 3 0, 0x01FF0102)]).updTg ⟨0, 0⟩ fun g => { g with fmode := 0x8000000 }
    (after (.iadd h0 .s8 true (.v 1) (.v 2) (.reg (.v 3))) s).word (.v 1 0) = .of 0x7F800003 := by decide

/-- Example 11.1: HADD2. Example 9.3: QADD4 in `.q4si`. -/
theorem test_hadd2 :
    leaves (.hadd2 h0 false false false (.v 1) (.v 2) (.reg (.v 3))) 1 [(.v 2 0, 0x7E017BFF), (.v 3 0, 0x3C007BFF)] [.v 1 0] = [.of 0x7E007C00] := by decide
theorem test_qadd4 :
    leaves (.qadd4 h0 ⟨false, false, 4⟩ (.v 1) (.v 2) (.reg (.v 3))) 1 [(.v 2 0, 0x40388077), (.v 3 0, 0x08B81077)] [.v 1 0] = coded [(0x4000807F, 4)] := by
  decide

/-- Example 9.1: 0.4375 and 61/128 in BG4. -/
theorem test_cvtn_bg4 :
    leaves (.cvtnNarrow h0 .bg4 .f32 (.v 1) (.reg (.v 2))) 1 [(.v 2 0, 0x3EE00000)] [.v 1 0] = [.of 4] ∧
    leaves (.cvtnNarrow h0 .bg4 .f32 (.v 1) (.reg (.v 2))) 1 [(.v 2 0, 0xBEE00000)] [.v 1 0] = [.of 12] ∧
    leaves (.cvtnNarrow h0 .bg4 .f32 (.v 1) (.reg (.v 2))) 1 [(.v 2 0, 0x3EF40000)] [.v 1 0] = [.of 4] := by decide

/-- Example 9.2: the scale of a channel whose largest magnitude is 3.5 for `.q4sf`, and its SEXP. -/
theorem test_qscl :
    leaves (.qscl h0 (.b8 ⟨false, true, 4⟩) false (.v 1) (.reg (.v 2))) 7 [(.v 2 0, 0x3F800000), (.v 2 1, 0xC0600000)] [.v 1 0] = [.of 0x3C6EEEEF] ∧
    leaves (.qscl h0 (.b8 ⟨false, true, 4⟩) true (.v 1) (.reg (.v 2))) 7 [(.v 2 0, 0x3F800000), (.v 2 1, 0xC0600000)] [.v 1 2] = [.of 0xFFFFFFFA] := by
  decide

/-- Example 11.2: an inclusive and an exclusive scan, and a reduction, each rounded once. -/
theorem test_lscn :
    leaves (.lscn h0 .f32 .add false (.v 6) (.reg (.v 5))) 7 [(.v 5 0, 0x4B800000), (.v 5 1, 0x3F800000), (.v 5 2, 0x3F800000)] [.v 6 0, .v 6 1, .v 6 2] =
      coded [(0x4B800000, 8), (0x4B800000, 8), (0x4B800001, 9)] ∧
    leaves (.lscn h0 .f32 .add true (.v 6) (.reg (.v 5))) 7 [(.v 5 0, 0x4B800000), (.v 5 1, 0x3F800000), (.v 5 2, 0x3F800000)] [.v 6 0, .v 6 1, .v 6 2] =
      coded [(0, 0), (0x4B800000, 8), (0x4B800000, 8)] := by decide
theorem test_lred :
    leaves (.lred h0 .f32 .add (.v 6) (.reg (.v 5))) 7 [(.v 5 0, 0x4B800000), (.v 5 1, 0x3F800000), (.v 5 2, 0x3F800000)] [.v 6 0, .v 6 2, .v 6 3] =
      coded [(0x4B800001, 9), (0x4B800001, 9), (0, 0)] := by decide

/-- R39: RSD of a Poison word is 15; RSDP keeps the data and makes the word Poison. -/
theorem test_rsd :
    let s := (withRegs 1 []).updTg ⟨0, 0⟩ fun g => g.setWord (.v 12 0) (.poisoned 0x2A)
    (after (.rsd h0 false false (.v 7) (.reg (.v 12))) s).word (.v 7 0) = .of 15 ∧
      (after (.rsdp h0 false (.v 7) (.imm 5)) s).word (.v 7 0) = .poisoned 5 := by decide

/-- R219: GSET of two guards; R218: a signed comparison. -/
theorem test_guards :
    leaves (.gset h0 6 1 2 3) 3 [(.g 2 0, 1), (.g 2 1, 1), (.g 3 1, 1)] [.g 1 0, .g 1 1] = [.of 1, .of 0] ∧
    leaves (.icmp h0 .s32 .lt .set 1 (.v 2) (.imm 0)) 1 [(.v 2 0, 0x80000000)] [.g 1 0] = [.of 1] ∧
    leaves (.icmp h0 .n32 .lt .set 1 (.v 2) (.imm 0)) 1 [(.v 2 0, 0x80000000)] [.g 1 0] = [.of 0] := by decide

/-- R249: a rotation within segments of four; R250: a vote mask. -/
theorem test_lanes :
    leaves (.shfl h0 .rot false 2 (.v 1) (.v 2) (.imm 1)) 0xF [(.v 2 0, 10), (.v 2 1, 11), (.v 2 2, 12), (.v 2 3, 13)] [.v 1 0, .v 1 3] = [.of 11, .of 10] ∧
    leaves (.vote h0 (.mask (.s 4)) true 0) 0xF [(.g 0 1, 1)] [.s 4, .s 5] = [.of 0xD, .of 0] := by decide

/-! ### Memory, control, traps: one step in a launch of two workgroups on two cores of a cluster -/

/-- Two workgroups of two thread groups of sixteen threads, one cluster-level unit, 64 KiB of scratchpad each. -/
def boxSheet : Sheet :=
  { loaderSheet with
    levels := [⟨16, 1, 1, 0, 0⟩, ⟨2, 1, 1, 1, 0⟩, ⟨2, 1, 1, 2, 2⟩, ⟨1, 1, 1, 3, 3⟩]
    accp := 2, spad := 65536, windows := (0x20E00, 64) :: List.replicate 7 (0, 0) }

/-- Workgroup `rank` of the launch, running on the core of its number. -/
def boxWg (rank : Nat) : Wg :=
  let w := Wg.fresh boxSheet 0 0 rank 0 rank 0 0 [0, 1] [0, 1] false
  { w with phase := .running, tgs := w.tgs.map fun g => { g with active := true } }

def at0 : TgRef := ⟨0, 0⟩

/-- Thread group 0 of workgroup 0 issues; its core holds the translation of its page and the words of window 0. -/
def box : State :=
  let s := State.reset
  let s1 : State := { s with cs := { s.cs with tlb := [⟨0, 0, 32, 0x2001F, 0⟩, ⟨384, 0, 32, 0x2001F, 0⟩]
                                               cc := [⟨0, 0, 0x20E00, .of 0x55⟩, ⟨0, 0, 0x20E04, .of 0x66⟩, ⟨0, 0, 0x20E08, .of 0x77⟩] }
                             contexts := [(0, ⟨0x10000, 0, 0, false, 0, 0, [], ⟨[], false⟩⟩)]
                             launches := [(0, ⟨boxSheet, 0, 0, true, 0, none, [], 1, 0#8, 0, [], 384, 768⟩)]
                             wgs := [(0, boxWg 0), (1, boxWg 1)] }
  { s1.updTg at0 (fun g => g.ensureShot.getD g) with cur := some at0 }

/-- The box with register words, and some threads in the issue set. -/
def boxWith (set : Nat) (ws : List (RKey × Word)) : State :=
  box.updTg at0 fun g =>
    { ws.foldl (fun g kw => g.setWord kw.1 (.of kw.2)) g with shot := { g.shot with set := BitVec.ofNat 64 set } }

def tgOf (s : State) : Tg := (s.tg? at0).getD (Tg.fresh boxSheet 0 0 0 false)
def wgOf (s : State) : Wg := (s.wg? 0).getD (boxWg 0)

/-- Example 13.1: four atomic additions in one issue, three at one offset. -/
theorem test_atoms :
    let s := (boxWith 0xF [(.v 3 0, 0x100), (.v 3 1, 0x100), (.v 3 2, 0x100), (.v 3 3, 0x204), (.v 4 0, 5), (.v 4 1, 7), (.v 4 2, 0xFFFFFFFF), (.v 4 3, 1)]).updWg 0
      fun w => { w with spad := [(0x40, .of 0x7FFFFFFE), (0x81, .of 0x10)] }
    let t := nextOf (exec (.atoms h0 .s32 .add (.v 2) (.v 3) (.reg (.v 4))) s)
    let u := nextOf (exec (.variableLatencyResult at0 0) t)
    (lookD .zero (wgOf t).spad 0x40, lookD .zero (wgOf t).spad 0x81) = (⟨0x80000009, 2⟩, ⟨0x11, 2⟩) ∧
      [(tgOf u).word (.v 2 0), (tgOf u).word (.v 2 1), (tgOf u).word (.v 2 2), (tgOf u).word (.v 2 3)] =
        [.of 0x7FFFFFFE, .of 0x80000003, .of 0x8000000A, .of 0x10] := by decide +kernel

/-- R290, R298: two threads store bytes to one word, and a load sign-extends. -/
theorem test_sts_lds :
    let s := boxWith 3 [(.v 3 0, 0x10), (.v 3 1, 0x11), (.v 4 0, 0x1234), (.v 4 1, 0x80)]
    let t := nextOf (exec (.sts h0 .n8 (.v 4) (.v 3) (.imm 0)) s)
    let u := nextOf (exec (.variableLatencyResult at0 1) (nextOf (exec (.lds h0 .s16 (.v 5) (.v 3) (.imm 0)) (t.updTg at0 fun g => { g with shot := { g.shot with set := 1 } }))))
    lookD .zero (wgOf t).spad 4 = .of 0x8034 ∧ (tgOf u).word (.v 5 0) = .of 0xFFFF8034 := by decide +kernel

/-- R292: a store to main memory stands in the core's L1, and a load of the thread group returns it. -/
theorem test_st_ld :
    let s := boxWith 1 [(.v 6 0, 0x20040), (.v 8 0, 0xAABBCCDD), (.v 9 0, 0x11223344)]
    let t := nextOf (exec (.st h0 .b64 false false (.v 8) (.v 6) (.imm 8)) s)
    let u := nextOf (exec (.variableLatencyResult at0 1) (nextOf (exec (.ld h0 .b64 false false (.v 10) (.v 6) (.imm 8)) t)))
    (t.mm.bytes = s.mm.bytes ∧ l1Byte t 0 0x20048 = some 0xDD) ∧ (tgOf u).word (.v 10 0) = .of 0xAABBCCDD ∧ (tgOf u).word (.v 11 0) = .of 0x11223344 := by
  decide +kernel

/-- R297, R324: a `.mis` access across a line is two pieces. R420, Example 18.1: the lowest thread's fault gives the cause. -/
theorem test_mis_and_align :
    (let t := nextOf (exec (.ld h0 .b32 true false (.v 10) (.v 6) (.imm 0)) (boxWith 1 [(.v 6 0, 0x2007E)]))
     (tgOf t).ops.map fun o => o.accs.map fun a => (a.va, a.pa)) = [[(0x2007E, 0x2007C), (0x20080, 0x20080)]] ∧
    (let t := nextOf (exec (.ld h0 .b32 false false (.v 4) (.v 6) (.imm 0x40)) (boxWith 0xFF [(.v 6 0, 0x20000), (.v 6 1, 0x20000), (.v 6 2, 0x1FFC2)]))
     ((tgOf t).tcause, (tgOf t).tmask, (tgOf t).super)) = (0x12000800#32, 4#64, true) := by decide +kernel

/-- R302: a constant load, and its bounds; R156: a window operand. -/
theorem test_window :
    (let t := nextOf (exec (.ldc h0 .b32 (.v 1) 0 (.v 2) 4) (boxWith 1 [(.v 2 0, 4)]))
     (tgOf (nextOf (exec (.variableLatencyResult at0 0) t))).word (.v 1 0)) = .of 0x77 ∧
    (tgOf (nextOf (exec (.mov h0 false (.v 1) (.win 0 1)) (boxWith 1 [])))).word (.v 1 0) = .of 0x66 ∧
    (tgOf (nextOf (exec (.mov h0 false (.v 1) (.win 0 16)) (boxWith 3 [])))).tcause = 0x14000000#32 := by decide +kernel

/-- R110, R307, R309: granules are counted, emptied, and a held load takes them. -/
theorem test_granules :
    let s := (boxWith 1 [(.s 3, 0x20), (.v 3 0, 0x20)]).updWg 0 fun w => w.setGranules true [2, 3]
    (tgOf (nextOf (exec (.variableLatencyResult at0 0) (nextOf (exec (.grnQry h0 9 3 (.imm 48)) s))))).word (.s 9) = .of 2 ∧
      (let t := nextOf (exec (.ldfReadPerform at0) (nextOf (exec (.ldfTake h0 .b32 (.v 5) (.v 3) (.imm 0)) s)))
       (lookD false (wgOf t).gran 2, lookD false (wgOf t).gran 3)) = (false, true) := by decide +kernel

/-- Example 15.1: the links that `call.sv` saves and sets. -/
theorem test_call :
    let s := (boxWith 3 []).updTg at0 fun g =>
      { g.mapThreads 3 (fun _ t => { t with pc := 0x10000200, linkLo := .of 0xABC }) with nextCut := true, shot := { g.shot with pc := 0x10000200 } }
    let g := tgOf (nextOf (exec (.call { h0 with gidx := 0, gneg := true } (some (.v 20)) 0x600) (s.updTg at0 fun g => g.setWord (.g 0 1) (.of 1))))
    g.word (.v 20 0) = .of 0xABC ∧ g.word (.v 20 1) = .zero ∧
      (g.threads.take 2).map (fun t => (t.linkLo, t.linkHi, t.next)) =
        [(⟨0x10000218, 12⟩, .zero, some 0x10000800#57), (.of 0xABC, .zero, some 0x10000218#57)] := by decide +kernel

/-- R164, R163: a transfer without a `CUT` after it, and a 24th instruction that is none, are illegal. -/
theorem test_shot_rules :
    (tgOf (nextOf (exec (.bra h0 0x18) (boxWith 1 [])))).tcause = 0x01000000#32 ∧
    (tgOf (nextOf (exec (.nop h0) ((boxWith 1 []).updTg at0 fun g => { g with shot := { g.shot with count := 23 } })))).tcause = 0x01000000#32 := by decide +kernel

/-- R29, Table 2.6: a Poison address of thread 3 is consumed; field A. -/
theorem test_poison_trap :
    let s := (boxWith 0xF []).updTg at0 fun g => g.setWord (.v 7 3) (.poisoned 0)
    let g := tgOf (nextOf (exec (.ld h0 .b32 false false (.v 4) (.v 6) (.imm 0)) s))
    (g.tcause, g.tmask) = (0x03008000#32, 8#64) := by decide +kernel

/-- R166, R353, R425, R426: `TRAP`, its handler's `TRET`, and the replay. -/
theorem test_trap_return :
    let t := nextOf (exec (.trap h0 7) (boxWith 3 []))
    let g := tgOf t
    (g.super, g.tcause, g.tpc, (g.threads.map (·.pc)).take 3, (g.threads.map (·.status)).take 3) =
        (true, 0x08000007#32, 0x20000#64, [0x20F00#57, 0x20F00#57, 0x20000#57], [.ready, .ready, .held]) ∧
      ((g.trapReturn.threads.map (·.pc)).take 3, (g.trapReturn.threads.map (·.status)).take 3, g.trapReturn.super) =
        ([0x20000#57, 0x20000#57, 0x20000#57], [.ready, .ready, .ready], false) := by decide +kernel

/-- R170: an operation of group 0xF leaves its word and operands for the handler. -/
theorem test_emulation :
    let x := plain 0x3C1 0 5 6 (withC 8 7)
    let g := tgOf (nextOf (exec (.extensionOperation x) (boxWith 2 [(.v 6 1, 0x60), (.v 7 1, 0x70), (.v 8 1, 0x80)])))
    (g.tcause, g.tinst, g.tmask) = (0x04000000#32, x, 2#64) ∧
      [lookD .zero g.tops 1, lookD .zero g.tops 65, lookD .zero g.tops 129, lookD .zero g.tops 0] = [.of 0x60, .of 0x70, .of 0x80, .zero] := by decide +kernel

/-- R348: `RCV` pushes a frame; R361: an arrival of a barrier with E 1. -/
theorem test_rcv_barv :
    (tgOf (nextOf (exec (.rcv h0 0x54) (boxWith 3 [])))).stack = [⟨0x20054, 3⟩] ∧
    (let t := nextOf (exec (.barv h0 2 (some 4)) ((boxWith 1 []).updWg 0 fun w => { w with barriers := updAt w.barriers 2 fun b => { b with e := 1, ph := 6 } }))
     (((wgOf t).barriers[2]?).map (·.ph), (tgOf t).word (.s 4))) = (some 7#32, .of 6) := by decide +kernel

/-- R150 to R152: `sr.lane` and `sr.tg`; R369: `sr.fmode` refuses RND 5. -/
theorem test_special :
    (tgOf (nextOf (exec (.variableLatencyResult at0 0) (nextOf (exec (.rdsr h0 0 (.v 1)) (boxWith 0xFF [])))))).word (.v 1 7) = .of 7 ∧
    (tgOf (nextOf (exec (.wrsr h0 0x30 (.imm 0x4321)) (boxWith 1 [])))).fmode = 0x4321 ∧
    (tgOf (nextOf (exec (.wrsr h0 0x30 (.imm 5)) (boxWith 1 [])))).tcause = 0x01000000#32 := by decide +kernel

/-- R371, R372: the count of a log of two records, and its removal. -/
theorem test_erri :
    let s := appendRecord (appendRecord ((boxWith 1 []).updTg at0 fun g => { g with super := true }) 0 0x40 0 0 0 7 0) 0 0x01 3 0x200 0x10 0 0
    (tgOf (nextOf (exec (.variableLatencyResult at0 0) (nextOf (exec (.erriCnt h0 1) s))))).word (.s 1) = .of 2 ∧
      ((nextOf (exec (.erriPop h0) s)).logs.map (·.recs.length)) = [1, 0, 0, 0, 0, 0, 0, 0] ∧
      (s.logs.headD ⟨[], 0⟩).recs.map (fun r => r.dw0.toNat / 2 ^ 32) = [0x40000000, 0x01003200] := by decide +kernel

/-! ### Main memory, coded regions, engines -/

/-- Example 3.1: the home of an address, before and after die 2 of stack 4 is mapped out. -/
theorem test_home :
    let s := State.reset
    let t := { s with mm := { s.mm with segLive := s.mm.segLive.set 2 0xFEF } }
    (stackOf s 0x1E00043040, homeDie s 0x1E00043040, populated s 0x23FFFFFFFF) = (7, 3, true) ∧
      (stackOf t 0x1E00043040, homeDie t 0x1E00043040, populated t 0x2300000000, populated t 0x22FFFFFFFF) = (8, 4, false, true) := by decide +kernel

/-- Bits of some bytes, the first bit at bit 0 of the first byte (R64). -/
def bitsOfBytes (l : List Nat) : List Bool := l.flatMap fun b => (List.range 8).map fun i => b.testBit i

/-- Example 4.1: the code of a block of fifteen 4.0 and one 5.25, and what it decodes to (Table 4.8). -/
theorem test_codec :
    let code := bitsOfBytes [0x03, 0xC8, 0x20, 0x00, 0x10, 0x01, 0x34, 0x98, 0xF2, 0xC1, 0x7E, 0x39, 0x18, 0x10, 0x00, 0x00]
    encodeBlock true 128 (List.replicate 15 0x4010000000000000 ++ [0x4015000000000000]) = (code, 0) ∧
      decodeBlock true code = some [0x4010010000000000, 0x4010010000000000, 0x4010020000000000, 0x4010040000000000, 0x4010010000000000,
        0x4010010000000000, 0x4010020000000000, 0x4010040000000000, 0x4010020000000000, 0x4010020000000000, 0x4010040000000000, 0x4010080000000000,
        0x4010040000000000, 0x4010040000000000, 0x4010080000000000, 0x4015100000000000] := by decide +kernel

/-- Example 7.2: the stream, and the ways in which it fails. -/
theorem test_decompress :
    let bs (l : List Nat) : List (Byte × Bool) := l.map fun b => (BitVec.ofNat 8 b, false)
    let stream := [0x02, 0x41, 0x42, 0x43, 0x58, 0x01, 0x00, 0x2D, 0x48, 0x00, 0xC0]
    let ok (o : Except Nat (List Byte)) (l : List Byte) : Bool := match o with | .ok x => x == l | .error _ => false
    let fails (o : Except Nat (List Byte)) (c : Nat) : Bool := match o with | .ok _ => false | .error x => x == c
    ok (decompress 14 (bs stream)) [0x41, 0x42, 0x43, 0x42, 0x43, 0x42, 0x43, 0x42, 0x43, 0x2D, 0x2D, 0x2D, 0x2D, 0x2D] = true ∧
      fails (decompress 13 (bs stream)) 0x09 = true ∧ fails (decompress 14 (bs (stream.take 10))) 0x08 = true ∧
      fails (decompress 14 (bs (stream ++ [0]))) 0x08 = true ∧ fails (decompress 14 (bs (stream.set 5 0x05))) 0x08 = true := by decide +kernel

/-- R22: a partial store over a word, over Poison, and over a word whose code does not agree with it. -/
theorem test_merge :
    mergeWord (.of 0x11223344) (.of 0xAB00) 2 = .of 0x1122AB44 ∧ (mergeWord (.poisoned 0x11223344) (.of 0xAB00) 2).bad = true ∧
      mergeFails ⟨0x11223344, 6⟩ (.of 0xAB00) 2 = true := by decide +kernel

/-- log 5: the first step after reset runs the word that is placed. -/
theorem test_first_step :
    ((tgOf (nextOf (step (State.reset.withFetchWord 96 (plain 0x040 0 1 2 (immB 7)).toNat)))).word (.v 1 15) = .of 7) := by decide +kernel

/-! ### Witnesses: states and operands that meet the hypotheses of the statements -/

/-- The environment of an issue in a state. -/
def envAt (s : State) (h : Hints) : Env :=
  (env? s h).getD ⟨at0, boxWg 0, Tg.fresh boxSheet 0 0 0 false, boxSheet, 0#64, [], 0#57, 0, 0, 0, 0⟩

/-- `Readable`, decided for an operand that is no window word. -/
def readable? (s : State) (e : Env) (ls : List Nat) (x : Src) : Bool :=
  (ls.all fun l => (x.keys l).all fun k => !e.g.readsEarly k && (x.raw || (e.g.word k).passes)) &&
    (match x.opd with | .win _ _ => false | _ => true) &&
    (!x.consume || (if x.first then e.part.take 1 else ls).all fun l => !anyBad (given s e x l))

/-- `Ready`, decided in a state without upsets. -/
def ready? (s : State) (p : Plan) : Bool :=
  let e := envAt s p.h
  (env? s p.h).isSome && !e.g.cancel && !p.illegal e && p.role e.g.role && !e.part.isEmpty &&
    (p.srcs.all fun x => readable? s e (lanesRead e p x) x) &&
    (p.guards.all fun i => e.part.all fun l => !e.g.readsEarly (.g i.toNat l)) &&
    (!decide (p.h.gidx.toNat < 8) || (members e.set).all fun l => !e.g.readsEarly (.g p.h.gidx.toNat l)) &&
    (!p.link || e.part.all fun l => (linkOf e l).all fun w => w.passes && !w.bad) && s.strikes.isEmpty

theorem readable_of (s : State) (e : Env) (ls : List Nat) (x : Src) (h : readable? s e ls x = true) : Readable s e ls x := by
  simp only [readable?, Bool.and_eq_true, List.all_eq_true, Bool.or_eq_true, Bool.not_eq_true'] at h
  obtain ⟨⟨h1, h2⟩, h3⟩ := h
  refine ⟨fun l hl k hk => ⟨(h1 l hl k hk).1, fun hr => ?_⟩, fun n off hx => ?_, fun hc l hl => ?_⟩
  · simpa [hr] using (h1 l hl k hk).2
  · simp [hx] at h2
  · rcases h3 with h3 | h3
    · simp [hc] at h3
    · exact h3 l hl

theorem ready_of (s : State) (p : Plan) (h : ready? s p = true) : Ready s (envAt s p.h) p := by
  simp only [ready?, Bool.and_eq_true, List.all_eq_true, Bool.or_eq_true, Bool.not_eq_true', List.isEmpty_iff] at h
  obtain ⟨⟨⟨⟨⟨⟨⟨⟨⟨h1, h2⟩, h3⟩, h4⟩, h5⟩, h6⟩, h7⟩, h8⟩, h10⟩, h9⟩ := h
  refine ⟨?_, h2, h3, h4, ?_, fun x hx => readable_of _ _ _ _ (h6 x hx), h7, fun hg => ?_, fun hl l hp w hw => ?_, ?_⟩
  · obtain ⟨e, he⟩ := Option.isSome_iff_exists.mp h1
    simp [envAt, he]
  · intro hp
    simp [hp] at h5
  · rcases h8 with h8 | h8
    · simp [hg] at h8
    · exact h8
  · rcases h10 with h10 | h10
    · simp [hl] at h10
    · exact h10 l hp w hw
  · simp [h9]

/-- Plans that are ready in one state. -/
theorem ready_all (s : State) (ps : List Plan) (h : ps.all (ready? s) = true) : ∀ p ∈ ps, Ready s (envAt s p.h) p :=
  fun p hp => ready_of s p (List.all_eq_true.mp h p hp)

/-- The witness state of the register instructions: four threads in the issue set, registers to the highest number. -/
def regs4 : State := withRegs 0xF [(.v 255 1, 0x80000000), (.v 4 1, 0xFFFFFFFF), (.v 6 0, 7), (.s 1022, 5)]

theorem witness_IntegerResults :
    ∀ p ∈ ([regPlan h0 (.v 255) 1 (intAB .s32 (.v 4) (.reg (.v 255))), regPlan h0 (.v 254) 2 (intAB .n64 (.s 1022) (.imm 0xFFFFFFFF)),
        regPlan h0 (.v 0) 1 [intB .s8 (.reg (.v 255))], regPlan h0 (.v 254) 2 [srcA (.v 4) 1, srcB (.imm 1) 1, srcC (.v 254) 2],
        regPlan h0 (.k 7) 1 [srcA (.v 4) 1, intB .s32 (.reg (.v 255))],
        { regPlan h0 (.v 1) 1 ((intAB .n32 (.v 3) (.reg (.v 4))).map Src.consumed) with guards := [1], alu := false },
        regPlan h0 (.v 254) 2 (intAB .s64 (.v 4) (.reg (.v 254)))] : List Plan), Ready regs4 (envAt regs4 p.h) p :=
  ready_all _ _ (by decide +kernel)

theorem witness_LogicResults :
    ∀ p ∈ ([regPlan h0 (.v 255) 1 [srcA (.v 4) 1, srcB (.reg (.v 255)) 1], regPlan h0 (.v 254) 2 [srcA (.v 254) 2, srcB (.imm 1) 2],
        regPlan h0 (.s 1022) 2 [srcA (.s 1022) 2, srcB (.imm 64) 1], regPlan h0 (.k 7) 1 [srcA (.v 4) 1, srcB (.imm 3) 1, srcC (.v 6) 1],
        regPlan h0 (.v 1) 1 [srcB (.reg (.v 254)) 2]] : List Plan), Ready regs4 (envAt regs4 p.h) p :=
  ready_all _ _ (by decide +kernel)

theorem witness_Moves :
    ∀ p ∈ ([regPlan h0 (.v 255) 1 [srcB (.imm 0) 1], regPlan h0 (.v 254) 2 [srcA (.v 254) 2, srcB (.reg (.v 4)) 2, srcC (.v 6) 1],
        { regPlan h0 (.v 1) 1 [srcA (.v 4) 1, srcB (.imm 3) 1] with guards := [7], alu := false },
        { regPlan h0 (.v 1) 1 [{ srcB (.reg (.v 255)) 1 with raw := false }] with super := false }] : List Plan), Ready regs4 (envAt regs4 p.h) p :=
  ready_all _ _ (by decide +kernel)

def rawWord : State := regs4.updTg at0 fun g => { g.setWord (.v 9 0) ⟨1, 2⟩ with super := true }

/-- A raw read of residues, in supervisor mode, of a word whose code does not agree with it. -/
theorem witness_Moves_raw :
    Ready rawWord (envAt rawWord h0) { regPlan h0 (.v 1) 1 [{ srcB (.reg (.v 9)) 1 with raw := true }] with super := true } :=
  ready_of rawWord { regPlan h0 (.v 1) 1 [{ srcB (.reg (.v 9)) 1 with raw := true }] with super := true } (by decide +kernel)

theorem witness_GuardResults :
    ∀ p ∈ ([guardPlan h0 ((intAB .s64 (.v 254) (.reg (.v 4))).map Src.consumed) (combGuards .set 7),
        guardPlan h0 ((floatAB .f16 (.v 255) (.imm 0x7E00)).map Src.consumed) (combGuards .conj 0), guardPlan h0 [] [0, 7],
        guardPlan h0 [(srcB (.imm 0) 1).consumed] [], guardPlan h0 [srcB (.reg (.v 254)) 2] []] : List Plan), Ready regs4 (envAt regs4 p.h) p :=
  ready_all _ _ (by decide +kernel)

theorem witness_FloatResults :
    ∀ p ∈ ([regPlan h0 (.v 254) 2 (floatAB .f64 (.v 254) (.imm 0x3FF00000)), regPlan h0 (.v 1) 1 (floatAB .bf16 (.v 4) (.reg (.v 6)) ++ [srcC (.v 255) 1]),
        regPlan h0 (.v 1) 1 [srcA (.v 4) 1, srcB (.imm 0x80000000) 1], regPlan h0 (.v 254) 2 [floatB .f64 (.reg (.v 254))],
        regPlan h0 (.s 1023) 1 [floatB .f32 (.imm 0x7F800000)]] : List Plan), Ready regs4 (envAt regs4 p.h) p :=
  ready_all _ _ (by decide +kernel)

/-- The largest finite number and the least positive one of binary16. -/
theorem witness_RoundingIsExact :
    0xFFFF < 2 ^ 16 ∧ 0x7BFF < 2 ^ FloatTy.f16.bits ∧ (Fmt.ieee .f16).val 0x7BFF ≠ .nan ∧ (Fmt.ieee .f16).val 1 ≠ .nan := by decide

theorem witness_PackedResults :
    ∀ p ∈ ([regPlan h0 (.v 255) 1 (words2 (.v 4) (.reg (.v 255))), regPlan h0 (.v 1) 1 (words3 (.v 4) (.imm 0x3C00BC00) (.v 6))] : List Plan),
      Ready regs4 (envAt regs4 p.h) p :=
  ready_all _ _ (by decide +kernel)

theorem witness_SpecialFunctions :
    (∀ p ∈ ([sfPlan h0 (.v 255) 1 [floatB .f32 (.reg (.v 4))], sfPlan h0 (.v 254) 2 [floatB .f64 (.reg (.v 254))],
        sfPlan h0 (.v 1) 1 (floatAB .f16 (.v 4) (.imm 0x3C00))] : List Plan), Ready regs4 (envAt regs4 p.h) p) ∧
      (match sqrtFn (.num false 9 4) with | .num false a b => 2 * a == 3 * b | _ => false) = true :=
  ⟨ready_all _ _ (by decide +kernel), by decide +kernel⟩

theorem witness_Conversions :
    ∀ p ∈ ([sfPlan h0 (.v 254) 2 [floatB .f64 (.reg (.v 254))], sfPlan h0 (.v 1) 1 [intB .s64 (.reg (.v 254))], sfPlan h0 (.v 255) 1 [srcB (.imm 0xFF) 1],
        sfPlan h0 (.v 1) 1 (words2 (.v 4) (.imm 0x3F800000)), sfPlan h0 (.v 2) 2 [srcB (.reg (.v 255)) 1],
        sfPlan h0 (.v 1) 1 (words2 (.v 4) (.reg (.v 6)) ++ [srcD (.v 1) 1])] : List Plan), Ready regs4 (envAt regs4 p.h) p :=
  ready_all _ _ (by decide +kernel)

/-- A matrix of 16 rows and columns of binary16, the base address 0. -/
def tensor16 : Tensor := { Tensor.zero with dw0 := 0x0800000000000000#64, dw1 := 0x8000100001000000#64, dw2 := 0x2000000000#64 }

/-- A valid entry with a full map, and its last channel for a source. -/
theorem witness_Quantise :
    let s := (regs4.updTg at0 fun g => (g.setWord (.s 0) (.of 63)).setWord (.s 1) (.of 15)).updWg 0 fun w =>
      { w with tensors := w.tensors.set 63 { tensor16 with map := List.replicate 64 0 } }
    let p : Plan := { h := h0, srcs := [(srcA (.s 0) 1).consumed, (srcB (.reg (.s 1)) 1).consumed], dst := some (.s 2, 1), unit := 2 }
    Ready regs4 (envAt regs4 h0) (sfPlan h0 (.v 255) 1 [srcA (.v 4) 1, srcB (.imm 0x3F800000) 1, (srcC (.v 6) 1).consumed]) ∧
      Ready s (envAt s h0) p ∧ ((envAt s h0).w.tensors[value s (envAt s h0) p.srcs 0 ((envAt s h0).part.headD 0) % 64]?).isSome = true :=
  ⟨ready_of _ (sfPlan h0 (.v 255) 1 [srcA (.v 4) 1, srcB (.imm 0x3F800000) 1, (srcC (.v 6) 1).consumed]) (by decide +kernel),
    ready_of _ { h := h0, srcs := [(srcA (.s 0) 1).consumed, (srcB (.reg (.s 1)) 1).consumed], dst := some (.s 2, 1), unit := 2 } (by decide +kernel),
    by decide +kernel⟩

theorem witness_CrossLane :
    let lane (xs : List Src) (dst : Option (Reg × Nat)) : Plan := { h := h0, srcs := xs, dst := dst, unit := 3 }
    (∀ p ∈ ([{ lane [srcA (.v 254) 2, (srcB (.imm 15) 1).consumed] (some (.v 254, 2)) with sel := some fun _ t => t / 4 * 4 + 3 },
        { lane [] none with guards := [7] }, { lane [] (some (.v 254, 2)) with guards := [0] }, lane [redB .f64 (.reg (.v 254))] (some (.v 254, 2)),
        lane [srcB (.reg (.v 4)) 1] (some (.v 1, 2)),
        { lane [srcA (.v 4) 1, { (srcB (.imm 15) 1).consumed with first := true }] (some (.s 1023, 1)) with sel := some fun _ _ => 15 },
        lane [(srcA (.s 0) 1).consumed, srcB (.imm 1) 1] (some (.v 255, 1))] : List Plan), Ready regs4 (envAt regs4 p.h) p) ∧
      (envAt regs4 h0).g.threads.length ≤ (envAt regs4 h0).g.width ∧ 2 ^ (4#3).toNat ≤ (envAt regs4 h0).g.width :=
  ⟨ready_all _ _ (by decide +kernel), by decide +kernel⟩

/-! Encoding, steps, traps, control -/

theorem tg_of (s : State) (h : (s.tg? at0).isSome = true) : s.tg? at0 = some (tgOf s) := by
  obtain ⟨g, hg⟩ := Option.isSome_iff_exists.mp h
  simp [tgOf, hg]

theorem wg_of (s : State) (h : (s.wg? 0).isSome = true) : s.wg? 0 = some (wgOf s) := by
  obtain ⟨w, hw⟩ := Option.isSome_iff_exists.mp h
  simp [wgOf, hw]

theorem both_of (s : State) (h : ((s.tg? at0).isSome && (s.wg? 0).isSome) = true) :
    s.tg? at0 = some (tgOf s) ∧ s.wg? at0.wg = some (wgOf s) := by
  simp only [Bool.and_eq_true] at h
  exact ⟨tg_of s h.1, wg_of s h.2⟩

theorem env_of (s : State) (h : Hints) (hs : (env? s h).isSome = true) : env? s h = some (envAt s h) := by
  obtain ⟨e, he⟩ := Option.isSome_iff_exists.mp hs
  simp [envAt, he]

def answers (o : Host.Outcome State Fault Refusal) : Bool := match o with | .next _ => true | _ => false

theorem next_of (o : Host.Outcome State Fault Refusal) (h : answers o = true) : ∃ t, o = .next t := by
  cases o with
  | next t => exact ⟨t, rfl⟩
  | _ => simp [answers] at h

theorem witness_DecodeEncode :
    (Instr.imadw h0 .s32 (.v 254) (.v 255) (.reg (.s 1023)) (.k 6)).isWord = true ∧
      (Instr.imadw h0 .s32 (.v 254) (.v 255) (.reg (.s 1023)) (.k 6)).wf = true := by decide

/-- A word of an instruction, one of group 0xF, and the words that are none. -/
theorem witness_EncodeDecode :
    (decode 0x31800780001C00000000000C#96).isWord = true ∧
      (let w := 0xF00017800000000000000000#96
       w.extractLsb' 92 4 = 15#4 ∧ w.extractLsb' 71 4 = 15#4 ∧ w.getLsbD 75 = false ∧ w.extractLsb' 64 3 ≠ 7#3 ∧ w.extractLsb' 0 62 = 0#62) ∧
      (let w : BitVec 96 := 0xF80#96 <<< 64
       w.extractLsb' 71 4 = 15#4 ∧ w.getLsbD 75 = true) ∧ (0x7#96 <<< 64 : BitVec 96).extractLsb' 64 3 = 7#3 := by decide

/-- The state in which a placed word is fetched. -/
def entered : State := (State.reset.withFetchWord 96 (plain 0x040 0 1 2 (immB 7)).toNat).enter ⟨0, 0, [], [], [], 0, .issue at0⟩

def fetched (s : State) (va : Nat) : Fetched := (fetch s 0 0 0 false 0 va 3).2

theorem witness_StepRunsDecoded :
    (∃ t, (State.reset.withFetchWord 96 0).nextTurn = some t ∧ t.move = .issue at0) ∧
      ({ State.reset with agenda := [⟨0, 0, [], [], [], 5, .event .hbmAtomRead⟩] } : State).nextTurn = some ⟨0, 0, [], [], [], 5, .event .hbmAtomRead⟩ ∧
      (let g := tgOf entered
       mayIssue entered (wgOf entered) g = true ∧ entered.inTurn (wgOf entered).core at0 g = true ∧ (∃ g1, g.ensureShot = some g1 ∧ g1.shot.pc = 0x20000#57 ∧ members g1.shot.set = List.range 16) ∧
         (entered.launchOf (wgOf entered)).isSome = true ∧
         (match fetched entered 0x20000 with | .words ws => !anyBad ws && !Instr.needsCut (decode (wordOf3 ws)) | _ => false) = true) :=
  ⟨⟨_, rfl, rfl⟩, rfl, by decide +kernel, by decide +kernel, ⟨_, rfl, by decide +kernel, by decide +kernel⟩, by decide +kernel, by decide +kernel⟩

/-- A transfer with its `CUT`: both are fetched. -/
theorem witness_StepRunsDecoded_transfer :
    let s := (State.reset.withFetchWord 96 (encode (.bra h0 24)).toNat).enter ⟨0, 0, [], [], [], 0, .issue at0⟩
    (match fetched s 0x20000 with | .words ws => !anyBad ws && Instr.needsCut (decode (wordOf3 ws)) | _ => false) = true ∧
      (match fetched s 0x2000C with | .words ws => isCut ws | _ => false) = true := by decide +kernel

theorem witness_EveryInstructionCompletes :
    regs4.cur = some at0 ∧ regs4.tg? at0 = some (tgOf regs4) ∧ regs4.wg? at0.wg = some (wgOf regs4) ∧
      (regs4.launchOf (wgOf regs4)).isSome = true ∧ (Instr.hbmAtomRead).isWord = false :=
  ⟨by decide +kernel, tg_of _ (by decide +kernel), wg_of _ (by decide +kernel), by decide +kernel, rfl⟩

theorem witness_StepKeepsInvariant :
    let s := State.reset.withFetchWord 96 (plain 0x040 0 1 2 (immB 7)).toNat
    Inv s ∧ ∃ t, step s = .next t :=
  ⟨⟨by decide +kernel, by decide +kernel, by decide +kernel⟩, next_of _ (by decide +kernel)⟩

/-- A continuity failure, an illegal instruction; the second in supervisor mode as well. -/
theorem witness_TrapEntry :
    (regs4.tg? at0 = some (tgOf regs4) ∧ regs4.wg? at0.wg = some (wgOf regs4)) ∧ (tgOf regs4).super = false ∧
      causeOf 0x01000000#32 ≠ 2 ∧ causeOf 0x02000000#32 = 2 ∧ (tgOf regs4).threads.length ≤ 64 :=
  ⟨both_of _ (by decide +kernel), by decide +kernel, by decide, by decide, by decide +kernel⟩

def inHandler : State := regs4.updTg at0 fun g => { g with super := true }

/-- A thread group in a handler; one under a debugger. -/
def debugged : State := { regs4.updTg at0 (fun g => { g with debug := .step }) with contexts := [(0, ⟨0x10000, 0, 0, true, 0, 0, [], ⟨[], false⟩⟩)] }

theorem witness_DoubleTrap :
    (inHandler.tg? at0 = some (tgOf inHandler) ∧ inHandler.wg? at0.wg = some (wgOf inHandler)) ∧ (tgOf inHandler).super = true ∧
      Ready debugged (envAt debugged h0) { h := h0 } ∧ debugging debugged (envAt debugged h0) = true :=
  ⟨both_of _ (by decide +kernel), by decide +kernel, ready_of _ { h := h0 } (by decide +kernel), by decide +kernel⟩

theorem witness_TrapThenReturn :
    (regs4.tg? at0 = some (tgOf regs4) ∧ regs4.wg? at0.wg = some (wgOf regs4)) ∧
      ((tgOf regs4).super, (tgOf regs4).saved, (tgOf regs4).ret, (tgOf regs4).phase) = (false, none, false, .ready) ∧ causeOf 0x0C300000#32 ≠ 2 ∧
      ((tgOf regs4).threads.zip (List.range 64)).all (fun x =>
        !(tgOf regs4).shot.set.getLsbD x.2 || (x.1.status == .ready && x.1.pc == (tgOf regs4).shot.pc)) = true :=
  ⟨both_of _ (by decide +kernel), by decide +kernel, by decide, by decide +kernel⟩

/-- In a handler, with `sr.tpc` moved by one instruction, and elsewhere. -/
theorem witness_TrapThenReturn_moved :
    let g := tgOf (nextOf (exec (.trap h0 7) regs4))
    (g.saved.map fun sv => (sv.boundary, sv.atExit, sv.wasCut, sv.tpc)) = some (false, false, false, 0x20000#57) ∧
      ({ g with tpc := 0x2000C#64 } : Tg).tpc.setWidth 57 = 0x20000#57 + 12#57 ∧ ({ g with tpc := 0x30000#64 } : Tg).tpc.setWidth 57 ≠ 0x20000#57 := by
  decide +kernel

/-- An operation of group 0xF with three registers. -/
def extWord : BitVec 96 := plain 0x3C1 0 5 6 (withC 8 7)

theorem witness_SoftwareTraps :
    (∀ p ∈ ([{ h := h0 }, { h := wordHints extWord, srcs := extSrcs extWord }] : List Plan), Ready regs4 (envAt regs4 p.h) p) ∧
      debugging regs4 (envAt regs4 h0) = false ∧ env? regs4 ⟨false, 15#4, 0#4, 0#3, false, false⟩ = some (envAt regs4 h0) ∧
      (envAt regs4 (wordHints extWord)).g.width ≤ 64 ∧ extSrcs extWord ≠ [] :=
  ⟨ready_all _ _ (by decide +kernel), by decide +kernel, env_of _ _ (by decide +kernel), by decide +kernel, by decide⟩

theorem witness_Privilege :
    env? regs4 h0 = some (envAt regs4 h0) ∧ (envAt regs4 h0).g.cancel = false ∧ (envAt regs4 h0).g.super = false ∧
      srSuper 0x042 = true ∧ srSuper 0x050 = true :=
  ⟨env_of _ _ (by decide +kernel), by decide +kernel, by decide +kernel, by decide, by decide⟩

/-- The state before a transfer: a target pair of the lowest and the highest addresses, another that is misaligned and beyond. -/
def going : State :=
  (regs4.updTg at0 fun g => { g with nextCut := true }).updTg at0 fun g =>
    [(RKey.s 0, 0xFFFFFFFC), (.s 1, 0x01FFFFFF), (.v 0 1, 0x20004), (.v 2 3, 2), (.v 3 2, 0x2000000)].foldl (fun g kw => g.setWord kw.1 (.of kw.2)) g

def viaPair (a : Reg) : Plan := { h := h0, srcs := [(srcA a 2).consumed], cutAfter := true }

theorem witness_Transfers :
    (∀ p ∈ ([{ h := h0 }, { h := h0, cutAfter := true }, viaPair (.s 0), { h := h0, cutAfter := true, dst := some (.v 254, 2) },
        { viaPair (.s 0) with dst := some (.v 254, 2) }, { h := h0, cutAfter := true, link := true }, { h := h0, cutAfter := true, link := true, srcs := [srcA (.v 254) 2] }, viaPair (.v 2)] : List Plan),
        Ready going (envAt going p.h) p) ∧
      (∀ l ∈ (envAt going h0).part, sane (value going (envAt going h0) [(srcA (.s 0) 2).consumed] 0 l)) ∧
      sane ((envAt going h0).pc.toNat + 0x7FFFFFFC) ∧
      (∀ l ∈ (envAt going h0).part, valOf (linkOf (envAt going h0) l) % 4 = 0) ∧
      ((envAt going h0).part.filter fun l => decide (¬ sane (value going (envAt going h0) [(srcA (.v 2) 2).consumed] 0 l))) = [2, 3] :=
  ⟨ready_all _ _ (by decide +kernel), by decide +kernel, by decide +kernel, by decide +kernel, by decide +kernel⟩

theorem witness_Transfers_tret :
    let s := going.updTg at0 fun g => { g with super := true, tpc := 0x1FFFFFFFFFFFFFC#64 }
    Ready s (envAt s h0) { h := h0, cutAfter := true, super := true } ∧ sane (envAt s h0).g.tpc.toNat :=
  ⟨ready_of _ { h := h0, cutAfter := true, super := true } (by decide +kernel), by decide +kernel⟩

/-- Stacks of fifteen and sixteen frames, serial mode with 254 levels. -/
def stacked (n : Nat) : State := going.updTg at0 fun g => { g with stack := List.replicate n ⟨0x20000, 0xF⟩ }
def serialised : State := going.updTg at0 fun g => { g with serial := some ⟨List.replicate 254 0x20054, 3, 0⟩ }

theorem witness_Reconvergence_rcv :
    Ready (stacked 15) (envAt (stacked 15) h0) { h := h0 } ∧ Ready (stacked 16) (envAt (stacked 16) h0) { h := h0 } ∧
      Ready serialised (envAt serialised h0) { h := h0 } ∧
      ((envAt (stacked 15) h0).g.serial, (envAt (stacked 15) h0).g.stack.length, (envAt (stacked 16) h0).g.stack.length) = (none, 15, 16) ∧
      ((envAt serialised h0).g.serial.map fun x => x.jpcs.length) = some 254 ∧ sane 0x20000 ∧ (envAt (stacked 15) h0).pc = 0x20000#57 :=
  ⟨ready_of _ { h := h0 } (by decide +kernel), ready_of _ { h := h0 } (by decide +kernel), ready_of _ { h := h0 } (by decide +kernel), by decide +kernel,
    by decide +kernel, by decide, by decide +kernel⟩

/-- At a `JOIN` with the top frame elsewhere, with a member that has not arrived, and with the last arrival. -/
def joining (jpc members : Nat) (st : ThreadStatus) : State :=
  going.updTg at0 fun g => { g.mapThreads 0x10 (fun _ t => { t with status := st }) with stack := [⟨BitVec.ofNat 57 jpc, BitVec.ofNat 64 members⟩] }

theorem witness_Reconvergence_join :
    (∀ s ∈ [joining 0x20054 0xF .ready, joining 0x20000 0x1F .ready, joining 0x20000 0x1F .arrived], ready? s { h := h0, cutAfter := true } = true ∧
        (envAt s h0).pc = 0x20000#57 ∧ (envAt s h0).part = [0, 1, 2, 3] ∧ (envAt s h0).g.serial = none) ∧
      (((envAt (joining 0x20000 0x1F .ready) h0).g.threads[4]?).map (·.status), ((envAt (joining 0x20000 0x1F .arrived) h0).g.threads[4]?).map (·.status)) =
        (some .ready, some .arrived) ∧ members 0x1F#64 = [0, 1, 2, 3, 4] := by decide +kernel

theorem witness_Reconvergence_exit :
    let s := going.updTg at0 fun g => { g with super := true }
    Ready going (envAt going h0) { h := h0, cutAfter := true } ∧ ((envAt going h0).g.super, (envAt going h0).g.serial, (envAt going h0).g.stack) = (false, none, []) ∧
      Ready s (envAt s h0) { h := h0, cutAfter := true } ∧ (envAt s h0).g.super = true :=
  ⟨ready_of _ { h := h0, cutAfter := true } (by decide +kernel), by decide +kernel, ready_of _ { h := h0, cutAfter := true } (by decide +kernel), by decide +kernel⟩

/-- A `CUT` whose slots are empty, and one whose slot 6 is in use; and a thread group that waits at one. -/
def cutting (busy : Bool) : State := regs4.updTg at0 fun g =>
  if busy then g.launchOp { MemOp.blank with ps := 6 } else g

def cutWaiting (busy : Bool) : State := (cutting busy).updTg at0 fun g => { g with phase := .atCut 0x3F#6 }

def cutPlan : Plan := { h := h0, srcs := [(srcB (.imm 0x7E) 1).consumed], cut := true }

theorem witness_CutEndsShot :
    (∀ s ∈ [cutting false, cutting true], ready? s cutPlan = true ∧ (envAt s h0).g.shot.waits = [] ∧ (envAt s h0).g.kept = [] ∧ (envAt s h0).g.ret = false ∧
        (∀ t ∈ (envAt s h0).g.threads, t.status ≠ .exited) ∧ (envAt s h0).g.shot.yieldInstr = false) ∧
      ((tgOf (cutting false)).slotsClear 0x3F#6, (tgOf (cutting true)).slotsClear 0x3F#6) = (true, false) ∧
      (∀ s ∈ [cutWaiting false, cutWaiting true], (s.wg? 0).isSome = true ∧ (s.tg? at0).isSome = true ∧ (wgOf s).phase = .running ∧
        (tgOf s).phase = .atCut 0x3F#6 ∧ (tgOf s).boundary = [] ∧ (tgOf s).threads ≠ []) := by decide +kernel


def atBoundary : State := regs4.updTg at0 fun g => { g with shot := Shot.none, boundary := [⟨2, 0x0D000000#32, none⟩] }

theorem witness_BoundaryTraps :
    (atBoundary.tg? at0 = some (tgOf atBoundary) ∧ atBoundary.wg? at0.wg = some (wgOf atBoundary)) ∧
      ((wgOf atBoundary).phase, (tgOf atBoundary).phase, (tgOf atBoundary).super, (tgOf atBoundary).debug) = (.running, .ready, false, .off) ∧
      (tgOf atBoundary).shot.active = false ∧ causeOf 0x0D000000#32 ≠ 2 ∧ (tgOf atBoundary).choose = some (0x20000#57, 0xFFFF#64) :=
  ⟨both_of _ (by decide +kernel), by decide +kernel, by decide +kernel, by decide, by decide +kernel⟩

/-! Memory -/

/-- The translation of an address whose entry the TLB holds. -/
def placeOf (s : State) (e : Env) (cls va n : Nat) : Option (Nat × PageKind × Option CodedTag) :=
  match translate s e.core e.ctx e.g.super cls va n with
  | (t, .to pa page coded) => if t = s then some (pa, page, coded) else none
  | _ => none

/-- The places of the pieces of a request, by their addresses. -/
def placeAt (s : State) (e : Env) (q : Global) (va x : Nat) : Nat × PageKind × Option CodedTag :=
  (((pieces va q.n q.mis).find? fun p => p.1 == x).bind fun p => placeOf s e q.cls p.1 p.2).getD (0, .rc, none)

def accsAt (s : State) (e : Env) (q : Global) (l va : Nat) (d d2 : List CWord) : List Acc :=
  (pieces va q.n q.mis).map fun p =>
    let x := placeAt s e q va p.1
    mkAcc l q.kind p.1 p.2 x.1 x.2.1 x.2.2 (pieceWords (p.1 - va) (p.1 % 4) p.2 d) (pieceWords (p.1 - va) (p.1 % 4) p.2 d2)

def reaches? (s : State) (e : Env) (q : Global) (l va : Nat) (d d2 : List CWord) : Bool :=
  decide (va < 2 ^ 57) && (q.mis || va % q.n == 0) && targetRule e q d (accsAt s e q l va d d2) == none &&
    (pieces va q.n q.mis).all fun p =>
      decide (p.1 < 2 ^ 57) && (placeOf s e q.cls p.1 p.2).isSome && placeOf s e q.cls p.1 p.2 == some (placeAt s e q va p.1)

theorem reaches_of (s : State) (e : Env) (q : Global) (l va : Nat) (d d2 : List CWord) (h : reaches? s e q l va d d2 = true) :
    Reaches s e q l va d d2 (accsAt s e q l va d d2) := by
  simp only [reaches?, Bool.and_eq_true, decide_eq_true_eq, List.all_eq_true, Bool.or_eq_true, beq_iff_eq] at h
  obtain ⟨⟨⟨h1, h2⟩, h3⟩, h4⟩ := h
  refine ⟨h1, h2, h3, placeAt s e q va, fun p hp => ⟨(h4 p hp).1.1, ?_⟩, rfl⟩
  have hb := (h4 p hp).2
  simp only [placeOf] at hb
  split at hb
  · rename_i t pa page coded ht
    split at hb
    · rename_i hs
      cases hs
      injection hb with hb
      rw [ht, ← hb]
    · cases hb
  · cases hb

/-- Two threads in the box, with addresses in the page at 0x20000: the last aligned one, one across a line. -/
def accessing : State :=
  boxWith 3 [(.v 6 0, 0x20FC0), (.v 6 1, 0x2007E), (.v 8 0, 0x11), (.v 8 1, 0x22), (.s 4, 0x20040), (.v 3 1, 0xFFF0), (.v 2 1, 0xFFFFFFF8), (.v 2 0, 8), (.v 12 0, 0x20040), (.v 12 1, 0x20048)]

def ldPlan (a : Reg) (d : Reg × Nat) : Plan := { h := h0, srcs := addrSrcs 2 a (.imm 0x38), dst := some d, role := vectorOnly }
def stPlan (a : Reg) (sz : MemSz) : Plan := { h := h0, srcs := storeSrcs 2 sz (.v 8) a (.imm 0), role := vectorOnly }

/-- A load and a store of a line's two parts by thread 1, of the page's end by thread 0; `LDA`, `STL`. -/
theorem witness_GlobalAccesses :
    let e := envAt accessing h0
    (∀ p ∈ ([{ ldPlan (.v 6) (.v 254, 2) with role := vectorOrUniform (.v 254) }, ldPlan (.v 12) (.v 10, 2), stPlan (.v 6) .b32, stPlan (.v 12) .b64,
        { h := h0, srcs := [(srcA (.v 2) 1).consumed], dst := some (.v 1, 1), role := vectorOrUniform (.v 1) },
        { h := h0, srcs := addrSrcs 2 (.v 6) (.imm 0), role := vectorOnly }] : List Plan), Ready accessing (envAt accessing p.h) p) ∧
      (∀ l ∈ accessors e (some (.v 254)) false, reaches? accessing e { kind := .load, cls := 0, n := 8, mis := true } l
        (addr 64 accessing e (addrSrcs 2 (.v 6) (.imm 0x38)) l) [] [] = true) ∧
      (∀ l ∈ makers e false, reaches? accessing e { kind := .store, cls := 1, n := 4, mis := true } l
        (addr 64 accessing e (storeSrcs 2 .b32 (.v 8) (.v 6) (.imm 0)) l) (words accessing e (storeSrcs 2 .b32 (.v 8) (.v 6) (.imm 0)) 2 l) [] = true) ∧
      (∀ l ∈ accessors e (some (.v 10)) false, reaches? accessing e { kind := .load, cls := 0, n := 8 } l
        (addr 64 accessing e (addrSrcs 2 (.v 12) (.imm 0x38)) l) [] [] = true) ∧
      (∀ l ∈ makers e false, reaches? accessing e { kind := .store, cls := 1, n := 8 } l
        (addr 64 accessing e (storeSrcs 2 .b64 (.v 8) (.v 12) (.imm 0)) l) (words accessing e (storeSrcs 2 .b64 (.v 8) (.v 12) (.imm 0)) 2 l) [] = true) :=
  ⟨ready_all _ _ (by decide +kernel), by decide +kernel, by decide +kernel, by decide +kernel, by decide +kernel⟩

/-- The last word of a window of 64 bytes. -/
theorem witness_GlobalAccesses_ldc :
    let s := boxWith 1 [(.v 2 0, 0xFFFFFFFC)]
    let e := envAt s h0
    let at_ := (value s e [(srcA (.v 2) 1).consumed] 0 0 + (8#19).toNat) % 2 ^ 32
    at_ = 4 ∧ accessors e (some (.v 1)) false = [0] ∧ (windowReadAt s e 0 0 (at_ / 4 * 4) 1).1 = s ∧
      (match (windowReadAt s e 0 0 (at_ / 4 * 4) 1).2 with | .words ws => ws == [.of 0x66] | _ => false) = true := by decide +kernel

/-- The last sixteen bytes of a scratchpad of 64 KiB, and another workgroup of the unit on core 1. -/
theorem witness_ScratchpadAccesses :
    let e := envAt accessing h0
    let ld : Plan := { h := h0, srcs := addrSrcs 1 (.v 3) (.imm 0), dst := some (.v 252, 4), role := vectorOnly }
    let st : Plan := { h := h0, srcs := storeSrcs 1 .b128 (.v 8) (.v 3) (.imm 0), role := vectorOnly }
    (∀ p ∈ [ld, st], Ready accessing (envAt accessing p.h) p) ∧ e.sheet.spadBytes = 65536 ∧
      (∀ l ∈ accessors e (some (.v 252)) false, fits e (addr 32 accessing e ld.srcs l) 16) ∧
      (∀ l ∈ makers e false, fits e (addr 32 accessing e st.srcs l) 16) ∧ clusterPeer accessing e (8 * (e.core / 8) + (1#3).toNat) = some 1 :=
  ⟨ready_all accessing [{ h := h0, srcs := addrSrcs 1 (.v 3) (.imm 0), dst := some (.v 252, 4), role := vectorOnly },
      { h := h0, srcs := storeSrcs 1 .b128 (.v 8) (.v 3) (.imm 0), role := vectorOnly }] (by decide +kernel),
    by decide +kernel, by decide +kernel, by decide +kernel, by decide +kernel⟩

/-- The last granule of the scratchpad; a held load whose granules are full, and one whose second is not. -/
def ranging : State := (boxWith 1 [(.s 3, 0xFFF0), (.v 3 0, 0x28)]).updWg 0 fun w => w.setGranules true [2, 4095]
def holding (full : Bool) : State :=
  nextOf (exec (.ldfTake h0 .b128 (.v 4) (.v 3) (.imm 8)) (if full then ranging.updWg 0 fun w => w.setGranules true [3] else ranging))

theorem witness_Granules :
    let e := envAt ranging h0
    let p : Plan := { h := h0, srcs := [(srcA (.s 3) 1).consumed, (srcB (.imm 16) 1).consumed], role := vectorOnly }
    Ready ranging e p ∧ Ready ranging e { p with dst := some (.s 1023, 1) } ∧ value ranging e p.srcs 0 0 = 65520 ∧ value ranging e p.srcs 1 0 = 16 ∧
      e.sheet.spadBytes = 65536 ∧ lookD false e.w.gran 4095 = lookD false e.w.gran2 4095 :=
  ⟨ready_of ranging { h := h0, srcs := [(srcA (.s 3) 1).consumed, (srcB (.imm 16) 1).consumed], role := vectorOnly } (by decide +kernel),
    ready_of ranging { h := h0, srcs := [(srcA (.s 3) 1).consumed, (srcB (.imm 16) 1).consumed], dst := some (.s 1023, 1), role := vectorOnly } (by decide +kernel),
    by decide +kernel⟩

theorem witness_Granules_held (full : Bool) :
    ((holding full).tg? at0 = some (tgOf (holding full)) ∧ (holding full).wg? at0.wg = some (wgOf (holding full))) ∧
      ((tgOf (holding full)).ops.map fun o => (o.granule, o.performed, o.setFull, o.arrive.isNone, o.scope == .thread, o.dst.isSome)) =
        [(some true, false, false, true, true, true)] ∧
      (∀ o ∈ (tgOf (holding full)).ops, o.acquire.isNone = true ∧ o.accs ≠ [] ∧ (∀ a ∈ o.accs, a.page = .spad ∧ a.kind = .load ∧ a.wg = none ∧ a.done = false) ∧
        granulesOf o.accs = [3] ∧ lookD false (wgOf (holding full)).gran 3 = full ∧ lookD false (wgOf (holding full)).gran2 3 = full) := by
  cases full <;> exact ⟨both_of _ (by decide +kernel), by decide +kernel, by decide +kernel⟩

theorem witness_Atomics :
    let e := envAt accessing h0
    let xs (m : Nat) : List Src := [(srcA (.v (if m = 1 then 3 else 12)) m).consumed, atomB .s64 (.imm 1)]
    let cs (m : Nat) : List Src := [(srcA (.v (if m = 1 then 3 else 12)) m).consumed, srcB (.reg (.v 8)) 2, srcC (.v 10) 2]
    (∀ p ∈ ([{ h := h0, srcs := xs 2, dst := some (.v 254, 2), role := vectorOnly }, { h := h0, srcs := xs 2, role := vectorOnly },
        { h := h0, srcs := cs 2, dst := some (.v 254, 2), role := vectorOnly }, { h := h0, srcs := xs 1, dst := some (.v 254, 2), role := vectorOnly },
        { h := h0, srcs := xs 1, role := vectorOnly }, { h := h0, srcs := cs 1, dst := some (.v 254, 2), role := vectorOnly }] : List Plan),
        ready? accessing p = true) ∧
      (∀ l ∈ accessors e (some (.v 254)) false, reaches? accessing e { kind := .atom .s64 .add, cls := 2, n := 8 } l (value accessing e (xs 2) 0 l)
        (words accessing e (xs 2) 1 l) [] = true ∧ reaches? accessing e { kind := .cas .s64, cls := 2, n := 8 } l (value accessing e (cs 2) 0 l)
        (words accessing e (cs 2) 1 l) (words accessing e (cs 2) 2 l) = true ∧ fits e (value accessing e (xs 1) 0 l) 8) := by decide +kernel

/-- Thread 1 beyond the space of addresses, or misaligned, thread 0 within its page; scratchpad offsets likewise. -/
def faulty : State :=
  boxWith 3 [(.v 6 0, 0x20000), (.v 6 1, 0xFFFFFFFC), (.v 7 1, 0x01FFFFFF), (.v 10 0, 0x20FFC), (.v 10 1, 0x20FFE), (.v 3 0, 0xFFFC), (.v 3 1, 0x10000), (.v 4 0, 0xFFFC), (.v 4 1, 2)]

theorem witness_AccessFaults :
    let e := envAt faulty h0
    let glob (a : Reg) (l : Nat) : Nat := addr 64 faulty e (addrSrcs 2 a (.imm 4)) l
    let spad (a : Reg) (l : Nat) : Nat := addr 32 faulty e (addrSrcs 1 a (.imm 0)) l
    (∀ a ∈ [Reg.v 6, .v 10], ready? faulty { h := h0, srcs := addrSrcs 2 a (.imm 4), dst := some (.v 1, 1), role := vectorOrUniform (.v 1) } = true ∧
        ready? faulty { h := h0, srcs := storeSrcs 2 .b32 (.v 8) a (.imm 4), role := vectorOnly } = true) ∧
      (∀ a ∈ [Reg.v 3, .v 4], ready? faulty { h := h0, srcs := addrSrcs 1 a (.imm 0), dst := some (.v 1, 1), role := vectorOnly } = true ∧
        ready? faulty { h := h0, srcs := storeSrcs 1 .b32 (.v 8) a (.imm 0), role := vectorOnly } = true) ∧
      accessors e (some (.v 1)) false = [0, 1] ∧ makers e false = [0, 1] ∧ (glob (.v 6) 0, glob (.v 6) 1) = (0x20004, 2 ^ 57) ∧
      (glob (.v 10) 1 % 4, spad (.v 3) 0, spad (.v 3) 1, spad (.v 4) 1, e.sheet.spadBytes) = (2, 65532, 65536, 2, 65536) ∧
      reaches? faulty e { kind := .load, cls := 0, n := 4 } 0 (glob (.v 6) 0) [] [] = true ∧
      reaches? faulty e { kind := .store, cls := 1, n := 4 } 0 (glob (.v 6) 0) [.zero] [] = true := by decide +kernel

/-- Two threads that store and load eight bytes at both ends of the scratchpad, and at the end of a line of the L1 that holds words. -/
def storing : State :=
  let s := boxWith 3 [(.v 3 0, 0), (.v 3 1, 0xFFF8), (.v 6 0, 0x20078), (.v 6 1, 0x20040), (.v 8 0, 0xAABBCCDD), (.v 9 1, 0x11223344)]
  let t := nextOf (exec (.st h0 .b64 false false (.v 8) (.v 6) (.imm 0)) s)
  t.updTg at0 fun g => { g with shot := (tgOf s).shot, threads := (tgOf s).threads }

theorem witness_Stores :
    let e := envAt storing h0
    let va (l : Nat) : Nat := addr 64 storing e (storeSrcs 2 .b64 (.v 8) (.v 6) (.imm 0)) l
    (ready? storing { h := h0, srcs := storeSrcs 1 .b64 (.v 8) (.v 3) (.imm 0), role := vectorOnly } &&
        ready? storing { h := h0, srcs := storeSrcs 2 .b64 (.v 8) (.v 6) (.imm 0), role := vectorOnly }) = true ∧
      e.g.ops = [] ∧ e.w.spad = [] ∧ e.w.takeOn = false ∧ e.sheet.staged = false ∧ makers e false = [0, 1] ∧
      (∀ l ∈ [0, 1], fits e (addr 32 storing e (storeSrcs 1 .b64 (.v 8) (.v 3) (.imm 0)) l) 8 ∧ va l < 2 ^ 57 ∧ va l % 8 = 0 ∧
        placeOf storing e 1 (va l) 8 = some (va l, .rc, none)) ∧
      (∀ l ∈ [0, 1], ((l1Find storing e.core (va l) none).map fun ln => ln.words.length == 32 && ln.words.all CWord.passes) = some true) := by decide +kernel

theorem witness_Loads :
    let e := envAt storing h0
    let va (l : Nat) : Nat := addr 64 storing e (addrSrcs 2 (.v 6) (.imm 0)) l
    (ready? storing { h := h0, srcs := addrSrcs 1 (.v 3) (.imm 0), dst := some (.v 254, 2), role := vectorOnly } &&
        ready? storing { h := h0, srcs := addrSrcs 2 (.v 6) (.imm 0), dst := some (.v 254, 2), role := vectorOrUniform (.v 254) }) = true ∧
      e.g.ops = [] ∧ e.w.takeOn = false ∧ e.sheet.staged = false ∧ accessors e (some (.v 254)) false = [0, 1] ∧
      (∀ l ∈ [0, 1], fits e (addr 32 storing e (addrSrcs 1 (.v 3) (.imm 0)) l) 8 ∧ va l % 8 = 0 ∧ placeOf storing e 0 (va l) 8 = some (va l, .rc, none) ∧
        l1Read storing e.core (va l / 4 * 4) (byteMask (va l % 4) 8) 2 = some (if l = 0 then [.of 0xAABBCCDD, .zero] else [.zero, .of 0x11223344])) := by
  decide +kernel

/-- Four bytes, and the highest of four, on their way to the highest register of a thread. -/
def arriving (n : MemSz) (o : Word) : State :=
  nextOf (exec (.lds h0 n (.v 255) (.v 3) (.imm o)) ((boxWith 1 [(.v 3 0, 0x10)]).updWg 0 fun w => { w with spad := [(4, .of 0x80000001)] }))

theorem witness_Loads_return :
    (∀ x ∈ [(MemSz.b32, 0#32, 4, 15), (.s8, 3#32, 1, 8)],
      let s := arriving x.1 x.2.1
      ((s.tg? at0).isSome && (s.wg? 0).isSome && (wgOf s).phase == .running && (s.core (wgOf s).core).matq.isEmpty &&
        ((tgOf s).ops.map fun o => (o.id, o.performed, o.launch.isNone, o.arrive.isNone, o.dst, o.results, o.skip, o.lanes, o.size)) ==
          [(0, true, true, true, some (.v 255), [], [], [(0, 0)], x.2.2.1)] &&
        ((tgOf s).ops.map fun o => o.accs.map fun c => (c.lane, c.mask, c.va % 4, c.result)) == [[(0, x.2.2.2, x.2.1.toNat, [.of 0x80000001])]] ) = true) := by
  decide +kernel

theorem witness_MergeByPrediction :
    let s := box.updWg 0 fun w => { w with spad := [(16383, ⟨0x11223344, 6⟩)] }
    (0 < 1 ∧ 1 < 15) ∧ (0 < 14 ∧ 14 < 15) ∧ (s.wg? 0).isSome = true ∧ lookD .zero (wgOf s).spad (65535 / 4) = ⟨0x11223344, 6⟩ ∧
      (CWord.of 0xAB00).passes = true ∧ mergeFails ⟨0x11223344, 6⟩ (.of 0xAB00) 2 = true ∧ (CWord.of 0xAB00).bad = false ∧ (CWord.of 0x11223344).bad = false := by
  decide +kernel

/-! Ordering, barriers, engines, special registers, the matrix engine -/

/-- Registers for the instructions that issue once. -/
def once : State :=
  boxWith 3 [(.s 4, 0x20000), (.s 6, 0x20FFF), (.s 1020, 3), (.s 8, 0x20000), (.s 12, 2), (.v 5 0, 6), (.s 16, 15), (.s 17, 15), (.s 18, 0), (.s 19, 16)]

theorem witness_OrderingInstructions :
    let s := once.updTg at0 fun g => { g with nextCut := true }
    let one := [(srcB (.reg (.v 5)) 1).consumed]
    ([{ h := h0 }, { h := h0, srcs := [(srcA (.s 4) 2).consumed, (srcB (.reg (.s 6)) 2).consumed] }, { h := h0, srcs := one }].all (ready? s) &&
        [{ h := h0, cutAfter := true }, { h := h0, cutAfter := true, srcs := one, dst := some (.s 1023, 1) },
          { h := h0, cutAfter := true, srcs := one }].all (ready? s)) = true := by decide +kernel

/-- Barrier 15 with one arrival to come, a ring of seven from barrier 0, a thread group with nothing in flight and an empty L1. -/
def meeting (cut : Bool) : State :=
  (once.updTg at0 fun g => { g with nextCut := cut }).updWg 0 fun w =>
    { w with barriers := w.barriers.zipIdx.map fun x =>
        if x.2 = 15 then { x.1 with e := 4095, arr := 4094 } else if x.2 < 7 then { x.1 with ef := 1, ee := 4095, ring := some (0, 7) } else x.1 }

theorem witness_Barriers :
    (ready? (meeting false) { h := h0 } && ready? (meeting false) { h := h0, dst := some (.s 1023, 1) } &&
        ready? (meeting true) { h := h0, dst := some (.s 0, 1), cutAfter := true } && ready? (meeting true) { h := h0, cutAfter := true } &&
        ready? (meeting false) { h := h0, srcs := [(srcB (.imm 6) 1).consumed] }) = true ∧
      (let e := envAt (meeting false) h0
       e.g.ops = [] ∧ e.w.takeOn = false ∧ (meeting false).cs.l1 = [] ∧ e.w.barriers.length = 16 ∧
         (e.w.barriers[15]?).map (fun b => (b.e, b.arr)) = some (4095, 4094) ∧ (e.w.barriers[6]?).bind (·.ring) = some (0, 7)) := by decide +kernel

/-- A thread group with the copy role; its eight uniforms of a command; a full queue of jobs. -/
def copying : State := once.updTg at0 fun g => { g with role := 0 }

/-- A command of the thread group in entry 2 of core 0, suspended. -/
def suspended : CopyCmd :=
  { kind := .copy, issuer := at0, part := 0, ctx := 0, words := List.replicate 4 0#64, defer := none, phase := .suspended, accepted := true
    eslot := 2, idx := [], chunk := 0, chain := ⟨0#32, [], false, 0⟩, member := false, buf := [], retried := true, status := 0
    slots := 0#8, waits := [], super := false }

def job : Job :=
  { issuer := at0, core := 0, part := 0, ctx := 0, words := List.replicate 4 0#64, defer := none, accepted := false, phase := .queued
    status := 0, slots := 0#8, waits := [], super := false }

theorem witness_EngineCommands :
    (∀ s ∈ [copying, copying.setCluster 0 { copying.cluster 0 with jobs := List.replicate 16 job },
        copying.setCore 0 { copying.core 0 with copyq := List.replicate 32 suspended }],
      [{ h := h0, srcs := [(srcA (.s 8) 8).consumed], role := copyOnly }, { h := h0, srcs := [(srcA (.s 8) 8).consumed, (srcB (.imm 0) 1).consumed], role := copyOnly },
        { h := { h0 with gidx := 14, gneg := true }, srcs := [(srcA (.s 4) 2).consumed, (srcB (.imm 0xFFFFFFFF) 1).consumed], role := copyOrVector }].all (ready? s) = true) := by
  decide +kernel

/-- A cursor that names the thread group's suspended command of entry 2, or entry 0, which is empty. -/
def cursor (entry : Word) : State :=
  ((once.updTg at0 fun g => (g.setWord (.s 4) (.of (0x1000000 * entry))).setWord (.s 5) .zero).updTg at0 fun g => { g with super := true }).setCore 0
    { once.core 0 with copyq := [suspended] }

theorem witness_EngineCommands_resume :
    (∀ k ∈ ([(2#32, 2), (0#32, 0)] : List (Word × Nat)), ready? (cursor k.1) { h := h0, srcs := [(srcA (.s 4) 2).consumed], super := true } = true ∧
        value (cursor k.1) (envAt (cursor k.1) h0) [(srcA (.s 4) 2).consumed] 0 0 / 2 ^ 24 % 32 = k.2) ∧
      (((cursor 2).core 0).copyq.find? fun c => c.accepted && c.eslot == 2) = some suspended ∧
      (((cursor 0).core 0).copyq.find? fun c => c.accepted && c.eslot == 0) = none := by decide +kernel

theorem witness_SpecialReads :
    (ready? once { h := h0, dst := some (.v 255, 1), super := srSuper 0x000 } && ready? once { h := h0, dst := some (.s 1022, 2), super := srSuper 0x008 } &&
        ready? (cursor 0) { h := h0, dst := some (.v 254, 2), super := srSuper 0x047 }) = true ∧
      ([0x000, 0x008, 0x010, 0x047, 0x05C].all fun n : BitVec 10 => (srInfo n).isSome) = true := by decide +kernel

/-- A write of a special register from an immediate or a pair of uniforms. -/
def srPlan (n : BitVec 10) (b : Opd) : Plan :=
  { h := h0, srcs := [(srcB b (srBits n / 32)).consumed], super := srSuper n, reserved := fun c => srReserved n.toNat (c.uval 0) }

theorem witness_SpecialWrites :
    (∀ x ∈ ([(0x030, 0x4C44444), (0x030, 0x5), (0x030, 0x10000000), (0x031, 1), (0x031, 2), (0x058, 63), (0x058, 127), (0x058, 128)] : List (BitVec 10 × Nat)),
      ready? once (srPlan x.1 (.imm (BitVec.ofNat 32 x.2))) = true ∧ value once (envAt once h0) (srPlan x.1 (.imm (BitVec.ofNat 32 x.2))).srcs 0 0 = x.2) ∧
    (∀ x ∈ ([(0x050, 0x01000100), (0x050, 1), (0x050, 0), (0x050, 0x101), (0x050, 0x01010001), (0x050, 0x4000001)] : List (BitVec 10 × Nat)),
      ready? (cursor 0) (srPlan x.1 (.imm (BitVec.ofNat 32 x.2))) = true) ∧ ready? (cursor 0) (srPlan 0x042 (.reg (.s 1022))) = true ∧
    (once.ctx? (envAt once h0).ctx).isSome = true ∧ (envAt (cursor 0) h0).g.saved = none := by decide +kernel

/-- `sr.tpc` after a boundary trap at a thread group's last exit. -/
theorem witness_SpecialWrites_exit :
    let s := (cursor 0).updTg at0 fun g => { g with saved := some { g.snapshot g.shot.set g.shot.pc false true true with atExit := true } }
    ready? s (srPlan 0x042 (.reg (.s 1022))) = true ∧ ((envAt s h0).g.saved.map (·.atExit)) = some true := by decide +kernel

/-- A call sheet at 0x20000, in a page that the core's TLBs hold. -/
theorem witness_SystemInstructions :
    let e := envAt once h0
    let src := [(srcA (.s 8) 2).consumed]
    (ready? once { h := h0 } && ready? once { h := h0, dst := some (.s 1022, 2) } && ready? once { h := h0, srcs := src, dst := some (.s 1023, 1) } &&
        ready? (cursor 0) { h := h0, super := true, dst := some (.s 1023, 1) } && ready? (cursor 0) { h := h0, super := true, dst := some (.s 1016, 8) } &&
        ready? (cursor 0) { h := h0, super := true }) = true ∧
      value once e src 0 (e.part.headD 0) = 0x20000 ∧ once.logs.length = 8 ∧
      (placeOf once e 0 0x20000 1024).isSome = true := by decide +kernel

/-- A workgroup with a valid entry 63, a tile in handle 15, a gang list of both thread groups at `s16`. -/
def tensors : State := once.updWg 0 fun w =>
  { w with tensors := (w.tensors.set 63 tensor16).set 62 { tensor16 with dw0 := 0x2000000000000000#64 }, tiles := w.tiles.set 15 (some ⟨16, 16, .f32, [0]⟩) }

/-- An operation of the thread group, suspended at an array step. -/
def operation : MatOp :=
  { kind := .mzro, issuer := at0, num := 0, pc := 0x20000#57, threads := 3#64, tile := some ⟨16, 16, .f32, [0]⟩, ta := Tensor.zero, tb := Tensor.zero, args := []
    acc := false, fmode := 0#28, nonce := 0#64, th := 0, guardD := none, ps := 0, gang := none, slots := 0#8, rows := 0, kch := 0, cstep := 0, state := 4
    cause := 1, point := 12, stage := 3, missed := false, waits := [], super := false, id := 0 }

def withOp : State := (cursor 0).setCore 0 { once.core 0 with matq := [operation] }

/-- A gang of the thread groups 0 of both workgroups, and a list that names the issuer twice. -/
def ganging (a : Word) : State := tensors.updTg at0 fun g =>
  ((g.setWord (.s 20) (.of a)).setWord (.s 21) .zero).setWord (.s 23) (.of 2)

/-- A tile of 512 by 16 needs two pages where one is free; one of 16 by 16 fits. -/
theorem witness_TensorTable :
    let p : Plan := { h := h0, role := notCopy }
    let list := [(srcA (.s 20) 4).consumed]
    ([p, { p with srcs := [(srcA (.s 8) 8).consumed] }, { p with dst := some (.s 1022, 2) }, { p with dst := some (.s 1023, 1) },
        { p with srcs := [(srcB (.imm 0x100200) 1).consumed] }, { p with srcs := [(srcB (.imm 0x100010) 1).consumed] }].all (ready? tensors) && ready? withOp { p with dst := some (.s 1022, 2) } &&
        [ganging 0x400000, ganging 0].all fun s => ready? s { p with srcs := list }) = true ∧
      ((withOp.core 0).matq.find? fun x => x.issuer == at0) = some operation ∧ ((tensors.core 0).matq.find? fun x => x.issuer == at0) = none ∧
      ((0x100200 % 1024, 0x100200 / 2 ^ 16 % 1024), (freePages tensors 0 (wgOf tensors)).length) = ((512, 16), 1) ∧
      (let e := envAt (ganging 0x400000) h0
       e.sheet.clusterLevel = some 3 ∧ e.sheet.clusterUnit e.w = some (0, 0) ∧ (0, e.r.tg) = (0, 0) ∧ e.sheet.prod e.sheet.coreLevel 3 = 2 ∧ e.sheet.groups = 2 ∧
         (List.range 4).map (fun i => ((words (ganging 0x400000) e list 0 0).getD i .zero).data.toNat) = [0x400000, 0, 0, 2]) := by decide +kernel

/-- Registers of a product whose first row and column are the last of its operands; a queue of sixteen. -/
def multiplying (rc full : Bool) : State :=
  let s := tensors.updTg at0 fun g => if rc then (g.setWord (.s 16) (.of 16)).setWord (.s 17) (.of 15) else g
  if full then s.setCore 0 { s.core 0 with matq := List.replicate 16 { operation with issuer := ⟨0, 1⟩ } } else s

def ganged : State := (multiplying false false).updTg at0 fun g => { g with gang := [(0, 0), (1, 0)] }

theorem witness_MatrixOperations :
    let p : Plan := { h := h0, role := notCopy }
    (∀ s ∈ [multiplying false true, multiplying true false, ganged], [p, { p with srcs := [(srcA (.s 16) 4).consumed] },
        { p with srcs := [(srcA (.s 16) 2).consumed] }].all (ready? s) = true) ∧
      (let w := (envAt ganged h0).w
       let t (i : Nat) : Tensor := (w.tensors[i]?).getD Tensor.zero
       ((t 63).valid, (t 62).valid, (t 61).valid, (w.tiles[15]?).join.isSome, (w.tiles[14]?).join.isSome, mmaOk (t 63) (t 63) .f32, mmaOk (t 62) (t 63) .f32) =
           (true, true, false, true, false, true, false) ∧ (t 63).format = some (.ieee .f16) ∧ (t 62).format = some (.int true 8) ∧ ((t 63).rows, (t 63).cols) = (16, 16)) ∧
      (∀ x ∈ [(multiplying false true, 15), (multiplying true false, 16)],
        (List.range 2).map (fun i => ((words x.1 (envAt x.1 h0) [(srcA (.s 16) 4).consumed] 0 0).getD i .zero).data.toNat) = [x.2, 15]) ∧
      (ganged.cluster 0).latch = [] ∧ ((envAt ganged h0).g.gang.map fun x => (gangRef ganged boxSheet (envAt ganged h0).w x, ganged.gone (gangRef ganged boxSheet (envAt ganged h0).w x))) =
        [(at0, false), (⟨1, 0⟩, false)] := by decide +kernel

theorem witness_MatrixOperations_progress :
    ready? withOp { h := h0, role := notCopy, super := true } = true ∧ ((withOp.core 0).matq.find? fun x => x.issuer == at0) = some operation ∧
      (operation.state, operation.gang.isNone) = (4, true) := by decide +kernel

/-! Events: accesses at their homes, memory controllers, translation, management -/

/-- An access of thread group 0 of the box, alone in its operation. -/
def acting (a : Acc) (dst : Option Reg) : State :=
  box.updTg at0 fun g => g.launchOp { MemOp.blank with accs := [a], dst := dst, size := 4, lanes := [(0, 0)], counts := true, performed := false }

def theOp (s : State) : MemOp := (tgOf s).ops.headD MemOp.blank

/-- `Pending`, decided for the access of `acting`. -/
def pending? (s : State) (a : Acc) : Bool :=
  (s.wg? 0).isSome && (s.tg? at0).isSome && ((tgOf s).ops.find? fun o => o.id == 0) == some (theOp s) && (theOp s).accs[0]? == some a &&
    a.done == false && (theOp s).setFull == false && (wgOf s).phase != .saved && (tgOf s).mayPerform (theOp s) 0 a &&
    (a.page != .host || !s.hostAhead at0 (theOp s).id)

theorem pending_of (s : State) (a : Acc) (h : pending? s a = true) : Pending s at0 0 0 (wgOf s) (tgOf s) (theOp s) a := by
  simp only [pending?, Bool.and_eq_true, beq_iff_eq, bne_iff_ne, ne_eq] at h
  obtain ⟨⟨⟨⟨⟨⟨⟨⟨h1, h2⟩, h3⟩, h4⟩, h5⟩, h6⟩, h7⟩, h8⟩, h9⟩ := h
  exact ⟨wg_of s h1, tg_of s h2, h3, h4, h5, h6, h7, h8, fun hp => by simpa [hp] using h9⟩

/-- What the statement asks of the operation beside. -/
def alone? (s : State) (a : Acc) : Bool :=
  (tgOf s).ops == [theOp s] && (theOp s).accs == [a] && !(wgOf s).takeOn && (theOp s).arrive.isNone && (theOp s).acquire.isNone && !(theOp s).performed &&
    !(theOp s).rel && (theOp s).grn.isNone

/-- A line of the L2 that holds the address whole. -/
def wholeLine (s : State) (pa : Nat) : L2Line :=
  ⟨sliceOf s (pa / 128 * 128), setOf pa, 0, pa / 128, none, 0, List.replicate 32 (.of 0x80000007), 2 ^ 128 - 1, 0, 0⟩

def withLine (s : State) (ln : L2Line) : State := { s with cs := { s.cs with l2 := [ln] } }

/-- The last word of a line: read, added to; in host memory likewise. -/
def lastRead : Acc := mkAcc 0 .load 0x2007C 4 0x2007C .rc none [] []
def lastAdd : Acc := mkAcc 0 (.atom .s32 .add) 0x2007C 4 0x2007C .rc none [.of 5] []
def hostAcc (k : AccKind) : Acc := mkAcc 0 k 0x20010 4 0x8000000000010 .host none [.of 0xFF] []

/-- A frame beyond the units of the workgroups and the lines that a core holds. -/
theorem room_of (s : State) (core f : Nat) (h : (decide (f < 36864) && !(s.spadUnitsOn core).contains (f / 512) &&
    s.cs.l1.all fun ln => ln.core != core || ln.frame != f) = true) : L1Room s core 1 := by
  simp only [Bool.and_eq_true, decide_eq_true_eq, Bool.not_eq_true', List.all_eq_true, Bool.or_eq_true, bne_iff_ne] at h
  refine ⟨[f], by simp, by simp, fun x hx => ?_⟩
  simp only [List.mem_singleton] at hx
  subst hx
  exact ⟨h.1.1, h.1.2, fun ln hl hc => ((h.2 ln hl).resolve_left fun hn => hn hc)⟩

theorem witness_HomeAccesses_room : L1Room (withLine (acting lastRead (some (.v 255))) (wholeLine box 0x2007C)) 0 1 ∧
    L1Room (acting lastRead (some (.v 255))) 0 1 := ⟨room_of _ _ 36863 (by decide +kernel), room_of _ _ 36863 (by decide +kernel)⟩

theorem witness_HomeAccesses :
    let hit := withLine (acting lastRead (some (.v 255))) (wholeLine box 0x2007C)
    let miss := acting lastRead (some (.v 255))
    let add := withLine (acting lastAdd (some (.v 255))) (wholeLine box 0x2007C)
    ([(hit, lastRead), (miss, lastRead), (add, lastAdd), (acting (hostAcc .load) (some (.v 1)), hostAcc .load), (acting (hostAcc .store) none, hostAcc .store),
        (acting (hostAcc (.atom .s32 .add)) none, hostAcc (.atom .s32 .add))].all fun x => pending? x.1 x.2 && alone? x.1 x.2) = true ∧
      (l1Find hit 0 0x2007C none).isNone = true ∧ lastRead.mask * 2 ^ (0x2007C % 128) < 2 ^ 128 ∧ lineAt hit 0x2007C = some (wholeLine box 0x2007C) ∧
      (wholeLine box 0x2007C).words.length = 32 ∧ (wholeLine box 0x2007C).words.all CWord.passes = true ∧ (lineAt miss 0x2007C).isNone = true ∧ populated miss 0x2007C = true ∧
      (waysOf miss (sliceOf miss 0x20000) 0).getLsbD 15 = true ∧ miss.cs.l2 = [] ∧ add.strikes = [] ∧ lastAdd.data.all CWord.passes = true ∧
      (lastAdd.kind.after [.of 0x80000007] lastAdd.data []).length = 1 ∧ clean (lastAdd.kind.after [.of 0] lastAdd.data []) = true ∧
      clean (hostAcc .store).data = true := by decide +kernel

/-- A store into a decoded line of a region of 64 blocks. -/
def codedTag : CodedTag := ⟨0, 63, 63, ⟨false, false, false, 0, 256, 0, 64, 0x100000⟩⟩
def codedStore : Acc := mkAcc 0 .store 0x21F80 8 0x1F80 .rc (some codedTag) [.of 1, .of 2] []
def codedLine : L2Line := ⟨0, 0, 0, 63, some codedTag, 0, List.replicate 32 (.of 0), 2 ^ 128 - 1, 0, 0⟩

theorem witness_HomeAccesses_coded :
    let s := withLine (acting codedStore none) codedLine
    (pending? s codedStore && alone? s codedStore) = true ∧ codedTag.entry.through = false ∧ codedTag.sameSet codedTag = true ∧
      (s.cs.l2.find? (·.decodes codedTag)) = some codedLine ∧ codedStore.data.all CWord.passes = true := by decide +kernel

/-- Requests for the second atom of a line: its read, a whole write with a Poison word, a write of one byte. -/
def atomQueue (write : Bool) (mask : Nat) : State :=
  { State.reset with mm := { State.reset.mm with queue := [⟨write, 0x20040, if write then .poisoned 7 :: List.replicate 15 (.of 9) else [], mask, 0, 0⟩] } }

theorem witness_MemoryControllers :
    ∀ s ∈ [atomQueue false 0, atomQueue true (2 ^ 64 - 1), atomQueue true (2 ^ 63)],
      s.unit = 0 ∧ (s.mm.queue.map (·.atom)) = [0x20040] ∧ atomOf s 0x20040 = 0x20040 ∧ populated s 0x20040 = true ∧ (unsettledAt s 0x20040).isNone = true ∧
        (look? s.mm.errs 0x20040).isNone = true ∧ atomBytes s 0x20040 = 64 ∧ (∀ q ∈ s.mm.queue, q.write = true → q.words.length = 16 ∧ q.words.all CWord.passes = true) := by
  decide +kernel

/-- Two requests at one stack, of a partition of weight 0 and of one of weight 1. -/
theorem witness_MemoryControllers_weights :
    let s : State := { atomQueue false 0 with
      mm := { (atomQueue false 0).mm with queue := [⟨false, 0x20040, [], 0, 0, 0⟩, ⟨false, 0x20040, [], 0, 7, 0⟩] }
      cs := { (atomQueue false 0).cs with weight := [0#8, 0#8, 0#8, 0#8, 0#8, 0#8, 0#8, 1#8] } }
    (s.mm.queue[s.unit]?).map (·.part) = some 0 ∧ s.mm.queue.map (fun q => stackOf s q.atom) = [stackOf s 0x20040, stackOf s 0x20040] ∧
      (s.cs.weight.getD 0 0#8, s.cs.weight.getD 7 0#8) = (0#8, 1#8) ∧ weightAllows (atomQueue false 0) (stackOf (atomQueue false 0) 0x20040) 0 = true := by
  decide +kernel

/-- Page tables in host memory from its first byte, for the highest address of the space of addresses. -/
def hostTables : State :=
  let t (l : Nat) : Nat := 2 ^ 51 + 4096 * (4 - l)
  let dw (m : Memory) (a x : Nat) : Memory := wrWords m a (wordsOf 64 x)
  let m := (List.range 4).foldl (fun m i => dw m (t (4 - i) + 8 * 511) (t (3 - i) + 1)) []
  { State.reset with
    mm := { State.reset.mm with bytes := dw m (t 0 + 8 * 511) 0x2001F }
    contexts := [(65535, ⟨2 ^ 51, 0, 0, false, 0, 0, [], ⟨[], false⟩⟩)] }

theorem witness_Translation :
    let t (l : Nat) : Nat := 2 ^ 51 + 4096 * (4 - l)
    (hostTables.ctx? 65535).map (·.root) = some (t 4) ∧ (tlbFind hostTables 383 65535 (2 ^ 57 - 1)).isNone = true ∧
      (∀ l ∈ List.range 5, (2 ^ 57 - 1) / 2 ^ (12 + 9 * l) % 512 = 511 ∧ isHost (t l + 8 * 511) = true) ∧
      (∀ l ∈ List.range 4, t l % 4096 = 0 ∧ t l < 2 ^ 52 ∧ hostDw hostTables (t (l + 1) + 8 * 511) = t l + 1) ∧
      hostDw hostTables (t 0 + 8 * 511) = 0x2001F ∧ 0x2001F % 4 = 3 ∧ leafOk 0x2001F 0 = true ∧ pteSz64 0x2001F = false ∧
      hostDw { hostTables with mm := { hostTables.mm with bytes := [] } } (t 4 + 8 * 511) % 2 = 0 ∧ hostTables.cs.tlb = [] ∧
      leafServes ⟨2 ^ 51, 0, 0, false, 0, 0, [], ⟨[], false⟩⟩ (2 ^ 57 - 1) 0x2001F 0 = true := by decide +kernel

/-- A busy invalidation of a page, with an access to it in flight, and with none. -/
theorem witness_Translation_invalidation :
    let busy (s : State) : State := { s with cs := { s.cs with tlbinv := some (0, false, 0x20) } }
    invalWaits (busy (acting lastRead (some (.v 1)))) (0, false, 0x20) = true ∧ invalWaits (busy box) (0, false, 0x20) = false ∧ (busy box).cs.l1 = [] := by
  decide +kernel

/-- A thread group that waits on an unresolved record. -/
def faultWaiting : State :=
  { box.updTg at0 (fun g => { g with phase := .faulted, faults := [⟨0x30000, 0, 1, 0, 0, 0, 1#64⟩] }) with
    contexts := [(0, ⟨0x10000, 0, 0, false, 0, 0, [], ⟨[⟨0x30000, 1, 0, 0, 0, 1, 0, 0, 0, 0, true⟩], false⟩⟩)] }

theorem witness_Translation_faults :
    (faultWaiting.ctx? faultWaiting.host.fqSel.toNat).isSome = true ∧ faultWaiting.cores = [] ∧ faultWaiting.clusters = [] ∧
      (∀ x ∈ faultWaiting.wgs, x.2.stageWait = []) ∧ at0 ∈ ctxTgs faultWaiting 0 ∧ (tgOf faultWaiting).phase = .faulted := by decide +kernel

/-- The last die of the last stack, with the counts at their bounds; 30 requests queued, and 31. -/
def dies (u c n : Nat) : State :=
  { State.reset with mm := { State.reset.mm with uncorr := put 0 [] 191 u, corr := put 0 [] 191 c, mapouts := (List.range n).map fun i => (i / 15, i % 15) } }

theorem witness_MemoryManagement :
    (∀ s ∈ [dies 8 0 30, dies 0 65536 30, dies 7 65535 30], dieTaken s 11 15 = false ∧ lastStack s 11 15 = false ∧ s.mm.mapouts.length = 30) ∧
      (dies 0 0 31).mm.mapouts.length = 31 ∧ 8 ≤ lookD 0 (dies 8 0 30).mm.uncorr 191 ∧ 65536 ≤ lookD 0 (dies 0 65536 30).mm.corr 191 ∧
      lookD 0 (dies 7 65535 30).mm.uncorr 191 < 8 ∧ lookD 0 (dies 7 65535 30).mm.corr 191 < 65536 ∧
      (∀ s ∈ [dies 8 0 30, dies 8 0 2], s.mm.declared = []) ∧ (dieTaken (dies 8 0 2) 0 1 = true) ∧
      dieTaken { dies 8 0 2 with mm := { (dies 8 0 2).mm with mapouts := [(11, 15)], declared := [191] } } 11 15 = true ∧
      (dies 0 0 2).mm.mapouts = (0, 0) :: [(0, 1)] ∧ (dies 0 0 2).mm.diePend = List.replicate 12 0#16 ∧
      ({ dies 0 0 2 with mm := { (dies 0 0 2).mm with mstate := 2, mseg := 15, mstack := 11 } } : State).mm.mstate = 2 ∧
      ({ withLine box codedLine with cs := { (withLine box codedLine).cs with crflush := some 0 } } : State).cs.crflush = some 0 := by decide +kernel

/-! Events: engines, links, the host -/

/-- A copy of 48 bytes from the end of the scratchpad to offset 0x11. -/
def spadCopy : CopyCmd := { suspended with
  words := [0x020000000000FFD0#64, 0x0200000000000011#64, 0#64, 0x0000003000000000#64], phase := .queued, accepted := false, eslot := 0 }

/-- The box with one command on core 0, and words in the scratchpad. -/
def withCopy (x : CopyCmd) : State :=
  (box.setCore 0 { box.core 0 with copyq := [x] }).updWg 0 fun w => { w with spad := [(16372, .of 0x11223344), (16383, .of 0xFFFFFFFF)], deferred := .yes :: w.deferred.tail }

def active : CopyCmd := { spadCopy with accepted := true, phase := .active }
def loaded : CopyCmd := { active with phase := .loaded, buf := ((withCopy active).core 0).copyq.flatMap fun _ =>
  (((nextOf (exec (.copyChunkRead 0 0) (withCopy active))).core 0).entry 0).elim [] (·.buf) }
def deferredCmd (slot : Nat) (neg : Bool) : CopyCmd := { spadCopy with accepted := true, defer := some (slot, neg) }
def peerCmd : CopyCmd := { active with kind := .peer 3, phase := .loaded, words := [0x0200000000000000#64, 0x20000#64, 0#64, 0x0000300000000000#64] }
def tierCmd (n : Nat) : CopyCmd := { active with kind := .prefetch true, words := [0x20000#64, BitVec.ofNat 64 n, 0#64, 0#64] }

theorem witness_CopyEvents_accept :
    let s := withCopy spadCopy
    let bad : CopyCmd := { spadCopy with words := [0x020000000000FFD0#64, 0x0200000000000011#64, 0#64, 0#64] }
    let alloc := s.spadOf 0
    s.wg? 0 = some (wgOf s) ∧ (s.core 0).copyq = [spadCopy] ∧ 1 ≤ shareOf s 0 ∧ alloc = 65536 ∧ spadCopy.fieldOk s (wgOf s) alloc = true ∧
      (spadCopy.ssp, spadCopy.dsp, spadCopy.rows, spadCopy.rowb) = (true, true, 1, 48) ∧ spadCopy.srcSide.within 1 alloc = true ∧
      spadCopy.dstSide.within 1 alloc = true ∧ (s.core 0).chains = [] ∧ spadCopy.idx = [] ∧ bad.fieldOk s (wgOf s) alloc = false ∧ bad.arrv = false ∧
      (tierCmd 1048576).isPrefetch = true ∧ (tierCmd 1048576).length = 1048576 :=
  ⟨wg_of _ (by decide +kernel), by decide +kernel⟩

/-- The head of a queue with a slot resolved to yes, read negated, and one that is unresolved. -/
theorem witness_CopyEvents_head :
    (∀ x ∈ [{ spadCopy with accepted := true }, deferredCmd 0 false, deferredCmd 0 true, deferredCmd 6 false],
      ((withCopy x).core 0).copyq.find? (fun y => y.accepted && y.phase == .queued) = some x) ∧
      ((wgOf (withCopy spadCopy)).deferred[0]?, (wgOf (withCopy spadCopy)).deferred[6]?) = (some .yes, some .unresolved) ∧
      ∀ g ∈ (wgOf (withCopy spadCopy)).tgs, g.phase = .ready := by decide +kernel

theorem witness_CopyEvents_chunks :
    (((withCopy active).core 0).entry 0 = some active ∧ mayRead (withCopy active) 0 active = true ∧ active.chunk = 0 ∧ active.isRaw = false ∧ active.rowb ≤ 4096 ∧
      (active.saddr / 4, (active.saddr + active.rowb - 1) / 4) = (16372, 16383) ∧ (List.range 12).all (fun i => clean [lookD .zero (wgOf (withCopy active)).spad (16372 + i)]) = true ∧
      (withCopy active).strikes = []) ∧
    (((withCopy loaded).core 0).copyq = [loaded] ∧ mayCommit (withCopy loaded) 0 loaded = true ∧ (withCopy loaded).tg? at0 = some (tgOf (withCopy loaded)) ∧ (loaded.csum, loaded.chains) = (0, false) ∧
      (wgOf (withCopy loaded)).takeOn = false ∧ loaded.buf.all (fun b => b.w.passes) = true ∧
      loaded.buf.flatMap BufWord.bytes = ([0x44, 0x33, 0x22, 0x11] ++ List.replicate 40 0 ++ List.replicate 4 0xFF).map fun b => (b, false)) ∧
    (((withCopy peerCmd).core 0).entry 0 = some peerCmd ∧ mayCommit (withCopy peerCmd) 0 peerCmd = true ∧ peerCmd.chunk + 1 < peerCmd.chunks) ∧
    (((withCopy (tierCmd 4097)).core 0).entry 0 = some (tierCmd 4097) ∧ (tierCmd 4097).chunk + 1 < (tierCmd 4097).chunks) ∧
    ((withCopy (tierCmd 4096)).core 0).entry 0 = some (tierCmd 4096) ∧ (tierCmd 4096).chunks ≤ (tierCmd 4096).chunk + 1 :=
  ⟨by decide +kernel, ⟨by decide +kernel, by decide +kernel, tg_of _ (by decide +kernel), by decide +kernel, by decide +kernel, by decide +kernel, by decide +kernel⟩,
    by decide +kernel, by decide +kernel, by decide +kernel, by decide +kernel⟩

/-- The job of Example 7.2 from offset 0 to the end of the scratchpad; its stream cut short. -/
def unpacking (n : Nat) : Job := { job with words := [0x0200000000000000#64, 0x020000000000FFF2#64, BitVec.ofNat 64 (14 * 2 ^ 32 + n), 0#64] }
def withJob (x : Job) : State :=
  (box.setCluster 0 { box.cluster 0 with jobs := [x] }).updWg 0 fun w =>
    { w with spad := [(0, .of 0x43424102), (1, .of 0x2D000158), (2, .of 0xC00048)] }

theorem witness_CopyEvents_jobs :
    let x := unpacking 11
    let finished (st : Nat) : Job := { x with accepted := true, phase := .finished, status := st }
    (∀ y ∈ [x, { x with accepted := true }, { x with accepted := true, phase := .active }, { unpacking 10 with accepted := true, phase := .active }, finished 0, finished 8],
        ((withJob y).cluster 0).jobs = [y] ∧ ((withJob y).wg? 0).isSome = true ∧ ((withJob y).tg? at0).isSome = true) ∧
      (withJob x).engineWaits at0 x.id true false = false ∧ (withJob x).strikes = [] ∧ x.stream = none ∧
      x.check ((withJob x).spadOf 0) = 0 ∧ (x.ssp, x.dsp, x.slen, x.olen, x.arrv, x.saddr) = (true, true, 11, 14, false, 0) ∧
      (List.range 3).all (fun i => clean [lookD .zero (wgOf (withJob x)).spad i]) = true ∧
      (match decompress 14 (spadBytes (wgOf (withJob x)) 0 11) with | .ok out => out.length == 14 | .error _ => false) = true ∧
      (match decompress 14 (spadBytes (wgOf (withJob x)) 0 10) with | .ok _ => false | .error c => c == 8) = true := by decide +kernel

/-- An `MMA` of one inner position over a tile of two row blocks, its operands in scratchpad. -/
def spadTensor : Tensor := { tensor16 with dw0 := 0x0A00000000000000#64 }
def product : MatOp := { operation with
  kind := .mma, tile := some ⟨32, 16, .f32, [0]⟩, ta := spadTensor, tb := spadTensor, args := [0, 0, 0, 1], state := 1, cause := 0, point := 0, stage := 0 }
def computing (o : MatOp) (busy : Nat) : State := box.setCore 0 { box.core 0 with matq := [o], busy := busy }

theorem apart_small (els : List (Nat × Nat)) (h : ∀ x ∈ els, x.1 < 32 ∧ x.2 < 16) : apart ⟨32, 16, .f32, [0]⟩ els := by
  intro x hx y hy j k hj hk he
  have h1 := h x hx
  have h2 := h y hy
  simp only [Tile.wordAt, accWords] at hj hk he
  have e1 : (x.1 * 16 + x.2) * 1 + j < 4096 := by omega
  have e2 : (y.1 * 16 + y.2) * 1 + k < 4096 := by omega
  rw [Nat.div_eq_of_lt e1, Nat.div_eq_of_lt e2, Nat.mod_eq_of_lt e1, Nat.mod_eq_of_lt e2] at he
  exact ⟨Prod.ext (by omega) (by omega), by omega⟩

theorem witness_MatrixEvents :
    let s := computing product 63
    let fetches (ps : List Place) : Bool := match fetchPlaces s (product.eng s 0) ps with | (t, f) => t == s && f.fail.isNone && f.waits.isEmpty
    (headMat s 0 = some product ∧ s.wg? 0 = some (wgOf s) ∧ product.gang = none ∧ s.stops (wgOf s) = false ∧ ((s.core 0).busy, (s.core 0).bound) = (63, 64)) ∧
      (fetches product.leftPlaces && fetches (product.rightPlaces ⟨32, 16, .f32, [0]⟩)) = true ∧ accFails s product = false ∧ s.strikes = [] ∧
      product.advance.complete = false ∧
      apart ⟨32, 16, .f32, [0]⟩ (product.stepRows.flatMap fun i => (product.stepCols ⟨32, 16, .f32, [0]⟩).map fun j => (i, j)) :=
  ⟨⟨by decide +kernel, wg_of _ (by decide +kernel), by decide, by decide +kernel, by decide +kernel⟩, by decide +kernel, by decide +kernel, by decide +kernel,
    by decide +kernel, apart_small _ (by decide +kernel)⟩

/-- A barred step, `MZRO` and `MREL` at the head, and a gang member that has waited 2^30 counts. -/
theorem witness_MatrixEvents_others :
    let zero : MatOp := { product with kind := .mzro }
    let rel : MatOp := { operation with kind := .mrel, state := 1 }
    let late : State := { (box.setCluster 0 { box.cluster 0 with latch := [⟨at0, [(0, 0), (1, 0)], [at0, ⟨1, 0⟩], product, 0⟩] }) with clock := 0x40000000#64 }
    headMat (computing product 64) 0 = some product ∧ headMat (computing zero 0) 0 = some zero ∧ zero.nextBlock.complete = false ∧
      apart ⟨32, 16, .f32, [0]⟩ (zero.block ⟨32, 16, .f32, [0]⟩) ∧ headMat (computing rel 0) 0 = some rel ∧ rel.guardD = none ∧
      (((computing rel 0).tg? at0).map fun g => (g.matNext, g.matDone)) = some (rel.num, []) ∧
      ((late.tg? at0).map fun g => (g.matNext, g.matDone, g.debug == .off)) = some (product.num, [], true) ∧ (late.cluster 0).latch.map (·.since) = [0] ∧ 0 + 2 ^ 30 ≤ late.clock.toNat :=
  ⟨by decide +kernel, by decide +kernel, by decide +kernel, apart_small _ (by decide +kernel), by decide +kernel, rfl, by decide +kernel, by decide +kernel,
    by decide +kernel, by decide +kernel⟩

/-- A flit that holds its CRC, and one that does not; a link with seven failures, and with eight. -/
def goodFlit : Flit :=
  let f : Flit := ⟨List.replicate 48 .zero, List.replicate 32 0#8, 0#64⟩
  { f with crc := crc64 (flitBytes f) }
def meshed (fails : Nat) : State := { State.reset with dfs := { State.reset.dfs with mesh := [(10, ⟨fails, [], false⟩)] } }

theorem witness_LinkEvents_mesh : flitOk goodFlit = true ∧ flitOk ⟨[], [], 0#64⟩ = false ∧ goodFlit.words.all CWord.passes = true :=
  ⟨by simp [flitOk, goodFlit, flitBytes], by decide, by decide +kernel⟩

theorem witness_LinkEvents_fails :
    (lookD ⟨0, [], false⟩ (meshed 7).dfs.mesh 10).fails = 7 ∧ (lookD ⟨0, [], false⟩ (meshed 8).dfs.mesh 10).fails = 8 := by decide +kernel

/-- Peer 15 over link 17, bound to context 0, with a page of host memory at hand. -/
def linked17 : State :=
  { box with
    cs := { box.cs with tlb := [⟨noCore, 0, 32, 0x800000002001F, 0⟩] }
    host := { box.host with peers := box.host.peers.set 15 ⟨true, 0x20000#18, 0#16, 0#14⟩, links := box.host.links.set 17 ⟨true, 2, 254#8, 0#16⟩ } }

theorem witness_LinkEvents_frame :
    let f : Sys2Proof.Frame := ⟨15, 0x2007C#57, [.of 0x55], true⟩
    (linked17.host.peers[f.peer.toNat]?).map (fun p => (p.valid, p.links.getLsbD 17)) = some (true, true) ∧ (linked17.host.links[17]?).map (·.state) = some 2 ∧
      (linked17.ctx? 0).isSome = true ∧ f.words ≠ [] ∧ clean f.words = true ∧ f.va.toNat % 128 + 4 ≤ 128 ∧
      (match translate linked17 noCore 0 false 5 f.va.toNat 4 with | (t, .to pa .host none) => t == linked17 && pa == 0x800000002007C | _ => false) = true := by
  decide +kernel

theorem witness_LinkEvents_states :
    let down : State := { linked17 with host := { linked17.host with links := linked17.host.links.set 17 ⟨true, 1, 0#8, 0#16⟩ }, unit := 17 }
    (down.host.links[17]?).map (·.state) = some 1 ∧ down.unit = 17 ∧ ({ linked17 with unit := 17 } : State).unit = 17 ∧
      (linked17.host.links[17]?).map (·.retrains) = some 254#8 ∧ linked17.cores = [] := by decide +kernel

/-- The last eight bytes of a line through the window; room for a report of any length that is not beyond host memory. -/
theorem witness_HostAccesses :
    let s := { withLine State.reset (wholeLine State.reset 0x2007C) with host := { State.reset.host with winBase := 0x20000#64 } }
    let pa := s.host.winBase.toNat + (0x78#36).toNat
    isMain pa = true ∧ pa % 128 + 8 ≤ 128 ∧ lineAt s pa = some (wholeLine State.reset 0x2007C) ∧ clean (wholeLine State.reset 0x2007C).words = true ∧
      2 ^ 51 ≤ (0x8000000000000#64).toNat ∧ (0x8000000000000#64).toNat + 2 ^ 51 ≤ 2 ^ 52 := by decide +kernel

/-! Events: launches, workgroups, contexts, takes, defences, power -/

/-- A call sheet at 0x20000 in a page of host memory, and the entry of queue 0 that names it, at the top of host memory. -/
def queued : State :=
  let dw (m : Memory) (a x : Nat) : Memory := wrWords m a (wordsOf 64 x)
  let ext : Nat := 1 + 2 ^ 21 + 2 ^ 42
  let m := [(0xFFFFFFFFFFFF0, 0x20000), (0x8000000020068, 18), (0x8000000020060, ext), (0x8000000020058, 1), (0x8000000020050, ext),
    (0x8000000020040, ext + 15), (0x8000000020030, 0x492492492492), (0x8000000020028, 0x10000), (0x8000000020020, 256 + 1024 * 2 ^ 9),
    (0x8000000020010, 0x20F00), (0x8000000020008, 0x20000), (0x8000000020000, 0x30001)].foldl (fun m x => dw m x.1 x.2) []
  { State.reset with
    mm := { State.reset.mm with bytes := m }
    cs := { State.reset.cs with tlb := [⟨noCore, 0, 32, 0x800000002001F, 0⟩] }
    contexts := [(0, ⟨0x10000, 0, 0, false, 0, 0, [], ⟨[], false⟩⟩)]
    host := { State.reset.host with queues := State.reset.host.queues.set 0 ⟨0xFFFFFFFFFFF00#64, 4, 0xF#32, 0x10#32⟩ } }

theorem witness_LaunchEvents_accept :
    let q := queued.queue 0
    let s0 := queued.setQueue 0 { q with head := q.head + 1#32 }
    (queued.host.pwrState, queued.host.bootStatus) = (0#2, 0#16) ∧ q.head ≠ q.tail ∧ isHost 0xFFFFFFFFFFFF0 = true ∧
      q.base.toNat + 16 * (q.head.toNat % 2 ^ q.log) = 0xFFFFFFFFFFFF0 ∧ hostDw queued 0xFFFFFFFFFFFF0 = 0x20000 ∧ hostDw queued 0xFFFFFFFFFFFF8 = 0 ∧
      (queued.ctx? 0).map (·.part) = some 0 ∧
      (match readCall s0 noCore 0 true 0 (ioRead 0) 0x20000 with
        | (t, .words ws im) => decide (t = s0) && callStatus s0 ws im == 0
        | _ => false) = true := by decide +kernel

/-- A launch of one workgroup, owned by die 5, and one whose only unit another die owns. -/
def launching (owner : Nat) : State :=
  { box with wgs := [], launches := [(0, ⟨loaderSheet, 0, 0, true, 0, none, [(0, owner)], 1, 0#8, 0, [], 384, 768⟩)] }

theorem witness_LaunchEvents_place :
    let hint : PlaceHint := ⟨383, [0]⟩
    (servedBy (launching 5) 5).isSome = true ∧ ((launching 5).launch? 0).isSome = true ∧
      (loaderSheet.coop, loaderSheet.takes, loaderSheet.mirror, loaderSheet.ranks) = (false, false, false, 1) ∧ coopBars (launching 5) 0 = false ∧
      (((launching 5).launch? 0).bind fun l => (l.owned 5).min?) = some 0 ∧ dieOf hint.core = 5 ∧ (spotOn (launching 5) loaderSheet false hint).isSome = true ∧
      (spotOn (launching 5) loaderSheet false ⟨384, [0]⟩).isNone = true := by decide +kernel

theorem witness_LaunchEvents_steal_and_end :
    let s : State := { launching 3 with unit := 5 }
    let t : State := { box with launches := [(0, ⟨boxSheet, 0, 0, true, 0, none, [], 0, 3#8, 1, [], 384, 768⟩)] }
    s.unit ∈ liveDies s ∧ (servedBy s 5).map (·.1) = some 0 ∧ ((s.launch? 0).map fun l => (l.owned 5, l.refused.contains 5)) = some ([], false) ∧
      (t.launch? t.unit).map (·.unitsLeft) = some 0 ∧ t.cs.l1 = [] ∧ (box.launch? box.unit).map (·.unitsLeft) = some 1 := by decide +kernel

/-- A staged workgroup: one region of 128 bytes from host memory to the last granules, or none, in a phase of its life. -/
def stagedSheet (rs : List Region) : Sheet := { boxSheet with staged := true, regions := rs }
def region1 : Region := ⟨0x30000, true, 128, 0xFF80⟩
def staged (rs : List Region) (ph : WgPhase) : State :=
  let s : State := { box with
    cs := { box.cs with tlb := [⟨0, 0, 48, 0x800000003001F, 0⟩, ⟨384, 0, 48, 0x800000003001F, 0⟩] }
    launches := [(0, ⟨stagedSheet rs, 0, 0, true, 0, none, [], 1, 0#8, 0, [], 384, 768⟩)] }
  s.updWg 0 fun w => { w with phase := ph, points := [] }

theorem witness_WorkgroupEvents_stage :
    let s := staged [region1] .staging
    (∀ s ∈ [staged [] .staging, staged [region1] .staging, staged [] .writeback, staged [region1] .writeback, staged [{ region1 with wb := false }] .writeback, staged [] .placed],
      (s.wg? s.unit).isSome = true ∧ (s.sheetOf (wgOf s)).isSome = true ∧ s.stops (wgOf s) = false ∧ (wgOf s).stageWait = [] ∧ (wgOf s).region = 0 ∧ (wgOf s).cursor = 0 ∧
        (wgOf s).held = [] ∧ (wgOf s).takeOn = false ∧ (wgOf s).points = [] ∧ (wgOf s).spad = [] ∧ s.strikes = []) ∧
      ∀ w ∈ [true, false], (match sidePieces s (stageEng s 0 (wgOf s)) (region1.memSide w) 0 128 with
        | (t, [.ok p]) => decide (t = s ∧ (p.o, p.n, p.va, p.pa, p.page) = (0, 128, 0x30000, 0x8000000030000, .host)) && p.coded.isNone && p.raw.isNone
        | _ => false) = true := by decide +kernel

/-- A workgroup whose threads have all exited, still running and then finishing; one that still runs. -/
def exited (ph : WgPhase) (rs : List Region) : State :=
  (staged rs ph).updWg 0 fun w => { w with status := 3#8, tgs := w.tgs.map fun g =>
    { g with phase := .ended, active := false, threads := g.threads.map fun t => { t with status := .exited } } }

theorem witness_WorkgroupEvents_end :
    (wgOf (exited .running [])).quiet = true ∧ (wgOf (exited .finishing [])).phase = .finishing ∧ (wgOf (staged [] .running)).quiet = false ∧
      (stagedSheet []).staged = true ∧ ((exited .finishing []).launch? (wgOf (exited .finishing [])).launch).isSome = true ∧
      ∀ g ∈ (wgOf (exited .finishing [])).tgs, g.ops = [] := by decide +kernel

/-- Eight thread groups in the active set of pipe 0, and a ninth that has waited 2,276 counts. -/
def crowded : State :=
  let tg (i : Nat) : Tg := { Tg.fresh loaderSheet 0 i 0 false with active := decide (i < 8), order := i, readySince := i }
  { (box.updWg 0 fun w => { w with tgs := (List.range 33).map fun i => { tg (i / 4) with active := decide (i < 32), readySince := i } }) with clock := 2308#64 }

theorem witness_WorkgroupEvents_rotation :
    longestActive crowded 0 0 = some at0 ∧ (crowded.onPipe 0 0).length = 9 ∧
      8 ≤ (crowded.activeOn 0 0).length ∧ starvedTg crowded 0 0 = true ∧ oldest crowded (crowded.pendingOn 0 0) = some ⟨0, 32⟩ ∧
      (tgOf crowded).shot.active = false ∧ (tgOf crowded).phase = .ready := by decide +kernel

/-! Contexts, takes, defences, power -/

/-- The box as the host sees it: four contexts, their descriptors and save areas in host memory. -/
def hosted (size : Nat) (cmd : Option CtxCmd) : State :=
  { box with
    contexts := [(0, ⟨0x10000, 0, 0, false, 0x8000000100000, size, [], ⟨[], false⟩⟩)]
    host := { box.host with ctxCnt := 4#16, ctxBase := 0x8000000000000#64, cmd := cmd } }

/-- Its thread group 0 stopped: in a shot, or at a boundary. -/
def stopped (shot : Bool) : State := (hosted 0 none).updTg at0 fun g =>
  { g with debug := .stopped, shot := { g.shot with active := shot }, threads := g.threads.set 1 { Thread.fresh 0x20000 with status := .exited } }

/-- The pre-emption of its unit, requested at time 0. -/
def saving (super : Bool) (clock : Nat) : State :=
  let s : State := { hosted 0x10000000 (some ⟨3, 0, 0, 0, 0, 0⟩) with clock := BitVec.ofNat 64 clock }
  let t := [0, 1].foldl (fun s n => s.updWg n fun w => { w with preempt := true, tgs := w.tgs.map fun g => { g with super := super } }) s
  { t with cores := [], clusters := [] }

theorem witness_ContextCommands :
    let s := hosted (4096 + 2 * 0x02900000) none
    ((hosted 0 (some ⟨3, 0, 0, 0, 0, 0⟩)).host.cmd.isSome = true) ∧
      s.host.cmd = none ∧ (s.host.ctxCnt = 4#16) ∧ isHost (s.host.ctxBase.toNat + 64 * 3) = true ∧ (s.ctx? 3).isNone = true ∧ (s.ctx? 0).isSome = true ∧
      (tgAt s 3 0 0).isNone = true ∧ tgAt s 0 0 1 = some ⟨0, 1⟩ ∧ tgAt s 0 1 0 = some ⟨1, 0⟩ ∧ ((s.tg? at0).map (·.debug) = some .off) ∧
      ([true, false].all fun b => tgAt (stopped b) 0 0 0 == some at0 && (tgOf (stopped b)).debug == .stopped && (tgOf (stopped b)).shot.active == b &&
        (tgOf (stopped b)).serial.isNone && (tgOf (stopped b)).brk.isNone) = true ∧
      (((tgOf (stopped false)).threads.take 2).map (·.status) = [.ready, .exited]) ∧ (tgOf (stopped false)).choose.isSome = true ∧
      ((s.wgs.find? fun y => y.2.saveable && s.ctxOf y.2 == 0 && y.2.core == 1 && y.2.tgs.any fun g => g.slot == 1).map (·.1) = some 1) ∧
      ((s.wg? 1).map fun w => (unitOf s w).map (·.1)) = some [0, 1] ∧ ((s.ctx? 0).map (·.saveSize) = some (0 + 4096 + 0x02900000 * 2)) ∧
      (((hosted 0x0520FFF none).ctx? 0).map fun c => decide (c.saveSize < 4096 + 0x02900000 * 2)) = some true := by decide +kernel

theorem witness_SaveAndRestore_save :
    ([(true, 0), (true, 1000000), (false, 0)].all fun x =>
      let s := saving x.1 x.2
      match preempting s with
      | none => false
      | some (ctx, c, ws) => ctx == 0 && anySuper ws == x.1 && ws.all (fun y => decide (y.2.preemptSince + 1000000 ≤ s.clock.toNat) == (x.2 == 1000000)) &&
          ws.map (·.1) == [0, 1] && ws.all (fun y => s.wg? y.1 == some y.2 && y.2.tgs.all fun g => g.ops.isEmpty) &&
          s.cores.isEmpty && s.clusters.isEmpty && s.cs.l1.isEmpty && isHost (imageAddr s c)) = true := by decide +kernel

/-- An image of workgroup 0, valid or not, and a place for it on core 383. -/
def restoring (valid : Nat) : State :=
  let s := hosted 0x10000000 none
  let m := wrWords s.mm.bytes 0x8000000100000 (wordsOf 64 (valid * 2 ^ 63 + 1))
  let w : Wg := { boxWg 0 with phase := .saved }
  { s with mm := { s.mm with bytes := m }, wgs := [(0, w)], images := [⟨0, 0x8000000100000, 0, [(0, .running)], [], [], [], [], [], []⟩] }

theorem witness_SaveAndRestore_restore :
    let s := restoring 1
    s.host.cmd = none ∧ ((s.ctx? 0).map (imageAddr s) = some 0x8000000100000) ∧ isHost 0x8000000100000 = true ∧ hostDw s 0x8000000100000 = 2 ^ 63 + 1 ∧
      (hostDw (restoring 0) 0x8000000100000).testBit 63 = false ∧ s.sheetOf (boxWg 0) = some boxSheet ∧ (boxWg 0).mirrored = false ∧
      (spotOn s boxSheet false ⟨383, [0, 1]⟩).isSome = true ∧ (wgOf s).badWords = 0 ∧ (s.core 383).copyq = [] ∧ (s.core 383).matq = [] ∧ s.cs.l1 = [] := by
  decide +kernel

/-- Two takes of the box's workgroup, in clusters 0 and 1, each with held writes, a signature and a commit point. -/
def takes (held : List Acc) (x0 x1 : BitVec 64 × List CommitPt) : State :=
  let w : Wg := { boxWg 0 with takeOn := true, held := held }
  { box with wgs := [(0, { w with sig := x0.1, points := x0.2 }), (1, { w with take := 1, core := 8, sig := x1.1, points := x1.2 })] }

theorem witness_TakeEvents_points :
    let heldStore : Acc := { hostAcc .store with done := true }
    let p (b : CommitBy) : CommitPt := ⟨b, 0⟩
    ([takes [] (7#64, [p .exits]) (7#64, [p .exits]), takes [] (7#64, [p .engine]) (8#64, [p .engine]), takes [] (7#64, [p (.tg 0)]) (7#64, [p .exits]),
        takes [heldStore] (7#64, [p .writeback, p .exits]) (7#64, [p .writeback]), takes [] (7#64, [p (.tg 0)]) (7#64, []),
        { takes [] (7#64, [p (.tg 0)]) (7#64, []) with clock := BitVec.ofNat 64 (2 ^ 30) }].all fun s =>
      ((takesOf s s.unit).map fun x => (x.1, x.2.1, x.2.2.1 == wgOf s, s.wg? 1 == some x.2.2.2)) == some (0, 1, true, true)) = true ∧
      (heldStore.page, heldStore.coded.isNone) = (.host, true) := by decide +kernel

/-- Thread group 0 with a store that waits for an entry; the commit point stands. -/
def rushing : State :=
  (takes [] (7#64, [⟨.tg 0, 0⟩]) (7#64, [])).updTg at0 fun g =>
    g.launchOp { MemOp.blank with accs := [mkAcc 0 .store 0x2007C 4 0x2007C .rc none [.of 5] []], scope := .wg, gated := 1, counts := true, performed := false }

theorem witness_TakeEvents_entry :
    let s := rushing
    (wgOf s).takeOn = true ∧ (((tgOf s).ops.find? fun o => o.gated != 0 && !o.performed).map fun o => o.accs.filter fun a => a.isHeld && !a.done) = some (theOp s).accs ∧
      (theOp s).accs ≠ [] ∧ scopeNo (theOp s).scope < 3 ∧ rushesRoom s (wgOf s) (theOp s).accs = true := by decide +kernel

/-- The last word of a line added to by both takes, with equal operands or not. -/
def pairing (x : Word) : State :=
  let s := acting lastAdd none
  let other := acting { lastAdd with data := [.of x] } none
  { s with wgs := [(0, { wgOf s with takeOn := true }), (1, { wgOf other with takeOn := true, take := 1, core := 8 })] }

theorem witness_TakeEvents_atomics :
    ([5, 6].all fun x =>
      let s := pairing x
      let b : Acc := { lastAdd with data := [.of x] }
      let o := theOp s
      let p : MemOp := { o with accs := [b] }
      pending? s lastAdd && (takesOf s 0).isSome && (wgOf s).take == 0 && (firstAt (wgOf s) lastAdd).contains (0, o, 0, lastAdd) && lastAdd.isAtomic && o.gated == 0 &&
        ((s.wg? 1).map fun w => firstAt w lastAdd) == some [(0, p, 0, b)] && alike o p lastAdd b == (x == 5)) = true := by decide +kernel

/-- Reset with a core that has had three rebuilds of its cluster, or a fenced one; the unit of the turn. -/
def rebuilt : State := State.reset.setCluster 47 { State.reset.cluster 47 with rebuilds := [0, 0, 0] }
def fencedCore (ws : List (Nat × Wg)) : State := { State.reset.setCore 383 { State.reset.core 383 with fenced := true } with unit := 383, wgs := ws }
def tested (d : Daily) (clock : Nat) : State :=
  { State.reset with clock := BitVec.ofNat 64 clock, dfs := { State.reset.dfs with dailyEn := true, dailies := [d] } }

theorem witness_DefenceEvents :
    let u : TestUnit := .core 383 7
    let d := Daily.fresh u
    (rebuilt.wgs = [] ∧ 3 ≤ countIf (rebuilt.cluster 47).rebuilds (fun x => decide (rebuilt.clock.toNat < x + 2 ^ 30)) ∧ (State.reset.logs.map (·.recs.length)) = List.replicate 8 0) ∧
      unitKnown u = true ∧ d.target = u ∧ d.running = false ∧ dailyOf (tested d 0) u = d ∧ unitIdle (tested d 0) u = true ∧ d.last = none ∧
      dailyOf (tested { d with last := some 0 } 999999) u = { d with last := some 0 } ∧ 999999 < 0 + max 1 (tested d 0).dfs.dailyPeriod.toNat * 1000000 ∧
      dailyOf (tested { d with running := true, history := [true, true] } 0) u = { d with running := true, history := [true, true] } ∧
      3 ≤ countIf ((true :: [true, true]).take 8) id ∧
      ([[], [(0, { boxWg 0 with core := 383 })]].all fun ws => (fencedCore ws).unit == 383 && ((fencedCore ws).core 383).fenced && !((fencedCore ws).core 383).out &&
        (fencedCore ws).wgs.all fun x => x.2.core == 383 && x.2.resident) = true ∧
      State.reset.dfs.wear.length = 7 := by decide +kernel

theorem witness_PowerEvents :
    (let s : State := { State.reset with host := { State.reset.host with pwrReq := true } }
     s.host.pwrState = 0#2 ∧ s.launches = [] ∧ ∀ q ∈ s.host.queues, q.head = q.tail) ∧
      box.launches ≠ [] ∧ (let s : State := { box with wgs := [(0, boxWg 0)] }; (wgOf s).takeOn = false ∧ (wgOf s).phase = .running) ∧
      State.reset.wgs = [] ∧ State.reset.unit < 7 := by decide +kernel

/-! The general statements of the events: one state and operands for each clause -/

theorem witness_HomeAccesses_general :
    let take (s : State) : State := s.updWg 0 fun w => { w with takeOn := true }
    (pending? (take (acting lastRead (some (.v 1)))) lastRead && pending? (acting codedStore none) codedStore &&
        pending? (take (acting (hostAcc .load) none)) (hostAcc .load)) = true ∧
      homeHits (acting lastRead none) 0x20000 (2 ^ 128 - 1) = false ∧ fills (acting lastRead none) 0 0x2007C = true ∧ lastRead.isHeld = false ∧
      codedStore.coded.isSome = true := by decide +kernel

/-- An `MMA` alone in its gang, an `MLDA` and an `MSTA` at the head that reach the last element of their tensor. -/
def moving (k : MatKind) : MatOp := { product with kind := k, ta := { spadTensor with dw0 := 0x0A00000000000000#64 }, args := [15, 15] }

theorem witness_MatrixEvents_general :
    let t : Tile := ⟨32, 16, .f32, [0]⟩
    let s (o : MatOp) : State := computing o 0
    let ok (o : MatOp) (ps : List Place) : Bool := match fetchPlaces (s o) (o.eng (s o) 0) ps with | (_, f) => f.fail.isNone && f.waits.isEmpty
    (gangReady (s product) product ((s product).fellowsOf 0 product) && !stepHeld (s product) product &&
        (match fetchLefts (s product) [(0, product)] with | (u, _, r) => r.isNone && (stepFailure u [(0, product)]).isNone)) = true ∧
      (governed ((computing product 64).core 0) && !governed ((s product).core 0)) = true ∧
      (headMat (s (moving .mlda)) 0 == some (moving .mlda) && ok (moving .mlda) ((moving .mlda).loadPlaces t)) = true ∧
      (let o := moving .msta
       let w := wgOf (s o)
       let els := o.storeEls t w
       headMat (s o) 0 == some o && els.all (fun x => x.1.all CWord.passes) && ok o (o.storePlaces els) &&
         (match fetchPlaces (s o) (o.eng (s o) 0) (o.storePlaces els) with
          | (u, f) =>
            let bytes := o.storeBytes f (o.storeCodes t f els)
            match placeStore u (o.eng (s o) 0) o.ta (byteRuns (bytes.map (·.va))) with
            | (v, ps) => (gather ps).1.isNone && (gather ps).2.1.isEmpty &&
              (storeBlock v (o.eng (s o) 0) (gather ps).2.2 (bytes.map fun b => (BitVec.ofNat 8 b.val, b.bad))).isSome)) = true := by decide +kernel

theorem witness_LinkEvents_general :
    let f : Sys2Proof.Frame := ⟨15, 0x2007C#57, [.of 0x55], true⟩
    carries linked17 17 15 = true ∧ (checkIn linked17 6 (0x800 + 17) 0 noCore 0 f.words) = (linked17, f.words) ∧
      (match placeAll linked17 (fun s x => placeBytes s ⟨⟨0, 0⟩, noCore, 0, 0, false, 6⟩ 5 (fun _ => true) x.1 x.2 (x.1 - 0x2007C)) (lineSplit 0x2007C 4) with
       | (_, ps) => (gather ps).1.isNone && (gather ps).2.1.isEmpty) = true := by decide +kernel

theorem witness_HostAccesses_general : (findReg 0x70000).isSome = true ∧ (findReg 0xA0300).isSome = true ∧ 0xA0300 % 8 = 0 := by decide +kernel

theorem witness_LaunchEvents_general :
    let hint : PlaceHint := ⟨383, [0]⟩
    (match ioWords (queued.setQueue 0 { queued.queue 0 with head := 0x10#32 }) 0 0xFFFFFFFFFFFF0 4 with
      | (t, ws) => sound ws && (dwsFrom ws).getD 0 0 % 1024 == 0 && (t.ctx? 0).map (·.part) == some 0 && !sound [CWord.poisoned 0#32]) = true ∧
      (((launching 5).launch? 0).bind fun l => placeNext (launching 5) 5 0 l [hint] []).isSome = true ∧
      ((let s : State := { launching 3 with launches := [(0, ⟨loaderSheet, 0, 0, true, 0, none, [(0, 3), (1, 3)], 2, 0#8, 0, [], 384, 768⟩)] }
        (s.launch? 0).bind fun l => (((liveDies s).drop 6 ++ (liveDies s).take 5).filter (· != 5)).find? fun k => decide (2 ≤ (l.owned k).length)) = some 3) := by
  decide +kernel

theorem witness_WorkgroupEvents_general :
    (let s := staged [region1] .staging
     let a := stageEng s 0 (wgOf s)
     match sidePieces s a (region1.memSide false) 0 128 with
     | (s1, src) => match readPieces s1 a (gather src).2.2 with
       | (s2, buf) => (gather src).1.isNone && (gather src).2.1.isEmpty && s2.strikes.isEmpty && (drainBuf s2 a buf).2.all fun b => !b.2) = true ∧
    (let s := staged [region1] .writeback
     let a := stageEng s 0 (wgOf s)
     match sidePieces s a (region1.memSide true) 0 128, sidePieces s a (region1.spadSide false) 0 128 with
     | (_, dst), (s2, src) => match readPieces s2 a (gather src).2.2 with
       | (s3, buf) => (gather dst).1.isNone && (gather dst).2.1.isEmpty && s3.strikes.isEmpty &&
         (engineWrite (drainBuf s3 a buf).1 a (gather dst).2.2 0 (drainBuf s3 a buf).2).isSome) = true := by decide +kernel

theorem witness_CopyEvents_general :
    let read := withCopy active
    let a := active.eng 0
    ((takeEntry (withCopy spadCopy) 0 0).map fun x => x.1 == { spadCopy with accepted := true }) = some true ∧
      (match sidePieces read a active.srcSide 0 48, sidePieces read a active.dstSide 0 48 with
       | (_, src), (s2, dst) => (gather (src ++ dst)).1.isNone && (gather (src ++ dst)).2.1.isEmpty && !unlikeB src dst &&
         uncorrTotal (readPieces s2 a (gather src).2.2).1 ≤ uncorrTotal s2) = true ∧
      (match sidePieces (withCopy loaded) a loaded.dstSide 0 48 with
       | (s1, dst) => (gather dst).1.isNone && (gather dst).2.1.isEmpty &&
         (engineWrite (drainBuf s1 a loaded.buf).1 a (gather dst).2.2 0 (drainBuf s1 a loaded.buf).2).isSome) = true ∧
      (withCopy peerCmd).strikes = [] := by decide +kernel

theorem witness_CopyEvents_job_general :
    let x : Job := { unpacking 11 with accepted := true, phase := .active }
    let s := withJob x
    deferState (wgOf s) none = .yes ∧ deferState (wgOf (withCopy spadCopy)) (some (0, true)) = .no ∧
      (match sidePieces s x.eng x.srcSide 0 11 with
       | (s1, src) => match readPieces s1 x.eng (gather src).2.2 with
         | (s2, buf) => match decompress 14 (buf.flatMap BufWord.bytes), sidePieces s2 x.eng x.dstSide 0 14 with
           | .ok out, (s3, dst) => (gather src).1.isNone && (gather src).2.1.isEmpty && (gather dst).1.isNone && (gather dst).2.1.isEmpty && s2.strikes.isEmpty &&
               (engineWrite s3 x.eng (gather dst).2.2 0 (out.map fun b => (b, false))).isSome
           | _, _ => false) = true := by decide +kernel

theorem witness_SaveAndRestore_general :
    ((preempting (saving false 0)).map fun x => midChunk (saving false 0) x.2.2) = some false ∧
      (let s := restoring 1
       mayRestore s 0 = true ∧ (match ioWords s 0 0x8000000100000 2 with
         | (s1, ws) => sound ws && ((dwsFrom ws).getD 0 0).testBit 63 && s1.images.length == 1) = true ∧ (lostWords s 0 0x8000000100000 1).2 = [] ∧
         (s.images.head?.bind fun im => restoreUnit s im [⟨383, [0, 1]⟩]).isSome = true) := by decide +kernel

/-- One take at a commit point, the other at an atomic that the first has not sent; a pair of points that match. -/
theorem witness_TakeEvents_general :
    let s := pairing 5
    let alone : State := s.updWg 0 fun w => { w with points := [⟨.tg 0, 0⟩], tgs := w.tgs.map fun g => { g with ops := [] } }
    ((alone.wg? 1).map fun x => stranded (wgOf alone) x) = some true ∧
      (takesOf (s.updWg 0 fun w => { w with take := 0 }) 0).isSome = true := by decide +kernel

/-- A thread group with an `LDA` in flight, and one with a load of the last decoded region in flight. -/
def behindLda : State := once.updTg at0 fun g =>
  { g with ops := [{ MemOp.blank with performed := false, acquire := some .device }], nextOp := 1 }
def behindLoad : State := once.updTg at0 fun g =>
  let a := mkAcc 0 .load 0x30000 4 0x30000 .rc (some ⟨(envAt once h0).ctx, 63, 0, ⟨false, false, false, 0, 0, 0, 1, 0⟩⟩) [] []
  { g with ops := [{ MemOp.blank with accs := [a] }], nextOp := 1 }

theorem witness_SpecialWrites_waits :
    (∀ s ∈ [behindLda, behindLoad], ready? s (srPlan 0x058 (.imm 127#32)) = true ∧ snapshotWaits s (srPlan 0x058 (.imm 127#32)) = true) ∧
      (∀ o ∈ (envAt behindLda h0).g.ops, o.id < (envAt behindLda h0).g.nextOp ∧ o.performed = false ∧ o.acquire.isSome = true) ∧
      (∀ o ∈ (envAt behindLoad h0).g.ops, ∀ a ∈ o.accs, a.done = false ∧ (a.coded.map fun t => (t.ctx, t.ix)) = some ((envAt behindLoad h0).ctx, 63)) := by
  decide +kernel

/-- A launch of two takes that die 5 owns: take 1 belongs on die 0. -/
theorem witness_LaunchEvents_takes :
    let s : State := { launching 5 with launches := [(0, ⟨{ loaderSheet with takes := true }, 0, 0, true, 0, none, [(0, 5)], 1, 0#8, 0, [], 384, 768⟩)] }
    (servedBy s 5).map (·.1) = some 0 ∧ 5 ∈ liveDies s ∧ loaderSheet.coop = false ∧ loaderSheet.domain ≠ 4 ∧ nextLive s 5 = 0 ∧
      ((liveDies s).drop 6 ++ (liveDies s).take 6).headD 0 = 0 ∧
      (((s.launch? 0).bind fun l => placeNext s 5 0 l [⟨383, [0]⟩] [⟨0, [0]⟩]).isSome = true) ∧
      (((s.launch? 0).bind fun l => placeNext s 5 0 l [⟨383, [0]⟩] [⟨64, [0]⟩]).isNone = true) := by decide +kernel

end Sys2Proof.Tests
end

section
/-! Special registers: the snapshot of a coded region's error counters (R78, R79), and the refutation of O42. -/

namespace Sys2Proof.Proofs

open Sys2Proof.Machine Sys2Proof.Safety

/-! ### What retirement leaves of a latched sum -/

/-- The error sum that a thread group has latched in `sr.crsum`. -/
def latchedSum (s : State) (r : TgRef) : Option (BitVec 64) := (s.tg? r).map (·.crSum)

theorem crSum_retire (g : Tg) (set : BitVec 64) (h : Hints) (cut : Bool) : (g.retire set h cut).crSum = g.crSum := by
  unfold Tg.retire
  dsimp only
  split <;> rfl

/-- The thread group that an effect has put in place retires with the sum that it holds. -/
theorem latchedSum_retired {s : State} {e : Env} {g₀ : Tg} (ht : s.tg? e.r = some g₀) (h : Hints) (cut : Bool) (g : Tg) :
    latchedSum (retired e h cut (s.setTg e.r g)) e.r = some g.crSum := by
  have hg := State.tg?_setTg_self ht g
  unfold latchedSum retired
  rw [State.updTg_some hg]
  have hretired := State.tg?_setTg_self hg (g.retire e.set h cut)
  exact (congrArg _ hretired).trans (congrArg some (crSum_retire ..))

/-! ### An error sum between the largest finite double and its overflow threshold -/

/-- A number of units of 2^−1074 above the largest finite double, to which it nevertheless rounds. -/
def barelyOver : Nat := (unitsOf maxFinite64).toNat + 1

/-- Always true, no stall, no slot (Table 8.7). -/
def plainHints : Hints := ⟨false, 15#4, 0#4, 0#3, false, false⟩

/-- A context whose coded region 63 has that error sum. -/
def overContext : Context := ⟨0x10000, 0, 0, false, 0, 0, [(63, ⟨barelyOver, 0#64, 0#64, 0#32⟩)], ⟨[], false⟩⟩

/-- A thread group of that context issues: the launch of log 5 with its shot open. -/
def overSum : State :=
  let s := State.reset.load 0#96
  { s with
    cur := some ⟨0, 0⟩
    wgs := s.wgs.map fun x => (x.1, { x.2 with tgs := x.2.tgs.map fun g => g.ensureShot.getD g })
    contexts := [(0, overContext)] }

theorem overSum_issues : (env? overSum plainHints).isSome = true := by decide

/-- The environment of its issue. -/
def overEnv : Env := (env? overSum plainHints).get overSum_issues

theorem overSum_context : overSum.ctx? overEnv.ctx = some overContext := rfl

/-- The plan of a write of 63 to `sr.crsel`: a snapshot of region 63, without CLEAR. -/
def crselPlan : Plan :=
  { h := plainHints, srcs := [(srcB (.imm 63#32) (srBits 0x058 / 32)).consumed], super := srSuper 0x058
    reserved := fun c => srReserved (0x058#10).toNat (c.uval 0) }

theorem overSum_ready : Ready overSum overEnv crselPlan where
  env := (Option.some_get _).symm
  cancel := by decide
  legal := by decide
  role := by decide
  takes := by decide
  srcs := by
    intro x hx
    obtain rfl := List.mem_singleton.mp hx
    refine ⟨fun _ _ _ hk => absurd hk List.not_mem_nil, fun _ _ hwin => ?_, ?_⟩
    · cases hwin
    · decide
  guards := by decide
  selects := by decide
  links := by decide
  calm := by decide

/-- The model latches +∞ (R78: a sum above the largest finite value reads as +∞). -/
theorem overSum_latches_infinity :
    ∃ t, exec (.wrsr plainHints 0x058 (.imm 63#32)) overSum = .next t ∧ latchedSum t overEnv.r = some (BitVec.ofNat 64 inf64) := by
  refine ⟨_, rfl, ?_⟩
  decide +kernel

/-- The double nearest to the sum, which the statement names, is finite. -/
theorem overContext_nearest :
    ofUnits (lookD ⟨0, 0#64, 0#64, 0#32⟩ overContext.counters (63 % 64)).sum = maxFinite64 := by decide +kernel

/-- Refutes O42: its snapshot clause rounds every error sum to the nearest double, where R78 and the model give +∞ above the
largest finite value; `overSum` has a sum that is above it and rounds to it. -/
theorem not_specialWrites : ¬ Obligations.SpecialWrites := by
  unfold Obligations.SpecialWrites
  intro hall
  obtain ⟨-, -, -, -, -, -, -, -, -, -, snapshot⟩ := hall plainHints 0x058 (.imm 63#32) overSum overEnv overSum_ready
  obtain ⟨t, ht, hsum⟩ := overSum_latches_infinity
  have hv : value overSum overEnv crselPlan.srcs 0 (overEnv.part.headD 0) = 63 := by decide
  have hops : overEnv.g.ops = [] := by decide
  obtain ⟨plain, -⟩ := snapshot rfl (hv.trans_lt (by decide)) (by rintro ⟨o, ho, -⟩; rw [hops] at ho; cases ho) _ overSum_context
  have hsaid := ht.symm.trans (plain (hv.trans_lt (by decide)))
  injection hsaid with hsaid
  rw [hsaid, latchedSum_retired (tg_of_ready overSum_ready)] at hsum
  have hfinite : some (BitVec.ofNat 64 (ofUnits
      (lookD ⟨0, 0#64, 0#64, 0#32⟩ overContext.counters (value overSum overEnv crselPlan.srcs 0 (overEnv.part.headD 0) % 64)).sum)) =
        some (BitVec.ofNat 64 inf64) := hsum
  rw [hv, overContext_nearest] at hfinite
  exact absurd hfinite (by decide)

end Sys2Proof.Proofs
end

section
/-! The device right after reset (R9): O19. -/

namespace Sys2Proof.Proofs

open Sys2Proof.Machine

/-- Settles O19: the reset state is written out as plain data, so each register's value is read off it. -/
theorem resetValues : Obligations.ResetValues := by
  unfold Obligations.ResetValues
  decide

end Sys2Proof.Proofs
end

section
/-! Power, temperature and reset (R9, R472, R473): O60. -/

namespace Sys2Proof.Proofs

open Sys2Proof.Machine Sys2Proof.Safety

/-! ### A workgroup that has been ended (R428) -/

/-- Workgroup `n` has ended with a status, and none of its thread groups issues again. -/
def EndedWith (s : State) (n : Nat) (status : BitVec 8) : Prop :=
  ∃ w, s.wg? n = some w ∧ w.phase = .finishing ∧ w.status = status ∧ ∀ g ∈ w.tgs, g.phase = .ended

/-- An ended workgroup stays ended when a thread group changes but for its phase. -/
theorem EndedWith.updTg {s : State} {n : Nat} {status : BitVec 8} (h : EndedWith s n status) (r : TgRef) {f : Tg → Tg}
    (hf : ∀ g, (f g).phase = g.phase) : EndedWith (s.updTg r f) n status := by
  obtain ⟨w, hw, hphase, hstatus, htgs⟩ := h
  unfold State.updTg
  split
  next g hg =>
    obtain ⟨v, hv, hvg⟩ := State.wg_of_tg hg
    rw [State.setTg_some hv]
    by_cases hn : r.wg = n
    · obtain rfl : v = w := Option.some.inj (hv.symm.trans (hn ▸ hw))
      refine ⟨v.setTg r.tg (f g), hn ▸ State.wg?_setWg_self .., hphase, hstatus, fun g' hg' => ?_⟩
      rcases List.mem_or_eq_of_mem_set hg' with hold | rfl
      · exact htgs g' hold
      · exact (hf g).trans (htgs g (List.mem_of_getElem? hvg))
    · exact ⟨w, (State.wg?_setWg_ne s hn _).trans hw, hphase, hstatus, htgs⟩
  next => exact ⟨w, hw, hphase, hstatus, htgs⟩

theorem EndedWith.failGang {s : State} {n : Nat} {status : BitVec 8} (h : EndedWith s n status) (k : Nat) (p : GangWait → Bool)
    (fcode : Nat) : EndedWith (failGang s k p fcode) n status := by
  unfold Machine.failGang
  refine List.foldlRecOn (motive := fun t => EndedWith t n status) _ _ h ?_
  exact fun t ht x _ => ht.updTg x.ref fun _ => rfl

theorem EndedWith.checkLatch {s : State} {n : Nat} {status : BitVec 8} (h : EndedWith s n status) (k : Nat) :
    EndedWith (checkLatch s k) n status := h.failGang ..

/-- A workgroup that has not ended yet ends with the bit added to its status. -/
theorem endOne_ended {s : State} {n : Nat} {w : Wg} (hw : s.wg? n = some w) (hphase : w.phase = .running) (bit : Nat) :
    EndedWith (endOne s n bit) n (w.status ||| BitVec.ofNat 8 bit) := by
  unfold endOne
  simp only [hw, hphase]
  refine EndedWith.checkLatch ⟨_, State.wg?_setWg_self .., rfl, rfl, fun g hg => ?_⟩ _
  obtain ⟨g₀, -, rfl⟩ := List.mem_map.mp hg
  rfl

/-- Outside two-take mode a running workgroup ends alone. -/
theorem endAnywhere_ended {s : State} {n : Nat} {w : Wg} (hw : s.wg? n = some w) (hphase : w.phase = .running)
    (htake : w.takeOn = false) : EndedWith (endAnywhere s n) n (w.status ||| 1#8) := by
  have halone : partnerOf s w = none := by simp [partnerOf, htake]
  have hends : endAnywhere s n = endOne s n 1 := by
    unfold endAnywhere endWorkgroup
    simp only [hw, hphase, halone]
    rfl
  rw [hends]
  exact endOne_ended hw hphase 1

/-! ### Power states -/

theorem noLaunch_iff (s : State) : noLaunch s = true ↔ s.launches = [] ∧ ∀ q ∈ s.host.queues, q.head = q.tail := by
  simp [noLaunch]

/-- The standing request takes effect exactly while nothing runs or is queued. -/
theorem execPwrEnterIdle_eq (s : State) : execPwrEnterIdle s = .next
    (if s.host.pwrReq = true ∧ s.host.pwrState = 0#2 ∧ s.launches = [] ∧ ∀ q ∈ s.host.queues, q.head = q.tail then
      { s with host := { s.host with pwrState := 1#2, pwrReq := false } } else s) := by
  unfold execPwrEnterIdle
  simp only [Bool.and_eq_true, beq_iff_eq, noLaunch_iff, and_assoc]
  split <;> rfl

theorem execPwrStateActive_eq (s : State) : execPwrStateActive s = .next
    { s with host := { s.host with pwrState := if s.host.pwrState = 1#2 then 0#2 else s.host.pwrState, pwrReq := false } } := by
  simp only [execPwrStateActive, powerActive, beq_iff_eq]

theorem execPwrStateIdle_eq (s : State) : execPwrStateIdle s = .next
    (if s.host.pwrState = 0#2 then { s with host := { s.host with pwrReq := true } } else s) := by
  simp only [execPwrStateIdle, powerIdle, beq_iff_eq]

theorem endAll_nil {s : State} (h : s.wgs = []) : endAll s = s := by
  simp [endAll, h]

theorem endAll_single {s : State} {n : Nat} {w : Wg} (h : s.wgs = [(n, w)]) : endAll s = endAnywhere s n := by
  simp [endAll, h]

/-- STATE 2 with one running workgroup, outside two-take mode: it ends with bit 0 of its status. -/
theorem powerOff_single {s : State} {n : Nat} {w : Wg} (h : s.wgs = [(n, w)]) (htake : w.takeOn = false) (hphase : w.phase = .running) :
    EndedWith (powerOff s) n (w.status ||| 1#8) := by
  have hw : s.wg? n = some w := by simp [State.wg?, h, look?]
  have hended := endAnywhere_ended hw hphase htake
  rw [← endAll_single h] at hended
  exact hended

/-! ### Temperature -/

theorem execThermalThrottle_eq {s : State} (h : s.unit < 7) : execThermalThrottle s =
    .next (postEvent (reportTemp s s.unit) 0x05 0 (Config.eventInfo 0x05 s.unit 1)) :=
  if_neg (Nat.not_le.mpr h)

theorem execThermalShutdown_eq {s : State} (h : s.unit < 7) : execThermalShutdown s =
    .next (powerOff (postEvent (endAll (reportTemp s s.unit)) 0x05 0 (Config.eventInfo 0x05 s.unit 2))) :=
  if_neg (Nat.not_le.mpr h)

/-- Settles O60, from the equation of each event and the end of a running workgroup. -/
theorem powerEvents : Obligations.PowerEvents := by
  unfold Obligations.PowerEvents
  intro s host
  refine ⟨execPwrStateActive_eq s, execPwrStateIdle_eq s, ?_, ?_, rfl, ?_, ?_, ?_, _, rfl⟩
  · intro hreq hstate hlaunch hqueues
    exact (execPwrEnterIdle_eq s).trans (congrArg _ (if_pos ⟨hreq, hstate, hlaunch, hqueues⟩))
  · intro hbusy
    refine (execPwrEnterIdle_eq s).trans (congrArg _ (if_neg ?_))
    rintro ⟨hreq, hstate, hlaunch, hqueues⟩
    rcases hbusy with h | h | h | ⟨q, hq, h⟩
    · exact h hlaunch
    · exact absurd (hreq.symm.trans h) (by decide)
    · exact h hstate
    · exact h (hqueues q hq)
  · intro hnone
    show Host.Outcome.next (powerOff s) = _
    rw [powerOff, endAll_nil hnone]
  · intro n w hwgs htake hphase
    obtain ⟨w', hw', hended⟩ := powerOff_single hwgs htake hphase
    exact ⟨powerOff s, w', rfl, rfl, hw', hended⟩
  · intro hunit
    exact ⟨⟨_, execThermalThrottle_eq hunit⟩, _, execThermalShutdown_eq hunit, rfl, rfl⟩

end Sys2Proof.Proofs
end

section
/-! Bytes of words: reading them, grouping them into words, merging them under a mask (R4, R22). -/

namespace Sys2Proof.Proofs

open Sys2Proof.Machine Sys2Proof.Safety

/-! ### Bytes of one word -/

theorem byteOf_toNat (w : Word) (i : Nat) : (byteOf w i).toNat = w.toNat / 2 ^ (8 * i) % 256 := by
  simp [byteOf, BitVec.extractLsb'_toNat, Nat.shiftRight_eq_div_pow]

theorem word_toNat (w : Word) :
    w.toNat = (byteOf w 0).toNat + 256 * (byteOf w 1).toNat + 65536 * (byteOf w 2).toNat + 16777216 * (byteOf w 3).toNat := by
  have := w.isLt
  simp only [byteOf_toNat, Nat.reduceMul, Nat.reducePow]
  omega

theorem byteOf_append (f : Nat → Byte) {i : Nat} (hi : i < 4) : byteOf (f 3 ++ (f 2 ++ (f 1 ++ f 0))) i = f i := by
  apply BitVec.eq_of_getLsbD_eq
  intro j hj
  simp only [byteOf, BitVec.getLsbD_append, BitVec.getLsbD_extractLsb', hj, decide_true, Bool.true_and]
  have hcases : i = 0 ∨ i = 1 ∨ i = 2 ∨ i = 3 := by omega
  obtain rfl | rfl | rfl | rfl := hcases
  · simp [hj, show j < 16 by omega, show j < 24 by omega]
  · simp [show ¬ 8 + j < 8 by omega, show 8 + j < 16 by omega, show 8 + j < 24 by omega]
  · simp [show ¬ 16 + j < 16 by omega, show 16 + j < 24 by omega]
  · simp [show ¬ 24 + j < 24 by omega]

/-- A residue is that of the sum of the bytes, since 256 is 1 modulo 15. -/
theorem res_bytes (w : Word) :
    res w = ((byteOf w 0).toNat + (byteOf w 1).toNat + (byteOf w 2).toNat + (byteOf w 3).toNat) % 15 := by
  rw [res_mod, word_toNat w]
  omega

theorem of_passes (w : Word) : (CWord.of w).passes = true := by simp [CWord.passes, CWord.of]

theorem of_not_bad (w : Word) : (CWord.of w).bad = false := by
  have hcode : (codeOf w).toNat ≠ 15 := by
    rw [codeOf, BitVec.toNat_ofNat, res_mod]
    omega
  simp only [CWord.bad, CWord.of, beq_eq_false_iff_ne, ne_eq, poisonCode]
  exact fun h => hcode (congrArg BitVec.toNat h)

/-! ### Masks -/

theorem testBit_byteMask (o n j : Nat) : (byteMask o n).testBit j = (decide (o ≤ j) && decide (j - o < n)) := by
  rw [byteMask, Nat.testBit_mul_two_pow, Nat.testBit_two_pow_sub_one]

theorem bit_eq_testBit (m i : Nat) : (m / 2 ^ i % 2 == 1) = m.testBit i := by
  rw [Nat.testBit_eq_decide_div_mod_eq]
  rfl

/-! ### Merging (R22) -/

theorem testBit_mod_16 (m : Nat) {i : Nat} (hi : i < 4) : (m % 16).testBit i = m.testBit i :=
  (Nat.testBit_mod_two_pow m 4 i).trans (by simp [hi])

/-- The bytes of a merge: those of the mask from the new word. -/
def mergedByte (old new : CWord) (m i : Nat) : Byte := if m / 2 ^ i % 2 == 1 then byteOf new.data i else byteOf old.data i

def mergedData (old new : CWord) (m : Nat) : Word :=
  mergedByte old new m 3 ++ (mergedByte old new m 2 ++ (mergedByte old new m 1 ++ mergedByte old new m 0))

/-- The residues of the bytes of a mask, and the code that a merge predicts from them (R22). -/
def residuesIn (w : Word) (m : Nat) : Int :=
  ((List.range 4).map fun i => if m / 2 ^ i % 2 == 1 then rn (byteOf w i).toNat else 0).sum

def mergedCode (old new : CWord) (m : Nat) : Nat :=
  m15 ((old.code.toNat : Int) - residuesIn old.data m + residuesIn new.data m)

theorem mergeWord_eq (old new : CWord) (m : Nat) : mergeWord old new m =
    if m % 16 == 15 then new else if m % 16 == 0 then old
    else if old.bad || new.bad then .poisoned (mergedData old new m)
    else if mergedCode old new m == res (mergedData old new m) then ⟨mergedData old new m, BitVec.ofNat 4 (mergedCode old new m)⟩
    else .poisoned (mergedData old new m) := rfl

theorem mergedByte_testBit (old new : CWord) (m i : Nat) :
    mergedByte old new m i = if m.testBit i then byteOf new.data i else byteOf old.data i := by
  rw [mergedByte, bit_eq_testBit]

/-- A merge takes each byte of its mask from the new word, whatever the codes. -/
theorem byteOf_mergeWord (old new : CWord) (m : Nat) {i : Nat} (hi : i < 4) :
    byteOf (mergeWord old new m).data i = if m.testBit i then byteOf new.data i else byteOf old.data i := by
  have hdata : byteOf (mergedData old new m) i = if m.testBit i then byteOf new.data i else byteOf old.data i :=
    (byteOf_append (mergedByte old new m) hi).trans (mergedByte_testBit ..)
  rw [mergeWord_eq]
  split
  next hall =>
    have hbit : m.testBit i = true := by
      rw [← testBit_mod_16 m hi, eq_of_beq hall]
      exact (by decide : ∀ k < 4, Nat.testBit 15 k = true) i hi
    rw [if_pos hbit]
  next =>
    split
    next hnone =>
      have hbit : m.testBit i = false := by
        rw [← testBit_mod_16 m hi, eq_of_beq hnone]
        exact Nat.zero_testBit i
      simp [hbit]
    next =>
      split
      · exact hdata
      · split <;> exact hdata

/-- A byte of a merge, the one it replaces, and their residues in the mask, modulo 15. -/
theorem mergedByte_residue (old new : CWord) (m i : Nat) :
    ∃ z : Int, (byteOf old.data i).toNat - (if m / 2 ^ i % 2 == 1 then rn (byteOf old.data i).toNat else 0) +
      (if m / 2 ^ i % 2 == 1 then rn (byteOf new.data i).toNat else 0) = (mergedByte old new m i).toNat + 15 * z := by
  unfold mergedByte
  split
  · refine ⟨((byteOf old.data i).toNat / 15 : Nat) - ((byteOf new.data i).toNat / 15 : Nat), ?_⟩
    simp only [rn_def]
    omega
  · exact ⟨0, by omega⟩

/-- Over a word that agrees with its code the prediction of a merge holds. -/
theorem mergedCode_of_passes {old : CWord} (hpass : old.passes = true) (hbad : old.bad = false) (new : CWord) (m : Nat) :
    mergedCode old new m = res (mergedData old new m) := by
  have hbyte : ∀ i < 4, byteOf (mergedData old new m) i = mergedByte old new m i := fun i hi => byteOf_append (mergedByte old new m) hi
  have hcode := code_of_passes hpass hbad
  obtain ⟨z0, h0⟩ := mergedByte_residue old new m 0
  obtain ⟨z1, h1⟩ := mergedByte_residue old new m 1
  obtain ⟨z2, h2⟩ := mergedByte_residue old new m 2
  obtain ⟨z3, h3⟩ := mergedByte_residue old new m 3
  rw [res_bytes] at hcode ⊢
  rw [hbyte 0 (by omega), hbyte 1 (by omega), hbyte 2 (by omega), hbyte 3 (by omega)]
  unfold mergedCode residuesIn m15
  simp only [hcode, List.range, List.range.loop, List.map_cons, List.map_nil, List.sum_cons, List.sum_nil]
  omega

/-- A merge over a word that agrees with its code does not fail (R22). -/
theorem mergeFails_of_passes {old : CWord} (hpass : old.passes = true) (new : CWord) (m : Nat) : mergeFails old new m = false := by
  by_cases hold : old.bad = true
  · simp [mergeFails, hold]
  by_cases hnew : new.bad = true
  · simp [mergeFails, hnew]
  rw [Bool.not_eq_true] at hold hnew
  have hcode := mergedCode_of_passes hpass hold new (m % 16)
  suffices hmerge : m % 16 ≠ 15 → m % 16 ≠ 0 → (mergeWord old new (m % 16)).bad = false by
    by_cases h15 : m % 16 = 15
    · simp [mergeFails, h15]
    by_cases h0 : m % 16 = 0
    · simp [mergeFails, h0]
    simp [mergeFails, hmerge h15 h0]
  intro h15 h0
  have hof : (⟨mergedData old new (m % 16), BitVec.ofNat 4 (mergedCode old new (m % 16))⟩ : CWord) =
      .of (mergedData old new (m % 16)) := by rw [hcode]; rfl
  rw [mergeWord_eq]
  simp only [Nat.mod_mod, beq_iff_eq, h15, h0, hold, hnew, hof, Bool.or_false, Bool.false_eq_true, if_false, if_pos hcode]
  exact of_not_bad _

theorem byteIn_set (l : List CWord) {k : Nat} (hk : k < l.length) (w : CWord) (j : Nat) :
    byteIn (l.set k w) j = if j / 4 = k then byteOf w.data (j % 4) else byteIn l j := by
  simp only [byteIn, List.getD_eq_getElem?_getD, List.getElem?_set, hk, if_true]
  by_cases h : k = j / 4
  · simp [h]
  · simp [h, Ne.symm h]

theorem byteIn_cons_succ (w : CWord) (ws : List CWord) {j : Nat} (hj : 4 ≤ j) : byteIn (w :: ws) j = byteIn ws (j - 4) := by
  obtain ⟨i, rfl⟩ := Nat.exists_eq_add_of_le' hj
  simp [byteIn]

theorem byteIn_cons_zero (w : CWord) (ws : List CWord) {j : Nat} (hj : j < 4) : byteIn (w :: ws) j = byteOf w.data j := by
  simp [byteIn, Nat.div_eq_of_lt hj, Nat.mod_eq_of_lt hj]

/-- Words merged over a line from word `k` replace the bytes of the mask, and no other. -/
theorem byteIn_mergeWords (l : List CWord) (k m : Nat) (ws : List CWord) (hfit : k + ws.length ≤ l.length) (j : Nat) :
    byteIn (mergeWords l k m ws) j =
      if 4 * k ≤ j ∧ j < 4 * (k + ws.length) ∧ m.testBit (j - 4 * k) = true then byteIn ws (j - 4 * k) else byteIn l j := by
  induction ws generalizing l k m with
  | nil => rw [mergeWords, if_neg (by simp; omega)]
  | cons w ws ih =>
    have hk : k < l.length := by simp at hfit; omega
    have hbits : (m / 16).testBit (j - 4 * (k + 1)) = m.testBit (j - 4 * (k + 1) + 4) := Nat.testBit_div_two_pow (n := 4) ..
    rw [mergeWords, ih _ _ _ (by simp at hfit ⊢; omega), byteIn_set l hk, hbits]
    simp only [List.length_cons]
    by_cases hlow : j < 4 * k
    · rw [if_neg (by omega), if_neg (by omega), if_neg (by omega)]
    · by_cases hhere : j < 4 * k + 4
      · have hj4 : j - 4 * k = j % 4 := by omega
        rw [if_neg (by omega), if_pos (by omega), byteOf_mergeWord _ _ _ (by omega), testBit_mod_16 m (by omega), hj4,
          byteIn_cons_zero w ws (by omega)]
        have hold : byteOf (l.getD k .zero).data (j % 4) = byteIn l j := by rw [byteIn, show j / 4 = k by omega]
        simp only [hold, show 4 * k ≤ j by omega, show j < 4 * (k + (ws.length + 1)) by omega, true_and]
      · have hj : j - 4 * (k + 1) + 4 = j - 4 * k := by omega
        rw [hj, show j - 4 * (k + 1) = j - 4 * k - 4 by omega, ← byteIn_cons_succ w ws (by omega)]
        simp only [show ¬ j / 4 = k by omega, if_false, show 4 * (k + 1) ≤ j by omega, show 4 * k ≤ j by omega, true_and,
          show k + 1 + ws.length = k + (ws.length + 1) by omega]

end Sys2Proof.Proofs
end

section
/-! Words that the host forms from bytes, and segments of lines (R4, R461). -/

namespace Sys2Proof.Proofs

open Sys2Proof.Machine Sys2Proof.Safety

/-! ### Grouping bytes into words -/

theorem byteOf_wordOfBytes (bs : List (Byte × Bool)) {i : Nat} (hi : i < 4) :
    byteOf (wordOfBytes bs).data i = (bs.getD i (0#8, false)).1 := by
  have hbyte := byteOf_append (fun j => (bs.getD j (0#8, false)).1) hi
  unfold wordOfBytes
  dsimp only
  split <;> exact hbyte

theorem byteIn_wordsOfBytes : ∀ (bs : List (Byte × Bool)) (j : Nat), byteIn (wordsOfBytes bs) j = (bs.getD j (0#8, false)).1
  | [], j => by simp [wordsOfBytes, byteIn, CWord.zero, byteOf]
  | [a], j => byteIn_last [a] (by simp) j
  | [a, b], j => byteIn_last [a, b] (by simp) j
  | [a, b, c], j => byteIn_last [a, b, c] (by simp) j
  | a :: b :: c :: d :: r, j => by
    rw [wordsOfBytes]
    by_cases hj : j < 4
    · rw [byteIn_cons_zero _ _ hj, byteOf_wordOfBytes _ hj]
      obtain rfl | rfl | rfl | rfl : j = 0 ∨ j = 1 ∨ j = 2 ∨ j = 3 := by omega
      all_goals rfl
    · rw [byteIn_cons_succ _ _ (by omega), byteIn_wordsOfBytes r]
      obtain ⟨k, rfl⟩ := Nat.exists_eq_add_of_le' (Nat.not_lt.mp hj)
      rfl
where
  byteIn_last (bs : List (Byte × Bool)) (hlen : bs.length ≤ 4) (j : Nat) :
      byteIn [wordOfBytes bs] j = (bs.getD j (0#8, false)).1 := by
    by_cases hj : j < 4
    · rw [byteIn_cons_zero _ _ hj, byteOf_wordOfBytes _ hj]
    · rw [byteIn_cons_succ _ _ (by omega), List.getD_eq_default _ _ (by omega)]
      simp [byteIn, CWord.zero, byteOf]

theorem length_wordsOfBytes : ∀ bs : List (Byte × Bool), (wordsOfBytes bs).length = (bs.length + 3) / 4
  | [] => rfl
  | [_] => by simp [wordsOfBytes]
  | [_, _] => by simp [wordsOfBytes]
  | [_, _, _] => by simp [wordsOfBytes]
  | a :: b :: c :: d :: r => by
    simp only [wordsOfBytes, List.length_cons, length_wordsOfBytes r]
    omega

/-- A word that agrees with its code and is not Poison. -/
def CleanWord (w : CWord) : Prop := w.passes = true ∧ w.bad = false

theorem clean_wordOfBytes {bs : List (Byte × Bool)} (h : ∀ b ∈ bs, b.2 = false) : CleanWord (wordOfBytes bs) := by
  have hsound : bs.any (·.2) = false := List.any_eq_false.mpr fun b hb => by simp [h b hb]
  simp only [wordOfBytes, hsound, Bool.false_eq_true, if_false]
  exact ⟨of_passes _, of_not_bad _⟩

theorem clean_wordsOfBytes : ∀ bs : List (Byte × Bool), (∀ b ∈ bs, b.2 = false) → ∀ w ∈ wordsOfBytes bs, CleanWord w
  | [], _ => by simp [wordsOfBytes]
  | [a], h => by simpa [wordsOfBytes] using clean_wordOfBytes h
  | [a, b], h => by simpa [wordsOfBytes] using clean_wordOfBytes h
  | [a, b, c], h => by simpa [wordsOfBytes] using clean_wordOfBytes h
  | a :: b :: c :: d :: r, h => by
    have hr := clean_wordsOfBytes r fun x hx => h x (by simp [hx])
    rw [wordsOfBytes]
    refine List.forall_mem_cons.mpr ⟨clean_wordOfBytes fun x hx => h x ?_, hr⟩
    simp only [List.mem_cons, List.not_mem_nil, or_false] at hx ⊢
    tauto

/-! ### The host's words -/

theorem hostWords_clean (o n : Nat) (bs : List Byte) : ∀ w ∈ hostWords o n bs, CleanWord w := by
  refine clean_wordsOfBytes _ fun b hb => ?_
  rcases List.mem_append.mp hb with h | h
  · rw [List.eq_of_mem_replicate h]
  · obtain ⟨-, -, rfl⟩ := List.mem_map.mp h
    rfl

theorem length_hostWords (o n : Nat) (bs : List Byte) : (hostWords o n bs).length = (o + min n bs.length + 3) / 4 := by
  simp [hostWords, length_wordsOfBytes]

/-- The host's bytes stand from the offset on. -/
theorem byteIn_hostWords (o : Nat) {n : Nat} {bs : List Byte} {k : Nat} (hk : k < n) :
    byteIn (hostWords o n bs) (o + k) = bs.getD k 0#8 := by
  rw [hostWords, byteIn_wordsOfBytes, List.getD_append_right _ _ _ _ (by simp)]
  simp [List.getD_eq_getElem?_getD, hk]

theorem getD_dwordBytes (v : BitVec 64) {k : Nat} (hk : k < 8) : (dwordBytes v).getD k 0#8 = v.extractLsb' (8 * k) 8 := by
  have hbyte : (dwordBytes v).getD k 0#8 = BitVec.ofNat 8 (v.toNat / 256 ^ k) := by
    simp [dwordBytes, List.getD_eq_getElem?_getD, hk]
  rw [hbyte, show 256 ^ k = 2 ^ (8 * k) from (Nat.pow_mul 2 8 k).symm, ← Nat.shiftRight_eq_div_pow]
  rfl

/-! ### Segments of lines -/

/-- Bytes within one line are one segment. -/
theorem lineSplit_within {a n : Nat} (hn : 0 < n) (hline : a % 128 + n ≤ 128) : lineSplit a n = [(a, n)] := by
  have hone : (a + n - 1) / 128 - a / 128 + 1 = 1 := by omega
  have hlo : max a (128 * (a / 128 + 0)) = a := by omega
  have hhi : min (a + n) (128 * (a / 128 + 0 + 1)) = a + n := by omega
  rw [lineSplit, if_neg (by simpa using hn.ne'), hone, List.range_one, List.map_singleton]
  simp only [hlo, hhi, Nat.add_sub_cancel_left]

/-- A segment lies within the bytes that are split. -/
theorem lineSplit_bounds {a n : Nat} {x : Nat × Nat} (h : x ∈ lineSplit a n) : a ≤ x.1 ∧ x.1 < a + n ∧ x.1 + x.2 ≤ a + n := by
  unfold lineSplit at h
  split at h
  · cases h
  next hn =>
    obtain ⟨k, hk, rfl⟩ := List.mem_map.mp h
    have hn : n ≠ 0 := by simpa using hn
    have hk := List.mem_range.mp hk
    dsimp only
    omega

/-- The segments reach every byte that is split. -/
theorem lineSplit_covers {a n i : Nat} (hlo : a ≤ i) (hhi : i < a + n) : ∃ x ∈ lineSplit a n, x.1 ≤ i ∧ i < x.1 + x.2 := by
  have hn : ¬(n == 0) = true := by simp; omega
  rw [lineSplit, if_neg hn]
  refine ⟨_, List.mem_map_of_mem (List.mem_range.mpr (show i / 128 - a / 128 < _ by omega)), ?_⟩
  dsimp only
  omega

end Sys2Proof.Proofs
end

section
/-! A line of main memory that the L2 holds whole: its home reads it, and merges writes into it, without a fill and without a
record (R85, R22). -/

namespace Sys2Proof.Proofs

open Sys2Proof.Machine Sys2Proof.Safety

/-! ### The line that holds an address -/

theorem holds_congr {pa qa : Nat} (h : pa / 128 = qa / 128) (ln : L2Line) : ln.holds pa = ln.holds qa := by
  rw [L2Line.holds, L2Line.holds, h]

theorem lineAt_congr {pa qa : Nat} (h : pa / 128 = qa / 128) (s : State) : lineAt s pa = lineAt s qa := by
  simp only [lineAt, holds_congr h]

theorem isMain_congr {pa qa : Nat} (h : pa / 128 = qa / 128) (hm : isMain pa = true) : isMain qa = true := by
  rw [isMain, decide_eq_true_eq, mainTop] at hm ⊢
  omega

/-- A change of lines that keeps which addresses they hold. -/
theorem find?_holds_map {pa : Nat} {f : L2Line → L2Line} (hf : ∀ ln, (f ln).holds pa = ln.holds pa) (l : List L2Line) :
    (l.map f).find? (·.holds pa) = (l.find? (·.holds pa)).map f := by
  rw [List.find?_map]
  congr 2
  exact funext hf

theorem holds_of_lineAt {s : State} {pa : Nat} {ln : L2Line} (h : lineAt s pa = some ln) : ln.holds pa = true :=
  List.find?_some (p := fun x : L2Line => x.holds pa) h

theorem lineAt_touchLines {s : State} {pa : Nat} {ln : L2Line} (h : lineAt s pa = some ln) :
    lineAt (touchLines s (·.holds pa)) pa = some { ln with stamp := s.cs.stamp + 1 } := by
  have hmap := find?_holds_map (pa := pa) (f := fun x => if x.holds pa then { x with stamp := s.cs.stamp + 1 } else x)
    (fun x => by split <;> rfl) s.cs.l2
  refine hmap.trans ?_
  rw [show s.cs.l2.find? (·.holds pa) = some ln from h, Option.map_some, if_pos (holds_of_lineAt h)]

theorem lineAt_updLine {s : State} {pa : Nat} {ln : L2Line} (h : lineAt s pa = some ln) {f : L2Line → L2Line}
    (hf : ∀ x, (f x).holds pa = x.holds pa) : lineAt (updLine s pa f) pa = some (f ln) := by
  have hmap := find?_holds_map (pa := pa) (f := fun x => if x.holds pa then f x else x)
    (fun x => by split <;> simp [hf]) s.cs.l2
  refine hmap.trans ?_
  rw [show s.cs.l2.find? (·.holds pa) = some ln from h, Option.map_some, if_pos (holds_of_lineAt h)]

/-! ### Whole lines -/

theorem wholeLine_congr {s : State} {pa qa : Nat} {ln : L2Line} (h : WholeLine s pa ln) (hline : pa / 128 = qa / 128) :
    WholeLine s qa ln :=
  { h with held := (lineAt_congr hline s).symm.trans h.held }

theorem wholeLine_of_cs {s t : State} {pa : Nat} {ln : L2Line} (h : WholeLine s pa ln) (hcs : t.cs = s.cs) : WholeLine t pa ln :=
  { h with held := by rw [← h.held, lineAt, lineAt, hcs] }

theorem wholeLine_touchLines {s : State} {pa : Nat} {ln : L2Line} (h : WholeLine s pa ln) :
    WholeLine (touchLines s (·.holds pa)) pa { ln with stamp := s.cs.stamp + 1 } :=
  { h with held := lineAt_touchLines h.held }

theorem maskSub_byteMask {o n : Nat} (h : o + n ≤ 128) : maskSub (byteMask o n) (2 ^ 128 - 1) = true := by
  have hlt : byteMask o n < 2 ^ 128 := by
    calc byteMask o n < 2 ^ n * 2 ^ o := Nat.mul_lt_mul_of_pos_right (Nat.sub_lt (Nat.two_pow_pos n) Nat.one_pos) (Nat.two_pow_pos o)
      _ = 2 ^ (n + o) := (Nat.pow_add ..).symm
      _ ≤ 2 ^ 128 := Nat.pow_le_pow_right (by decide) (by omega)
  have hand : Nat.land (byteMask o n) (2 ^ 128 - 1) = byteMask o n :=
    (Nat.and_two_pow_sub_one_eq_mod _ 128).trans (Nat.mod_eq_of_lt hlt)
  rw [maskSub, hand]
  exact beq_self_eq_true _

/-! ### Reading -/

theorem homeRead_whole {s : State} {pa n : Nat} {ln : L2Line} (h : WholeLine s pa ln) (hfit : pa % 128 + 4 * n ≤ 128)
    (part core : Nat) :
    homeRead s part core pa n = (touchLines s (·.holds pa), (ln.words.drop (pa % 128 / 4)).take n) := by
  unfold homeRead
  simp only [h.held, h.all, maskSub_byteMask hfit, if_true, (wholeLine_touchLines h).held]

/-- Words that pass enter a check point as they are, without a record. -/
theorem checkIn_passing {ws : List CWord} (h : ∀ w ∈ ws, w.passes = true) (s : State) (point unit part core addr : Nat) :
    checkIn s point unit part core addr ws = (s, ws) := by
  induction ws generalizing addr with
  | nil => rfl
  | cons w ws ih =>
    obtain ⟨hw, hws⟩ := List.forall_mem_cons.mp h
    simp only [checkIn, hw, if_true, ih hws, CWord.entered]

theorem ioHome_whole {s : State} {pa n : Nat} {ln : L2Line} (h : WholeLine s pa ln) (hmain : isMain pa = true)
    (hfit : pa % 128 + 4 * n ≤ 128) (part : Nat) :
    ioHome s part pa n = (touchLines s (·.holds pa), (ln.words.drop (pa % 128 / 4)).take n) := by
  have hsound : ∀ w ∈ (ln.words.drop (pa % 128 / 4)).take n, w.passes = true := fun w hw =>
    List.all_eq_true.mp h.sound w (List.mem_of_mem_drop (List.mem_of_mem_take hw))
  simp only [ioHome, physRead, hmain, if_true, homeRead_whole h hfit, toIoDie, checkIn_passing hsound]

theorem windowWord_clean {w : CWord} (h : CleanWord w) (s : State) (pa : Nat) : windowWord s pa w = (s, w.data) := by
  rw [windowWord, h.1, h.2]
  rfl

theorem clean_iff (ws : List CWord) : clean ws = true ↔ ∀ w ∈ ws, CleanWord w := by
  simp [clean, CleanWord]

/-- The host reads the data bits of the words of a clean line. -/
theorem windowWords_whole {s : State} {pa n : Nat} {ln : L2Line} (h : WholeLine s pa ln) (hclean : clean ln.words = true)
    (hmain : isMain pa = true) (hfit : pa % 128 + 4 * n ≤ 128) :
    (windowWords s pa n).2 = (List.range n).map fun k => (ln.words.getD (pa % 128 / 4 + k) .zero).data := by
  induction n generalizing s pa ln with
  | zero => rfl
  | succ n ih =>
    have hix : pa % 128 / 4 < ln.words.length := by rw [h.size]; omega
    have hhead : ((ln.words.drop (pa % 128 / 4)).take 1).headD .zero = ln.words.getD (pa % 128 / 4) .zero := by
      rw [List.drop_eq_getElem_cons hix, List.take_succ_cons, List.headD_cons, List.getD_eq_getElem _ _ hix]
    have hword : CleanWord (ln.words.getD (pa % 128 / 4) .zero) := by
      rw [List.getD_eq_getElem _ _ hix]
      exact (clean_iff _).mp hclean _ (List.getElem_mem hix)
    rw [windowWords, if_pos hmain]
    simp only [ioHome_whole h hmain (show pa % 128 + 4 * 1 ≤ 128 by omega), hhead, windowWord_clean hword]
    rcases Nat.eq_zero_or_pos n with rfl | hn
    · rfl
    · have hline : pa / 128 = (pa + 4) / 128 := by omega
      rw [ih (wholeLine_congr (wholeLine_touchLines h) hline) hclean (isMain_congr hline hmain) (by omega),
        List.range_succ_eq_map, List.map_cons, List.map_map]
      congr 2
      funext k
      simp only [Function.comp, show (pa + 4) % 128 / 4 + k = pa % 128 / 4 + (k + 1) by omega]

/-! ### Writing -/

theorem needsFill_whole {pa mask n : Nat} (hfit : pa % 128 + 4 * n ≤ 128) : needsFill (2 ^ 128 - 1) pa mask n = false := by
  have hheld : ∀ o ≤ 124, bitsAt (2 ^ 128 - 1) o 4 = 15 := by decide
  unfold needsFill
  refine List.any_eq_false.mpr fun i hi => ?_
  have hi := List.mem_range.mp hi
  simp only [hheld (pa % 128 + 4 * i) (by omega), bne_self_eq_false, Bool.and_false, Bool.false_eq_true, not_false_eq_true]

theorem checkMerge_passing {l : List CWord} (h : ∀ w ∈ l, w.passes = true) (s : State) (point unit part core addr i mask : Nat)
    (ws : List CWord) : checkMerge s point unit part core addr l i mask ws = s := by
  induction ws generalizing addr i mask with
  | nil => rfl
  | cons w ws ih =>
    have hold : (l.getD i .zero).passes = true := by
      rw [List.getD_eq_getElem?_getD]
      cases hl : l[i]? with
      | none => decide
      | some x => exact h x (List.mem_of_getElem? hl)
    rw [checkMerge, mergeFails_of_passes hold]
    exact ih ..

theorem fireSlate_cs (s : State) (src tag : Nat) : (fireSlate s src tag).cs = s.cs := by
  unfold fireSlate
  dsimp only
  split
  · rfl
  · split <;> rfl

theorem watch_cs (s : State) (pa mask n : Nat) : (watch s pa mask n).cs = s.cs := by
  unfold watch
  split
  · exact fireSlate_cs ..
  · rfl

theorem lineAt_watch (s : State) (pa mask n qa : Nat) : lineAt (watch s pa mask n) qa = lineAt s qa := by
  rw [lineAt, watch_cs, lineAt]

/-- A write at the home of a whole line merges its words into it. -/
theorem homeWrite_whole {s : State} {pa : Nat} {ln : L2Line} (h : WholeLine s pa ln) (part core mask : Nat) {ws : List CWord}
    (hfit : pa % 128 + 4 * ws.length ≤ 128) :
    ∃ ln', lineAt (homeWrite s part core pa mask ws) pa = some ln' ∧ ln'.words = mergeWords ln.words (pa % 128 / 4) mask ws := by
  have hsound : ∀ w ∈ ln.words, w.passes = true := List.all_eq_true.mp h.sound
  unfold homeWrite
  simp only [h.held, (wholeLine_touchLines h).held, Option.map_some, Option.getD_some, h.all, needsFill_whole hfit, Bool.false_eq_true, if_false,
    checkMerge_passing hsound]
  rw [lineAt_watch]
  exact ⟨_, lineAt_updLine (wholeLine_touchLines h).held fun _ => rfl, rfl⟩

end Sys2Proof.Proofs
end

section
/-! Bytes that the I/O die writes to host memory (R461, R472). -/

namespace Sys2Proof.Proofs

open Sys2Proof.Machine Sys2Proof.Safety

/-- Memory after the bytes of a mask, of `n` at an address, have been written from some words. -/
def writeMasked (m : Memory) (pa mask : Nat) (ws : List CWord) (n : Nat) : Memory :=
  (List.range n).foldl (fun m i => if mask / 2 ^ i % 2 == 1 then wrByte m (pa + i) (byteOf (ws.getD (i / 4) .zero).data (i % 4)) else m) m

theorem rdByte_writeMasked (m : Memory) (pa mask : Nat) (ws : List CWord) (n i : Nat) :
    rdByte (writeMasked m pa mask ws n) i =
      if pa ≤ i ∧ i < pa + n ∧ mask.testBit (i - pa) = true then byteIn ws (i - pa) else rdByte m i := by
  induction n with
  | zero => rw [if_neg (by omega)]; rfl
  | succ n ih =>
    have hstep : writeMasked m pa mask ws (n + 1) =
        if mask.testBit n then wrByte (writeMasked m pa mask ws n) (pa + n) (byteIn ws n) else writeMasked m pa mask ws n := by
      simp only [writeMasked, List.range_succ, List.foldl_append, List.foldl_cons, List.foldl_nil, bit_eq_testBit, byteIn]
    rw [hstep]
    by_cases hi : i = pa + n
    · subst hi
      simp only [Nat.add_sub_cancel_left, show pa ≤ pa + n by omega, show pa + n < pa + (n + 1) by omega, true_and]
      split
      · exact rdByte_wrByte_self ..
      · rw [ih, if_neg (by omega)]
    · have hkept : rdByte (if mask.testBit n then wrByte (writeMasked m pa mask ws n) (pa + n) (byteIn ws n)
          else writeMasked m pa mask ws n) i = rdByte (writeMasked m pa mask ws n) i := by
        split
        · exact rdByte_wrByte_ne _ (Ne.symm hi) _
        · rfl
      rw [hkept, ih]
      simp only [show pa ≤ i ∧ i < pa + n ∧ mask.testBit (i - pa) = true ↔ pa ≤ i ∧ i < pa + (n + 1) ∧ mask.testBit (i - pa) = true by
        constructor <;> (rintro ⟨h1, h2, h3⟩; exact ⟨h1, by omega, h3⟩)]

/-- A state with other bytes in memory. -/
def withBytes (s : State) (m : Memory) : State := { s with mm := { s.mm with bytes := m } }

/-- Sound words that are not Poison go to host memory without a record. -/
theorem hostWrite_clean {ws : List CWord} (h : ∀ w ∈ ws, CleanWord w) (s : State) (part pa mask : Nat) :
    hostWrite s part noCore pa mask ws = withBytes s (writeMasked s.mm.bytes pa mask ws (4 * ws.length)) := by
  have hpoison : countIf ws CWord.bad = 0 := by
    simpa [countIf] using fun w hw => (h w hw).2
  have hcarry : carry s 6 6 12 0xC06 part noCore pa ws = (s, ws) := checkIn_passing (fun w hw => (h w hw).1) ..
  unfold hostWrite
  simp only [hpoison, show ¬ noCore < 384 by decide, if_false, hcarry, List.range_zero, List.foldl_nil]
  rfl

theorem not_isMain_of_host {pa : Nat} (h : 2 ^ 51 ≤ pa) : isMain pa = false := by
  rw [isMain, mainTop, decide_eq_false_iff_not]
  omega

theorem isHost_iff (pa : Nat) : isHost pa = true ↔ 2 ^ 51 ≤ pa ∧ pa < 2 ^ 52 := by simp [isHost]

/-- The write of one segment of some bytes that go to an address. -/
def writeSegment (pa : Nat) (bs : List Byte) (s : State) (x : Nat × Nat) : State :=
  ioWrite s 0 (x.1 / 4 * 4) (byteMask (x.1 % 4) x.2) (hostWords (x.1 % 4) x.2 (bs.drop (x.1 - pa)))

theorem ioBytes_eq (s : State) (pa : Nat) (bs : List Byte) :
    ioBytes s pa bs = (lineSplit pa bs.length).foldl (writeSegment pa bs) s := rfl

/-- A segment in host memory takes its bytes, and nothing else changes. -/
theorem writeSegment_host {bs : List Byte} {pa : Nat} {x : Nat × Nat} (hlo : 2 ^ 51 ≤ x.1) (hhi : x.1 < 2 ^ 52) (hpa : pa ≤ x.1)
    (hend : x.1 + x.2 ≤ pa + bs.length) (s : State) :
    ∃ m, writeSegment pa bs s x = withBytes s m ∧
      ∀ i, rdByte m i = if x.1 ≤ i ∧ i < x.1 + x.2 then bs.getD (i - pa) 0#8 else rdByte s.mm.bytes i := by
  have hmain : isMain (x.1 / 4 * 4) = false := not_isMain_of_host (by omega)
  have hhost : isHost (x.1 / 4 * 4) = true := (isHost_iff _).mpr (by omega)
  have hwrite : writeSegment pa bs s x = withBytes s (writeMasked s.mm.bytes (x.1 / 4 * 4) (byteMask (x.1 % 4) x.2)
      (hostWords (x.1 % 4) x.2 (bs.drop (x.1 - pa))) (4 * (hostWords (x.1 % 4) x.2 (bs.drop (x.1 - pa))).length)) := by
    rw [writeSegment, ioWrite, hmain, hhost]
    exact hostWrite_clean (hostWords_clean _ _ _) ..
  refine ⟨_, hwrite, fun i => ?_⟩
  rw [rdByte_writeMasked, testBit_byteMask, length_hostWords, List.length_drop]
  simp only [Bool.and_eq_true, decide_eq_true_eq]
  by_cases hi : x.1 ≤ i ∧ i < x.1 + x.2
  · have hbyte := byteIn_hostWords (x.1 % 4) (bs := bs.drop (x.1 - pa)) (show i - x.1 < x.2 by omega)
    rw [if_pos hi, if_pos (by omega), show i - x.1 / 4 * 4 = x.1 % 4 + (i - x.1) by omega, hbyte]
    simp only [List.getD_eq_getElem?_getD, List.getElem?_drop, show x.1 - pa + (i - x.1) = i - pa by omega]
  · rw [if_neg hi, if_neg (by omega)]

/-- Segments in host memory, one after the other: they agree where they meet. -/
theorem writeSegments_host {bs : List Byte} {pa : Nat} (hlo : 2 ^ 51 ≤ pa) (hhi : pa + bs.length ≤ 2 ^ 52) {xs : List (Nat × Nat)}
    (hx : ∀ x ∈ xs, x ∈ lineSplit pa bs.length) (s : State) :
    ∃ m, xs.foldl (writeSegment pa bs) s = withBytes s m ∧
      ∀ i, rdByte m i = if ∃ x ∈ xs, x.1 ≤ i ∧ i < x.1 + x.2 then bs.getD (i - pa) 0#8 else rdByte s.mm.bytes i := by
  induction xs generalizing s with
  | nil => exact ⟨s.mm.bytes, rfl, fun i => by simp⟩
  | cons x xs ih =>
    obtain ⟨hfrom, hbelow, hto⟩ := lineSplit_bounds (hx x (by simp))
    obtain ⟨m₁, hs₁, hm₁⟩ := writeSegment_host (x := x) (by omega) (by omega) hfrom hto s
    obtain ⟨m, hs, hm⟩ := ih (fun y hy => hx y (by simp [hy])) (withBytes s m₁)
    refine ⟨m, by rw [List.foldl_cons, hs₁, hs]; rfl, fun i => ?_⟩
    have hold : rdByte (withBytes s m₁).mm.bytes i = rdByte m₁ i := rfl
    rw [hm, hold, hm₁]
    simp only [List.exists_mem_cons_iff]
    by_cases hrest : ∃ y ∈ xs, y.1 ≤ i ∧ i < y.1 + y.2
    · rw [if_pos hrest, if_pos (.inr hrest)]
    · simp only [hrest, or_false, if_false]

/-- Bytes written to host memory stand there, and nothing else changes. -/
theorem ioBytes_host {bs : List Byte} {pa : Nat} (hlo : 2 ^ 51 ≤ pa) (hhi : pa + bs.length ≤ 2 ^ 52) (s : State) :
    ∃ m, ioBytes s pa bs = withBytes s m ∧
      ∀ i, rdByte m i = if pa ≤ i ∧ i < pa + bs.length then bs.getD (i - pa) 0#8 else rdByte s.mm.bytes i := by
  obtain ⟨m, hs, hm⟩ := writeSegments_host hlo hhi (fun _ hx => hx) s
  refine ⟨m, (ioBytes_eq ..).trans hs, fun i => ?_⟩
  have hcover : (∃ x ∈ lineSplit pa bs.length, x.1 ≤ i ∧ i < x.1 + x.2) ↔ pa ≤ i ∧ i < pa + bs.length := by
    constructor
    · rintro ⟨x, hx, hi⟩
      have := lineSplit_bounds hx
      omega
    · exact fun hi => lineSplit_covers hi.1 hi.2
  rw [hm]
  simp only [hcover]

end Sys2Proof.Proofs
end

section
/-! The host's accesses: the window, the registers, the slate, attestation (R460, R461, R463 to R472): O53. -/

namespace Sys2Proof.Proofs

open Sys2Proof.Machine Sys2Proof.Safety

/-! ### The window (R461) -/

theorem wakeUp_cs (s : State) : (wakeUp s).cs = s.cs := by
  unfold wakeUp
  split <;> rfl

theorem wholeLine_wakeUp {s : State} {pa : Nat} {ln : L2Line} (h : WholeLine s pa ln) : WholeLine (wakeUp s) pa ln :=
  wholeLine_of_cs h (wakeUp_cs s)

/-- Some bytes as a number, the lowest first (R4). -/
def number (f : Nat → Byte) (n : Nat) : Nat := ((List.range n).map fun i => (f i).toNat * 256 ^ i).sum

theorem number_succ (f : Nat → Byte) (n : Nat) : number f (n + 1) = number f n + (f n).toNat * 256 ^ n := by
  simp [number, List.range_succ]

theorem number_four (f : Nat → Byte) :
    number f 4 = (f 0).toNat + 256 * (f 1).toNat + 65536 * (f 2).toNat + 16777216 * (f 3).toNat := by
  rw [number_succ f 3, number_succ f 2, number_succ f 1, number_succ f 0, show number f 0 = 0 from rfl]
  ring

theorem number_lt (f : Nat → Byte) (n : Nat) : number f n < 256 ^ n := by
  induction n with
  | zero => exact Nat.one_pos
  | succ n ih =>
    have hbyte : (f n).toNat * 256 ^ n ≤ 255 * 256 ^ n := Nat.mul_le_mul_right _ (Nat.le_of_lt_succ (f n).isLt)
    rw [number_succ, Nat.pow_succ]
    omega

theorem number_add (f : Nat → Byte) (m n : Nat) : number f (m + n) = number f m + 256 ^ m * number (fun i => f (m + i)) n := by
  induction n with
  | zero => rfl
  | succ n ih =>
    rw [← Nat.add_assoc, number_succ, ih, number_succ, Nat.pow_add]
    ring

/-- Leaving out the lowest bytes, and the highest ones. -/
theorem number_div (f : Nat → Byte) (m n : Nat) : number f (m + n) / 256 ^ m = number (fun i => f (m + i)) n := by
  rw [number_add, Nat.add_mul_div_left _ _ (Nat.pow_pos (by decide)), Nat.div_eq_of_lt (number_lt f m), Nat.zero_add]

theorem number_mod (f : Nat → Byte) (m n : Nat) : number f (m + n) % 256 ^ m = number f m := by
  rw [number_add, Nat.add_mul_mod_self_left, Nat.mod_eq_of_lt (number_lt f m)]

/-- Some words of 32 bits as a number. -/
def numberOfWords (ws : List Word) : Nat := ((ws.zip (List.range 3)).map fun wi => wi.1.toNat * 2 ^ (32 * wi.2)).sum

/-- At most three words have the number of their bytes. -/
theorem numberOfWords_bytes (f : Nat → Byte) (g : Nat → Word) (hg : ∀ k, ∀ j < 4, byteOf (g k) j = f (4 * k + j)) {n : Nat} (hn : n ≤ 3) :
    numberOfWords ((List.range n).map g) = number f (4 * n) := by
  have hsum : numberOfWords ((List.range n).map g) = ((List.range n).map fun k => (g k).toNat * 2 ^ (32 * k)).sum := by
    rw [numberOfWords]
    congr 1
    apply List.ext_getElem
    · simp [hn]
    · simp
  rw [hsum]
  clear hsum hn
  induction n with
  | zero => rfl
  | succ n ih =>
    have hword : (g n).toNat = number (fun i => f (4 * n + i)) 4 := by
      rw [word_toNat, hg n 0 (by omega), hg n 1 (by omega), hg n 2 (by omega), hg n 3 (by omega)]
      rw [number_four]
    have hpow : 256 ^ (4 * n) = 2 ^ (32 * n) := by rw [show (256 : Nat) = 2 ^ 8 from rfl, ← Nat.pow_mul, ← Nat.mul_assoc]
    rw [List.range_succ, List.map_append, List.sum_append, ih, Nat.mul_succ, number_add, ← hword, hpow, Nat.mul_comm (2 ^ (32 * n)),
      List.map_singleton, List.sum_singleton]

theorem execWindowRead_eq {s s1 : State} {off : BitVec 36} {ws : List Word}
    (h : windowWords (wakeUp s) (windowAddr s off / 4 * 4) ((windowAddr s off % 4 + 11) / 4) = (s1, ws)) :
    execWindowRead off s = .next { s1 with host := { s1.host with
      winData := BitVec.ofNat 64 (numberOfWords ws / 256 ^ (windowAddr s off % 4)) } } := by
  simp only [execWindowRead, readWindow, h]
  rfl

/-- The two or three words that eight bytes at an address touch hold those bytes. -/
theorem dword_of_words (ws : List CWord) (o : Nat) :
    BitVec.ofNat 64 (numberOfWords ((List.range ((o % 4 + 11) / 4)).map fun k => (ws.getD (o / 4 + k) .zero).data) / 256 ^ (o % 4)) =
      BitVec.ofNat 64 (number (fun i => byteIn ws (o + i)) 8) := by
  have hbytes : ∀ k, ∀ j < 4, byteOf (ws.getD (o / 4 + k) .zero).data j = byteIn ws (o / 4 * 4 + (4 * k + j)) := fun k j hj => by
    rw [byteIn, show (o / 4 * 4 + (4 * k + j)) / 4 = o / 4 + k by omega, show (o / 4 * 4 + (4 * k + j)) % 4 = j by omega]
  have hfrom : (fun i => byteIn ws (o / 4 * 4 + (o % 4 + i))) = fun i => byteIn ws (o + i) := by
    funext i
    rw [← Nat.add_assoc, Nat.div_add_mod' o 4]
  obtain ⟨n, hn⟩ : ∃ n, 4 * ((o % 4 + 11) / 4) = o % 4 + (8 + n) := ⟨4 * ((o % 4 + 11) / 4) - (o % 4 + 8), by omega⟩
  apply BitVec.eq_of_toNat_eq
  rw [numberOfWords_bytes (fun i => byteIn ws (o / 4 * 4 + i)) _ hbytes (by omega), hn, number_div, hfrom, BitVec.toNat_ofNat, BitVec.toNat_ofNat,
    show (2 : Nat) ^ 64 = 256 ^ 8 by decide, number_mod, Nat.mod_eq_of_lt (number_lt _ 8)]

/-- A window read of eight bytes in a clean line that the L2 holds whole. -/
theorem execWindowRead_whole {s : State} {off : BitVec 36} {ln : L2Line} (hmain : isMain (windowAddr s off) = true)
    (hfit : windowAddr s off % 128 + 8 ≤ 128) (h : WholeLine s (windowAddr s off) ln) (hclean : clean ln.words = true) :
    ∃ t, execWindowRead off s = .next t ∧
      t.host.winData = BitVec.ofNat 64 (number (fun i => byteIn ln.words (windowAddr s off % 128 + i)) 8) := by
  obtain ⟨pa, hpa⟩ : ∃ pa, windowAddr s off = pa := ⟨_, rfl⟩
  rw [hpa] at hmain hfit h ⊢
  have hline : pa / 128 = pa / 4 * 4 / 128 := by omega
  have hwords := windowWords_whole (n := (pa % 4 + 11) / 4) (wholeLine_congr (wholeLine_wakeUp h) hline) hclean (isMain_congr hline hmain)
    (by omega)
  have hword : pa / 4 * 4 % 128 / 4 = pa % 128 / 4 := by omega
  rw [hword] at hwords
  have hread := execWindowRead_eq (off := off) (s := s) (Prod.eta _).symm
  rw [hpa, hwords] at hread
  have hvalue := dword_of_words ln.words (pa % 128)
  rw [show pa % 128 % 4 = pa % 4 by omega] at hvalue
  exact ⟨_, hread, hvalue⟩

theorem writeWindow_within {s : State} {off : BitVec 36} (hmain : isMain (windowAddr s off) = true)
    (hfit : windowAddr s off % 128 + 8 ≤ 128) (v : BitVec 64) :
    writeWindow s off v = homeWrite (wakeUp s) 0 noCore (windowAddr s off / 4 * 4) (byteMask (windowAddr s off % 4) 8)
      (hostWords (windowAddr s off % 4) 8 (dwordBytes v)) := by
  simp only [writeWindow, lineSplit_within (by decide : 0 < 8) hfit, List.foldl_cons, List.foldl_nil, hmain, if_true, Nat.sub_self,
    List.drop_zero]

/-- A window write of eight bytes to a line that the L2 holds whole changes those bytes of it, and no other. -/
theorem writeWindow_whole {s : State} {off : BitVec 36} {ln : L2Line} (hmain : isMain (windowAddr s off) = true)
    (hfit : windowAddr s off % 128 + 8 ≤ 128) (h : WholeLine s (windowAddr s off) ln) (v : BitVec 64) :
    ∃ ln', lineAt (writeWindow s off v) (windowAddr s off) = some ln' ∧ ∀ i, byteIn ln'.words i =
      if windowAddr s off % 128 ≤ i ∧ i < windowAddr s off % 128 + 8 then v.extractLsb' (8 * (i - windowAddr s off % 128)) 8
      else byteIn ln.words i := by
  rw [writeWindow_within hmain hfit]
  generalize windowAddr s off = pa at *
  have hline : pa / 128 = pa / 4 * 4 / 128 := by omega
  have hlen : (hostWords (pa % 4) 8 (dwordBytes v)).length = (pa % 4 + 11) / 4 := by
    rw [length_hostWords]
    rfl
  obtain ⟨ln', hheld, hwords⟩ := homeWrite_whole (wholeLine_congr (wholeLine_wakeUp h) hline) 0 noCore (byteMask (pa % 4) 8)
    (ws := hostWords (pa % 4) 8 (dwordBytes v)) (by omega)
  refine ⟨ln', (lineAt_congr hline _).trans hheld, fun i => ?_⟩
  rw [hwords, byteIn_mergeWords _ _ _ _ (by rw [h.size]; omega), hlen, testBit_byteMask]
  simp only [Bool.and_eq_true, decide_eq_true_eq]
  by_cases hi : pa % 128 ≤ i ∧ i < pa % 128 + 8
  · rw [if_pos (by omega), if_pos hi, show i - 4 * (pa / 4 * 4 % 128 / 4) = pa % 4 + (i - pa % 128) by omega,
      byteIn_hostWords _ (by omega), getD_dwordBytes v (by omega)]
  · rw [if_neg (by omega), if_neg hi]

/-! ### Registers (R460) -/

theorem execRegisterWrite_named {off : BitVec 24} {g : HostReg} {i : Nat} (haligned : off.toNat % 8 = 0)
    (h : findReg off.toNat = some (g, i)) (v : BitVec 64) (s : State) :
    execRegisterWrite off 8 v s = .next (g.write s i v.toNat) := by
  simp [execRegisterWrite, haligned, writeReg, h]

theorem execRegisterWrite_ignored {off : BitVec 24} {size : Nat} (h : size ≠ 8 ∨ off.toNat % 8 ≠ 0 ∨ findReg off.toNat = none)
    (v : BitVec 64) (s : State) : execRegisterWrite off size v s = .next s := by
  unfold execRegisterWrite
  split
  next hwhole =>
    simp only [Bool.and_eq_true, beq_iff_eq] at hwhole
    have hnone : findReg off.toNat = none := by
      rcases h with h | h | h
      · exact absurd hwhole.1 h
      · exact absurd hwhole.2 h
      · exact h
    simp only [writeReg, hnone]
  next => rfl

/-! ### The slate (R452) -/

/-- A trigger of the host is source 1: that of an instruction, source 0, comes before it. -/
theorem joinSlate_host (s : State) (tag : BitVec 16) : joinSlate s 1 tag.toNat = { s.dfs with
    slSrc := s.dfs.slSrc ||| 2#4
    slTag := if (s.dfs.slSrc.getLsbD 0 || (s.dfs.slSrc.getLsbD 1 && !Config.freeBit s.tick 597)) = true then s.dfs.slTag else tag } := by
  have hlow : (s.dfs.slSrc.toNat % 2 ^ 1 == 0) = !s.dfs.slSrc.getLsbD 0 := by
    rw [BitVec.getLsbD, Nat.testBit_zero]
    rcases Nat.mod_two_eq_zero_or_one s.dfs.slSrc.toNat with h | h <;> simp [h]
  unfold joinSlate
  simp only [hlow, BitVec.ofNat_toNat, BitVec.setWidth_eq]
  cases s.dfs.slSrc.getLsbD 0 <;> cases s.dfs.slSrc.getLsbD 1 <;> cases Config.freeBit s.tick 597 <;> rfl

theorem sameCycle_iff (s : State) : sameCycle s = true ↔ s.dfs.slSnap = some s.clock ∧ Config.freeBit s.tick 598 = true := by
  simp [sameCycle]

/-- A trigger of the host fires the armed slate, joins a snapshot of its own cycle, or counts as missed. -/
theorem fireSlate_host (s : State) (tag : BitVec 16) : fireSlate s 1 tag.toNat = { s with
  dfs :=
    if s.dfs.slArm = true then { s.dfs with slArm := false, slSrc := 2#4, slTag := tag, slSnap := some s.clock }
    else if s.dfs.slSnap = some s.clock ∧ Config.freeBit s.tick 598 = true then joinSlate s 1 tag.toNat
    else { s.dfs with slMissed := if s.dfs.slMissed = 0xFFFFFFFF#32 then s.dfs.slMissed else s.dfs.slMissed + 1#32 } } := by
  simp only [← sameCycle_iff]
  unfold fireSlate
  simp only [BitVec.ofNat_toNat, BitVec.setWidth_eq, beq_iff_eq]
  split
  · rfl
  · split <;> rfl

/-! ### Attestation (R472) -/

/-- A report goes to the buffer that the host names; in host memory it stands there, and no other byte changes. -/
theorem attest_host {nonce : BitVec 256} {buf : BitVec 64} (s : State) (hlo : 2 ^ 51 ≤ buf.toNat)
    (hhi : buf.toNat + (Config.attestReport nonce s.host.bootSrc).length ≤ 2 ^ 52) :
    ∃ t, execAttestationRequest nonce buf s = .next t ∧ t.host.attNonce = nonce ∧ t.host.attBuf = buf ∧
      ∀ i, rdByte t.mm.bytes i = if buf.toNat ≤ i ∧ i < buf.toNat + (Config.attestReport nonce s.host.bootSrc).length then
        (Config.attestReport nonce s.host.bootSrc).getD (i - buf.toNat) 0#8 else rdByte s.mm.bytes i := by
  obtain ⟨m, hs, hm⟩ := ioBytes_host hlo hhi { s with host := { s.host with attNonce := nonce, attBuf := buf } }
  exact ⟨_, congrArg Host.Outcome.next hs, rfl, rfl, hm⟩

/-! ### The statement -/

/-- Settles O53: eight bytes of a line that the L2 holds are read from it and merged into it, each register's row says its write, and
the other clauses are the equations of their events. -/
theorem hostAccesses : Obligations.HostAccesses := by
  unfold Obligations.HostAccesses
  refine ⟨fun s => ⟨?_, ?_, ?_, ?_⟩, fun s => ⟨?_, ?_, ?_, ?_, ?_⟩⟩
  · intro off ln pa hmain hfit hwhole
    refine ⟨⟨_, rfl, fun hclean => ?_⟩, fun v => ?_⟩
    · obtain ⟨t, ht, hdata⟩ := execWindowRead_whole hmain hfit hwhole hclean
      injection ht with ht
      exact (congrArg (·.host.winData) ht).trans hdata
    · obtain ⟨ln', hheld, hbytes⟩ := writeWindow_whole hmain hfit hwhole v
      exact ⟨_, ln', rfl, hheld, fun i _ => hbytes i⟩
  · intro off size v w
    have hv : BitVec.ofNat 64 v.toNat = v := by simp
    refine ⟨fun h => execRegisterWrite_ignored h v s, ?_, ?_, ?_, ?_, ?_, ?_, ?_⟩
    all_goals rintro rfl
    · exact execRegisterWrite_named (off := 0x10000) rfl rfl v s
    · exact execRegisterWrite_named (off := 0x10008) rfl rfl v s
    · exact execRegisterWrite_named (off := 0x10018) rfl rfl v s
    · have hwrite := execRegisterWrite_named (off := 0x30018) rfl rfl v s
      exact hwrite.trans (congrArg (fun x => Host.Outcome.next (s.setHost fun h => { h with evHead := x })) hv)
    · exact execRegisterWrite_named (off := 0x50200) rfl rfl v s
    · have hwrite := execRegisterWrite_named (off := 0xA0100) rfl rfl v s
      exact hwrite.trans (congrArg (fun x => Host.Outcome.next (s.setHost fun h => { h with bootSrc := x })) hv)
    · exact execRegisterWrite_named (off := 0x40400) rfl rfl v s
  · intro tag d low d'
    refine congrArg Host.Outcome.next ((fireSlate_host s tag).trans ?_)
    rw [joinSlate_host]
  · intro nonce buf report hlo hhi
    exact attest_host s hlo hhi
  · intro off s1 ws pa x h
    exact execWindowRead_eq h
  · exact fun _ _ => rfl
  · exact fun off v g i haligned h => execRegisterWrite_named haligned h v s
  · exact fun _ _ => rfl
  · exact fun _ _ => rfl

end Sys2Proof.Proofs
end

section
/-! The package mesh and the Otaethar links (R14 to R16, R18, R141, R471): O52. -/

namespace Sys2Proof.Proofs

open Sys2Proof.Machine Sys2Proof.Safety

/-! ### Flits (R15, R16) -/

/-- A link in service takes a flit whose CRC holds and checks its words at the router. -/
theorem execMeshFlitReceive_ok {s : State} {link : Nat} {router : BitVec 3} {f : Flit} (hok : flitOk f = true)
    (hup : (meshLink s link).down = false) (hfails : (meshLink s link).fails < 8) (hrouter : router.toNat ≤ 6) :
    execMeshFlitReceive link router f s =
      .next (checkIn (setMesh s link { meshLink s link with fails := 0, retry := [] }) 5 (0x400 + router.toNat)
        (Config.freeNat s.tick 0 % 8) noCore 0 f.words).1 := by
  simp [execMeshFlitReceive, hok, hup, Nat.not_le.mpr hfails, Nat.not_lt.mpr hrouter]

theorem execMeshFlitReceive_crcFails {s : State} {link : Nat} {router : BitVec 3} {f : Flit} (hbad : flitOk f = false)
    (hup : (meshLink s link).down = false) (hfails : (meshLink s link).fails < 8) (hrouter : router.toNat ≤ 6) :
    execMeshFlitReceive link router f s = .next (setMesh s link { meshLink s link with
      fails := (meshLink s link).fails + 1
      retry := if (meshLink s link).retry.isEmpty then [f] else (meshLink s link).retry }) := by
  simp [execMeshFlitReceive, hbad, hup, Nat.not_le.mpr hfails, Nat.not_lt.mpr hrouter]

/-- After eight failures the link goes on with its flits, or fails for good with event 0x06. -/
theorem execMeshLinkRetrain_eq {s : State} {link : Nat} (hup : (meshLink s link).down = false)
    (hfails : 8 ≤ (meshLink s link).fails) (ok : Bool) :
    execMeshLinkRetrain link ok s = .next (if ok then setMesh s link { meshLink s link with fails := 0 }
      else postEvent (setMesh s link { meshLink s link with down := true }) 0x06 0 (Config.eventInfo 0x06 link 0)) := by
  simp only [execMeshLinkRetrain, hup, Nat.not_lt.mpr hfails, decide_false, Bool.or_self, Bool.false_eq_true, if_false]
  cases ok <;> rfl

/-! ### Bytes of a frame that go to host memory -/

theorem byteIn_eq_bytesOf (ws : List CWord) (j : Nat) : byteIn ws j = ((bytesOf ws).map (·.1)).getD j 0#8 := by
  induction ws generalizing j with
  | nil => simp [byteIn, bytesOf, CWord.zero, byteOf]
  | cons w ws ih =>
    by_cases hj : j < 4
    · rw [byteIn_cons_zero _ _ hj]
      obtain rfl | rfl | rfl | rfl : j = 0 ∨ j = 1 ∨ j = 2 ∨ j = 3 := by omega
      all_goals rfl
    · rw [byteIn_cons_succ _ _ (by omega), ih]
      obtain ⟨k, rfl⟩ := Nat.exists_eq_add_of_le' (Nat.not_lt.mp hj)
      rfl

theorem length_bytesOf (ws : List CWord) : (bytesOf ws).length = 4 * ws.length := by
  simp [bytesOf, Nat.mul_comm]

/-- No byte of words that are not Poison is marked. -/
theorem bytesOf_unmarked {ws : List CWord} (h : ∀ w ∈ ws, w.bad = false) :
    ((bytesOf ws).map (·.1)).map (fun b => (b, false)) = bytesOf ws := by
  rw [List.map_map]
  refine (List.map_congr_left fun b hb => ?_).trans (List.map_id _)
  obtain ⟨w, hw, hb⟩ := List.mem_flatMap.mp hb
  obtain ⟨i, -, rfl⟩ := List.mem_map.mp hb
  simp only [Function.comp, h w hw, id]

/-- The host's words over some bytes change those bytes of host memory, and nothing else. -/
theorem hostWrite_hostWords (s : State) (part pa : Nat) (bs : List Byte) :
    ∃ m, hostWrite s part noCore (pa / 4 * 4) (byteMask (pa % 4) bs.length) (hostWords (pa % 4) bs.length bs) = withBytes s m ∧
      ∀ i, rdByte m i = if pa ≤ i ∧ i < pa + bs.length then bs.getD (i - pa) 0#8 else rdByte s.mm.bytes i := by
  refine ⟨_, hostWrite_clean (hostWords_clean _ _ _) .., fun i => ?_⟩
  rw [rdByte_writeMasked, testBit_byteMask, length_hostWords]
  simp only [Bool.and_eq_true, decide_eq_true_eq]
  by_cases hi : pa ≤ i ∧ i < pa + bs.length
  · rw [if_pos hi, if_pos (by omega), show i - pa / 4 * 4 = pa % 4 + (i - pa) by omega, byteIn_hostWords _ (by omega)]
  · rw [if_neg hi, if_neg (by omega)]

/-- Sound words that are one piece in host memory stand there, and nothing else changes. -/
theorem writePieces_host {ws : List CWord} (h : ∀ w ∈ ws, CleanWord w) (s : State) {a : Eng} (hcore : a.core = noCore) (va pa : Nat) :
    ∃ m, writePieces s a [⟨0, 4 * ws.length, va, pa, .host, none, none⟩] 0 (bytesOf ws) = withBytes s m ∧
      ∀ i, rdByte m i = if pa ≤ i ∧ i < pa + 4 * ws.length then byteIn ws (i - pa) else rdByte s.mm.bytes i := by
  obtain ⟨m, hm, hbytes⟩ := hostWrite_hostWords s a.pt pa ((bytesOf ws).map (·.1))
  have hlen : ((bytesOf ws).map (·.1)).length = 4 * ws.length := (List.length_map ..).trans (length_bytesOf ws)
  have hwords : wordsOfBytes (List.replicate (pa % 4) (0#8, false) ++ (bytesOf ws).take (4 * ws.length)) =
      hostWords (pa % 4) (4 * ws.length) ((bytesOf ws).map (·.1)) := by
    rw [hostWords, List.map_take, bytesOf_unmarked fun w hw => (h w hw).2]
  have hpiece : writePieces s a [⟨0, 4 * ws.length, va, pa, .host, none, none⟩] 0 (bytesOf ws) =
      hostWrite s a.pt a.core (pa / 4 * 4) (byteMask (pa % 4) (4 * ws.length))
        (wordsOfBytes (List.replicate (pa % 4) (0#8, false) ++ (bytesOf ws).take (4 * ws.length))) := rfl
  rw [hlen] at hm hbytes
  refine ⟨m, by rw [hpiece, hwords, hcore, hm], fun i => ?_⟩
  rw [hbytes, byteIn_eq_bytesOf]

/-! ### Frames (R141) -/

theorem carries_iff {s : State} {l p : Nat} {x : Peer} {k : Link} (hx : s.host.peers[p]? = some x) (hk : s.host.links[l]? = some k) :
    carries s l p = true ↔ x.valid = true ∧ x.links.getLsbD l = true ∧ k.state = 2 := by
  simp [carries, hx, hk, and_assoc]

theorem execLinkFrameReceive_refused {s : State} {link : Nat} {f : Sys2Proof.Frame}
    (h : f.crcOk = false ∨ ¬ carries s link f.peer.toNat = true) : execLinkFrameReceive link f s = .next s := by
  refine if_pos ?_
  rcases h with h | h <;> simp [h]

/-- The I/O die as the agent of a peer's frame, in the context that is bound to the peer. -/
def frameEng (p : Peer) (c : Context) : Eng := ⟨⟨0, 0⟩, noCore, p.ctx.toNat, c.part, false, 6⟩

/-- The place of one segment of a frame: class 5, whatever coded region its page is of. -/
def framePlace (f : Sys2Proof.Frame) (p : Peer) (c : Context) (s : State) (x : Nat × Nat) : State × PieceOut :=
  placeBytes s (frameEng p c) 5 (fun _ => true) x.1 x.2 (x.1 - f.va.toNat)

/-- A frame of a bound peer whose pages are there writes its words. -/
theorem execLinkFrameReceive_writes {s s1 s2 : State} {link : Nat} {f : Sys2Proof.Frame} {p : Peer} {c : Context} {ws : List CWord}
    {ps : List PieceOut} (hcrc : f.crcOk = true) (hcarries : carries s link f.peer.toNat = true) (hwords : f.words ≠ [])
    (hpeer : s.host.peers[f.peer.toNat]? = some p) (hctx : s.ctx? p.ctx.toNat = some c)
    (hcheck : checkIn s 6 (0x800 + link) c.part noCore 0 f.words = (s1, ws))
    (hplace : placeAll s1 (framePlace f p c) (lineSplit f.va.toNat (4 * ws.length)) = (s2, ps))
    (hfail : (gather ps).1 = none) (hwait : (gather ps).2.1 = []) :
    execLinkFrameReceive link f s = .next (writePieces s2 (frameEng p c) (gather ps).2.2 0 (bytesOf ws)) := by
  have hgather : gather ps = (none, [], (gather ps).2.2) := by rw [← hfail, ← hwait]
  have hgo : (!f.crcOk || !carries s link f.peer.toNat || f.words.isEmpty) = false := by simp [hcrc, hcarries, hwords]
  unfold framePlace frameEng at hplace
  unfold execLinkFrameReceive
  simp only [hgo, Bool.false_eq_true, if_false, hpeer, Option.map_some, Option.getD_some, hctx, hcheck, hplace]
  rw [hgather]
  rfl

/-- A segment whose page is in host memory is one piece there. -/
theorem placeBytes_host {s : State} {a : Eng} {cls va n pa : Nat} (hva : va < 2 ^ 57)
    (h : translate s a.core a.ctx a.super cls va n = (s, .to pa .host none)) (check : CodedTag → Bool) (o : Nat) :
    placeBytes s a cls check va n o = (s, .ok ⟨o, n, va, pa, .host, none, none⟩) := by
  have hin : ¬(decide ((va : Int) < 0) || decide (2 ^ 57 ≤ (va : Int).toNat)) = true := by
    rw [Int.toNat_natCast, Bool.or_eq_true, decide_eq_true_eq, decide_eq_true_eq]
    omega
  rw [placeBytes, if_neg hin]
  simp only [Int.toNat_natCast, h]

/-- A sound frame of a bound peer, within one line of a page of host memory, stands there, and nothing else changes. -/
theorem execLinkFrameReceive_host {s : State} {link pa : Nat} {f : Sys2Proof.Frame} {p : Peer} {c : Context} (hcrc : f.crcOk = true)
    (hcarries : carries s link f.peer.toNat = true) (hwords : f.words ≠ []) (hpeer : s.host.peers[f.peer.toNat]? = some p)
    (hctx : s.ctx? p.ctx.toNat = some c) (hclean : ∀ w ∈ f.words, CleanWord w) (hline : f.va.toNat % 128 + 4 * f.words.length ≤ 128)
    (hpage : translate s noCore p.ctx.toNat false 5 f.va.toNat (4 * f.words.length) = (s, .to pa .host none)) :
    ∃ m, execLinkFrameReceive link f s = .next (withBytes s m) ∧
      ∀ i, rdByte m i = if pa ≤ i ∧ i < pa + 4 * f.words.length then byteIn f.words (i - pa) else rdByte s.mm.bytes i := by
  have hsome : 0 < 4 * f.words.length := Nat.mul_pos (by decide) (List.length_pos_iff.mpr hwords)
  have hpiece : framePlace f p c s (f.va.toNat, 4 * f.words.length) =
      (s, .ok ⟨0, 4 * f.words.length, f.va.toNat, pa, .host, none, none⟩) := by
    rw [framePlace, Nat.sub_self]
    exact placeBytes_host (a := frameEng p c) f.va.isLt hpage _ 0
  have hplace : placeAll s (framePlace f p c) (lineSplit f.va.toNat (4 * f.words.length)) =
      (s, [.ok ⟨0, 4 * f.words.length, f.va.toNat, pa, .host, none, none⟩]) := by
    simp only [lineSplit_within hsome hline, placeAll, hpiece]
  have hexec := execLinkFrameReceive_writes hcrc hcarries hwords hpeer hctx (checkIn_passing (fun w hw => (hclean w hw).1) ..) hplace rfl rfl
  obtain ⟨m, hm, hbytes⟩ := writePieces_host hclean s (a := frameEng p c) rfl f.va.toNat pa
  exact ⟨m, hexec.trans (congrArg Host.Outcome.next hm), hbytes⟩

/-! ### States of a link (R471) -/

/-- A state with another link in a place. -/
def withLink (s : State) (l : Nat) (x : Link) : State := { s with host := { s.host with links := s.host.links.set l x } }

theorem updLink_some {s : State} {l : Nat} {x : Link} (h : s.host.links[l]? = some x) (f : Link → Link) :
    updLink s l f = withLink s l (f x) := by
  simp only [updLink, updAt, h, withLink]

theorem execLinkTrainingDone_training {s : State} {l : Nat} {x : Link} (h : s.host.links[l]? = some x) (hstate : x.state = 1) (ok : Bool)
    (margin : BitVec 16) : execLinkTrainingDone l ok margin s = .next
      (postEvent (withLink s l { x with state := if ok then 2 else 3, margin := margin }) (if ok then 0x07 else 0x08) 0 l) := by
  simp only [execLinkTrainingDone, h, hstate, bne_self_eq_false, Bool.false_eq_true, if_false, updLink_some h]

theorem execLinkEnable_eq {s : State} {x : Link} (h : s.host.links[s.unit]? = some x) :
    execLinkEnable s = .next (withLink s s.unit (if x.en then x else { x with en := true, state := 1 })) :=
  congrArg Host.Outcome.next (updLink_some h _)

theorem execOtaetharLinkRetrain_counts {s : State} {x : Link} (h : s.host.links[s.unit]? = some x) (hstate : x.state = 2)
    (hcount : x.retrains ≠ 255#8) :
    execOtaetharLinkRetrain s = .next (withLink s s.unit { x with retrains := x.retrains + 1#8 }) := by
  simp only [execOtaetharLinkRetrain, h, hstate, bne_self_eq_false, Bool.false_eq_true, if_false, beq_eq_false_iff_ne.mpr hcount,
    updLink_some h]

/-- The `CPYX` commands whose chunk goes over a link, with their cores. -/
def commandsOver (s : State) (l : Nat) : List (Nat × Nat) :=
  (liveCores s).flatMap fun k => ((s.core k).copyq.filter (overLink s k l)).map fun x => (k, x.eslot)

theorem commandsOver_nil {s : State} (h : ∀ k, ∀ x ∈ (s.core k).copyq, x.peer = none) (l : Nat) : commandsOver s l = [] := by
  refine List.flatMap_eq_nil_iff.mpr fun k _ => List.map_eq_nil_iff.mpr (List.filter_eq_nil_iff.mpr fun x hx => ?_)
  simp [overLink, h k x hx]

/-- The failure of a link ends the commands whose chunk it carries. -/
theorem execLinkFailure_up {s : State} {x : Link} (h : s.host.links[s.unit]? = some x) (hstate : x.state = 2) :
    execLinkFailure s = .next (postEvent ((commandsOver s s.unit).foldl (fun s ke => finishCopy s ke.1 ke.2 0x06)
      (updLink s s.unit fun x => { x with state := 3 })) 0x08 0 s.unit) := by
  simp only [execLinkFailure, h, hstate, bne_self_eq_false, Bool.false_eq_true, if_false]
  rfl

theorem execLinkFailure_alone {s : State} {x : Link} (h : s.host.links[s.unit]? = some x) (hstate : x.state = 2)
    (hnone : ∀ k, ∀ x ∈ (s.core k).copyq, x.peer = none) :
    execLinkFailure s = .next (postEvent (withLink s s.unit { x with state := 3 }) 0x08 0 s.unit) := by
  rw [execLinkFailure_up h hstate, commandsOver_nil hnone, List.foldl_nil, updLink_some h]

/-! ### The statement -/

/-- Settles O52, from the equations of the events; words that pass enter a router unchanged, and a frame within a line is one piece. -/
theorem linkEvents : Obligations.LinkEvents := by
  unfold Obligations.LinkEvents
  refine ⟨fun s link => ⟨?_, ?_, ?_⟩, fun s link => ⟨?_, ?_, ?_⟩⟩
  · intro router f m set hup
    refine ⟨fun hfails hrouter => ⟨fun hbad => ?_, fun hok hpass => ?_⟩, fun hfails => ⟨?_, ?_⟩⟩
    · exact execMeshFlitReceive_crcFails hbad hup hfails hrouter
    · refine (execMeshFlitReceive_ok hok hup hfails hrouter).trans (congrArg Host.Outcome.next ?_)
      rw [checkIn_passing (List.all_eq_true.mp hpass)]
      rfl
    · exact execMeshLinkRetrain_eq hup hfails true
    · exact execMeshLinkRetrain_eq hup hfails false
  · intro f p l c pa hpeer hlink hctx n bound
    have hbound : carries s link f.peer.toNat = true ↔ bound := carries_iff hpeer hlink
    refine ⟨fun h => execLinkFrameReceive_refused (h.imp_right (mt hbound.mp)), ?_⟩
    intro hcrc hb hwords hclean hline hpage
    obtain ⟨m, hm, hbytes⟩ :=
      execLinkFrameReceive_host hcrc (hbound.mpr hb) hwords hpeer hctx ((clean_iff _).mp hclean) hline hpage
    exact ⟨_, hm, hbytes⟩
  · intro l hlink set
    refine ⟨fun ok margin hstate => execLinkTrainingDone_training hlink hstate ok margin, ?_⟩
    rintro rfl
    exact ⟨execLinkEnable_eq hlink, execLinkFailure_alone hlink, execOtaetharLinkRetrain_counts hlink⟩
  · intro router f hok hup hfails hrouter
    exact execMeshFlitReceive_ok hok hup hfails hrouter
  · intro f p c s1 s2 ws ps hcrc hcarries hwords hpeer hctx hcheck a hplace hfail hwait
    exact execLinkFrameReceive_writes hcrc hcarries hwords hpeer hctx hcheck hplace hfail hwait
  · rintro l hlink rfl hstate cut
    exact execLinkFailure_up hlink hstate

end Sys2Proof.Proofs
end

section
/-! Moves, selects and the residue instructions (R37 to R40, R220, R221): O3. -/

namespace Sys2Proof.Proofs

open Sys2Proof.Machine Sys2Proof.Safety

/-! ### What operands supply -/

theorem immWords_passes (n : Nat) (ext : ImmExt) (v : Word) : ∀ w ∈ immWords n ext v, w.passes = true := by
  intro w hw
  unfold immWords at hw
  split at hw
  · rw [List.mem_singleton.mp hw]
    exact of_passes _
  · cases ext <;> (simp only [List.mem_cons, List.not_mem_nil, or_false] at hw; obtain rfl | rfl := hw <;> exact of_passes _)

/-- Every word that an operand supplies passes its operand-read check, unless it is read raw (R24). -/
theorem given_passes {s : State} {e : Env} {ls : List Nat} {x : Src} (h : Readable s e ls x) (hraw : x.raw = false) {l : Nat}
    (hl : l ∈ ls) : ∀ w ∈ given s e x l, w.passes = true := by
  intro w hw
  cases hx : x.opd with
  | imm v =>
    simp only [given, hx] at hw
    exact immWords_passes _ _ _ w hw
  | win n off =>
    simp only [given, hx] at hw
    exact List.all_eq_true.mp ((h.2.1 n off hx).2 hraw) w hw
  | reg r =>
    simp only [given, hx, List.mem_map] at hw
    obtain ⟨k, hk, rfl⟩ := hw
    exact (h.1 l hl k hk).2 hraw

theorem words_passes {s : State} {e : Env} {p : Plan} (h : Ready s e p) (hraw : ∀ x ∈ p.srcs, x.raw = false) (i : Nat) {l : Nat}
    (hl : l ∈ e.part) : ∀ w ∈ words s e p.srcs i l, w.passes = true := by
  unfold words
  cases hx : p.srcs[i]? with
  | none => simp
  | some x =>
    have hmem : x ∈ p.srcs := List.mem_of_getElem? hx
    exact given_passes (h.srcs x hmem) (hraw x hmem) (part_lanesRead h hl x)

/-! ### Words passed on (R220) -/

/-- The word with the code that its write-back gives it: Poison, or that of its bits (R26). -/
theorem writtenBack_of_passes {w : CWord} (h : w.passes = true) : (if w.bad then CWord.poisoned w.data else .of w.data) = w := by
  obtain ⟨d, c⟩ := w
  by_cases hbad : (⟨d, c⟩ : CWord).bad = true
  · rw [if_pos hbad]
    exact congrArg _ (eq_of_beq hbad).symm
  · rw [if_neg hbad]
    rw [CWord.passes, Bool.or_eq_true] at h
    exact congrArg _ (eq_of_beq (h.resolve_left hbad)).symm

/-- Words that pass are written back as they are. -/
theorem chosen_out {ws : List CWord} (h : ∀ w ∈ ws, w.passes = true) : (LaneRes.chosen ws).out = ws := by
  simp only [LaneRes.out, LaneRes.chosen, List.zip_map', List.map_map]
  exact (List.map_congr_left fun w hw => writtenBack_of_passes (h w hw)).trans (List.map_id ws)

theorem chosen_forms {ws : List CWord} (h : ∀ w ∈ ws, w.passes = true) : Forms (.chosen ws) ws := ⟨chosen_sound h, chosen_out h⟩

/-! ### Words made Poison (R38, R220) -/

/-- A lane whose words are all Poison passes its check, whatever that is (R28), and gives their bits as Poison. -/
theorem allBad_forms (ws : List CWord) {r : LaneRes} (hwords : r.words = ws.map (·.data)) (hbad : r.bad = ws.map fun _ => true)
    (hnil : ws = [] → r.check [] = none) : Forms r (ws.map fun w => .poisoned w.data) := by
  constructor
  · cases ws with
    | nil => simpa [Sound, LaneRes.stage, hwords, hbad] using hnil rfl
    | cons w ws => simp [Sound, LaneRes.stage, hbad]
  · simp only [LaneRes.out, hwords, hbad, List.zip_map', List.map_map]
    rfl

/-- What a select forms: the chosen words, all Poison when the selector is (R220). -/
theorem sel_forms {ws : List CWord} (h : ∀ w ∈ ws, w.passes = true) (poison : Bool) :
    Forms (if poison then { LaneRes.chosen ws with bad := (LaneRes.chosen ws).bad.map fun _ => true } else .chosen ws)
      (if poison then ws.map fun x => .poisoned x.data else ws) := by
  cases poison
  · exact chosen_forms h
  · exact allBad_forms ws rfl (by simp [LaneRes.chosen]) fun hnil => by rw [hnil]; rfl

/-! ### Codes read as data (R39) -/

theorem codesOf_lt {ws : List CWord} (h : ws.length ≤ 8) : codesOf ws < 2 ^ 32 := by
  have hlt : ∀ vs : List CWord, codesOf vs < 16 ^ vs.length := by
    intro vs
    induction vs with
    | nil => simp [codesOf]
    | cons v vs ih =>
      have hv := v.code.isLt
      have hcons : codesOf (v :: vs) = v.code.toNat + 16 * codesOf vs := rfl
      rw [hcons, List.length_cons, Nat.pow_succ]
      omega
  exact (hlt ws).trans_le (Nat.pow_le_pow_right (n := 16) (by omega) h)

theorem wide_cases (w : Bool) : wide w = 1 ∨ wide w = 2 := by cases w <;> simp [wide]

theorem codes_forms {ws : List CWord} (h : ws.length ≤ 8) :
    Forms (LaneRes.pred 32 (codesOf ws) 11 (m15 (rn (codesOf ws))) false) (valueWords 32 (codesOf ws) false) :=
  ⟨pred_sound_lt (.inl rfl) (codesOf_lt h) (m15_rn _), pred_out ..⟩

/-! ### Instructions with a plan of their own -/

/-- A fixed-latency instruction with any plan that writes the words its lanes form. -/
theorem issue_results {s : State} {e : Env} {p : Plan} {d : Reg} {n lat : Nat} {form : Ctx → Nat → LaneRes} {f : Nat → List CWord}
    (h : Ready s e p) (hcut : p.cut = false) (hd : p.dst = some (d, n)) (usual : p.reserved (context s e p form) = false)
    (hf : ∀ l ∈ e.part, Forms (form (readCtx s e p) l) (f l)) :
    Writes s e p.h (issue s p form noLate fun c => c.put ((c.results d).foldl (fun g kw => g.write lat kw.1 kw.2) c.tg)) e.g
      (toReg e d f) := by
  refine issue_writes h (lat := fun _ => lat) (fun l hl => (hf l (formLanes_part hl)).1) usual hcut (shot_pc h)
    (toReg_writable h.env _ d _) ?_
  rw [Ctx.put, context_s, context_e, context_tg h, foldl_write, results_eq h hd fun l hl => (hf l hl).2]

/-- A guard that no write is about to reach reads as it stands. -/
theorem guard_settled {e : Env} {i : BitVec 3} {l : Nat} (h : e.g.readsEarly (.g i.toNat l) = false) :
    e.guard i l = (e.g.word (.g i.toNat l)).data.getLsbD 0 := by
  rw [Env.guard, readWord_settled h]

/-! ### The statement -/

theorem execMov_gives (h : Hints) (w : Bool) (d : Reg) (b : Opd) :
    Gives (.mov h w d b) (regPlan h d (wide w) [srcB b (wide w)]) d fun s e l => words s e [srcB b (wide w)] 0 l := by
  intro s e hready
  refine fixedOp_writes (h := h) hready fun l hl => ?_
  rw [src_given hready hl]
  exact chosen_forms (words_passes hready (by simp [regPlan, srcB]) 0 hl)

theorem execSel_gives (h : Hints) (w : Bool) (d a c : Reg) (b : Opd) :
    let abc := [srcA a (wide w), srcB b (wide w), srcC c 1]
    Gives (.sel h w d a b c) (regPlan h d (wide w) abc) d fun s e l =>
      let ws := words s e abc (if value s e abc 2 l = 0 then 1 else 0) l
      if anyBad (words s e abc 2 l) then ws.map fun x => .poisoned x.data else ws := by
  intro abc s e hready
  refine fixedOp_writes (h := h) hready fun l hl => ?_
  rw [src_given hready hl, src_given hready hl, val_value hready hl]
  simp only [bne_iff_ne, ne_eq, ite_not]
  exact sel_forms (words_passes hready (by simp [regPlan, abc, srcA, srcB, srcC]) _ hl) _

theorem execGmov_gives (h : Hints) (w neg : Bool) (n : BitVec 3) (d a : Reg) (b : Opd) :
    let ab := [srcA a (wide w), srcB b (wide w)]
    Gives (.gmov h w n neg d a b) { regPlan h d (wide w) ab with guards := [n], alu := false } d fun s e l =>
      words s e ab (if (e.g.word (.g n.toNat l)).data.getLsbD 0 = neg then 1 else 0) l := by
  intro ab s e hready
  refine issue_results hready rfl rfl rfl fun l hl => ?_
  rw [src_given hready hl, show (readCtx s e _).e = e from rfl, guard_settled (hready.guards n (by simp) l hl)]
  simp only [bne_iff_ne, ne_eq, ite_not]
  exact chosen_forms (words_passes hready (by simp [regPlan, ab, srcA, srcB]) _ hl)

theorem execRsd_gives (h : Hints) (w raw : Bool) (d : Reg) (b : Opd) :
    let rs := [{ srcB b (wide w) with raw := raw }]
    Gives (.rsd h w raw d b) { regPlan h d 1 rs with super := raw } d fun s e l =>
      valueWords 32 (codesOf (words s e rs 0 l)) false := by
  intro rs s e hready
  refine issue_results hready rfl rfl rfl fun l hl => ?_
  rw [src_given hready hl]
  have hlength : (given s e { srcB b (wide w) with raw := raw } l).length = wide w :=
    given_length (hready.srcs _ (List.mem_singleton_self _)) (wide_cases w) l
  exact codes_forms (hlength.trans_le (by have := wide_cases w; omega))

theorem execRsdp_gives (h : Hints) (w : Bool) (d : Reg) (b : Opd) :
    let bb := [srcB b (wide w)]
    Gives (.rsdp h w d b) (regPlan h d (wide w) bb) d fun s e l => (words s e bb 0 l).map fun x => .poisoned x.data := by
  intro bb s e hready
  refine fixedOp_writes (h := h) hready fun l hl => ?_
  rw [src_given hready hl]
  exact allBad_forms _ rfl rfl fun _ => rfl

/-- Settles O3: each instruction forms, in every lane, the words that the statement names, and passes its result check. -/
theorem moves : Obligations.Moves := by
  unfold Obligations.Moves
  intro h w raw neg n d a c b
  exact ⟨execMov_gives h w d b, execSel_gives h w d a c b, execGmov_gives h w neg n d a b, execRsd_gives h w raw d b,
    execRsdp_gives h w d b⟩

end Sys2Proof.Proofs
end

section
/-! Stores of part of a word: the predicted code, and the failed entry check of a scratchpad (R19, R22): O36. -/

namespace Sys2Proof.Proofs

open Sys2Proof.Machine Sys2Proof.Safety

/-! ### The predicted code (R22) -/

/-- The number that the bytes of a mask form, each in its place. -/
def maskedBytes (mask : Nat) (w : Word) : Nat :=
  ((List.range 4).map fun i => if mask.testBit i then (byteOf w i).toNat * 256 ^ i else 0).sum

/-- The code that R22 predicts, from the residues of the bytes that are replaced and of those that replace them. -/
def predictedCode (old new : CWord) (mask : Nat) : Int :=
  ((old.code.toNat : Int) - (maskedBytes mask old.data % 15 : Nat) + (maskedBytes mask new.data % 15 : Nat)) % 15

/-- Bytes weigh the same modulo 15 wherever they stand, since 256 is 1. -/
theorem residuesIn_modEq (w : Word) (mask : Nat) : residuesIn w mask ≡ (maskedBytes mask w : Nat) [ZMOD 15] := by
  have hbyte : ∀ i, (if mask.testBit i = true then rn (byteOf w i).toNat else 0) ≡
      ((if mask.testBit i = true then (byteOf w i).toNat * 256 ^ i else 0 : Nat) : Int) [ZMOD 15] := by
    intro i
    split
    · have hone : (256 : Int) ^ i ≡ 1 [ZMOD 15] := by simpa using (show (256 : Int) ≡ 1 [ZMOD 15] from rfl).pow i
      have hres : rn (byteOf w i).toNat ≡ ((byteOf w i).toNat : Int) [ZMOD 15] := by
        rw [rn_def, Int.natCast_mod]
        exact Int.mod_modEq _ _
      push_cast
      simpa using hres.mul hone.symm
    · rfl
  simp only [residuesIn, maskedBytes, bit_eq_testBit, Nat.cast_list_sum, List.map_map]
  exact sum_modEq fun i _ => hbyte i

theorem mergedCode_eq_predictedCode (old new : CWord) (mask : Nat) : (mergedCode old new mask : Int) = predictedCode old new mask := by
  have hold := residuesIn_modEq old.data mask
  have hnew := residuesIn_modEq new.data mask
  unfold mergedCode predictedCode
  rw [m15_val]
  unfold Int.ModEq at hold hnew
  omega

/-! ### A merge of some bytes -/

section Partial

variable {old new : CWord} {mask : Nat} (hlo : 0 < mask) (hhi : mask < 15)

include hlo hhi

theorem mergeWord_partial : mergeWord old new mask =
    if old.bad || new.bad then .poisoned (mergedData old new mask)
    else if mergedCode old new mask == res (mergedData old new mask) then
      ⟨mergedData old new mask, BitVec.ofNat 4 (mergedCode old new mask)⟩
    else .poisoned (mergedData old new mask) := by
  have hmod : mask % 16 = mask := by omega
  have h15 : (mask == 15) = false := by simp; omega
  have h0 : (mask == 0) = false := by simp; omega
  simp only [mergeWord_eq, hmod, h15, h0, Bool.false_eq_true, if_false]

theorem mergeWord_data : (mergeWord old new mask).data = mergedData old new mask := by
  rw [mergeWord_partial hlo hhi]
  split
  · rfl
  · split <;> rfl

/-- Poison of either side makes the merged word Poison. -/
theorem mergeWord_of_bad (h : old.bad = true ∨ new.bad = true) : (mergeWord old new mask).bad = true := by
  have hbad : (old.bad || new.bad) = true := by simpa using h
  rw [mergeWord_partial hlo hhi, if_pos hbad]
  rfl

/-- Over words that are not Poison, the merge fails when the merged word is Poison. -/
theorem mergeFails_eq_bad (hold : old.bad = false) (hnew : new.bad = false) :
    mergeFails old new mask = (mergeWord old new mask).bad := by
  have hmod : mask % 16 = mask := by omega
  have h15 : (mask != 15) = true := by simp; omega
  have h0 : (mask != 0) = true := by simp; omega
  simp only [mergeFails, hmod, h15, h0, hold, hnew, Bool.not_false, Bool.true_and]

/-- A merge whose prediction agrees forms a word that agrees with its code. -/
theorem mergeWord_of_agrees (hold : old.bad = false) (hnew : new.bad = false)
    (h : mergedCode old new mask = res (mergedData old new mask)) : mergeWord old new mask = .of (mergedData old new mask) := by
  simp only [mergeWord_partial hlo hhi, hold, hnew, Bool.or_false, Bool.false_eq_true, if_false, h, beq_self_eq_true, if_true]
  rfl

/-- A merge whose prediction does not agree forms Poison (R19). -/
theorem mergeWord_of_differs (hold : old.bad = false) (hnew : new.bad = false)
    (h : mergedCode old new mask ≠ res (mergedData old new mask)) : mergeWord old new mask = .poisoned (mergedData old new mask) := by
  simp only [mergeWord_partial hlo hhi, hold, hnew, Bool.or_false, Bool.false_eq_true, if_false, beq_iff_eq, h]

/-- The comparison of R22: the predicted code against the residue of the merged bits. -/
theorem predictedCode_eq_iff : predictedCode old new mask = ((mergeWord old new mask).data.toNat % 15 : Nat) ↔
    mergedCode old new mask = res (mergedData old new mask) := by
  rw [← mergedCode_eq_predictedCode, mergeWord_data hlo hhi, res_mod, Int.natCast_inj]

end Partial

/-! ### A scratchpad's failed merge (R19, Table 15.10) -/

theorem wgs_poke (s : State) (pa : Nat) (ws : List CWord) : (poke s pa ws).wgs = s.wgs := by
  unfold poke
  split
  · rfl
  · split <;> rfl

theorem wgs_postEvent (s : State) (kind part info : Nat) : (postEvent s kind part info).wgs = s.wgs := by
  unfold postEvent
  dsimp only
  split
  · rfl
  · exact wgs_poke ..

/-- An error record touches no workgroup. -/
theorem wg?_appendRecord (s : State) (part kind core unit addr info0 info1 n : Nat) :
    (appendRecord s part kind core unit addr info0 info1).wg? n = s.wg? n := by
  unfold appendRecord
  dsimp only
  split
  · rfl
  · exact congrArg (look? · n) (wgs_postEvent ..)

theorem updWg_some {s : State} {n : Nat} {w : Wg} (h : s.wg? n = some w) (f : Wg → Wg) : s.updWg n f = s.setWg n (f w) := by
  simp only [State.updWg, h]

/-- A sound word that fails its merge into a scratchpad is recorded, and the merged word is stored. -/
theorem spadWrite_of_mergeFails {s : State} {n o mask : Nat} {w : Wg} {new : CWord} (hw : s.wg? n = some w) (hmask : mask < 16)
    (hnew : new.passes = true) (hfails : mergeFails (lookD .zero w.spad (o / 4)) new mask = true) :
    spadWrite s n o mask [new] =
      (appendRecord s (s.partOf w) 0x01 w.core (clusterUnit w.core) (65536 * w.base + o) 0 0).updWg n fun v =>
        { v with spad := put .zero v.spad (o / 4) (mergeWord (lookD .zero w.spad (o / 4)) new mask) } := by
  have hcheck : checkIn s 0 (clusterUnit w.core) (s.partOf w) w.core (65536 * w.base + o) [new] = (s, [new]) :=
    checkIn_passing (by simpa using hnew) ..
  have hbits : bitsAt mask (4 * 0) 4 = mask := by simpa [bitsAt] using Nat.mod_eq_of_lt hmask
  have hread : w.spadRead o 1 = [lookD .zero w.spad (o / 4)] := rfl
  have hwg := (wg?_appendRecord s (s.partOf w) 0x01 w.core (clusterUnit w.core) (65536 * w.base + o) 0 0 n).trans hw
  simp only [spadWrite, hw, spadWriteBy, hcheck, List.length_singleton, hread, checkMerge, List.getD_cons_zero, hfails, if_true,
    List.range_one, List.foldl_cons, List.foldl_nil, hbits, Nat.add_zero, updWg_some hwg]

/-- Settles O36: the merged word agrees with the predicted code, or is Poison. -/
theorem mergeByPrediction : Obligations.MergeByPrediction := by
  unfold Obligations.MergeByPrediction
  intro old new mask hlo hhi m bytes code
  have hcode : code = predictedCode old new mask := rfl
  refine ⟨fun i hi => byteOf_mergeWord old new mask hi, mergeWord_of_bad hlo hhi, fun hold hnew => ⟨fun h => ?_, fun h => ?_⟩,
    fun hpass hold hnew => ?_, fun s n o w hw hspad hnew hfails => ?_⟩
  · have hagrees := (predictedCode_eq_iff hlo hhi).mp h
    have hm : m = .of (mergedData old new mask) := mergeWord_of_agrees hlo hhi hold hnew hagrees
    have hsound : m.bad = false := by rw [hm]; exact of_not_bad _
    refine ⟨?_, hsound, (mergeFails_eq_bad hlo hhi hold hnew).trans hsound⟩
    rw [hcode, ← mergedCode_eq_predictedCode, BitVec.ofInt_natCast, hagrees, hm]
    rfl
  · have hdiffers := mt (predictedCode_eq_iff hlo hhi).mpr h
    have hbad : m.bad = true := congrArg CWord.bad (mergeWord_of_differs hlo hhi hold hnew hdiffers)
    exact ⟨hbad, (mergeFails_eq_bad hlo hhi hold hnew).trans hbad⟩
  · have hm : m = .of (mergedData old new mask) :=
      mergeWord_of_agrees hlo hhi hold hnew (mergedCode_of_passes hpass hold new mask)
    rw [hm]
    exact ⟨of_passes _, of_not_bad _⟩
  · subst hspad
    exact spadWrite_of_mergeFails hw (by omega) hnew hfails

end Sys2Proof.Proofs
end

section
/-! A trap and its return (R35, R166, R425, R426): O22. -/

namespace Sys2Proof.Proofs

open Sys2Proof.Machine Sys2Proof.Safety

/-! ### Threads of a mask -/

theorem getLsbD_maskOf (l : List Nat) (i : Nat) : (maskOf l).getLsbD i = (decide (i < 64) && decide (i ∈ l)) := by
  have hfold : ∀ m : BitVec 64, (l.foldl (fun m i => m ||| (1#64 <<< i)) m).getLsbD i =
      (m.getLsbD i || (decide (i < 64) && decide (i ∈ l))) := by
    induction l with
    | nil => simp
    | cons j l ih =>
      intro m
      have hbit : (1#64 <<< j).getLsbD i = (decide (i < 64) && decide (i = j)) := by
        rw [BitVec.getLsbD_shiftLeft, BitVec.getLsbD_one, Bool.eq_iff_iff]
        simp only [Bool.and_eq_true, Bool.not_eq_true', decide_eq_true_eq, decide_eq_false_iff_not]
        omega
      rw [List.foldl_cons, ih, BitVec.getLsbD_or, hbit, Bool.or_assoc, ← Bool.and_or_distrib_left]
      simp only [List.mem_cons, Bool.decide_or]
  simpa [maskOf] using hfold 0#64

theorem mem_threadsWhere {g : Tg} {p : Thread → Bool} {i : Nat} {t : Thread} (h : g.threads[i]? = some t) :
    i ∈ g.threadsWhere p ↔ p t = true := by
  have hlt : i < g.threads.length := (List.getElem?_eq_some_iff.mp h).1
  simp only [Tg.threadsWhere, List.mem_filter, List.mem_range, hlt, h, true_and, Option.map_some, Option.getD_some]

theorem threads_mapThreads (g : Tg) (m : BitVec 64) (f : Nat → Thread → Thread) (i : Nat) :
    (g.mapThreads m f).threads[i]? = g.threads[i]?.map fun t => if m.getLsbD i then f i t else t := getElem?_zipRange ..

theorem threads_countIssue (g : Tg) (set : BitVec 64) (i : Nat) :
    (g.countIssue set).threads[i]? = g.threads[i]?.map fun t => { t with age := if set.getLsbD i then 0 else min 255 (t.age + 1) } :=
  getElem?_zipRange ..

/-! ### The return (R426) -/

/-- The address of `sr.tpc`. -/
abbrev returnPc (g : Tg) : BitVec 57 := g.tpc.setWidth 57

/-- The return goes on with the interrupted shot: to the trapped instruction, or behind one that was not the shot's `CUT`. -/
abbrev Continues (g : Tg) (sv : SavedShot) : Prop := returnPc g = sv.tpc ∨ returnPc g = sv.tpc + 12#57 ∧ sv.wasCut = false

/-- A return but for the shot that it opens: the threads that the trap took stand at `sr.tpc`, those it held are released. -/
def returnedTo (g : Tg) (sv : SavedShot) : Tg :=
  { g.release sv with super := false, ret := false, saved := none }.mapThreads sv.set fun _ t =>
    { t with pc := returnPc g, next := none }

theorem returnedTo_pc {g : Tg} {sv : SavedShot} {i : Nat} {t : Thread} (h : (returnedTo g sv).threads[i]? = some t)
    (hset : sv.set.getLsbD i = true) : t.pc = returnPc g := by
  rw [returnedTo, threads_mapThreads, Option.map_eq_some_iff] at h
  obtain ⟨u, -, rfl⟩ := h
  rw [if_pos hset]

section Return

variable {g : Tg} {sv : SavedShot} (hsaved : g.saved = some sv) (hboundary : sv.boundary = false) (hexit : sv.atExit = false)

include hsaved hboundary hexit

theorem trapReturn_eq : g.trapReturn =
    if Continues g sv then
      { returnedTo g sv with
        threads := ((returnedTo g sv).threads.zip sv.nexts).map fun tn => { tn.1 with next := tn.2 }
        shot := { sv.shot with pc := returnPc g }
        phase := .ready
        temps := sv.temps }
    else { returnedTo g sv with kept := g.kept ++ sv.shot.waits, shot := Shot.none, phase := .ready, temps := [] } := by
  have hiff : (returnPc g == sv.tpc || (returnPc g == sv.tpc + 12#57 && !sv.wasCut)) = true ↔ Continues g sv := by simp
  rw [← if_congr hiff rfl rfl]
  simp only [Tg.trapReturn, hsaved, hexit, hboundary, Bool.false_eq_true, if_false]
  rfl

/-- Wherever it goes, a return ends the handler, with the threads of the trap at `sr.tpc`. -/
theorem trapReturn_user : g.trapReturn.super = false ∧ g.trapReturn.saved = none ∧ g.trapReturn.phase = .ready ∧
    ∀ i t, g.trapReturn.threads[i]? = some t → sv.set.getLsbD i = true → t.pc = returnPc g := by
  rw [trapReturn_eq hsaved hboundary hexit]
  split
  · refine ⟨rfl, rfl, rfl, fun i t ht hset => ?_⟩
    rw [List.getElem?_map, Option.map_eq_some_iff] at ht
    obtain ⟨⟨u, n⟩, hu, rfl⟩ := ht
    have hpc : u.pc = returnPc g := returnedTo_pc (List.getElem?_zip_eq_some.mp hu).1 hset
    exact hpc
  · exact ⟨rfl, rfl, rfl, fun i t ht hset => returnedTo_pc ht hset⟩

/-- A return that goes on has the interrupted shot and its temporaries back. -/
theorem trapReturn_of_continues (h : Continues g sv) :
    g.trapReturn.shot = { sv.shot with pc := returnPc g } ∧ g.trapReturn.temps = sv.temps ∧ g.trapReturn.kept = g.kept := by
  rw [trapReturn_eq hsaved hboundary hexit, if_pos h]
  exact ⟨rfl, rfl, rfl⟩

/-- A return elsewhere opens a new shot, and keeps the waits that the interrupted one deferred (R166). -/
theorem trapReturn_of_not_continues (h : ¬ Continues g sv) :
    g.trapReturn.shot = Shot.none ∧ g.trapReturn.kept = g.kept ++ sv.shot.waits := by
  rw [trapReturn_eq hsaved hboundary hexit, if_neg h]
  exact ⟨rfl, rfl⟩

end Return

/-! ### The trap, then the return -/

/-- A thread behind a trap: those of the set stand at the vector, the others that were ready are held (R425). -/
def trapped (set : BitVec 64) (v : BitVec 57) (i : Nat) (t : Thread) : Thread :=
  if set.getLsbD i then { t with status := .ready, pc := v, next := none }
  else if i < 64 ∧ t.status = .ready then { t with status := .held } else t

/-- A thread behind the return of a trap: those of its set stand at `sr.tpc`, those that it held are released (R426). -/
def resumed (sv : SavedShot) (tpc : BitVec 57) (i : Nat) (t : Thread) : Thread :=
  let u : Thread := if i < 64 ∧ sv.serialHeld.getLsbD i = false ∧ t.status = .held then { t with status := .ready } else t
  if sv.set.getLsbD i then { u with pc := tpc, next := none } else u

theorem threads_enterTrap (g : Tg) (cause : BitVec 32) (mask set : BitVec 64) (tpc v : BitVec 57) (sv : SavedShot) (i : Nat) :
    (g.enterTrap cause mask set tpc v sv).threads[i]? = g.threads[i]?.map (trapped set v i) := by
  simp only [Tg.enterTrap, threads_mapThreads, Option.map_map]
  congr 1
  funext t
  by_cases hset : set.getLsbD i = true
  · simp [trapped, hset]
  · simp [trapped, hset, ite_and]

theorem threads_returnedTo (g : Tg) (sv : SavedShot) (i : Nat) :
    (returnedTo g sv).threads[i]? = g.threads[i]?.map (resumed sv (returnPc g) i) := by
  simp only [returnedTo, Tg.release, threads_mapThreads, Option.map_map]
  congr 1
  funext t
  simp only [Function.comp, resumed, BitVec.getLsbD_not, Bool.and_eq_true, decide_eq_true_eq, Bool.not_eq_true', beq_iff_eq, ite_and]

/-- The threads that were held before the trap stay so: the snapshot names them. -/
theorem serialHeld_snapshot {g : Tg} {i : Nat} {t : Thread} (h : g.threads[i]? = some t) (set : BitVec 64) (pc : BitVec 57)
    (cut boundary atExit : Bool) : (g.snapshot set pc cut boundary atExit).serialHeld.getLsbD i = (decide (i < 64) && t.status == .held) := by
  rw [Tg.snapshot, getLsbD_maskOf]
  simp only [mem_threadsWhere h, Bool.decide_eq_true]

/-- A thread is again what it was: one of the issue set was ready at the trapped instruction, and its target comes back; of the
others, the return releases those that the trap held, and no other. -/
theorem resumed_trapped {sv : SavedShot} {v : BitVec 57} {i : Nat} {t : Thread}
    (hheld : sv.serialHeld.getLsbD i = (decide (i < 64) && t.status == .held))
    (hset : sv.set.getLsbD i = true → t.status = .ready ∧ t.pc = sv.tpc) :
    { resumed sv sv.tpc i (trapped sv.set v i t) with next := t.next } = t := by
  obtain ⟨guards, pc, linkLo, linkHi, status, age, ccnt, next⟩ := t
  simp only [resumed, trapped, hheld]
  generalize sv.set.getLsbD i = taken at hset ⊢
  cases taken with
  | true =>
    obtain ⟨rfl, rfl⟩ := hset rfl
    simp
  | false =>
    by_cases hi : i < 64
    · cases status <;> simp [hi]
    · simp [hi]

/-- The threads of the issue set are ready at the address of the shot. -/
def ReadyAtShot (g : Tg) : Prop :=
  ∀ i t, g.threads[i]? = some t → g.shot.set.getLsbD i = true → t.status = .ready ∧ t.pc = g.shot.pc

/-- The threads of a group whose trap has returned to the trapped instruction. -/
theorem threads_trapReturn_enterTrap {g : Tg} (cause : BitVec 32) (mask : BitVec 64) (v : BitVec 57) (cut : Bool)
    (hset : ReadyAtShot g) :
    let sv := g.snapshot g.shot.set g.shot.pc cut false false
    ((returnedTo (g.enterTrap cause mask g.shot.set g.shot.pc v sv) sv).threads.zip sv.nexts).map
      (fun tn => { tn.1 with next := tn.2 }) = g.threads := by
  intro sv
  have htpc : returnPc (g.enterTrap cause mask g.shot.set g.shot.pc v sv) = sv.tpc := by simp [sv, Tg.enterTrap, Tg.snapshot]
  have hnexts (i : Nat) : sv.nexts[i]? = g.threads[i]?.map (·.next) := List.getElem?_map ..
  apply List.ext_getElem?
  intro i
  rw [List.map_zip_eq_zipWith, List.getElem?_zipWith, threads_returnedTo, threads_enterTrap, htpc, hnexts]
  cases ht : g.threads[i]? with
  | none => rfl
  | some t =>
    simp only [Option.map_some, Option.some.injEq, Function.curry]
    exact resumed_trapped (serialHeld_snapshot ht g.shot.set g.shot.pc cut false false) (hset i t ht)

/-- A trap of a thread group that was ready, and the return that leaves `sr.tpc` alone. -/
theorem trapReturn_enterTrap {g : Tg} (cause : BitVec 32) (mask : BitVec 64) (v : BitVec 57) (cut : Bool)
    (hsuper : g.super = false) (hsaved : g.saved = none) (hret : g.ret = false) (hphase : g.phase = .ready)
    (hset : ReadyAtShot g) :
    (g.enterTrap cause mask g.shot.set g.shot.pc v (g.snapshot g.shot.set g.shot.pc cut false false)).trapReturn =
      { g with tcause := cause, tmask := mask, tpc := g.shot.pc.setWidth 64, flights := [] } := by
  have htpc : (g.shot.pc.setWidth 64).setWidth 57 = g.shot.pc := by simp
  rw [trapReturn_eq rfl rfl rfl, if_pos (.inl htpc), threads_trapReturn_enterTrap cause mask v cut hset]
  cases g
  cases hsuper
  cases hsaved
  cases hret
  cases hphase
  simp [returnedTo, Tg.release, Tg.mapThreads, Tg.enterTrap, Tg.snapshot]

/-- The state after a trap holds the thread group that entered it, its issue counted and its step ended. -/
theorem takeTrap_tg {s : State} {r : TgRef} {g : Tg} {w : Wg} (cause : BitVec 32) (mask : BitVec 64) (cut : Bool)
    (hg : s.tg? r = some g) (hw : s.wg? r.wg = some w) (hsuper : g.super = false) (hphase : g.phase = .ready)
    (hcause : causeOf cause ≠ 2) :
    let g1 := { g.countIssue g.shot.set with debug := Debug.halted g.debug }
    (takeTrap s r cause mask cut).tg? r =
      some (g1.enterTrap cause mask g.shot.set g.shot.pc (trapVector s w) (g1.snapshot g.shot.set g.shot.pc cut false false)) := by
  intro g1
  have hc : (causeOf cause == 2) = false := by simpa using hcause
  simp only [takeTrap, hg, hw, hc, hsuper, hphase, Bool.false_and, Bool.false_eq_true, if_false]
  exact State.tg?_setTg_self hg _

/-- Settles O22: the trap and the return that replays undo each other, thread by thread; a return elsewhere is read off its two
cases. -/
theorem trapThenReturn : Obligations.TrapThenReturn := by
  unfold Obligations.TrapThenReturn
  refine ⟨fun s r g w cause mask cut hg hw hsuper hsaved hret hphase hcause hset => ?_, fun g sv hsaved hboundary hexit => ?_⟩
  · rw [takeTrap_tg cause mask cut hg hw hsuper hphase hcause, Option.map_some, Option.some.injEq]
    refine trapReturn_enterTrap (g := { g.countIssue g.shot.set with debug := Debug.halted g.debug }) cause mask _ cut hsuper hsaved
      hret hphase fun i t ht hi => ?_
    obtain ⟨u, hu, rfl⟩ := Option.map_eq_some_iff.mp ((threads_countIssue ..).symm.trans ht)
    exact hset i u hu hi
  · obtain ⟨huser, hnone, hready, hpcs⟩ := trapReturn_user hsaved hboundary hexit
    refine ⟨huser, hnone, hready, hpcs, fun hnext hcut => ?_, fun hmoved helsewhere => ?_⟩
    · exact trapReturn_of_continues hsaved hboundary hexit (.inr ⟨hnext, hcut⟩)
    · refine trapReturn_of_not_continues hsaved hboundary hexit ?_
      rw [not_or, not_and_or, Bool.not_eq_false]
      exact ⟨hmoved, helsewhere⟩

end Sys2Proof.Proofs
end

section
/-! The memory controllers: reads, whole and partial writes of an atom, bandwidth weights (R45 to R49, R53, R88): O47. -/

namespace Sys2Proof.Proofs

open Sys2Proof.Machine Sys2Proof.Safety

/-! ### Words and bytes in memory -/

theorem look?_del_self {α : Type} (m : Sparse α) (k : Nat) : look? (del m k) k = none := by
  induction m with
  | nil => rfl
  | cons a m ih =>
    obtain ⟨j, w⟩ := a
    by_cases h : j = k <;> simp [del, look?, h, ih]

/-- Words written from an address stand there, byte by byte. -/
theorem rdByte_wrWords (m : Memory) (a : Nat) (ws : List CWord) {j : Nat} (hj : j < 4 * ws.length) :
    rdByte (wrWords m a (ws.map (·.data))) (a + j) = byteIn ws j := by
  induction ws generalizing m a j with
  | nil => simp at hj
  | cons w ws ih =>
    rw [List.length_cons] at hj
    rw [List.map_cons, wrWords]
    by_cases hfirst : j < 4
    · rw [rdByte_wrWords_ne _ _ (.inl (by omega)), rdByte_wrWord _ _ _ _ hfirst, byteIn_cons_zero w ws hfirst]
    · rw [byteIn_cons_succ w ws (Nat.not_lt.mp hfirst), show a + j = a + 4 + (j - 4) by omega]
      exact ih _ _ (by omega)

theorem byteOf_rdWord (m : Memory) (a : Nat) {i : Nat} (hi : i < 4) : byteOf (rdWord m a) i = rdByte m (a + i) :=
  byteOf_append (fun j => rdByte m (a + j)) hi

theorem length_storedWords (s : State) (a n : Nat) : (storedWords s a n).length = n := by simp [storedWords]

/-- The stored words of an atom hold its bytes, Poison or not. -/
theorem byteIn_storedWords (s : State) (a : Nat) {n j : Nat} (hj : j < 4 * n) :
    byteIn (storedWords s a n) j = rdByte s.mm.bytes (a + j) := by
  have hword : ((storedWords s a n).getD (j / 4) .zero).data = rdWord s.mm.bytes (a + 4 * (j / 4)) := by
    have hlt : j / 4 < n := by omega
    simp only [storedWords, List.getD_eq_getElem?_getD, List.getElem?_map, List.getElem?_range hlt, Option.map_some, Option.getD_some]
    split <;> rfl
  rw [byteIn, hword, byteOf_rdWord _ _ (by omega), show a + 4 * (j / 4) + j % 4 = a + j by omega]

theorem length_mergeWords (l : List CWord) (k m : Nat) (ws : List CWord) : (mergeWords l k m ws).length = l.length := by
  induction ws generalizing l k m with
  | nil => rfl
  | cons w ws ih => rw [mergeWords, ih, List.length_set]

/-! ### Storing an atom (R45) -/

theorem rdByte_storeAtom (s : State) (a : Nat) (ws : List CWord) (i : Nat) :
    rdByte (storeAtom s a ws).mm.bytes i = if a ≤ i ∧ i < a + 4 * ws.length then byteIn ws (i - a) else rdByte s.mm.bytes i := by
  show rdByte (wrWords s.mm.bytes a (ws.map (·.data))) i = _
  split
  next h =>
    obtain ⟨j, rfl⟩ := Nat.exists_eq_add_of_le h.1
    rw [rdByte_wrWords _ _ _ (by omega), Nat.add_sub_cancel_left]
  next h => exact rdByte_wrWords_ne _ _ (by rw [List.length_map]; omega)

theorem look?_errs_storeAtom (s : State) (a : Nat) (ws : List CWord) : look? (storeAtom s a ws).mm.errs a = none :=
  look?_del_self ..

/-- The Poison mask of a stored atom is that of its words. -/
theorem mem_poison_storeAtom (s : State) (a : Nat) (ws : List CWord) {i : Nat} (hlo : a / 4 ≤ i) (hhi : i < a / 4 + ws.length) :
    i ∈ (storeAtom s a ws).mm.poison ↔ (ws.getD (i - a / 4) .zero).bad = true := by
  obtain ⟨j, rfl⟩ := Nat.exists_eq_add_of_le hlo
  have hj : j < ws.length := by omega
  simp only [storeAtom, List.mem_append, List.mem_filter, List.mem_map, List.mem_range, decide_eq_true_eq]
  have hbefore : ¬ a / 4 + j < a / 4 := by omega
  have hafter : ¬ a / 4 + ws.length ≤ a / 4 + j := by omega
  simp only [hbefore, hafter, and_false, false_or, or_false, Nat.add_left_cancel_iff, exists_eq_right, hj, true_and,
    Nat.add_sub_cancel_left]

/-! ### An atom that a die serves and that decodes without error (R46) -/

theorem atomBytes_cases (s : State) (a : Nat) : atomBytes s a = 64 ∨ atomBytes s a = 32 := by
  unfold atomBytes
  split
  · exact .inl rfl
  · exact .inr rfl

theorem atomBytes_words (s : State) (a : Nat) : 4 * (atomBytes s a / 4) = atomBytes s a := by
  obtain h | h := atomBytes_cases s a <;> rw [h]

theorem atom_aligned {s : State} {a : Nat} (h : a = atomOf s a) : a % 4 = 0 := by
  rw [atomOf] at h
  obtain hn | hn := atomBytes_cases s a <;> rw [hn] at h <;> omega

theorem byteMask_zero (n : Nat) : byteMask 0 n = 2 ^ n - 1 := by simp [byteMask]

theorem entryFails_passing {ws : List CWord} (h : ∀ w ∈ ws, w.passes = true) (mask : Nat) : entryFails mask ws = 0 := by
  induction ws generalizing mask with
  | nil => rfl
  | cons w ws ih =>
    obtain ⟨hw, hws⟩ := List.forall_mem_cons.mp h
    simp [entryFails, hw, ih hws]

theorem map_entered_passing {ws : List CWord} (h : ∀ w ∈ ws, w.passes = true) : ws.map CWord.entered = ws := by
  conv_rhs => rw [← List.map_id ws]
  exact List.map_congr_left fun w hw => if_pos (h w hw)

section Sound

/-- A die serves the atom, its contents are settled, and no symbol of it is in error. -/
structure SoundAtom (s : State) (a : Nat) : Prop where
  served : populated s a = true
  settled : unsettledAt s a = none
  sound : look? s.mm.errs a = none

variable {s : State} {a : Nat} (h : SoundAtom s a)
include h

theorem SoundAtom.decode : decodeAtom s a = (s, some (storedWords s a (atomBytes s a / 4))) := by
  simp only [decodeAtom, h.settled, h.sound, Bool.false_eq_true, if_false]

theorem SoundAtom.read (part core : Nat) : atomRead s part core a = (s, storedWords s a (atomBytes s a / 4)) := by
  simp only [atomRead, h.served, h.decode, Bool.not_true, Bool.false_eq_true, if_false]

variable {ws : List CWord} (hpass : ∀ w ∈ ws, w.passes = true)
include hpass

/-- A write of every byte stores the words that arrive. -/
theorem SoundAtom.write_whole (part core : Nat) {mask : Nat} (hmask : maskSub (2 ^ atomBytes s a - 1) mask = true) :
    atomWrite s part core a mask ws = storeAtom s a ws := by
  simp only [atomWrite, h.served, atomBytes_words, byteMask_zero, hmask, map_entered_passing hpass, entryFails_passing hpass,
    Bool.not_true, Bool.false_eq_true, if_false, if_true, List.range_zero, List.foldl_nil]

/-- A write of some bytes merges them into the words as stored (R47). -/
theorem SoundAtom.write_part (part core : Nat) {mask : Nat} (hmask : maskSub (2 ^ atomBytes s a - 1) mask = false) :
    atomWrite s part core a mask ws = storeAtom s a (mergeWords (storedWords s a (atomBytes s a / 4)) 0 mask ws) := by
  simp only [atomWrite, h.served, atomBytes_words, byteMask_zero, hmask, map_entered_passing hpass, entryFails_passing hpass,
    h.decode, Bool.not_true, Bool.false_eq_true, if_false, List.range_zero, List.foldl_nil]

end Sound

/-- The bytes after some of an atom's have been merged into it. -/
theorem rdByte_storeAtom_merged (s : State) (a mask : Nat) (ws : List CWord) (i : Nat) :
    rdByte (storeAtom s a (mergeWords (storedWords s a ws.length) 0 mask ws)).mm.bytes i =
      if a ≤ i ∧ i < a + 4 * ws.length ∧ mask.testBit (i - a) = true then byteIn ws (i - a) else rdByte s.mm.bytes i := by
  rw [rdByte_storeAtom, length_mergeWords, length_storedWords]
  by_cases hin : a ≤ i ∧ i < a + 4 * ws.length
  · obtain ⟨j, rfl⟩ := Nat.exists_eq_add_of_le hin.1
    have hj : j < 4 * ws.length := by omega
    rw [if_pos hin, Nat.add_sub_cancel_left, byteIn_mergeWords _ _ _ _ (by rw [length_storedWords]; omega), byteIn_storedWords s a hj]
    simp only [Nat.mul_zero, Nat.zero_le, Nat.zero_add, Nat.sub_zero, hj, Nat.le_add_right, Nat.add_lt_add_iff_left, true_and]
  · rw [if_neg hin, if_neg (by tauto)]

/-! ### Bandwidth weights (R88) -/

theorem mem_competing {s : State} {stack p : Nat} :
    p ∈ competing s stack ↔ p < 8 ∧ ∃ x ∈ s.mm.queue, stackOf s x.atom = stack ∧ x.part = p := by
  simp [competing]

/-- A partition alone at its stack has no share to keep. -/
theorem weightAllows_alone {s : State} {stack p : Nat} (h : ∀ x ∈ s.mm.queue, stackOf s x.atom = stack → x.part = p) :
    weightAllows s stack p = true := by
  refine List.all_eq_true.mpr fun p' hp' => ?_
  obtain ⟨hmem, hne⟩ := List.mem_filter.mp hp'
  obtain ⟨-, x, hx, hstack, rfl⟩ := mem_competing.mp hmem
  simp [h x hx hstack] at hne

/-- A partition of weight 0 waits for one of nonzero weight at its stack. -/
theorem weightAllows_outweighed {s : State} {stack p : Nat} {z : McReq} (hz : z ∈ s.mm.queue) (hstack : stackOf s z.atom = stack)
    (hpart : z.part < 8) (hp : s.cs.weight.getD p 0#8 = 0#8) (hweight : s.cs.weight.getD z.part 0#8 ≠ 0#8) :
    weightAllows s stack p = false := by
  have hne : z.part ≠ p := fun h => hweight (h ▸ hp)
  have hmem : z.part ∈ (competing s stack).filter (· != p) :=
    List.mem_filter.mpr ⟨mem_competing.mpr ⟨hpart, z, hz, hstack, rfl⟩, bne_iff_ne.mpr hne⟩
  have hlight : weightOf s p = 0 := congrArg BitVec.toNat hp
  have hheavy : weightOf s z.part ≠ 0 := fun h => hweight (BitVec.eq_of_toNat_eq h)
  exact List.all_eq_false.mpr ⟨z.part, hmem, by simp [hlight, hheavy]⟩

/-! ### A request's turn (R49) -/

/-- The request has left the controllers' queue. -/
def dequeued (s : State) (i : Nat) : State := { s with mm := { s.mm with queue := s.mm.queue.eraseIdx i } }

/-- The request has been served, and counted for the shares of its stack. -/
def servedAt (s : State) (i : Nat) (q : McReq) : State :=
  countServed (serveReq (dequeued s i) q) (stackOf s q.atom) q.part (competing s (stackOf s q.atom))

/-- A state with other counts of the atoms served. -/
def withServed (s : State) (v : Sparse Nat) : State := { s with mm := { s.mm with served := v } }

/-- The counting changes the counts alone. -/
theorem servedAt_eq (s : State) (i : Nat) (q : McReq) : ∃ v, servedAt s i q = withServed (serveReq (dequeued s i) q) v :=
  ⟨_, rfl⟩

theorem atomBytes_dequeued (s : State) (i a : Nat) : atomBytes (dequeued s i) a = atomBytes s a := rfl

theorem storedWords_dequeued (s : State) (i a n : Nat) : storedWords (dequeued s i) a n = storedWords s a n := rfl

theorem full_eq (s : State) (q : McReq) : q.full s = maskSub (2 ^ atomBytes s q.atom - 1) q.mask := by
  rw [McReq.full, byteMask_zero]

section Turn

variable {s : State} {i : Nat} {q : McReq} {p : McReq → Bool} (hq : s.mm.queue[i]? = some q)
include hq

theorem serveAt_turn (hfirst : ∀ x ∈ s.mm.queue.take i, x.atom ≠ q.atom) (hallow : weightAllows s (stackOf s q.atom) q.part = true)
    (hp : p q = true) : serveAt s i p = servedAt s i q := by
  have hnone : ((s.mm.queue.take i).any fun x => x.atom == q.atom) = false := by simpa using hfirst
  simp only [serveAt, hq, hp, hnone, hallow, Bool.not_true, Bool.or_false, Bool.false_eq_true, if_false]
  rfl

theorem serveAt_other (hp : p q = false) : serveAt s i p = s := by
  simp only [serveAt, hq, hp, Bool.not_false, Bool.true_or, if_true]

theorem serveAt_outweighed (hwaits : weightAllows s (stackOf s q.atom) q.part = false) : serveAt s i p = s := by
  simp only [serveAt, hq, hwaits, Bool.not_false, Bool.or_true, if_true]

end Turn

section Events

variable {s : State} {q : McReq} (hq : s.mm.queue[s.unit]? = some q)
include hq

/-- A request of a partition that is outweighed at its stack waits, whichever event would serve it. -/
theorem exec_outweighed (hwaits : weightAllows s (stackOf s q.atom) q.part = false) :
    exec .hbmAtomRead s = .next s ∧ exec .hbmAtomWrite s = .next s ∧ exec .hbmReadModifyWrite s = .next s :=
  have hstays (p : McReq → Bool) : Host.Outcome.next (serveAt s s.unit p) = .next s := congrArg _ (serveAt_outweighed hq hwaits)
  ⟨hstays _, hstays _, hstays _⟩

theorem exec_hbmAtomRead_write (hwrite : q.write = true) : exec .hbmAtomRead s = .next s :=
  congrArg Host.Outcome.next (serveAt_other (p := fun x => !x.write) hq (by simp [hwrite]))

theorem exec_hbmAtomWrite_part (hmask : maskSub (2 ^ atomBytes s q.atom - 1) q.mask = false) : exec .hbmAtomWrite s = .next s :=
  congrArg Host.Outcome.next (serveAt_other (p := fun x => x.write && x.full s) hq (by simp [full_eq, hmask]))

variable (hfirst : ∀ x ∈ s.mm.queue.take s.unit, x.atom ≠ q.atom) (hallow : weightAllows s (stackOf s q.atom) q.part = true)
include hfirst hallow

theorem exec_hbmAtomRead_turn (hread : q.write = false) : exec .hbmAtomRead s = .next (servedAt s s.unit q) :=
  congrArg Host.Outcome.next (serveAt_turn (p := fun x => !x.write) hq hfirst hallow (by simp [hread]))

theorem exec_hbmAtomWrite_turn (hwrite : q.write = true) (hmask : maskSub (2 ^ atomBytes s q.atom - 1) q.mask = true) :
    exec .hbmAtomWrite s = .next (servedAt s s.unit q) :=
  congrArg Host.Outcome.next
    (serveAt_turn (p := fun x => x.write && x.full s) hq hfirst hallow (by simp [hwrite, full_eq, hmask]))

theorem exec_hbmReadModifyWrite_turn (hwrite : q.write = true) (hmask : maskSub (2 ^ atomBytes s q.atom - 1) q.mask = false) :
    exec .hbmReadModifyWrite s = .next (servedAt s s.unit q) :=
  congrArg Host.Outcome.next
    (serveAt_turn (p := fun x => x.write && !x.full s) hq hfirst hallow (by simp [hwrite, full_eq, hmask]))

end Events

/-! ### What serving a sound atom does -/

/-- A line that waits for an atom takes its words. -/
def filledBy (a : Nat) (ws : List CWord) (ln : L2Line) : L2Line := if ln.holds a then fillLine ln (a % 128 / 4) ws else ln

section Served

variable {s : State} {q : McReq} (h : SoundAtom s q.atom) (i : Nat)
include h

theorem SoundAtom.dequeue : SoundAtom (dequeued s i) q.atom := ⟨h.served, h.settled, h.sound⟩

/-- A read gives the stored words to the line that waits for them. -/
theorem servedAt_read (hread : q.write = false) : ∃ v, servedAt s i q =
    { s with
      mm := { s.mm with queue := s.mm.queue.eraseIdx i, served := v }
      cs := { s.cs with l2 := s.cs.l2.map (filledBy q.atom (storedWords s q.atom (atomBytes s q.atom / 4))) } } := by
  obtain ⟨v, hv⟩ := servedAt_eq s i q
  have hserve : serveReq (dequeued s i) q = { dequeued s i with
      cs := { s.cs with l2 := s.cs.l2.map (filledBy q.atom (storedWords s q.atom (atomBytes s q.atom / 4))) } } := by
    rw [serveReq, if_neg (by simp [hread]), (h.dequeue i).read, atomBytes_dequeued, storedWords_dequeued]
    rfl
  rw [hserve] at hv
  exact ⟨v, hv⟩

variable (hwrite : q.write = true) (hpass : ∀ w ∈ q.words, w.passes = true)
include hwrite hpass

theorem servedAt_whole (hmask : maskSub (2 ^ atomBytes s q.atom - 1) q.mask = true) :
    ∃ v, servedAt s i q = withServed (storeAtom (dequeued s i) q.atom q.words) v := by
  obtain ⟨v, hv⟩ := servedAt_eq s i q
  rw [serveReq, if_pos hwrite, (h.dequeue i).write_whole hpass _ _ (by rwa [atomBytes_dequeued])] at hv
  exact ⟨v, hv⟩

theorem servedAt_part (hlen : q.words.length = atomBytes s q.atom / 4)
    (hmask : maskSub (2 ^ atomBytes s q.atom - 1) q.mask = false) :
    ∃ v, servedAt s i q =
      withServed (storeAtom (dequeued s i) q.atom (mergeWords (storedWords (dequeued s i) q.atom q.words.length) 0 q.mask q.words)) v := by
  obtain ⟨v, hv⟩ := servedAt_eq s i q
  rw [serveReq, if_pos hwrite, (h.dequeue i).write_part hpass _ _ (by rwa [atomBytes_dequeued]), atomBytes_dequeued, ← hlen] at hv
  exact ⟨v, hv⟩

end Served

/-! ### The statement -/

/-- Settles O47: a request whose turn has come is served and counted; served, a sound atom is read, stored or merged into. -/
theorem memoryControllers : Obligations.MemoryControllers := by
  unfold Obligations.MemoryControllers
  refine ⟨fun s q hq hfirst haligned hpop hsettled hsound halone => ?_, fun s q hq hfirst hallow => ?_⟩
  · have hatom : SoundAtom s q.atom := ⟨hpop, hsettled, hsound⟩
    have hallow := weightAllows_alone halone
    have hbytes := atomBytes_words s q.atom
    refine ⟨fun hread => ?_, exec_hbmAtomRead_write hq, fun hwrite hlen hall => ?_, ?_⟩
    · obtain ⟨v, hv⟩ := servedAt_read hatom s.unit hread
      exact ⟨v, (exec_hbmAtomRead_turn hq hfirst hallow hread).trans (congrArg _ hv)⟩
    · have hpass := List.all_eq_true.mp hall
      refine ⟨fun hmask => ?_, fun hmask => ⟨exec_hbmAtomWrite_part hq hmask, ?_⟩⟩
      · obtain ⟨v, hv⟩ := servedAt_whole hatom s.unit hwrite hpass hmask
        refine ⟨_, (exec_hbmAtomWrite_turn hq hfirst hallow hwrite hmask).trans (congrArg _ hv), rfl,
          look?_errs_storeAtom (dequeued s s.unit) q.atom q.words, rfl, fun i hi => ?_, fun i hi => ?_, fun i hi => ?_⟩
        · exact (rdByte_storeAtom ..).trans (if_pos (by omega))
        · exact (rdByte_storeAtom ..).trans (if_neg (by omega))
        · have := atom_aligned haligned
          exact mem_poison_storeAtom _ _ _ (by omega) (by omega)
      · obtain ⟨v, hv⟩ := servedAt_part hatom s.unit hwrite hpass hlen hmask
        refine ⟨_, (exec_hbmReadModifyWrite_turn hq hfirst hallow hwrite hmask).trans (congrArg _ hv), rfl,
          fun i hi => ?_, fun i hi => ?_⟩
        · refine (rdByte_storeAtom_merged (dequeued s s.unit) ..).trans ?_
          simp only [show q.atom ≤ i ∧ i < q.atom + 4 * q.words.length by omega, true_and]
          rfl
        · exact (rdByte_storeAtom_merged (dequeued s s.unit) ..).trans (if_neg (by omega))
    · intro u y z hy hz hstack hpart hlight hheavy
      exact exec_outweighed hy (weightAllows_outweighed hz hstack hpart hlight hheavy)
  · exact ⟨exec_hbmAtomRead_turn hq hfirst hallow, exec_hbmAtomWrite_turn hq hfirst hallow,
      exec_hbmReadModifyWrite_turn hq hfirst hallow⟩

end Sys2Proof.Proofs
end

section
/-! The end of a map-out's rebuild, with a request at its segment still waiting (R53, R55, R469): the refutation of O49. -/

namespace Sys2Proof.Proofs

open Sys2Proof.Machine Sys2Proof.Safety

/-! ### What an event leaves of memory -/

/-- What the I/O die writes changes no byte of memory but those it names. -/
theorem rdByte_poke_ne (s : State) {pa : Nat} {ws : List CWord} {i : Nat} (h : i < pa ∨ pa + 4 * ws.length ≤ i) :
    rdByte (poke s pa ws).mm.bytes i = rdByte s.mm.bytes i := by
  unfold poke
  split
  · rfl
  · split
    · exact rdByte_wrWords_ne _ _ (by rwa [List.length_map])
    · rfl

/-- Where the next entry of the host's ring stands (R469). -/
def nextEntry (s : State) : Nat := s.host.evBase.toNat + 16 * (s.host.evTail % 2 ^ s.host.evLog)

/-- An event changes no byte of memory but the 16 of its entry. -/
theorem rdByte_postEvent_ne (s : State) (kind part info : Nat) {i : Nat} (h : i < nextEntry s ∨ nextEntry s + 16 ≤ i) :
    rdByte (postEvent s kind part info).mm.bytes i = rdByte s.mm.bytes i := by
  unfold postEvent
  dsimp only
  split
  · rfl
  · exact rdByte_poke_ne s h

/-- Over memory of zeros an event cannot reach two bytes that are an entry apart. -/
theorem postEvent_zeros {s : State} (hzero : ∀ i, rdByte s.mm.bytes i = 0#8) (kind part info i : Nat) :
    rdByte (postEvent s kind part info).mm.bytes i = 0#8 ∨ rdByte (postEvent s kind part info).mm.bytes (i + 16) = 0#8 := by
  by_cases h : nextEntry s ≤ i
  · exact .inr ((rdByte_postEvent_ne s kind part info (.inr (by omega))).trans (hzero _))
  · exact .inl ((rdByte_postEvent_ne s kind part info (.inl (by omega))).trans (hzero _))

/-- A ring in host memory with room takes the event, whose first byte is its kind. -/
theorem rdByte_postEvent_kind {s : State} (hbase : s.host.evBase ≠ 0#64)
    (hroom : (s.host.evTail + 2 ^ 48 - s.host.evHead.toNat % 2 ^ 48) % 2 ^ 48 < 2 ^ s.host.evLog) (hhost : isHost (nextEntry s) = true)
    (kind part info : Nat) : rdByte (postEvent s kind part info).mm.bytes (nextEntry s) = BitVec.ofNat 8 kind := by
  have hmain : isMain (nextEntry s) = false := not_isMain_of_host ((isHost_iff _).mp hhost).1
  have hpost : (postEvent s kind part info).mm.bytes = wrWords s.mm.bytes (nextEntry s)
      ((dwWords (kind % 256 + part % 8 * 2 ^ 8 + info % 2 ^ 48 * 2 ^ 16) ++ dwWords s.clock.toNat).map (·.data)) := by
    rw [nextEntry] at hhost hmain
    unfold postEvent poke
    simp only [beq_iff_eq, hbase, Bool.or_eq_true, decide_eq_true_eq, Nat.not_le.mpr hroom, or_self, if_false, hmain, hhost,
      Bool.false_and, Bool.false_or, Bool.false_eq_true, if_true]
    rfl
  rw [hpost]
  refine (rdByte_wrWords (j := 0) _ _ _ (by simp [dwWords, wordsOf])).trans (BitVec.eq_of_toNat_eq ?_)
  simp [byteIn, byteOf_toNat, dwWords, wordsOf, CWord.of]
  omega

/-! ### A rebuild that ends while a request waits -/

/-- Segment 0 is being rebuilt, memory is zero, a read of its first atom waits, and the host's ring is in host memory. -/
def rebuilding : State :=
  { State.reset with
    mm := { State.reset.mm with mstate := 2, queue := [⟨false, 0, [], 0, 0, noCore⟩] }
    host := { State.reset.host with evBase := BitVec.ofNat 64 (2 ^ 51), evLog := 8 } }

/-- The end of that rebuild, but for the hot-remove event. -/
def rebuilt : State :=
  let s := serveSegment rebuilding 0
  { s with mm := { zeroSegment s.mm 0 with mstate := 0, memcap := s.mm.memcap - BitVec.ofNat 40 (2 ^ 32) } }

theorem rebuilding_ends :
    exec .mapoutRebuildComplete rebuilding = .next (postEvent rebuilt 0x03 0 (Config.eventInfo 0x03 rebuilding.mm.mseg rebuilding.mm.mstack)) :=
  rfl

/-- The read has raised a record (R53), and the record has posted its event 0x0A, after which the ring has room. -/
theorem rebuilt_ring : rdByte rebuilt.mm.bytes (2 ^ 51) = 0x0A#8 ∧ nextEntry rebuilt = 2 ^ 51 + 16 ∧
    isHost (nextEntry rebuilt) = true ∧ rebuilt.host.evBase ≠ 0#64 ∧
    (rebuilt.host.evTail + 2 ^ 48 - rebuilt.host.evHead.toNat % 2 ^ 48) % 2 ^ 48 < 2 ^ rebuilt.host.evLog := by
  decide +kernel

/-- The rebuild has written two entries of the ring: the record's event, and the hot-remove event after it. -/
theorem rebuilding_posts_twice (info : Nat) :
    rdByte (postEvent rebuilt 0x03 0 info).mm.bytes (2 ^ 51) = 0x0A#8 ∧
      rdByte (postEvent rebuilt 0x03 0 info).mm.bytes (2 ^ 51 + 16) = 0x03#8 := by
  obtain ⟨hrecord, hnext, hhost, hbase, hroom⟩ := rebuilt_ring
  have hbefore : 2 ^ 51 < nextEntry rebuilt := by rw [hnext]; norm_num
  refine ⟨(rdByte_postEvent_ne rebuilt 0x03 0 info (.inl hbefore)).trans hrecord, ?_⟩
  have hkind := rdByte_postEvent_kind hbase hroom hhost 0x03 0 info
  rwa [hnext] at hkind

/-- Refutes O49: its rebuild clause leaves every byte outside the segment unchanged but for the hot-remove event, while a request that
still waits at the segment raises a record whose event goes to the host's ring as well; `rebuilding` ends with both there. -/
theorem not_memoryManagement : ¬ Obligations.MemoryManagement := by
  unfold Obligations.MemoryManagement
  intro hall
  obtain ⟨-, -, -, -, -, hrebuild, -⟩ := hall rebuilding
  obtain ⟨t, hends, -, -, hbytes⟩ := hrebuild rfl
  have hzero (a : Nat) : rdByte t.mm.bytes a = 0#8 := (hbytes a).trans (ite_self _)
  obtain ⟨hrecord, hremove⟩ := rebuilding_posts_twice (Config.eventInfo 0x03 rebuilding.mm.mseg rebuilding.mm.mstack)
  rw [Host.Outcome.next.inj (rebuilding_ends.symm.trans hends)] at hrecord hremove
  obtain hfirst | hsecond := postEvent_zeros hzero 0x03 0 (Config.eventInfo 0x03 rebuilding.mm.mseg rebuilding.mm.mstack) (2 ^ 51)
  · exact absurd (hrecord.symm.trans hfirst) (by decide)
  · exact absurd (hremove.symm.trans hsecond) (by decide)

end Sys2Proof.Proofs
end

section
/-! Page walks down tables in host memory, and what the TLBs hold after them (R91 to R93). -/

namespace Sys2Proof.Proofs

open Sys2Proof.Machine Sys2Proof.Safety

/-! ### Reading an entry in host memory -/

/-- Words that pass are carried as they are, without a record. -/
theorem carry_passing {ws : List CWord} (h : ∀ w ∈ ws, w.passes = true) (s : State) (source dest point unit part core addr : Nat) :
    carry s source dest point unit part core addr ws = (s, ws) := by
  simp only [carry, checkIn_passing h, ite_self]

/-- The words of a doubleword of host memory, as an agent receives them. -/
def hostWordsAt (s : State) (pa : Nat) : List CWord := [.of (rdWord s.mm.bytes pa), .of (rdWord s.mm.bytes (pa + 4))]

theorem valOf_hostWordsAt (s : State) (pa : Nat) : valOf (hostWordsAt s pa) = hostDw s pa := rfl

theorem anyBad_hostWordsAt (s : State) (pa : Nat) : anyBad (hostWordsAt s pa) = false := by
  simp [anyBad, hostWordsAt, of_not_bad]

/-- The walkers receive a doubleword of host memory without a record, whether or not it crosses a line. -/
theorem walkerRead_host {s : State} {pa : Nat} (h : isHost pa = true) (part core : Nat) :
    walkerRead s part core pa 2 = (s, hostWordsAt s pa) := by
  have hlow := ((isHost_iff pa).mp h).1
  have hmain (k : Nat) : isMain (pa + k) = false := not_isMain_of_host (by omega)
  have hmain₀ : isMain pa = false := hmain 0
  have hcases : min 2 ((128 - pa % 128) / 4) = 0 ∨ min 2 ((128 - pa % 128) / 4) = 1 ∨ min 2 ((128 - pa % 128) / 4) = 2 := by omega
  unfold walkerRead wordSegs physRead
  obtain hn | hn | hn := hcases <;>
    simp [hn, hmain, hmain₀, carry_passing, of_passes, List.range_succ, hostWordsAt]

/-! ### Entries that a TLB with room takes -/

/-- The state with entries put before those that the TLBs hold. -/
def holding (s : State) (es : List TlbEntry) : State := { s with cs := { s.cs with tlb := es ++ s.cs.tlb } }

theorem holding_holding (s : State) (es es' : List TlbEntry) : holding (holding s es) es' = holding s (es' ++ es) := by
  simp only [holding, List.append_assoc]

/-- A TLB has room for one more entry. -/
def TlbRoom (s : State) (unit : Nat) : Prop := ∀ n, tlbSize unit = some n → (s.cs.tlb.filter fun t => t.unit == unit).length < n

theorem l2Tlb_core {core : Nat} (h : core < 384) : l2Tlb core = 384 + core / 8 := if_pos h

theorem walkerTlb_core {core : Nat} (h : core < 384) : walkerTlb core = 432 + core / 64 := by
  simp only [walkerTlb, walkerDie, h, if_true, dieOf]
  omega

theorem tlbRoom_l1 {s : State} {core : Nat} (hcore : core < 384) (h : (s.cs.tlb.filter fun t => t.unit == core).length < 512) :
    TlbRoom s core := by
  intro n hn
  rw [tlbSize, if_pos hcore, Option.some.injEq] at hn
  exact hn ▸ h

theorem tlbRoom_l2 {s : State} {core : Nat} (hcore : core < 384)
    (h : (s.cs.tlb.filter fun t => t.unit == 384 + core / 8).length < 16384) : TlbRoom s (l2Tlb core) := by
  rw [l2Tlb_core hcore]
  intro n hn
  rw [tlbSize, if_neg (by omega), if_pos (by omega), Option.some.injEq] at hn
  exact hn ▸ h

theorem tlbPut_room {s : State} {t : TlbEntry} (h : TlbRoom s t.unit) : tlbPut s t = holding s [t] := by
  unfold tlbPut holding
  cases hsize : tlbSize t.unit with
  | none => rfl
  | some n => simp only [Nat.not_le.mpr (h n hsize), if_false, List.cons_append, List.nil_append]

theorem tlbIn_holding {s : State} {es : List TlbEntry} {unit : Nat} (h : ∀ t ∈ es, t.unit ≠ unit) (ctx va : Nat) :
    tlbIn (holding s es) unit ctx va = tlbIn s unit ctx va := by
  have hnone : (es.find? fun t => t.unit == unit && t.ctx == ctx && t.page == va / 4096) = none := by
    rw [List.find?_eq_none]
    exact fun t ht => by simp [h t ht]
  simp only [tlbIn, holding, List.find?_append, hnone, Option.none_or]

theorem TlbRoom.holding {s : State} {unit : Nat} (h : TlbRoom s unit) {es : List TlbEntry} (hes : ∀ t ∈ es, t.unit ≠ unit) :
    TlbRoom (holding s es) unit := by
  intro n hn
  have hnone : (es.filter fun t => t.unit == unit) = [] := by
    rw [List.filter_eq_nil_iff]
    exact fun t ht => by simp [hes t ht]
  simpa only [Proofs.holding, List.filter_append, hnone, List.nil_append] using h n hn

theorem tlbFind_eq_none {s : State} {core ctx va : Nat} (h : tlbFind s core ctx va = none) :
    tlbIn s core ctx va = none ∧ tlbIn s (l2Tlb core) ctx va = none := Option.or_eq_none_iff.mp h

/-- A leaf that neither TLB holds enters both, where there is room. -/
theorem tlbFill_room {s : State} {core ctx va : Nat} (hcore : core < 384) (hmiss : tlbFind s core ctx va = none)
    (hroom : TlbRoom s core) (hroom₂ : TlbRoom s (l2Tlb core)) (pte level : Nat) :
    tlbFill s core ctx va pte level = holding s [⟨core, ctx, va / 4096, pte, level⟩, ⟨l2Tlb core, ctx, va / 4096, pte, level⟩] := by
  obtain ⟨hmiss₁, hmiss₂⟩ := tlbFind_eq_none hmiss
  have hother : ∀ t ∈ [(⟨l2Tlb core, ctx, va / 4096, pte, level⟩ : TlbEntry)], t.unit ≠ core := by
    simp only [List.mem_singleton, forall_eq, l2Tlb_core hcore]
    omega
  have hput : tlbPut s ⟨l2Tlb core, ctx, va / 4096, pte, level⟩ = holding s [⟨l2Tlb core, ctx, va / 4096, pte, level⟩] := tlbPut_room hroom₂
  simp only [tlbFill, hmiss₂, Option.isSome_none, Bool.false_eq_true, if_false, hput, tlbIn_holding hother, hmiss₁]
  exact (tlbPut_room (hroom.holding hother)).trans (holding_holding ..)

/-! ### Entries of the walker cache -/

/-- The entry of the walkers of a core's die for the table entry above a page at a level. -/
def tableEntry (core ctx va level pte : Nat) : TlbEntry :=
  ⟨walkerTlb core, ctx, va / 4096 / 512 ^ level * 512 ^ level, pte, level⟩

/-- The walker caches have no size. -/
theorem walkKeep_unheld {s : State} {core ctx va level : Nat} (h : walkHeld s core ctx va level = none) (pte : Nat) :
    walkKeep s core ctx va level pte = holding s [tableEntry core ctx va level pte] := by
  unfold walkKeep
  rw [h]
  refine tlbPut_room fun n hn => ?_
  simp [tlbSize, walkerTlb, Nat.not_lt.mpr (Nat.le_trans (by decide : 384 ≤ 432) (Nat.le_add_right ..))] at hn

theorem walkHeld_holding {s : State} {l level : Nat} (h : l ≠ level) (core ctx va pte : Nat) :
    walkHeld (holding s [tableEntry core ctx va l pte]) core ctx va level = walkHeld s core ctx va level := by
  simp [walkHeld, holding, tableEntry, beq_false_of_ne h]

/-! ### A walk -/

section Walk

variable {s : State} {core ctx va table : Nat} (part : Nat)

/-- The address of the entry of a table at a level. -/
abbrev entryAt (va level table : Nat) : Nat := table + 8 * bitsAt va (12 + 9 * level) 9

/-- An entry with VALID 0 in host memory ends the walk with a fault, and nothing is held. -/
theorem walkFrom_invalid {level : Nat} (hheld : walkHeld s core ctx va level = none) (hhost : isHost (entryAt va level table) = true)
    (hvalid : hostDw s (entryAt va level table) % 2 = 0) :
    walkFrom s part core ctx va level table = (s, .fault 3 level (hostDw s (entryAt va level table))) := by
  have hv : pteValid (hostDw s (entryAt va level table)) = false := by simp [pteValid, bitsAt, hvalid]
  unfold walkFrom
  simp [hheld, hhost, walkerRead_host hhost, anyBad_hostWordsAt, valOf_hostWordsAt, hv]

/-- An entry of host memory that names a table is held, and the walk goes on there. -/
theorem walkFrom_table {level lower : Nat} (hheld : walkHeld s core ctx va (level + 1) = none)
    (hhost : isHost (entryAt va (level + 1) table) = true) (hentry : hostDw s (entryAt va (level + 1) table) = lower + 1)
    (haligned : lower % 4096 = 0) (hlow : lower < 2 ^ 52) :
    walkFrom s part core ctx va (level + 1) table =
      walkFrom (holding s [tableEntry core ctx va (level + 1) (lower + 1)]) part core ctx va level lower := by
  have hvalid : pteValid (lower + 1) = true := by simp [pteValid, bitsAt]; omega
  have hleaf : pteLeaf (lower + 1) = false := by simp [pteLeaf, bitsAt]; omega
  have hframe : pteFrame (lower + 1) * 4096 = lower := by simp only [pteFrame, bitsAt]; omega
  rw [← walkKeep_unheld hheld]
  conv_lhs => unfold walkFrom
  simp [hheld, hhost, walkerRead_host hhost, anyBad_hostWordsAt, valOf_hostWordsAt, hentry, hvalid, hleaf, hframe]

/-- A leaf of 4 KiB in host memory ends the walk. -/
theorem walkFrom_leaf {leaf : Nat} (hheld : walkHeld s core ctx va 0 = none) (hhost : isHost (entryAt va 0 table) = true)
    (hentry : hostDw s (entryAt va 0 table) = leaf) (hleaf : leaf % 4 = 3) (hok : leafOk leaf 0 = true) (hsz : pteSz64 leaf = false) :
    walkFrom s part core ctx va 0 table = (s, .leaf leaf 0) := by
  have hv : pteValid leaf = true := by simp [pteValid, bitsAt]; omega
  have hl : pteLeaf leaf = true := by simp [pteLeaf, bitsAt]; omega
  unfold walkFrom
  simp [hheld, hhost, walkerRead_host hhost, anyBad_hostWordsAt, valOf_hostWordsAt, hentry, hv, hl, hok, hsz]

/-- The entries that the walkers hold behind a walk down tables `T`, from the lowest level up. -/
def tablesAbove (core ctx va : Nat) (T : Nat → Nat) (n : Nat) : List TlbEntry :=
  (List.range n).map fun l => tableEntry core ctx va (l + 1) (T l + 1)

/-- A walk down tables in host memory ends at the leaf, and the walkers hold the entries above it. -/
theorem walkFrom_down {T : Nat → Nat} {leaf : Nat} (n : Nat) (hheld : ∀ l ≤ n, walkHeld s core ctx va l = none)
    (hhost : ∀ l ≤ n, isHost (entryAt va l (T l)) = true)
    (htables : ∀ l < n, T l % 4096 = 0 ∧ T l < 2 ^ 52 ∧ hostDw s (entryAt va (l + 1) (T (l + 1))) = T l + 1)
    (hentry : hostDw s (entryAt va 0 (T 0)) = leaf) (hleaf : leaf % 4 = 3) (hok : leafOk leaf 0 = true) (hsz : pteSz64 leaf = false) :
    walkFrom s part core ctx va n (T n) = (holding s (tablesAbove core ctx va T n), .leaf leaf 0) := by
  induction n generalizing s with
  | zero => exact walkFrom_leaf part (hheld 0 (Nat.le_refl 0)) (hhost 0 (Nat.le_refl 0)) hentry hleaf hok hsz
  | succ n ih =>
    obtain ⟨haligned, hlow, hnext⟩ := htables n (Nat.lt_succ_self n)
    rw [walkFrom_table part (hheld _ (Nat.le_refl _)) (hhost _ (Nat.le_refl _)) hnext haligned hlow,
      ih (fun l hl => (walkHeld_holding (by omega) ..).trans (hheld l (by omega))) (fun l hl => hhost l (by omega))
        (fun l hl => htables l (by omega)) hentry, holding_holding, tablesAbove, tablesAbove, List.range_succ, List.map_append]
    rfl

end Walk

/-! ### The event -/

/-- A walk for a core's page that neither of its TLBs holds caches a leaf that serves, and no other. -/
theorem execPageWalk_leaf {s s1 : State} {core ctx : Nat} {va : BitVec 57} {c : Context} {pte level : Nat} (hcore : core < 384)
    (hctx : s.ctx? ctx = some c) (hmiss : tlbFind s core ctx va.toNat = none)
    (hwalk : walkFrom s c.part core ctx va.toNat 4 c.root = (s1, .leaf pte level)) :
    execPageWalk core ctx va s =
      .next (if leafServes c va.toNat pte level = true then tlbFill s1 core ctx va.toNat pte level else s1) := by
  simp [execPageWalk, hctx, hmiss, Nat.not_le.mpr hcore, hwalk]

theorem execPageWalk_fault {s s1 : State} {core ctx : Nat} {va : BitVec 57} {c : Context} {cause level pte : Nat} (hcore : core < 384)
    (hctx : s.ctx? ctx = some c) (hmiss : tlbFind s core ctx va.toNat = none)
    (hwalk : walkFrom s c.part core ctx va.toNat 4 c.root = (s1, .fault cause level pte)) : execPageWalk core ctx va s = .next s1 := by
  simp [execPageWalk, hctx, hmiss, Nat.not_le.mpr hcore, hwalk]

theorem unit_tablesAbove {core ctx va : Nat} {T : Nat → Nat} {n : Nat} {t : TlbEntry} (h : t ∈ tablesAbove core ctx va T n) :
    t.unit = walkerTlb core := by
  obtain ⟨l, -, rfl⟩ := List.mem_map.mp h
  rfl

/-- A walk down tables in host memory to a leaf that serves: the leaf enters both TLBs, where they have room. -/
theorem execPageWalk_down {s : State} {core ctx : Nat} {va : BitVec 57} {c : Context} {T : Nat → Nat} {leaf : Nat} (hcore : core < 384)
    (hctx : s.ctx? ctx = some c) (hmiss : tlbFind s core ctx va.toNat = none) (hroom : TlbRoom s core) (hroom₂ : TlbRoom s (l2Tlb core))
    (hwalk : walkFrom s c.part core ctx va.toNat 4 c.root = (holding s (tablesAbove core ctx va.toNat T 4), .leaf leaf 0))
    (hserves : leafServes c va.toNat leaf 0 = true) :
    execPageWalk core ctx va s = .next (holding s (⟨core, ctx, va.toNat / 4096, leaf, 0⟩ ::
      ⟨l2Tlb core, ctx, va.toNat / 4096, leaf, 0⟩ :: tablesAbove core ctx va.toNat T 4)) := by
  have hne {unit : Nat} (h : unit < 432) : ∀ t ∈ tablesAbove core ctx va.toNat T 4, t.unit ≠ unit := fun t ht => by
    rw [unit_tablesAbove ht, walkerTlb_core hcore]
    omega
  have h₁ : core < 432 := by omega
  have h₂ : l2Tlb core < 432 := by rw [l2Tlb_core hcore]; omega
  have hmiss' : tlbFind (holding s (tablesAbove core ctx va.toNat T 4)) core ctx va.toNat = none := by
    rw [tlbFind, tlbIn_holding (hne h₁), tlbIn_holding (hne h₂)]
    exact hmiss
  rw [execPageWalk_leaf hcore hctx hmiss hwalk, if_pos hserves,
    tlbFill_room hcore hmiss' (hroom.holding (hne h₁)) (hroom₂.holding (hne h₂)), holding_holding]
  rfl

end Sys2Proof.Proofs
end

section
/-! Invalidations, and the fault queue: what the host's writes leave of the thread groups that wait (R94 to R97): O48. -/

namespace Sys2Proof.Proofs

open Sys2Proof.Machine Sys2Proof.Safety

/-! ### Invalidations (R94) -/

/-- With no dirty line in an L1, an invalidation writes nothing back. -/
theorem finishInval_clean {s : State} (h : ∀ ln ∈ s.cs.l1, ln.dirty = 0) (x : Nat × Bool × Nat) :
    finishInval s x = { s with cs := { s.cs with tlb := s.cs.tlb.filter fun t => !t.named x, tlbinv := none } } := by
  have hstep (p : L1Line → Bool) : (s.cs.l1.filter p).foldl l1WriteBack s = s := by
    refine List.foldlRecOn (motive := fun t => t = s) _ _ rfl fun t ht ln hln => ?_
    rw [ht, l1WriteBack, h ln (List.mem_filter.mp hln).1]
    rfl
  unfold finishInval
  dsimp only
  rw [hstep]

theorem execTlbinvDone_some {s : State} {x : Nat × Bool × Nat} (h : s.cs.tlbinv = some x) :
    execTlbinvDone s = .next (if invalWaits s x then s else finishInval s x) := by
  simp only [execTlbinvDone, h]

theorem execCrflushDone_some {s : State} {ctx : Nat} (h : s.cs.crflush = some ctx) :
    execCrflushDone s =
      .next { flushContext s ctx with cs := { (flushContext s ctx).cs with crflush := none } } := by
  simp only [execCrflushDone, h]

/-! ### Changes that leave the agents of a context as they wait -/

/-- What a fault leaves with a thread group: its phase, its waits, and whether they are cancelled (R96, R97). -/
def faultState (g : Tg) : Phase × List PageWait × Bool := (g.phase, g.faults, g.cancel)

/-- Only thread groups have changed, as far as a fault queue is concerned. -/
structure OnlyTgs (s t : State) : Prop where
  contexts : t.contexts = s.contexts
  cores : t.cores = s.cores
  clusters : t.clusters = s.clusters
  staging : (∀ x ∈ s.wgs, x.2.stageWait = []) → ∀ x ∈ t.wgs, x.2.stageWait = []

/-- No thread group has changed as far as some of its state is concerned. -/
structure KeepsTgs {β : Type} (k : Tg → β) (s t : State) : Prop where
  tgs : ∀ r, (t.tg? r).map k = (s.tg? r).map k

/-- Only thread groups have changed, and none as far as its fault is concerned. -/
structure KeepsFaults (s t : State) : Prop extends OnlyTgs s t, KeepsTgs faultState s t

theorem OnlyTgs.refl (s : State) : OnlyTgs s s := ⟨rfl, rfl, rfl, id⟩

theorem OnlyTgs.trans {s t u : State} (h : OnlyTgs s t) (h' : OnlyTgs t u) : OnlyTgs s u :=
  ⟨h'.contexts.trans h.contexts, h'.cores.trans h.cores, h'.clusters.trans h.clusters, fun hs => h'.staging (h.staging hs)⟩

theorem KeepsTgs.refl {β : Type} (k : Tg → β) (s : State) : KeepsTgs k s s := ⟨fun _ => rfl⟩

theorem KeepsTgs.trans {β : Type} {k : Tg → β} {s t u : State} (h : KeepsTgs k s t) (h' : KeepsTgs k t u) : KeepsTgs k s u :=
  ⟨fun r => (h'.tgs r).trans (h.tgs r)⟩

theorem KeepsFaults.refl (s : State) : KeepsFaults s s := ⟨.refl s, .refl faultState s⟩

theorem KeepsFaults.trans {s t u : State} (h : KeepsFaults s t) (h' : KeepsFaults t u) : KeepsFaults s u :=
  ⟨h.toOnlyTgs.trans h'.toOnlyTgs, h.toKeepsTgs.trans h'.toKeepsTgs⟩

theorem KeepsFaults.foldl {α : Type} {f : State → α → State} (h : ∀ s x, KeepsFaults s (f s x)) (l : List α) (s : State) :
    KeepsFaults s (l.foldl f s) :=
  List.foldlRecOn (motive := KeepsFaults s) l f (.refl s) fun t ht x _ => ht.trans (h t x)

theorem mem_of_look? {α : Type} {m : Sparse α} {k : Nat} {v : α} (h : look? m k = some v) : (k, v) ∈ m := by
  induction m with
  | nil => cases h
  | cons a m ih =>
    obtain ⟨j, w⟩ := a
    by_cases hj : j = k
    · simp_all [look?]
    · simp only [look?, beq_iff_eq, hj, if_false] at h
      exact List.mem_cons_of_mem _ (ih h)

theorem onlyTgs_setTg (s : State) (r : TgRef) (g : Tg) : OnlyTgs s (s.setTg r g) := by
  refine ⟨s.contexts_setTg r g, s.cores_setTg r g, s.clusters_setTg r g, fun hs x hx => ?_⟩
  unfold State.setTg at hx
  split at hx
  next w hw =>
    rcases mem_ins hx with rfl | hold
    · have hold : w.stageWait = [] := hs (r.wg, w) (mem_of_look? hw)
      exact hold
    · exact hs x hold
  next => exact hs x hx

theorem tg?_setTg {s : State} {r : TgRef} {g : Tg} (h : s.tg? r = some g) (g' : Tg) (q : TgRef) :
    (s.setTg r g').tg? q = if r = q then some g' else s.tg? q := by
  split
  next heq => exact heq ▸ State.tg?_setTg_self h g'
  next hne => exact State.tg?_setTg_ne s hne g'

/-- What an update of one thread group keeps of it, it keeps of every thread group. -/
theorem keepsTgs_updTg {β : Type} {k : Tg → β} (s : State) (r : TgRef) {f : Tg → Tg} (hf : ∀ g, k (f g) = k g) :
    KeepsTgs k s (s.updTg r f) := by
  refine ⟨fun q => ?_⟩
  unfold State.updTg
  split
  next g hg =>
    rw [tg?_setTg hg]
    split
    next heq => rw [← heq, hg, Option.map_some, Option.map_some, hf]
    next => rfl
  next => rfl

theorem onlyTgs_updTg (s : State) (r : TgRef) (f : Tg → Tg) : OnlyTgs s (s.updTg r f) := by
  unfold State.updTg
  split
  · exact onlyTgs_setTg ..
  · exact .refl s

theorem keepsFaults_updTg (s : State) (r : TgRef) {f : Tg → Tg} (hf : ∀ g, faultState (f g) = faultState g) : KeepsFaults s (s.updTg r f) :=
  ⟨onlyTgs_updTg s r f, keepsTgs_updTg s r hf⟩

/-! ### Waking -/

theorem keepsFaults_enterActive (s : State) (core : Nat) (r : TgRef) : KeepsFaults s (enterActive s core r) :=
  keepsFaults_updTg s r fun _ => rfl

theorem keepsFaults_fillActive (core pipe n : Nat) (s : State) : KeepsFaults s (fillActive s core pipe n) := by
  induction n generalizing s with
  | zero => exact .refl s
  | succ n ih =>
    unfold fillActive
    split
    · exact .refl s
    · split
      · exact .refl s
      · exact (keepsFaults_enterActive ..).trans (ih _)

/-- Waking one thread group moves others into the active set, and changes no fault. -/
theorem keepsFaults_wake (s : State) (r : TgRef) : KeepsFaults s (wake s r) := by
  have hsince : KeepsFaults s (s.updTg r fun g => if g.active then g else { g with readySince := s.clock.toNat }) :=
    keepsFaults_updTg s r fun g => by split <;> rfl
  unfold wake refill
  split
  · exact hsince.trans (keepsFaults_fillActive ..)
  · exact hsince

/-! ### Waiting thread groups -/

/-- A thread group that waits on a fault stands ready; it keeps its waits when they are cancelled (R97). -/
def retried (cancel : Bool) (x : Phase × List PageWait × Bool) : Phase × List PageWait × Bool :=
  if x.1 = .faulted then (.ready, if cancel then x.2.1 else [], cancel) else x

theorem retried_faulted {g : Tg} (h : g.phase = .faulted) (cancel : Bool) :
    retried cancel (faultState g) = (.ready, if cancel then g.faults else [], cancel) := if_pos h

theorem retried_retried (cancel : Bool) (x : Phase × List PageWait × Bool) : retried cancel (retried cancel x) = retried cancel x := by
  unfold retried
  split <;> simp_all

/-- One thread group replays its instruction. -/
def retryTg (cancel : Bool) (s : State) (r : TgRef) : State :=
  match s.tg? r with
  | some g =>
    if g.phase == .faulted then
      wake (s.setTg r { g with phase := .ready, faults := if cancel then g.faults else [], cancel := cancel }) r
    else s
  | none => s

theorem retryTgs_eq (s : State) (ctx : Nat) (cancel : Bool) : retryTgs s ctx cancel = (ctxTgs s ctx).foldl (retryTg cancel) s := rfl

theorem onlyTgs_retryTg (cancel : Bool) (s : State) (r : TgRef) : OnlyTgs s (retryTg cancel s r) := by
  unfold retryTg
  split
  · split
    · exact (onlyTgs_setTg ..).trans (keepsFaults_wake ..).toOnlyTgs
    · exact .refl s
  · exact .refl s

theorem faultState_retryTg (cancel : Bool) (s : State) (r q : TgRef) :
    ((retryTg cancel s r).tg? q).map faultState = ((s.tg? q).map faultState).map fun x => if r = q then retried cancel x else x := by
  unfold retryTg
  cases hg : s.tg? r with
  | none =>
    by_cases heq : r = q
    · simp [← heq, hg]
    · simp [heq, Function.comp_def]
  | some g =>
    by_cases hphase : g.phase = .faulted
    · simp only [hphase, beq_self_eq_true, if_true, (keepsFaults_wake ..).tgs, tg?_setTg hg]
      by_cases heq : r = q
      · simp [← heq, hg, faultState, retried, hphase]
      · simp [heq, Function.comp_def]
    · by_cases heq : r = q
      · simp [← heq, hg, faultState, retried, hphase]
      · simp [heq, hphase, Function.comp_def]

theorem onlyTgs_retryTgs (s : State) (ctx : Nat) (cancel : Bool) : OnlyTgs s (retryTgs s ctx cancel) := by
  rw [retryTgs_eq]
  exact List.foldlRecOn (motive := OnlyTgs s) _ _ (.refl s) fun t ht r _ => ht.trans (onlyTgs_retryTg cancel t r)

theorem faultState_foldl_retryTg (cancel : Bool) (l : List TgRef) (s : State) (q : TgRef) :
    ((l.foldl (retryTg cancel) s).tg? q).map faultState =
      ((s.tg? q).map faultState).map fun x => if q ∈ l then retried cancel x else x := by
  induction l generalizing s with
  | nil => simp [Function.comp_def]
  | cons r l ih =>
    rw [List.foldl_cons, ih, faultState_retryTg, Option.map_map]
    congr 1
    funext x
    by_cases heq : r = q <;> by_cases hin : q ∈ l <;> simp [heq, hin, Ne.symm, retried_retried]

/-! ### The other agents -/

theorem faultState_failLaunch (g : Tg) (id : Nat) (cause : BitVec 32) : faultState (g.failLaunch id cause) = faultState g := by
  have hpend (n : Nat) : faultState (g.subPend n) = faultState g := by
    unfold Tg.subPend
    split <;> rfl
  unfold Tg.failLaunch
  split
  · rfl
  · dsimp only
    split <;> exact hpend _

/-- Calls that wait for their image go on, or end, without a change to a thread group's fault. -/
theorem keepsFaults_retryLaunches (s : State) (ctx : Nat) (cancel : Bool) : KeepsFaults s (retryLaunches s ctx cancel) := by
  refine KeepsFaults.foldl (fun s r => KeepsFaults.foldl (fun s o => ?_) _ s) _ s
  split
  · split
    · refine keepsFaults_updTg s r fun g => ?_
      split
      · exact faultState_failLaunch ..
      · rfl
    · exact .refl s
  · exact .refl s

theorem retryCopies_idle {s : State} (h : s.cores = []) (ctx : Nat) (cancel : Bool) : retryCopies s ctx cancel = s := by
  simp [retryCopies, liveCores, h]

theorem retryMats_idle {s : State} (h : s.cores = []) (ctx : Nat) (cancel : Bool) : retryMats s ctx cancel = s := by
  simp [retryMats, liveCores, h]

theorem retryJobs_idle {s : State} (h : s.clusters = []) (ctx : Nat) (cancel : Bool) : retryJobs s ctx cancel = s := by
  simp [retryJobs, liveClusters, h]

theorem retryStaging_idle {s : State} (h : ∀ x ∈ s.wgs, x.2.stageWait = []) (ctx : Nat) (cancel : Bool) : retryStaging s ctx cancel = s := by
  have hnone : (s.wgs.filter fun x => s.ctxOf x.2 == ctx && !x.2.stageWait.isEmpty) = [] := by
    rw [List.filter_eq_nil_iff]
    exact fun x hx => by simp [h x hx]
  simp only [retryStaging, hnone, List.foldl_nil]

/-! ### The writes of the fault queue (R97) -/

theorem updQueue_some {s : State} {c : Context} (h : s.ctx? s.host.fqSel.toNat = some c) (f : FaultQueue → FaultQueue) :
    updQueue s f = s.setCtx s.host.fqSel.toNat { c with faults := f c.faults } := by
  simp only [updQueue, h]

/-- A queue whose records no longer stand for a wait. -/
def resolved (q : FaultQueue) : FaultQueue := { q with recs := q.recs.map fun x => { x with unresolved := false } }

/-- The state with the records of the selected queue resolved. -/
def withResolved (s : State) (c : Context) : State := s.setCtx s.host.fqSel.toNat { c with faults := resolved c.faults }

/-- With no engine and no staging at work, a resumption is that of the queue, of the thread groups and of their calls. -/
theorem resumeQueue_idle {s : State} {c : Context} (hctx : s.ctx? s.host.fqSel.toNat = some c) (hcores : s.cores = [])
    (hclusters : s.clusters = []) (hstaging : ∀ x ∈ s.wgs, x.2.stageWait = []) (cancel : Bool) :
    resumeQueue s cancel =
      retryLaunches (retryTgs (withResolved s c) s.host.fqSel.toNat cancel) s.host.fqSel.toNat cancel := by
  have hqueue : updQueue s (fun q => { q with recs := q.recs.map fun r => { r with unresolved := false } }) = withResolved s c :=
    updQueue_some hctx _
  have hsame := (onlyTgs_retryTgs (withResolved s c) s.host.fqSel.toNat cancel).trans
    (keepsFaults_retryLaunches _ s.host.fqSel.toNat cancel).toOnlyTgs
  unfold resumeQueue
  dsimp only
  rw [hqueue, retryCopies_idle (hsame.cores.trans hcores), retryMats_idle (hsame.cores.trans hcores),
    retryJobs_idle (hsame.clusters.trans hclusters), retryStaging_idle (hsame.staging hstaging)]

/-- The resumed queue's records are resolved, and each thread group that waited stands ready. -/
theorem resumeQueue_resumes {s : State} {c : Context} (hctx : s.ctx? s.host.fqSel.toNat = some c) (hcores : s.cores = [])
    (hclusters : s.clusters = []) (hstaging : ∀ x ∈ s.wgs, x.2.stageWait = []) (cancel : Bool) :
    ((resumeQueue s cancel).ctx? s.host.fqSel.toNat).map (·.faults) = some (resolved c.faults) ∧
      ∀ r g, r ∈ ctxTgs s s.host.fqSel.toNat → s.tg? r = some g →
        ∃ g', (resumeQueue s cancel).tg? r = some g' ∧ faultState g' = retried cancel (faultState g) := by
  rw [resumeQueue_idle hctx hcores hclusters hstaging]
  have hlaunches := keepsFaults_retryLaunches (retryTgs (withResolved s c) s.host.fqSel.toNat cancel) s.host.fqSel.toNat cancel
  constructor
  · rw [State.ctx?, hlaunches.contexts, (onlyTgs_retryTgs ..).contexts, withResolved, State.setCtx, look?_ins_self]
    rfl
  · intro r g hr hg
    have hctxTgs : ctxTgs (withResolved s c) s.host.fqSel.toNat = ctxTgs s s.host.fqSel.toNat := rfl
    have htg : (withResolved s c).tg? r = some g := hg
    have hfaults := hlaunches.tgs r
    rw [retryTgs_eq, faultState_foldl_retryTg, hctxTgs, htg, Option.map_some, Option.map_some, if_pos hr, Option.map_eq_some_iff] at hfaults
    exact hfaults

/-! ### The statement -/

/-- Settles O48: a walk down tables by induction on its levels, the resumption by what each of its steps leaves of a thread group's
fault; the other clauses are the events' equations. -/
theorem translation : Obligations.Translation := by
  unfold Obligations.Translation
  refine ⟨fun s => ⟨?_, fun x => ⟨?_, ?_⟩, fun y hy => ⟨?_, ?_⟩, ?_⟩, fun s => ⟨?_, ?_, ?_⟩⟩
  · intro core ctx va c T leaf hcore hctx hmiss hheld hroot at_ hhost
    constructor
    · intro hvalid
      have hwalk := walkFrom_invalid c.part (hheld 4) (table := c.root) (hroot ▸ hhost 4 (by decide)) (hroot ▸ hvalid)
      exact execPageWalk_fault hcore hctx hmiss hwalk
    · intro htables hentry hleaf hok hsz hpart hmain hroom hroom₂ page above
      have hwalk := walkFrom_down c.part 4 (T := T) (fun l _ => hheld l) (fun l hl => hhost l (by omega)) htables hentry hleaf hok hsz
      have hleafPart : bitsAt leaf 58 3 = c.part := hpart
      have hserves : leafServes c va.toNat leaf 0 = true := by simp [leafServes, hleafPart, hmain]
      have habove : tablesAbove core ctx va.toNat T 4 = [above 1, above 2, above 3, above 4] := by
        simp only [tablesAbove, tableEntry, walkerTlb_core hcore]
        rfl
      refine (execPageWalk_down hcore hctx hmiss (tlbRoom_l1 hcore hroom) (tlbRoom_l2 hcore hroom₂) (hroot ▸ hwalk) hserves).trans ?_
      rw [habove, l2Tlb_core hcore]
      rfl
  · exact congrArg Host.Outcome.next rfl
  · exact congrArg Host.Outcome.next rfl
  · intro hwaits
    exact (execTlbinvDone_some hy).trans (by rw [if_pos hwaits])
  · intro hwaits hclean
    refine (execTlbinvDone_some hy).trans ?_
    rw [hwaits, finishInval_clean hclean]
    rfl
  · intro c hctx
    refine ⟨congrArg Host.Outcome.next (updQueue_some hctx _), fun hcores hclusters hstaging cancel => ?_⟩
    obtain ⟨hqueue, htgs⟩ := resumeQueue_resumes hctx hcores hclusters hstaging cancel
    refine ⟨resumeQueue s cancel, by cases cancel <;> rfl, ?_, fun r g hr hg hphase => ?_⟩
    · obtain ⟨c', hc', hfaults⟩ := Option.map_eq_some_iff.mp hqueue
      rw [hc', Option.map_some, hfaults]
      rfl
    · obtain ⟨g', hg', hstate⟩ := htgs r g hr hg
      rw [retried_faulted hphase, faultState, Prod.mk.injEq, Prod.mk.injEq] at hstate
      obtain ⟨hready, hfaults, hcancel⟩ := hstate
      exact ⟨g', hg', hready, hcancel, fun hno => by rw [hfaults, hno]; rfl⟩
  · intro core ctx va c s1 hcore hctx hmiss
    exact ⟨fun e level hwalk => execPageWalk_leaf hcore hctx hmiss hwalk, fun cause level pte hwalk => execPageWalk_fault hcore hctx hmiss hwalk⟩
  · intro y hy hwaits
    exact (execTlbinvDone_some hy).trans (by rw [hwaits]; rfl)
  · intro ctx hflush
    exact execCrflushDone_some hflush

end Sys2Proof.Proofs
end

section
/-! Copy commands, prefetches and decompression jobs enter the queues of the engines (R89, R117, R118, R157, R304, R356, R357). -/

namespace Sys2Proof.Proofs

open Sys2Proof.Machine Sys2Proof.Safety

/-! ### An instruction performed once per issue -/

theorem onceOp_ready {s : State} {e : Env} {p : Plan} (h : Ready s e p) (usual : p.reserved (context s e p noForm) = false)
    (act : Ctx → State) : onceOp s p noLate act = .next (retired e p.h p.cut (act (context s e p noForm))) := by
  have hissue := issue_ready h noForm noLate act (fun _ _ => rfl) usual (c := context s e p noForm) rfl rfl
  rwa [context_calm h] at hissue

theorem headD_mem_part {s : State} {e : Env} {p : Plan} (h : Ready s e p) : e.part.headD 0 ∈ e.part := by
  obtain ⟨l, ls, hpart⟩ := List.exists_cons_of_ne_nil h.takes
  simp [hpart]

theorem context_uval {s : State} {e : Env} {p : Plan} (h : Ready s e p) (i : Nat) :
    (context s e p noForm).uval i = value s e p.srcs i (e.part.headD 0) := context_val h noForm (headD_mem_part h) i

/-- The doublewords of the registers of a command (R118). -/
def commandWords (s : State) (e : Env) (xs : List Src) : List (BitVec 64) :=
  (List.range 4).map fun i => BitVec.ofNat 64 (valOf (((words s e xs 0 (e.part.headD 0)).drop (2 * i)).take 2))

theorem context_command {s : State} {e : Env} {p : Plan} (h : Ready s e p) : (context s e p noForm).command = commandWords s e p.srcs := by
  have hsrc : (context s e p noForm).src 0 (e.part.headD 0) = words s e p.srcs 0 (e.part.headD 0) := by
    rw [← src_given h (headD_mem_part h), context_eq h]
    rfl
  unfold commandWords
  rw [← hsrc]
  rfl

/-! ### Updates of the thread group that issues -/

theorem updTg_updTg {s : State} {r : TgRef} {g : Tg} (h : s.tg? r = some g) (f f' : Tg → Tg) :
    (s.updTg r f).updTg r f' = s.updTg r fun g => f' (f g) := by
  obtain ⟨w, hw, -⟩ := State.wg_of_tg h
  rw [State.updTg_some h, State.updTg_some (State.tg?_setTg_self h _), State.setTg_setTg hw, State.updTg_some h]

/-- An update of the thread group that issues, and its retirement, are one update. -/
theorem retired_updTg {s : State} {e : Env} {g : Tg} (ht : s.tg? e.r = some g) (h : Hints) (cut : Bool) (f : Tg → Tg) :
    retired e h cut (s.updTg e.r f) = (s.setTg e.r ((f g).retire e.set h cut)).endStep e.r := by
  rw [retired, updTg_updTg ht, State.updTg_some ht]

theorem ops_retire (g : Tg) (set : BitVec 64) (h : Hints) (cut : Bool) : (g.retire set h cut).ops = g.ops := by
  unfold Tg.retire
  dsimp only
  split <;> rfl

/-! ### Waits owed to the `CUT` (R163) -/

/-- `g'` is `g` but for waits: it owes those of `g`, and some more. -/
structure OwesMore (g g' : Tg) (ws : List Wait) : Prop where
  same : g' = { g with shot := { g.shot with waits := g'.shot.waits } }
  more : ∀ y ∈ ws, y ∈ g'.shot.waits
  old : ∀ y ∈ g.shot.waits, y ∈ g'.shot.waits

theorem OwesMore.shot {g g' : Tg} {ws : List Wait} (h : OwesMore g g' ws) : g'.shot = { g.shot with waits := g'.shot.waits } := by
  conv_lhs => rw [h.same]

theorem OwesMore.ops {g g' : Tg} {ws : List Wait} (h : OwesMore g g' ws) : g'.ops = g.ops := by rw [h.same]

theorem OwesMore.word {g g' : Tg} {ws : List Wait} (h : OwesMore g g' ws) (k : RKey) : g'.word k = g.word k := by
  rw [h.same]
  cases k <;> rfl

theorem OwesMore.rest {g g' : Tg} {ws : List Wait} (h : OwesMore g g' ws) : restOfTg g' = restOfTg g := by
  rw [h.same]
  rfl

theorem OwesMore.refl (g : Tg) : OwesMore g g [] := ⟨rfl, by simp, fun _ => id⟩

theorem OwesMore.trans {g g' g'' : Tg} {ws ws' : List Wait} (h : OwesMore g g' ws) (h' : OwesMore g' g'' ws') :
    OwesMore g g'' (ws ++ ws') := by
  refine ⟨?_, fun y hy => ?_, fun y hy => h'.old y (h.old y hy)⟩
  · conv_lhs => rw [h'.same, h.same]
  · exact (List.mem_append.mp hy).elim (fun hy => h'.old y (h.more y hy)) (h'.more y)

theorem owesMore_owe (g : Tg) (w : Wait) : OwesMore g (g.owe w) [w] := by
  unfold Tg.owe
  split
  next hin => exact ⟨rfl, by simpa using hin, fun _ => id⟩
  next => exact ⟨rfl, by simp, fun y hy => by simp [hy]⟩

theorem owesMore_oweSlots (g : Tg) : OwesMore g g.oweSlots [] := by
  unfold Tg.oweSlots
  split
  · exact ⟨(owesMore_owe g _).same, by simp, (owesMore_owe g _).old⟩
  · exact .refl g

/-- The waits of a thread group whose command has entered a queue: for the counter of its class, and for a place (R356). -/
def enters (cls : CntClass) (room : Bool) (g : Tg) : Tg :=
  if room then g.owe (.counter cls 255) else (g.owe (.counter cls 255)).owe .enter

theorem owesMore_enters (cls : CntClass) (room : Bool) (g : Tg) :
    OwesMore g (enters cls room g) (.counter cls 255 :: if room then [] else [.enter]) := by
  cases room
  · exact (owesMore_owe g _).trans (owesMore_owe _ _)
  · exact owesMore_owe g _

/-! ### The issue of a command -/

/-- What the issue of a command leaves alone: memory, caches, logs; the thread group's operations and registers; its shot counts it. -/
def LeavesRest (s t : State) (e : Env) (g' : Tg) : Prop :=
  t.mm = s.mm ∧ t.cs = s.cs ∧ t.logs = s.logs ∧ g'.ops = e.g.ops ∧ (∀ k, realKey k = true → g'.word k = e.g.word k) ∧
    g'.shot.count = e.g.shot.count + 1

/-- The thread group after the issue of a command, from `g`, which counts the command, by `g'`, which owes its waits. -/
theorem retire_owing {e : Env} {h : Hints} {g g' : Tg} {ws : List Wait} (hpc : g.shot.pc = e.pc) (howes : OwesMore g g' ws) :
    let g'' := g'.retire e.set h false
    g''.ops = g.ops ∧ (∀ k, realKey k = true → g''.word k = g.word k) ∧ g''.shot.count = g.shot.count + 1 ∧
      (∀ y ∈ ws, y ∈ g''.shot.waits) ∧ g''.cntCopy = g.cntCopy ∧ g''.cntDcmp = g.cntDcmp := by
  have hpc' : g'.shot.pc = e.pc := by rw [howes.shot]; exact hpc
  have hleaves : Leaves e h g' (g'.retire e.set h false) [] := leaves_writeAll (lat := fun _ => 0) (writable_nil g') hpc'
  have hrest : restOfTg (g'.retire e.set h false) = restOfTg g := hleaves.rest.trans howes.rest
  refine ⟨(ops_retire ..).trans howes.ops, fun k hk => (hleaves.kept k hk (by simp)).trans (howes.word k), ?_, fun y hy => ?_,
    congrArg (·.cntCopy) hrest, congrArg (·.cntDcmp) hrest⟩
  · rw [hleaves.shot, howes.shot]
  · rw [hleaves.shot]
    exact howes.more y hy

/-- The thread group has placed and counted a command: its operations, registers and shot are as before. -/
structure Placed (g g' : Tg) : Prop where
  ops : g'.ops = g.ops
  word : ∀ k, g'.word k = g.word k
  shot : g'.shot = g.shot

/-- A thread group that places and counts a copy command, or a job. -/
def countsCopy (m : BitVec 8) (g : Tg) : Tg := { g.place.addSlots m with cntCopy := g.cntCopy + 1 }
def countsJob (m : BitVec 8) (g : Tg) : Tg := { g.place.addSlots m with cntDcmp := g.cntDcmp + 1 }

theorem placed_countsCopy (m : BitVec 8) (g : Tg) : Placed g (countsCopy m g) := ⟨rfl, fun k => by cases k <;> rfl, rfl⟩
theorem placed_countsJob (m : BitVec 8) (g : Tg) : Placed g (countsJob m g) := ⟨rfl, fun k => by cases k <;> rfl, rfl⟩

/-- A command enters a queue, in `s1`, and its thread group places and counts it, as `g`, and owes waits, by `f`. -/
theorem retired_owing {s s1 : State} {e : Env} {h : Hints} {g : Tg} {f : Tg → Tg} {ws : List Wait} (ht : s1.tg? e.r = some e.g)
    (hmm : s1.mm = s.mm) (hcs : s1.cs = s.cs) (hlogs : s1.logs = s.logs) (hplaced : Placed e.g g)
    (hpc : e.g.shot.pc = e.pc) (howes : OwesMore g (f e.g) ws) :
    let t := retired e h false (s1.updTg e.r f)
    ∃ g' : Tg, t.tg? e.r = some g' ∧ t.cores = s1.cores ∧ t.clusters = s1.clusters ∧ LeavesRest s t e g' ∧
      (∀ y ∈ ws, y ∈ g'.shot.waits) ∧ g'.cntCopy = g.cntCopy ∧ g'.cntDcmp = g.cntDcmp := by
  obtain ⟨hops', hwords', hcount, hwaits, hcopy, hdcmp⟩ := retire_owing (h := h) (hplaced.shot ▸ hpc) howes
  rw [retired_updTg ht]
  exact ⟨_, State.tg?_setTg_self ht _, s1.cores_setTg .., s1.clusters_setTg ..,
    ⟨(s1.mm_setTg ..).trans hmm, (s1.cs_setTg ..).trans hcs, (s1.logs_setTg ..).trans hlogs, hops'.trans hplaced.ops,
      fun k hk => (hwords' k hk).trans (hplaced.word k), hcount.trans (by rw [hplaced.shot])⟩, hwaits, hcopy, hdcmp⟩

theorem deferOf_eq (h : Hints) :
    deferOf h = if 8 ≤ h.gidx.toNat ∧ h.gidx.toNat < 15 then some (h.gidx.toNat - 8, h.gneg) else none := by
  simp only [deferOf, Bool.and_eq_true, decide_eq_true_eq]

/-! ### Copy commands and prefetches -/

/-- A command in the queue has the kind, the words and the issuer of the one issued, and has not begun. -/
structure Entered (x y : CopyCmd) : Prop where
  kind : y.kind = x.kind
  words : y.words = x.words
  issuer : y.issuer = x.issuer
  part : y.part = x.part
  ctx : y.ctx = x.ctx
  defer : y.defer = x.defer
  phase : y.phase = x.phase
  accepted : y.accepted = x.accepted

theorem enqueueCopy_eq (s : State) (core : Nat) (x : CopyCmd) : ∃ q y,
    enqueueCopy s core x =
      (s.setCore core q).updTg x.issuer (fun g => enters .cpy (hasRoom s (s.core core) x.part) (countsCopy x.slots g)) ∧
      q.copyq = (s.core core).copyq ++ [y] ∧ Entered x y := by
  refine ⟨_, _, rfl, rfl, ?_⟩
  split <;> exact ⟨rfl, rfl, rfl, rfl, rfl, rfl, rfl, rfl⟩

/-- The queue of a core, or a partition's share of it, is full (R89). -/
def QueueFull (s : State) (q : CoreSt) (part : Nat) : Prop :=
  32 ≤ q.copyq.length ∨ min 32 (s.cs.ceq.getD part 0#6).toNat ≤ countIf q.copyq fun x => x.part == part

theorem QueueFull.hasRoom_eq_false {s : State} {q : CoreSt} {part : Nat} (h : QueueFull s q part) : hasRoom s q part = false := by
  rw [hasRoom, Bool.and_eq_false_iff, decide_eq_false_iff_not, decide_eq_false_iff_not, Nat.not_lt, Nat.not_lt]
  exact h

/-- A command enters the queue of the core behind the others, and its issue retires. -/
theorem retired_enqueueCopy {s : State} {e : Env} (ht : s.tg? e.r = some e.g) (hpc : e.g.shot.pc = e.pc) (h : Hints) {x : CopyCmd}
    (hissuer : x.issuer = e.r) :
    let t := retired e h false ((enqueueCopy s e.core x).updTg e.r Tg.oweSlots)
    ∃ (y : CopyCmd) (g' : Tg), t.tg? e.r = some g' ∧ (t.core e.core).copyq = (s.core e.core).copyq ++ [y] ∧ Entered x y ∧
      g'.cntCopy = e.g.cntCopy + 1 ∧ Wait.counter .cpy 255 ∈ g'.shot.waits ∧
      (QueueFull s (s.core e.core) x.part → Wait.enter ∈ g'.shot.waits) ∧ LeavesRest s t e g' := by
  obtain ⟨q, y, hqueue, hcopyq, hentered⟩ := enqueueCopy_eq s e.core x
  have ht' : (s.setCore e.core q).tg? e.r = some e.g := ht
  rw [hqueue, hissuer, updTg_updTg ht']
  obtain ⟨g', htg, hcores, -, hrest, hwaits, hcount, -⟩ := retired_owing (s := s) (s1 := s.setCore e.core q) (h := h)
    (f := fun g => (enters .cpy (hasRoom s (s.core e.core) x.part) (countsCopy x.slots g)).oweSlots) ht'
    (s.mm_setCore ..) (s.cs_setCore ..) (s.logs_setCore ..) (placed_countsCopy x.slots e.g) hpc
    ((owesMore_enters ..).trans (owesMore_oweSlots _))
  refine ⟨y, g', htg, ?_, hentered, hcount, hwaits _ (by simp), fun hfull => hwaits _ (by simp [hfull.hasRoom_eq_false]), hrest⟩
  rw [State.core, hcores, State.setCore, lookD_put_self]
  exact hcopyq

/-- An undisturbed instruction puts a command of a kind, with some doublewords, into the queue of its core. -/
def Enqueues (i : Instr) (h : Hints) (s : State) (e : Env) (kind : CopyKind) (ws : List (BitVec 64)) : Prop :=
  ∃ (t : State) (x : CopyCmd) (g' : Tg), exec i s = .next t ∧ t.tg? e.r = some g' ∧
    (t.core e.core).copyq = (s.core e.core).copyq ++ [x] ∧ x.kind = kind ∧ x.words = ws ∧ x.issuer = e.r ∧ x.part = e.pt ∧ x.ctx = e.ctx ∧
    x.defer = (if 8 ≤ h.gidx.toNat ∧ h.gidx.toNat < 15 then some (h.gidx.toNat - 8, h.gneg) else none) ∧
    x.phase = .queued ∧ x.accepted = false ∧ g'.cntCopy = e.g.cntCopy + 1 ∧ Wait.counter .cpy 255 ∈ g'.shot.waits ∧
    (QueueFull s (s.core e.core) e.pt → Wait.enter ∈ g'.shot.waits) ∧ LeavesRest s t e g'

/-- The effect that copy commands and prefetches share. -/
def enterCommand (h : Hints) (kind : Ctx → CopyKind) (ws : Ctx → List (BitVec 64)) (slots : Ctx → BitVec 8) (c : Ctx) : State :=
  (enqueueCopy c.s c.e.core { newCommand c h (kind c) (ws c) with slots := slots c }).updTg c.e.r Tg.oweSlots

theorem enqueues_onceOp {s : State} {e : Env} {p : Plan} {i : Instr} {kind : Ctx → CopyKind} {ws : Ctx → List (BitVec 64)}
    {slots : Ctx → BitVec 8} (hready : Ready s e p) (hcut : p.cut = false) (usual : p.reserved (context s e p noForm) = false)
    (hexec : exec i s = onceOp s p noLate (enterCommand p.h kind ws slots)) :
    Enqueues i p.h s e (kind (context s e p noForm)) (ws (context s e p noForm)) := by
  rw [onceOp_ready hready usual, hcut] at hexec
  obtain ⟨y, g', htg, hcopyq, hentered, hcount, hcounter, henter, hrest⟩ := retired_enqueueCopy (tg_of_ready hready) (shot_pc hready) p.h
    (x := { newCommand (context s e p noForm) p.h (kind (context s e p noForm)) (ws (context s e p noForm)) with
      slots := slots (context s e p noForm) }) rfl
  exact ⟨_, y, g', hexec, htg, hcopyq, hentered.kind, hentered.words, hentered.issuer, hentered.part, hentered.ctx,
    hentered.defer.trans (deferOf_eq p.h), hentered.phase, hentered.accepted, hcount, hcounter, henter, hrest⟩

/-! ### Decompression jobs -/

/-- A job as it is issued, with the bytes of its stream. -/
def newJob (c : Ctx) (h : Hints) : Job :=
  let x : Job := { issuer := c.e.r, core := c.e.core, part := c.e.pt, ctx := c.e.ctx, words := c.command, defer := deferOf h,
                   accepted := false, phase := .queued, status := 0, slots := jobSlots c c.command, waits := [], super := c.e.g.super }
  { x with stream := x.streamNow c.s, id := c.tg.nextOp }

/-- The state with a job behind the others of a cluster. -/
def withJob (s : State) (k : Nat) (x : Job) : State := s.setCluster k { s.cluster k with jobs := (s.cluster k).jobs ++ [x] }

/-- The effect of `DCMP`. -/
def enterJob (h : Hints) (c : Ctx) : State :=
  (withJob c.s (clusterOf c.e.core) (newJob c h)).updTg c.e.r fun g =>
    (enters .dcmp (jobRoom c.s (clusterOf c.e.core)) (countsJob (newJob c h).slots g)).oweSlots

theorem execDcmp_eq (h : Hints) (n : U) (s : State) :
    execDcmp h n s = onceOp s { h := h, srcs := [commandSrc n], role := copyOnly } noLate (enterJob h) := rfl

theorem jobs_withJob (s : State) (k : Nat) (x : Job) : ((withJob s k x).cluster k).jobs = (s.cluster k).jobs ++ [x] := by
  rw [withJob, State.cluster, State.setCluster, lookD_put_self]

/-- A job enters the queue of the core's cluster behind the others, and its issue retires. -/
theorem execDcmp_enters {s : State} {e : Env} {h : Hints} {n : U}
    (hready : Ready s e { h := h, srcs := [commandSrc n], role := copyOnly }) :
    let c := context s e { h := h, srcs := [commandSrc n], role := copyOnly } noForm
    let k := clusterOf e.core
    ∃ (t : State) (g' : Tg), execDcmp h n s = .next t ∧ t.tg? e.r = some g' ∧
      (t.cluster k).jobs = (s.cluster k).jobs ++ [newJob c h] ∧ g'.cntDcmp = e.g.cntDcmp + 1 ∧ Wait.counter .dcmp 255 ∈ g'.shot.waits ∧
      (16 ≤ (s.cluster k).jobs.length → Wait.enter ∈ g'.shot.waits) ∧ LeavesRest s t e g' := by
  intro c k
  have ht : (withJob s k (newJob c h)).tg? e.r = some e.g := (tg_of_ready hready :)
  obtain ⟨g', htg, -, hclusters, hrest, hwaits, -, hcount⟩ := retired_owing (s := s) (s1 := withJob s k (newJob c h)) (h := h)
    (f := fun g => (enters .dcmp (jobRoom s k) (countsJob (newJob c h).slots g)).oweSlots) ht
    (s.mm_setCluster ..) (s.cs_setCluster ..) (s.logs_setCluster ..) (placed_countsJob (newJob c h).slots e.g) (shot_pc hready)
    ((owesMore_enters ..).trans (owesMore_oweSlots _))
  refine ⟨_, g', (execDcmp_eq ..).trans (onceOp_ready hready rfl _), htg, ?_, hcount, hwaits _ (by simp), fun hfull => ?_, hrest⟩
  · rw [← jobs_withJob s k (newJob c h)]
    exact congrArg (fun m => (lookD ClusterSt.fresh m k).jobs) hclusters
  · have hroom : jobRoom s k = false := decide_eq_false (Nat.not_lt.mpr hfull)
    exact hwaits _ (by simp [hroom])

end Sys2Proof.Proofs
end

section
/-! `CPYR` (R360), and the engines' commands together: O40. -/

namespace Sys2Proof.Proofs

open Sys2Proof.Machine Sys2Proof.Safety

/-! ### The command of a cursor -/

/-- The command that a cursor names, when the thread group may act on it. -/
theorem suspendedAt_some {c : Ctx} {x : CopyCmd} (hentry : (c.s.core (bitsAt (c.uval 0) 32 9)).entry (bitsAt (c.uval 0) 24 5) = some x)
    (hissuer : x.issuer = c.e.r) (hphase : x.phase = .suspended) :
    suspendedAt c = some (bitsAt (c.uval 0) 32 9, bitsAt (c.uval 0) 24 5) := by
  simp [suspendedAt, hentry, hissuer, hphase]

theorem suspendedAt_none {c : Ctx} (h : ∀ x, (c.s.core (bitsAt (c.uval 0) 32 9)).entry (bitsAt (c.uval 0) 24 5) = some x →
    x.issuer ≠ c.e.r ∨ x.phase ≠ .suspended) : suspendedAt c = none := by
  unfold suspendedAt
  dsimp only
  split
  next x hentry => simpa [imp_iff_not_or] using h x hentry
  next => rfl

/-- The issue writes a guard of the threads that take part, whatever its effect has left of the thread group but for its threads and
its shot. -/
theorem writes_writeGuards {s t : State} {e : Env} {p : Plan} {g : Tg} (hready : Ready s e p) (ht : t.tg? e.r = some g)
    (hthreads : g.threads.length = e.g.threads.length) (hshot : g.shot = e.g.shot) (lat : Nat) (gd : BitVec 3) (b : Bool) :
    Writes t e p.h (.next (retired e p.h false (writeGuards t (context s e p noForm) lat gd b))) g (guardWords e gd fun _ => b) := by
  refine ⟨_, congrArg _ (retired_updTg ht p.h false _), ?_⟩
  have hpc : g.shot.pc = e.pc := by rw [hshot, shot_pc hready]
  have hwrite : e.part.foldl (fun t l => t.writeGuard lat gd.toNat l b) g = writeAll g (fun _ => lat) (guardWords e gd fun _ => b) :=
    foldl_writeGuard g lat gd.toNat e.part fun _ => b
  rw [context_e, hwrite]
  exact leaves_writeAll (guardWords_writable hready.env hthreads gd _) hpc

/-! ### What the end of a copy command leaves of thread groups (R128) -/

/-- What the end of a copy command keeps of a thread group: its threads and its shot. -/
def issueState (g : Tg) : List Thread × Shot := (g.threads, g.shot)

theorem keepsTgs_setCore {β : Type} (k : Tg → β) (s : State) (n : Nat) (q : CoreSt) : KeepsTgs k s (s.setCore n q) := ⟨fun _ => rfl⟩

theorem tg?_updWg (s : State) (n : Nat) {f : Wg → Wg} (hf : ∀ w, (f w).tgs = w.tgs) (r : TgRef) : (s.updWg n f).tg? r = s.tg? r := by
  cases hw : s.wg? n with
  | none => simp only [State.updWg, hw]
  | some w =>
    rw [updWg_some hw]
    by_cases hn : n = r.wg
    · subst hn
      simp only [State.tg?, State.wg?_setWg_self, hw, Option.bind_some, hf]
    · simp only [State.tg?, State.wg?_setWg_ne s hn]

theorem tgs_arrive (w : Wg) (b : Nat) (status : BitVec 8) : (w.arrive b status).tgs = w.tgs := rfl

theorem keepsTgs_reportCompletion (s : State) (r : TgRef) (part core : Nat) (arrv : Bool) (bar status : Nat) :
    KeepsTgs issueState s (reportCompletion s r part core arrv bar status) := by
  unfold reportCompletion
  split
  · exact ⟨fun q => congrArg _ (tg?_updWg s r.wg (fun w => tgs_arrive w bar _) q)⟩
  · split
    · exact .refl issueState s
    · exact ⟨fun q => by simp only [completionRecord, State.tg?, wg?_appendRecord]⟩

theorem keepsTgs_retireCopies (core : Nat) (r : TgRef) (n : Nat) (s : State) : KeepsTgs issueState s (retireCopies s core r n) := by
  induction n generalizing s with
  | zero => exact .refl issueState s
  | succ n ih =>
    unfold retireCopies
    dsimp only
    split
    next x _ =>
      split
      · have hcount (s : State) : KeepsTgs issueState s (s.updTg r fun g => { g with cntCopy := g.cntCopy - 1 }) := keepsTgs_updTg s r fun _ => rfl
        exact (keepsTgs_setCore ..).trans ((hcount _).trans ((keepsTgs_reportCompletion ..).trans (ih _)))
      · exact .refl issueState s
    next => exact .refl issueState s

theorem keepsTgs_finishCopy (s : State) (core entry status : Nat) : KeepsTgs issueState s (finishCopy s core entry status) := by
  unfold finishCopy
  dsimp only
  split
  next => exact .refl issueState s
  next x _ =>
    have hslots (s : State) : KeepsTgs issueState s (s.updTg x.issuer fun g => g.subSlots x.slots) := keepsTgs_updTg s _ fun _ => rfl
    exact (keepsTgs_setCore ..).trans ((keepsTgs_setCore ..).trans ((hslots _).trans (keepsTgs_retireCopies ..)))

/-! ### Its two forms -/

section Cpyr

variable {s : State} {e : Env} {h : Hints} {a : U}

/-- The cursor's value. -/
abbrev cursorOf (s : State) (e : Env) (a : U) : Nat := value s e [(srcA (.s a) 2).consumed] 0 (e.part.headD 0)

/-- The core and the queue entry that the cursor names. -/
abbrev cursorCore (s : State) (e : Env) (a : U) : Nat := cursorOf s e a / 2 ^ 32 % 512
abbrev cursorEntry (s : State) (e : Env) (a : U) : Nat := cursorOf s e a / 2 ^ 24 % 32

variable (hready : Ready s e { h := h, srcs := [(srcA (.s a) 2).consumed], super := true })

include hready

theorem cpyrOp_acts {x : CopyCmd} (hentry : (s.core (cursorCore s e a)).entry (cursorEntry s e a) = some x) (hissuer : x.issuer = e.r)
    (hphase : x.phase = .suspended) (gd : BitVec 3) {act : State → Nat → Nat → State}
    (hact : KeepsTgs issueState s (act s (cursorCore s e a) (cursorEntry s e a))) {g : Tg}
    (hg : (act s (cursorCore s e a) (cursorEntry s e a)).tg? e.r = some g) :
    Writes (act s (cursorCore s e a) (cursorEntry s e a)) e h (cpyrOp h gd a act s) g (guardWords e gd fun _ => true) := by
  have hcursor := context_uval hready 0
  have hsuspended := suspendedAt_some (c := context s e { h := h, srcs := [(srcA (.s a) 2).consumed], super := true } noForm)
    (by rw [hcursor]; exact hentry) hissuer hphase
  have hkept : issueState g = issueState e.g := by
    have := hact.tgs e.r
    rwa [hg, tg_of_ready hready, Option.map_some, Option.map_some, Option.some.injEq] at this
  obtain ⟨hthreads, hshot⟩ := Prod.mk.inj hkept
  rw [cpyrOp, onceOp_ready hready rfl]
  dsimp only
  rw [hsuspended, hcursor]
  exact writes_writeGuards hready hg (congrArg List.length hthreads) hshot 4 gd true

theorem cpyrOp_refuses (hnone : ∀ x, (s.core (cursorCore s e a)).entry (cursorEntry s e a) = some x → x.issuer ≠ e.r ∨ x.phase ≠ .suspended)
    (gd : BitVec 3) (act : State → Nat → Nat → State) :
    Writes s e h (cpyrOp h gd a act s) e.g (guardWords e gd fun _ => false) := by
  have hcursor := context_uval hready 0
  have hsuspended := suspendedAt_none (c := context s e { h := h, srcs := [(srcA (.s a) 2).consumed], super := true } noForm)
    (by rw [hcursor]; exact hnone)
  rw [cpyrOp, onceOp_ready hready rfl]
  dsimp only
  rw [hsuspended]
  exact writes_writeGuards hready (tg_of_ready hready) rfl rfl 4 gd false

/-- `CPYR.go` sets the command going again at its cursor. -/
theorem execCpyrGo_resumes {x : CopyCmd} (hentry : (s.core (cursorCore s e a)).entry (cursorEntry s e a) = some x) (hissuer : x.issuer = e.r)
    (hphase : x.phase = .suspended) (gd : BitVec 3) :
    Writes (updEntry s (cursorCore s e a) (cursorEntry s e a) fun x => { x with phase := .active, buf := [] }) e h (execCpyrGo h gd a s) e.g
      (guardWords e gd fun _ => true) := by
  have htg : (updEntry s (cursorCore s e a) (cursorEntry s e a) fun x => { x with phase := .active, buf := [] }).tg? e.r = some e.g :=
    (tg_of_ready hready :)
  exact cpyrOp_acts hready hentry hissuer hphase gd (act := fun s core e => updEntry s core e fun x => { x with phase := .active, buf := [] })
    (keepsTgs_setCore ..) htg

/-- `CPYR.ab` completes it with status 0x05. -/
theorem execCpyrAb_ends {x : CopyCmd} (hentry : (s.core (cursorCore s e a)).entry (cursorEntry s e a) = some x) (hissuer : x.issuer = e.r)
    (hphase : x.phase = .suspended) (gd : BitVec 3) {g : Tg}
    (hg : (finishCopy s (cursorCore s e a) (cursorEntry s e a) 0x05).tg? e.r = some g) :
    Writes (finishCopy s (cursorCore s e a) (cursorEntry s e a) 0x05) e h (execCpyrAb h gd a s) g (guardWords e gd fun _ => true) :=
  cpyrOp_acts hready hentry hissuer hphase gd (act := fun s core e => finishCopy s core e 0x05) (keepsTgs_finishCopy ..) hg

/-- With no such command, either form does nothing but write the guard. -/
theorem execCpyr_refuses (hnone : ∀ x, (s.core (cursorCore s e a)).entry (cursorEntry s e a) = some x → x.issuer ≠ e.r ∨ x.phase ≠ .suspended)
    (gd : BitVec 3) : Writes s e h (execCpyrGo h gd a s) e.g (guardWords e gd fun _ => false) ∧
      Writes s e h (execCpyrAb h gd a s) e.g (guardWords e gd fun _ => false) :=
  ⟨cpyrOp_refuses hready hnone gd _, cpyrOp_refuses hready hnone gd _⟩

end Cpyr

/-! ### The statement -/

/-- The copy commands: their doublewords are those of their registers. -/
theorem copyOp_enqueues {s : State} {e : Env} {h : Hints} {i : Instr} {srcs : List Src} {kind : Ctx → CopyKind}
    (hready : Ready s e { h := h, srcs := srcs, role := copyOnly }) (hexec : exec i s = copyOp s h srcs kind) :
    Enqueues i h s e (kind (context s e { h := h, srcs := srcs, role := copyOnly } noForm)) (commandWords s e srcs) := by
  rw [← context_command hready]
  exact enqueues_onceOp (ws := Ctx.command) (slots := fun c => copySlots c (newCommand c h (kind c) c.command)) hready rfl rfl hexec

/-- Settles O40: every command's issue is one update of its queue and one of its thread group, which retires; `CPYR` writes its guard
on what its act has left. -/
theorem engineCommands : Obligations.EngineCommands := by
  unfold Obligations.EngineCommands
  refine ⟨fun h n b p bar a l1 => ⟨?_, ?_, ?_, ?_, ?_, ?_⟩, fun h gd a s e => ?_⟩
  · intro s e hready
    exact copyOp_enqueues (kind := fun _ => .copy) hready rfl
  · intro s e hready
    have henters := copyOp_enqueues (i := .cpygGather h n b) (kind := fun c => .gather (c.uval 1)) hready rfl
    rw [context_uval hready] at henters
    exact henters
  · intro s e hready
    have henters := copyOp_enqueues (i := .cpygScatter h n b) (kind := fun c => .scatter (c.uval 1)) hready rfl
    rw [context_uval hready] at henters
    exact henters
  · intro s e hready
    exact copyOp_enqueues (kind := fun _ => .peer p.toNat) hready rfl
  · intro s e hready
    have henters := enqueues_onceOp (i := .preft h l1 bar a b) (kind := fun _ => .prefetch l1)
      (ws := fun c => [BitVec.ofNat 64 (c.uval 0), BitVec.ofNat 64 (c.uval 1), BitVec.ofNat 64 bar.toNat])
      (slots := fun c => c.tg.touched false [(c.uval 0, c.uval 1)]) hready rfl rfl rfl
    rw [context_uval hready, context_uval hready] at henters
    exact henters
  · intro s e hready k
    obtain ⟨t, g', hexec, htg, hjobs, hcount, hcounter, henter, hrest⟩ := execDcmp_enters hready
    exact ⟨t, _, g', hexec, htg, hjobs, context_command hready, rfl, rfl, rfl, rfl, deferOf_eq h, rfl, rfl, hcount, hcounter, henter, hrest⟩
  · intro srcs x core entry q hready
    refine ⟨fun c hentry hissuer hphase => ⟨?_, fun g hg => ?_⟩, fun hnone => ?_⟩
    · exact execCpyrGo_resumes hready hentry hissuer hphase gd
    · exact execCpyrAb_ends hready hentry hissuer hphase gd hg
    · exact execCpyr_refuses hready hnone gd

end Sys2Proof.Proofs
end

section
/-! Memory instructions: the addresses that their lanes form, the checks of the lanes, and accesses put in flight (R289, R291, R294,
R296, R299, R420). -/

namespace Sys2Proof.Proofs

open Sys2Proof.Machine Sys2Proof.Safety

/-! ### The address that a lane forms (R289) -/

theorem sum_zeros (k : Nat) : (List.replicate k 0#32).foldr (fun w m => w.toNat + 2 ^ 32 * m) 0 = 0 := by
  induction k with
  | zero => rfl
  | succ k ih => rw [List.replicate_succ, List.foldr_cons, ih]; rfl

theorem sum_wordsOf {n : Nat} (hn : n = 32 ∨ n = 64) (v : Nat) (k : Nat) :
    (wordsOf n v ++ List.replicate k 0#32).foldr (fun w m => w.toNat + 2 ^ 32 * m) 0 = v % 2 ^ n := by
  rw [List.foldr_append, sum_zeros]
  rcases hn with rfl | rfl
  · simp [wordsOf]
  · simp only [wordsOf, beq_self_eq_true, if_true, List.foldr_cons, List.foldr_nil, BitVec.toNat_ofNat]
    omega

theorem find?_map_pair {α : Type} (f : Nat → α) {l : Nat} {ls : List Nat} (hl : l ∈ ls) :
    (ls.map fun l => (l, f l)).find? (fun x => x.1 == l) = some (l, f l) := by
  induction ls with
  | nil => cases hl
  | cons k ls ih =>
    by_cases hk : k = l
    · simp [hk]
    · have hl' : l ∈ ls := by simpa [Ne.symm hk] using hl
      simpa [hk] using ih hl'

section Formed

variable {s : State} {e : Env} {p : Plan} (hready : Ready s e p) {form : Ctx → Nat → LaneRes} {l : Nat}

include hready

theorem find?_formed (hl : l ∈ formLanes e p) :
    (context s e p form).formed.find? (fun x => x.1 == l) = some (l, form (readCtx s e p) l) := by
  rw [context_eq hready]
  exact find?_map_pair _ hl

/-- The value that a lane's adder forms, whatever zero words stand behind its own. -/
theorem formedSum_of_words (hl : l ∈ formLanes e p) {n v k : Nat} (hn : n = 32 ∨ n = 64)
    (hwords : (form (readCtx s e p) l).words = wordsOf n v ++ List.replicate k 0#32) :
    (context s e p form).formedSum l = v % 2 ^ n := by
  rw [Ctx.formedSum, find?_formed hready hl]
  dsimp only
  rw [hwords, sum_wordsOf hn]

theorem context_src (hl : l ∈ e.part) (i : Nat) : (context s e p form).src i l = words s e p.srcs i l := by
  rw [← src_given hready hl, context_eq hready]
  rfl

theorem words_baseOffset (hl : l ∈ e.part) (n : Nat) : (baseOffset n (readCtx s e p) l).words = wordsOf n (addr n s e p.srcs l) := by
  rw [baseOffset, val_value hready hl, val_value hready hl]
  rfl

/-- A base alone is its own address. -/
theorem words_baseAlone (hl : l ∈ e.part) (n : Nat) : (baseAlone n (readCtx s e p) l).words = wordsOf n (value s e p.srcs 0 l % 2 ^ n) := by
  have hzero : wrapInt n (ival true 32 0) = 0 := by simp [wrapInt, ival]
  rw [baseAlone, val_value hready hl]
  simp [addrForm, LaneRes.pred, hzero]

end Formed

@[simp] theorem words_load (sz : MemSz) (r : LaneRes) : (r.load sz).words = r.words := by
  unfold LaneRes.load
  split <;> rfl

theorem sound_load {r : LaneRes} (h : Sound r) (sz : MemSz) : Sound (r.load sz) := by
  unfold LaneRes.load
  split <;> exact h

/-! ### The checks of the lanes -/

theorem foldl_lanes_go {c : Ctx} {f : Ctx → Nat → State × LaneOut} {as : Nat → List Acc} {ls : List Nat}
    (hf : ∀ l ∈ ls, f c l = (c.s, .accs (as l))) (outs : List (Nat × LaneOut)) :
    ls.foldl (fun (a : Ctx × List (Nat × LaneOut)) l => ({ a.1 with s := (f a.1 l).1 }, a.2 ++ [(l, (f a.1 l).2)])) (c, outs) =
      (c, outs ++ ls.map fun l => (l, .accs (as l))) := by
  induction ls generalizing outs with
  | nil => simp
  | cons l ls ih =>
    rw [List.foldl_cons, hf l (by simp), ih fun k hk => hf k (by simp [hk])]
    simp

theorem verdictOf_go (cls : Nat) (all : BitVec 64) (shared : Bool) (ls : List Nat) (as : Nat → List Acc) :
    verdictOf cls all shared (ls.map fun l => (l, .accs (as l))) = .go := by
  have hwaits : ls.flatMap (fun _ => ([] : List PageWait)) = [] := List.flatMap_eq_nil_iff.mpr fun _ _ => rfl
  simp [verdictOf, List.filterMap_map, List.flatMap_map, hwaits]

/-- Lanes that all pass leave the context but for their accesses. -/
theorem checkLanes_go {c : Ctx} {ls : List Nat} {f : Ctx → Nat → State × LaneOut} {as : Nat → List Acc}
    (hf : ∀ l ∈ ls, f c l = (c.s, .accs (as l))) (cls : Nat) :
    checkLanes c cls ls f = ({ c with accs := madeBy c.e ls (ls.flatMap as) }, .go) := by
  unfold checkLanes
  simp only [foldl_lanes_go hf, List.nil_append, verdictOf_go, List.flatMap_map, madeBy, sharedBy, decide_eq_true_eq]

/-- A memory instruction of which every lane passes puts the accesses of its lanes into effect. -/
theorem issue_lanes {s : State} {e : Env} {p : Plan} {form : Ctx → Nat → LaneRes} {cls : Nat} {lanes : Env → List Nat}
    {f : Ctx → Nat → State × LaneOut} {as : Nat → List Acc} (hready : Ready s e p) (usual : p.reserved (context s e p form) = false)
    (hsound : ∀ l ∈ e.part, Sound (form (readCtx s e p) l))
    (hpass : ∀ l ∈ lanes e, f (context s e p form) l = (s, .accs (as l))) (act : Ctx → State) :
    issue s p form (fun c => checkLanes c cls (lanes c.e) f) act =
      .next (retired e p.h p.cut (act { context s e p form with accs := madeBy e (lanes e) ((lanes e).flatMap as) })) := by
  rw [issue_ready hready form _ act (fun l hl => hsound l (formLanes_part hl)) usual (checkLanes_go hpass cls) rfl]
  dsimp only
  rw [context_s, clearStrikes_calm hready.calm]
  rfl

/-- A lane that makes an access of an instruction with a destination forms an address. -/
theorem accessors_formLanes {e : Env} {p : Plan} {d : Reg} {n : Nat} (hdst : p.dst = some (d, n)) {uni : Bool} {l : Nat}
    (hl : l ∈ accessors e (some d) uni) : l ∈ formLanes e p := by
  simp only [accessors, Option.map_some, Option.getD_some] at hl
  simp only [formLanes, Plan.once, hdst]
  split at hl
  · split
    · exact hl
    · exact List.mem_of_mem_take hl
  next =>
    have hvector : d.isS = false := by simp_all
    simpa [hvector] using hl

theorem makers_part {e : Env} {uni : Bool} {l : Nat} (hl : l ∈ makers e uni) : l ∈ e.part := by
  unfold makers at hl
  split at hl
  · exact List.mem_of_mem_take hl
  · exact hl

/-! ### Accesses put in flight (R299, R316) -/

theorem launchAccs_inFlight {s : State} {e : Env} {p : Plan} (hready : Ready s e p) (form : Ctx → Nat → LaneRes) (as : List Acc)
    (spad : Bool) (o : MemOp) : launchAccs { context s e p form with accs := as } spad o = inFlight s e spad as o := by
  have htg : Ctx.tg { context s e p form with accs := as } = e.g := context_tg hready form
  rw [launchAccs, htg]
  rfl

/-- The operation of a load is that of the values it returns (R290, R294). -/
theorem loadOp_returning (c : Ctx) (h : Hints) (sz : MemSz) (d : Reg) (uni : Bool) :
    loadOp c h sz d uni = returning c.e h d uni sz.bytes (sz == .s16 || sz == .s8) := by
  cases sz <;> rfl

end Sys2Proof.Proofs
end

section
/-! Scratchpad accesses, held loads, filling stores and the cluster-remote forms (R103, R109, R289 to R294, R305 to R308): O30. -/

namespace Sys2Proof.Proofs

open Sys2Proof.Machine Sys2Proof.Safety

/-! ### The check of a lane (R103, R291) -/

theorem spadLane_own {e : Env} {n o : Nat} (h : fits e o n) (kind : AccKind) (l : Nat) (d d2 : List CWord) :
    spadLane e kind n none l o d d2 = .accs [onSpad kind n none l o d d2] := by
  obtain ⟨haligned, hwithin⟩ := h
  simp [spadLane, haligned, Nat.not_lt.mpr hwithin, onSpad]

theorem spadLane_remote {e : Env} {n o : Nat} (h : fits e o n) (w : Nat) (kind : AccKind) (l : Nat) (d d2 : List CWord) :
    spadLane e kind n (some (some w)) l o d d2 = .accs [onSpad kind n (if w = e.r.wg then none else some w) l o d d2] := by
  obtain ⟨haligned, hwithin⟩ := h
  simp [spadLane, haligned, Nat.not_lt.mpr hwithin, onSpad]

/-- A target of scratchpad accesses passes its check, and its accesses name a workgroup: none for the own one. -/
def Targets (e : Env) (target : Option (Option Nat)) (w : Option Nat) : Prop :=
  ∀ kind n l o d d2, fits e o n → spadLane e kind n target l o d d2 = .accs [onSpad kind n w l o d d2]

theorem targets_own (e : Env) : Targets e none none := fun kind _ l _ d d2 hfits => spadLane_own hfits kind l d d2

/-- The peer of an issue is that of its state. -/
theorem targets_remote {s : State} {e : Env} {p : Plan} {form : Ctx → Nat → LaneRes} {k : BitVec 3} {w : Nat}
    (hpeer : clusterPeer s e (8 * (e.core / 8) + k.toNat) = some w) :
    Targets e (remoteSpad k (context s e p form)) (if w = e.r.wg then none else some w) := by
  have htarget : remoteSpad k (context s e p form) = some (some w) := congrArg some hpeer
  rw [htarget]
  exact fun kind _ l _ d d2 hfits => spadLane_remote hfits w kind l d d2

/-- A scratchpad instruction of which every lane's bytes lie aligned in the scratchpad: its accesses go into effect. -/
theorem issue_spad {s : State} {e : Env} {p : Plan} {form : Ctx → Nat → LaneRes} {kind : AccKind} {n : Nat}
    {target : Ctx → Option (Option Nat)} {w : Option Nat} {lanes : Env → List Nat} {data : Ctx → Nat → List CWord × List CWord}
    {offset : Nat → Nat} {d d2 : Nat → List CWord} (hready : Ready s e p) (usual : p.reserved (context s e p form) = false)
    (hsound : ∀ l ∈ e.part, Sound (form (readCtx s e p) l)) (htarget : Targets e (target (context s e p form)) w)
    (hsum : ∀ l ∈ lanes e, (context s e p form).formedSum l % 2 ^ 32 = offset l)
    (hdata : ∀ l ∈ lanes e, data (context s e p form) l = (d l, d2 l)) (hfits : ∀ l ∈ lanes e, fits e (offset l) n) (act : Ctx → State) :
    issue s p form (spadLate kind n target (fun c => lanes c.e) data) act = .next (retired e p.h p.cut (act { context s e p form with
      accs := madeBy e (lanes e) ((lanes e).map fun l => onSpad kind n w l (offset l) (d l) (d2 l)) })) := by
  rw [List.map_eq_flatMap]
  refine issue_lanes (as := fun l => [onSpad kind n w l (offset l) (d l) (d2 l)]) hready usual hsound (fun l hl => ?_) act
  dsimp only
  rw [hsum l hl, hdata l hl]
  exact congrArg (Prod.mk s) (htarget _ _ _ _ _ _ (hfits l hl))

/-! ### Loads and stores -/

/-- The plan of a load of a scratchpad, and of a store. -/
def spadLoad (h : Hints) (sz : MemSz) (d a : Reg) (b : Opd) : Plan :=
  { h := h, srcs := addrSrcs 1 a b, dst := some (d, sz.words), role := vectorOnly }
def spadStore (h : Hints) (sz : MemSz) (d a : Reg) (b : Opd) : Plan :=
  { h := h, srcs := storeSrcs 1 sz d a b, role := vectorOnly }

/-- The accesses of a load, and of a store. -/
def spadLoads (s : State) (e : Env) (sz : MemSz) (d a : Reg) (b : Opd) (w : Option Nat) : List Acc :=
  madeBy e (accessors e (some d) (uniformAddr a b)) ((accessors e (some d) (uniformAddr a b)).map fun l =>
    onSpad .load sz.bytes w l (addr 32 s e (addrSrcs 1 a b) l) [] [])
def spadStores (s : State) (e : Env) (sz : MemSz) (d a : Reg) (b : Opd) (w : Option Nat) : List Acc :=
  madeBy e (makers e (d.isS && uniformAddr a b)) ((makers e (d.isS && uniformAddr a b)).map fun l =>
    onSpad .store sz.bytes w l (addr 32 s e (storeSrcs 1 sz d a b) l) (words s e (storeSrcs 1 sz d a b) 2 l) [])

/-- The offset that a lane forms from a base and a displacement. -/
theorem offset_addr {s : State} {e : Env} {p : Plan} {form : Ctx → Nat → LaneRes} (hready : Ready s e p) {l : Nat} (hl : l ∈ formLanes e p)
    (hwords : (form (readCtx s e p) l).words = (baseOffset 32 (readCtx s e p) l).words) :
    (context s e p form).formedSum l % 2 ^ 32 = addr 32 s e p.srcs l := by
  rw [formedSum_of_words hready hl (v := addr 32 s e p.srcs l) (k := 0) (.inl rfl)
      (by rw [hwords, words_baseOffset hready (formLanes_part hl), List.replicate_zero, List.append_nil]), Nat.mod_mod]
  exact Nat.mod_mod ..

section Issues

variable {s : State} {e : Env} {h : Hints} {sz : MemSz} {d a : Reg} {b : Opd} {target : Ctx → Option (Option Nat)} {w : Option Nat}

theorem issue_spadLoad (hready : Ready s e (spadLoad h sz d a b))
    (hfits : ∀ l ∈ accessors e (some d) (uniformAddr a b), fits e (addr 32 s e (addrSrcs 1 a b) l) sz.bytes)
    (htarget : Targets e (target (context s e (spadLoad h sz d a b) (loadForm sz 32))) w) (act : Ctx → State) :
    issue s (spadLoad h sz d a b) (loadForm sz 32) (spadLate .load sz.bytes target (loadLanes · d (uniformAddr a b)) noData) act =
      .next (retired e h false (act { context s e (spadLoad h sz d a b) (loadForm sz 32) with
        accs := spadLoads s e sz d a b w })) :=
  issue_spad (lanes := fun e => accessors e (some d) (uniformAddr a b)) (d := fun _ => []) (d2 := fun _ => []) hready rfl
    (fun _ _ => sound_load (addr_sound (.inl rfl) ..) sz) htarget
    (fun _ hl => offset_addr hready (accessors_formLanes rfl hl) (words_load ..)) (fun _ _ => rfl) hfits act

theorem issue_spadStore (hready : Ready s e (spadStore h sz d a b))
    (hfits : ∀ l ∈ makers e (d.isS && uniformAddr a b), fits e (addr 32 s e (storeSrcs 1 sz d a b) l) sz.bytes)
    (htarget : Targets e (target (context s e (spadStore h sz d a b) (baseOffset 32))) w) (act : Ctx → State) :
    issue s (spadStore h sz d a b) (baseOffset 32)
        (spadLate .store sz.bytes target (storeLanes · (d.isS && uniformAddr a b)) storeData) act =
      .next (retired e h false (act { context s e (spadStore h sz d a b) (baseOffset 32) with accs := spadStores s e sz d a b w })) :=
  issue_spad (lanes := fun e => makers e (d.isS && uniformAddr a b)) (d2 := fun _ => []) hready rfl
    (fun _ _ => addr_sound (.inl rfl) ..) htarget (fun _ hl => offset_addr hready (makers_part hl) rfl)
    (fun _ hl => by rw [storeData, context_src hready (makers_part hl)]; rfl) hfits act

/-- The effect of a load whose accesses have passed. -/
theorem launch_spadLoad (hready : Ready s e (spadLoad h sz d a b)) (as : List Acc) :
    launchAccs { context s e (spadLoad h sz d a b) (loadForm sz 32) with accs := as } true
        (loadOp { context s e (spadLoad h sz d a b) (loadForm sz 32) with accs := as } h sz d (uniformAddr a b)) =
      inFlight s e true as (returning e h d (uniformAddr a b) sz.bytes (sz == .s16 || sz == .s8)) := by
  rw [launchAccs_inFlight hready, loadOp_returning]
  rfl

/-- The effect of a held load, which owes its granules to the `CUT` (R307). -/
theorem launchLdf_holds (hready : Ready s e (spadLoad h sz d a b)) (as : List Acc) (take : Bool) :
    launchLdf { context s e (spadLoad h sz d a b) (loadForm sz 32) with accs := as } h sz d (uniformAddr a b) take =
      (inFlight s e true as { returning e h d (uniformAddr a b) sz.bytes (sz == .s16 || sz == .s8) with granule := some take }).updTg e.r
        fun g => owing g [.granules e.g.nextOp] := by
  have htg : Ctx.tg { context s e (spadLoad h sz d a b) (loadForm sz 32) with accs := as } = e.g := context_tg hready (loadForm sz 32)
  have howing : ∀ g : Tg, owing g [.granules e.g.nextOp] = g.owe (.granules e.g.nextOp) := by
    intro g
    simp only [owing, Tg.owe, List.foldl_cons, List.foldl_nil]
    split <;> rfl
  rw [launchLdf, launchAccs_inFlight hready (loadForm sz 32), loadOp_returning, htg]
  simp only [howing]
  rfl

end Issues

/-! ### The statement -/

/-- Settles O30: every lane's access passes the checks of R291 and R103, and the accesses are put in flight as one operation. -/
theorem scratchpadAccesses : Obligations.ScratchpadAccesses := by
  unfold Obligations.ScratchpadAccesses
  intro h sz k d a b w
  refine ⟨?_, ?_, ?_, ?_, ?_, ?_, ?_⟩
  · intro s e hready hfits
    exact (issue_spadLoad hready hfits (targets_own e) _).trans (congrArg _ (congrArg _ (launch_spadLoad hready _)))
  · intro s e hready hfits
    exact (issue_spadStore hready hfits (targets_own e) _).trans (congrArg _ (congrArg _ (launchAccs_inFlight hready _ _ _ _)))
  · intro s e hready hfits
    exact (issue_spadLoad hready hfits (targets_own e) _).trans (congrArg _ (congrArg _ (launchLdf_holds hready _ false)))
  · intro s e hready hfits
    exact (issue_spadLoad hready hfits (targets_own e) _).trans (congrArg _ (congrArg _ (launchLdf_holds hready _ true)))
  · intro s e hready hfits
    exact (issue_spadStore hready hfits (targets_own e) _).trans (congrArg _ (congrArg _ (launchAccs_inFlight hready _ _ _ _)))
  · intro s e hready hok
    obtain ⟨hfits, hpeer⟩ := hok
    exact (issue_spadLoad hready hfits (targets_remote hpeer) _).trans (congrArg _ (congrArg _ (launch_spadLoad hready _)))
  · intro s e hready hok
    obtain ⟨hfits, hpeer⟩ := hok
    exact (issue_spadStore hready hfits (targets_remote hpeer) _).trans (congrArg _ (congrArg _ (launchAccs_inFlight hready _ _ _ _)))

end Sys2Proof.Proofs
end

section
/-! Atomics at the home and at the bank ALUs (R108, R291, R296, R310, R311, R313): O32. -/

namespace Sys2Proof.Proofs

open Sys2Proof.Machine Sys2Proof.Safety

/-! ### Global accesses that reach their target (R420) -/

theorem translatePieces_to {s : State} {e : Env} {q : Global} {va : Nat} {at_ : Nat → Nat × PageKind × Option CodedTag} {ps : List (Nat × Nat)}
    (h : ∀ p ∈ ps, p.1 < 2 ^ 57 ∧ translate s e.core e.ctx e.g.super q.cls p.1 p.2 = (s, .to (at_ p.1).1 (at_ p.1).2.1 (at_ p.1).2.2))
    (l : Nat) (d d2 : List CWord) :
    translatePieces e q l va d d2 s ps = (s, ps.map fun p => .ok (.inl (mkAcc l q.kind p.1 p.2 (at_ p.1).1 (at_ p.1).2.1 (at_ p.1).2.2
      (pieceWords (p.1 - va) (p.1 % 4) p.2 d) (pieceWords (p.1 - va) (p.1 % 4) p.2 d2)))) := by
  induction ps with
  | nil => rfl
  | cons p ps ih =>
    obtain ⟨hspace, hto⟩ := h p (by simp)
    simp only [translatePieces, if_neg (Nat.not_le.mpr hspace), hto, ih fun x hx => h x (by simp [hx]), List.map_cons]

theorem globalLane_reaches {s : State} {e : Env} {q : Global} {l va : Nat} {d d2 : List CWord} {as : List Acc}
    (h : Reaches s e q l va d d2 as) : globalLane s e q l va d d2 = (s, .accs as) := by
  obtain ⟨hspace, haligned, hrule, at_, hto, rfl⟩ := h
  have halign : (!q.mis && va % q.n != 0) = false := by
    rcases haligned with hmis | hmod
    · simp [hmis]
    · simp [hmod]
  unfold globalLane
  simp only [if_neg (Nat.not_le.mpr hspace), halign, Bool.false_eq_true, if_false, translatePieces_to hto, List.filterMap_map]
  simp [hrule]

/-- A memory instruction of which every lane reaches its target. -/
theorem issue_global {s : State} {e : Env} {p : Plan} {form : Ctx → Nat → LaneRes} {q : Global} {lanes : Env → List Nat}
    {data : Ctx → Nat → List CWord × List CWord} {va : Nat → Nat} {d d2 : Nat → List CWord} {as : Nat → List Acc} (hready : Ready s e p)
    (usual : p.reserved (context s e p form) = false) (hsound : ∀ l ∈ e.part, Sound (form (readCtx s e p) l))
    (hsum : ∀ l ∈ lanes e, (context s e p form).formedSum l = va l)
    (hdata : ∀ l ∈ lanes e, data (context s e p form) l = (d l, d2 l))
    (hreaches : ∀ l ∈ lanes e, Reaches s e q l (va l) (d l) (d2 l) (as l)) (act : Ctx → State) :
    issue s p form (globalLate q (fun c => lanes c.e) data) act =
      .next (retired e p.h p.cut (act { context s e p form with accs := madeBy e (lanes e) ((lanes e).flatMap as) })) := by
  refine issue_lanes hready usual hsound (fun l hl => ?_) act
  dsimp only
  rw [hsum l hl, hdata l hl]
  exact globalLane_reaches (hreaches l hl)

/-! ### The plan of an atomic -/

/-- The plan of an atomic: `xs` are its sources, `dst` its destination when it returns the old value. -/
def atomicPlan (h : Hints) (xs : List Src) (dst : Option (Reg × Nat)) : Plan :=
  { h := h, dataB := true, srcs := xs, dst := dst, role := vectorOnly }

/-- That field B is data of the access alone does not bear on what disturbs an issue. -/
theorem ready_atomicPlan {s : State} {e : Env} {h : Hints} {xs : List Src} {dst : Option (Reg × Nat)}
    (hready : Ready s e { h := h, srcs := xs, dst := dst, role := vectorOnly }) : Ready s e (atomicPlan h xs dst) :=
  ⟨hready.env, hready.cancel, hready.legal, hready.role, hready.takes, hready.srcs, hready.guards, hready.selects, hready.links, hready.calm⟩

theorem atomTy_words (ty : AtomTy) : ty.words = 1 ∨ ty.words = 2 := by cases ty <;> simp [AtomTy.words]

/-- The address of an atomic is the value of its base. -/
theorem formedSum_base {s : State} {e : Env} {p : Plan} {form : Ctx → Nat → LaneRes} (hready : Ready s e p) {a : Reg} {m k l : Nat}
    (hm : m = 1 ∨ m = 2) (hbase : p.srcs[0]? = some (srcA a m).consumed) (hl : l ∈ formLanes e p)
    (hwords : (form (readCtx s e p) l).words = (baseAlone (32 * m) (readCtx s e p) l).words ++ List.replicate k 0#32) :
    (context s e p form).formedSum l = value s e p.srcs 0 l := by
  have hlt : value s e p.srcs 0 l < 2 ^ (32 * m) := value_lt hready hbase hm l
  rw [words_baseAlone hready (formLanes_part hl)] at hwords
  rw [formedSum_of_words hready hl (by omega) hwords, Nat.mod_mod, Nat.mod_eq_of_lt hlt]

/-! ### The bank ALU (R108) -/

theorem length_wordsOf_atom (ty : AtomTy) (v : Nat) : (wordsOf (32 * ty.words) v).length = ty.words := by
  rcases atomTy_words ty with h | h <;> simp [h, wordsOf]

theorem length_atomWords (ty : AtomTy) (op : AtomOp) (old b : List CWord) : (atomWords ty op old b).length = ty.words := by
  unfold atomWords
  dsimp only
  split <;> rw [List.length_map, length_wordsOf_atom]

theorem length_casWords_le {old b c : List CWord} {n : Nat} (hold : old.length ≤ n) (hc : c.length ≤ n) : (casWords old b c).length ≤ n := by
  unfold casWords
  split
  · rwa [List.length_map]
  · exact hold

theorem length_bankWords_atom (ty : AtomTy) (op : AtomOp) (n : Nat) (c : Ctx) (l o : Nat) :
    (bankWords (.atom ty op) n c l o).length ≤ ty.words := (length_atomWords ..).le

theorem length_bankWords_cas (ty : AtomTy) {n : Nat} {c : Ctx} {l : Nat} (hnew : (c.src 2 l).length ≤ n) (o : Nat) :
    (bankWords (.cas ty) n c l o).length ≤ n := by
  refine length_casWords_le ?_ hnew
  rw [List.length_map]
  cases c.s.wg? c.e.r.wg with
  | none => exact Nat.zero_le n
  | some w => simp [Wg.spadRead]

theorem xorWords_zeros {ws : List Word} {n : Nat} (h : ws.length ≤ n) : xorWords ws (List.replicate n 0#32) = ws := by
  induction ws generalizing n with
  | nil => rfl
  | cons w ws ih =>
    obtain ⟨m, rfl⟩ : ∃ m, n = m + 1 := ⟨n - 1, by simp only [List.length_cons] at h; omega⟩
    have htail := ih (n := m) (by simpa using h)
    simp only [xorWords] at htail ⊢
    simp [List.replicate_succ, htail]

theorem words_bankForm (k : AccKind) (n : Nat) (c : Ctx) (l : Nat) :
    (bankForm k n c l).words = (baseAlone 32 c l).words ++ List.replicate n 0#32 := rfl

/-- The prediction of the bank ALU raises no alarm when nothing upsets its words. -/
theorem bankForm_sound {k : AccKind} {n : Nat} {c : Ctx} {l : Nat} (hlength : ∀ o, (bankWords k n c l o).length ≤ n) :
    Sound (bankForm k n c l) := by
  have haddr : Sound (baseAlone 32 c l) := addr_sound (.inl rfl) ..
  by_cases hpoison : (baseAlone 32 c l).bad.any id = true
  · have hbad : (bankForm k n c l).bad.any id = true := by
      rw [bankForm, List.any_append, hpoison, Bool.true_or]
    exact if_pos hbad
  · refine sound_of_check ?_
    have hcheck : (baseAlone 32 c l).check (baseAlone 32 c l).words = none := by
      unfold Sound LaneRes.stage at haddr
      rwa [if_neg hpoison] at haddr
    have hdrop : (bankForm k n c l).words.drop 1 = List.replicate n 0#32 := rfl
    have htake : (bankForm k n c l).words.take 1 = (baseAlone 32 c l).words := rfl
    generalize (bankForm k n c l).words = ws at hdrop htake
    simp only [bankForm, hdrop, htake, hcheck]
    split
    · rfl
    · rw [xorWords_zeros (by simpa using hlength _)]
      exact predicted_one rfl

/-- Accesses of a bank ALU with what its words are off by: nothing. -/
def withoutError (n : Nat) (a : Acc) : Acc := { a with err := List.replicate n 0#32 }

theorem bankErrs_calm {s : State} {e : Env} {p : Plan} {k : AccKind} {n : Nat} (hready : Ready s e p) {ls : List Nat} {f : Nat → Acc}
    (hls : ∀ l ∈ ls, l ∈ formLanes e p) (hlane : ∀ l, (f l).lane = l) :
    bankErrs { context s e p (bankForm k n) with accs := madeBy e ls (ls.map f) } =
      { context s e p (bankForm k n) with accs := madeBy e ls (ls.map fun l => withoutError n (f l)) } := by
  have herr : ∀ l ∈ ls, (((context s e p (bankForm k n)).formed.find? fun x => x.1 == l).map fun x => x.2.words.drop 1).getD [] =
      List.replicate n 0#32 := by
    intro l hl
    rw [find?_formed hready (hls l hl)]
    rfl
  unfold bankErrs madeBy
  split <;>
  · simp only [List.map_map]
    congr 1
    refine List.map_congr_left fun l hl => ?_
    simp only [Function.comp, hlane, herr l hl, withoutError]

/-! ### Issues -/

section Issues

variable {s : State} {e : Env} {h : Hints} {ty : AtomTy} {xs : List Src} {dst : Option (Reg × Nat)} {a : Reg} {k : AccKind}
  {lanes : Env → List Nat} {data : Ctx → Nat → List CWord × List CWord} {d d2 : Nat → List CWord}
  (hready : Ready s e (atomicPlan h xs dst)) (hls : ∀ l ∈ lanes e, l ∈ formLanes e (atomicPlan h xs dst))

include hready hls

/-- An atomic at the home, or in host memory. -/
theorem issue_atomGlobal {as : Nat → List Acc} (hbase : xs[0]? = some (srcA a 2).consumed)
    (hdata : ∀ l ∈ e.part, data (context s e (atomicPlan h xs dst) (baseAlone 64)) l = (d l, d2 l))
    (hreaches : ∀ l ∈ lanes e, Reaches s e (atomReq ty k) l (value s e xs 0 l) (d l) (d2 l) (as l)) (o : Env → MemOp) :
    issue s (atomicPlan h xs dst) (baseAlone 64) (globalLate (atomReq ty k) (fun c => lanes c.e) data)
        (fun c => launchAccs c false (o c.e)) =
      .next (retired e h false (inFlight s e false (madeBy e (lanes e) ((lanes e).flatMap as)) (o e))) := by
  refine (issue_global hready rfl (fun _ _ => addr_sound (.inr rfl) ..)
    (fun l hl => formedSum_base (k := 0) hready (.inr rfl) hbase (hls l hl) (by simp))
    (fun l hl => hdata l (formLanes_part (hls l hl))) hreaches _).trans ?_
  rw [launchAccs_inFlight hready]
  rfl

/-- An atomic at a bank ALU. -/
theorem issue_atomSpad (hbase : xs[0]? = some (srcA a 1).consumed)
    (hlength : ∀ l ∈ e.part, ∀ o, (bankWords k ty.words (readCtx s e (atomicPlan h xs dst)) l o).length ≤ ty.words)
    (hdata : ∀ l ∈ e.part, data (context s e (atomicPlan h xs dst) (bankForm k ty.words)) l = (d l, d2 l))
    (hfits : ∀ l ∈ lanes e, fits e (value s e xs 0 l) (4 * ty.words)) (o : Env → MemOp) :
    issue s (atomicPlan h xs dst) (bankForm k ty.words) (spadLate k (4 * ty.words) ownSpad (fun c => lanes c.e) data)
        (fun c => launchAccs (bankErrs c) true (o c.e)) =
      .next (retired e h false (inFlight s e true (madeBy e (lanes e) ((lanes e).map fun l =>
        withoutError ty.words (onSpad k (4 * ty.words) none l (value s e xs 0 l) (d l) (d2 l)))) (o e))) := by
  refine (issue_spad (offset := value s e xs 0) hready rfl (fun l hl => bankForm_sound (hlength l hl)) (targets_own e) (fun l hl => ?_)
    (fun l hl => hdata l (formLanes_part (hls l hl))) hfits _).trans ?_
  · rw [formedSum_base hready (.inl rfl) hbase (hls l hl) (words_bankForm ..)]
    exact Nat.mod_eq_of_lt (value_lt hready hbase (.inl rfl) l)
  · rw [bankErrs_calm hready hls fun _ => rfl, launchAccs_inFlight hready]
    rfl

end Issues

/-! ### The statement -/

/-- Settles O32: every lane's address passes the checks of R420, the bank ALU's prediction agrees with its result, and the accesses
are put in flight as one operation. -/
theorem atomics : Obligations.Atomics := by
  unfold Obligations.Atomics
  intro h ty op sc d a b c as
  have hreturns {e : Env} {xs : List Src} : ∀ l ∈ accessors e (some d) a.isS, l ∈ formLanes e (atomicPlan h xs (some (d, ty.words))) :=
    fun l hl => accessors_formLanes rfl hl
  have hsilent {e : Env} {xs : List Src} : ∀ l ∈ makers e (uniformAddr a b), l ∈ formLanes e (atomicPlan h xs none) :=
    fun l hl => makers_part hl
  refine ⟨?_, ?_, ?_, ?_, ?_, ?_⟩
  · intro s e hready hreaches
    have hready := ready_atomicPlan hready
    exact issue_atomGlobal (lanes := fun e => accessors e (some d) a.isS) hready hreturns rfl
      (fun l hl => congrArg (·, []) (context_src hready hl 1)) hreaches fun e => { returning e h d a.isS (4 * ty.words) false with scope := sc }
  · intro s e hready hreaches
    have hready := ready_atomicPlan hready
    exact issue_atomGlobal (lanes := fun e => makers e (uniformAddr a b)) hready hsilent rfl
      (fun l hl => congrArg (·, []) (context_src hready hl 1)) hreaches fun _ => { MemOp.blank with scope := sc }
  · intro s e hready hreaches
    have hready := ready_atomicPlan hready
    exact issue_atomGlobal (lanes := fun e => accessors e (some d) a.isS) hready hreturns rfl
      (fun l hl => congrArg₂ Prod.mk (context_src hready hl 1) (context_src hready hl 2)) hreaches
      fun e => { returning e h d a.isS (4 * ty.words) false with scope := sc }
  · intro s e hready hfits
    have hready := ready_atomicPlan hready
    exact issue_atomSpad (lanes := fun e => accessors e (some d) a.isS) hready hreturns rfl (fun _ _ _ => length_bankWords_atom ..)
      (fun l hl => congrArg (·, []) (context_src hready hl 1)) hfits fun e => returning e h d a.isS (4 * ty.words) false
  · intro s e hready hfits
    have hready := ready_atomicPlan hready
    exact issue_atomSpad (lanes := fun e => makers e (uniformAddr a b)) hready hsilent rfl (fun _ _ _ => length_bankWords_atom ..)
      (fun l hl => congrArg (·, []) (context_src hready hl 1)) hfits fun _ => MemOp.blank
  · intro s e hready hfits
    have hready := ready_atomicPlan hready
    have hlength : ∀ l, (given s e (srcC c ty.words) l).length = ty.words :=
      given_length (hready.srcs _ (List.mem_of_getElem? (i := 2) rfl)) (atomTy_words ty)
    exact issue_atomSpad (lanes := fun e => accessors e (some d) a.isS) hready hreturns rfl
      (fun l hl => length_bankWords_cas ty ((congrArg List.length (src_given hready hl 2)).trans (hlength l)).le)
      (fun l hl => congrArg₂ Prod.mk (context_src hready hl 1) (context_src hready hl 2)) hfits
      fun e => returning e h d a.isS (4 * ty.words) false

end Sys2Proof.Proofs
end

section
/-! `GRN.qry` over a granule whose copies disagree (R110, R309, R371): the refutation of O31. -/

namespace Sys2Proof.Proofs

open Sys2Proof.Machine Sys2Proof.Safety

/-- The launch of `overSum` with one unit of scratchpad, in which an upset has left the copies of granule 0 unlike; the host's event
ring stands in host memory, and is empty. -/
def disagreeing : State :=
  { overSum with
    launches := overSum.launches.map fun x => (x.1, { x.2 with sheet := { x.2.sheet with spad := 1 } })
    wgs := overSum.wgs.map fun x => (x.1, { x.2 with gran := [(0, true)] })
    host := { overSum.host with evBase := BitVec.ofNat 64 (2 ^ 51), evLog := 8 } }

theorem disagreeing_issues : (env? disagreeing plainHints).isSome = true := by decide

/-- The environment of its issue. -/
def disagreeingEnv : Env := (env? disagreeing plainHints).get disagreeing_issues

/-- The plan of a `GRN.qry` of the 16 bytes at the offset in uniform register 0. -/
def countingPlan : Plan :=
  { h := plainHints, srcs := [(srcA (.s 0) 1).consumed, (srcB (.imm 16) 1).consumed], dst := some (.s 0, 1), role := vectorOnly }

theorem disagreeing_ready : Ready disagreeing disagreeingEnv countingPlan where
  env := (Option.some_get _).symm
  cancel := by decide
  legal := by decide
  role := by decide
  takes := by decide
  srcs := by
    intro x hx
    simp only [countingPlan, List.mem_cons, List.not_mem_nil, or_false] at hx
    obtain rfl | rfl := hx
    · exact ⟨by decide, nofun, by decide⟩
    · exact ⟨by decide, nofun, by decide⟩
  guards := by decide
  selects := by decide
  links := by decide
  calm := by decide

/-- The range of that `GRN` is granule 0. -/
theorem disagreeing_range :
    let o := value disagreeing disagreeingEnv countingPlan.srcs 0 (disagreeingEnv.part.headD 0)
    let n := value disagreeing disagreeingEnv countingPlan.srcs 1 (disagreeingEnv.part.headD 0)
    o % 16 = 0 ∧ n % 16 = 0 ∧ n ≠ 0 ∧ o + n ≤ disagreeingEnv.sheet.spadBytes := by decide +kernel

/-- The read raises a record (R110), and the record posts its event 0x0A in the host's ring (R371, R469). -/
theorem disagreeing_posts : ∃ t, exec (.grnQry plainHints 0 0 (.imm 16)) disagreeing = .next t ∧
    rdByte t.mm.bytes (2 ^ 51) = 0x0A#8 := by
  refine ⟨_, rfl, ?_⟩
  decide +kernel

/-- Refutes O31: its clause for `GRN.qry` leaves memory as it was whether or not the copies of a granule agree, and asks for
agreeing copies only of the count; where they disagree, as in `disagreeing`, the read raises a record, whose event goes to the host's
ring in memory. -/
theorem not_granules : ¬ Obligations.Granules := by
  unfold Obligations.Granules
  intro hall
  obtain ⟨-, -, -, -, -, hcount⟩ := hall.1 plainHints 0 0 (.imm 16)
  obtain ⟨t, hsaid, hmemory, -, -⟩ := hcount disagreeing disagreeingEnv disagreeing_ready disagreeing_range (by decide)
  obtain ⟨t', hposts, hevent⟩ := disagreeing_posts
  obtain rfl : t' = t := Host.Outcome.next.inj (hposts.symm.trans hsaid)
  rw [hmemory] at hevent
  exact absurd hevent (by decide +kernel)

end Sys2Proof.Proofs
end

section
/-! Rounding a number of a standard format into that format (R174, R182, R239): O6. -/

namespace Sys2Proof.Proofs

open Sys2Proof.Machine Sys2Proof.Safety

/-! ### The exact value of a code -/

theorem scaled_eq_num (s : Bool) (k : Nat) (x : Int) : Val.scaled s k x = .num s (k * 2 ^ x.toNat) (2 ^ (-x).toNat) := by
  unfold Val.scaled
  split
  · next h => rw [Int.toNat_eq_zero.mpr (by omega : -x ≤ 0), pow_zero]
  · next h => rw [Int.toNat_eq_zero.mpr (by omega : x ≤ 0), pow_zero, mul_one]

theorem ilog2_mul_pow {k : Nat} (hk : k ≠ 0) (a b : Nat) : ilog2 (k * 2 ^ a) (2 ^ b) = k.log2 + a - b := by
  have hle : ∀ m, 2 ^ (k.log2 + m) ≤ k * 2 ^ m := fun m => by
    rw [pow_add]
    exact Nat.mul_le_mul_right _ (Nat.log2_self_le hk)
  have hlog : (k * 2 ^ a).log2 = k.log2 + a := by
    rw [Nat.log2_eq_iff (by positivity), add_right_comm, pow_add _ (k.log2 + 1)]
    exact ⟨hle a, Nat.mul_lt_mul_of_pos_right Nat.lt_log2_self (by positivity)⟩
  unfold ilog2
  simp only [hlog, Nat.log2_two_pow, Nat.cast_add]
  split
  · next h =>
    have hexp : b + ((k.log2 + a : Int) - b).toNat = k.log2 + a := by omega
    rw [if_pos (by rw [← pow_add, hexp]; exact hle a)]
  · next h =>
    have hexp : k.log2 + (a + (-((k.log2 + a : Int) - b)).toNat) = b := by omega
    rw [if_pos (by rw [mul_assoc, ← pow_add]; exact (congrArg (2 ^ ·) hexp).symm.trans_le (hle _))]

/-! ### Grid magnitudes -/

/-- A magnitude whose last bit has the weight that the grid gives it lies on the grid: nothing remains. -/
theorem gridPos_scaled (g : Grid) {k : Nat} {x : Int} (hk : k ≠ 0) (hx : max (k.log2 + x - ((g.p : Int) - 1)) g.xmin = x) :
    g.pos (k * 2 ^ x.toNat) (2 ^ (-x).toNat) =
      ⟨(x - g.xmin).toNat * 2 ^ (g.p - 1) + k, 0, 2 ^ (-x).toNat * 2 ^ x.toNat⟩ := by
  have hlog : ilog2 (k * 2 ^ x.toNat) (2 ^ (-x).toNat) = k.log2 + x := by
    rw [ilog2_mul_pow hk]
    omega
  have hn : (if 0 ≤ x then k * 2 ^ x.toNat else k * 2 ^ x.toNat * 2 ^ (-x).toNat) = k * (2 ^ (-x).toNat * 2 ^ x.toNat) := by
    split
    · next h => rw [Int.toNat_eq_zero.mpr (by omega : -x ≤ 0), pow_zero, one_mul]
    · rw [mul_assoc, mul_comm (2 ^ x.toNat)]
  have hd : (if 0 ≤ x then 2 ^ (-x).toNat * 2 ^ x.toNat else 2 ^ (-x).toNat) = 2 ^ (-x).toNat * 2 ^ x.toNat := by
    split
    · rfl
    · next h => rw [Int.toNat_eq_zero.mpr (by omega : x ≤ 0), pow_zero, mul_one]
  have hunit : 0 < 2 ^ (-x).toNat * 2 ^ x.toNat := by positivity
  unfold Grid.pos
  rw [if_neg (by simp [hk])]
  simp only [hlog, hx, hn, hd, Nat.mul_div_cancel _ hunit, Nat.mul_mod_left]

theorem mag_of_lt (g : Grid) {code : Nat} (h : code < 2 ^ (g.p - 1)) : g.mag code = (code, g.xmin) := if_pos h

theorem mag_of_le (g : Grid) {code : Nat} (h : 2 ^ (g.p - 1) ≤ code) :
    g.mag code = (2 ^ (g.p - 1) + code % 2 ^ (g.p - 1), g.xmin + (code / 2 ^ (g.p - 1) : Nat) - 1) := if_neg h.not_gt

theorem mag_zero (g : Grid) : g.mag 0 = (0, g.xmin) := mag_of_lt g (Nat.two_pow_pos _)

theorem mag_ne_zero (g : Grid) {code : Nat} (hc : code ≠ 0) : (g.mag code).1 ≠ 0 := by
  rcases lt_or_ge code (2 ^ (g.p - 1)) with hsub | hnormal
  · rwa [mag_of_lt g hsub]
  · rw [mag_of_le g hnormal]
    exact (Nat.add_pos_left (Nat.two_pow_pos _) _).ne'

/-- A code is that of its own magnitude, subnormal or normal. -/
theorem gridPos_mag (g : Grid) {code : Nat} (hp : 0 < g.p) (hc : code ≠ 0) :
    ∃ den, g.pos ((g.mag code).1 * 2 ^ (g.mag code).2.toNat) (2 ^ (-(g.mag code).2).toNat) = ⟨code, 0, den⟩ := by
  have hpos : 0 < 2 ^ (g.p - 1) := Nat.two_pow_pos _
  rcases lt_or_ge code (2 ^ (g.p - 1)) with hsub | hnormal
  · rw [mag_of_lt g hsub]
    have hlog : code.log2 < g.p - 1 := (Nat.log2_lt hc).mpr hsub
    exact ⟨_, by rw [gridPos_scaled g hc (by omega), Int.sub_self, Int.toNat_zero, zero_mul, zero_add]⟩
  · rw [mag_of_le g hnormal]
    have hk : 2 ^ (g.p - 1) + code % 2 ^ (g.p - 1) ≠ 0 := by omega
    have hlog : (2 ^ (g.p - 1) + code % 2 ^ (g.p - 1)).log2 = g.p - 1 := by
      have := Nat.mod_lt code hpos
      rw [Nat.log2_eq_iff hk, pow_succ]
      omega
    have hquot : 0 < code / 2 ^ (g.p - 1) := Nat.div_pos hnormal hpos
    have hexp : (g.xmin + (code / 2 ^ (g.p - 1) : Nat) - 1 - g.xmin).toNat = code / 2 ^ (g.p - 1) - 1 := by omega
    have hcode : (code / 2 ^ (g.p - 1) - 1) * 2 ^ (g.p - 1) + (2 ^ (g.p - 1) + code % 2 ^ (g.p - 1)) = code := by
      rw [← add_assoc, ← Nat.succ_mul, Nat.succ_eq_add_one, Nat.sub_add_cancel hquot, Nat.div_add_mod']
    exact ⟨_, by rw [gridPos_scaled g hk (by rw [hlog]; omega), hexp, hcode]⟩

/-! ### Rounding on the grid (R182) -/

theorem grid_p_pos (t : FloatTy) : 0 < t.grid.p := by cases t <;> decide

/-- A magnitude on the grid keeps its code whatever the rounding code: there is no remainder to round up. -/
theorem roundTo_of_pos (t : FloatTy) (c : Ctl) (r16 : Nat) (s : Bool) {n d code den : Nat} (hn : n ≠ 0)
    (hpos : t.grid.pos n d = ⟨code, 0, den⟩) (hc : code < t.infCode) :
    (roundTo (.ieee t) c r16 (.num s n d)).bits = (Fmt.ieee t).pack s code := by
  have hfits : ¬ t.infCode - 1 < code := by omega
  simp [roundTo, hn, Fmt.pos, hpos, roundUp, Fmt.unsigned, Fmt.maxCode, hfits]

theorem roundTo_mag (t : FloatTy) (c : Ctl) (r16 : Nat) (s : Bool) {code : Nat} (hc : code < t.infCode) :
    (roundTo (.ieee t) c r16 (.scaled s (t.grid.mag code).1 (t.grid.mag code).2)).bits = (Fmt.ieee t).pack s code := by
  rw [scaled_eq_num]
  rcases eq_or_ne code 0 with rfl | h0
  · simp [mag_zero, roundTo]
  · obtain ⟨den, hpos⟩ := gridPos_mag t.grid (grid_p_pos t) h0
    exact roundTo_of_pos t c r16 s (mul_ne_zero (mag_ne_zero _ h0) (by positivity)) hpos hc

theorem roundTo_inf (t : FloatTy) (c : Ctl) (r16 : Nat) (s : Bool) :
    (roundTo (.ieee t) c r16 (.inf s)).bits = (Fmt.ieee t).pack s t.infCode := rfl

/-! ### The bits of a standard format (R174) -/

/-- The sign of a code of `t.bits` bits. -/
def signOf (t : FloatTy) (x : Nat) : Bool := x / 2 ^ (t.bits - 1) % 2 == 1

theorem pack_signOf (t : FloatTy) {x : Nat} (hx : x < 2 ^ t.bits) : (Fmt.ieee t).pack (signOf t x) (x % 2 ^ (t.bits - 1)) = x := by
  have hsign : x / 2 ^ (t.bits - 1) < 2 := Nat.div_lt_of_lt_mul (by rwa [half_half, ← mul_two] at hx)
  have hsplit := Nat.div_add_mod x (2 ^ (t.bits - 1))
  rcases Nat.le_one_iff_eq_zero_or_eq_one.mp (Nat.le_of_lt_succ hsign) with hpositive | hnegative
  · simpa [Fmt.pack, signOf, hpositive] using hsplit
  · simpa [Fmt.pack, signOf, hnegative] using hsplit

/-- A code that is not that of NaN is an infinity, or a grid magnitude below it. -/
theorem val_ieee_cases (t : FloatTy) (x : Nat) (h : (Fmt.ieee t).val x ≠ .nan) :
    (x % 2 ^ (t.bits - 1) = t.infCode ∧ (Fmt.ieee t).val x = .inf (signOf t x)) ∨
      (x % 2 ^ (t.bits - 1) < t.infCode ∧
        (Fmt.ieee t).val x =
          .scaled (signOf t x) (t.grid.mag (x % 2 ^ (t.bits - 1))).1 (t.grid.mag (x % 2 ^ (t.bits - 1))).2) := by
  rcases lt_trichotomy (x % 2 ^ (t.bits - 1)) t.infCode with hlt | heq | hgt
  · exact .inr ⟨hlt, by simp [Fmt.val, signOf, hlt.not_gt, hlt.ne]⟩
  · exact .inl ⟨heq, by simp [Fmt.val, signOf, heq]⟩
  · exact absurd (if_pos hgt) h

/-! ### The statement -/

/-- An infinity rounds to itself, and a finite number lies on the grid of its format, at its own code. -/
theorem roundTo_val (t : FloatTy) (c : Ctl) (r16 x : Nat) (h : (Fmt.ieee t).val x ≠ .nan) :
    (roundTo (.ieee t) c r16 ((Fmt.ieee t).val x)).bits = (Fmt.ieee t).pack (signOf t x) (x % 2 ^ (t.bits - 1)) := by
  rcases val_ieee_cases t x h with ⟨hcode, hval⟩ | ⟨hcode, hval⟩
  · rw [hval, roundTo_inf, hcode]
  · rw [hval, roundTo_mag t c r16 _ hcode]

/-- Settles O6: a number keeps its sign and its magnitude code, and these are its bits. -/
theorem roundingIsExact : Obligations.RoundingIsExact := by
  unfold Obligations.RoundingIsExact
  intro t c r16 x _ hx hnum
  exact (roundTo_val t c r16 x hnum).trans (pack_signOf t hx)

end Sys2Proof.Proofs
end
